-- ==== Sys2Proof/Word.lean ====
section
/-! DEFINITION. The words of the manual: bytes, register words and FP32 patterns (spec 00 R7). -/

namespace Sys2Proof

/-- One byte of memory, of a descriptor or of a message. -/
abbrev Byte := BitVec 8
/-- A 32-bit register word or descriptor word. -/
abbrev W32 := BitVec 32
/-- An FP32 pattern (IEEE 754 binary32, 02 R38). -/
abbrev F32 := BitVec 32

end Sys2Proof
end

