-- ==== Sys2Proof/Syntax.lean ====
section
/-! DEFINITION. The commands of the block, one constructor per row of spec/opcode_table.json, and the types of their operands. -/

namespace Sys2Proof

/-- The two PCIe ports (09 R282). -/
inductive Port where
  | pa
  | pb
deriving DecidableEq, Repr

/-- Who reaches the registers (16 R490): a function of a port (0 the PF, n the VF n), or the management port. -/
inductive Agent where
  | host (port : Port) (fn : Nat)
  | mgmt
deriving DecidableEq, Repr

/-- How a management or attestation message travels (14 R441, 15 R471). -/
inductive Transport where
  | mctp
  | mbox (port : Port)
  | doe (port : Port)
deriving DecidableEq, Repr

/-- A read of so many bytes, or a write of these bytes (03 R105). -/
inductive Access where
  | rd (len : Nat)
  | wr (data : List Byte)
deriving DecidableEq, Repr

/-- What PCIe configuration does to MSI-X (09 R313): the function's enable and mask, and the mask of one vector. -/
inductive MsixOp where
  | enable (on : Bool)
  | maskAll (on : Bool)
  | mask (vector : Nat)
  | unmask (vector : Nat)
deriving DecidableEq, Repr

/-- A fret command frame (03 R79): the core die it is sent to, sixteen words and the payload. -/
structure Frame where
  stack : Nat
  die : Nat
  dw : List Nat
  payload : List Byte
deriving DecidableEq, Repr

/-- What a decoder met at a column of a fret domain during the access (03 R107). -/
inductive FlawKind where
  | single
  | double
  | parity
  | tag
deriving DecidableEq, Repr

structure Flaw where
  fret : Nat
  col : Nat
  kind : FlawKind
  symbol : Nat
deriving DecidableEq, Repr

/-- A frame that reads rows without a strum or a pluck, with what decoders met at the columns it reads (03 R107). -/
structure ReadFrame where
  frame : Frame
  flaws : List Flaw
deriving DecidableEq, Repr

/-- An access through BAR4, with what decoders met at its columns (03 R105, R107). -/
structure ApertureAccess where
  acc : Access
  flaws : List Flaw
deriving DecidableEq, Repr

/-- One entry of a selection block (05 R137): ID, scaled score and EFLAGS. -/
structure Entry where
  id : Nat
  score : F32
  ef : Nat
deriving DecidableEq, Repr

/-- A selection block (05 R137): the summary and its valid entries. -/
structure SelBlock where
  m : F32
  sSel : F32
  sOut : F32
  ties : Nat
  scanned : Nat
  flags : Nat
  disagree : Nat
  dedup : Nat
  entries : List Entry
deriving DecidableEq, Repr

/-- What a TFP message carries (12 R394, 05 R163, 13 R410). The manual names these contents and gives no byte layout for them; a summary comes with its RESULT_COUNT (05 R137). -/
inductive Body where
  | empty
  | bytes (l : List Byte)
  | collOpen (coll rootPart count k : Nat) (ties : Bool)
  | collGrant (coll credit : Nat)
  | collData (coll query seq : Nat) (summary : Option (Nat × SelBlock)) (entries : List Entry)
  | collDone (coll : Nat)
  | collAbort (coll status sub : Nat)
  | barArrive (bar parts : Nat)
  | barRelease (bar last status : Nat)
  | search (shard : Nat) (dw : List Nat) (queries : List Byte)
  | update (shard : Nat) (dw : List Nat) (input : List Byte)
  | fwdResult (status sub counter result edition : Nat) (out : List Byte)
  | comp (epoch crc result : Nat)
  | logReq (shard first credit : Nat)
  | logData (shard edition : Nat) (final : Bool) (part : List Byte)
  | shadowCopy (shard : Nat) (dw : List Nat) (query : List Byte)
  | shadowResult (shard : Nat) (ids : List Nat)
  | shadowReady (shard : Nat)
  | mergedM (coll query : Nat) (m : F32) (ids : List Nat)
  | valueSums (coll query : Nat) (vals : List F32)
deriving DecidableEq, Repr

/-- A TFP message received whole (12 R392); `ty` is its TYPE (12 R394), `link` the link it came on, `e2eOk` whether its E2E_CRC held. -/
structure Msg where
  ty : Nat
  link : Nat
  ver : Nat
  src : Nat
  srcPart : Nat
  dst : Nat
  dstPart : Nat
  epoch : Nat
  fanout : Bool
  ni : Bool
  resend : Bool
  hops : Nat
  txn : Nat
  addr : Nat
  arg : Nat
  e2eOk : Bool
  body : Body
deriving DecidableEq, Repr

/-- The peer's hello (12 R386): node ID, peer kind, lowest and highest TFP version, lane count. -/
structure Hello where
  node : Nat
  kind : Nat
  lo : Nat
  hi : Nat
  lanes : Nat
deriving DecidableEq, Repr

/-- What forward error correction reports with a flit (12 R382, R384): symbols corrected by lane, or an uncorrectable codeword. -/
structure Fec where
  uncorr : Bool
  syms : List Nat
deriving DecidableEq, Repr

/-- How a codeword was decoded (11 R371): the step 1 to 4 that succeeded, or 0 for none, and the corrected bits. -/
structure Decoded where
  step : Nat
  bits : Nat
deriving DecidableEq, Repr

/-- A NAND die found in start stage 3 (11 R350). -/
structure NandDie where
  die : Nat
  answers : Bool
  pageBytes : Nat
  planes : Nat
  pagesPerBlock : Nat
  pages : Nat
  retry : Bool
  suspend : Bool
deriving DecidableEq, Repr

/-- What a start stage, or the work of a domain switched on, found (15 R454, R458, R461). -/
structure StartReport where
  badChannels : List Nat
  badDomains : List Nat
  badCourses : Nat
  nand : List NandDie
  rates : List (Nat × Nat)
  badNand : Nat
  avsOk : Bool
  mv : List Nat
deriving DecidableEq, Repr

/-- The commands (spec/opcode_table.json). -/
inductive Instr where
  /-- PUSH_WINDOW_WRITE (R290): A host memory write to a push window slot; the descriptor is submitted when the slot's 128 bytes are complete. -/
  | pushWindowWrite (port : Port) (fn off : Nat) (data : List Byte)
  /-- NOP (R300): The NOP command completes with OK once it is admitted. -/
  | nop (ctx : Nat)
  /-- FENCE (R300): The FENCE command completes once earlier commands of its scope, and optionally internal commands, have ended. -/
  | fence (ctx : Nat)
  /-- CORPUS_SEARCH (R231): Searches COUNT queries over a range of shards by graph walks, side-list strums and rerank. -/
  | corpusSearch (ctx : Nat)
  /-- SCAN (R236): Scores every row of a shard, side list or addressed row set exhaustively. -/
  | scan (ctx : Nat)
  /-- RERANK (R235): Rescores given candidate IDs from their full vectors. -/
  | rerank (ctx : Nat)
  /-- ATTEND (R186): Scores query heads of one layer against a context region and returns top-k, value sums, maximum and sums. -/
  | attend (ctx : Nat)
  /-- KV_APPEND (R181): Appends tokens to a segment of a context region, optionally binding the region descriptor. -/
  | kvAppend (ctx : Nat)
  /-- KV_TRIM (R201): Discards the last tokens of a segment or spills a segment to its pool image. -/
  | kvTrim (ctx : Nat)
  /-- GATHER (R263): Returns decoded rows named by index words, with coalescing and drops. -/
  | gather (ctx : Nat)
  /-- SCATTER_UPDATE (R273): Replaces, accumulates into or relabels shard vectors named by global ID. -/
  | scatterUpdate (ctx : Nat)
  /-- INSERT (R238): Adds vectors to a shard's side list and assigns their IDs. -/
  | insert (ctx : Nat)
  /-- DELETE (R240): Tombstones the named vectors of a shard. -/
  | delete (ctx : Nat)
  /-- CONSOLIDATE (R248): Links a batch of side-list entries into the graph or sweeps a slot range. -/
  | consolidate (ctx : Nat)
  /-- PREFETCH (R271): Reads rows named by index words into the partition's prefetch buffer. -/
  | prefetch (ctx : Nat)
  /-- BUILD_GRAPH (R249): Inserts vectors directly into the graph, optionally binding the shard. -/
  | buildGraph (ctx : Nat)
  /-- CALIBRATE (R301): Enters sample rows into the calibration history of one value record of one layer. -/
  | calibrate (ctx : Nat)
  /-- REQUANT (R302): Re-encodes one piece of a shard or region under a replacement quantisation record. -/
  | requant (ctx : Nat)
  /-- TOPK_MERGE (R159): Merges selection blocks locally or as a collective over the fabric. -/
  | topkMerge (ctx : Nat)
  /-- CHECKPOINT (R421): Records a shard or context region at its read edition to flash or host. -/
  | checkpoint (ctx : Nat)
  /-- RESTORE (R425): Restores a shard or region from checkpoint images, optionally replaying the log. -/
  | restore (ctx : Nat)
  /-- FLASH_TRIM (R380): Trims units of the partition's flash window outside editions. -/
  | flashTrim (ctx : Nat)
  /-- FLASH_READ (R380): Reads units of the partition's flash window, or one raw physical page. -/
  | flashRead (ctx : Nat)
  /-- FLASH_WRITE (R380): Writes units into the partition's flash window outside editions. -/
  | flashWrite (ctx : Nat)
  /-- ADMISSION_WAIT_END (R58): A command held in admission (ORDERED, FENCE, converting-command wait, RESTORE, collective limit) is admitted once its wait ends. -/
  | admissionWaitEnd (cmd : Nat)
  /-- SIDE_FULL (R227): An INSERT held for side-list room completes with SIDE_FULL when SIDE_TMO expires. -/
  | sideFull (cmd : Nat)
  /-- STAGE_RESUME (R241): A stage waiting for a slot record, an overlay entry or a held flash page resumes when that resource is freed. -/
  | stageResume (cmd : Nat)
  /-- COMMIT_PHASE (R517): After its stage has verified, a mutating command publishes the next edition and queues its record. -/
  | commitPhase (cmd : Nat)
  /-- SUB_BATCH_START (R338): A sub-batch of a command starts once the work area or free-pool memory is available. -/
  | subBatchStart (cmd : Nat)
  /-- WALK_START (R215): A waiting walk starts when a walk slot and its SRAM become free. -/
  | walkStart (walk : Nat)
  /-- EXPANSION_COMPLETE (R218): The adjacency read, plucks and slot-record reads of one expansion return and its targets are classified. -/
  | expansionComplete (walk slot : Nat)
  /-- SIDE_STRUM_BATCH (R226): A side-list strum batch starts when it holds 8 vectors or SIDE_WAIT has elapsed. -/
  | sideStrumBatch (shard : Nat)
  /-- AUTO_CONSOLIDATE (R228): GWE issues internal CONSOLIDATE batches when the side fill reaches 75 % of SIDE_CAP. -/
  | autoConsolidate (shard : Nat)
  /-- SWEEP_BATCH (R246): A sweep batch repairs adjacency records of a slot range and frees tombstoned slots at the end of a pass. -/
  | sweepBatch (shard : Nat)
  /-- MIGRATION_PASS (R178): When a layer's call count reaches a multiple of AGE_STEPS, counters are halved and rows move between tiers. -/
  | migrationPass (ctx layer : Nat)
  /-- AUTO_FULL_CHECKPOINT (R424): An internal full checkpoint is taken when a checkpoint area's free space falls below 25 %. -/
  | autoFullCheckpoint (target : Nat)
  /-- PERIODIC_CHECKPOINT (R424): At each PERIOD interval an internal incremental checkpoint is taken into the area. -/
  | periodicCheckpoint (target : Nat)
  /-- COMMAND_RERUN (R329): A killed command runs again when its resource is free and no higher-priority command waits. -/
  | commandRerun (cmd : Nat)
  /-- QLOAD (R81): Fret frame that loads a query vector or pair into a query slot. -/
  | qload (f : Frame)
  /-- QSCRUB (R82): Fret frame that zeroes query slots and local state. -/
  | qscrub (f : Frame)
  /-- STRUM (R83): Fret frame that scores every row of an extent and updates local state. -/
  | strum (f : Frame) (flaws : List Flaw)
  /-- PLUCK (R89): Fret frame that scores listed rows and returns score entries. -/
  | pluck (f : Frame) (flaws : List Flaw)
  /-- HIST (R84): Fret frame that bins the score buffer into histograms. -/
  | hist (f : Frame)
  /-- LIST (R81): Fret frame that readies the local list or buffered entries above BIN_MIN for the next STRING. -/
  | list (f : Frame)
  /-- EXPSUM (R86): Fret frame that forms one sums record per vector. -/
  | expsum (f : Frame)
  /-- VACC (R90): Fret frame that accumulates weighted value rows. -/
  | vacc (f : ReadFrame)
  /-- STRING (R92): Fret frame that moves and combines a local quantity along the die's string to the string end. -/
  | string (f : Frame)
  /-- STAGE_WRITE (R95): Fret frame that writes or copies columns into the staging area. -/
  | stageWrite (f : ReadFrame)
  /-- COMMIT_ROW (R96): Fret frame that verifies staged columns or publishes a row through an overlay entry. -/
  | commitRow (f : Frame) (flaws : List Flaw)
  /-- OVERLAY_FOLD (R99): SBC folds an overlay entry into its base row once no running command reads an older edition. -/
  | overlayFold (fret base : Nat)
  /-- SPARE_COPY_DONE (R109): The copy into a spare completes, the spare takes the fret index and stalled commands resume. -/
  | spareCopyDone (fret : Nat)
  /-- STACK_THERMAL (R107): A stack passing 85 °C or 95 °C doubles refresh or inserts idle cycles after strokes. -/
  | stackThermal (stack temp : Nat)
  /-- BAR4_ACCESS (R105): A host access through the BAR4 aperture reads or writes linear HBM as an ordinary access. -/
  | bar4Access (port : Port) (off : Nat) (acc : ApertureAccess)
  /-- WAVE_BOUNDARY (R113): A wave ends and the slice's Array arbiter chooses the next operation; pending fences take effect. -/
  | waveBoundary (part : Nat)
  /-- COURSE_PARITY_ERROR (R130): A course parity error discards its tiles, fences it and reissues the tiles in the same wave. -/
  | courseParityError (course : Nat)
  /-- COURSE_FENCE_WRITE (R129): A write of CTL.FENCE on a course page requests a fence or, with 0, an unfence after self-test. -/
  | courseFenceWrite (a : Agent) (course : Nat) (fence : Bool)
  /-- COURSE_SELFTEST_DONE (R131): A course self-test completes and the course rejoins its slice or stays fenced. -/
  | courseSelftestDone (course : Nat) (pass : Bool)
  /-- COLL_OPEN (R163): A contributor's request to join a collective, received at the root. -/
  | collOpen (m : Msg)
  /-- COLL_GRANT (R164): The root's credit for further COLL_DATA, received by a contributor. -/
  | collGrant (m : Msg)
  /-- COLL_DATA (R163): A part of a contributor's merged block, received and merged at the root. -/
  | collData (m : Msg)
  /-- COLL_DONE (R162): The root's confirmation of receipt, completing a contributor with OK. -/
  | collDone (m : Msg)
  /-- COLL_ABORT (R165): The root's abort of a collective, completing the contributor with its status. -/
  | collAbort (m : Msg)
  /-- COLLECTIVE_TIMEOUT (R165): COL_CFG.TMO expires for a collective's opens, grant or stream and the collective ends CANCELLED. -/
  | collectiveTimeout (coll part : Nat)
  /-- BAR_ARRIVE (R418): A member's arrival at a barrier, received at the root. -/
  | barArrive (m : Msg)
  /-- BAR_RELEASE (R418): The root's release of a barrier, naming the last arriver, received by a member. -/
  | barRelease (m : Msg)
  /-- BARRIER_TIMEOUT (R419): Not every member arrives within COL_BAR_CFG.TMO and the barrier ends with status 1. -/
  | barrierTimeout (bar : Nat)
  /-- HELLO (R386): Link-up exchange of hello control flits that brings a trained link UP or leaves it DOWN. -/
  | hello (link : Nat) (h : Hello)
  /-- FLIT_RECEIVE (R384): A data or control flit arrives: accepted in SEQ order, credits and ACKs taken, or discarded with a retry request. -/
  | flitReceive (link : Nat) (flit : List Byte) (fec : Fec)
  /-- REPLAY_TIMEOUT (R384): A sender whose ACK has not advanced for 10 µs replays from the oldest unacknowledged flit. -/
  | replayTimeout (link : Nat)
  /-- LANE_FAIL (R388): A lane exceeds its symbol-error threshold or loses lock and the link retrains narrower. -/
  | laneFail (link lane : Nat)
  /-- RETRAIN_TIMEOUT (R389): A retrain not complete within 40 µs leaves the link DOWN. -/
  | retrainTimeout (link : Nat)
  /-- QUARANTINE_RETRY (R391): At the end of a back-off period the Nut retrains a quarantined link or a narrowed link tries full width. -/
  | quarantineRetry (link : Nat) (ok : Bool)
  /-- DUP_PAIR_EXPIRY (R396): A kept (SRC_NODE, TXN) pair leaves the duplicate table after 2^20 ticks. -/
  | dupPairExpiry (src txn : Nat)
  /-- POOL_RD (R403): A pool read request, served by the exporter with ordinary accesses. -/
  | poolRd (m : Msg)
  /-- POOL_DATA (R404): A pool read response, received into reserved response space. -/
  | poolData (m : Msg)
  /-- POOL_WR (R403): A pool write request, written by the exporter and acknowledged. -/
  | poolWr (m : Msg)
  /-- POOL_ACK (R403): A pool write acknowledgement, received by the requester. -/
  | poolAck (m : Msg)
  /-- REFUSE (R397): A refusal of a request, received with its reason. -/
  | refuse (m : Msg)
  /-- REFUSE_RESEND (R397): After the RATE back-off wait, a refused request is re-sent. -/
  | refuseResend (txn : Nat)
  /-- POOL_TIMEOUT (R404): A pool request without response within TMO is re-sent once or declared lost. -/
  | poolTimeout (txn : Nat)
  /-- SEARCH_REQ (R250): A forwarded sharded-search request, walked by the owner. -/
  | searchReq (m : Msg)
  /-- UPDATE_REQ (R278): A forwarded mutating command or sub-batch, admitted by the owner. -/
  | updateReq (m : Msg)
  /-- FWD_ACCEPT (R280): The owner's notice that it admitted a forwarded request. -/
  | fwdAccept (m : Msg)
  /-- FWD_RESULT (R279): An owner's output, summary and status, merged at the origin. -/
  | fwdResult (m : Msg)
  /-- EPOCH_STALE (R415): A peer's epoch-stale answer, making the origin re-admit, re-stage or complete the command. -/
  | epochStale (m : Msg)
  /-- MAP_LOAD (R408): CMP_CHANGE.MAP_LOAD reads and checks a composition map image. -/
  | mapLoad (a : Agent) (image : Option (List Byte))
  /-- GO (R410): CMP_CHANGE.GO on the coordinator starts a composition change. -/
  | go (a : Agent)
  /-- ABORT (R410): CMP_CHANGE.ABORT drops a member's prepared epoch. -/
  | abort (a : Agent)
  /-- COMP_PREPARE (R410): Coordinator's prepare of a new epoch, checked by the member under R411. -/
  | compPrepare (m : Msg)
  /-- COMP_READY (R410): Member's answer to a prepare, collected by the coordinator. -/
  | compReady (m : Msg)
  /-- COMP_ACTIVATE (R410): Coordinator's activation, making the new epoch current and the old one draining. -/
  | compActivate (m : Msg)
  /-- COMP_ACTIVE (R410): Member's confirmation of activation, received by the coordinator. -/
  | compActive (m : Msg)
  /-- COMP_RETIRED (R414): Member's notice that it retired its draining epoch; the coordinator may begin a waiting change. -/
  | compRetired (m : Msg)
  /-- COMP_ABORT (R410): Coordinator's abort of a change, received by a member. -/
  | compAbort (m : Msg)
  /-- COMP_QUERY (R410): Member's query about a prepared epoch, answered by the coordinator. -/
  | compQuery (m : Msg)
  /-- PREP_TMO (R410): PREP_TMO expires: the coordinator aborts a change or a member queries again. -/
  | prepTmo
  /-- EPOCH_RETIRE (R413): A node retires its draining epoch once its fabric work has ended. -/
  | epochRetire
  /-- DRAIN_TMO (R413): DRAIN_TMO expires: the draining epoch is retired or a handover opens without FINAL. -/
  | drainTmo
  /-- LOG_REQ (R426): A reader's request for commit-log records, served by the owner. -/
  | logReq (m : Msg)
  /-- LOG_DATA (R426): A part of a log record, applied by the reader or shadow. -/
  | logData (m : Msg)
  /-- SHADOW_COPY (R428): An owner's copy of a search, walked by the shadow. -/
  | shadowCopy (m : Msg)
  /-- SHADOW_RESULT (R428): A shadow's result, compared by the owner to extend or reset the run. -/
  | shadowResult (m : Msg)
  /-- SHADOW_READY (R428): Owner's notice that the run reached SHADOW_N, setting READY at the shadow. -/
  | shadowReady (m : Msg)
  /-- SHADOW_COPY_TIMEOUT (R428): A shadow copy without answer within the timeout is not counted. -/
  | shadowCopyTimeout (shard txn : Nat)
  /-- PARTITION_FENCE_WRITE (R431): A write of CMP_PART_FENCE fences or unfences partitions. -/
  | partitionFenceWrite (a : Agent) (mask : Nat)
  /-- FW_LOAD (R432): CMP_CHANGE.FW_LOAD reads a firmware image into the inactive bank and checks it. -/
  | fwLoad (a : Agent) (image : Option (List Byte))
  /-- FW_SWITCH (R432): CMP_CHANGE.FW_SWITCH requests the switch to the staged firmware. -/
  | fwSwitch (a : Agent)
  /-- FW_SWITCH_ACCEPT (R432): The switch is accepted once no prepared epoch or HOLD remains and the Nut moves to the new bank. -/
  | fwSwitchAccept
  /-- FW_FALLBACK (R432): New firmware failing its check or not finishing within 100 ms returns the Nut to the old bank. -/
  | fwFallback
  /-- FW_CONFIRM (R438): CMP_CHANGE.FW_CONFIRM raises ARB, revokes keys, writes the boot store and flips the selector. -/
  | fwConfirm (a : Agent) (otpOk : Bool)
  /-- FLASH_READ_DONE (R371): A flash read completes and its codewords are decoded through the retry, soft and reconstruction steps. -/
  | flashReadDone (part lua : Nat) (dec : Decoded)
  /-- PROGRAM_COMPLETE (R519): A stripe row's programs complete; waiting stages proceed and the next row starts. -/
  | programComplete (part stream : Nat) (failed : List Nat)
  /-- GC_START (R368): Free superblocks falling below START percent start relocation until STOP percent. -/
  | gcStart (part : Nat)
  /-- PATROL_SCAN (R372): The flash patrol scan reads every valid page once per DAYS days. -/
  | patrolScan (part : Nat) (weak : List Nat)
  /-- DIE_TIMEOUT (R374): A NAND die failing to answer within 10 ms is declared dead and its rebuild starts. -/
  | dieTimeout (die : Nat)
  /-- REBUILD_COMPLETE (R375): The rebuild of a dead die completes and the die is excluded. -/
  | rebuildComplete (die : Nat)
  /-- PWR_FAIL_N (R511): Assertion of PWR_FAIL_N starts the power-fail flush. -/
  | pwrFailN (ns : Nat) (stays : Bool)
  /-- FLUSH_COMPLETE (R377): The flush's programs complete, FLUSHED is set and main domains switch off. -/
  | flushComplete
  /-- RESTART_AFTER_FLUSH (R469): After PWR_FAIL_N deasserts and VDD_CORE holds above the hysteresis level for 10 ms, a core restart runs. -/
  | restartAfterFlush
  /-- HOLD_ENTER (R466): VDD_CORE falling below VMON_WARN enters HOLD. -/
  | holdEnter (mv : List Nat)
  /-- HOLD_EXIT (R467): VDD_CORE rising above VMON_WARN + 20 mV leaves HOLD and waiting commits start. -/
  | holdExit (mv : List Nat)
  /-- HOLD_MAX_EXPIRY (R468): HOLD_MAX expiring in HOLD counts a hold failure and starts the flush. -/
  | holdMaxExpiry
  /-- VMON_RST (R469): VDD_CORE reaching VMON_RST starts the flush. -/
  | vmonRst (mv : List Nat)
  /-- THERMAL_TRIP (R464): A junction reaching TRIP flushes, switches off main domains and drives THERMTRIP_N low. -/
  | thermalTrip (temps : List Nat)
  /-- THERMAL_RECOVERY (R464): After every junction stays below THROTTLE − 10 °C for 1 s, THERMTRIP_N rises and a core restart runs. -/
  | thermalRecovery (temps : List Nat)
  /-- VOLTAGE_LOOP_STEP (R463): Every 2^14 ticks PWR adjusts the core setpoint from temperature and power. -/
  | voltageLoopStep (temp power : Nat) (avsOk : Bool)
  /-- SENSOR_REFRESH (R476): TEL refreshes its sensors every 2^14 ticks. -/
  | sensorRefresh (vals : List Nat)
  /-- PWR_GOOD (R505): Assertion of PWR_GOOD samples straps and powers PD00; deassertion is the loss of PD00. -/
  | pwrGood (on : Bool) (straps : Nat)
  /-- STAGE_0_ENTRY (R454): 50 ms after PWR_GOOD, stage 0 switches on its domains and the ROM runs. -/
  | stage0Entry (mv : List Nat)
  /-- STAGE_ADVANCE (R454): A start stage completes and the next stage switches on its domains. -/
  | stageAdvance (rep : StartReport)
  /-- PD_SWITCH_ON (R461): PWR_PD_REQ with ON 1 switches a power domain on. -/
  | pdSwitchOn (a : Agent) (domain : Nat)
  /-- PD_SWITCH_OFF (R460): PWR_PD_REQ with ON 0 switches a power domain off when its condition holds. -/
  | pdSwitchOff (a : Agent) (domain : Nat)
  /-- DOMAIN_ON_DONE (R461): A switched-on domain finishes its self-test, training or zeroing and its resources serve. -/
  | domainOnDone (domain : Nat) (rep : StartReport)
  /-- LCTR_SOURCE_SWITCH (R32): LCTR moves to another timing source when one appears or disappears, without a jump. -/
  | lctrSourceSwitch (pa pb : Bool)
  /-- GLB_LCTR_LO_READ (R34): A read of GLB_LCTR_LO latches the upper counter half. -/
  | glbLctrLoRead (a : Agent) (wide : Bool)
  /-- PEG_STAT_BIND_WRITE (R65): A write of PEG_STAT_BIND rebinds, enables or clears a statistics slot between rows. -/
  | pegStatBindWrite (a : Agent) (v : Nat)
  /-- PEG_STAT_SSE_LO_READ (R66): A read of PEG_STAT_SSE_LO latches the slot's other statistics. -/
  | pegStatSseLoRead (a : Agent)
  /-- PEG_STAT_SEL_WRITE (R66): A write of PEG_STAT_SEL discards the statistics latch. -/
  | pegStatSelWrite (a : Agent) (v : Nat)
  /-- COUNTER_LO_READ (R486): A 32-bit read of a counter's lower half latches its upper half. -/
  | counterLoRead (a : Agent) (off : Nat)
  /-- EDITION_LO_READ (R490): A read of an edition or floor low register latches its high half. -/
  | editionLoRead (a : Agent) (off : Nat)
  /-- RC_FIELD_READ (R487): A read of an RC field returns it and restarts the count, peak or minimum. -/
  | rcFieldRead (a : Agent) (off : Nat)
  /-- ERR_CLEAR (R483): A write of 1 to an ERR bit clears it and its ERR_CNT bit. -/
  | errClear (a : Agent) (page mask : Nat)
  /-- ERR_INJ_WRITE (R484): A write to ERR_INJ arms an injected fault that takes the path of a real one. -/
  | errInjWrite (a : Agent) (page mask : Nat)
  /-- GLB_EVT_SEL_WRITE (R501): A write of GLB_EVT_SEL copies the named log entry into the agent's copy. -/
  | glbEvtSelWrite (a : Agent) (seq : Nat)
  /-- BAD_ACCESS (R489): A BAR0 access of unsupported size or alignment is ignored and counted. -/
  | badAccess (a : Agent) (write : Bool) (off size : Nat)
  /-- REGISTER_WRITE (R487): A write to a register field that has no row of its own, subject to R488. `off` counts from the start of the agent's BAR0; a VF's holds its 4 KiB page. -/
  | registerWrite (a : Agent) (off v : Nat)
  /-- RING_ENABLE (R308): Setting HIF_RING_CFG.EN writes a grant record and releases held records. -/
  | ringEnable (a : Agent) (port : Port) (v : Nat)
  /-- RING_DISABLE (R308): Clearing HIF_RING_CFG.EN closes the window and holds records. -/
  | ringDisable (a : Agent) (port : Port) (v : Nat)
  /-- MSIX_COALESCE_TIMER (R313): COAL_US after the first uncovered record, the ring's MSI-X message is sent. -/
  | msixCoalesceTimer (ctx : Nat)
  /-- MSIX_UNMASK (R313): Unmasking a vector with its Pending Bit set sends the held message. -/
  | msixUnmask (port : Port) (fn : Nat) (op : MsixOp)
  /-- HOST_READ_ERROR (R289): A failed host read completes its command with MEDIA_ERROR. -/
  | hostReadError (cmd key : Nat)
  /-- PCIE_LINK_DOWN (R320): A port's link goes down; commands continue and records are held. -/
  | pcieLinkDown (port : Port)
  /-- PCIE_LINK_UP (R313): A port's link returns and held records and messages are written. -/
  | pcieLinkUp (port : Port) (speed width : Nat) (flit : Bool)
  /-- FUNCTION_LEVEL_RESET (R320): An FLR of a VF or PF, a hot reset or a conventional reset ends commands and disables rings. -/
  | functionLevelReset (port : Port) (fn : Nat) (whole : Bool)
  /-- PERST (R510): Assertion of a port's PERST_N is a conventional reset of that port. -/
  | perst (port : Port)
  /-- RELEASE (R317): A write of HIF_RELEASE closes a partition's windows and drains it. -/
  | release (a : Agent) (port : Port) (mask : Nat)
  /-- RELEASE_COMPLETE (R317): The last command of a released partition ends and ownership clears; a pending take may proceed. -/
  | releaseComplete (port : Port) (part : Nat)
  /-- TAKE (R318): HIF_TAKE with FORCE 0 takes an unowned partition or leaves the request pending. -/
  | take (a : Agent) (port : Port) (mask : Nat)
  /-- FORCED_TAKEOVER (R319): HIF_TAKE with FORCE 1 kills stages, discards records and moves ownership. -/
  | forcedTakeover (a : Agent) (port : Port) (mask : Nat)
  /-- ENABLE (R322): CTX_ENT_CTL.ENABLE moves a context from OFF to READY. -/
  | enable (a : Agent)
  /-- DISABLE (R322): CTX_ENT_CTL.DISABLE moves a context to DRAINING or from FAULTED to OFF. -/
  | disable (a : Agent)
  /-- CLEAR (R322): CTX_ENT_CTL.CLEAR moves a context from FAULTED to READY. -/
  | clear (a : Agent)
  /-- FAULT (R332): CTX_ENT_CTL.FAULT faults a context and starts its teardown. -/
  | fault (a : Agent)
  /-- UNBIND (R323): CTX_ENT_CTL.UNBIND releases an OFF context's bound region. -/
  | unbind (a : Agent)
  /-- CONTEXT_DRAINED (R322): A DRAINING context with no admitted command left becomes OFF. -/
  | contextDrained (ctx : Nat)
  /-- CTX_PART_SRAM_WRITE (R339): A write of CTX_PART_SRAM changes a partition's SRAM allocation or takes it out of service. -/
  | ctxPartSramWrite (a : Agent) (v : Nat)
  /-- SRAM_SHRINK_DONE (R339): A pending smaller allocation takes effect once free-pool use fits. -/
  | sramShrinkDone (part : Nat)
  /-- QUANTUM_EXPIRY (R325): The current context's fret turn exceeds QUANTUM and a switch falls due. -/
  | quantumExpiry (part : Nat)
  /-- CONTEXT_SWITCH (R326): After the last fret pass ends, the slice swaps its current context and scrubs the frets. -/
  | contextSwitch (part : Nat)
  /-- PREEMPTION (R328): After PREEMPT_WAIT a higher-priority command kills the lowest-priority holder of its resource. -/
  | preemption (cmd : Nat)
  /-- CAPO_REFILL (R341): At each refill period the capo buckets refill and held requests may proceed. -/
  | capoRefill (part : Nat)
  /-- CAPO_DEPTH_WRITE (R345): A write of CBS or PBS sets the bucket's level to empty or full. -/
  | capoDepthWrite (a : Agent) (part r : Nat) (peak : Bool) (v : Nat)
  /-- GET_INFO (R441): Attestation request returning lifecycle, ARB, SVN, version and masks. -/
  | getInfo (t : Transport) (seq : Nat)
  /-- GET_CERT (R441): Attestation request returning bytes of the certificate chain. -/
  | getCert (t : Transport) (seq off len : Nat)
  /-- GET_REPORT (R442): Attestation request returning a signed report over the measurements and nonce. -/
  | getReport (t : Transport) (seq : Nat) (nonce : List Byte)
  /-- SESSION_OPEN (R443): Opens a partition session with a signed ML-KEM encapsulation key. -/
  | sessionOpen (port : Port) (seq part : Nat)
  /-- SESSION_KEY (R443): Delivers the ML-KEM ciphertext and derives the session key. -/
  | sessionKey (port : Port) (seq part : Nat) (ct : List Byte)
  /-- SET_IDE_KEY (R447): Keys the partition's IDE stream on the owning port. -/
  | setIdeKey (port : Port) (seq part : Nat) (msg : List Byte)
  /-- CONFIDENTIAL_ENTER (R444): SET_CONFIDENTIAL with enter puts a partition into confidential mode. -/
  | confidentialEnter (port : Port) (seq part : Nat) (msg : List Byte)
  /-- CONFIDENTIAL_EXIT (R450): SET_CONFIDENTIAL with exit takes a partition out of confidential mode. -/
  | confidentialExit (port : Port) (seq part : Nat) (msg : List Byte)
  /-- SESSION_CLOSE (R443): Ends a session and erases its IDE stream keys. -/
  | sessionClose (port : Port) (seq part : Nat) (msg : List Byte)
  /-- IDE_DROP (R447): A request for a confidential partition outside its IDE stream is discarded or refused. -/
  | ideDrop (port : Port) (part : Nat) (posted : Bool)
  /-- GET_VERSION (R472): Ebaety request returning the supported versions. -/
  | getVersion (t : Transport) (ver seq : Nat)
  /-- GET_STATUS (R472): Ebaety request returning power, error, lifecycle and composition status. -/
  | getStatus (t : Transport) (ver seq : Nat)
  /-- READ_REG (R474): Ebaety request reading BAR0 registers. -/
  | readReg (t : Transport) (ver seq off n : Nat)
  /-- WRITE_REG (R474): Ebaety request writing a BAR0 register under a mask. -/
  | writeReg (t : Transport) (ver seq off v mask : Nat)
  /-- RESET (R472): Ebaety request acknowledged and followed by a core restart. -/
  | reset (t : Transport) (ver seq : Nat)
  /-- SET_LIMITS (R472): Ebaety request setting power cap, peak, throttle and trip limits. -/
  | setLimits (t : Transport) (ver seq cap peak throttle trip : Nat)
  /-- PD_CONTROL (R472): Ebaety request switching a power domain under R460. -/
  | pdControl (t : Transport) (ver seq domain : Nat) (on : Bool)
  /-- TAKEOVER_AUTH (R475): Ebaety request authorising one forced takeover of a partition on a port. -/
  | takeoverAuth (t : Transport) (ver seq part : Nat) (port : Port)
  /-- TAKEOVER_AUTH_LAPSE (R475): An unused takeover authority lapses after 2^27 ticks. -/
  | takeoverAuthLapse
  /-- GET_SENSORS (R476): Ebaety request returning every sensor. -/
  | getSensors (t : Transport) (ver seq : Nat)
  /-- GET_EVENTS (R501): Ebaety request returning event-log entries from a SEQ. -/
  | getEvents (t : Transport) (ver seq first n : Nat)
  /-- GET_COUNTERS (R472): Ebaety request returning 64-bit counters of a page. -/
  | getCounters (t : Transport) (ver seq page first n : Nat)
  /-- SET_ENDPOINT_ID (R470): MCTP control message setting the endpoint ID. -/
  | setEndpointId (eid : Nat)
  /-- GET_ENDPOINT_ID (R470): MCTP control message returning the endpoint ID. -/
  | getEndpointId
  /-- GET_MCTP_VERSION_SUPPORT (R470): MCTP control message returning supported MCTP versions. -/
  | getMctpVersionSupport (ty : Nat)
  /-- GET_MESSAGE_TYPE_SUPPORT (R470): MCTP control message returning supported message types. -/
  | getMessageTypeSupport
  /-- GET_VENDOR_DEFINED_MSG_SUPPORT (R470): MCTP control message returning vendor-defined message support. -/
  | getVendorDefinedMsgSupport (sel : Nat)
  /-- DYNAMIC_ADDRESS_ASSIGN (R470): The I3C controller assigns a dynamic address and the port leaves SMBus mode. -/
  | dynamicAddressAssign (addr : Nat)
  /-- PATROL_SCRUB (R344): With SBC_CFG.SCRUB_EN set, SBC reads every HBM column once per 24 h and rewrites corrected columns keeping WRITER. -/
  | patrolScrub (stack : Nat) (flaws : List Flaw)
  /-- ERASE_COMPLETE (R368): A block erase of a garbage-collection victim completes, freeing its superblock and letting relocation stop at STOP percent. -/
  | eraseComplete (part sb : Nat)
  /-- QUADRANT_REFERENCE_LOST (R508): A quadrant's 156.25 MHz reference fails in service, so its stack channels, flash channels and links fail. -/
  | quadrantReferenceLost (quad : Nat)
  /-- HOST_READ_COMPLETION (R289): The completion data of a host memory read issued for a command arrives and the command's processing continues. -/
  | hostReadCompletion (cmd key : Nat) (data : List Byte)
  /-- MERGED_M_RETURN (R166): A contributor of an ATTEND collective receives the root's merged m and the IDs of its selected entries, and accumulates their values. -/
  | mergedMReturn (m : Msg)
  /-- PARTIAL_VALUE_SUMS (R166): The root of an ATTEND collective receives a contributor's partial value sums and adds them in FP32. -/
  | partialValueSums (m : Msg)
  /-- FLAP_WINDOW_END (R391): A retried link that stays up for one flap window without a retrain has its back-off exponent n set back to 0. -/
  | flapWindowEnd (link : Nat)
  /-- TAKEOVER_GRACE_EXPIRY (R318): An owning port's link has been down for HIF_TKO_CFG.GRACE, so PEER_DOWN sets and forced takeover becomes acceptable. -/
  | takeoverGraceExpiry (port : Port)
deriving DecidableEq, Repr

end Sys2Proof
end

