-- ==== Sys2Proof/Decode.lean ====
section
/-! DEFINITION. The command a table word spells. Every row of the table has an empty list of fields, so no word spells a command. -/

namespace Sys2Proof

/-- No row of the table gives bits (log entry 1, DESIGN CHOICE). -/
def decodeTableWord (_nbits _w : Nat) : Option Instr := none

end Sys2Proof
end

