-- ==== Sys2Proof/Config.lean ====
section
/-! DEFINITION. What an implementation fixes and the manual leaves open: uninterpreted constants, no body. -/

namespace Sys2Proof

/-- A fresh open value: `freeNat n` for the n-th name taken from `State.free` (log entry 3, DESIGN CHOICE). -/
opaque Config.freeNat : Nat → Nat
/-- The four check symbols of a column's 32 bytes (03 R93 names the code by its sizes and its field only; log entry 174, DESIGN CHOICE). -/
opaque Config.columnCheck : List Byte → List Byte
/-- Order of arrival of the operands of a sum: command tag, sum within the command, step (01 R10, 05 R154). Log entry 129, DESIGN CHOICE. -/
opaque Config.arrival : Nat → List Nat → Nat → Nat
/-- The one fixed exponential function of 05 R135, e^(s - m) of its two FP32 inputs, before the bound of 03 R87 (log entry 10, DESIGN CHOICE). -/
opaque Config.expTerm : F32 → F32 → F32
/-- The three hash functions of the visited filter (07 R220), by index, of an ID. -/
opaque Config.visitHash : Nat → Nat → Nat
/-- Silicon stepping code and serial number of the part in hand (16 R494). Log entry 6, DESIGN CHOICE. -/
opaque Config.stepping : BitVec 8
opaque Config.serial : BitVec 64
/-- SHAKE256 of a message with the given number of output bytes (14; FIPS 202 is not in the manual). -/
opaque Config.shake256 : Nat → List Byte → List Byte
/-- Falcon-1024: signature check of (public key, message, signature) (14 R436). -/
opaque Config.falconVerify : List Byte → List Byte → List Byte → Bool
/-- Falcon-1024 key pair derived from a seed: public key (14 R439). -/
opaque Config.falconPublic : List Byte → List Byte
/-- Falcon-1024 signature by the key derived from a seed over a message (14 R442). -/
opaque Config.falconSign : List Byte → List Byte → List Byte
/-- ML-KEM-1024: encapsulation key from a random draw, and decapsulation (14 R443). -/
opaque Config.kemPublic : List Byte → List Byte
opaque Config.kemDecaps : List Byte → List Byte → List Byte
/-- AES-256-GCM seal and open: key, nonce, data (14 R443, R448). -/
opaque Config.gcmSeal : List Byte → List Byte → List Byte → List Byte
opaque Config.gcmOpen : List Byte → List Byte → List Byte → Option (List Byte)
/-- AES-XTS-256 under a 64-byte key and a tweak (11 R362): encrypt and decrypt. -/
opaque Config.xtsEnc : List Byte → Nat → List Byte → List Byte
opaque Config.xtsDec : List Byte → Nat → List Byte → List Byte
/-- The true random generator: the n-th draw of the given length (14 R434). -/
opaque Config.trng : Nat → Nat → List Byte
/-- LDPC parity bytes of a codeword's data and metadata (11 R361 names the code by its sizes only). -/
opaque Config.ldpcParity : List Byte → List Byte
/-- What a physical page that was never programmed reads as, undecoded (11 R380). -/
opaque Config.rawPage : Nat → List Byte
/-- The mask ROM of the Nut, the part's fused ROM image (14 R434). -/
opaque Config.romImage : List Byte
/-- Contents of the identity certificate chain as installed by manufacturing test (14 R434). -/
opaque Config.certChain : List Byte

/-- Payload bytes of message contents the manual lists without a byte layout (12 R394, 05 R163, 13 R410). -/
opaque Config.bodyBytes : Body → List Byte

/-- Bytes of something whose fields the manual lists without a byte layout: what it is, and the values of the fields (14 R434, R441, R442, R444; 15 R472). Log entry 102, DESIGN CHOICE. -/
opaque Config.layout : Nat → List Nat → List Byte

/-- Bytes 4 to 251 of a control flit: kind (0 credits, 1 retry request, 2 hello) and values, and how a received one reads (12 R383; log entry 65, DESIGN CHOICE). -/
opaque Config.linkControl : Nat → List Nat → List Byte
opaque Config.readControl : List Byte → Nat × List Nat

/-- The vendor ID of the PCIe functions (09 R282 gives no number). Log entry 200, DESIGN CHOICE. -/
opaque Config.vendorId : Nat

end Sys2Proof
end

