-- ==== Sys2Proof/Machine/Bits.lean ====
section
/-! DEFINITION. Bit fields, little-endian words, list and table helpers, CRC-32C (spec 00 R7, 11 R361). -/

namespace Sys2Proof.Machine

/-- Bits [hi:lo] of a word. -/
def fld (w hi lo : Nat) : Nat := (w >>> lo) % 2 ^ (hi - lo + 1)

/-- Bit i of a word. -/
def bitOf (w i : Nat) : Bool := (w >>> i) % 2 == 1

/-- The word with bits [hi:lo] replaced by `v`. -/
def setFld (w hi lo v : Nat) : Nat :=
  (w >>> (hi + 1)) <<< (hi + 1) + (v % 2 ^ (hi - lo + 1)) <<< lo + w % 2 ^ lo

/-- Bit i set or cleared. -/
def setBit (w i : Nat) (b : Bool) : Nat := setFld w i i (if b then 1 else 0)

def b2n (b : Bool) : Nat := if b then 1 else 0

/-- Number of 1 bits among the low `n` bits. -/
def popCount : Nat → Nat → Nat
  | 0, _ => 0
  | n + 1, w => w % 2 + popCount n (w / 2)

/-- The indexes below `n` whose bit is set, ascending. -/
def bitsOf (n w : Nat) : List Nat := (List.range n).filter (bitOf w)

def ceilDiv (a b : Nat) : Nat := (a + b - 1) / b
def roundUp (a b : Nat) : Nat := ceilDiv a b * b

/-- Saturating 32-bit count. -/
def sat32 (n : Nat) : Nat := min n 0xFFFFFFFF
def sat16 (n : Nat) : Nat := min n 0xFFFF
def sat8 (n : Nat) : Nat := min n 0xFF

/-- a − b, or 0 when b is greater; the test first, so that no large literal is counted down. -/
def less (a b : Nat) : Nat := if a ≤ b then 0 else a - b

/-- Little-endian value of a byte list (00 R7). -/
def leNat : List Byte → Nat
  | [] => 0
  | b :: r => b.toNat + 256 * leNat r

/-- `n` little-endian bytes of a value. -/
def leBytes : Nat → Nat → List Byte
  | 0, _ => []
  | n + 1, v => BitVec.ofNat 8 (v % 256) :: leBytes n (v / 256)

def zeros (n : Nat) : List Byte := List.replicate n 0

/-- `n` bytes from offset `o`; bytes beyond the end read 0. -/
def slice (l : List Byte) (o n : Nat) : List Byte :=
  let t := (l.drop o).take n
  t ++ zeros (n - t.length)

def le16 (l : List Byte) (o : Nat) : Nat := leNat (slice l o 2)
def le32 (l : List Byte) (o : Nat) : Nat := leNat (slice l o 4)
def le64 (l : List Byte) (o : Nat) : Nat := leNat (slice l o 8)
def byteAt (l : List Byte) (o : Nat) : Nat := leNat (slice l o 1)

/-- `l` with `n` bytes at offset `o` replaced. -/
def overwrite (l : List Byte) (o : Nat) (d : List Byte) : List Byte :=
  (slice l 0 o) ++ d ++ l.drop (o + d.length)

/-- Words of four bytes. -/
def words32 : Nat → List Byte → List Nat
  | 0, _ => []
  | n + 1, l => leNat (slice l 0 4) :: words32 n (l.drop 4)

def padTo (n : Nat) (l : List Byte) : List Byte := l ++ zeros (roundUp l.length n - l.length)

/-- Insertion into a list ordered by `le`. -/
def insertBy {α : Type} (le : α → α → Bool) (a : α) : List α → List α
  | [] => [a]
  | b :: r => if le a b then a :: b :: r else b :: insertBy le a r

def sortBy {α : Type} (le : α → α → Bool) : List α → List α
  | [] => []
  | a :: r => insertBy le a (sortBy le r)

/-- Removes later repeats. -/
def dedupNat : List Nat → List Nat
  | [] => []
  | a :: r => a :: (dedupNat r).filter (· != a)

/-- A table kept in rising key order, one entry a key. -/
def tget {β : Type} (t : List (Nat × β)) (k : Nat) : Option β :=
  match t with
  | [] => none
  | (j, v) :: r => if j == k then some v else if k < j then none else tget r k

def tset {β : Type} (t : List (Nat × β)) (k : Nat) (v : β) : List (Nat × β) :=
  match t with
  | [] => [(k, v)]
  | (j, w) :: r =>
    if j == k then (k, v) :: r
    else if k < j then (k, v) :: (j, w) :: r
    else (j, w) :: tset r k v

def tdel {β : Type} (t : List (Nat × β)) (k : Nat) : List (Nat × β) :=
  match t with
  | [] => []
  | (j, w) :: r =>
    if j == k then tdel r k else (j, w) :: tdel r k

def tgetD {β : Type} (t : List (Nat × β)) (k : Nat) (d : β) : β := (tget t k).getD d

/-- The lowest element of a list. -/
def minList (d : Nat) : List Nat → Nat
  | [] => d
  | a :: r => r.foldl min a

def maxList (l : List Nat) : Nat := l.foldl max 0
def sumList (l : List Nat) : Nat := l.foldl (· + ·) 0

/-- Ceiling of log2, with 0 for 0 and 1. -/
def clog2 (n : Nat) : Nat := if n ≤ 1 then 0 else Nat.log2 (n - 1) + 1

/-- One byte into a CRC-32C register (reflected polynomial 0x82F63B78). -/
def crcBit : Nat → Nat → Nat
  | 0, c => c
  | n + 1, c => crcBit n (if c % 2 == 1 then (c / 2) ^^^ 0x82F63B78 else c / 2)

def crcStep (c : Nat) (b : Byte) : Nat := crcBit 8 (c ^^^ b.toNat)

/-- CRC-32C of a byte list, initial and final value all ones. -/
def crc32c (l : List Byte) : Nat := (l.foldl crcStep 0xFFFFFFFF) ^^^ 0xFFFFFFFF

/-- First check that holds decides (09 R305). -/
def firstSome {α : Type} : List (Bool × α) → Option α
  | [] => none
  | (true, a) :: _ => some a
  | (false, _) :: r => firstSome r

/-- Splits a list into parts of `n` (the last may be shorter); `fuel` bounds the parts. -/
def chunks {α : Type} (n : Nat) : Nat → List α → List (List α)
  | 0, _ => []
  | _ + 1, [] => []
  | f + 1, l => l.take n :: chunks n f (l.drop n)

end Sys2Proof.Machine
end

