-- ==== Sys2Proof/Machine/RegMap.lean ====
section
/-! DEFINITION. The BAR0 map, page headers and the stored register fields with their reset values (spec 16 R477 to R482, register tables of 01 to 15). -/

namespace Sys2Proof.Machine

/-- A page of BAR0: block type code, kind, instance, base offset (16 R477, R479). -/
structure Page where
  ty : Nat
  kind : Nat
  inst : Nat
  base : Nat
deriving DecidableEq, Repr

/-- The page at page number `n` of BAR0 (16 R477). -/
def pageAt (n : Nat) : Option Page :=
  let b := n * 4096
  if n < 5 then some ⟨n + 1, 0, 0, b⟩
  else if n = 0x10 ∨ n = 0x11 then some ⟨0x10, 0, n - 0x10, b⟩
  else if n = 0x20 then some ⟨0x11, 0, 0, b⟩
  else if n = 0x30 then some ⟨0x12, 0, 0, b⟩
  else if 0x40 ≤ n ∧ n < 0x50 then some ⟨0x13, 2, n - 0x40, b⟩
  else if n = 0x50 then some ⟨0x20, 0, 0, b⟩
  else if 0x51 ≤ n ∧ n < 0x61 then some ⟨0x20, 1, n - 0x51, b⟩
  else if n = 0x61 then some ⟨0x21, 0, 0, b⟩
  else if n = 0x70 then some ⟨0x22, 0, 0, b⟩
  else if n = 0x80 then some ⟨0x23, 0, 0, b⟩
  else if n = 0x90 then some ⟨0x24, 0, 0, b⟩
  else if n = 0xA0 then some ⟨0x25, 0, 0, b⟩
  else if n = 0xB0 then some ⟨0x26, 0, 0, b⟩
  else if 0x100 ≤ n ∧ n < 0x1C0 ∧ n % 16 = 0 then some ⟨0x30, 0, (n - 0x100) / 16, b⟩
  else if n = 0x200 then some ⟨0x31, 0, 0, b⟩
  else if 0x210 ≤ n ∧ n < 0x230 then some ⟨0x31, 1, n - 0x210, b⟩
  else if n = 0x300 then some ⟨0x32, 0, 0, b⟩
  else if 0x310 ≤ n ∧ n < 0x328 then some ⟨0x32, 1, n - 0x310, b⟩
  else if n = 0x328 then some ⟨0x33, 0, 0, b⟩
  else if n = 0x330 then some ⟨0x34, 0, 0, b⟩
  else if n = 0x400 then some ⟨0x40, 0, 0, b⟩
  else if n = 0xF00 then some ⟨0x7F, 0, 0, b⟩
  else none

/-- The page an offset lies in. -/
def pageOf (off : Nat) : Option Page := pageAt (off / 4096)

def pGlb : Nat := 0
def pPwr : Nat := 0x1000
def pSec : Nat := 0x2000
def pMgt : Nat := 0x4000
def pCau : Nat := 0x20000
def pCtx : Nat := 0x30000
def pCapo (p : Nat) : Nat := 0x40000 + p * 0x1000
def pArr : Nat := 0x50000
def pCourse (n : Nat) : Nat := 0x50000 + 0x1000 * (n + 1)
def pSel : Nat := 0x61000
def pPeg : Nat := 0x70000
def pGwe : Nat := 0x80000
def pAtt : Nat := 0x90000
def pGcu : Nat := 0xA0000
def pUpd : Nat := 0xB0000
def pSbc (n : Nat) : Nat := 0x100000 + n * 0x10000
def pFte : Nat := 0x200000
def pChan (c : Nat) : Nat := 0x210000 + c * 0x1000
def pFab : Nat := 0x300000
def pLink (l : Nat) : Nat := 0x310000 + l * 0x1000
def pCol : Nat := 0x328000
def pCmp : Nat := 0x330000
def pTel : Nat := 0x400000

/-- Every page number of the map, by sum bit. -/
def blockPages : Nat → List Nat
  | 0 => [0] | 1 => [1] | 2 => [2] | 3 => [3] | 4 => [4]
  | 5 => [0x10, 0x11] | 6 => [0x20] | 7 => [0x30]
  | 8 => (List.range 16).map (0x40 + ·)
  | 9 => (List.range 17).map (0x50 + ·)
  | 10 => [0x61] | 11 => [0x70] | 12 => [0x80] | 13 => [0x90] | 14 => [0xA0] | 15 => [0xB0]
  | 16 => (List.range 12).map fun i => 0x100 + 16 * i
  | 17 => 0x200 :: (List.range 32).map (0x210 + ·)
  | 18 => 0x300 :: (List.range 24).map (0x310 + ·)
  | 19 => [0x328] | 20 => [0x330] | 21 => [0x400] | 22 => [0xF00]
  | _ => []

/-- Sum bit of a block (16 R477). -/
def sumBit : Nat → Nat
  | 1 => 0 | 2 => 1 | 3 => 2 | 4 => 3 | 5 => 4 | 0x10 => 5 | 0x11 => 6 | 0x12 => 7 | 0x13 => 8 | 0x20 => 9 | 0x21 => 10
  | 0x22 => 11 | 0x23 => 12 | 0x24 => 13 | 0x25 => 14 | 0x26 => 15 | 0x30 => 16 | 0x31 => 17 | 0x32 => 18 | 0x33 => 19
  | 0x34 => 20 | 0x40 => 21 | _ => 22

/-- Power domain of a page (16 R477). -/
def Page.domain (p : Page) : Nat :=
  match p.ty, p.kind with
  | 3, _ => 2
  | 4, _ => 1
  | 0x10, _ => 3 + p.inst
  | 0x20, 1 => 6 + p.inst / 4
  | 0x21, _ | 0x22, _ | 0x24, _ => 27
  | 0x23, _ => 26
  | 0x30, _ => 14 + p.inst / 3
  | 0x31, 1 => 18 + p.inst / 8
  | 0x32, 0 => 28
  | 0x32, _ => 22 + p.inst / 6
  | 0x33, _ => 28
  | 0x40, _ | 0x7F, _ => 29
  | 0x11, _ | 0x12, _ | 0x13, _ | 0x20, _ | 0x25, _ | 0x26, _ | 0x31, _ | 0x34, _ => 5
  | _, _ => 0

/-- `ID` (16 R479). -/
def Page.id (p : Page) : Nat := p.ty * 2 ^ 24 + p.kind * 2 ^ 16 + p.inst

/-- Number of defined `ERR` bits; they are contiguous from bit 0 on every page. -/
def Page.errBits (p : Page) : Nat :=
  match p.ty, p.kind with
  | 1, _ => 1 | 2, _ => 7 | 3, _ => 7 | 0x10, _ => 6 | 0x11, _ => 1 | 0x12, _ => 4 | 0x13, _ => 2
  | 0x20, 1 => 3 | 0x21, _ => 2 | 0x23, _ => 5 | 0x24, _ => 3 | 0x25, _ => 2 | 0x26, _ => 2
  | 0x30, _ => 10 | 0x31, 0 => 7 | 0x31, _ => 2 | 0x32, _ => 6 | 0x33, _ => 4 | 0x34, _ => 9
  | _, _ => 0

def Page.errMask (p : Page) : Nat := 2 ^ p.errBits - 1

/-- `ERR_INJ` bits that do something (each block's chapter, 16 R484). -/
def Page.injMask (p : Page) : Nat :=
  match p.ty, p.kind with
  | 2, _ => 1 | 3, _ => 8 | 0x11, _ => 1 | 0x12, _ => 1 | 0x20, 1 => 1 | 0x21, _ => 1 | 0x23, _ => 4 | 0x24, _ => 2
  | 0x25, _ => 2 | 0x30, _ => 6 | 0x31, 0 => 3 | 0x32, 0 => 8 | 0x32, _ => 9
  | _, _ => 0

/-- Counters implemented from 0x040 (16 R481). -/
def Page.counters (p : Page) : Nat :=
  match p.ty, p.kind with
  | 1, _ => 2 | 2, _ => 6 | 3, _ => 8 | 5, _ => 3 | 0x10, _ => 8 | 0x11, _ => 5 | 0x12, _ => 6 | 0x13, _ => 15
  | 0x20, 0 => 7 | 0x20, _ => 3 | 0x21, _ => 10 | 0x22, _ => 5 | 0x23, _ => 18 | 0x24, _ => 12 | 0x25, _ => 11
  | 0x26, _ => 9 | 0x30, _ => 10 | 0x31, 0 => 16 | 0x31, _ => 4 | 0x32, 0 => 11 | 0x32, _ => 9 | 0x33, _ => 9
  | 0x34, _ => 11 | 0x40, _ => 2
  | _, _ => 0

/-- `CAPS` (16 R481). -/
def Page.caps (p : Page) : Nat :=
  p.counters * 2 ^ 24 + p.errBits * 2 ^ 16 + (blockPages (sumBit p.ty)).length * 2 ^ 8

/-- Stored fields of a page: offset, RW bits, RWL bits, reset value. Registers that act on a write or show typed state are not listed. -/
def storedRegs : Nat → Nat → List (Nat × Nat × Nat × Nat)
  | 0x1, 0 =>
    [(0x12c, 0x800307ff, 0x0, 0x0) /- GLB_IRQ_CFG -/,
     (0x144, 0xffffffff, 0x0, 0x0) /- GLB_EVT_SEL -/]
  | 0x2, 0 =>
    [(0x100, 0xff, 0x0, 0x78) /- PWR_VMON -/,
     (0x104, 0x3f, 0x0, 0x1e) /- PWR_HOLD -/,
     (0x108, 0xff, 0x0, 0x96) /- PWR_VSET -/,
     (0x110, 0xffff, 0x0, 0x735f) /- PWR_THERM -/,
     (0x118, 0xffffffff, 0x0, 0x41a03b6) /- PWR_CAP -/]
  | 0x3, 0 =>
    [(0x114, 0x1f7, 0x0, 0x0) /- SEC_MEAS_SEL -/]
  | 0x10, 0 =>
    [(0x100, 0x1, 0x0, 0x0) /- HIF_CFG -/,
     (0x114, 0x0, 0xff, 0xa) /- HIF_TKO_CFG -/,
     (0x11c, 0xffff, 0x0, 0x0) /- HIF_SUBMIT_FN -/,
     (0x120, 0xfff, 0x0, 0x0) /- HIF_RING_SEL -/]
  | 0x11, 0 =>
    [(0x104, 0xf, 0x0, 0x0) /- CAU_PART_SEL -/,
     (0x108, 0x0, 0xc000000f, 0x4000000f) /- CAU_PART_PERM -/]
  | 0x12, 0 =>
    [(0x100, 0xffffffff, 0x0, 0x640a08) /- CTX_CFG -/,
     (0x104, 0xfff, 0x0, 0x0) /- CTX_SEL -/,
     (0x114, 0xf, 0x0, 0x0) /- CTX_PART_SEL -/]
  | 0x13, 0 =>
    [(0x100, 0x31f, 0x0, 0x20a) /- CAPO_CFG -/]
  | 0x20, 0 =>
    [(0x100, 0x7f, 0x0, 0x10) /- ARR_CFG -/]
  | 0x21, 0 =>
    [(0x100, 0x1, 0x0, 0x1) /- SEL_CFG -/]
  | 0x22, 0 =>
    [(0x100, 0x1f, 0x0, 0x4) /- PEG_CAL_DFLT -/,
     (0x104, 0xffffffff, 0x0, 0x3f900000) /- PEG_CAL_MARGIN -/,
     (0x110, 0x3f, 0x0, 0x0) /- PEG_STAT_SEL -/]
  | 0x23, 0 =>
    [(0x100, 0xffff0f00, 0x0, 0x8000400) /- GWE_CFG -/,
     (0x104, 0xff01ffff, 0x0, 0x99002000) /- GWE_CONS_CFG -/,
     (0x108, 0x8000ffff, 0x0, 0x8000007d) /- GWE_SWEEP_CFG -/,
     (0x10c, 0xffff00ff, 0x0, 0x2620014) /- GWE_SIDE_CFG -/,
     (0x110, 0xfff, 0x0, 0x0) /- GWE_SHARD_SEL -/]
  | 0x24, 0 =>
    [(0x100, 0x80003f00, 0x0, 0x80000800) /- ATT_CFG -/,
     (0x104, 0xf, 0x0, 0x0) /- ATT_PF_SEL -/,
     (0x110, 0xfff, 0x0, 0x0) /- ATT_REG_SEL -/]
  | 0x25, 0 =>
    [(0x100, 0x3, 0x0, 0x1) /- GCU_CFG -/]
  | 0x26, 0 =>
    [(0x100, 0xff, 0x0, 0x10) /- UPD_RETAIN -/,
     (0x104, 0x1fff, 0x0, 0x0) /- UPD_SEL -/]
  | 0x30, 0 =>
    [(0x100, 0x2fff, 0x0, 0x2404) /- SBC_CFG -/,
     (0x104, 0xffffffff, 0x0, 0x1000040) /- SBC_SPARE_THR -/,
     (0x120, 0xff, 0x0, 0x0) /- SBC_ELOG_SEL -/,
     (0x180, 0x0, 0x3ff, 0x0) /- SBC_APT_BASE_PA -/,
     (0x184, 0x0, 0x3ff, 0x0) /- SBC_APT_BASE_PB -/]
  | 0x31, 0 =>
    [(0x104, 0xffffff, 0x0, 0x20c08) /- FTE_GC_CFG -/,
     (0x108, 0xffff03ff, 0x0, 0xc880078) /- FTE_RD_CFG -/,
     (0x10c, 0xff, 0x0, 0x7) /- FTE_SCAN_CFG -/,
     (0x110, 0xffff, 0x0, 0x40) /- FTE_REBUILD -/,
     (0x114, 0xffff, 0x0, 0x40) /- FTE_DIE_CFG -/,
     (0x118, 0xffff, 0x0, 0x400) /- FTE_JNL_CFG -/,
     (0x11c, 0xf, 0x0, 0x0) /- FTE_PART_SEL -/,
     (0x12c, 0x1ff, 0x0, 0x0) /- FTE_DIE_SEL -/]
  | 0x31, 1 =>
    [(0x100, 0xfff1, 0x0, 0xe101) /- FTE_CH_CFG -/]
  | 0x32, 0 =>
    [(0x100, 0xfffff, 0x0, 0x8000a) /- FAB_CFG -/,
     (0x104, 0x0, 0xfff, 0xfff) /- FAB_NODE -/,
     (0x10c, 0xff, 0x0, 0x4) /- FAB_FLAP_CFG -/,
     (0x110, 0xffffffff, 0x0, 0x17d78) /- FAB_FLAP_WIN -/,
     (0x114, 0xfff, 0x0, 0x80a) /- FAB_QUAR_CFG -/,
     (0x118, 0xffff3fff, 0x0, 0x60800) /- FAB_POOL_CFG -/,
     (0x120, 0xfff, 0x0, 0x0) /- FAB_RT_SEL -/,
     (0x128, 0xf, 0x0, 0x0) /- FAB_EXP_SEL -/]
  | 0x32, 1 =>
    [(0x100, 0x800003ff, 0x0, 0x80000080) /- FAB_L_CFG -/]
  | 0x33, 0 =>
    [(0x100, 0xffff007f, 0x0, 0x400008) /- COL_CFG -/,
     (0x140, 0xffff07ff, 0x0, 0x400100) /- COL_BAR_CFG -/,
     (0x144, 0xfff, 0x0, 0x0) /- COL_PEER_SEL -/]
  | 0x34, 0 =>
    [(0x108, 0xffffff01, 0x0, 0x1000301) /- CMP_CFG -/,
     (0x10c, 0xffffffc0, 0x0, 0x0) /- CMP_IMG_LO -/,
     (0x110, 0x7fffffff, 0x0, 0x0) /- CMP_IMG_HI -/,
     (0x11c, 0x0, 0xffff, 0x0) /- CMP_PART_FENCE -/,
     (0x120, 0xfff, 0x0, 0x0) /- CMP_SHARD_SEL -/,
     (0x128, 0xffffffff, 0x0, 0x2710fae1) /- CMP_SHADOW_CFG -/,
     (0x130, 0xfff, 0x0, 0x0) /- CMP_NODE_SEL -/]
  | 0x40, 0 =>
    [(0x100, 0x1f, 0x0, 0x0) /- TEL_SENSOR_SEL -/]
  | _, _ => []

/-- Registers that select what others show; each agent has its own (16 R490). -/
def selectors : List (Nat × Nat) :=
  [(0x22, 0x110), (0x30, 0x120), (0x24, 0x104), (0x24, 0x110), (0x23, 0x110), (0x26, 0x104), (0x10, 0x120), (0x11, 0x104), (0x12, 0x104), (0x12, 0x114), (0x31, 0x11c), (0x31, 0x12c), (0x32, 0x120), (0x32, 0x128), (0x34, 0x120), (0x34, 0x130), (0x33, 0x144), (0x3, 0x114), (0x40, 0x100), (0x1, 0x144)]

/-- Stored row of an offset: RW bits, RWL bits, reset value. -/
def storedReg (p : Page) (off : Nat) : Option (Nat × Nat × Nat) :=
  ((storedRegs p.ty (if p.kind == 2 then 0 else p.kind)).find? fun r => r.1 == off % 4096).map fun r => r.2

/-- Reset value of a stored register; ERR_EN resets to 1 for each defined bit (16 R483). -/
def resetReg (off : Nat) : Nat :=
  match pageOf off with
  | none => 0
  | some p =>
    if off % 4096 = 0x01C then p.errMask
    else match storedReg p off with
      | some r => r.2.2
      | none => 0

end Sys2Proof.Machine
end

