-- ==== Sys2Proof/Machine/Num.lean ====
section
/-! DEFINITION. Exact dyadic numbers and FP32 arithmetic: convert, compute exactly, round once (02 R38, R40, R44, R46). -/

namespace Sys2Proof.Machine

/-- (-1)^neg · m · 2^e, exact. -/
structure Dy where
  neg : Bool
  m : Nat
  e : Int
deriving DecidableEq, Repr

/-- What a stored code stands for. -/
inductive FVal where
  | nan
  | inf (neg : Bool)
  | fin (d : Dy)
deriving DecidableEq, Repr

def Dy.zero : Dy := ⟨false, 0, 0⟩
def Dy.ofNat (n : Nat) : Dy := ⟨false, n, 0⟩
def Dy.ofInt (i : Int) : Dy := ⟨decide (i < 0), i.natAbs, 0⟩
def Dy.neg' (a : Dy) : Dy := ⟨!a.neg, a.m, a.e⟩
def Dy.abs (a : Dy) : Dy := ⟨false, a.m, a.e⟩
def Dy.scale (a : Dy) (k : Int) : Dy := ⟨a.neg, a.m, a.e + k⟩

/-- Signed mantissa at the exponent `q` at or below its own. -/
def Dy.at (a : Dy) (q : Int) : Int :=
  let v : Int := (a.m * 2 ^ (a.e - q).toNat : Nat)
  if a.neg then -v else v

def Dy.add (a b : Dy) : Dy :=
  let q := min a.e b.e
  let v := a.at q + b.at q
  ⟨decide (v < 0), v.natAbs, q⟩

def Dy.mul (a b : Dy) : Dy := ⟨a.neg != b.neg, a.m * b.m, a.e + b.e⟩

def Dy.le (a b : Dy) : Bool :=
  let q := min a.e b.e
  decide (a.at q ≤ b.at q)

def Dy.lt (a b : Dy) : Bool := !(Dy.le b a)
def Dy.eq (a b : Dy) : Bool := Dy.le a b && Dy.le b a
def Dy.max (a b : Dy) : Dy := if Dy.le a b then b else a
def Dy.min (a b : Dy) : Dy := if Dy.le a b then a else b

/-- Mantissa shifted by `d` bits to the right, to nearest, ties to even (02 R44). -/
def shrRne (m d : Nat) : Nat :=
  if d == 0 then m else
    let f := m >>> d
    let r := m - (f <<< d)
    let h := 2 ^ (d - 1)
    if r > h then f + 1 else if r < h then f else f + f % 2

/-- A floating-point format: exponent bits, mantissa bits, bias and the largest finite magnitude's pattern. -/
structure FFmt where
  eb : Nat
  mb : Nat
  bias : Int
  top : Nat
deriving DecidableEq, Repr

/-- Magnitude pattern of |a|, to nearest even, saturating at the largest finite magnitude (02 R44, R46). -/
def roundMag (f : FFmt) (a : Dy) : Nat :=
  if a.m == 0 then 0 else
    let ex : Int := (Nat.log2 a.m : Int) + a.e
    let q : Int := Max.max ex (1 - f.bias) - f.mb
    let n := if a.e ≥ q then a.m <<< (a.e - q).toNat else shrRne a.m (q - a.e).toNat
    let field := (q + f.mb + f.bias - 1).toNat
    Min.min (n + field <<< f.mb) f.top

/-- The value of a magnitude pattern (02 R38). -/
def magVal (f : FFmt) (neg : Bool) (p : Nat) : Dy :=
  let ef := p >>> f.mb
  let mf := p % 2 ^ f.mb
  if ef == 0 then ⟨neg, mf, 1 - f.bias - f.mb⟩
  else ⟨neg, mf + 2 ^ f.mb, (ef : Int) - f.bias - f.mb⟩

/-- Encoded with its sign; a zero result is +0 (02 R44). -/
def roundBits (f : FFmt) (a : Dy) : Nat :=
  let p := roundMag f a
  if p == 0 then 0 else p + (if a.neg then 2 ^ (f.eb + f.mb) else 0)

def fp32 : FFmt := ⟨8, 23, 127, 0x7F7FFFFF⟩
def bf16 : FFmt := ⟨8, 7, 127, 0x7F7F⟩
def fp16 : FFmt := ⟨5, 10, 15, 0x7BFF⟩
def e4m3 : FFmt := ⟨4, 3, 7, 0x7E⟩
def e5m2 : FFmt := ⟨5, 2, 15, 0x7B⟩
def e3m2 : FFmt := ⟨3, 2, 3, 0x1F⟩
def e2m3 : FFmt := ⟨2, 3, 1, 0x1F⟩
def e2m1 : FFmt := ⟨2, 1, 1, 0x7⟩

/-- IEEE-style reading of a pattern whose all-ones exponent means infinity or NaN. -/
def ieeeVal (f : FFmt) (w : Nat) : FVal :=
  let neg := bitOf w (f.eb + f.mb)
  let p := w % 2 ^ (f.eb + f.mb)
  if p >>> f.mb == 2 ^ f.eb - 1 then
    if p % 2 ^ f.mb == 0 then .inf neg else .nan
  else .fin (magVal f neg p)

def f32Neg : F32 := 0xFF800000#32
def f32Pos : F32 := 0x7F800000#32
def f32One : F32 := 0x3F800000#32

/-- The exact value of an FP32 pattern; infinity and NaN do not occur in FP32 arithmetic here (02 R46) and read as the largest magnitude. -/
def F32.val (x : F32) : Dy :=
  let w := x.toNat
  let p := w % 2 ^ 31
  magVal fp32 (bitOf w 31) (if p ≥ 0x7F800000 then 0x7F7FFFFF else p)

def F32.finite (x : F32) : Bool := decide (x.toNat % 2 ^ 31 < 0x7F800000)

def F32.of (a : Dy) : F32 := BitVec.ofNat 32 (roundBits fp32 a)

def F32.add (a b : F32) : F32 := F32.of ((F32.val a).add (F32.val b))
def F32.negate (a : F32) : F32 := F32.of (F32.val a).neg'
def F32.sub (a b : F32) : F32 := F32.of ((F32.val a).add (F32.val b).neg')
def F32.mul (a b : F32) : F32 := F32.of ((F32.val a).mul (F32.val b))
/-- One fused multiply-add, rounded once (04 R127, 02 R62). -/
def F32.fma (a b c : F32) : F32 := F32.of (((F32.val a).mul (F32.val b)).add (F32.val c))

/-- Quotient to nearest even. A zero divisor saturates (no rule divides by zero). -/
def F32.divDy (a b : Dy) : Dy :=
  if b.m == 0 then ⟨a.neg, a.m, a.e + 400⟩ else
    let n := a.m <<< 80
    let q := n / b.m
    let sticky := if n % b.m == 0 then 0 else 1
    ⟨a.neg != b.neg, 2 * q + sticky, a.e - b.e - 81⟩

def F32.div (a b : F32) : F32 := F32.of (F32.divDy (F32.val a) (F32.val b))

/-- Integer square root by bits, `k` bits of result. -/
def isqrtGo : Nat → Nat → Nat → Nat
  | 0, _, r => r
  | k + 1, n, r => if (r + 2 ^ k) * (r + 2 ^ k) ≤ n then isqrtGo k n (r + 2 ^ k) else isqrtGo k n r

/-- Square root of a value that is not negative, to nearest even. -/
def F32.sqrt (a : F32) : F32 :=
  let d := F32.val a
  if d.neg || d.m == 0 then 0 else
    let odd := d.e % 2 != 0
    let m := (if odd then 2 * d.m else d.m) <<< 60
    let e : Int := (if odd then d.e - 1 else d.e) - 60
    let r := isqrtGo 48 m 0
    let sticky := if r * r == m then 0 else 1
    F32.of ⟨false, 2 * r + sticky, e / 2 - 1⟩

/-- −0 replaced by +0 (05 R134). -/
def F32.posZero (a : F32) : F32 := if a.toNat % 2 ^ 31 == 0 then 0 else a

/-- The histogram key of a score (03 R84), after −0 became +0 (05 R134). -/
def F32.key (a : F32) : Nat :=
  let w := (F32.posZero a).toNat
  if bitOf w 31 then w ^^^ 0xFFFFFFFF else w ^^^ 0x80000000

def F32.lt (a b : F32) : Bool := decide (F32.key a < F32.key b)
def F32.max (a b : F32) : F32 := if F32.lt a b then b else a
def F32.min (a b : F32) : F32 := if F32.lt b a then b else a
def F32.abs (a : F32) : F32 := BitVec.ofNat 32 (a.toNat % 2 ^ 31)

/-- Trailing zero bits of a mantissa, at most `k`. -/
def trail : Nat → Nat → Nat
  | 0, _ => 0
  | k + 1, m => if m % 2 == 0 then 1 + trail k (m / 2) else 0

/-- Magnitude in units of 2^q, when the value is a multiple of it. -/
def Dy.units (q : Int) (x : Dy) : Nat :=
  if x.e ≥ q then x.m * 2 ^ (x.e - q).toNat else x.m / 2 ^ (q - x.e).toNat

/-- The sum when every partial sum of every order is exact in FP32, so that the order cannot matter. -/
def sumExact (l : List F32) : Option F32 :=
  let ds := (l.map F32.val).filter (·.m != 0)
  match ds with
  | [] => some 0
  | d :: _ =>
    let q : Int := ds.foldl (fun a x => Min.min a (x.e + (trail 24 x.m : Nat))) (d.e + (trail 24 d.m : Nat))
    if sumList (ds.map (Dy.units q)) < 2 ^ 24 then some (F32.of (ds.foldl Dy.add Dy.zero)) else none

/-- Adds two elements at a time, in whatever order they arrive, until one is left: every order and grouping is possible. -/
def sumTree (pick : Nat → Nat) : Nat → List F32 → F32
  | _, [] => 0
  | _, [a] => a
  | 0, a :: r => r.foldl F32.add a
  | k + 1, l =>
    let i := pick (2 * k) % l.length
    let a := l.getD i 0
    let l' := l.eraseIdx i
    let j := pick (2 * k + 1) % l'.length
    sumTree pick k (F32.add a (l'.getD j 0) :: l'.eraseIdx j)

/-- An FP32 sum in order of arrival (01 "Low-order bits", 05 R154): `tag` names the command, `at` the sum in it. -/
def fsum (tag : Nat) (at' : List Nat) (l : List F32) : F32 :=
  match sumExact l with
  | some v => v
  | none => sumTree (Config.arrival tag at') l.length l

/-- A product of three factors whose grouping the manual leaves open (01 R10). -/
def mul3 (tag : Nat) (at' : List Nat) (a b c : F32) : F32 :=
  let x := F32.mul (F32.mul a b) c
  let y := F32.mul a (F32.mul b c)
  let z := F32.mul (F32.mul a c) b
  if x == y && y == z then x else
    match Config.arrival tag at' 0 % 3 with
    | 0 => x
    | 1 => y
    | _ => z

/-! ## The exponential term (03 R87, 05 R135) -/

/-- The series of e^t for t = a / 2^256 below 1: `n` further terms from the i-th, each rounded down, or up. -/
def expSeries (up : Bool) (a : Nat) : Nat → Nat → Nat → Nat → Nat
  | 0, _, _, acc => acc
  | n + 1, i, term, acc =>
    let d := 2 ^ 256 * i
    let t := if up then ceilDiv (term * a) d else term * a / d
    expSeries up a n (i + 1) t (acc + t)

/-- Squared `n` times in units of 2^-256, rounded down or up. -/
def expSquare (up : Bool) : Nat → Nat → Nat
  | 0, v => v
  | n + 1, v => expSquare up n (if up then ceilDiv (v * v) (2 ^ 256) else v * v / 2 ^ 256)

/-- Bounds of e^x for |x| below 128, in units of 2^-256: e^(|x| / 256) by its series, squared eight times, and its reciprocal where x is negative. -/
def expBounds (x : Dy) : Nat × Nat :=
  let a := if x.e + 248 ≥ 0 then x.m * 2 ^ (x.e + 248).toNat else x.m / 2 ^ (-(x.e + 248)).toNat
  let lo := expSquare false 8 (expSeries false a 40 1 (2 ^ 256) (2 ^ 256))
  let hi := expSquare true 8 (expSeries true (a + 1) 40 1 (2 ^ 256) (2 ^ 256) + 2 ^ 64)
  if x.neg then (2 ^ 512 / hi, 2 ^ 512 / lo + 1) else (lo, hi)

/-- The exponential term e^(s - m) (05 R135): the implementation's function, which keeps the relative error of 03 R87, at most 2^-10. A term too small for FP32 to hold so closely is only bounded above (log entry 171, DESIGN CHOICE). A term whose score is −∞ contributes 0 (03 R88). -/
def expTerm (s m : F32) : F32 :=
  if s == f32Neg then 0
  else
    let x := (F32.val s).add (F32.val m).neg'
    let y := Config.expTerm s m
    let v := F32.val y
    let sane := F32.finite y && !v.neg
    let (lo, hi) := if Dy.lt x.abs (Dy.ofNat 128) then expBounds x else if x.neg then (0, 1) else (2 ^ 512, 2 ^ 512)
    if hi < 2 ^ 118 then (if sane && Dy.le v ⟨false, 1, -137⟩ then y else 0)
    else if sane && Dy.le v ⟨false, lo * 1025, -266⟩ && Dy.le ⟨false, hi * 1023, -266⟩ v then y
    else F32.of ⟨false, lo, -256⟩

/-- FP64 pattern of an exact value, to nearest even (02: SSE is an FP64 sum). -/
def fp64 : FFmt := ⟨11, 52, 1023, 0x7FEFFFFFFFFFFFFF⟩
def f64Add (a : Nat) (d : Dy) : Nat := roundBits fp64 ((magVal fp64 (bitOf a 63) (a % 2 ^ 63)).add d)

end Sys2Proof.Machine
end

