-- ==== Sys2Proof/Machine/TypesCmd.lean ====
section
/-! DEFINITION. Plain-data types: registers, event log, ports, rings, commands in flight, contexts, partitions, capos (09, 10, 16). -/

namespace Sys2Proof.Machine

/-- A table in rising key order. -/
abbrev Tab (β : Type) := List (Nat × β)

/-- One event-log entry (16 R497). -/
structure Event where
  time : Nat
  seq : Nat
  source : Nat
  code : Nat
  sev : Nat
  part : Nat
  ctx : Nat
  count : Nat
  d0 : Nat
  d1 : Nat
deriving DecidableEq, Repr

/-- Registers (16): words software wrote and ERR words, by BAR0 offset; words shown once per agent; latched halves; counters; the event log and its per-agent copies. -/
structure RegSt where
  w : Tab W32
  sel : Tab W32
  latch : Tab W32
  cnt : Tab Nat
  log : List Event
  head : Nat
  copy : Tab (List Byte)
deriving DecidableEq, Repr

/-- A completion or grant record (09 R310) before it takes its ring entry; `id` the command it ends. -/
structure Rec where
  id : Nat
  tag : Nat
  ctx : Nat
  status : Nat
  sub : Nat
  result : Nat
  bytes : Nat
  edition : Nat
  counter : Nat
  credits : Nat
  kind : Nat
  opcode : Nat
  irq : Bool
deriving DecidableEq, Repr

/-- What a port sends into PCIe (09 R289, R307, R309, R312, R313; 16 R495): a read request, output, a record, a message, or the answer to a read of BAR0 or BAR4. -/
inductive HostMsg where
  | read (fn cmd key addr len : Nat)
  | write (fn addr : Nat) (data : List Byte) (relaxed : Bool)
  | record (fn ctx addr : Nat) (data : List Byte)
  | msix (fn vector : Nat)
  | answer (fn off : Nat) (data : List Byte)
  | unsupported (part : Nat)
deriving DecidableEq, Repr

/-- MSI-X of one function (09 R313, R284): vectors not listed in `open'` are masked. -/
structure MsixFn where
  en : Bool
  maskAll : Bool
  open' : List Nat
  pend : List Nat
deriving DecidableEq, Repr

/-- A push-window slot in assembly (09 R290): bytes in order, with a mask of those written. -/
structure Slot where
  data : List Byte
  mask : Nat
deriving DecidableEq, Repr

/-- One port (09 R282, R285, R317, R318); `first` the partitions it asked for before the other port did; `bar4` the size of the aperture in GiB (03 R104). -/
structure PortSt where
  up : Bool
  speed : Nat
  width : Nat
  flit : Bool
  downAt : Nat
  own : Nat
  rel : Nat
  pend : Nat
  first : Nat
  peerDown : Bool
  out : List HostMsg
  msix : Tab MsixFn
  slots : Tab Slot
  bar4 : Nat
deriving DecidableEq, Repr

/-- One completion ring (09 R308, R309, R313, R319). -/
structure Ring where
  base : Nat
  en : Bool
  size : Nat
  vector : Nat
  coalCnt : Nat
  coalUs : Nat
  tail : Nat
  phase : Bool
  held : List Rec
  coal : Nat
  coalAt : Nat
  note : Nat
  killed : Nat
  lost : Nat
deriving DecidableEq, Repr

/-- The shape of an Array operation (04 R116 to R122): query vectors, row operands, elements, 1,680ths of a pair per cell and step, element group, bytes of a stored row, bytes of the queries, use of a distance descriptor. -/
structure ArrShape where
  queries : Nat
  rows : Nat
  dim : Nat
  rate : Nat
  group : Nat
  rowBytes : Nat
  queryBytes : Nat
  desc : Bool
deriving DecidableEq, Repr

/-- What a command waits for. Keys name the pieces of data a command has asked for. -/
inductive Need where
  | none
  | host (key addr len : Nat)
  | flash (lua : Nat)
  | keep (key : Nat) (data : List Byte)
  | pool (key node off len : Nat)
  | poolWr (key node off : Nat) (data : List Byte)
  | frets
  | sram (u items : Nat)
  | array (key : Nat) (shape : ArrShape)
  | capo (r n : Nat)
  | overlay (fret : Nat)
  | slot (shard slot : Nat) (take : List Nat)
  | take (shard : Nat) (slots : List Nat)
  | walk (mem : Nat)
  | page (gpage : Nat) (below : List Nat)
  | program
  | walks
  | coll (key : Nat) (own : List SelBlock)
  | vals (key : Nat) (own : List (List F32))
  | forward (key : Nat)
  | fabric
  | peers
  | spare (fret : Nat)
  | ret (fret : Nat)
  | turn
deriving DecidableEq, Repr

/-- Why a command is held in admission (05 R165, 07 R227, 08 R254, 09 R296, R300, 02 R58). -/
inductive Hold where
  | ordered
  | fence
  | convert
  | side
  | restore
  | coll
  | replay
deriving DecidableEq, Repr

/-- Where a command stands (09 R305, 08 R256, 10 R329). -/
inductive Phase where
  | queued
  | held (why : Hold)
  | run (need : Need)
  | staged
  | killed
deriving DecidableEq, Repr

/-- Where a command came from: a window; the device itself (06 R178, 07 R228, R246, 13 R424, R427); another node or partition (08 R278, 07 R250); a log or shadow replay (13 R426, R428). -/
inductive Origin where
  | window
  | internal
  | forwarded (node txn part : Nat)
  | replay (edition : Nat)
  | shadow (node txn : Nat)
deriving DecidableEq, Repr

/-- A shard by number, or the region of a context. -/
inductive Target where
  | shard (n : Nat)
  | region (ctx : Nat)
deriving DecidableEq, Repr

/-- Columns staged in a fret's staging area (03 R95, R97): the rows that start in column `base` span `len` bytes from its byte `first`; `parts` are the (offset, length) of the bytes the stage wrote in that span. -/
structure StagedRow where
  fret : Nat
  base : Nat
  stage : Nat
  cols : Nat
  first : Nat
  len : Nat
  parts : List (Nat × Nat)
deriving DecidableEq, Repr

/-- Calibration history of one value record of one layer (02 R56): newest step first, one maximum a channel. -/
abbrev Cal := List (List F32)

/-- What a stage changes in a target's per-edition state record (08 R256, R260). Keys: segment and layer as seg × 256 + layer; extents as ((seg × 256 + layer) × 3 + tier) × 65,536 + fret slot of the region; calibration and privileged lists as record × 256 + layer (record 0 base, 1 WARM, 2 HOT); values as seg × 256 + layer, rows of it as token × 64 + head; groups whose scales are set likewise, as chunk × 64 + head; holes as (seg × 256 + layer) × 64 + head. Flash images as (segment, first LUA, units). Counters move with their rows at the commit (06 R178, R179): to, from, halved or not. -/
structure Delta where
  ends : Tab Nat
  lens : Tab Nat
  pool : Tab Nat
  cal : Tab Cal
  opened : Tab (List (Nat × List F32))
  fixed : Tab (List Nat)
  priv : Tab (List Nat)
  holes : Tab (List Nat)
  images : List (Nat × Nat × Nat)
  late : List (Nat × List Byte)
  counts : List (Nat × Nat × Bool)
  desc : Option (List Byte)
  hwm : Option Nat
  head : Option Nat
  tail : Option Nat
  entries : Option (List Nat)
  cache : Option (Tab Nat)
  release : List Nat
  mig : Option Nat
deriving DecidableEq, Repr

/-- Bytes written to a fret domain as they are staged: domain, offset, WRITER tag, data (03 R93, R95). -/
structure HbmPut where
  fret : Nat
  off : Nat
  tag : Nat
  data : List Byte
deriving DecidableEq, Repr

/-- What one command has staged for one target (08 R256): whether it binds, and then whether the edition goes on (13 R425), the core dies of a bind, the staged rows, the changes of the state record, slots held (07 R241), flash pages written, the blocks of 13 R423 it writes, and the bytes of a bind that replaces a bound target (log entry 183, DESIGN CHOICE). -/
structure Stage where
  target : Target
  bind : Bool
  keep : Bool
  changed : Bool
  dies : List Nat
  rows : List StagedRow
  delta : Delta
  blocks : List Nat
  slots : List Nat
  pages : List Nat
  binds : List HbmPut
deriving DecidableEq, Repr

/-- A row of a partition's prefetch buffer (08 R271, 06 R199): source, target or table, index and read edition; its bytes. -/
structure PfRow where
  src : Nat
  target : Nat
  index : Nat
  edition : Nat
  data : List Byte
deriving DecidableEq, Repr

/-- How a command will end: its record, output, drop bitmap, counters, ERR bits as (page, bit), device writes of its commit, the HBM-resident tokens to count, as head × 2^24 + token, and the layer (06 R177, R178), prefetch rows, and capo charges as (resource, units); `edShard` the shard of another partition of this node that `edition` belongs to (08 R277). -/
structure Finish where
  status : Nat
  sub : Nat
  result : Nat
  counter : Nat
  edition : Nat
  edShard : Option Nat
  out : List Byte
  drop : Option (Nat × List Byte)
  bumps : List (Nat × Nat)
  errs : List (Nat × Nat)
  late : List (Nat × List Byte)
  incs : List Nat
  layer : Option Nat
  pfAdd : List PfRow
  pfUse : List PfRow
  charges : List (Nat × Nat)
  bucket : Nat
deriving DecidableEq, Repr

/-- A part of a SCATTER_UPDATE that goes to an owner: its key, node, partition, shards (08 R278, R280). -/
structure Batch where
  key : Nat
  node : Nat
  part : Nat
  shards : List Nat
deriving DecidableEq, Repr

/-- A command in flight. `eds` holds read editions by target (shard n as n, region of context c as 4,096 + c); `got` the data it has asked for and received; `work` that its sub-batch holds memory, `area` that this is the work area (10 R338); `behind` the commands, with their reruns, whose commits come first (08 R281); `batches` the parts sent to owners; `taken` the slots taken so far, by shard (07 R241). -/
structure Cmd where
  id : Nat
  part : Nat
  ctx : Nat
  port : Port
  fn : Nat
  dw : List Nat
  prio : Nat
  epoch : Nat
  edition : Nat
  eds : Tab Nat
  origin : Origin
  phase : Phase
  admitted : Bool
  admitAt : Nat
  since : Nat
  got : Tab (List Byte)
  done : List Nat
  reruns : Nat
  byEpoch : Bool
  flags : Nat
  poolRerun : Bool
  charged : Nat
  claim : Nat
  work : Bool
  area : Bool
  split : Bool
  covers : List Nat
  input : List Byte
  fin : Option Finish
  stages : List Stage
  logged : Bool
  peer : Bool
  behind : List (Nat × Nat)
  batches : List Batch
  taken : Tab (List Nat)
deriving DecidableEq, Repr

/-- Why a command's processing stops where it stands: it waits; admission refuses it (09 R305); or it ends with a status, with ERR bits as (page, bit) and counters it counts. -/
inductive Halt where
  | wait (n : Need)
  | refuse (status sub counter : Nat)
  | fail (status sub counter : Nat) (errs bumps : List (Nat × Nat))
deriving DecidableEq, Repr

/-- Bytes a stage writes into a unit of the partition's flash window (11 R358): its LUA, the offset in it. -/
structure FlashPut where
  lua : Nat
  off : Nat
  data : List Byte
deriving DecidableEq, Repr

/-- Squared errors of one conversion for the statistics of 02 R64: region kind and number, format code, saturated elements. -/
structure StatPut where
  kind : Nat
  number : Nat
  fmt : Nat
  errs : List Dy
  sat : Nat
deriving DecidableEq, Repr

/-- What a command's processing yields: how it ends, what it has staged, the bytes its stage writes, the statistics of its conversions. -/
structure Done where
  fin : Finish
  stages : List Stage
  puts : List HbmPut
  pages : List FlashPut
  stats : List StatPut
deriving DecidableEq, Repr

/-- Context states (10 R322). -/
inductive CtxState where
  | off
  | ready
  | faulted
  | draining
deriving DecidableEq, Repr

/-- One context-table entry (10 R321; 14 R445 generation). -/
structure CtxEnt where
  part : Nat
  weight : Nat
  state : CtxState
  cause : Nat
  killPeak : Nat
  gen : Nat
  torn : Bool
deriving DecidableEq, Repr

/-- One capo (10 R341): rates in force and rates written, depths, signed levels, the peak of requests held. -/
structure Capo where
  cir : Nat
  pir : Nat
  newCir : Nat
  newPir : Nat
  cbs : Nat
  pbs : Nat
  clvl : Int
  plvl : Int
  peak : Nat
deriving DecidableEq, Repr

/-- One partition (10): SRAM units, flash cache and prefetch units, a pending smaller allocation, internal weight, the frets' current context, its turn, a due switch, arbiter credits, capos, refill period in force and its end, the prefetch buffer. -/
structure PartSt where
  units : Nat
  fteUnits : Nat
  pfUnits : Nat
  shrink : Option Nat
  intWeight : Nat
  cur : Option Nat
  turnAt : Nat
  due : Bool
  scrubbed : Bool
  credit : Tab Int
  arrCredit : Tab Int
  capos : Tab Capo
  refill : Nat
  refillAt : Nat
  pf : List PfRow
  qpos : Nat
deriving DecidableEq, Repr

end Sys2Proof.Machine
end

