-- ==== Sys2Proof/Machine/TypesMem.lean ====
section
/-! DEFINITION. Plain-data types: HBM, frets, Scoring Array, Peg slots, regions, shards, walks (02, 03, 04, 06, 07). -/

namespace Sys2Proof.Machine

/-- A published overlay entry of a fret (03 R97), and the region or shard whose commit published it. -/
structure Overlay where
  fret : Nat
  base : Nat
  stage : Nat
  cols : Nat
  first : Nat
  len : Nat
  edition : Nat
  owner : Option Target
deriving DecidableEq, Repr

/-- One entry of an SBC error log (03 SBC_ELOG). -/
structure Elog where
  time : Nat
  pair : Nat
  die : Nat
  kind : Nat
  writer : Nat
  symbol : Nat
  spare : Bool
  dca : Nat
  channel : Nat
  count : Nat
deriving DecidableEq, Repr

/-- A fret domain being replaced (03 R109): whether it still reads. -/
structure Sparing where
  fret : Nat
  reads : Bool
deriving DecidableEq, Repr

/-- A poisoned row (03 R107, R108): its bytes in its domain, those of them not rewritten since. Of an entry that knows no row (`bytewise`: a column, a whole domain), the bytes not rewritten are lost each on its own. -/
structure Poison where
  fret : Nat
  off : Nat
  len : Nat
  rest : List (Nat × Nat)
  bytewise : Bool
deriving DecidableEq, Repr

/-- HBM (03): cells by linear address, WRITER tags by column, poisoned rows, overlays, spares used by die, domains a spare has taken over, domains being replaced, fences, corrected-error counts by domain as (count, window start), error logs. -/
structure HbmSt where
  cells : List Host.Cell
  writer : Tab Nat
  poison : List Poison
  overlays : List Overlay
  spares : Tab Nat
  spared : List Nat
  sparing : List Sparing
  deadDies : List Nat
  deadChs : List Nat
  ce : Tab (Nat × Nat)
  elog : Tab Elog
  elogNext : Tab Nat
  elogWraps : Tab Nat
  thermal : Tab Nat
  temp : Tab Nat
  tempMax : Tab Nat
  ovlPeak : Tab Nat
deriving DecidableEq, Repr

/-- A loaded query vector (03 R76, R81): its tag, format, length, group size, scale format, elements and side data. -/
structure QVec where
  ctx : Nat
  fmt : Nat
  vlen : Nat
  group : Nat
  fp16 : Bool
  elems : List Byte
  side : List Byte
deriving DecidableEq, Repr

/-- One bin of a histogram (03 R84). -/
structure Bin where
  count : Nat
  sum : F32
deriving DecidableEq, Repr

/-- The sums record of one vector (03 R86). -/
structure Sums where
  m : F32
  lo : F32
  sigma : F32
  tau : F32
  n : Nat
  rejected : Nat
  bad : Nat
  overflow : Bool
deriving DecidableEq, Repr

/-- Working state of one vector in a fret (03 R75, R83): the sums, every score in row order (buffer), the local list, the histogram, the bin record, the accumulator; what is ready for the next string (03 R81): the sums record, the list's sums and its entries. -/
structure VecSt where
  sums : Sums
  buffer : List (Nat × F32)
  list : List (Nat × F32)
  hist : Tab Bin
  binRec : List Nat
  acc : List F32
  accLive : Bool
  record : Option Sums
  listed : Option Sums
  emit : List (Nat × F32)
deriving DecidableEq, Repr

/-- One fret's query slots and working state, by vector number; local state beyond the overlay table (03 R75). -/
structure Fret where
  q : Tab QVec
  v : Tab VecSt
deriving DecidableEq, Repr

/-- Bytes that a core die returns on a channel of its stack, with the SEQ of the frame (01 R29, 03 R68, R79). -/
structure Xfer where
  seq : Nat
  chan : Nat
  data : List Byte
deriving DecidableEq, Repr

/-- The string end of a core die (01 R30, 03 R91, R92): what its 4 KiB buffer holds, and what its paused frets still hold behind it. -/
structure StringEnd where
  buf : List Xfer
  rest : List Xfer
deriving DecidableEq, Repr

/-- What the stack controllers hold between the dies and their consumers (01 R29, R30): string ends by die, return buffers by channel (32 × stack + channel) and queues to the consumers by stack, oldest first; the frames and BAR4 accesses it has not issued yet, in order of arrival. -/
structure SbcSt where
  ends : Tab StringEnd
  rets : Tab (List Xfer)
  queue : Tab (List Xfer)
  stalled : List Instr
deriving DecidableEq, Repr

/-- A tile as a wave has dealt it (04 R119, R122, R130): the courses that hold it, the courses it was divided among, whether its results are discarded, whether it was dealt again. -/
structure Deal where
  tile : Nat
  courses : List Nat
  share : Nat
  lost : Bool
  again : Bool
deriving DecidableEq, Repr

/-- An Array operation queued for a slice (04 R112, R113): the piece of its command's work, tiles still to deal; in a wave, its tiles as dealt and the courses at work. -/
structure ArrOp where
  cmd : Nat
  key : Nat
  piece : Nat
  part : Nat
  prio : Nat
  shape : ArrShape
  left : Nat
  deals : List Deal
  courses : List Nat
deriving DecidableEq, Repr

/-- The Scoring Array (04): fenced courses with their cause, requests for the next wave boundary, courses in self-test, queued operations, the operation in the wave of a slice, tiles reissued in the wave, zero-norm and queue peaks. Queues of the die whose depth no rule gives are lists that never fill (log entry 202, DESIGN CHOICE). -/
structure ArrSt where
  fenced : Nat
  src : Tab Nat
  pendFence : Tab Nat
  pendJoin : Nat
  testing : Nat
  queue : List ArrOp
  wave : Tab ArrOp
  again : Tab Nat
  peak : Nat
deriving DecidableEq, Repr

/-- A Peg statistics slot (02 R64 to R66): binding word, FP64 sum, count, saturations. -/
structure PegSlot where
  bind : Nat
  sse : Nat
  cnt : Nat
  sat : Nat
deriving DecidableEq, Repr

/-- Per-edition state record of a region (08 R254, 06): segment ends, extent lengths, pool-resident segments, calibration, the original values of the stored tokens (02 R56), the token groups whose scales are set (02 R51; chunk × 64 + head), privileged lists, tokens a spilled segment never stored (06 R185). Keys as in `Delta`. -/
structure RegRec where
  edition : Nat
  desc : List Byte
  ends : Tab Nat
  lens : Tab Nat
  pool : Nat
  cal : Tab Cal
  opened : Tab (List (Nat × List F32))
  fixed : Tab (List Nat)
  priv : Tab (List Nat)
  holes : Tab (List Nat)
deriving DecidableEq, Repr

/-- A bound context region (06): its dies in list order, calls by layer, the edition of each layer's last migration pass, floor raised (08 R255), records newest first, flash images of spilled segments (first LUA), blocks last written (13 R423), previous checkpoint. -/
structure Region where
  ctx : Nat
  part : Nat
  dies : List Nat
  calls : Tab Nat
  due : List Nat
  migEd : Tab Nat
  floor : Nat
  recs : List RegRec
  images : Tab Nat
  blocks : Tab Nat
  lastCkpt : Nat
deriving DecidableEq, Repr

/-- Per-edition state record of a shard (07): high-water mark, side head and tail, entry points, cached records by slot. -/
structure ShardRec where
  edition : Nat
  desc : List Byte
  hwm : Nat
  head : Nat
  tail : Nat
  entries : List Nat
  cache : Tab Nat
deriving DecidableEq, Repr

/-- A bound shard (07): dies, floor, records newest first, the sweep pass in progress (next slot, HWM and slots TOMB at its start), ring head that may be reused, shadow role, replay, blocks last written, previous checkpoint. -/
structure Shard where
  num : Nat
  part : Nat
  dies : List Nat
  floor : Nat
  recs : List ShardRec
  sweep : Option (Nat × Nat × List Nat)
  shadow : Bool
  replaying : Bool
  replayNext : Nat
  ready : Bool
  run : Nat
  lastOverlap : Nat
  copies : List (Nat × Nat × List Nat)
  blocks : Tab Nat
  lastCkpt : Nat
  forcing : Bool
  logBuf : List Byte
  logCredit : Nat
deriving DecidableEq, Repr

/-- A scored node of a walk (07 R217): slot record word read with it. -/
structure Node where
  id : Nat
  score : F32
  slotRec : Nat
deriving DecidableEq, Repr

/-- Where a walk stands. -/
inductive WalkPhase where
  | waiting
  | walking
  | walked
deriving DecidableEq, Repr

/-- One walk (07 R215 to R222): command, shard, query; parameters; the three lists, the visited filter's set bits, expansions in flight, counts of R233, side candidates, its memory and whether that is the walk area (10 R336). -/
structure Walk where
  id : Nat
  cmd : Nat
  shard : Nat
  query : Nat
  edition : Nat
  phase : WalkPhase
  width : Nat
  k : Nat
  beam : Nat
  hops : Nat
  sideN : Nat
  frontier : List Node
  pool : List Node
  result : List Node
  bloom : List Nat
  flying : List Nat
  visited : Nat
  expanded : Nat
  filterPass : Nat
  tombVisits : Nat
  dangling : Nat
  evicted : Nat
  nanRows : Nat
  endc : Nat
  side : Option (List Node)
  sideAt : Nat
  mem : Nat
  area : Bool
deriving DecidableEq, Repr

end Sys2Proof.Machine
end

