-- ==== Sys2Proof/Machine/TypesFab.lean ====
section
/-! DEFINITION. Plain-data types: flash, fabric links, pool requests, collectives, barriers, composition (05, 11, 12, 13). -/

namespace Sys2Proof.Machine

/-- Die states of FTE_DIE_STS (11). -/
inductive DieState where
  | absent
  | good
  | excluded
  | dead
  | rebuilding
deriving DecidableEq, Repr

/-- One NAND die (11 R350, R364, R374): its state, retired blocks, geometry and read-retry and suspend features. -/
structure DieSt where
  st : DieState
  retired : List Nat
  planes : Nat
  ppb : Nat
  pages : Nat
  retry : Bool
  suspend : Bool
deriving DecidableEq, Repr

/-- A map entry (11 R356). -/
structure MapEnt where
  kind : Nat
  zmask : Nat
  ppa : Nat
deriving DecidableEq, Repr

/-- A history record (11 R358): global page, previous entry, the stage that wrote it, the edition it committed at. -/
structure Hist where
  page : Nat
  prev : MapEnt
  tag : Nat
  edition : Option Nat
deriving DecidableEq, Repr

/-- A device-managed extent (11 R355) in a partition's LUAs. -/
inductive ExtentUse where
  | adj (shard : Nat)
  | vec (shard : Nat)
  | spill (ctx seg : Nat)
  | area (target : Target)
deriving DecidableEq, Repr

structure Extent where
  part : Nat
  lua : Nat
  units : Nat
  use : ExtentUse
deriving DecidableEq, Repr

/-- A superblock (11 R363, R368): its group's dies, block index, next stripe row, closed, reads since erase, waiting for its erase. -/
structure Super where
  dies : List Nat
  block : Nat
  nextRow : Nat
  closed : Bool
  reads : Nat
  erasing : Bool
deriving DecidableEq, Repr

/-- A stream (11 R364): its open superblock, the pages placed in its open row and not yet programmed. -/
structure Stream where
  sb : Option Nat
  row : List Nat
  programming : Bool
deriving DecidableEq, Repr

/-- A physical page as stored (11 R361): logical page, partition, write sequence number, the key its units are encrypted under (empty: none, 11 R362), its four units; good when programmed. -/
structure Phys where
  gpage : Nat
  part : Nat
  seq : Nat
  key : List Byte
  data : List Byte
  programmed : Bool
deriving DecidableEq, Repr

/-- What an array operation of a die does (11 R351): a read of a unit, by its LUA and its page; a program of a stream's row; an erase of a superblock's blocks. -/
inductive DieWork where
  | read (lua ppa : Nat)
  | program (stream : Nat)
  | erase (sb : Nat)
deriving DecidableEq, Repr

/-- An array operation for a partition. -/
structure DieOp where
  part : Nat
  work : DieWork
deriving DecidableEq, Repr

/-- A die at work (11 R351): the operation outstanding on it, the one it has suspended, the reads served meanwhile. -/
structure DieRun where
  cur : Option DieOp
  paused : Option DieOp
  served : Nat
deriving DecidableEq, Repr

/-- Flash (11): dies, area units, loaded flag, the map, history, extents, physical pages, superblocks and streams by partition (part × 65,536 + index; part × 4 + stream), write sequence numbers, journaled entries, relocating and rebuilding work, the flush record and writes since it, parity positions, reads since erase; the dies at work. -/
structure FteSt where
  dies : Tab DieSt
  area : Nat
  loaded : Bool
  map : Tab MapEnt
  hist : List Hist
  extents : List Extent
  phys : Tab Phys
  supers : Tab Super
  streams : Tab Stream
  seq : Tab Nat
  gc : Nat
  rebuild : List Nat
  flushed : Bool
  written : Bool
  chUp : Nat
  chRate : Tab Nat
  base : Tab Nat
  len : Tab Nat
  scanAt : Tab Nat
  chTrainFail : Nat
  runs : Tab DieRun
deriving DecidableEq, Repr

/-- Link states of FAB_L_STS (12). -/
inductive LinkState where
  | disabled
  | down
  | training
  | up
  | quarantined
deriving DecidableEq, Repr

/-- A data flit as its sender keeps it: virtual channel, first and last of a message, 248 bytes, and with the last the message for a re-send (12 R383, R390). -/
structure TxFlit where
  vc : Nat
  som : Bool
  eom : Bool
  data : List Byte
  msg : Option Msg
deriving DecidableEq, Repr

/-- One fabric link (12 R383 to R391): sequence numbers, flits that wait for a credit, replay buffer of (SEQ, flit), the flits put on the wire, credits, partial messages by virtual channel, whole ones with their channel, retrain history, back-off. -/
structure LinkSt where
  st : LinkState
  kind : Nat
  lanes : Nat
  laneMask : Nat
  ver : Nat
  peer : Nat
  everUp : Bool
  prevPeer : Nat
  seqTx : Nat
  acked : Nat
  rxNext : Nat
  asked : Bool
  queue : List TxFlit
  replay : List (Nat × TxFlit)
  wire : List (List Byte)
  credits : List Nat
  shared : Nat
  owed : List Nat
  outst : List Nat
  partials : Tab (List Byte)
  inbox : List (Nat × List Byte)
  lastAck : Nat
  tries : Nat
  syms : Tab (Nat × Nat)
  retrainAt : Option Nat
  retrains : List Nat
  nextLanes : Nat
  shift : Nat
  quarAt : Nat
  quarEnd : Nat
  widenAt : Nat
deriving DecidableEq, Repr

/-- A request of this node under way (12 R397, R404): its command, the message sent, the data key it fills, when sent, refusals, whether re-sent, whether it was accepted (08 R280). -/
structure Req where
  txn : Nat
  cmd : Nat
  key : Nat
  msg : Msg
  len : Nat
  at' : Nat
  refusals : Nat
  resent : Bool
  waitTo : Option Nat
  accepted : Bool
  part : Nat
  low : Bool
deriving DecidableEq, Repr

/-- Fabric central state (12): links, routes, kept duplicate pairs, requests, messages sent, export windows, messages that wait for a prepared epoch, messages a FAB_TX capo holds, pool requests that wait for a domain being replaced or for return space. -/
structure FabSt where
  links : Tab LinkSt
  route : Tab W32
  dup : List (Nat × Nat × Nat)
  reqs : List Req
  peak : Nat
  sent : List Msg
  exp : Tab (List Nat)
  waitEpoch : List Msg
  txq : List Msg
  waitHbm : List Msg
deriving DecidableEq, Repr

/-- A contributor as the root sees it (05 R163, R164): credit granted, next sequence number, blocks by query with the entries each will have. -/
structure Joiner where
  node : Nat
  txn : Nat
  granted : Nat
  nextSeq : Nat
  blocks : Tab (Nat × SelBlock)
  complete : Bool
  epoch : Nat
  since : Nat
deriving DecidableEq, Repr

/-- An open collective on this node (05 R162 to R166): identity (COLL_ID, partition at the root, fan-out flag), role, the command it serves, its parameters, this node's blocks and whether they count, joiners at the root; at a contributor the messages to send, the credit, and whether a grant has come; value sums by node × 2^20 + query. -/
structure Coll where
  id : Nat
  part : Nat
  fanout : Bool
  root : Bool
  rootNode : Nat
  cmd : Option Nat
  count : Nat
  k : Nat
  ties : Bool
  parts : Nat
  epoch : Nat
  own : List SelBlock
  joins : Bool
  joiners : List Joiner
  unsent : List Body
  credit : Nat
  granted : Bool
  since : Nat
  vals : Tab (List F32)
deriving DecidableEq, Repr

/-- A barrier (13 R418): root, participants, arrivals in order of receipt at the root as (node, txn). -/
structure Barrier where
  id : Nat
  root : Bool
  rootNode : Nat
  cmd : Option Nat
  parts : Nat
  epoch : Nat
  arrived : List (Nat × Nat)
  since : Nat
deriving DecidableEq, Repr

/-- Collectives, requests to join that came before the root's own command, the first such arrival at each barrier as (BAR_ID, LCTR), barriers, and the record of last arrivers, newest first (13 R418 to R420). -/
structure ColSt where
  open' : List Coll
  early : List Msg
  barFirst : List (Nat × Nat)
  bars : List Barrier
  peak : Nat
  waits : Nat
  last : List Nat
  suspect : List Nat
deriving DecidableEq, Repr

/-- A checkpoint area (13 R421, R424): target, partition, first LUA and units, interval, next due, images as (edition, base, bytes), oldest first, and log records as (edition, bytes). -/
structure Area where
  target : Target
  part : Nat
  lua : Nat
  units : Nat
  period : Nat
  dueAt : Nat
  images : List (Nat × Nat × List Byte)
  log : List (Nat × List Byte)
deriving DecidableEq, Repr

/-- What the coordinator keeps of a change (13 R410, R414). -/
structure Change where
  epoch : Nat
  members : List Nat
  ready : List (Nat × Nat)
  activated : Bool
  active : List Nat
  retired : List Nat
  since : Nat
deriving DecidableEq, Repr

/-- A reader of a shard's commit log (13 R426): where its answers go, the shard, the edition and the byte it wants next, its credit. -/
structure LogReader where
  node : Nat
  part : Nat
  txn : Nat
  shard : Nat
  next : Nat
  off : Nat
  credit : Nat
deriving DecidableEq, Repr

/-- Composition (13): map images current, loaded, prepared and draining; change state; firmware banks. -/
structure CmpSt where
  cur : List Byte
  loaded : List Byte
  result : Nat
  prepared : Bool
  dropped : Nat
  prepAt : Nat
  draining : List Byte
  drainAt : Nat
  change : Option Change
  pendingGo : Bool
  finalWait : List Nat
  areas : List Area
  bank : Nat
  image : List Byte
  bootSvn : Nat
  staged : List Byte
  switching : Bool
  unconfirmed : Bool
  fallback : Bool
  logReqs : List LogReader
deriving DecidableEq, Repr

end Sys2Proof.Machine
end

