-- ==== Sys2Proof/Machine/TypesSys.lean ====
section
/-! DEFINITION. Plain-data types: time, power, security, management (14, 15, 17). -/

namespace Sys2Proof.Machine

/-- Local time (01 R32). -/
structure TimeSt where
  lctr : Nat
  src : Nat
  switches : Nat
  refPa : Bool
  refPb : Bool
deriving DecidableEq, Repr

/-- Power, start, supplies, temperatures (15, 17). `stage` is none before stage 0 is entered. -/
structure PwrSt where
  good : Bool
  stage : Option Nat
  on : Nat
  quadRef : Nat
  straps : Nat
  mv : List Nat
  vmin : Nat
  monitors : Bool
  hold : Bool
  holdAt : Nat
  holdMin : Nat
  holdInj : Bool
  flush : Option Nat
  waitRestart : Bool
  tripWait : Bool
  trip : Bool
  pwrFail : Bool
  holdReqs : List (Nat × Bool)
  turning : List Nat
  leaving : List Nat
  vset : Nat
  avsOk : Bool
  temps : List Nat
  power : Nat
  core : Nat
  sensors : List Nat
  valid : Nat
deriving DecidableEq, Repr

/-- One session (14 R443). -/
structure Session where
  part : Nat
  port : Port
  priv : List Byte
  key : List Byte
  keyed : Bool
  seq : Nat
  opening : List Byte
deriving DecidableEq, Repr

/-- Lifecycle of 14 R433. -/
inductive Lifecycle where
  | blank
  | provisioned
  | retired
deriving DecidableEq, Repr

/-- Security (14): OTP, measurements M0 to M7, identity key digest, sessions, IDE keys by port × 16 + stream, confidential and busy masks, flash key nonces, buffer keys, write counters and entry records by partition, encrypted chunks in HBM by linear address (owner context, generation, counter and tag), boot store slots and selector. -/
structure SecSt where
  life : Lifecycle
  digests : List (List Byte)
  valid : Nat
  revoked : Nat
  arb : Nat
  seed : List Byte
  root : List Byte
  meas : List (List Byte)
  idDigest : List Byte
  sessions : List Session
  ide : Tab (List Byte)
  conf : Nat
  busy : Nat
  nonce : Tab (List Byte)
  buf : Tab (List Byte)
  ctr : Tab Nat
  entry : Tab (List Byte)
  chunks : Tab (List Byte)
  slot0 : List Byte
  slot1 : List Byte
  selector : Nat
  chain : List Byte
  noPatch : Bool
  bootOk : Bool
  draws : Nat
deriving DecidableEq, Repr

/-- A port's management mailbox (15 MGT_MBOX). -/
structure Mbox where
  len : Nat
  req : Bool
  rsp : Bool
  data : List Byte
deriving DecidableEq, Repr

/-- Management (15): bus mode, address and endpoint, mailboxes, the takeover authority (partition, port, time), requests outstanding, responses sent, oldest first. -/
structure MgtSt where
  i3c : Bool
  dyn : Nat
  eid : Nat
  boxA : Mbox
  boxB : Mbox
  auth : Option (Nat × Port × Nat)
  resp : List (Transport × List Byte)
deriving DecidableEq, Repr

end Sys2Proof.Machine
end

