-- ==== Sys2Proof/Machine/State.lean ====
section
/-! DEFINITION. The state of the block, its value right after reset, and the reasons a step can stop. -/

namespace Sys2Proof.Machine

/-- The state. `pending`, `free`, `nextCmd` and `nextTxn` are the model's own fields. -/
structure State where
  pending : List Instr
  free : Nat
  nextCmd : Nat
  nextTxn : Nat
  time : TimeSt
  pwr : PwrSt
  reg : RegSt
  pa : PortSt
  pb : PortSt
  rings : Tab Ring
  refuse : Nat × Nat × Nat × Nat
  cmds : List Cmd
  ctxs : Tab CtxEnt
  parts : Tab PartSt
  hbm : HbmSt
  frets : Tab Fret
  sbc : SbcSt
  arr : ArrSt
  peg : Tab PegSlot
  selMax : Nat
  regions : List Region
  shards : List Shard
  walks : List Walk
  walkPeak : Nat
  pfPeak : Nat
  fte : FteSt
  fab : FabSt
  col : ColSt
  cmp : CmpSt
  sec : SecSt
  mgt : MgtSt
deriving DecidableEq, Repr

/-- Why a step stops with a fault. No command of this block does: every failure the manual names is a record, an ERR bit or a context fault (09 R314, 16 R483). -/
inductive Fault where
  /-- Raised by no step of the model; safe. -/
  | halted
deriving DecidableEq, Repr

/-- Why a step has no meaning. -/
inductive Refusal where
  /-- Raised by an arm whose command has no meaning yet; safe. -/
  | notModelled (mnemonic : String)
deriving DecidableEq, Repr

def Port.reset : PortSt :=
  { up := false, speed := 0, width := 0, flit := false, downAt := 0, own := 0, rel := 0, pend := 0, first := 0, peerDown := false,
    out := [], msix := [], slots := [], bar4 := 64 }

def RegSt.reset : RegSt := { w := [], sel := [], latch := [], cnt := [], log := [], head := 0, copy := [] }

/-- A ring as HIF_RING_CFG resets (09): EN 0, SIZE 6. -/
def Ring.reset : Ring :=
  { base := 0, en := false, size := 6, vector := 0, coalCnt := 0, coalUs := 0, tail := 0, phase := true, held := [],
    coal := 0, coalAt := 0, note := 0, killed := 0, lost := 0 }

/-- A context as its registers reset (10): OFF, PART 0, WEIGHT 1. -/
def CtxEnt.reset : CtxEnt := { part := 0, weight := 1, state := .off, cause := 0, killPeak := 0, gen := 0, torn := false }

/-- A capo as its registers reset (10): rates unlimited, depths and levels 0x7FFF_FFFF. -/
def Capo.reset : Capo :=
  { cir := 0xFFFFFFFF, pir := 0xFFFFFFFF, newCir := 0xFFFFFFFF, newPir := 0xFFFFFFFF, cbs := 0x7FFFFFFF, pbs := 0x7FFFFFFF,
    clvl := 0x7FFFFFFF, plvl := 0x7FFFFFFF, peak := 0 }

/-- A partition as its registers reset (10): UNITS 48, INT_WEIGHT 4, REFILL 10. -/
def PartSt.reset : PartSt :=
  { units := 48, fteUnits := 0, pfUnits := 0, shrink := none, intWeight := 4, cur := none, turnAt := 0, due := false,
    scrubbed := true, credit := [], arrCredit := [], capos := [], refill := 10, refillAt := 0, pf := [], qpos := 0 }

def HbmSt.reset : HbmSt :=
  { cells := [], writer := [], poison := [], overlays := [], spares := [], spared := [], sparing := [], deadDies := [], deadChs := [],
    ce := [], elog := [], elogNext := [], elogWraps := [], thermal := [], temp := [], tempMax := [], ovlPeak := [] }

def SbcSt.reset : SbcSt := { ends := [], rets := [], queue := [], stalled := [] }

def ArrSt.reset : ArrSt :=
  { fenced := 0, src := [], pendFence := [], pendJoin := 0, testing := 0, queue := [], wave := [], again := [], peak := 0 }

def FteSt.reset : FteSt :=
  { dies := [], area := 0, loaded := false, map := [], hist := [], extents := [], phys := [], supers := [], streams := [],
    seq := [], gc := 0, rebuild := [], flushed := false, written := false,
    chUp := 0, chRate := [], base := [], len := [], scanAt := [], chTrainFail := 0, runs := [] }

/-- A link as FAB_L_STS resets (12): DOWN; full credits of R30. -/
def LinkSt.reset : LinkSt :=
  { st := .down, kind := 0, lanes := 0, laneMask := 0, ver := 0, peer := 0, everUp := false, prevPeer := 0, seqTx := 0,
    acked := 0, rxNext := 0, asked := false, queue := [], replay := [], wire := [], credits := List.replicate 8 32, shared := 768,
    owed := List.replicate 8 0, outst := List.replicate 8 0, partials := [], inbox := [], lastAck := 0, tries := 0,
    syms := [], retrainAt := none, retrains := [], nextLanes := 0, shift := 0, quarAt := 0, quarEnd := 0, widenAt := 0 }

def FabSt.reset : FabSt :=
  { links := [], route := [], dup := [], reqs := [], peak := 0, sent := [], exp := [], waitEpoch := [], txq := [], waitHbm := [] }

def ColSt.reset : ColSt := { open' := [], early := [], barFirst := [], bars := [], peak := 0, waits := 0, last := [], suspect := [] }

def CmpSt.reset : CmpSt :=
  { cur := [], loaded := [], result := 0, prepared := false, dropped := 0, prepAt := 0, draining := [], drainAt := 0, change := none,
    pendingGo := false, finalWait := [], areas := [], bank := 0, image := [], bootSvn := 0, staged := [],
    switching := false, unconfirmed := false, fallback := false, logReqs := [] }

def TimeSt.reset : TimeSt := { lctr := 0, src := 2, switches := 0, refPa := false, refPb := false }

/-- Power at PD00 power-up: PWR_GOOD asserted, before stage 0; references present and straps 0 (log entry 5, DESIGN CHOICE). -/
def PwrSt.reset : PwrSt :=
  { good := true, stage := none, on := 1, quadRef := 15, straps := 0, mv := [0, 0, 0, 0], vmin := 0,
    monitors := false, hold := false, holdAt := 0, holdMin := 0, holdInj := false, flush := none, waitRestart := false,
    tripWait := false, trip := false, pwrFail := false, holdReqs := [], turning := [], leaving := [], vset := 0, avsOk := false,
    temps := [0, 0, 0, 0], power := 0, core := 0, sensors := List.replicate 23 0, valid := 0 }

/-- A blank part (log entry 9, DESIGN CHOICE): OTP and boot store are non-volatile and the manual gives no content for them. -/
def SecSt.reset : SecSt :=
  { life := .blank, digests := [[], [], [], []], valid := 0, revoked := 0, arb := 0, seed := [], root := [],
    meas := List.replicate 8 [], idDigest := [], sessions := [], ide := [], conf := 0, busy := 0, nonce := [], buf := [],
    ctr := [], entry := [], chunks := [], slot0 := [], slot1 := [], selector := 255, chain := [], noPatch := false,
    bootOk := false, draws := 0 }

def Mbox.reset : Mbox := { len := 0, req := false, rsp := false, data := [] }

def MgtSt.reset : MgtSt :=
  { i3c := false, dyn := 0, eid := 0, boxA := Mbox.reset, boxB := Mbox.reset, auth := none, resp := [] }

/-- The block right after PD00 power-up (16 R492): every register at its reset value, nothing queued. Log entry 4, DESIGN CHOICE. -/
def State.reset : State :=
  { pending := [], free := 0, nextCmd := 0, nextTxn := 0, time := TimeSt.reset, pwr := PwrSt.reset, reg := RegSt.reset,
    pa := Port.reset, pb := Port.reset, rings := [], refuse := (0, 0, 0, 0), cmds := [], ctxs := [], parts := [],
    hbm := HbmSt.reset, frets := [], sbc := SbcSt.reset, arr := ArrSt.reset, peg := [], selMax := 0, regions := [], shards := [],
    walks := [], walkPeak := 0, pfPeak := 0, fte := FteSt.reset, fab := FabSt.reset, col := ColSt.reset, cmp := CmpSt.reset,
    sec := SecSt.reset, mgt := MgtSt.reset }

end Sys2Proof.Machine
end

