-- ==== Sys2Proof/Machine/Ops.lean ====
section
/-! DEFINITION. Named operations over the state: registers, counters, error bits, the event log, MSI-X, completion records, HBM bytes. -/

namespace Sys2Proof

def Port.idx : Port → Nat
  | .pa => 0
  | .pb => 1

def Port.other : Port → Port
  | .pa => .pb
  | .pb => .pa

end Sys2Proof

namespace Sys2Proof.Machine

/-! ## Ports, rings, contexts, partitions, commands -/

def State.port (s : State) : Port → PortSt
  | .pa => s.pa
  | .pb => s.pb

def State.setPort (s : State) (p : Port) (x : PortSt) : State :=
  match p with
  | .pa => { s with pa := x }
  | .pb => { s with pb := x }

def State.modPort (s : State) (p : Port) (f : PortSt → PortSt) : State := s.setPort p (f (s.port p))

/-- The HIF page of a port. -/
def pHif (p : Port) : Nat := 0x10000 + 0x1000 * p.idx

def ringKey (p : Port) (ctx : Nat) : Nat := p.idx * 4096 + ctx

def State.ring (s : State) (p : Port) (ctx : Nat) : Ring := tgetD s.rings (ringKey p ctx) Ring.reset

def State.setRing (s : State) (p : Port) (ctx : Nat) (r : Ring) : State := { s with rings := tset s.rings (ringKey p ctx) r }

def State.ctx (s : State) (n : Nat) : CtxEnt := tgetD s.ctxs n CtxEnt.reset

def State.modCtx (s : State) (n : Nat) (f : CtxEnt → CtxEnt) : State := { s with ctxs := tset s.ctxs n (f (s.ctx n)) }

def State.part (s : State) (p : Nat) : PartSt := tgetD s.parts p PartSt.reset

def State.modPart (s : State) (p : Nat) (f : PartSt → PartSt) : State := { s with parts := tset s.parts p (f (s.part p)) }

def State.capo (s : State) (p r : Nat) : Capo := tgetD (s.part p).capos r Capo.reset

def State.modCapo (s : State) (p r : Nat) (f : Capo → Capo) : State :=
  s.modPart p fun x => { x with capos := tset x.capos r (f (tgetD x.capos r Capo.reset)) }

def State.cmd (s : State) (id : Nat) : Option Cmd := s.cmds.find? fun c => c.id == id

def State.modCmd (s : State) (id : Nat) (f : Cmd → Cmd) : State :=
  { s with cmds := s.cmds.map fun c => if c.id == id then f c else c }

def State.dropCmd (s : State) (id : Nat) : State := { s with cmds := s.cmds.filter fun c => c.id != id }

/-- Power domain `d` is on (15 R460). -/
def State.powered (s : State) (d : Nat) : Bool := bitOf s.pwr.on d

/-- Partition `p` is in confidential mode (14 R444). -/
def State.confidential (s : State) (p : Nat) : Bool := bitOf s.sec.conf p

/-- No commit, program or erase starts: in HOLD, and while the flush runs (15 R466, 11 R377). -/
def State.held (s : State) : Bool := s.pwr.hold || s.pwr.flush.isSome

/-- A value the manual leaves open (log entry 3, DESIGN CHOICE): the next free value below `2 ^ w`. -/
def State.takeFree (s : State) (w : Nat) : Nat × State := (Config.freeNat s.free % 2 ^ w, { s with free := s.free + 1 })

/-! ## Stored registers and counters -/

/-- A stored register word, by BAR0 offset; unwritten words hold the reset value. -/
def State.reg32 (s : State) (off : Nat) : Nat :=
  match tget s.reg.w off with
  | some v => v.toNat
  | none => resetReg (off % 2 ^ 26)

def State.setReg32 (s : State) (off v : Nat) : State :=
  { s with reg := { s.reg with w := tset s.reg.w off (BitVec.ofNat 32 v) } }

/-- Key of a register held once for each of several entries (a partition, a window). -/
def regKey (off i : Nat) : Nat := off + 2 ^ 26 * i

/-- Index of an agent's own copies (16 R490). -/
def agentIdx : Agent → Nat
  | .mgmt => 0
  | .host .pa 0 => 1
  | .host .pb 0 => 2
  | .host .pa n => 2 + n
  | .host .pb n => 18 + n

/-- What an agent's selector register holds. -/
def State.selOf (s : State) (a : Agent) (off : Nat) : Nat := ((tget s.reg.sel (regKey off (agentIdx a))).getD 0).toNat

def State.setSel (s : State) (a : Agent) (off v : Nat) : State :=
  { s with reg := { s.reg with sel := tset s.reg.sel (regKey off (agentIdx a)) (BitVec.ofNat 32 v) } }

/-- An agent's latched half shown at `off`. -/
def State.latchOf (s : State) (a : Agent) (off : Nat) : Option Nat :=
  (tget s.reg.latch (regKey off (agentIdx a))).map fun v => v.toNat

def State.setLatch (s : State) (a : Agent) (off v : Nat) : State :=
  { s with reg := { s.reg with latch := tset s.reg.latch (regKey off (agentIdx a)) (BitVec.ofNat 32 v) } }

def State.dropLatch (s : State) (a : Agent) (off : Nat) : State :=
  { s with reg := { s.reg with latch := tdel s.reg.latch (regKey off (agentIdx a)) } }

/-- Counters count modulo 2^64 (16 R486). -/
def State.bump (s : State) (off n : Nat) : State :=
  { s with reg := { s.reg with cnt := tset s.reg.cnt off ((tgetD s.reg.cnt off 0 + n) % 2 ^ 64) } }

def State.counter (s : State) (off : Nat) : Nat := tgetD s.reg.cnt off 0

def State.bumps (s : State) (l : List (Nat × Nat)) : State := l.foldl (fun s x => if x.2 == 0 then s else s.bump x.1 x.2) s

/-- The device is locked as a whole: some partition is in service and every one in service is confidential (14 R453). Log entry 128, DEDUCED. -/
def State.devLocked (s : State) : Bool :=
  let on := (List.range 16).filter fun p => (s.part p).units != 0
  !on.isEmpty && on.all s.confidential

/-! ## MSI-X -/

/-- Log entry 7, PRESUMED. -/
def MsixFn.reset : MsixFn := { en := false, maskAll := false, open' := [], pend := [] }

def State.msixFn (s : State) (p : Port) (fn : Nat) : MsixFn := tgetD (s.port p).msix fn MsixFn.reset

/-- What a port sends leaves at once: no command grants posted-write credits (01 R26, R30; log entry 201, DESIGN CHOICE). -/
def State.emit (s : State) (p : Port) (m : HostMsg) : State := s.modPort p fun x => { x with out := x.out ++ [m] }

/-- A base address register of a function (09 R283): its number, its size in bytes. Every BAR is 64-bit. -/
structure Bar where
  num : Nat
  size : Nat
  prefetch : Bool
deriving DecidableEq, Repr

/-- What a PCIe function presents (09 R282 to R284): device ID, BARs, MSI-X table entries, whether it is the physical function with SR-IOV, Resizable BAR, DOE and IDE. Each has Advanced Error Reporting and Function Level Reset; none uses ATS or PASID. -/
structure PcieFn where
  vendor : Nat
  device : Nat
  bars : List Bar
  msix : Nat
  physical : Bool
deriving DecidableEq, Repr

/-- Function `fn` of a port whose BAR4 has `gib` GiB: 0 the PF, n the VF of partition n − 1 (09 R282 to R284). -/
def pcieFn (gib fn : Nat) : PcieFn :=
  if fn == 0 then
    { vendor := Config.vendorId, device := 0x0C12, msix := 2048, physical := true,
      bars := [⟨0, 2 ^ 26, false⟩, ⟨2, 2 ^ 24, true⟩, ⟨4, gib * 2 ^ 30, true⟩] }
  else { vendor := Config.vendorId, device := 0x0C13, msix := 256, physical := false, bars := [⟨0, 4096, false⟩, ⟨2, 2 ^ 24, true⟩] }

/-- The largest payload and the largest read request of a port, in bytes (09 R282). -/
def maxPayload : Nat := 512
def maxReadRequest : Nat := 4096

/-- A read of BAR2 (09 R283): zeros, without effect. -/
def bar2Read (len : Nat) : List Byte := zeros len

/-- An MSI-X message falls due (09 R313): dropped when MSI-X is not enabled, pending when masked, sent otherwise. -/
def State.sendMsix (s : State) (p : Port) (fn vector : Nat) : State :=
  let m := s.msixFn p fn
  if !m.en || vector ≥ (pcieFn (s.port p).bar4 fn).msix then s
  else if m.maskAll || !m.open'.contains vector then
    s.modPort p fun x => { x with msix := tset x.msix fn { m with pend := if m.pend.contains vector then m.pend else m.pend ++ [vector] } }
  else (s.emit p (.msix fn vector)).bump (pHif p + 0x050) 1

/-! ## Error bits and the event log -/

/-- A page holds an enabled error (16 R495). -/
def State.pageErr (s : State) (base : Nat) : Bool := (s.reg32 (base + 0x018)) &&& (s.reg32 (base + 0x01C)) != 0

/-- Bit `i` of `GLB_ERR_SUM` (16 R495). -/
def State.sumOf (s : State) (i : Nat) : Bool := (blockPages i).any fun n => s.pageErr (n * 4096)

def State.errSum (s : State) : Nat := sumList ((List.range 23).map fun i => if s.sumOf i then 2 ^ i else 0)

/-- The summary message of a bit that has just risen (16 R495). -/
def State.summaryMsg (s : State) : State :=
  let cfg := s.reg32 0x12C
  if !bitOf cfg 31 then s
  else
    let one := fun (s : State) (p : Port) =>
      if bitOf cfg (16 + p.idx) && (s.port p).up then s.sendMsix p 0 (fld cfg 10 0) else s
    one (one s .pa) .pb

/-- Does `f` and, where that makes a summary bit of the block rise, sends the summary message. -/
def State.withSum (s : State) (i : Nat) (f : State → State) : State :=
  let t := f s
  if !s.sumOf i && t.sumOf i then t.summaryMsg else t

/-- Who an event concerns: a partition and a context (16 R497). -/
structure Attr where
  part : Option Nat
  ctx : Nat
deriving DecidableEq, Repr

def noAttr : Attr := ⟨none, 0⟩
def partAttr (p : Nat) : Attr := ⟨some p, 0⟩

/-- The next sequence number: modulo 2^32 without 0 (16 R496). -/
def nextSeq (h : Nat) : Nat := if h + 1 ≥ 2 ^ 32 then 1 else h + 1

/-- An occurrence is logged by a page: folded into the page's newest entry or written as a new one (16 R496 to R500). -/
def State.logEvent (s : State) (base code sev : Nat) (at' : Attr) (d0 d1 : Nat) : State :=
  match pageOf base with
  | none => s
  | some pg =>
    let red := match at'.part with
      | some p => s.confidential p
      | none => false
    let part := match at'.part with
      | some p => p % 16 + 16 + (if red then 32 else 0)
      | none => 0
    let ctx := if red then 0 else at'.ctx
    let d0 := if red then 0 else d0 % 2 ^ 32
    let d1 := if red then 0 else d1 % 2 ^ 32
    let same := fun (e : Event) =>
      e.code == code && e.part == part && e.ctx == ctx && e.d0 == d0 && e.d1 == d1 && s.time.lctr - e.time ≤ 2 ^ 20
    match s.reg.log.find? fun e => e.source == pg.id with
    | some e =>
      if same e then
        State.bump { s with reg := { s.reg with log := s.reg.log.map fun x : Event => if x.seq == e.seq then { x with count := sat16 (x.count + 1) } else x } } 0x048 1
      else new s pg part ctx d0 d1
    | none => new s pg part ctx d0 d1
where
  new (s : State) (pg : Page) (part ctx d0 d1 : Nat) : State :=
    let seq := nextSeq s.reg.head
    let e : Event := { time := s.time.lctr, seq := seq, source := pg.id, code := code, sev := sev, part := part, ctx := ctx, count := 1, d0 := d0, d1 := d1 }
    let s := { s with reg := { s.reg with log := (e :: s.reg.log).take 4096, head := seq } }
    (s.setReg32 (base + 0x028) seq).bump (pTel + 0x040) 1

/-- Severity of an ERR bit: 1 for the corrected-error bits (16 R498). -/
def errSev (pg : Page) (bit : Nat) : Nat :=
  match pg.ty, pg.kind, bit with
  | 0x30, _, 0 | 0x30, _, 3 => 1
  | 0x20, 1, 2 => 1
  | 0x32, 1, 0 | 0x32, 1, 1 => 1
  | _, _, _ => 3

/-- The condition of ERR bit `bit` of the page at `base` occurs (16 R483, R495, R496). -/
def State.raiseAt (s : State) (base bit : Nat) (at' : Attr) : State :=
  match pageOf base with
  | none => s
  | some pg =>
    s.withSum (sumBit pg.ty) fun s =>
      let e := s.reg32 (base + 0x018)
      let s := if bitOf e bit then s.setReg32 (base + 0x024) (setBit (s.reg32 (base + 0x024)) bit true) else s
      let e' := setBit e bit true
      let s := s.setReg32 (base + 0x018) e'
      if bitOf (s.reg32 (base + 0x01C)) bit then s.logEvent base 1 (errSev pg bit) at' bit e' else s

def State.raise (s : State) (base bit : Nat) : State := s.raiseAt base bit noAttr

def State.raises (s : State) (at' : Attr) (l : List (Nat × Nat)) : State := l.foldl (fun s x => s.raiseAt x.1 x.2 at') s

/-- An armed injection of a page; it clears once it has occurred (16 R484). -/
def State.armed (s : State) (base bit : Nat) : Bool := bitOf (s.reg32 (base + 0x020)) bit

def State.disarm (s : State) (base bit : Nat) : State := s.setReg32 (base + 0x020) (setBit (s.reg32 (base + 0x020)) bit false)

/-- A start stage is entered (15 R454, 16 R498 code 0x04). -/
def State.enterStage (s : State) (n : Nat) : State :=
  State.logEvent { s with pwr := { s.pwr with stage := some n } } pPwr 4 0 noAttr n 0

/-! ## Completion records (09 R308 to R313) -/

/-- The function a partition submits through on a port (09 R285). -/
def State.submitFn (s : State) (p : Port) (part : Nat) : Nat := if bitOf (s.reg32 (pHif p + 0x11C)) part then part + 1 else 0

def Origin.isWindow : Origin → Bool
  | .window => true
  | _ => false

def Origin.isForwarded : Origin → Bool
  | .forwarded _ _ _ => true
  | _ => false

/-- The count of 09 R293: window descriptors of a context whose records have not been written. -/
def State.inflight (s : State) (p : Port) (ctx : Nat) : Nat :=
  (s.cmds.filter fun c => c.ctx == ctx && c.port == p && c.origin.isWindow).length +
    ((s.ring p ctx).held.filter fun r => r.kind == 0).length

/-- The 32 bytes of a record (09 R310). -/
def Rec.bytes32 (r : Rec) (phase : Bool) : List Byte :=
  leBytes 2 r.tag ++ leBytes 2 r.ctx ++ leBytes 2 r.status ++ leBytes 2 r.sub ++ leBytes 4 r.result ++ leBytes 4 r.bytes ++
    leBytes 8 r.edition ++ leBytes 4 r.counter ++ leBytes 1 r.credits ++ leBytes 1 r.kind ++ leBytes 1 r.opcode ++
    leBytes 1 (if phase then 128 else 0)

/-- A message for a written record with IRQ set, under coalescing (09 R313). -/
def State.coalesce (s : State) (p : Port) (ctx part : Nat) : State :=
  let r := s.ring p ctx
  let n := r.coal + 1
  if n ≥ r.coalCnt then (s.setRing p ctx { r with coal := 0 }).sendMsix p (s.submitFn p part) r.vector
  else s.setRing p ctx { r with coal := n, coalAt := if r.coal == 0 then s.time.lctr + 100 * r.coalUs else r.coalAt }

/-- Writes one record at the ring's next entry (09 R309); PHASE inverts on a wrap. -/
def State.writeRec (s : State) (p : Port) (ctx : Nat) (x : Rec) : State :=
  let r := s.ring p ctx
  let part := (s.ctx ctx).part
  let s := s.emit p (.record (s.submitFn p part) ctx (r.base + 32 * r.tail) (x.bytes32 r.phase))
  let wrap := r.tail + 1 ≥ 2 ^ r.size
  let s := s.setRing p ctx { r with tail := if wrap then 0 else r.tail + 1, phase := if wrap then !r.phase else r.phase }
  let s := s.bump (pHif p + 0x048) 1
  if x.irq && x.kind == 0 then s.coalesce p ctx part else s

/-- Whether records of a context can be written now. -/
def State.ringOpen (s : State) (p : Port) (ctx : Nat) : Bool := (s.port p).up && (s.ring p ctx).en

/-- A record is written, or held behind others, a down link or a disabled ring (09 R308, R313, R320). -/
def State.putRec (s : State) (p : Port) (ctx : Nat) (x : Rec) : State :=
  let r := s.ring p ctx
  if s.ringOpen p ctx && r.held.isEmpty then s.writeRec p ctx x
  else s.setRing p ctx { r with held := r.held ++ [x] }

/-- Writes every held record in order. A held grant's credits are those of the moment it is written (09 R292). -/
def State.drainRing (s : State) (p : Port) (ctx : Nat) : State :=
  if s.ringOpen p ctx then go (s.ring p ctx).held s else s
where
  go : List Rec → State → State
    | [], s => s
    | x :: rest, s =>
      let s := s.setRing p ctx { s.ring p ctx with held := rest }
      let x := if x.kind == 1 then { x with credits := 64 - s.inflight p ctx } else x
      go rest (s.writeRec p ctx x)

/-- A grant record (09 R292, R319). -/
def grantRec (ctx sub killed lost edition : Nat) : Rec :=
  { id := 0, tag := 0xFFFF, ctx := ctx, status := 0, sub := sub, result := lost, bytes := 0, edition := edition, counter := killed,
    credits := 64, kind := 1, opcode := 0, irq := false }

/-! ## Local time -/

/-- One tick of `LCTR` while `PD00` is powered (01 R32). -/
def State.idleTick (s : State) : State :=
  if s.pwr.good then { s with time := { s.time with lctr := (s.time.lctr + 1) % 2 ^ 64 } } else s

/-! ## HBM bytes (03) -/

/-- HBM is a list of cells at rising linear addresses; an unlisted byte reads 0 (log entry 8, DESIGN CHOICE). -/
def memGet (m : List Host.Cell) (a : Nat) : Byte := tgetD m a 0

def memSet (m : List Host.Cell) (a : Nat) (b : Byte) : List Host.Cell := if b == 0 then tdel m a else tset m a b

/-- The canonical form: addresses strictly rising, no cell 0. -/
def memWf : List Host.Cell → Bool
  | [] => true
  | (a, b) :: r => b != 0 && (r.all fun c => a < c.1) && memWf r

def memRead (m : List Host.Cell) (a : Nat) : Nat → List Byte
  | 0 => []
  | n + 1 => memGet m a :: memRead m (a + 1) n

def memWrite (m : List Host.Cell) (a : Nat) : List Byte → List Host.Cell
  | [] => m
  | b :: r => memWrite (memSet m a b) (a + 1) r

end Sys2Proof.Machine
end

