-- ==== Sys2Proof/Machine/Operands.lean ====
section
/-! DEFINITION. The fields of a descriptor and the checks of its address ranges (spec 09 R287, R288, R295 to R299). -/

namespace Sys2Proof.Machine

/-! ## Descriptor fields (09 R295) -/

def Cmd.w (c : Cmd) (i : Nat) : Nat := c.dw.getD i 0

/-- Bits [hi:lo] of word i. -/
def Cmd.f (c : Cmd) (i hi lo : Nat) : Nat := fld (c.w i) hi lo

/-- The 64-bit field in words i and i + 1. -/
def Cmd.q (c : Cmd) (i : Nat) : Nat := c.w i + c.w (i + 1) * 2 ^ 32

def Cmd.opcode (c : Cmd) : Nat := c.f 0 7 0
def Cmd.irq (c : Cmd) : Bool := bitOf (c.w 0) 16
def Cmd.ties (c : Cmd) : Bool := bitOf (c.w 0) 17
def Cmd.retry (c : Cmd) : Bool := bitOf (c.w 0) 18
/-- `ORDERED`; bit 19 is reserved in version 1 (09 R298). -/
def Cmd.ordered (c : Cmd) : Bool := bitOf (c.w 0) 19
def Cmd.tag (c : Cmd) : Nat := c.f 1 15 0
def Cmd.inAddr (c : Cmd) : Nat := c.q 2
def Cmd.inLen (c : Cmd) : Nat := c.w 4
def Cmd.count (c : Cmd) : Nat := c.w 5
def Cmd.outAddr (c : Cmd) : Nat := c.q 6
def Cmd.outLen (c : Cmd) : Nat := c.w 8
def Cmd.kReq (c : Cmd) : Nat := c.w 9
def Cmd.edReq (c : Cmd) : Nat := c.q 10

/-- All words from i to j are 0. -/
def Cmd.zero (c : Cmd) (i j : Nat) : Bool := (List.range (j + 1 - i)).all fun k => c.w (i + k) == 0

/-- Opcodes of 09 R299. -/
def opcodes : List Nat :=
  [0x01, 0x10, 0x11, 0x12, 0x20, 0x21, 0x22, 0x30, 0x31, 0x32, 0x33, 0x34, 0x35, 0x36, 0x40, 0x41, 0x50, 0x60, 0x61, 0x70, 0x71,
   0x72, 0x7F]

/-- Read commands (09 R299, 08 R254). -/
def isRead (op : Nat) : Bool := [0x10, 0x11, 0x12, 0x20, 0x30, 0x35, 0x60].contains op

/-- Mutating commands (09 R299, 08 R256). -/
def isMutating (op : Nat) : Bool := [0x21, 0x22, 0x31, 0x32, 0x33, 0x34, 0x36, 0x40, 0x41, 0x61].contains op

/-- Selecting opcodes, for which `INCLUDE_TIES` is valid (09 R296, R299). -/
def isSelecting (op : Nat) : Bool := [0x10, 0x11, 0x12, 0x20, 0x50].contains op

/-- Permission bit of `CAU_PART_PERM` an opcode needs (09 R299). -/
def permBit (op : Nat) : Option Nat :=
  if op == 0x70 || op == 0x71 || op == 0x72 then some 31 else if op == 0x60 || op == 0x61 then some 30 else none

/-! ## Statuses (09 R314) -/

def stOk : Nat := 0
def stShort : Nat := 1
def stFilterShort : Nat := 2
def stBufferShort : Nat := 0x10
def stField : Nat := 0x11
def stVersion : Nat := 0x12
def stOpcode : Nat := 0x13
def stData : Nat := 0x14
def stCancelled : Nat := 0x21
def stRerun : Nat := 0x22
def stPoolLost : Nat := 0x30
def stStale : Nat := 0x31
def stSideFull : Nat := 0x32
def stCtxFault : Nat := 0x40
def stFenced : Nat := 0x41
def stMedia : Nat := 0x50
def stEcc : Nat := 0x51
def stDenied : Nat := 0x60

/-- OK, OK_SHORT and OK_FILTER_SHORT write output (09 R314). -/
def stGood (st : Nat) : Bool := st ≤ 2

/-! ## The slice map (13 R406) and the fret domains -/

/-- The 64-byte slice entry of a partition in the current map. -/
def State.sliceEnt (s : State) (p : Nat) : List Byte := slice s.cmp.cur (64 + 64 * p) 64

def State.courses (s : State) (p : Nat) : Nat := le16 (s.sliceEnt p) 0
def State.flashChs (s : State) (p : Nat) : Nat := le32 (s.sliceEnt p) 4
def State.links (s : State) (p : Nat) : Nat := le32 (s.sliceEnt p) 8 % 2 ^ 24

/-- Core die 16s + d is in the slice of partition p. -/
def State.dieIn (s : State) (p d : Nat) : Bool := bitOf (leNat (slice (s.sliceEnt p) 16 24)) d

def State.sliceDies (s : State) (p : Nat) : List Nat := (List.range 192).filter (s.dieIn p)

/-- Fret domains of the package; bytes and columns of one (03 R70, R71). -/
def nFrets : Nat := 12288
def fretBytes : Nat := 0x3000000
def fretCols : Nat := 1572864

/-- Device-space address as a fret domain and an offset; none outside HBM or in a hole (03 R71). -/
def devAddr (a : Nat) : Option (Nat × Nat) :=
  let o := a % 2 ^ 63
  if a / 2 ^ 63 == 1 && decide (o / 2 ^ 26 < nFrets) && decide (o % 2 ^ 26 < fretBytes) then some (o / 2 ^ 26, o % 2 ^ 26) else none

def isDev (a : Nat) : Bool := a / 2 ^ 63 == 1

/-- Check of one range: wrap (0x0906), HBM and holes (0x0907), the slice (0x0931). -/
def State.rangeBad (s : State) (part a len : Nat) : Option (Nat × Nat) :=
  if len == 0 then none
  else if isDev a then
    match devAddr a with
    | none => some (stField, 0x0907)
    | some (f, o) =>
      if o + len > fretBytes then some (stField, 0x0907)
      else if !s.dieIn part (f / 64) then some (stDenied, 0x0931) else none
  else if a + len > 2 ^ 63 then some (stField, 0x0906) else none

/-- Check of one range whose address the spec has in device space: outside HBM it is 0x0907 (09 R287). Log entry 84, DEDUCED. -/
def State.devRangeBad (s : State) (part a len : Nat) : Option (Nat × Nat) :=
  if len != 0 && !isDev a then some (stField, 0x0907) else s.rangeBad part a len

/-- Two ranges share a byte. -/
def overlaps (a la b lb : Nat) : Bool := la != 0 && lb != 0 && decide (a < b + lb) && decide (b < a + la)

/-- Step 10 of 09 R305 for the input, the output and further ranges (log entry 20, DEDUCED, for the order); a confidential partition's buffers lie in 4 KiB chunks (14 R448). -/
def State.ranges (s : State) (c : Cmd) (more : List (Nat × Nat)) : Option (Nat × Nat) :=
  let one := fun a len =>
    if len != 0 && (a % 64 != 0 || (s.confidential c.part && isDev a && a % 4096 != 0)) then some (stField, 0x0906) else s.rangeBad c.part a len
  -- addresses of a command that came from elsewhere have been checked there
  if c.origin != .window then none
  else match one c.inAddr c.inLen with
  | some e => some e
  | none =>
    match one c.outAddr c.outLen with
    | some e => some e
    | none =>
      if overlaps c.inAddr c.inLen c.outAddr c.outLen then some (stField, 0x0909)
      else (more.filterMap fun r => s.rangeBad c.part r.1 r.2).head?

/-- Bytes at a device-space address, without overlays. -/
def State.devRead (s : State) (a n : Nat) : List Byte :=
  match devAddr a with
  | some (f, o) => memRead s.hbm.cells (f * fretBytes + o) n
  | none => zeros n

end Sys2Proof.Machine
end

