-- ==== Sys2Proof/Machine/Flags.lean ====
section
/-! DEFINITION. The flag word of a record and the status of a selecting command (spec 09 R315, 05 R161). -/

namespace Sys2Proof.Machine

/-- SUBSTATUS under an OK status (09 R315). -/
def flagWord (sel : Nat) (poolRerun readmitted rejected noSlot : Bool) : Nat :=
  sel % 16 + (if poolRerun then 16 else 0) + (if readmitted then 32 else 0) + (if rejected then 64 else 0) + (if noSlot then 128 else 0)

/-- `POOL_RERUN` and `READMITTED` as a command carries them. -/
def Cmd.flagsNow (c : Cmd) (sub : Nat) : Nat := sub ||| c.flags

end Sys2Proof.Machine
end

