-- ==== Sys2Proof/Machine/Fmt.lean ====
section
/-! DEFINITION. The sixteen formats: codes, roles, packing, decode, encode (spec 02 R36 to R46). -/

namespace Sys2Proof.Machine

/-- The formats of 02 R36. -/
inductive Fmt where
  | fp32 | bf16 | fp16 | e4m3 | e5m2 | e3m2 | e2m3 | e2m1
  | int16 | int8 | uint8 | int4 | uint4 | int2 | bin1 | ue8m0
deriving DecidableEq, Repr

/-- The 4-bit format code (02 R36). -/
def Fmt.ofCode : Nat → Fmt
  | 0 => .fp32 | 1 => .bf16 | 2 => .fp16 | 3 => .e4m3 | 4 => .e5m2 | 5 => .e3m2 | 6 => .e2m3 | 7 => .e2m1
  | 8 => .int16 | 9 => .int8 | 10 => .uint8 | 11 => .int4 | 12 => .uint4 | 13 => .int2 | 14 => .bin1
  | _ => .ue8m0

def Fmt.code : Fmt → Nat
  | .fp32 => 0 | .bf16 => 1 | .fp16 => 2 | .e4m3 => 3 | .e5m2 => 4 | .e3m2 => 5 | .e2m3 => 6 | .e2m1 => 7
  | .int16 => 8 | .int8 => 9 | .uint8 => 10 | .int4 => 11 | .uint4 => 12 | .int2 => 13 | .bin1 => 14 | .ue8m0 => 15

/-- Width in bits (02 R36). -/
def Fmt.width : Fmt → Nat
  | .fp32 => 32 | .bf16 => 16 | .fp16 => 16 | .e4m3 => 8 | .e5m2 => 8 | .e3m2 => 6 | .e2m3 => 6 | .e2m1 => 4
  | .int16 => 16 | .int8 => 8 | .uint8 => 8 | .int4 => 4 | .uint4 => 4 | .int2 => 2 | .bin1 => 1 | .ue8m0 => 8

/-- Accepted as a fret row (02 R36). -/
def Fmt.fretRow : Fmt → Bool
  | .e4m3 | .e5m2 | .e2m1 | .int8 | .uint8 | .int4 | .uint4 | .int2 | .bin1 => true
  | _ => false

/-- Accepted as a fret query (02 R36, R37). -/
def Fmt.fretQuery : Fmt → Bool
  | .bf16 | .e4m3 | .e5m2 | .int8 => true
  | _ => false

/-- Accepted as an Array operand (02 R36): every format but UE8M0. -/
def Fmt.arrayOp : Fmt → Bool
  | .ue8m0 => false
  | _ => true

/-- Formats with a zero point. -/
def Fmt.zp : Fmt → Bool
  | .uint8 | .uint4 => true
  | _ => false

def Fmt.integer : Fmt → Bool
  | .int16 | .int8 | .uint8 | .int4 | .uint4 | .int2 | .bin1 => true
  | _ => false

/-- Integer formats of 8 bits or fewer, whose products sum exactly in INT32 (02 R54). -/
def Fmt.int8ish (f : Fmt) : Bool := f.integer && decide (f.width ≤ 8)

/-- Stored unscaled (02 R48). -/
def Fmt.unscaled : Fmt → Bool
  | .fp32 | .bf16 | .fp16 => true
  | _ => false

/-- The three formats that inputs and decoded outputs may take. -/
def Fmt.inputFmt (c : Nat) : Bool := c == 0 || c == 1 || c == 2

/-- Element size of an input format in bytes. -/
def inBytes (c : Nat) : Nat := if c == 0 then 4 else 2

def Fmt.ffmt : Fmt → Option FFmt
  | .fp32 => some Machine.fp32
  | .bf16 => some Machine.bf16
  | .fp16 => some Machine.fp16
  | .e4m3 => some Machine.e4m3
  | .e5m2 => some Machine.e5m2
  | .e3m2 => some Machine.e3m2
  | .e2m3 => some Machine.e2m3
  | .e2m1 => some Machine.e2m1
  | _ => none

/-- Two's complement reading of a code of `w` bits. -/
def signedOf (w c : Nat) : Int := if bitOf c (w - 1) then (c : Int) - 2 ^ w else c

/-- What a code stands for, before scale and zero point (02 R36, R38, R39, R41). -/
def Fmt.value (f : Fmt) (c : Nat) : FVal :=
  match f with
  | .fp32 => ieeeVal Machine.fp32 c
  | .bf16 => ieeeVal Machine.bf16 c
  | .fp16 => ieeeVal Machine.fp16 c
  | .e4m3 => if c % 128 == 127 then .nan else .fin (magVal Machine.e4m3 (bitOf c 7) (c % 128))
  | .e5m2 =>
    if fld c 6 2 == 31 then (if fld c 1 0 == 0 then .inf (bitOf c 7) else .nan)
    else .fin (magVal Machine.e5m2 (bitOf c 7) (c % 128))
  | .e3m2 => .fin (magVal Machine.e3m2 (bitOf c 5) (c % 32))
  | .e2m3 => .fin (magVal Machine.e2m3 (bitOf c 5) (c % 32))
  | .e2m1 => .fin (magVal Machine.e2m1 (bitOf c 3) (c % 8))
  | .int16 => .fin (Dy.ofInt (signedOf 16 c))
  | .int8 => .fin (Dy.ofInt (signedOf 8 c))
  | .int4 => .fin (Dy.ofInt (signedOf 4 c))
  | .int2 => .fin (Dy.ofInt (signedOf 2 c))
  | .uint8 | .uint4 => .fin (Dy.ofNat c)
  | .bin1 => .fin (Dy.ofInt (if c == 0 then 1 else -1))
  | .ue8m0 => if c == 255 then .nan else .fin ⟨false, 1, (c : Int) - 127⟩

/-- Integer value of a code of an integer format; the raw code for zero-point formats. -/
def Fmt.intVal (f : Fmt) (c : Nat) : Int :=
  match f.value c with
  | .fin d => d.at 0
  | _ => 0

/-- Largest code value of R52's table (Q_max), as an exact number. -/
def Fmt.qmax : Fmt → Dy
  | .e4m3 => Dy.ofNat 448
  | .e5m2 => Dy.ofNat 57344
  | .e3m2 => Dy.ofNat 28
  | .e2m3 => ⟨false, 15, -1⟩
  | .e2m1 => Dy.ofNat 6
  | .int16 => Dy.ofNat 32767
  | .int8 => Dy.ofNat 127
  | .int4 => Dy.ofNat 7
  | .uint8 => Dy.ofNat 255
  | .uint4 => Dy.ofNat 15
  | _ => Dy.ofNat 1

/-- Nearest integer of an exact value, ties to even. -/
def roundInt (a : Dy) : Int :=
  let n : Nat := if a.e ≥ 0 then a.m * 2 ^ a.e.toNat else shrRne a.m (-a.e).toNat
  if a.neg then -(n : Int) else n

def clampInt (lo hi v : Int) : Int := if v < lo then lo else if hi < v then hi else v

/-- The code of an exact value, to nearest even and saturating (02 R41, R44). Zero-point formats take the value with the zero point already added. -/
def Fmt.encode (f : Fmt) (a : Dy) : Nat :=
  match f with
  | .int16 => (clampInt (-32767) 32767 (roundInt a) % 65536).toNat
  | .int8 => (clampInt (-127) 127 (roundInt a) % 256).toNat
  | .int4 => (clampInt (-7) 7 (roundInt a) % 16).toNat
  | .int2 => (clampInt (-1) 1 (roundInt a) % 4).toNat
  | .uint8 => (clampInt 0 255 (roundInt a)).toNat
  | .uint4 => (clampInt 0 15 (roundInt a)).toNat
  | .bin1 => if a.neg && a.m != 0 then 1 else 0
  | .ue8m0 => 127
  | _ =>
    match f.ffmt with
    | some ff => roundBits ff a
    | none => 0

/-- Whether encoding saturated: the rounded value lies beyond the largest finite magnitude (02 R57). -/
def Fmt.saturates (f : Fmt) (a : Dy) : Bool :=
  match f with
  | .bin1 | .ue8m0 => false
  | .uint8 => decide (roundInt a < 0 ∨ 255 < roundInt a)
  | .uint4 => decide (roundInt a < 0 ∨ 15 < roundInt a)
  | _ => Dy.lt f.qmax a.abs && !f.unscaled

/-- Codes of a packed row in element order (02 R42). -/
def unpack (f : Fmt) (n : Nat) (bytes : List Byte) : List Nat :=
  match f.width with
  | 32 => (chunks 4 n bytes).map fun c => leNat (slice c 0 4)
  | 16 => (chunks 2 n bytes).map fun c => leNat (slice c 0 2)
  | 6 =>
    let ws := (chunks 3 (ceilDiv n 4) bytes).map fun c => leNat (slice c 0 3)
    ((ws.map fun w => [fld w 5 0, fld w 11 6, fld w 17 12, fld w 23 18]).flatten).take n
  | w =>
    let k := 8 / w
    ((bytes.map fun b => (List.range k).map fun j => fld b.toNat (w * j + w - 1) (w * j)).flatten).take n

def packBits (w : Nat) (cs : List Nat) : Nat :=
  match cs with
  | [] => 0
  | c :: r => c % 2 ^ w + packBits w r * 2 ^ w

/-- Bytes of a row of codes (02 R42). -/
def pack (f : Fmt) (cs : List Nat) : List Byte :=
  match f.width with
  | 32 => (cs.map (leBytes 4)).flatten
  | 16 => (cs.map (leBytes 2)).flatten
  | 6 => ((chunks 4 cs.length cs).map fun g => leBytes 3 (packBits 6 g)).flatten
  | w => ((chunks (8 / w) cs.length cs).map fun g => leBytes 1 (packBits w g)).flatten

/-- Bytes of the elements of a row of `n` elements. -/
def Fmt.rowBytes (f : Fmt) (n : Nat) : Nat := ceilDiv (n * f.width) 8

/-- An input element as FP32; `none` for NaN or infinity (02 R45). -/
def inputF32 (c code : Nat) : Option F32 :=
  match (Fmt.ofCode c).value code with
  | .fin d => some (F32.of d)
  | _ => none

/-- Input elements of one row, `none` when one is NaN or infinite (02 R45). -/
def inputRow (c n : Nat) (bytes : List Byte) : Option (List F32) :=
  (unpack (Fmt.ofCode c) n bytes).mapM (inputF32 c)

/-- FP32 value converted to an output format (02 R44). -/
def outputBytes (c : Nat) (x : F32) : List Byte :=
  leBytes (inBytes c) (if c == 0 then (F32.of (F32.val x)).toNat else (Fmt.ofCode c).encode (F32.val x))

/-- A scale: its code in UE8M0 (`fp16 = false`) or FP16, read as an exact number, −0 as zero (02 R40); `none` when 02 R45 rejects it. -/
def scaleVal (fp16 : Bool) (code : Nat) : Option Dy :=
  if fp16 then
    match Fmt.value .fp16 code with
    | .fin d => if d.m == 0 then some Dy.zero else if d.neg then none else some d
    | _ => none
  else
    match Fmt.value .ue8m0 code with
    | .fin d => some d
    | _ => none

def scaleBytes (fp16 : Bool) : Nat := if fp16 then 2 else 1

/-- Smallest scale code whose value is at least the target, within the format's limits (02 R52). -/
def scaleUp (fp16 : Bool) (num den : Dy) : Nat :=
  -- the target is num / den; both are positive
  if fp16 then
    let q := F32.divDy num den
    let c := min (roundMag Machine.fp16 q) 0x7BFF
    let c := max c 1
    let v := magVal Machine.fp16 false c
    if Dy.lt (v.mul den) num then min (c + 1) 0x7BFF else c
  else
    -- least e with 2^e * den >= num
    let ln : Int := (Nat.log2 num.m : Int) + num.e
    let ld : Int := (Nat.log2 den.m : Int) + den.e
    let e0 := ln - ld - 1
    let e1 := if Dy.le num (den.scale e0) then e0 else if Dy.le num (den.scale (e0 + 1)) then e0 + 1 else e0 + 2
    (clampInt (-127) 127 e1 + 127).toNat

/-- BIN1's scale: the mean rounded to nearest, by value in FP16 and by ratio in UE8M0 (02 R52). -/
def scaleNear (fp16 : Bool) (mean : Dy) : Nat :=
  if mean.m == 0 then (if fp16 then 1 else 0)
  else if fp16 then max 1 (roundMag Machine.fp16 mean)
  else
    let k : Int := (Nat.log2 mean.m : Int) + mean.e
    -- mean >= 2^(k+1/2) exactly when mean^2 >= 2^(2k+1)
    let e := if Dy.le ⟨false, 1, 2 * k + 1⟩ (mean.mul mean) then k + 1 else k
    (clampInt (-127) 127 e + 127).toNat

end Sys2Proof.Machine
end

