-- ==== Sys2Proof/Machine/Quant.lean ====
section
/-! DEFINITION. Quantisation records, encoding and decoding of rows, queries, scores, calibration, rescale tables, statistics (spec 02 R47 to R66, R515). -/

namespace Sys2Proof.Machine

/-- A quantisation record (02 R47). -/
structure QRec where
  elem : Fmt
  query : Fmt
  fp16 : Bool
  axis : Nat
  group : Nat
  calW : Nat
  margin : F32
  dim : Nat
  headDim : Nat
  privCount : Nat
  privAddr : Nat
  scaleAddr : Nat
  histAddr : Nat
  reserved : Bool
deriving DecidableEq, Repr

/-- The record of 64 bytes (02 R47); `HEAD_DIM` 0 means `DIM`. -/
def QRec.parse (b : List Byte) : QRec :=
  let d0 := le32 b 0
  let d2 := le32 b 8
  let d3 := le32 b 12
  { elem := Fmt.ofCode (fld d0 3 0), query := Fmt.ofCode (fld d0 7 4), fp16 := bitOf d0 8, axis := fld d0 9 9, group := fld d0 23 16,
    calW := fld d0 28 24, margin := BitVec.ofNat 32 (le32 b 4), dim := fld d2 12 0,
    headDim := if fld d2 28 16 == 0 then fld d2 12 0 else fld d2 28 16, privCount := fld d3 6 0, privAddr := le64 b 16,
    scaleAddr := le64 b 24, histAddr := le64 b 32,
    reserved := fld d0 15 10 != 0 || fld d0 31 29 != 0 || fld d2 15 13 != 0 || fld d2 31 29 != 0 || fld d3 31 7 != 0 ||
      (slice b 40 24).any (· != 0) }

/-- What the rows of a record are for (02 R36, R37). -/
inductive Role where
  | fret
  | array
  | stored
deriving DecidableEq, Repr


/-- The checks of 02 R48 but for the privileged list. `stored` rows are decoded only and take any element format but UE8M0. Log entry 115, DEDUCED. -/
def QRec.bad (r : QRec) (role : Role) : Bool :=
  r.reserved || r.dim == 0 || decide (r.dim > 4096) || !([0, 32, 64, 128].contains r.group) ||
  (r.axis == 0 && r.group != 0 && r.dim % r.group != 0) ||
  (r.elem.unscaled && (r.group != 0 || r.axis != 0)) ||
  (r.axis == 1 && (r.elem.zp || r.group == 0)) ||
  decide (r.calW ≥ 17) ||
  (r.margin != 0 && (!F32.finite r.margin || bitOf r.margin.toNat 31 || Dy.lt (F32.val r.margin) (Dy.ofNat 1) || Dy.lt (Dy.ofNat 4) (F32.val r.margin))) ||
  decide (r.privCount > 64) || (r.privCount != 0 && r.privAddr == 0) || r.headDim == 0 || r.dim % r.headDim != 0 ||
  r.elem == .ue8m0 ||
  (match r.elem with
   | .bin1 => r.dim % 8 != 0
   | .int2 | .e3m2 | .e2m3 => r.dim % 4 != 0
   | .e2m1 | .int4 | .uint4 => r.dim % 2 != 0
   | _ => false) ||
  (match role with
   | .fret => !r.elem.fretRow || (r.axis == 0 && !r.query.fretQuery)
   | .array => r.query == .ue8m0
   | .stored => false)

/-- The privileged list fails 02 R48. -/
def QRec.badPriv (r : QRec) (l : List Nat) : Bool :=
  l.any (fun c => decide (c ≥ r.dim)) || (dedupNat l).length != l.length ||
    ((List.range (r.dim / r.headDim)).any fun h => decide ((l.filter fun c => c / r.headDim == h).length > 8))

/-- Elements that share a scale along the element axis. -/
def QRec.span (r : QRec) : Nat := if r.group == 0 then r.dim else r.group

def QRec.groups (r : QRec) : Nat := if r.group == 0 then 1 else r.dim / r.group

def QRec.elemBytes (r : QRec) : Nat := r.elem.rowBytes r.dim

/-- Bytes of one stored row (02 R49, R50, R51). -/
def QRec.rowLen (r : QRec) : Nat :=
  r.elemBytes + (if r.axis == 0 && r.group != 0 then r.groups * (scaleBytes r.fp16 + if r.elem.zp then 3 else 0) else 0)

/-- Scales lie in an array beside the rows, one entry a row (02 R50). -/
def QRec.perRow (r : QRec) : Bool := r.axis == 0 && r.group == 0 && !r.elem.unscaled

/-- Bytes of an entry of the per-row scale array (02 R50). -/
def QRec.entryBytes (r : QRec) : Nat := if r.elem.zp then 8 else scaleBytes r.fp16

/-- Address of row n's scale entry, or of channel c of token group n (02 R50, R51). -/
def QRec.tokenOff (r : QRec) (n c : Nat) : Nat := (n * r.dim + c) * scaleBytes r.fp16

/-! ## Encoding (02 R52) -/

/-- One encoded group: scale code, zero point, codes, squared errors, saturated elements. -/
structure EncGroup where
  scale : Nat
  zp : Nat
  codes : List Nat
  errs : List Dy
  sat : Nat
deriving DecidableEq, Repr

/-- FP32 pattern of a scale. -/
def scaleF32 (fp16 : Bool) (code : Nat) : F32 := F32.of ((scaleVal fp16 code).getD Dy.zero)

def oneScale (fp16 : Bool) : Nat := if fp16 then 0x3C00 else 127

/-- Scale and zero point of a group, from its present values (02 R52). BIN1's mean is the exact sum of |x| over the group, divided and rounded once to FP32 (log entry 189, DESIGN CHOICE). -/
def groupScale (f : Fmt) (fp16 : Bool) (xs : List F32) : Nat × Nat :=
  let vs := xs.map F32.val
  let a := vs.foldl (fun m x => Dy.max m x.abs) Dy.zero
  match f with
  | .bin1 =>
    let mean := F32.divDy (vs.foldl (fun m x => m.add x.abs) Dy.zero) (Dy.ofNat (max 1 xs.length))
    (scaleNear fp16 mean, 0)
  | _ =>
    if a.m == 0 then (oneScale fp16, 0)
    else if f.zp then
      let lo := vs.foldl Dy.min Dy.zero
      let hi := vs.foldl Dy.max Dy.zero
      let s := scaleUp fp16 (hi.add lo.neg') f.qmax
      let z := roundInt (F32.val (F32.div (F32.of lo.neg') (scaleF32 fp16 s)))
      (s, (clampInt 0 (f.qmax.at 0) z).toNat)
    else (scaleUp fp16 a f.qmax, 0)

/-- One element under a scale and zero point: code, squared error, saturation (02 R44, R46, R52). -/
def encodeElem (f : Fmt) (s : F32) (z : Nat) (x : F32) : Nat × Dy × Bool :=
  let q := (F32.val (F32.div x s)).add (Dy.ofNat z)
  let c := f.encode q
  let y := match f.value c with
    | .fin d => F32.val (F32.of ((F32.val s).mul (d.add (Dy.ofNat z).neg')))
    | _ => Dy.zero
  let e := (F32.val x).add y.neg'
  (c, e.mul e, f.saturates q)

def encodeGroup (f : Fmt) (fp16 : Bool) (xs : List F32) : EncGroup :=
  let (s, z) := groupScale f fp16 xs
  let l := xs.map (encodeElem f (scaleF32 fp16 s) z)
  { scale := s, zp := z, codes := l.map (·.1), errs := l.map (·.2.1), sat := (l.filter (·.2.2)).length }

/-- A row encoded along the element axis: stored bytes, the entry of a per-row scale array, squared errors and saturations. -/
structure EncRow where
  bytes : List Byte
  entry : List Byte
  errs : List Dy
  sat : Nat
deriving DecidableEq, Repr

def sumCodes (l : List Nat) : Nat := sumList l

def QRec.encodeRow (r : QRec) (xs : List F32) : EncRow :=
  if r.elem.unscaled then
    let l := xs.map (encodeElem r.elem f32One 0)
    { bytes := pack r.elem (l.map (·.1)), entry := [], errs := l.map (·.2.1), sat := 0 }
  else
    let gs := (chunks r.span r.groups xs).map (encodeGroup r.elem r.fp16)
    let sb := scaleBytes r.fp16
    let codes := pack r.elem ((gs.map (·.codes)).flatten)
    let errs := (gs.map (·.errs)).flatten
    let sat := sumList (gs.map (·.sat))
    if r.group == 0 then
      let g := gs.headD { scale := oneScale r.fp16, zp := 0, codes := [], errs := [], sat := 0 }
      { bytes := codes,
        entry := if r.elem.zp then leBytes 2 g.scale ++ leBytes 1 g.zp ++ [0] ++ leBytes 4 (sumCodes g.codes) else leBytes sb g.scale,
        errs := errs, sat := sat }
    else
      { bytes := codes ++ (gs.map fun g => leBytes sb g.scale).flatten ++
          (if r.elem.zp then (gs.map fun g => leBytes 1 g.zp).flatten ++ (gs.map fun g => leBytes 2 (sumCodes g.codes)).flatten else []),
        entry := [], errs := errs, sat := sat }

/-- A row of a token-axis record under the channels' scale codes (02 R51); an element beyond its channel's scale times Q_max counts, one of BIN1 too (02 R57). -/
def QRec.encodeToken (r : QRec) (scales : List Nat) (xs : List F32) : EncRow :=
  let l := (xs.zip scales).map fun x =>
    let s := scaleF32 r.fp16 x.2
    let e := encodeElem r.elem s 0 x.1
    (e.1, e.2.1, e.2.2 || (r.elem == .bin1 && Dy.lt r.elem.qmax (F32.val (F32.div x.1 s)).abs))
  { bytes := pack r.elem (l.map (·.1)), entry := [], errs := l.map (·.2.1), sat := (l.filter (·.2.2)).length }

/-! ## Decoding -/

/-- A stored row as read: codes, and by group the scale, zero point and row sum. -/
structure RowDec where
  codes : List Nat
  scales : List Dy
  zps : List Nat
  sums : List Nat
deriving DecidableEq, Repr

/-- Codes that decode to NaN or infinity reject their row (02 R45). -/
def codeBad (f : Fmt) (c : Nat) : Bool :=
  match f.value c with
  | .fin _ => false
  | _ => true

/-- Reads an element-axis row: its bytes and, for a per-row scale, its entry; `none` when 02 R45 rejects it. An empty entry of a per-row record stands for scale 1.0 (02 R515). -/
def QRec.read (r : QRec) (bytes entry : List Byte) : Option RowDec :=
  let codes := unpack r.elem r.dim bytes
  if codes.any (codeBad r.elem) then none
  else if r.elem.unscaled then some ⟨codes, [Dy.ofNat 1], [0], [0]⟩
  else if r.group == 0 then
    if entry.isEmpty then some ⟨codes, [Dy.ofNat 1], [0], [0]⟩
    else
      let sc := if r.elem.zp then (if r.fp16 then le16 entry 0 else byteAt entry 0) else leNat (slice entry 0 (scaleBytes r.fp16))
      (scaleVal r.fp16 sc).map fun d => ⟨codes, [d], [if r.elem.zp then byteAt entry 2 else 0], [if r.elem.zp then le32 entry 4 else 0]⟩
  else
    let o := r.elemBytes
    let g := r.groups
    let sb := scaleBytes r.fp16
    ((List.range g).mapM fun i => scaleVal r.fp16 (leNat (slice bytes (o + i * sb) sb))).map fun sc =>
      ⟨codes, sc, (List.range g).map (fun i => if r.elem.zp then byteAt bytes (o + g * sb + i) else 0),
        (List.range g).map (fun i => if r.elem.zp then le16 bytes (o + g * (sb + 1) + 2 * i) else 0)⟩

/-- Value of an element: scale × (code value − zero point), in FP32 (02 R36, R46). -/
def elemVal (f : Fmt) (s : Dy) (z c : Nat) : F32 :=
  match f.value c with
  | .fin d => F32.of (s.mul (d.add (Dy.ofNat z).neg'))
  | _ => 0

def QRec.decode (r : QRec) (d : RowDec) : List F32 :=
  (d.codes.zipIdx).map fun x =>
    let g := x.2 / r.span
    elemVal r.elem (d.scales.getD g (Dy.ofNat 1)) (d.zps.getD g 0) x.1

/-- A token-axis row under its channels' scale codes; `none` when 02 R45 rejects it. -/
def QRec.decodeToken (r : QRec) (scales : List Nat) (bytes : List Byte) : Option (List F32) :=
  let codes := unpack r.elem r.dim bytes
  if codes.any (codeBad r.elem) then none
  else (codes.zip scales).mapM fun x => (scaleVal r.fp16 x.2).map fun s => elemVal r.elem s 0 x.1

/-- A row as a conversion reads it: one that 02 R45 rejects counts as zeros (log entry 190, DESIGN CHOICE). -/
def QRec.values (r : QRec) (bytes entry : List Byte) : List F32 := ((r.read bytes entry).map r.decode).getD (List.replicate r.dim 0)

/-! ## Queries and scores (02 R53, R54) -/

/-- A query as loaded: format, codes, and by group the scale, zero point and Σq. -/
structure Query where
  fmt : Fmt
  codes : List Nat
  scales : List F32
  zps : List Nat
  sums : List F32
  isums : List Int
deriving DecidableEq, Repr

/-- Σq of a group: INT32 for integer codes, FP32 for floating-point codes. -/
def querySum (tag : Nat) (at' : List Nat) (f : Fmt) (codes : List Nat) : F32 × Int :=
  if f.integer then (0, (codes.map f.intVal).foldl (· + ·) 0)
  else (fsum tag at' (codes.map fun c => match f.value c with
    | .fin d => F32.of d
    | _ => 0), 0)

/-- A query converted for a record: its scales follow the record's groups and scale format (02 R53). FP32, BF16 and FP16 queries take scale 1.0, every other format one scale a group, as an Array query may name formats that 02 R53 gives no scale for (log entry 187, DESIGN CHOICE). -/
def Query.load (tag : Nat) (at' : List Nat) (r : QRec) (f : Fmt) (xs : List F32) : Query :=
  let gs := chunks r.span r.groups xs
  let es : List EncGroup := gs.map fun g =>
    if f.unscaled then { scale := 0, zp := 0, codes := g.map (fun x => f.encode (F32.val x)), errs := [], sat := 0 }
    else encodeGroup f r.fp16 g
  let ss := es.zipIdx.map fun e => querySum tag (at' ++ [e.2]) f e.1.codes
  { fmt := f, codes := (es.map (·.codes)).flatten, scales := es.map fun e => if f.unscaled then f32One else scaleF32 r.fp16 e.scale,
    zps := es.map (·.zp), sums := ss.map (·.1), isums := ss.map (·.2) }

def f32OfInt (i : Int) : F32 := F32.of (Dy.ofInt i)

/-- The score of one group (02 R54). -/
def groupScore (tag : Nat) (at' : List Nat) (q : Query) (f : Fmt) (g : Nat) (qc xc : List Nat) (sx : Dy) (zx sumx : Nat) : F32 :=
  let zq := q.zps.getD g 0
  let qx := if q.fmt.int8ish && f.int8ish then
      f32OfInt ((qc.zip xc).foldl (fun a p => a + q.fmt.intVal p.1 * f.intVal p.2) 0)
    else fsum tag (at' ++ [0]) ((qc.zip xc).map fun p =>
      match q.fmt.value p.1, f.value p.2 with
      | .fin a, .fin b => F32.of (a.mul b)
      | _, _ => 0)
  let sq := if q.fmt.integer then f32OfInt (q.isums.getD g 0) else q.sums.getD g 0
  let t1 := F32.negate (F32.mul (f32OfInt zx) sq)
  let t2 := F32.negate (F32.mul (f32OfInt zq) (f32OfInt sumx))
  let t3 := mul3 tag (at' ++ [1]) (f32OfInt qc.length) (f32OfInt zq) (f32OfInt zx)
  let br := if zx == 0 && zq == 0 then qx else fsum tag (at' ++ [2]) [qx, t1, t2, t3]
  mul3 tag (at' ++ [3]) (q.scales.getD g f32One) (F32.of sx) br

/-- The score of one row against one query, before `TAU` (02 R54). -/
def QRec.score (r : QRec) (tag : Nat) (at' : List Nat) (q : Query) (d : RowDec) : F32 :=
  let qs := chunks r.span r.groups q.codes
  let xs := chunks r.span r.groups d.codes
  fsum tag (at' ++ [0])
    ((List.range r.groups).map fun g =>
      groupScore tag (at' ++ [1, g]) q r.elem g (qs.getD g []) (xs.getD g []) (d.scales.getD g (Dy.ofNat 1)) (d.zps.getD g 0) (d.sums.getD g 0))

/-! ## Calibration (02 R56, R59) -/

/-- Channel maxima of input rows. Log entry 138, DEDUCED. -/
def chanMax (dim : Nat) (rows : List (List F32)) : List F32 :=
  rows.foldl (fun m r => (m.zip r).map fun p => F32.max p.1 (F32.abs p.2)) (List.replicate dim 0)

/-- A step enters the history; the entry older than the window leaves it (02 R56). -/
def calPush (w : Nat) (step : List F32) (h : Cal) : Cal := (step :: h).take w

def calMax (h : Cal) (c : Nat) : F32 := h.foldl (fun m e => F32.max m (e.getD c 0)) 0

/-- Scale codes of a token group that opens (02 R56): `p` the maxima of the opening rows. m × max is rounded to FP32; the division by Q_max and the rounding up are exact (log entry 188, DESIGN CHOICE). -/
def openScales (r : QRec) (margin : F32) (priv : List Nat) (h : Cal) (p : List F32) : List Nat :=
  (List.range r.dim).map fun c =>
    let pc := p.getD c 0
    let t := if h.isEmpty then pc else if priv.contains c then F32.max (calMax h c) pc else calMax h c
    let num := F32.mul margin t
    if (F32.val num).m == 0 then oneScale r.fp16 else scaleUp r.fp16 (F32.val num) r.elem.qmax

def QRec.window (r : QRec) (dflt : Nat) : Nat := if r.calW == 0 then dflt else r.calW

def QRec.marginOf (r : QRec) (dflt : Nat) : F32 := if r.margin == 0 then BitVec.ofNat 32 dflt else r.margin

/-- The privileged channels a sample selects (02 R59): for each head the n channels of largest ratio of sample maximum to history maximum. -/
def selectPriv (r : QRec) (h : Cal) (sample : List F32) : List Nat :=
  let heads := r.dim / r.headDim
  let n := min 8 (64 / heads)
  ((List.range heads).map fun hd =>
    let chs := (List.range r.headDim).map (hd * r.headDim + ·)
    let ge := fun a b : Nat =>
      -- ratio of a at least ratio of b, infinite where the history maximum is 0 or the history is empty
      let ha := F32.val (calMax h a)
      let hb := F32.val (calMax h b)
      if ha.m == 0 && hb.m == 0 then true
      else if ha.m == 0 then true
      else if hb.m == 0 then false
      else Dy.le ((F32.val (sample.getD b 0)).mul ha) ((F32.val (sample.getD a 0)).mul hb)
    let best := if r.headDim ≤ n then chs else (sortBy (fun a b => ge a b && (!ge b a || a ≤ b)) chs).take n
    sortBy (fun a b => decide (a ≤ b)) best).flatten

/-! ## Rescale tables (02 R61, R62) -/

/-- A rescale table: one (scale, bias) a channel. -/
abbrev Rescale := List (F32 × F32)

/-- Reads a table for so many output channels; `inl` gives the status of a bad one (02 R45, R61). -/
def readRescale (channels : Nat) (b : List Byte) : Sum (Nat × Nat) Rescale :=
  let d0 := le32 b 0
  let n := fld (le32 b 4) 12 0
  let bias := bitOf d0 8
  if fld d0 7 0 != 1 || fld d0 31 9 != 0 || fld (le32 b 4) 31 13 != 0 || le64 b 8 != 0 || n == 0 || decide (n > 4096) ||
      (n != 1 && n != channels) then .inl (0x11, 0x0916)
  else
    let at' := fun i => (BitVec.ofNat 32 (le32 b (16 + 4 * i)) : F32)
    let l := (List.range n).map fun i => (at' i, if bias then at' (n + i) else 0)
    if l.any fun p => !F32.finite p.1 || !F32.finite p.2 then .inl (0x14, 0x0952)
    else .inr ((List.range channels).map fun c => l.getD (if n == 1 then 0 else c) (f32One, 0))

/-- Bytes a table occupies, from its header. -/
def rescaleLen (b : List Byte) : Nat := 16 + 4 * fld (le32 b 4) 12 0 * (if bitOf (le32 b 0) 8 then 2 else 1)

/-- `out_c` of 02 R62. -/
def rescale (t : Rescale) (acc : List F32) : List F32 :=
  acc.zipIdx.map fun x => let p := t.getD x.2 (f32One, 0); F32.fma p.1 x.1 p.2

/-! ## Statistics (02 R64 to R66) -/

/-- Squared errors enter every enabled slot bound to the region and format, in order of completion (02 R64). `kind` and `number` as in `PEG_STAT_BIND`. -/
def State.pegStat (s : State) (tag kind number part : Nat) (f : Fmt) (errs : List Dy) (sat : Nat) : State :=
  if s.confidential part then s
  else
    let order := (sortBy (fun a b => decide (a.1 ≤ b.1)) (errs.zipIdx.map fun e => (Config.arrival tag [7, kind, number] e.2, e.1))).map (·.2)
    { s with peg := s.peg.map fun e =>
        let b := e.2.bind
        if bitOf b 31 && fld b 29 28 == kind && fld b 27 24 == f.code && fld b 11 0 == number then
          (e.1, { e.2 with sse := order.foldl f64Add e.2.sse, cnt := (e.2.cnt + errs.length) % 2 ^ 64, sat := sat32 (e.2.sat + sat) })
        else e }

end Sys2Proof.Machine
end

