-- ==== Sys2Proof/Machine/Hbm.lean ====
section
/-! DEFINITION. HBM as the stack controllers keep it: columns, WRITER tags, poisoned rows, overlays, the error log, sparing (spec 03 R67 to R74, R93 to R110). -/

namespace Sys2Proof.Machine

/-- Linear address of a byte of a domain (03 R72). -/
def linOf (f o : Nat) : Nat := f * fretBytes + o

/-- Column key of a linear address. -/
def colKey (f dca : Nat) : Nat := f * fretCols + dca

/-- Stack, die (16 × stack + die), pair of a fret domain. -/
def stackOf (f : Nat) : Nat := f / 1024
def dieOf (f : Nat) : Nat := f / 64
def pairOf (f : Nat) : Nat := f % 64

/-- Channel that serves a domain (03 R68). -/
def chanOf (f : Nat) : Nat := 2 * (dieOf f % 16) + pairOf f / 32

/-- Bank group of a domain's two banks on its die (03 R67). -/
def bankGroupOf (f : Nat) : Nat := pairOf f / 8

/-- Where a DCA of a domain lies: bank of its die, bank page, column of the page (03 R67, R70). -/
structure ColPlace where
  bank : Nat
  page : Nat
  col : Nat
deriving DecidableEq, Repr

def colPlace (f dca : Nat) : ColPlace := { bank := 2 * pairOf f + dca / 64 % 2, page := dca / 128, col := dca % 64 }

/-- The DCA of a place (03 R70). -/
def ColPlace.dca (x : ColPlace) : Nat := (2 * x.page + x.bank % 2) * 64 + x.col

/-- Channel the output of a die's string leaves on (03 R68). -/
def State.stringChan (s : State) (die : Nat) : Nat :=
  2 * (die % 16) + (if s.hbm.deadChs.contains (die / 16 * 32 + 2 * (die % 16)) then 1 else 0)

/-- The check bytes of a column (03 R93, R94): the same for a write of the controller and of a fret. -/
def State.checkBytes (s : State) (f dca : Nat) : List Byte := slice (Config.columnCheck (memRead s.hbm.cells (linOf f (dca * 32)) 32)) 0 4

/-- The staging size in force; `SBC_CFG.STAGE_SIZE` takes effect at a start (03, 16 R493). -/
def State.stageSize (s : State) (stack : Nat) : Nat := fld (s.reg32 (regKey (pSbc stack + 0x100) 1)) 11 8

/-- First column of the staging area of a domain (03 R73). -/
def State.stageBase (s : State) (f : Nat) : Nat := fretCols - s.stageSize (stackOf f) * 8192

/-- WRITER tag of a column: its own, else its domain's (key `2^41 + f`), else 0b00. -/
def State.writerOf (s : State) (f dca : Nat) : Nat :=
  (tget s.hbm.writer (colKey f dca)).getD (tgetD s.hbm.writer (2 ^ 41 + f) 0)

/-! ## The error log -/

/-- Severity of an error-log type (16 R498 "as its type"; log entry 21, DEDUCED). -/
def elogSev (kind : Nat) : Nat :=
  if kind == 0 || kind == 1 then 1 else if kind == 6 || kind == 7 || kind == 10 then 2 else 3

/-- `SBC_ELOG_D1` and `SBC_ELOG_D2` of an entry. -/
def Elog.d1 (e : Elog) : Nat := e.pair * 2 ^ 26 + e.die * 2 ^ 22 + e.kind * 2 ^ 18 + e.writer * 2 ^ 16 + (e.time / 2 ^ 32) % 2 ^ 16
def Elog.d2 (e : Elog) : Nat := e.symbol * 2 ^ 22 + (if e.spare then 2 ^ 21 else 0) + e.dca

/-- Writes an error-log entry of a stack; a repeat of the newest entry's event folds into it (03 SBC_ELOG, 16 R498). Log entry 116, DEDUCED. -/
def State.elog (s : State) (stack : Nat) (e : Elog) : State :=
  let key := fun i => stack * 256 + i
  let nx := tgetD s.hbm.elogNext stack 0
  let last := tget s.hbm.elog (key ((nx + 255) % 256))
  match last with
  | some l =>
    if { e with time := l.time, count := l.count } == l then
      { s with hbm := { s.hbm with elog := tset s.hbm.elog (key ((nx + 255) % 256)) { l with count := sat16 (l.count + 1) } } }
    else new s nx
  | none => new s nx
where
  new (s : State) (nx : Nat) : State :=
    let h := s.hbm
    let wraps := tgetD h.elogWraps stack 0
    let h := { h with elog := tset h.elog (stack * 256 + nx) e, elogNext := tset h.elogNext stack ((nx + 1) % 256),
                      elogWraps := if nx == 255 then tset h.elogWraps stack (min (wraps + 1) (2 ^ 24 - 1)) else h.elogWraps }
    State.logEvent { s with hbm := h } (pSbc stack) 0x0B (elogSev e.kind) noAttr e.d1 e.d2

/-- An entry about a column of a domain, or about the domain as a whole, with the failing symbol where one is known. -/
def State.elogSym (s : State) (f kind : Nat) (dca : Option Nat) (symbol : Nat) : State :=
  let w := match dca with
    | some c => s.writerOf f c
    | none => 3
  s.elog (stackOf f)
    { time := s.time.lctr, pair := pairOf f, die := dieOf f % 16, kind := kind, writer := w, symbol := symbol,
      spare := s.hbm.spared.contains f, dca := dca.getD 0, channel := chanOf f, count := 0 }

def State.elogAt (s : State) (f kind : Nat) (dca : Option Nat) : State := s.elogSym f kind dca 0x3F

/-! ## Poisoned rows (03 R107, R108) -/

/-- Two runs of bytes, each a start and a length, share one. -/
def runsMeet (a b : Nat × Nat) : Bool := decide (a.1 < b.1 + b.2) && decide (b.1 < a.1 + a.2)

/-- The bytes of a domain that an entry makes unreadable: the whole row until all of it is rewritten, or the bytes still lost. -/
def Poison.hits (p : Poison) (f off len : Nat) : Bool :=
  p.fret == f && (if p.bytewise then p.rest.any fun r => runsMeet r (off, len) else runsMeet (p.off, p.len) (off, len))

def State.poisonedRow (s : State) (f off len : Nat) : Bool := len != 0 && s.hbm.poison.any fun p => p.hits f off len

/-- Log entry 126, DEDUCED. -/
def State.poisoned (s : State) (f dca : Nat) : Bool := s.poisonedRow f (dca * 32) 32

/-- What is left of a run without the bytes `[o, o + n)`. -/
def cutRun (o n : Nat) (r : Nat × Nat) : List (Nat × Nat) :=
  [(r.1, min (r.1 + r.2) o - r.1), (max r.1 (o + n), r.1 + r.2 - max r.1 (o + n))].filter fun x => x.2 != 0

/-- Bytes that have been rewritten hold good data again; a row is good once all of it is (03 R107). -/
def clearPoison (l : List Poison) (f o n : Nat) : List Poison :=
  (l.map fun p => if p.fret == f then { p with rest := (p.rest.map (cutRun o n)).flatten } else p).filter fun p => !p.rest.isEmpty

/-- A whole domain that is lost: each byte until it is written again. -/
def lostDomain (f : Nat) : Poison := { fret := f, off := 0, len := fretBytes, rest := [(0, fretBytes)], bytewise := true }

/-- Removes every mark about a domain. -/
def clearDomain (l : List Poison) (f : Nat) : List Poison := l.filter fun p => p.fret != f

/-- WRITER tags of a run of columns (03 R93). -/
def tagCols (w : Tab Nat) (first tag : Nat) : Nat → Tab Nat
  | 0 => w
  | n + 1 => tagCols (tset w first tag) (first + 1) tag n

/-- The tags of a whole domain become one tag. -/
def tagDomain (w : Tab Nat) (f tag : Nat) : Tab Nat :=
  tset (w.filter fun x => !(colKey f 0 ≤ x.1 && x.1 < colKey f fretCols)) (2 ^ 41 + f) tag

/-- Writes bytes at offset `o` of domain `f`, tagging the columns. -/
def State.hbmWrite (s : State) (f o tag : Nat) (d : List Byte) : State :=
  if d.isEmpty then s
  else
    let c0 := o / 32
    let n := (o + d.length - 1) / 32 + 1 - c0
    { s with hbm := { s.hbm with cells := memWrite s.hbm.cells (linOf f o) d, writer := tagCols s.hbm.writer (colKey f c0) tag n,
                                 poison := clearPoison s.hbm.poison f o d.length } }

def State.hbmRead (s : State) (f o n : Nat) : List Byte := memRead s.hbm.cells (linOf f o) n

/-- A device-space write by the controller. -/
def State.devWrite (s : State) (a : Nat) (d : List Byte) : State :=
  match devAddr a with
  | some (f, o) => s.hbmWrite f o 0 d
  | none => s

/-! ## Overlays (03 R97) -/

/-- The overlay a read at edition `e` resolves to: greatest edition not above `e`. -/
def findOverlay (l : List Overlay) (f base e : Nat) : Option Overlay :=
  l.foldl (fun best o =>
    if o.fret == f && o.base == base && o.edition ≤ e then
      match best with
      | some b => if b.edition < o.edition then some o else best
      | none => some o
    else best) none

/-- Where the row that starts at offset `off` is read at edition `e` (03 R97, R100). -/
def State.rowPlace (s : State) (f off e : Nat) : Nat :=
  match findOverlay s.hbm.overlays f (off / 32) e with
  | some o => o.stage * 32 + off % 32
  | none => off

/-- The bytes of a row at an edition. -/
def State.rowBytes (s : State) (f off len e : Nat) : List Byte := s.hbmRead f (s.rowPlace f off e) len

/-- Among the ERR bits a command ends with, what a stack controller meets by injection: a read of a domain's column that cannot be corrected, and a verify of it that fails. -/
def uncorrectKey : Nat := 2 ^ 40
def verifyKey : Nat := 2 ^ 41

/-- The domain is being replaced: what touches it stalls at `SBC` (03 R109). -/
def State.sparingAt (s : State) (f : Nat) : Bool := s.hbm.sparing.any fun x => x.fret == f

/-- Key of a channel's return buffer. -/
def retKey (f : Nat) : Nat := stackOf f * 32 + chanOf f

/-- Bytes of a return buffer in use, in its credit unit of 64 bytes (01 R30). -/
def SbcSt.used (x : SbcSt) (chan : Nat) : Nat := sumList ((tgetD x.rets chan []).map fun y => roundUp y.data.length 64)

/-- A channel's part of the return buffer (01 R30). -/
def retCap : Nat := 16384

/-- The return space of a read of `n` bytes cannot be reserved (01 R29); one larger than the buffer is issued when it is empty (log entry 172, DESIGN CHOICE). -/
def State.retsFull (s : State) (f n : Nat) : Bool := let u := s.sbc.used (retKey f); u != 0 && decide (u + roundUp n 64 > retCap)

/-- A command reads a row at an edition: it waits for a domain being replaced and for return space, and ends where the row cannot be read (03 R107, R109; ERR_INJ bit 1). -/
def State.readRow (s : State) (f off len e : Nat) : Except Halt (List Byte) :=
  let place := s.rowPlace f off e
  if s.sparingAt f then .error (.wait (.spare f))
  else if s.retsFull f len then .error (.wait (.ret f))
  else if s.armed (pSbc (stackOf f)) 1 then
    .error (.fail stMedia 0x0941 0 [(uncorrectKey + f, place / 32)] [(pSbc (stackOf f) + 0x080, 1)])
  else if s.hbm.deadDies.contains (dieOf f) || s.hbm.deadChs.contains (stackOf f * 32 + chanOf f) || s.poisonedRow f place len then
    .error (.fail stMedia 0x0941 0 [] [(pSbc (stackOf f) + 0x080, 1)])
  else .ok (s.hbmRead f place len)

/-- A command reads a device-space range as it stands. -/
def State.readDev (s : State) (a n : Nat) : Except Halt (List Byte) :=
  if n == 0 then .ok [] else
  match devAddr a with
  | some (f, o) => s.readRow f o n 0
  | none => .ok (zeros n)

/-- Overlay entries of a fret in use or reserved by stages (03 R98). -/
def State.ovlUsed (s : State) (f : Nat) : Nat :=
  (s.hbm.overlays.filter fun o => o.fret == f).length +
    sumList (s.cmds.map fun c => sumList (c.stages.map fun g => (g.rows.filter fun r => r.fret == f).length))

def State.ovlCount (s : State) (f : Nat) : Nat := (s.hbm.overlays.filter fun o => o.fret == f).length

/-- The bytes the stage did not write are those of the edition before (08 R256: what a command did not stage is carried unchanged). -/
def State.settleRow (s : State) (r : StagedRow) (e : Nat) : State :=
  if r.parts.any fun p => p.1 == 0 && p.2 == r.len then s
  else
    let mine := s.hbmRead r.fret (r.stage * 32 + r.first) r.len
    let base := s.rowBytes r.fret (r.base * 32 + r.first) r.len (e - 1)
    s.hbmWrite r.fret (r.stage * 32 + r.first) 1 (r.parts.foldl (fun b p => overwrite b p.1 (slice mine p.1 p.2)) base)

/-- A staged row is published at edition `e` (03 R97). -/
def State.publishRow (s : State) (owner : Option Target) (r : StagedRow) (e : Nat) : State :=
  let s := s.settleRow r e
  let o : Overlay := { fret := r.fret, base := r.base, stage := r.stage, cols := r.cols, first := r.first, len := r.len, edition := e, owner := owner }
  let s := { s with hbm := { s.hbm with overlays := s.hbm.overlays ++ [o] } }
  let st := stackOf r.fret
  let n := s.ovlCount r.fret
  if tgetD s.hbm.ovlPeak st 0 < n then { s with hbm := { s.hbm with ovlPeak := tset s.hbm.ovlPeak st n } } else s

/-- Folds an overlay entry into its base row (03 R99). -/
def State.foldOverlay (s : State) (o : Overlay) : State :=
  let d := s.hbmRead o.fret (o.stage * 32 + o.first) o.len
  let s := s.hbmWrite o.fret (o.base * 32 + o.first) 2 d
  State.bump { s with hbm := { s.hbm with overlays := s.hbm.overlays.filter (· != o) } } (pUpd + 0x070) 1

/-! ## Staging space -/

/-- Columns of a fret's staging area in use: overlay copies and stages. -/
def State.stagedCols (s : State) (f : Nat) : List (Nat × Nat) :=
  (s.hbm.overlays.filter fun o => o.fret == f).map (fun o => (o.stage, o.cols)) ++
    (s.cmds.map fun c => (c.stages.map fun g => (g.rows.filter fun r => r.fret == f).map fun r => (r.stage, r.cols)).flatten).flatten

/-- The lowest free run of `n` columns of the staging area, given the runs in use; `none` when there is none. -/
def freeRun (used : List (Nat × Nat)) (n limit : Nat) : Nat → Nat → Option Nat
  | 0, _ => none
  | k + 1, at' =>
    if at' + n > limit then none
    else
      match used.find? fun u => at' < u.1 + u.2 && u.1 < at' + n with
      | some u => freeRun used n limit k (u.1 + u.2)
      | none => some at'

def State.allocStage (s : State) (f : Nat) (extra : List (Nat × Nat)) (n : Nat) : Option Nat :=
  let used := extra ++ s.stagedCols f
  freeRun used n fretCols (used.length + 1) (s.stageBase f)

/-! ## Faults and sparing (03 R107 to R110) -/

/-- Every die of a stack is fenced. -/
def State.stackDead (s : State) (stack : Nat) : Bool := (List.range 16).all fun d => s.hbm.deadDies.contains (stack * 16 + d)

/-- A core die is fenced (03 R110, 01 R19 L4; 16 R498 code 0x0A), and with its last die the stack. -/
def State.fenceDie (s : State) (die : Nat) : State :=
  if s.hbm.deadDies.contains die then s
  else
    let stack := die / 16
    let s := { s with hbm := { s.hbm with deadDies := s.hbm.deadDies ++ [die], sparing := s.hbm.sparing.filter fun x => dieOf x.fret != die } }
    let s := s.elog stack { time := s.time.lctr, pair := 0, die := die % 16, kind := 7, writer := 3, symbol := 0x3F, spare := false, dca := 0, channel := 2 * (die % 16), count := 0 }
    let s := s.logEvent (pSbc stack) 0x0A 2 noAttr 4 die
    if s.stackDead stack then s.logEvent (pSbc stack) 0x0A 2 noAttr 5 stack else s

/-- A domain is marked failed, or crossed its threshold: the next free spare is assigned, or the die is fenced (03 R109, R110). The string bypasses the failed domain, whose local store is lost with it (03 R91). -/
def State.failDomain (s : State) (f : Nat) (reads : Bool) : State :=
  if s.hbm.deadDies.contains (dieOf f) || (s.hbm.sparing.any fun x => x.fret == f) then s
  else
    let used := tgetD s.hbm.spares (dieOf f) 0
    let base := pSbc (stackOf f)
    if used ≥ 2 then (s.fenceDie (dieOf f)).raise base 4
    else
      let s := { s with frets := tdel s.frets f,
                        hbm := { s.hbm with spares := tset s.hbm.spares (dieOf f) (used + 1), sparing := s.hbm.sparing ++ [(⟨f, reads⟩ : Sparing)] } }
      let s := s.elogAt f 6 none
      let s := s.logEvent base 0x0A 2 noAttr 3 f
      s.raise base 3

/-- The copy into a spare has completed: the spare takes the index; a domain that did not read leaves its rows poisoned (03 R109). -/
def State.spareDone (s : State) (f : Nat) : State :=
  match s.hbm.sparing.find? fun x => x.fret == f with
  | none => s
  | some x =>
    let h := { s.hbm with sparing := s.hbm.sparing.filter (· != x), ce := tdel s.hbm.ce f,
                          spared := if s.hbm.spared.contains f then s.hbm.spared else s.hbm.spared ++ [f] }
    if x.reads then
      -- every column is copied and tagged as migration
      { s with hbm := { h with writer := tagDomain h.writer f 2 } }
    else
      { s with hbm := { h with poison := clearDomain h.poison f ++ [lostDomain f],
                               cells := h.cells.filter fun c => !(linOf f 0 ≤ c.1 && c.1 < linOf f fretBytes),
                               writer := tagDomain h.writer f 0,
                               overlays := h.overlays.filter fun o => o.fret != f } }

/-- A corrected error counts toward the domain's threshold (03 R107). Log entry 125, DEDUCED. -/
def State.correct (s : State) (f dca kind symbol : Nat) : State :=
  let base := pSbc (stackOf f)
  let s := (s.elogSym f kind (some dca) symbol).bump (base + 0x048) 1
  let thr := s.reg32 (base + 0x104)
  let e := tgetD s.hbm.ce f (0, s.time.lctr)
  let e := if s.time.lctr - e.2 > fld thr 31 16 * 2 ^ 24 then (0, s.time.lctr) else e
  let s := { s with hbm := { s.hbm with ce := tset s.hbm.ce f (e.1 + 1, e.2) } }
  if fld thr 15 0 != 0 && e.1 + 1 > fld thr 15 0 then (s.raise base 0).failDomain f true else s

/-- A domain is marked failed; whether it still reads is the domain's own (03 R109; log entry 68, DESIGN CHOICE). -/
def State.failOpen (s : State) (f : Nat) : State :=
  let r := s.takeFree 1
  r.2.failDomain f (r.1 == 1)

/-- Poisoned rows of a stack (03 R108). -/
def State.poisonCount (s : State) (stack : Nat) : Nat := (s.hbm.poison.filter fun p => stackOf p.fret == stack).length

/-- A column cannot be corrected: the rows it belongs to, given as (offset, length), are poisoned; where no row is known, the column is. With 1,024 poisoned rows in the stack the domain fails, and since it can note no further row it does not count as one that still reads (03 R107, R108; log entry 173, DESIGN CHOICE). -/
def State.uncorrect (s : State) (f dca : Nat) (rows : List (Nat × Nat)) : State :=
  let base := pSbc (stackOf f)
  let s := (((s.elogAt f 2 (some dca)).bump (base + 0x050) 1).raise base 1)
  let new : List Poison := if rows.isEmpty then [⟨f, dca * 32, 32, [(dca * 32, 32)], true⟩] else rows.map fun r => ⟨f, r.1, r.2, [r], false⟩
  let new := new.filter fun p => !(s.hbm.poison.any fun q => q.fret == f && q.off == p.off && q.len == p.len)
  if new.isEmpty then s
  else if s.poisonCount (stackOf f) + new.length > 1024 then s.failDomain f false
  else { s with hbm := { s.hbm with poison := s.hbm.poison ++ new } }

/-- The verify of a staged row met a mismatch at a column (03 R96, R107). -/
def State.verifyMiss (s : State) (f col : Nat) : State :=
  ((s.elogAt f 3 (some col)).bump (pSbc (stackOf f) + 0x068) 1).raise (pSbc (stackOf f)) 2

/-- An ERR bit that a command raises, whose injection has occurred with it; a stack controller's injected fault takes the path of a real one (16 R484). -/
def State.reportErr (s : State) (a : Attr) (x : Nat × Nat) : State :=
  if x.1 ≥ verifyKey then (s.verifyMiss (less x.1 verifyKey) x.2).disarm (pSbc (stackOf (less x.1 verifyKey))) 2
  else if x.1 ≥ uncorrectKey then (s.uncorrect (less x.1 uncorrectKey) x.2 []).disarm (pSbc (stackOf (less x.1 uncorrectKey))) 1
  else (s.raiseAt x.1 x.2 a).disarm x.1 x.2

/-- A fret met a logic parity error or refused a frame: its domain is marked failed (03 R107). Log entry 118, DESIGN CHOICE. -/
def State.fretFault (s : State) (f : Nat) : State :=
  ((s.elogAt f 4 none).raise (pSbc (stackOf f)) 9).failOpen f

end Sys2Proof.Machine
end

