-- ==== Sys2Proof/Machine/Wire.lean ====
section
/-! DEFINITION. Messages on the links: header, flits, routes, sending (spec 12 R383 to R385, R392 to R399). -/

namespace Sys2Proof.Machine

/-- This node's ID (12 FAB_NODE). -/
def State.node (s : State) : Nat := fld (s.reg32 (pFab + 0x104)) 11 0

/-- The current epoch; 0 means no map (13 R408). -/
def State.epoch (s : State) : Nat := le16 s.cmp.cur 2

/-- Payload bytes a body stands for; entries and blocks at their sizes in 05 R137. -/
def bodySize : Body → Nat
  | .empty => 0
  | .bytes l => l.length
  | .collData _ _ _ sm es => (if sm.isSome then 32 else 0) + 16 * es.length
  | .search _ dw q => 4 * dw.length + q.length
  | .update _ dw i => 4 * dw.length + i.length
  | .fwdResult _ _ _ _ _ o => 32 + o.length
  | .logData _ _ _ p => p.length
  | .shadowCopy _ dw q => 4 * dw.length + q.length
  | .shadowResult _ ids => 8 * ids.length
  | .mergedM _ _ _ ids => 4 + 8 * ids.length
  | .valueSums _ _ v => 4 * v.length
  | _ => 16

/-- The bytes of a body; those the manual lays out are themselves (log entry 60, DESIGN CHOICE). -/
def bodyBytes (b : Body) : List Byte :=
  match b with
  | .empty => []
  | .bytes l => l
  | b => slice (Config.bodyBytes b) 0 (bodySize b)

/-- Virtual channel of a message (12 R393); a refusal of a pool request carries no epoch. -/
def msgVc (m : Msg) (low : Bool) : Nat :=
  if m.ty == 0x01 then (if low then 7 else 2)
  else if m.ty == 0x02 || m.ty == 0x04 then 3
  else if m.ty == 0x05 then (if m.epoch == 0 then 3 else 6)
  else if m.ty == 0x03 then 4
  else if 0x10 ≤ m.ty && m.ty ≤ 0x19 then 1
  else if m.ty == 0x20 || m.ty == 0x21 then 5
  else if m.ty == 0x22 || m.ty == 0x23 || m.ty == 0x28 then 6
  else 0

/-- Lowest TFP version that carries a message (12 R387). -/
def msgNeeds (m : Msg) : Nat :=
  if m.fanout || m.ty == 0x20 then 0x21
  else if (0x10 ≤ m.ty && m.ty ≤ 0x19) || (0x21 ≤ m.ty && m.ty ≤ 0x28) then 0x20
  else 0x13

/-- The message types of 12 R394. -/
def msgTypes : List Nat := [1, 2, 3, 4, 5, 0x10, 0x11, 0x12, 0x13, 0x14, 0x18, 0x19, 0x20, 0x21, 0x22, 0x23, 0x28] ++ (List.range 12).map (0x30 + ·)

/-- The 32 header bytes over a payload (12 R392). -/
def msgHeader (m : Msg) (payload : List Byte) : List Byte :=
  let h := leBytes 4 (m.ty % 256 + m.ver % 256 * 2 ^ 8 + payload.length * 2 ^ 16) ++
    leBytes 4 (m.dst % 4096 + m.dstPart % 16 * 2 ^ 12 + m.src % 4096 * 2 ^ 16 + m.srcPart % 16 * 2 ^ 28) ++
    leBytes 4 (m.epoch % 65536 + b2n m.fanout * 2 ^ 16 + b2n m.ni * 2 ^ 17 + b2n m.resend * 2 ^ 18 + m.hops % 4 * 2 ^ 19) ++
    leBytes 4 m.txn ++ leBytes 8 m.addr ++ leBytes 4 (m.arg % 65536)
  h ++ leBytes 4 (crc32c (h ++ payload))

/-- The parts of at most 4,096 bytes in which a body travels (12 R394). -/
def parts4k (l : List Byte) : List (List Byte) := if l.isEmpty then [[]] else chunks 4096 (l.length / 4096 + 1) l

/-- The flits of a message; the last one holds it for a re-send (12 R383, R390). -/
def msgFlits (m : Msg) (low : Bool) : List TxFlit :=
  let ps := parts4k (bodyBytes m.body)
  (ps.zipIdx.map fun p =>
    let b := msgHeader m p.1 ++ p.1
    let fs := chunks 248 (ceilDiv b.length 248) b
    fs.zipIdx.map fun f =>
      let last := f.2 + 1 == fs.length
      ({ vc := msgVc m low, som := f.2 == 0, eom := last, data := slice f.1 0 248,
         msg := if last && p.2 + 1 == ps.length then some m else none } : TxFlit)).flatten

def State.link (s : State) (l : Nat) : LinkSt := tgetD s.fab.links l LinkSt.reset
def State.setLink (s : State) (l : Nat) (x : LinkSt) : State := { s with fab := { s.fab with links := tset s.fab.links l x } }

/-- A flit on the wire: link header, data, CRC (12 R383). -/
def flitBytes (f : TxFlit) (seq ack : Nat) (crvc crn : Nat) : List Byte :=
  let h := leBytes 4 (f.vc % 8 + b2n f.som * 8 + b2n f.eom * 16 + seq % 1024 * 2 ^ 6 + ack % 1024 * 2 ^ 16 + crvc % 8 * 2 ^ 26 + crn % 8 * 2 ^ 29)
  let b := h ++ slice f.data 0 248
  b ++ leBytes 4 (crc32c b)

/-- The credits the next flit returns: up to 7 of the lowest channel that owes any; what is owed then. -/
def takeOwed (l : List Nat) : Nat × Nat × List Nat :=
  match (List.range 8).find? fun v => l.getD v 0 != 0 with
  | none => (0, 0, l)
  | some v => let n := min 7 (l.getD v 0); (v, n, l.set v (l.getD v 0 - n))

/-- Puts a data flit on the wire with the link's ACK and the credits it returns (12 R383, R385). -/
def LinkSt.send (x : LinkSt) (seq : Nat) (f : TxFlit) : LinkSt :=
  let o := takeOwed x.owed
  { x with owed := o.2.2, wire := x.wire ++ [flitBytes f seq x.rxNext o.1 o.2.1] }

/-- Puts a control flit on the wire (12 R383). -/
def LinkSt.control (x : LinkSt) (kind : Nat) (vals : List Nat) : LinkSt :=
  let b := leBytes 4 (32 + x.rxNext % 1024 * 2 ^ 16) ++ slice (Config.linkControl kind vals) 0 248
  { x with wire := x.wire ++ [b ++ leBytes 4 (crc32c b)] }

/-- The first queued flit whose virtual channel holds credit, and the others (12 R383, R385). -/
def takeReady (credits : List Nat) (shared : Nat) : List TxFlit → Option (TxFlit × List TxFlit)
  | [] => none
  | f :: r => if credits.getD f.vc 0 != 0 || shared != 0 then some (f, r) else (takeReady credits shared r).map fun y => (y.1, f :: y.2)

/-- Sends queued flits of a link while credits and the replay buffer allow (12 R384, R385). -/
def linkPump : Nat → LinkSt → Nat → LinkSt × Nat
  | 0, x, n => (x, n)
  | fuel + 1, x, n =>
    if x.st != .up || x.replay.length ≥ 512 then (x, n)
    else
      match takeReady x.credits x.shared x.queue with
      | none => (x, n)
      | some (f, rest) =>
          let own := x.credits.getD f.vc 0
          let y := { x with queue := rest, replay := x.replay ++ [(x.seqTx, f)], seqTx := (x.seqTx + 1) % 1024,
                            credits := if own == 0 then x.credits else x.credits.set f.vc (own - 1),
                            shared := if own == 0 then x.shared - 1 else x.shared,
                            outst := x.outst.set f.vc (x.outst.getD f.vc 0 + 1) }
          linkPump fuel (y.send x.seqTx f) (n + 1)

/-- An armed injection spoils the CRC of one flit (12 FAB_L_ERR_INJ). -/
def spoil (l : List (List Byte)) (i : Nat) : List (List Byte) := l.zipIdx.map fun x => if x.2 == i then x.1.set 255 (x.1.getD 255 0 ^^^ 1) else x.1

/-- Flits leave on a link; those left behind wait for a credit (FAB_L counters). -/
def State.pump (s : State) (l : Nat) : State :=
  let x := s.link l
  let r := linkPump x.queue.length x 0
  if r.2 == 0 then s
  else
    let y := if x.replay.isEmpty then { r.1 with lastAck := s.time.lctr } else r.1
    let y := if s.armed (pLink l) 0 then { y with wire := spoil y.wire x.wire.length } else y
    (((s.setLink l y).bump (pLink l + 0x040) r.2)).disarm (pLink l) 0

/-- Flits join the queue of a link; those that no credit lets out are counted (12 FAB_L_CREDIT_STALLS). -/
def State.enqueue (s : State) (l : Nat) (fs : List TxFlit) : State :=
  let x := s.link l
  let s := (s.setLink l { x with queue := x.queue ++ fs }).pump l
  let y := s.link l
  s.bumps [(pLink l + 0x080, if y.st == .up && decide (y.replay.length < 512) then y.queue.length - x.queue.length else 0)]

/-- Bytes outstanding on a link (12 R399). -/
def LinkSt.load (x : LinkSt) : Nat := 256 * (x.replay.length + x.queue.length)

/-- The first hop of a message: links named by the route entry, else a link to a peer that may relay; the one with the fewest bytes outstanding, lowest number first (12 R399; log entry 61, DEDUCED). -/
def State.firstHop (s : State) (m : Msg) (low : Bool) (relayed : Bool) (avoid : Nat) : Option Nat :=
  let vc := msgVc m low
  let cands := (List.range 24).filter fun l =>
    let x := s.link l
    x.st == .up && decide (msgNeeds m ≤ x.ver) && (relayed || vc == 0 || vc == 1 || bitOf (s.links m.srcPart) l)
  let r := (tgetD s.fab.route m.dst 0).toNat
  let direct := if bitOf r 31 then cands.filter (bitOf r) else []
  let l := if direct.isEmpty && !relayed then cands.filter fun l => (s.link l).kind != 1 else direct
  let other := l.filter (· != avoid)
  match (if other.isEmpty then l else other) with
  | [] => none
  | a :: rest => some (rest.foldl (fun b x => if (s.link x).load < (s.link b).load then x else b) a)

/-- A message leaves this node, by another link than `avoid` where there is one, or passes within it (08 R278); false when no route exists. -/
def State.trySendNot (s : State) (m : Msg) (low : Bool) (avoid : Nat) : State × Bool :=
  if m.dst == s.node then ({ s with fab := { s.fab with sent := s.fab.sent ++ [{ m with link := 31 }] } }, true)
  else
    let far := m.src != s.node
    match s.firstHop m low far avoid with
    | none => (s, false)
    | some l =>
      -- VER stays that of the link on which the message was first sent (12 R392)
      let m := { m with link := l, ver := if m.resend then m.ver else (s.link l).ver }
      let s := s.enqueue l (msgFlits m low)
      if far then (s, true)
      else (State.bump { s with fab := { s.fab with sent := s.fab.sent ++ [m] } } (pFab + 0x040) 1, true)

def State.trySend (s : State) (m : Msg) (low : Bool) : State × Bool := s.trySendNot m low 31

/-- An unreachable destination (12 R400). -/
def State.noRoute (s : State) : State := (s.bump (pFab + 0x078) 1).raise pFab 4

/-- Sends a message that nothing at this node waits for. -/
def State.putMsg (s : State) (m : Msg) : State :=
  let r := s.trySend m false
  if r.2 then r.1 else s.noRoute

end Sys2Proof.Machine
end

