-- ==== Sys2Proof/Machine/Commands.lean ====
section
/-! DEFINITION. What every command shares: capo charges, messages sent, buffers, completion, discarding a stage, teardown of a context (spec 09 R312, R314, 10 R332, R333, R340 to R344, 14 R448, 08 R257). -/

namespace Sys2Proof.Machine

/-! ## Capos (10 R340 to R345) -/

/-- Level of a bucket; an unlimited one reads its depth (10 R341). -/
def bucket (rate depth : Nat) (lvl : Int) : Int := if rate == 0xFFFFFFFF then depth else lvl

def Capo.committed (c : Capo) : Int := bucket c.cir c.cbs c.clvl
def Capo.peakLvl (c : Capo) : Int := bucket c.pir c.pbs c.plvl

/-- Class of a request: green, yellow, held (10 R342, R345). -/
inductive Class where
  | green
  | yellow
  | held
deriving DecidableEq, Repr

def State.capoOn (s : State) (p : Nat) : Bool := bitOf (s.reg32 (pCapo p + 0x100)) 9

def State.classOf (s : State) (p r : Nat) : Class :=
  if !s.capoOn p then .green
  else
    let c := s.capo p r
    if c.peakLvl ≤ 0 then .held else if c.committed > 0 then .green else .yellow

/-- Subtracts n units from the buckets of the class and counts them. Unlimited buckets are never charged. -/
def State.take (s : State) (p r n : Nat) (k : Class) : State :=
  let s := s.bump (pCapo p + 0x040 + 8 * r) n
  if !s.capoOn p then s
  else s.modCapo p r fun c =>
    { c with plvl := if c.pir == 0xFFFFFFFF then c.plvl else c.plvl - n,
             clvl := if k == .green && c.cir != 0xFFFFFFFF then c.clvl - n else c.clvl }

/-- A shaped request of n units: served, or held with the state unchanged; in HOLD only green traffic is served (15 R466). -/
def State.charge (s : State) (p r n : Nat) : Option State :=
  if n == 0 then some s
  else
    match s.classOf p r with
    | .held => none
    | .yellow => if s.pwr.hold then none else some (s.take p r n .yellow)
    | .green => some (s.take p r n .green)

/-- Traffic that is charged and counted but never held (10 R344). -/
def State.chargeFree (s : State) (p r n : Nat) : State := if n == 0 then s else s.take p r n (match s.classOf p r with
  | .held => .yellow
  | k => k)

/-- Commands of a partition that a capo holds, with the messages held for FAB_TX. -/
def State.capoHeld (s : State) (p r : Nat) : Nat :=
  (s.cmds.filter fun c => c.part == p && (match c.phase with
    | .run (.capo r' _) => r' == r
    | _ => false)).length + (if r == 9 then (s.fab.txq.filter fun m => m.srcPart == p).length else 0)

/-- A request becomes held (10 R342). -/
def State.noteHeld (s : State) (p r : Nat) : State :=
  let s := s.bump (pCapo p + 0x098) 1
  let n := s.capoHeld p r
  s.modCapo p r fun c => { c with peak := max c.peak n }

/-! ## Messages -/

/-- Sends for a partition: its payload is charged to FAB_TX and waits when held (10 R340). Control traffic is sent by `putMsg`. -/
def State.sendMsg (s : State) (m : Msg) : State :=
  match s.charge m.srcPart 9 (ceilDiv (bodySize m.body) 64) with
  | some s => s.putMsg m
  | none => State.noteHeld { s with fab := { s.fab with txq := s.fab.txq ++ [m] } } m.srcPart 9

/-- A message of this node. -/
def State.mkMsg (s : State) (ty dst dstPart part txn : Nat) (body : Body) : Msg :=
  { ty := ty, link := 0, ver := 0x21, src := s.node, srcPart := part, dst := dst, dstPart := dstPart, epoch := s.epoch, fanout := false,
    ni := false, resend := false, hops := 0, txn := txn, addr := 0, arg := 0, e2eOk := true, body := body }

/-- The answer to a received request (12 R392: the transaction number is echoed). -/
def State.reply (s : State) (m : Msg) (ty arg : Nat) (body : Body) : Msg :=
  { s.mkMsg ty m.src m.srcPart m.dstPart m.txn body with arg := arg, epoch := m.epoch }

/-! ## Buffers -/

/-- Host reads of a command come through its submitting function (09 R285, R287). -/
def State.hostRead (s : State) (c : Cmd) (key a n : Nat) : State := s.emit c.port (.read c.fn c.id key a n)

/-- Key of a context's buffers (14 R445; log entry 22, DESIGN CHOICE). -/
def State.bufKey (s : State) (p ctx gen : Nat) : List Byte := Config.shake256 32 (tgetD s.sec.buf p [] ++ leBytes 2 ctx ++ leBytes 8 gen)

/-- A sealed chunk as remembered: context, generation, counter, plaintext (14 R448; log entry 22, DESIGN CHOICE). -/
def sealedBytes (s : State) (p lin : Nat) (note : List Byte) : List Byte :=
  slice (Config.gcmSeal (s.bufKey p (le16 note 0) (le64 note 2)) (leBytes 8 lin ++ leBytes 8 (le64 note 10)) (slice note 18 4096)) 0 4096

/-- Writes one 4 KiB chunk of a device-space buffer under the issuing context's key (14 R448). -/
def State.sealChunk (s : State) (c : Cmd) (f o : Nat) (d : List Byte) : State :=
  let n := tgetD s.sec.ctr c.part 0 + 1
  let note := leBytes 2 c.ctx ++ leBytes 8 (s.ctx c.ctx).gen ++ leBytes 8 n ++ slice d 0 4096
  let s := { s with sec := { s.sec with ctr := tset s.sec.ctr c.part n, chunks := tset s.sec.chunks (linOf f o) note } }
  s.hbmWrite f o 0 (sealedBytes s c.part (linOf f o) note)

/-- Opens a chunk: its tag holds when the same context and generation sealed it and its bytes stand unchanged. -/
def State.openChunk (s : State) (c : Cmd) (f o : Nat) : Option (List Byte) :=
  match tget s.sec.chunks (linOf f o) with
  | none => none
  | some note =>
    if le16 note 0 == c.ctx && le64 note 2 == (s.ctx c.ctx).gen && !s.armed pSec 3 &&
        s.hbmRead f o 4096 == sealedBytes s c.part (linOf f o) note then some (slice note 18 4096)
    else none

/-- Bytes of a command's buffer in device space (09 R287; 14 R448). Log entry 139, DEDUCED. -/
def State.readBuf (s : State) (c : Cmd) (a n : Nat) : Except Halt (List Byte) :=
  if !s.confidential c.part then s.readDev a n
  else
    match devAddr a with
    | none => .ok (zeros n)
    | some (f, o) => do
      let parts ← (List.range (ceilDiv n 4096)).mapM fun i =>
        match s.openChunk c f (o + 4096 * i) with
        | some d => Except.ok d
        | none => Except.error (Halt.fail stDenied 0x0932 0 [(pSec, 3)] [(pSec + 0x060, 1)])
      return slice parts.flatten 0 n

/-- Writes an output range (09 R307, R312). -/
def State.writeBuf (s : State) (c : Cmd) (a : Nat) (d : List Byte) : State :=
  if d.isEmpty then s
  else if isDev a then
    if s.confidential c.part then
      match devAddr a with
      | none => s
      | some (f, o) => (chunks 4096 (ceilDiv d.length 4096) d).zipIdx.foldl (fun s x => s.sealChunk c f (o + 4096 * x.2) x.1) s
    else s.devWrite a d
  else s.emit c.port (.write c.fn a d (bitOf (s.reg32 (pHif c.port + 0x100)) 0))

/-! ## Discarding (08 R257) -/

/-- Takes back the map entries a stage wrote: the history records it left, newest first (11 R358). -/
def undoMap (tag : Nat) : List Hist → Tab MapEnt → List Hist × Tab MapEnt
  | [], m => ([], m)
  | h :: r, m =>
    if h.tag == tag && h.edition.isNone then
      undoMap tag r (tset m h.page h.prev)
    else
      let x := undoMap tag r m
      (h :: x.1, x.2)

/-- Work of a command ends: its walks, Array operations, fabric requests and staged pages go. -/
def State.forget (s : State) (c : Cmd) : State :=
  let u := undoMap c.id s.fte.hist s.fte.map
  { s with walks := s.walks.filter (fun w => w.cmd != c.id),
           arr := { s.arr with queue := s.arr.queue.filter (fun o => o.cmd != c.id) },
           fab := { s.fab with reqs := s.fab.reqs.filter (fun r => r.cmd != c.id) },
           fte := { s.fte with hist := u.1, map := u.2 } }

/-- The command has been admitted at least once: a killed one keeps its credit and its place (10 R329). -/
def Cmd.entered (c : Cmd) : Bool := c.admitted || c.reruns != 0

/-- The command went whole to the owner of its shard: its stage phase runs there (08 R278). -/
def Cmd.whole (c : Cmd) : Bool := c.opcode != 0x31 && (c.peer || (match c.phase with
  | .run (.forward _) => true
  | _ => false))

/-- The command is in its stage phase on this node (08 R256). -/
def Cmd.staging (c : Cmd) : Bool := (isMutating c.opcode && c.admitted && !c.whole) || c.phase == .staged || !c.stages.isEmpty

/-- Discards the stage of a command; every published edition stays (08 R257). -/
def State.discard (s : State) (c : Cmd) : State :=
  let s := if c.staging then s.bump (pUpd + 0x048) 1 else s
  (s.forget c).modCmd c.id fun c => { c with stages := [], fin := none, done := [], claim := 0, work := false, taken := [] }

/-! ## Completion -/

/-- The record of a command (09 R310). -/
def Cmd.record (c : Cmd) (st sub result bytes edition counter : Nat) : Rec :=
  { id := c.id, tag := c.tag, ctx := c.ctx, status := st, sub := sub % 2 ^ 16, result := sat32 result, bytes := bytes, edition := edition,
    counter := sat32 counter, credits := 1, kind := 0, opcode := c.opcode, irq := c.irq }

/-- A command ends with its answer: a record for a window command, a result message for a forwarded or copied one (09 R309, 08 R279, 13 R428). -/
def State.answer (s : State) (c : Cmd) (st sub result edition counter : Nat) (out : List Byte) : State :=
  let s := (s.forget c).dropCmd c.id
  match c.origin with
  | .window => s.putRec c.port c.ctx (c.record st sub result (if stGood st then out.length else 0) edition counter)
  | .forwarded node txn part => s.sendMsg (s.mkMsg 0x23 node part c.part txn (.fwdResult st sub counter result edition out))
  | .shadow node txn =>
    -- the IDs of the block's valid entries (13 R428)
    if stGood st then s.putMsg (s.mkMsg 0x3A node 0 c.part txn (.shadowResult (c.f 12 11 0) ((List.range (le32 out 12)).map fun i => le64 out (32 + 16 * i)))) else s
  | .internal | .replay _ => s

/-- A refusal at admission (09 R305; CAU counters). -/
def State.refuseCmd (s : State) (c : Cmd) (st sub counter : Nat) : State :=
  let s := if st == 0 then s.bump (pCau + 0x040) 1
    else
      let s := s.bump (pCau + 0x048) 1
      let s := if st == stBufferShort then s.bump (pCau + 0x050) 1 else s
      { s with refuse := (st, sub, c.opcode, c.ctx) }
  let s := if st == stField && sub == 0x0802 then s.bump (pUpd + 0x078) 1 else s
  s.answer c st sub 0 0 counter []

def pfBytes (l : List PfRow) : Nat := sumList (l.map fun x => x.data.length)

/-- Drops oldest rows until `need` more bytes fit in `cap`: how many went, what stays. -/
def pfMakeRoom (need cap : Nat) : List PfRow → Nat × List PfRow
  | [] => (0, [])
  | r :: t => if pfBytes (r :: t) + need > cap then let d := pfMakeRoom need cap t; (d.1 + 1, d.2) else (0, r :: t)

/-- Rows enter a prefetch buffer, oldest out first when it is full (08 R271). -/
def State.pfInsert (s : State) (p : Nat) (rows : List PfRow) : State :=
  let cap := (s.part p).pfUnits * 65536
  rows.foldl (fun s r =>
    let d := pfMakeRoom r.data.length cap (s.part p).pf
    let s := s.bumps [(pGcu + 0x080, d.1)]
    let l' := if r.data.length > cap then d.2 else d.2 ++ [r]
    let s := s.modPart p fun x => { x with pf := l' }
    let units := ceilDiv (pfBytes l') 65536
    if s.pfPeak < units then { s with pfPeak := units } else s) s

/-- A command ends as its processing decided: output, drop bitmap, counters and error bits, prefetch buffer, then its answer (09 R312). Log entry 143, DEDUCED. -/
def State.finish (s : State) (c : Cmd) (f : Finish) : State :=
  let good := stGood f.status
  let s := f.late.foldl (fun s x => s.devWrite x.1 x.2) s
  let s := match f.drop with
    | some (a, d) => if good then s.writeBuf c a d else s
    | none => s
  let s := if good && c.origin == .window then s.writeBuf c c.outAddr f.out else s
  let s := s.bumps f.bumps
  let s := f.errs.foldl (fun s x => s.reportErr ⟨some c.part, c.ctx⟩ x) s
  let s := s.modPart c.part fun x => { x with pf := x.pf.filter fun r => !f.pfUse.contains r }
  let s := s.pfInsert c.part f.pfAdd
  s.answer c f.status (if good then c.flagsNow f.sub else f.sub) f.result f.edition f.counter f.out

/-! ## Contexts: faults and teardown (10 R332, R333) -/

/-- Scrubs every fret of some core dies (03 R82, 10 R326). -/
def State.scrubDies (s : State) (l : List Nat) : State :=
  { s with frets := s.frets.filter (fun e => !l.contains (dieOf e.1)), sbc := { s.sbc with ends := s.sbc.ends.filter fun e => !l.contains e.1 } }

/-- Scrubs every fret of a partition's slice (03 R82, 10 R326). -/
def State.scrubSlice (s : State) (p : Nat) : State :=
  { s with frets := s.frets.filter (fun e => !s.dieIn p (dieOf e.1)), sbc := { s.sbc with ends := s.sbc.ends.filter fun e => !s.dieIn p e.1 } }

/-- A collective loses this member (05 R165): the others are told, and its entry goes. -/
def State.collDrop (s : State) (id sub : Nat) : State :=
  (s.col.open'.filter fun k => k.cmd == some id).foldl (fun s k =>
    let tell := fun (s : State) (n txn : Nat) => s.putMsg { s.mkMsg 0x14 n k.part k.part txn (.collAbort k.id stCancelled sub) with fanout := k.fanout, epoch := k.epoch }
    let s := if k.root then k.joiners.foldl (fun s j => tell s j.node j.txn) s else tell s k.rootNode 0
    { s with col := { s.col with open' := s.col.open'.filter (· != k) } }) s

/-- Ends a command with a status and no output. -/
def State.endCmd (s : State) (c : Cmd) (st sub : Nat) : State := ((s.discard c).collDrop c.id 0x0102).answer c st sub 0 0 0 []

/-- The context of a region leaves the partition's prefetch buffer (10 R333 step 4). -/
def State.dropPf (s : State) (p ctx : Nat) : State :=
  s.modPart p fun x => { x with pf := x.pf.filter fun r => !((r.src == 2 || r.src == 3 || r.src == 6 || r.src == 7) && r.target == ctx) }

/-- Work of a context: its descriptors, and what the device does by itself or replays on its region; work on shards, and what another node or partition sent, is no context's of this node (08 R278). -/
def Cmd.ofCtx (c : Cmd) (ctx : Nat) : Bool :=
  c.ctx == ctx && (c.origin.isWindow || (!c.origin.isForwarded && !([0x31, 0x32, 0x33, 0x34, 0x36].contains c.opcode ||
    (c.opcode == 0x41 && c.f 12 1 0 == 2) || ((c.opcode == 0x60 || c.opcode == 0x61) && !bitOf (c.w 12) 0))))

/-- A context becomes FAULTED and is torn down (10 R332, R333). `met` is the command that met the fault with its own status. -/
def State.faultCtx (s : State) (ctx cause : Nat) (met : Option (Nat × Nat × Nat)) : State :=
  let e := s.ctx ctx
  match e.state with
  | .faulted => s
  | .off =>
    if cause == 2 then ((s.modCtx ctx fun x => { x with state := .faulted, cause := cause }).bump (pCtx + 0x058) 1).logEvent pCtx 5 2 ⟨some e.part, ctx⟩ cause 0
    else s
  | _ =>
    let s := s.modCtx ctx fun x => { x with state := .faulted, cause := cause }
    let s := (s.raiseAt pCtx 1 ⟨some e.part, ctx⟩).bump (pCtx + 0x058) 1
    let s := s.logEvent pCtx 5 2 ⟨some e.part, ctx⟩ cause 0
    let mine := s.cmds.filter fun c => c.ctx == ctx && c.origin.isWindow
    let s := mine.foldl (fun s c =>
      match met with
      | some (id, st, sub) => if c.id == id then s.endCmd c st sub else rest s c
      | none => rest s c) s
    let s := (s.cmds.filter fun c => c.ofCtx ctx).foldl (fun s c => s.endCmd c stCancelled 0x0922) s
    let p := s.part e.part
    let s := if p.cur == some ctx then
        (s.scrubSlice e.part |>.modPart e.part fun x => { x with cur := none, scrubbed := true, due := false }).bump (pCtx + 0x040) 1
      else s
    s.dropPf e.part ctx
where
  /-- Admitted commands are cancelled; descriptors not yet admitted meet the faulted context (10 R322). -/
  rest (s : State) (c : Cmd) : State :=
    if c.entered then s.endCmd c stCancelled 0x0922
    else if c.phase == .queued then s.refuseCmd c stCtxFault 0x0971 0
    else (s.discard c).refuseCmd c stCtxFault 0x0971 0

/-- A command fails once started: error bits, counters, then its record (09 R314). A failed chunk tag faults its context (14 R448). -/
def State.failCmd (s : State) (c : Cmd) (st sub counter : Nat) (errs bumps : List (Nat × Nat)) : State :=
  let s := s.bumps bumps
  let s := errs.foldl (fun s x => s.reportErr ⟨some c.part, c.ctx⟩ x) s
  let s := if st == stData && sub != 0x0951 then s.bump (pPeg + 0x058) 1 else s
  let s := if st == stRerun then s.bump (pCtx + 0x050) 1 else s
  if errs.contains (pSec, 3) && c.origin.isWindow then s.faultCtx c.ctx 4 (some (c.id, st, sub))
  else
    let s := s.discard c
    let s := s.collDrop c.id 0x0102
    s.answer c st sub 0 0 counter []

/-! ## Waiting for frets -/

/-- The oldest command of a context that is at work: the host command a fret frame belongs to. -/
def State.atWork (s : State) (ctx : Nat) : Option Cmd :=
  s.cmds.find? fun c => c.ctx == ctx && c.admitted && (match c.phase with
    | .run _ => true
    | _ => false)

end Sys2Proof.Machine
end

