-- ==== Sys2Proof/Machine/Returns.lean ====
section
/-! DEFINITION. The buffers between the core dies and the consumers of their results: string ends, return buffers, consumer queues (spec 01 R28 to R30, 03 R68, R91, R92). -/

namespace Sys2Proof.Machine

/-- The buffer of a string end, and the entries of a consumer's queue (01 R30). -/
def endCap : Nat := 4096
def queueCap : Nat := 64

def SbcSt.endOf (x : SbcSt) (die : Nat) : StringEnd := tgetD x.ends die { buf := [], rest := [] }

/-- An outlet without content has no entry. -/
def SbcSt.setEnd (x : SbcSt) (die : Nat) (e : StringEnd) : SbcSt :=
  { x with ends := if e.buf.isEmpty && e.rest.isEmpty then tdel x.ends die else tset x.ends die e }

def SbcSt.setRet (x : SbcSt) (chan : Nat) (l : List Xfer) : SbcSt := { x with rets := if l.isEmpty then tdel x.rets chan else tset x.rets chan l }

def xferBytes (l : List Xfer) : Nat := sumList (l.map fun x => x.data.length)

/-- Beats the frets hold enter the string-end buffer while it has room (03 R92). -/
def StringEnd.refill : List Xfer → List Xfer → StringEnd
  | buf, [] => { buf := buf, rest := [] }
  | buf, x :: r => if xferBytes buf + x.data.length ≤ endCap then StringEnd.refill (buf ++ [x]) r else { buf := buf, rest := x :: r }

/-- Transfers from a string end into the return buffer of their channel, each once space for all of it is reserved (01 R29). -/
def SbcSt.takeEnd (x : SbcSt) (die : Nat) : List Xfer → SbcSt × List Xfer
  | [] => (x, [])
  | y :: r =>
    let c := die / 16 * 32 + y.chan
    if x.used c + roundUp y.data.length 64 ≤ retCap then (x.setRet c (tgetD x.rets c [] ++ [y])).takeEnd die r else (x, y :: r)

def SbcSt.pullEnd (x : SbcSt) (die : Nat) : SbcSt :=
  let e := x.endOf die
  if e.buf.isEmpty && e.rest.isEmpty then x
  else
    let (x, left) := x.takeEnd die e.buf
    x.setEnd die (StringEnd.refill left e.rest)

/-- Entries of 64 bytes move from the return buffers of a stack, lowest channel first, into its consumers' queue while it has room (01 R30). -/
def SbcSt.feed (x : SbcSt) (stack : Nat) : Nat → SbcSt
  | 0 => x
  | n + 1 =>
    let q := tgetD x.queue stack []
    if q.length ≥ queueCap then x
    else
      match x.rets.find? fun e => e.1 / 32 == stack with
      | none => x
      | some (c, l) =>
        match l with
        | [] => x
        | y :: r =>
          let left := y.data.drop 64
          let x := x.setRet c (if left.isEmpty then r else { y with data := left } :: r)
          SbcSt.feed { x with queue := tset x.queue stack (q ++ [{ y with data := y.data.take 64 }]) } stack n

/-- Everything moves as far as there is room. -/
def SbcSt.flow (x : SbcSt) (stack : Nat) : Nat → SbcSt
  | 0 => x
  | n + 1 =>
    let y := ((List.range 16).foldl (fun x d => x.pullEnd (stack * 16 + d)) x).feed stack queueCap
    if y == x then x else SbcSt.flow y stack n

def flowFuel : Nat := 64

/-- A die's string delivers at its end (03 R92): as transfers of at most the buffer's size. -/
def SbcSt.putString (x : SbcSt) (die seq chan : Nat) (d : List Byte) : SbcSt :=
  let e := x.endOf die
  let new : List Xfer := (chunks endCap (ceilDiv d.length endCap) d).map fun b => { seq := seq, chan := chan, data := b }
  (x.setEnd die (StringEnd.refill e.buf (e.rest ++ new))).flow (die / 16) flowFuel

/-- Results on the channel read paths, into space reserved for them (01 R29, 03 R89). -/
def SbcSt.putReads (x : SbcSt) (stack : Nat) (l : List Xfer) : SbcSt :=
  (l.foldl (fun x y => let c := stack * 32 + y.chan; if y.data.isEmpty then x else x.setRet c (tgetD x.rets c [] ++ [y])) x).flow stack flowFuel

/-- Return space for so many bytes on a channel can be reserved (01 R29). -/
def SbcSt.room (x : SbcSt) (chan n : Nat) : Bool := let u := x.used chan; u == 0 || decide (u + roundUp n 64 ≤ retCap)

/-- The consumers take what their queues hold, and what stands behind moves up. That they do so when nothing else is to be done is log entry 172, DESIGN CHOICE. -/
def SbcSt.consume (x : SbcSt) : SbcSt :=
  (List.range 12).foldl (fun x st => x.flow st flowFuel) { x with queue := [] }

/-- The frets of a die pause: its string end is full (01 R30, 03 R92). -/
def SbcSt.paused (x : SbcSt) (die : Nat) : Bool := !(x.endOf die).rest.isEmpty

end Sys2Proof.Machine
end

