-- ==== Sys2Proof/Machine/Frets.lean ====
section
/-! DEFINITION. Fret command frames: queries, strums, plucks, histograms, lists, sums, values, the string, staging and publishing (spec 03 R75 to R97). -/

namespace Sys2Proof.Machine

abbrev Answer := Host.Outcome State Fault Refusal

/-- An extent (03 R80). -/
structure Extent' where
  dca : Nat
  rows : Nat
  stride : Nat
  zp : Bool
  rec' : QRec
  scaleDca : Nat
  tau : F32
  pos : Nat
  edition : Nat
deriving DecidableEq, Repr

/-- A record that names only what an extent carries. -/
def extentRec (fm : Fmt) (group : Nat) (fp16 : Bool) (dim axis : Nat) : QRec :=
  { elem := fm, query := .int8, fp16 := fp16, axis := axis, group := group, calW := 0, margin := 0, dim := dim, headDim := dim,
    privCount := 0, privAddr := 0, scaleAddr := 0, histAddr := 0, reserved := false }

/-- Bits a frame may set in each word, by fret opcode (03 R79 to R81). -/
def frameMask (op i : Nat) : Nat :=
  match i with
  | 0 => 0xFFFFFFFF
  | 1 => 0x0FFF0FFF
  | 2 | 3 => 0xFFFFFFFF
  | _ =>
    match op, i with
    | 0x01, 4 => 0x3FFFFFFF
    | 0x02, 4 => 1
    | 0x10, 4 | 0x11, 4 => 0x1FFFFF
    | 0x10, 5 | 0x11, 5 => 0x1FFFFFF
    | 0x10, 6 | 0x11, 6 => 0x1FFFFFFF
    | 0x10, 7 | 0x11, 7 => 0x7F1FFF
    | 0x10, 8 | 0x11, 8 | 0x10, 9 | 0x11, 9 | 0x10, 10 | 0x11, 10 | 0x10, 11 | 0x11, 11 => 0xFFFFFFFF
    | 0x10, 12 | 0x11, 12 => 0x1FFFFF
    | 0x13, 4 => 1
    | 0x18, 4 => 0x1FFFFF
    | 0x18, 5 => 0x1FFFFFF
    | 0x18, 6 => 0x1FFF
    | 0x18, 7 => 0x1FFFFF
    | 0x20, 4 => 0x7F0007
    | 0x30, 4 => 0x1FFFFF
    | 0x30, 5 => 0x301FF
    | 0x30, 6 => 0x1FFFFF
    | 0x31, 4 | 0x31, 5 => 0x1FFFFF
    | 0x31, 6 => 0x11FF
    | 0x31, 10 | 0x31, 11 => 0xFFFFFFFF
    | _, _ => 0

end Sys2Proof.Machine

namespace Sys2Proof

open Sys2Proof.Machine

/-! ## Frames -/

def Frame.w (f : Frame) (i : Nat) : Nat := f.dw.getD i 0
def Frame.g (f : Frame) (i hi lo : Nat) : Nat := fld (f.w i) hi lo

/-- The frame carries its row's opcode and no reserved bit (03 R81). Log entry 119, DEDUCED. -/
def Frame.formed (f : Frame) (op : Nat) : Bool :=
  f.g 0 7 0 == op && f.g 0 9 8 != 3 && ((List.range 16).all fun i => f.w i &&& (0xFFFFFFFF ^^^ frameMask op i) == 0)

/-- Fret domains a frame addresses (03 R79). -/
def Frame.frets (f : Frame) : List Nat :=
  let b := (f.stack % 12) * 1024 + (f.die % 16) * 64
  match f.g 0 9 8 with
  | 0 => [b + f.g 0 15 10]
  | 1 => (List.range 64).map (b + ·)
  | _ => (bitsOf 64 (f.w 2 + f.w 3 * 2 ^ 32)).map (b + ·)

def Frame.dieKey (f : Frame) : Nat := (f.stack % 12) * 16 + f.die % 16

/-- The frame for some of the domains it addresses alone. -/
def Frame.only (f : Frame) (l : List Nat) : Frame :=
  let m := sumList (l.map fun x => 2 ^ (x % 64))
  { f with dw := ((f.dw.set 0 (setFld (f.w 0) 9 8 2)).set 2 (m % 2 ^ 32)).set 3 (m / 2 ^ 32) }

/-- Every domain of the frame's die. -/
def Frame.dieFrets (f : Frame) : List Nat := (List.range 64).map ((f.stack % 12) * 1024 + (f.die % 16) * 64 + ·)

/-- Domains a frame touches: a string passes all of its die (03 R92). -/
def Frame.touched (f : Frame) : List Nat := if f.g 0 7 0 == 0x20 then f.dieFrets else f.frets

/-- `SEQ`, echoed in outputs (03 R79). -/
def Frame.seq (f : Frame) : Nat := f.g 0 23 16

/-- The frame a command row sends. -/
def Instr.frame? : Instr → Option Frame
  | .qload f | .qscrub f | .hist f | .list f | .expsum f | .string f => some f
  | .strum f _ | .pluck f _ | .commitRow f _ => some f
  | .vacc x | .stageWrite x => some x.frame
  | _ => none

/-- Vectors of `VMASK`, ascending. -/
def Frame.vecs (f : Frame) : List Nat := bitsOf 8 (f.g 0 31 24)

def Frame.ctx (f : Frame) : Nat := f.g 1 11 0

/-- The 16-byte record of the i-th vector of VMASK. -/
def Frame.vecRec (f : Frame) (i : Nat) : List Byte := slice f.payload (16 * i) 16

def Frame.extent (f : Frame) : Extent' :=
  { dca := f.g 4 20 0, rows := f.g 5 24 0, stride := 4 * f.g 6 11 0, zp := bitOf (f.w 6) 25,
    rec' := extentRec (Fmt.ofCode (f.g 6 15 12)) (f.g 6 23 16) (bitOf (f.w 6) 24) (f.g 7 12 0) 0,
    scaleDca := f.g 12 20 0, tau := BitVec.ofNat 32 (f.w 8), pos := f.w 9, edition := f.w 10 + f.w 11 * 2 ^ 32 }

/-- Row numbers a PLUCK carries: every word of its payload, to its 512, padding included (log entry 179, DESIGN CHOICE). -/
def Frame.pluckRows (f : Frame) : List Nat := (List.range (min 512 (f.g 1 27 16 * 8))).map fun i => le32 f.payload (4 * i)

/-- Value rows a VACC reads, as a record of their format. -/
def Frame.vaccRec (f : Frame) : QRec := extentRec (Fmt.ofCode (f.g 5 15 12)) (f.g 5 23 16) (bitOf (f.w 5) 24) (f.g 6 12 0) 1

/-- The entries of its payload: row number, and the weight of the i-th vector. -/
def Frame.vaccLen (f : Frame) : Nat := 4 + 4 * f.vecs.length
def Frame.vaccRows (f : Frame) : List Nat := (List.range (f.g 1 27 16 * 32 / f.vaccLen)).map fun i => le32 f.payload (i * f.vaccLen)
def Frame.vaccWeight (f : Frame) (n i : Nat) : F32 := BitVec.ofNat 32 (le32 f.payload (n * f.vaccLen + 4 + 4 * i))

/-- Runs of bytes that value row p is read from: its elements and the scales of its group. -/
def Frame.vaccRuns (f : Frame) (p : Nat) : List (Nat × Nat) :=
  let r := f.vaccRec
  [(f.g 4 20 0 * 32 + p * (4 * f.g 5 11 0), r.elemBytes),
   (f.g 7 20 0 * 32 + r.tokenOff (p / max 1 r.group) 0, r.dim * scaleBytes r.fp16)]

end Sys2Proof

namespace Sys2Proof.Machine

/-! ## Local state -/

def Sums.reset : Sums := { m := f32Neg, lo := f32Pos, sigma := 0, tau := 0, n := 0, rejected := 0, bad := 0, overflow := false }

def VecSt.reset : VecSt :=
  { sums := Sums.reset, buffer := [], list := [], hist := [], binRec := [], acc := [], accLive := false, record := none, listed := none, emit := [] }

def Fret.reset : Fret := { q := [], v := [] }

def State.fret (s : State) (f : Nat) : Fret := tgetD s.frets f Fret.reset
def State.setFret (s : State) (f : Nat) (x : Fret) : State := { s with frets := tset s.frets f x }
def Fret.vec (x : Fret) (v : Nat) : VecSt := tgetD x.v v VecSt.reset
def Fret.setVec (x : Fret) (v : Nat) (y : VecSt) : Fret := { x with v := tset x.v v y }

/-- A loaded vector as a query: per group its scale, then 4 bytes of Σq (03 R81; log entry 23, DESIGN CHOICE). -/
def QVec.query (q : QVec) : Query :=
  let fm := Fmt.ofCode q.fmt
  let g := if q.group == 0 then max 1 q.vlen else q.group
  let n := ceilDiv q.vlen g
  let sb := scaleBytes q.fp16
  let sums := (List.range n).map fun i => le32 q.side (i * (sb + 4) + sb)
  { fmt := fm, codes := unpack fm q.vlen q.elems,
    scales := (List.range n).map fun i => scaleF32 q.fp16 (leNat (slice q.side (i * (sb + 4)) sb)),
    zps := List.replicate n 0,
    sums := sums.map fun w => if fm.integer then 0 else BitVec.ofNat 32 w,
    isums := sums.map fun w => if fm.integer then signedOf 32 w else 0 }

/-! ## Refusals (03 R78, R81, R107) -/

/-- Ends the host command a frame belongs to. -/
def State.failHost (s : State) (ctx st sub : Nat) : State :=
  match s.atWork ctx with
  | some c => s.failCmd c st sub 0 [] []
  | none => s

/-- A refused frame: every fret it addresses logs type 0x4 and its domain fails; the host command ends (03 R81, R107). Log entry 117, DEDUCED. -/
def State.refuseFrame (s : State) (f : Frame) : State := (f.frets.foldl State.fretFault s).failHost f.ctx stMedia 0x0945

/-- What a frame asks of the tags of its vectors (03 R78): nothing; that each is loaded under its context; that none is held by another. That a vector without a tag fails the first test, and passes the second, is log entry 175, DESIGN CHOICE. -/
inductive TagRule where
  | any
  | loaded
  | notOther
deriving DecidableEq, Repr

/-- Domains that refuse the frame for a tag. A frame that names no vector names none with another tag. -/
def State.tagBad (s : State) (f : Frame) (rule : TagRule) : List Nat :=
  match rule with
  | .any => []
  | .loaded => f.touched.filter fun x => f.vecs.any fun v => match tget (s.fret x).q v with
    | some q => q.ctx != f.ctx
    | none => true
  | .notOther => f.touched.filter fun x => f.vecs.any fun v => match tget (s.fret x).q v with
    | some q => q.ctx != f.ctx
    | none => false

def State.refuseTag (s : State) (f : Frame) (bad : List Nat) : State :=
  let s := bad.foldl (fun s x => (s.elogAt x 9 none).raiseAt (pSbc (stackOf x)) 8 ⟨none, f.ctx⟩) s
  s.faultCtx f.ctx 1 ((s.atWork f.ctx).map fun c => (c.id, stCtxFault, 0x0972))

/-- The slice of the frame's die serves another context (10 R324); frames that stage and publish keep no state of a context (log entry 62, DEDUCED). -/
def State.notItsTurn (s : State) (f : Frame) : Bool :=
  decide (f.g 0 7 0 < 0x30) && match (List.range 16).find? fun p => s.dieIn p f.dieKey with
    | some p => (s.part p).cur != some f.ctx
    | none => false

/-- A frame waits at `SBC`: a domain it touches is being replaced (03 R109); an earlier frame to one of its pairs waits; the die's frets pause (03 R92); the slice serves another context (10 R324); or the return space of its results, `n` bytes a fret, is not free (01 R29). -/
def State.frameWaits (s : State) (f : Frame) (n : Nat) : Bool :=
  (f.touched.any s.sparingAt) ||
  (s.sbc.stalled.any fun i => match i.frame? with
    | some g => g.touched.any f.touched.contains
    | none => false) ||
  s.sbc.paused f.dieKey || s.notItsTurn f ||
  (n != 0 && (dedupNat (f.frets.map retKey)).any fun c => !s.sbc.room c (n * (f.frets.filter fun x => retKey x == c).length))

def State.stall (s : State) (i : Instr) : State := { s with sbc := { s.sbc with stalled := s.sbc.stalled ++ [i] } }

/-- Runs the frame `f` of row `i`: nothing at a fenced die; held while it must wait; refused when malformed. Frets whose tags differ refuse it each for itself, and the others perform it; a string, which passes them all, delivers nothing then. Log entry 120, DEDUCED. -/
def State.frame (s : State) (i : Instr) (f : Frame) (op : Nat) (tags : TagRule) (n : Nat) (ok : Bool) (go : Frame → State → State) : Answer :=
  if s.hbm.deadDies.contains f.dieKey then .next s
  else if s.frameWaits f n then .next (s.stall i)
  else if !f.formed op || !ok then .next (s.refuseFrame f)
  else
    let bad := s.tagBad f tags
    if bad.isEmpty then .next (go f s)
    else
      let good := f.frets.filter fun x => !bad.contains x
      .next ((if good.isEmpty || op == 0x20 then s else go (f.only good) s).refuseTag f bad)

/-! ## QLOAD, QSCRUB (03 R76, R81, R82) -/

def State.qload (s : State) (f : Frame) : State :=
  let slot := f.g 4 1 0
  let paired := bitOf (f.w 4) 2
  let fm := Fmt.ofCode (f.g 4 7 4)
  let vlen := f.g 4 20 8
  let g := f.g 4 28 21
  let fp16 := bitOf (f.w 4) 29
  let n := ceilDiv vlen (if g == 0 then max 1 vlen else g)
  let eb := fm.rowBytes vlen
  let q : QVec := { ctx := f.ctx, fmt := fm.code, vlen := vlen, group := g, fp16 := fp16, elems := slice f.payload 0 eb,
                    side := slice f.payload eb (n * (scaleBytes fp16 + 4)) }
  let v := 2 * slot + (if paired && bitOf (f.w 4) 3 then 1 else 0)
  let w := 2 * slot + (if v % 2 == 0 then 1 else 0)
  f.frets.foldl (fun s x =>
    let fr := s.fret x
    let qs := match tget fr.q w with
      | some o => if paired then tset fr.q w { o with ctx := f.ctx } else tdel fr.q w
      | none => fr.q
    s.setFret x { q := tset qs v q, v := tset fr.v v VecSt.reset }) s

def qloadGo (f : Frame) (s : State) : Answer :=
  let fm := Fmt.ofCode (f.g 4 7 4)
  let cap := if bitOf (f.w 4) 2 then 4096 else 8192
  s.frame (.qload f) f 0x01 .any 0 (fm.fretQuery && decide (fm.rowBytes (f.g 4 20 8) ≤ cap)) fun f s => s.qload f

/-- With ALL clear the scrubbed vectors lose their tags with their state (log entry 176, DESIGN CHOICE). -/
def qscrubGo (f : Frame) (s : State) : Answer :=
  s.frame (.qscrub f) f 0x02 (if bitOf (f.w 4) 0 then .any else .notOther) 0 true fun f s =>
    if bitOf (f.w 4) 0 then { s with frets := f.frets.foldl (fun t x => tdel t x) s.frets }
    else f.frets.foldl (fun s x =>
      let fr := s.fret x
      s.setFret x { q := f.vecs.foldl tdel fr.q, v := f.vecs.foldl tdel fr.v }) s

/-! ## Scoring extents (03 R80, R83 to R86, R89) -/

/-- The extent lies in its domain, its row format is one a fret takes, and ZP says of zero points what RFMT says (02 R36, R37; log entry 119, DEDUCED). -/
def Extent'.fits (e : Extent') : Bool :=
  e.rec'.elem.fretRow && e.zp == e.rec'.elem.zp && decide (e.dca * 32 + e.rows * e.stride ≤ fretBytes) && decide (e.rows ≤ 2 ^ 24) &&
    decide (1 ≤ e.stride ∧ e.stride ≤ 8192) && decide (e.rec'.rowLen ≤ e.stride) && e.rec'.dim != 0 && decide (e.rec'.dim ≤ 4096)

/-- Offsets of row n and of its scale entry. -/
def Extent'.rowOff (e : Extent') (n : Nat) : Nat := e.dca * 32 + n * e.stride
def Extent'.scaleOff (e : Extent') (n : Nat) : Nat := e.scaleDca * 32 + n * e.rec'.entryBytes

/-- Bytes of row n and of its scale entry, at the extent's edition (03 R97). -/
def State.extRow (s : State) (f : Nat) (e : Extent') (n : Nat) : List Byte × List Byte :=
  (s.rowBytes f (e.rowOff n) e.rec'.rowLen e.edition,
    if e.rec'.perRow then s.rowBytes f (e.scaleOff n) e.rec'.entryBytes e.edition else [])

/-- Row n, or its scale entry, cannot be read (03 R107). -/
def State.extBad (s : State) (f : Nat) (e : Extent') (n : Nat) : Bool :=
  s.poisonedRow f (s.rowPlace f (e.rowOff n) e.edition) e.rec'.rowLen ||
    (e.rec'.perRow && s.poisonedRow f (s.rowPlace f (e.scaleOff n) e.edition) e.rec'.entryBytes)

/-- A further score enters the running maximum and sums (03 R83). -/
def Sums.push (t : Sums) (x : F32) : Sums :=
  let up := F32.lt t.m x
  let m := if up then x else t.m
  let base := fun (a : F32) => if up then (if t.m == f32Neg then 0 else F32.mul a (expTerm t.m m)) else a
  { t with m := m, lo := F32.min t.lo x, sigma := F32.add (base t.sigma) (expTerm x m), tau := base t.tau, n := sat32 (t.n + 1) }

/-- Best first: score descending, position ascending (03 R83). -/
def better (a b : Nat × F32) : Bool := F32.lt b.2 a.2 || (a.2 == b.2 && a.1 ≤ b.1)

/-- Entry into a local list of so many; what it displaces adds to τ. Log entry 121, DEDUCED. -/
def VecSt.pushList (v : VecSt) (len : Nat) (x : Nat × F32) : VecSt :=
  let l := insertBy better x v.list
  match l.drop len with
  | [] => { v with list := l }
  | d :: _ => { v with list := l.take len, sums := { v.sums with tau := F32.add v.sums.tau (expTerm d.2 v.sums.m) } }

/-- Bin of a score under a 16-byte record (03 R84). -/
def binOf (keyLo shift : Nat) (x : F32) : Nat := if F32.key x < keyLo then 0 else min 255 ((F32.key x - keyLo) >>> shift)

/-- A score enters its bin: count and sum of e^(s − M). -/
def pushBin (h : Tab Bin) (r : List Byte) (x : F32) : Tab Bin :=
  let b := binOf (le32 r 0) (byteAt r 4) x
  let o := tgetD h b { count := 0, sum := 0 }
  tset h b { count := sat32 (o.count + 1), sum := F32.add o.sum (expTerm x (BitVec.ofNat 32 (le32 r 8))) }

/-- One score of one vector under the strum's mode (03 R83, R84). -/
def VecSt.take (v : VecSt) (mode len : Nat) (r : List Byte) (pos : Nat) (x : F32) : VecSt :=
  let v := { v with sums := v.sums.push x }
  match mode with
  | 0 => v.pushList len (pos, x)
  | 1 => if v.sums.overflow then v else { v with buffer := v.buffer ++ [(pos, x)] }
  | 2 => { v with hist := pushBin v.hist r x }
  | _ => if binOf (le32 r 0) (byteAt r 4) x ≥ byteAt r 5 then { v with emit := v.emit ++ [(pos, x)] } else v

/-- A flaw met at a column a fret reads: corrected; the rows that lie in it poisoned; or the domain failed (03 R107). Log entry 203, DESIGN CHOICE. -/
def State.meetFlaw (s : State) (rows : List (Nat × Nat)) (x : Flaw) : State :=
  match x.kind with
  | .single => s.correct x.fret x.col 1 x.symbol
  | .double => s.uncorrect x.fret x.col rows
  | .parity => s.fretFault x.fret
  | .tag => s

/-- Runs of bytes that lie in a column. -/
def runsAt (l : List (Nat × Nat)) (col : Nat) : List (Nat × Nat) := dedupRuns (l.filter fun r => runsMeet r (col * 32, 32))
where
  dedupRuns (l : List (Nat × Nat)) : List (Nat × Nat) := l.foldl (fun a r => if a.contains r then a else a ++ [r]) []

/-- The runs of bytes of a domain that row n of an extent is read from: the row's own, and its scale entry's. -/
def State.extRuns (s : State) (f : Nat) (e : Extent') (n : Nat) : List (Nat × Nat) :=
  (s.rowPlace f (e.rowOff n) e.edition, e.rec'.rowLen) :: if e.rec'.perRow then [(s.rowPlace f (e.scaleOff n) e.edition, e.rec'.entryBytes)] else []

/-- The flaws of the domains a frame addresses, met as it reads the rows `ns` of its extent. -/
def State.meetFlaws (s : State) (f : Frame) (ns : List Nat) (flaws : List Flaw) : State :=
  (flaws.filter fun x => f.frets.contains x.fret).foldl (fun t x =>
    t.meetFlaw (if x.kind == .double then runsAt ((ns.map fun n => s.extRuns x.fret f.extent n).flatten) x.col else []) x) s

/-- What a fret reads where a row stands: nothing, since it cannot be corrected; a row that 02 R45 rejects; or a row. -/
inductive RowRead where
  | lost
  | rejected
  | row (d : RowDec)
deriving DecidableEq, Repr

def State.extRead (s : State) (f : Nat) (e : Extent') (n : Nat) : RowRead :=
  if s.extBad f e n then .lost
  else
    let x := s.extRow f e n
    match e.rec'.read x.1 x.2 with
    | none => .rejected
    | some d => .row d

/-- The scaled score of a row that has been read (03 R77). −0 reads as +0 (05 R134). -/
def Extent'.score (e : Extent') (tag f v n : Nat) (q : Query) (d : RowDec) : F32 := F32.posZero (F32.mul (e.rec'.score tag [f, v, n] q d) e.tau)

/-- The query a vector holds; a vector that no QLOAD filled is empty. -/
def Fret.query (x : Fret) (v : Nat) : Query := (tgetD x.q v { ctx := 0, fmt := 9, vlen := 0, group := 0, fp16 := false, elems := [], side := [] }).query

/-- Scores the buffer of a fret still holds when a strum begins (03 R75). -/
def Fret.buffered (x : Fret) (f : Frame) : Nat :=
  sumList (x.v.map fun e => if f.vecs.contains e.1 && !bitOf (f.w 6) 28 then 0 else e.2.buffer.length)

/-- A strum in BUFFER mode overflows the score buffer of a fret (03 R75, R85). That scores which CONT or another vector keeps there count with those of the strum is log entry 177, DESIGN CHOICE. -/
def Fret.tooMany (x : Fret) (f : Frame) : Bool := f.g 6 27 26 == 1 && decide (x.buffered f + f.extent.rows * f.vecs.length > 4096)

/-- The rows of an extent as a fret reads them, each once. -/
def State.extReads (s : State) (f : Frame) (x : Nat) : List (Nat × RowRead) := (List.range f.extent.rows).map fun n => (n, s.extRead x f.extent n)

/-- The strum of one fret: every row, every vector. CONT 0 clears the whole state of a vector, its accumulator and readied entries with it (log entry 178, DESIGN CHOICE). -/
def strumFret (fr : Fret) (tag : Nat) (f : Frame) (x : Nat) (rows : List (Nat × RowRead)) : Fret :=
  let e := f.extent
  let full := fr.tooMany f
  f.vecs.zipIdx.foldl (fun fr vi =>
    let v := vi.1
    let q := fr.query v
    let r := f.vecRec vi.2
    let st := if bitOf (f.w 6) 28 then fr.vec v else VecSt.reset
    let st := if full then { st with sums := { st.sums with overflow := true }, buffer := [] } else st
    let st := rows.foldl (fun st y =>
      match y.2 with
      | .lost => { st with sums := { st.sums with bad := sat16 (st.sums.bad + 1) } }
      | .rejected => { st with sums := { st.sums with rejected := sat16 (st.sums.rejected + 1) } }
      | .row d => st.take (f.g 6 27 26) (f.g 7 22 16) r (e.pos + y.1) (e.score tag x v y.1 q d)) st
    fr.setVec v st) fr

/-- Rows 02 R45 rejects among what was read, each counted once. -/
def rejectedRows (l : List (Nat × RowRead)) : Nat := (l.filter fun y => y.2 == .rejected).length
def lostRows (l : List (Nat × RowRead)) : Nat := (l.filter fun y => y.2 == .lost).length

/-- Strokes of a strum on one fret: the columns of its extent. -/
def Extent'.strokes (e : Extent') : Nat :=
  if e.rows == 0 then 0 else ((e.dca * 32 + (e.rows - 1) * e.stride + e.rec'.rowLen - 1) / 32) + 1 - e.dca

/-- Columns row n of an extent takes. -/
def Extent'.colsOf (e : Extent') (n : Nat) : Nat :=
  let o := e.rowOff n
  (o + e.rec'.rowLen - 1) / 32 + 1 - o / 32

/-- The host command of a frame ends where a fret met a parity error or a row it could not read (03 R107). -/
def State.afterRows (s : State) (f : Frame) (flaws : List Flaw) (lost : Bool) : State :=
  let mine := flaws.filter fun x => f.frets.contains x.fret
  if mine.any fun x => x.kind == .parity then s.failHost f.ctx stMedia 0x0945
  else if lost then (s.bump (pSbc (f.stack % 12) + 0x080) (b2n (s.atWork f.ctx).isSome)).failHost f.ctx stMedia 0x0941 else s

/-- The frame's own effect; dies it fences are restored by the frame's meaning. LIST_LEN is held to its range in the mode that uses it (log entry 119, DEDUCED). -/
def strumGo (f : Frame) (flaws : List Flaw) (s : State) : Answer :=
  s.frame (.strum f flaws) f 0x10 .loaded 0 (f.extent.fits && (f.g 6 27 26 != 0 || decide (1 ≤ f.g 7 22 16 ∧ f.g 7 22 16 ≤ 64))) fun f s =>
    let s := s.meetFlaws f (List.range f.extent.rows) flaws
    let tag := 2 ^ 40 + s.free
    let reads := f.frets.map fun x => (x, s.extReads f x)
    let full := reads.any fun r => (s.fret r.1).tooMany f
    let lost := reads.any fun r => lostRows r.2 != 0
    let rej := sumList (reads.map fun r => rejectedRows r.2)
    let s := reads.foldl (fun s r => s.setFret r.1 (strumFret (s.fret r.1) tag f r.1 r.2)) s
    let s := { s with free := s.free + 1 }
    let s := s.bumps [(pSbc (f.stack % 12) + 0x040, f.extent.strokes * f.frets.length), (pSbc (f.stack % 12) + 0x088, b2n full), (pPeg + 0x048, rej)]
    s.afterRows f flaws lost

/-- One result entry of a pluck (03 R89). -/
def pluckEntry (score : F32) (i v st : Nat) : List Byte := leBytes 4 score.toNat ++ leBytes 2 i ++ leBytes 1 v ++ leBytes 1 st

def State.pluckReads (s : State) (f : Frame) (x : Nat) : List (Nat × Option RowRead) :=
  f.pluckRows.map fun r => (r, if r < f.extent.rows then some (s.extRead x f.extent r) else none)

/-- The entries of one fret, in payload order, vectors ascending. -/
def pluckFret (fr : Fret) (tag : Nat) (f : Frame) (x : Nat) (reads : List (Nat × Option RowRead)) : List Byte :=
  (reads.zipIdx.map fun y => (f.vecs.map fun v =>
    match y.1.2 with
    | none => pluckEntry f32Neg y.2 v 1
    | some .lost => pluckEntry f32Neg y.2 v 3
    | some .rejected => pluckEntry f32Neg y.2 v 2
    | some (.row d) => pluckEntry (f.extent.score tag x v y.1.1 (fr.query v) d) y.2 v 0).flatten).flatten

/-- The frame's own effect; dies it fences are restored by the frame's meaning. Its results return in space reserved for them (01 R29). -/
def pluckGo (f : Frame) (flaws : List Flaw) (s : State) : Answer :=
  s.frame (.pluck f flaws) f 0x11 .loaded (8 * f.pluckRows.length * f.vecs.length) f.extent.fits fun f s =>
    let s := s.meetFlaws f (f.pluckRows.filter (· < f.extent.rows)) flaws
    let tag := 2 ^ 40 + s.free
    let reads := f.frets.map fun x => (x, s.pluckReads f x)
    let got := reads.map fun r => (r.1, r.2.filterMap fun y => y.2.map fun z => (y.1, z))
    let out : List Xfer := reads.map fun r => { seq := f.seq, chan := chanOf r.1, data := pluckFret (s.fret r.1) tag f r.1 r.2 }
    let s := { s with free := s.free + 1, sbc := s.sbc.putReads (f.stack % 12) out }
    let cols := sumList (f.pluckRows.map fun r => if r < f.extent.rows then f.extent.colsOf r else 0)
    let s := s.bumps [(pSbc (f.stack % 12) + 0x040, cols * f.frets.length), (pPeg + 0x048, sumList (got.map fun r => rejectedRows r.2))]
    s.afterRows f flaws (got.any fun r => lostRows r.2 != 0)

/-! ## HIST, LIST, EXPSUM (03 R81, R84 to R86) -/

/-- Each named vector of each addressed fret changes by `g`, given its place in VMASK. -/
def State.eachVec (s : State) (f : Frame) (g : VecSt → Nat → VecSt) : State :=
  f.frets.foldl (fun s x => s.setFret x (f.vecs.zipIdx.foldl (fun fr vi => fr.setVec vi.1 (g (fr.vec vi.1) vi.2)) (s.fret x))) s

/-- The buffer in bins under a record, whose SHIFT and reserved bytes are taken as they stand (log entry 180, DESIGN CHOICE). -/
def VecSt.bins (st : VecSt) (r : List Byte) : VecSt :=
  if st.sums.overflow then st else { st with hist := st.buffer.foldl (fun h e => pushBin h r e.2) [], binRec := r.map (·.toNat) }

def histGo (f : Frame) (s : State) : Answer :=
  s.frame (.hist f) f 0x12 .loaded 0 true fun f s => s.eachVec f fun st i => st.bins (f.vecRec i)

/-- Buffered entries in bins from BIN_MIN up, under the record of the last HIST (03 R81, R85). -/
def VecSt.selected (v : VecSt) : List (Nat × F32) :=
  if v.sums.overflow then []
  else
    let r : List Byte := v.binRec.map (BitVec.ofNat 8)
    v.buffer.filter fun e => binOf (le32 r 0) (byteAt r 4) e.2 ≥ byteAt r 5

def listGo (f : Frame) (s : State) : Answer :=
  s.frame (.list f) f 0x13 .loaded 0 true fun f s => s.eachVec f fun st _ =>
    { st with emit := if bitOf (f.w 4) 0 then st.selected else st.list, listed := some st.sums }

/-- Forms the sums record that the next STRING carries; what a later strum adds needs a further EXPSUM (03 R81, R86). -/
def expsumGo (f : Frame) (s : State) : Answer :=
  s.frame (.expsum f) f 0x14 .loaded 0 true fun f s => s.eachVec f fun st _ => { st with record := some st.sums }

/-! ## VACC (03 R90) -/

/-- A value row as a fret decodes it: lost, rejected, or its values. -/
def State.vaccRead (s : State) (f : Frame) (x p : Nat) : Option (Option (List F32)) :=
  if (f.vaccRuns p).any fun r => s.poisonedRow x r.1 r.2 then none
  else
    let r := f.vaccRec
    let sc := (List.range r.dim).map fun c => leNat (s.hbmRead x (f.g 7 20 0 * 32 + r.tokenOff (p / max 1 r.group) c) (scaleBytes r.fp16))
    some (r.decodeToken sc (s.hbmRead x (f.g 4 20 0 * 32 + p * (4 * f.g 5 11 0)) r.elemBytes))

/-- Adds the weighted value rows of a payload to the accumulators of one fret. Log entry 122, DEDUCED. -/
def vaccFret (fr : Fret) (f : Frame) (rows : List (Option (List F32))) : Fret :=
  f.vecs.zipIdx.foldl (fun fr vi =>
    let st := fr.vec vi.1
    let acc0 := if st.accLive then st.acc else List.replicate f.vaccRec.dim 0
    let acc := rows.zipIdx.foldl (fun acc y =>
      match y.1 with
      | none => acc
      | some vs => (acc.zip vs).map fun a => F32.add a.1 (F32.mul (f.vaccWeight y.2 vi.2) a.2)) acc0
    fr.setVec vi.1 { st with acc := acc, accLive := true }) fr

/-- Accumulator elements a fret holds for vectors the frame does not name (03 R75). -/
def Fret.accOthers (x : Fret) (f : Frame) : Nat := sumList (x.v.map fun e => if e.2.accLive && !f.vecs.contains e.1 then e.2.acc.length else 0)

/-- Dies it fences are restored by the frame's meaning. A VACC whose accumulators do not fit with those that stand in the fret's 2,048 elements is refused (log entry 181, DESIGN CHOICE). -/
def vaccGo (f : Frame) (flaws : List Flaw) (s : State) : Answer :=
  let fm := Fmt.ofCode (f.g 5 15 12)
  let own := f.vecs.length * f.g 6 12 0
  s.frame (.vacc ⟨f, flaws⟩) f 0x18 .loaded 0 (fm.fretRow && !fm.zp && decide (own ≤ 2048) && f.g 5 23 16 != 0 &&
      f.frets.all fun x => decide ((s.fret x).accOthers f + own ≤ 2048)) fun f s =>
    let mine := flaws.filter fun x => f.frets.contains x.fret
    let runs := (f.vaccRows.map f.vaccRuns).flatten
    let s := mine.foldl (fun s x => s.meetFlaw (runsAt runs x.col) x) s
    let reads := f.frets.map fun x => (x, f.vaccRows.map fun p => s.vaccRead f x p)
    if (mine.any fun x => x.kind == .parity) || reads.any fun r => r.2.contains none then
      s.afterRows f flaws true
    else
      let rows := reads.map fun r => (r.1, r.2.map fun y => y.getD none)
      let s := s.bump (pPeg + 0x048) (sumList (rows.map fun r => (r.2.filter (·.isNone)).length))
      rows.foldl (fun s r => s.setFret r.1 (vaccFret (s.fret r.1) f r.2)) s

/-! ## STRING (03 R88, R91, R92) -/

/-- Two sums records combine (03 R88 KIND 0). -/
def Sums.join (a b : Sums) : Sums :=
  let m := F32.max a.m b.m
  let re := fun (x y : F32) =>
    F32.add (if a.m == f32Neg then 0 else F32.mul x (expTerm a.m m)) (if b.m == f32Neg then 0 else F32.mul y (expTerm b.m m))
  { m := m, lo := F32.min a.lo b.lo, sigma := re a.sigma b.sigma, tau := re a.tau b.tau, n := sat32 (a.n + b.n),
    rejected := sat16 (a.rejected + b.rejected), bad := sat16 (a.bad + b.bad), overflow := a.overflow || b.overflow }

/-- The 32-byte sums record of a vector (03 R86). -/
def Sums.bytes (t : Sums) (v : Nat) : List Byte :=
  leBytes 4 t.m.toNat ++ leBytes 4 t.lo.toNat ++ leBytes 4 t.sigma.toNat ++ leBytes 4 t.tau.toNat ++ leBytes 4 t.n ++
    leBytes 2 t.rejected ++ leBytes 2 t.bad ++ leBytes 1 v ++ leBytes 1 (b2n t.overflow) ++ zeros 6

/-- Two histograms combine (03 R88 KIND 1). -/
def joinHist (a b : Tab Bin) : Tab Bin :=
  b.foldl (fun h e => let o := tgetD h e.1 { count := 0, sum := 0 }
    tset h e.1 { count := sat32 (o.count + e.2.count), sum := F32.add o.sum e.2.sum }) a

def histBytes (h : Tab Bin) : List Byte :=
  ((List.range 256).map fun i => let b := tgetD h i { count := 0, sum := 0 }; leBytes 4 b.count ++ leBytes 4 b.sum.toNat).flatten

/-- Two lists with their sums combine (03 R88 KIND 2). -/
def joinList (len : Nat) (a b : Sums × List (Nat × F32)) : Sums × List (Nat × F32) :=
  let t := a.1.join b.1
  let l := b.2.foldl (fun l e => insertBy better e l) a.2
  ({ t with tau := (l.drop len).foldl (fun x d => F32.add x (expTerm d.2 t.m)) t.tau }, l.take len)

/-- One vector's group of an emit: a header beat, then entries of 8 bytes (03 R88 KIND 3). -/
def emitBytes (v : Nat) (l : List (Nat × F32)) : List Byte :=
  leBytes 1 v ++ zeros 3 ++ leBytes 4 l.length ++ zeros 24 ++ padTo 32 ((l.map fun e => leBytes 4 e.1 ++ leBytes 4 e.2.toNat).flatten)

/-- What a STRING of a kind delivers at the string end of a die. A merged list goes out as the sums record and the list laid out as an emit group (log entry 182, DESIGN CHOICE). -/
def State.stringOut (s : State) (f : Frame) : List Byte :=
  let frs := f.dieFrets.map fun x => s.fret x
  (f.vecs.map fun v =>
    let vs := frs.map fun x => x.vec v
    match f.g 4 2 0 with
    | 0 => ((vs.map fun x => x.record.getD Sums.reset).foldl Sums.join Sums.reset).bytes v
    | 1 => histBytes ((vs.map (·.hist)).foldl joinHist [])
    | 2 =>
      let r := (vs.map fun x => match x.listed with
        | some t => (t, x.emit)
        | none => (Sums.reset, [])).foldl (joinList (f.g 4 22 16)) (Sums.reset, [])
      r.1.bytes v ++ emitBytes v r.2
    | 3 => emitBytes v ((vs.map (·.emit)).flatten)
    | _ =>
      let n := maxList (vs.map fun x => x.acc.length)
      let z : List F32 := List.replicate n 0
      let sum := vs.foldl (fun a x => if x.acc.isEmpty then a else (a.zip (x.acc ++ List.replicate (n - x.acc.length) 0)).map fun p => F32.add p.1 p.2) z
      (sum.map fun y => leBytes 4 y.toNat).flatten).flatten

/-- What a STRING of a kind takes with it. -/
def VecSt.sent (v : VecSt) : Nat → VecSt
  | 0 => { v with record := none }
  | 2 | 3 => { v with emit := [], listed := none }
  | 4 => { v with accLive := false }
  | _ => v

/-- Log entry 123, DEDUCED. -/
def stringGo (f : Frame) (s : State) : Answer :=
  s.frame (.string f) f 0x20 .notOther 0 (decide (f.g 4 2 0 ≤ 4) && (f.g 4 2 0 != 2 || decide (1 ≤ f.g 4 22 16 ∧ f.g 4 22 16 ≤ 64))) fun f s =>
    let out := s.stringOut f
    let s := { s with sbc := s.sbc.putString f.dieKey f.seq (s.stringChan f.dieKey) out }
    { s with frets := s.frets.map fun e =>
        if f.dieFrets.contains e.1 then
          (e.1, { e.2 with v := e.2.v.map fun x => (x.1, if f.vecs.contains x.1 then x.2.sent (f.g 4 2 0) else x.2) })
        else e }

/-! ## STAGE_WRITE, COMMIT_ROW (03 R95 to R97) -/

/-- A copy decodes the columns it reads (03 R107). -/
def stageWriteGo (f : Frame) (flaws : List Flaw) (s : State) : Answer :=
  let n := f.g 5 8 0
  let dca := f.g 4 20 0
  let inArea := f.frets.all fun x => decide (s.stageBase x ≤ dca) && decide (dca + n ≤ fretCols)
  let copy := bitOf (f.w 5) 17
  s.frame (.stageWrite ⟨f, flaws⟩) f 0x30 .any 0 (inArea && decide (1 ≤ n ∧ n ≤ 256) && (!copy || decide (f.g 6 20 0 + n ≤ fretCols))) fun f s =>
    let mine := if copy then flaws.filter fun x => f.frets.contains x.fret && decide (f.g 6 20 0 ≤ x.col) && decide (x.col < f.g 6 20 0 + n) else []
    let s := mine.foldl (fun s x => s.meetFlaw [(f.g 6 20 0 * 32, 32 * n)] x) s
    if (mine.any fun x => x.kind == .parity) || (copy && f.frets.any fun x => s.poisonedRow x (f.g 6 20 0 * 32) (32 * n)) then s.afterRows f mine true
    else f.frets.foldl (fun s x =>
      let d := if copy then s.hbmRead x (f.g 6 20 0 * 32) (32 * n) else slice f.payload 0 (32 * n)
      s.hbmWrite x (dca * 32) (if bitOf (f.w 5) 16 then 2 else 1) d) s

/-- Verify of staged columns: a single error is corrected; a double or tag error is a mismatch (03 R96). -/
def State.verifyCols (s : State) (x col n : Nat) (flaws : List Flaw) : State × Bool :=
  let mine := flaws.filter fun y => y.fret == x && decide (col ≤ y.col) && decide (y.col < col + n)
  let s := (mine.filter fun y => y.kind == .single).foldl (fun s y => s.meetFlaw [] y) s
  let inj := s.armed (pSbc (stackOf x)) 2
  let bad := inj || s.poisonedRow x (col * 32) (n * 32) || mine.any fun y => y.kind == .double || y.kind == .tag
  if bad then
    ((s.verifyMiss x col).disarm (pSbc (stackOf x)) 2, true)
  else (s, false)

/-- The frame's own effect; dies it fences are restored by the frame's meaning. -/
def commitRowGo (f : Frame) (flaws : List Flaw) (s : State) : Answer :=
  let n := f.g 6 8 0
  let stage := f.g 4 20 0
  let base := f.g 5 20 0
  let publish := bitOf (f.w 6) 12
  let room := f.frets.all fun x => decide (s.ovlCount x < 256)
  s.frame (.commitRow f flaws) f 0x31 .any 0 (decide (1 ≤ n) && decide (stage + n ≤ fretCols) && decide (base + n ≤ fretCols) && (!publish || room)) fun f s =>
    if publish then
      f.frets.foldl (fun s x =>
        s.publishRow none { fret := x, base := base, stage := stage, cols := n, first := 0, len := 32 * n, parts := [(0, 32 * n)] } (f.w 10 + f.w 11 * 2 ^ 32)) s
    else
      let r := f.frets.foldl (fun (a : State × Bool) x => let v := a.1.verifyCols x stage n flaws; (v.1, a.2 || v.2)) (s, false)
      let parity := flaws.filter fun y => y.kind == .parity && f.frets.contains y.fret
      let s := parity.foldl (fun s y => s.meetFlaw [] y) r.1
      if !parity.isEmpty then s.failHost f.ctx stMedia 0x0945
      else if r.2 then s.failHost f.ctx stEcc 0 else s

end Sys2Proof.Machine
end

