-- ==== Sys2Proof/Machine/Select.lean ====
section
/-! DEFINITION. Selection and merging: candidates, the list path, the histogram path, ties, duplicates, merges, blocks (spec 05 R133 to R161). -/

namespace Sys2Proof.Machine

/-- An entry that reaches `SEL` one by one: candidate ID, scaled score, source index of R155. -/
structure Cand where
  id : Nat
  score : F32
  src : Nat
deriving DecidableEq, Repr

/-- The scores one fret strummed for a vector, in strum order. -/
structure Strummed where
  fret : Nat
  scores : List (Nat × F32)
deriving DecidableEq, Repr

/-- What one selection yields: the block, what it counts, copies dropped, and whether the strings' counts do not sum to the scores strummed (05 R142). -/
structure SelOut where
  block : SelBlock
  bumps : List (Nat × Nat)
  bucket : Nat
  dropped : Nat
  miscount : Bool
deriving DecidableEq, Repr

def nullId : Nat := 0xFFFFFFFFFFFFFFFF

/-- Rank order (05 R134), then the source index of R155. -/
def ranks (a b : Cand) : Bool :=
  F32.lt b.score a.score || (a.score == b.score && (decide (a.id < b.id) || (a.id == b.id && decide (a.src ≤ b.src))))

def sortRank (l : List Cand) : List Cand := sortBy ranks l

/-- Scores of two copies disagree (05 R155). -/
def disagrees (a b : F32) : Bool :=
  Dy.lt ((Dy.max (F32.val a).abs (F32.val b).abs).scale (-8)) ((F32.val a).add (F32.val b).neg').abs

/-- Splits a rank-ordered list into the first copy of each ID and the copies dropped with whether their scores disagree. -/
def dedupRank : List Cand → List Cand × List (Cand × Bool)
  | [] => ([], [])
  | c :: r =>
    let d := dedupRank r
    ((c :: d.1.filter fun x => x.id != c.id), (d.1.filterMap fun x => if x.id == c.id then some (x, disagrees c.score x.score) else none) ++ d.2)

/-- Counters of one block (05 SEL counters). -/
def blockBumps (b : SelBlock) (valid k dropped disagree : Nat) : List (Nat × Nat) :=
  [(pSel + 0x040, 1), (pSel + 0x060, b.flags % 2), (pSel + 0x068, b2n (b.ties != 0)), (pSel + 0x070, b2n (decide (valid < k))),
   (pSel + 0x078, dropped), (pSel + 0x080, disagree)]

def emptyBlock : SelBlock :=
  { m := f32Neg, sSel := 0, sOut := 0, ties := 0, scanned := 0, flags := 0, disagree := 0, dedup := 0, entries := [] }

/-- A block that counts nothing. -/
def SelOut.of (b : SelBlock) : SelOut := { block := b, bumps := [], bucket := 0, dropped := 0, miscount := false }

/-- Assembles a block from the entries returned and the terms left out (05 R137, R148, R153). -/
def mkBlock (tag : Nat) (at' : List Nat) (m : F32) (ret : List Entry) (out : List F32) (ties scanned flags : Nat) (dropped : List (Cand × Bool)) :
    SelBlock :=
  let dis := (dropped.filter (·.2)).length
  { m := m, sSel := fsum tag (at' ++ [1]) (ret.map fun e => expTerm e.score m), sOut := fsum tag (at' ++ [2]) out, ties := sat32 ties,
    scanned := sat32 scanned, flags := flags + (if dropped.isEmpty then 0 else 4) + (if dis == 0 then 0 else 8), disagree := sat8 dis,
    dedup := sat16 dropped.length, entries := ret }

def entryOf (ef : Nat) (c : Cand) : Entry := { id := c.id, score := c.score, ef := ef }

/-- Ties of the k-th entry among those left: appended entries, those still left (05 R148). -/
def tieSplit (sk : Option F32) (t : Nat) (rest : List Cand) : List Cand × List Cand :=
  match sk with
  | none => ([], rest)
  | some x =>
    let tied := rest.filter fun c => c.score == x
    (tied.take t, rest.filter fun c => !(tied.take t).contains c)

/-- Log entry 89, DEDUCED. -/
def strumCands (l : List Strummed) : List Cand := ((l.map fun p => p.scores).flatten.zipIdx).map fun e => ⟨e.1.1, e.1.2, e.2⟩

/-- The smallest shift of 05 R141. -/
def histShift (d : Nat) : Nat := ((List.range 25).find? fun k => d >>> k ≤ 255).getD 24

/-- The boundary bin of 05 R142 for counts given by bin. -/
def boundaryBin (bins : List Nat) (k : Nat) : Nat :=
  if bins.length ≤ k then 0
  else ((List.range 256).reverse.find? fun b => k ≤ (bins.filter fun c => decide (b ≤ c)).length).getD 0

/-- Drops copies at or above the boundary bin and derives the bin again until no copy is left (05 R155, R156; log entry 40, DEDUCED). -/
def settle (bin : F32 → Nat) (k : Nat) : Nat → List Cand → List Cand → List (Cand × Bool) → Nat × List Cand × List Cand × List (Cand × Bool)
  | 0, strum, ex, dr => (0, sortRank (strum ++ ex), [], dr)
  | f + 1, strum, ex, dr =>
    let bmin := boundaryBin ((strum ++ ex).map fun c => bin c.score) k
    let d := dedupRank (sortRank ((strum ++ ex).filter fun c => decide (bmin ≤ bin c.score)))
    let low := ex.filter fun c => decide (bin c.score < bmin)
    let lowDrop := low.filterMap fun c => (d.1.find? fun h => h.id == c.id).map fun h => (c, disagrees h.score c.score)
    let gone := d.2 ++ lowDrop
    let keep := fun l : List Cand => l.filter fun c => !(gone.any fun g => g.1 == c)
    if gone.isEmpty then (bmin, d.1, low, dr) else settle bin k f (keep strum) (keep ex) (dr ++ gone)

/-- The string bin sums of one die under M (03 R84, R88). -/
def dieBins (rec' : List Byte) (l : List Strummed) : Tab Bin :=
  (l.map fun p => p.scores.foldl (fun h e => pushBin h rec' e.2) []).foldl joinHist []

def byDie (l : List Strummed) : List (List Strummed) :=
  (dedupNat (l.map fun p => dieOf p.fret)).map fun d => l.filter fun p => dieOf p.fret == d

/-- The histogram path (05 R141 to R148, R153). -/
def histPath (tag : Nat) (at' : List Nat) (k t : Nat) (strum : List Strummed) (ex : List Cand) : SelOut :=
  let sc := strumCands strum
  let all := sc ++ ex
  let m := all.foldl (fun a c => F32.max a c.score) f32Neg
  let lo := all.foldl (fun a c => F32.min a c.score) f32Pos
  let sh := histShift (F32.key m - F32.key lo)
  let bin := binOf (F32.key lo) sh
  let (bmin, hi, low, dropped) := settle bin k 258 sc ex []
  let small := decide ((sc.length + ex.length - dropped.length) ≤ k)
  let boundary := if small then [] else hi.filter fun c => bin c.score == bmin
  let approx := decide (boundary.length > 4096)
  let above := hi.filter fun c => !boundary.contains c
  let need := k - above.length
  let pick := if approx then (sortBy (fun a b => decide (a.id ≤ b.id)) boundary).take need else boundary.take need
  let chosen := sortRank (above ++ pick)
  let rest := hi.filter fun c => !chosen.contains c
  let sk := if decide (chosen.length < k) || approx then none else (chosen.getLast?).map (·.score)
  let (tied, left) := tieSplit sk t rest
  let ties := match sk with
    | some x => (left.filter fun c => c.score == x).length
    | none => 0
  let ret := chosen.map (fun c => entryOf (if approx && pick.contains c then 2 else 0) c) ++ tied.map (entryOf 1)
  let rec' := leBytes 4 (F32.key lo) ++ leBytes 1 sh ++ leBytes 1 bmin ++ zeros 2 ++ leBytes 4 m.toNat ++ zeros 4
  let strings := (byDie strum).map (dieBins rec')
  let bins := (strings.map fun d => (d.filter fun b => decide (b.1 < bmin)).map fun b => b.2.sum).flatten
  let out := bins ++ low.map (fun c => expTerm c.score m) ++ left.map (fun c => expTerm c.score m)
  let b := mkBlock tag at' m ret out ties (all.length - dropped.length) (b2n approx) dropped
  { block := b, bumps := blockBumps b chosen.length k dropped.length (dropped.filter (·.2)).length ++ [(pSel + 0x048, 1)], bucket := boundary.length,
    dropped := dropped.length, miscount := sumList ((strings.map fun d => d.map fun b => b.2.count).flatten) != sc.length }

/-- One die's list and sums on the list path (03 R83, R88, 05 R146). -/
def dieList (l : List Strummed) : Sums × List (Nat × F32) :=
  (l.map fun p =>
    let v := p.scores.foldl (fun v e => v.take 0 64 [] e.1 e.2) VecSt.reset
    (v.sums, v.list)).foldl (joinList 64) (Sums.reset, [])

/-- The list path (05 R146, R147, R153); none when it falls back. -/
def listPath (tag : Nat) (at' : List Nat) (k : Nat) (strum : List Strummed) (ex : List Cand) : Option SelOut :=
  let dies := (byDie strum).map dieList
  let d := dedupRank (sortRank ((dies.map fun x => x.2.map fun e => (⟨e.1, e.2, 0⟩ : Cand)).flatten ++ ex))
  let chosen := d.1.take k
  let rest := d.1.drop k
  let sk := if decide (chosen.length < k) then none else (chosen.getLast?).map (·.score)
  let full := dies.any fun x => decide (x.2.length ≥ 64) && ((x.2.getLast?).map (·.2)) == sk && sk.isSome
  if full then none
  else
    let m := (dies.map fun x => x.1.m).foldl F32.max (ex.foldl (fun a c => F32.max a c.score) f32Neg)
    let tails := dies.map fun x => if x.1.m == f32Neg then 0 else F32.mul x.1.tau (expTerm x.1.m m)
    let ties := match sk with
      | some x => (rest.filter fun c => c.score == x).length
      | none => 0
    let n := sumList (dies.map fun x => x.1.n) + ex.length - d.2.length
    let b := mkBlock tag at' m (chosen.map (entryOf 0)) (tails ++ rest.map fun c => expTerm c.score m) ties n 0 d.2
    some { block := b, bumps := blockBumps b chosen.length k d.2.length (d.2.filter (·.2)).length ++ [(pSel + 0x050, 1)], bucket := 0, dropped := d.2.length, miscount := false }

/-- k = 0 (05 R150): the combined sums records and the explicit terms. -/
def sumPath (tag : Nat) (at' : List Nat) (strum : List Strummed) (ex : List Cand) : SelOut :=
  let dies := (byDie strum).map fun d => (d.map fun p => p.scores.foldl (fun s e => Sums.push s e.2) Sums.reset).foldl Sums.join Sums.reset
  let m := (dies.map (·.m)).foldl F32.max (ex.foldl (fun a c => F32.max a c.score) f32Neg)
  let out := dies.map (fun x => if x.m == f32Neg then 0 else F32.mul x.sigma (expTerm x.m m)) ++ ex.map fun c => expTerm c.score m
  let b := mkBlock tag at' m [] out 0 ((strumCands strum).length + ex.length) 0 []
  { block := b, bumps := blockBumps b 0 0 0 0, bucket := 0, dropped := 0, miscount := false }

/-- Selects one vector (05 R140 to R153). `lists` is the part of R140 that does not depend on k. -/
def select (tag : Nat) (at' : List Nat) (k t : Nat) (lists : Bool) (strum : List Strummed) (given : List (Nat × F32)) : SelOut :=
  let ex : List Cand := given.zipIdx.map fun e => ⟨e.1.1, e.1.2, 2 ^ 40 + e.2⟩
  if (strum.all fun p => p.scores.isEmpty) && ex.isEmpty then
    { SelOut.of emptyBlock with bumps := blockBumps emptyBlock 0 k 0 0 }
  else if k == 0 then sumPath tag at' strum ex
  else if lists && decide (k ≤ 64) && !strum.isEmpty then
    match listPath tag at' k strum ex with
    | some r => r
    | none => let r := histPath tag at' k t strum ex; { r with bumps := r.bumps ++ [(pSel + 0x058, 1)] }
  else histPath tag at' k t strum ex

/-- `SEL_CFG.LIST_PATH` and a clear `INCLUDE_TIES` (05 R140). -/
def State.listsOk (s : State) (c : Cmd) : Bool := bitOf (s.reg32 (pSel + 0x100)) 0 && !c.ties

/-! ## Blocks in memory (05 R137, R138) -/

def Entry'.bytes (e : Entry) : List Byte := leBytes 8 e.id ++ leBytes 4 e.score.toNat ++ leBytes 1 e.ef ++ zeros 3

def padEntry : List Byte := leBytes 8 nullId ++ leBytes 4 f32Neg.toNat ++ zeros 4

def blockSize (slots : Nat) : Nat := 32 + 16 * slots

def blockBytes (b : SelBlock) (slots : Nat) : List Byte :=
  leBytes 4 b.m.toNat ++ leBytes 4 b.sSel.toNat ++ leBytes 4 b.sOut.toNat ++ leBytes 4 b.entries.length ++ leBytes 4 b.ties ++
    leBytes 4 slots ++ leBytes 4 b.scanned ++ leBytes 1 b.flags ++ leBytes 1 b.disagree ++ leBytes 2 b.dedup ++
    (b.entries.map Entry'.bytes).flatten ++ (List.replicate (slots - b.entries.length) padEntry).flatten

/-- Largest t of 05 R139 for a whole output of size `size t`. -/
def tieSlots (c : Cmd) (size : Nat → Nat) : Nat :=
  if c.ties && c.kReq != 0 then ((List.range 65).reverse.find? fun t => size t ≤ c.outLen).getD 0 else 0

/-- Valid entries but the appended ties. -/
def SelOut.plain (b : SelBlock) : Nat := (b.entries.filter fun e => !bitOf e.ef 0).length

/-- Status of a selecting command (05 R149). -/
def selStatus (k : Nat) (short : Nat) (bs : List SelBlock) : Nat :=
  if bs.any fun b => decide (SelOut.plain b < k) then short else stOk

/-- OR of the blocks' flags (05 R161). -/
def selFlags (bs : List SelBlock) : Nat := bs.foldl (fun a b => a ||| (b.flags % 16)) 0

def selResult (bs : List SelBlock) : Nat := sumList (bs.map fun b => b.entries.length)

/-- A parity error of the entry store, injected (05 SEL_ERR). -/
def State.selParity (s : State) : Except Halt Unit :=
  if s.armed pSel 0 then .error (.fail stMedia 0x0944 0 [(pSel, 0)] []) else .ok ()

/-- Bin counts of the strings that do not sum to the scores strummed end the command (05 R142; its SUBSTATUS: log entry 195, DESIGN CHOICE). -/
def selCounts (l : List SelOut) : Except Halt Unit :=
  if l.any (·.miscount) then .error (.fail stMedia 0x0944 0 [(pSel, 1)] []) else .ok ()

/-! ## Merges (05 R157, R158, R160) -/

/-- Takes rank-ordered entries until `n` distinct IDs are held: returned, copies dropped so far, the rest. -/
def mergeTake : Nat → List Cand → List Cand → List Cand × List (Cand × Bool) × List Cand
  | _, _, [] => ([], [], [])
  | n, seen, c :: r =>
    match seen.find? fun x => x.id == c.id with
    | some x => let q := mergeTake n seen r; (q.1, (c, disagrees x.score c.score) :: q.2.1, q.2.2)
    | none =>
      match n with
      | 0 => let q := mergeTake 0 seen r; (q.1, q.2.1, c :: q.2.2)
      | n + 1 => let q := mergeTake n (c :: seen) r; (c :: q.1, q.2.1, q.2.2)

/-- Merges the blocks of one query, in source order. -/
def mergeBlocks (tag : Nat) (at' : List Nat) (k t : Nat) (bs : List SelBlock) : SelOut :=
  let m := bs.foldl (fun a b => F32.max a b.m) f32Neg
  let tagged := (bs.zipIdx.map fun b => b.1.entries.map fun e => ((⟨e.id, e.score, b.2⟩ : Cand), e.ef)).flatten
  let ef := fun c : Cand => match tagged.find? fun x => x.1 == c with
    | some x => x.2
    | none => 0
  let q := mergeTake k [] (sortRank (tagged.map (·.1)))
  let sk := if k == 0 || decide (q.1.length < k) then none else (q.1.getLast?).map (·.score)
  -- ties are appended before the copies of what is returned are judged
  let tie := match sk with
    | some x => mergeTake t [] (q.2.2.filter fun c => c.score == x)
    | none => ([], [], [])
  let tiedRaw := tie.1
  let q' := mergeTake 0 tiedRaw (tie.2.2 ++ q.2.2.filter fun c => sk != some c.score)
  let dropped := q.2.1 ++ tie.2.1 ++ q'.2.1
  let left := q'.2.2
  let own := match sk with
    | some x => (left.filter fun c => c.score == x).length + sumList (bs.map fun b => if (b.entries.getLast?).map (·.score) == some x then b.ties else 0)
    | none => 0
  let unseen := bs.any fun b => b.ties != 0 && (decide (q.1.length < k) || (match sk, b.entries.getLast? with
    | some x, some e => F32.lt x e.score
    | _, _ => false))
  let flags := (if bs.any fun b => bitOf b.flags 0 then 1 else 0) + (if unseen then 2 else 0)
  let ret := q.1.map (fun c => entryOf (ef c &&& 2) c) ++ tiedRaw.map fun c => entryOf ((ef c &&& 2) ||| 1) c
  let outs := bs.filterMap fun b => if b.m == f32Neg then none else some (F32.mul b.sOut (expTerm b.m m))
  let n := sumList (bs.map (·.scanned))
  let b := mkBlock tag at' m ret (outs ++ left.map fun c => expTerm c.score m) own (n - dropped.length) flags dropped
  { block := b, bumps := blockBumps b q.1.length k dropped.length (dropped.filter (·.2)).length ++ [(pSel + 0x088, tagged.length)], bucket := 0, dropped := dropped.length, miscount := false }

/-- Reads a block at an offset of an input: its slots and itself; −0 is +0 (05 R134, R137). -/
def readBlock (l : List Byte) (o : Nat) : Nat × SelBlock :=
  let n := le32 l (o + 12)
  let slots := le32 l (o + 20)
  (slots,
    { m := BitVec.ofNat 32 (le32 l o), sSel := BitVec.ofNat 32 (le32 l (o + 4)), sOut := BitVec.ofNat 32 (le32 l (o + 8)),
      ties := le32 l (o + 16), scanned := le32 l (o + 24), flags := byteAt l (o + 28), disagree := byteAt l (o + 29),
      dedup := le16 l (o + 30),
      entries := (List.range (min n slots)).map fun i =>
        let e := o + 32 + 16 * i
        { id := le64 l e, score := F32.posZero (BitVec.ofNat 32 (le32 l (e + 8))), ef := le32 l (e + 12) } })

/-- The faults of 05 R160 in one input block; reserved bits are looked at in every entry slot. -/
def blockBad (l : List Byte) (o : Nat) : Bool :=
  let (slots, b) := readBlock l o
  decide (slots < le32 l (o + 12)) || decide (b.flags ≥ 16) ||
    ((List.range slots).any fun i => decide (le32 l (o + 32 + 16 * i + 12) ≥ 4)) ||
    (b.entries.any fun e => e.id == nullId || !F32.finite e.score) ||
    (List.range (b.entries.length - 1)).any fun i =>
      match b.entries[i]?, b.entries[i + 1]? with
      | some x, some y => F32.lt x.score y.score || (x.score == y.score && decide (y.id < x.id))
      | _, _ => false

/-- Offsets of `n` consecutive blocks; none when they do not fit the input exactly. -/
def blockOffsets (l : List Byte) : Nat → Nat → Option (List Nat)
  | 0, o => if o == l.length then some [] else none
  | n + 1, o =>
    if o + 32 > l.length then none else (blockOffsets l n (o + blockSize (le32 l (o + 20)))).map fun r => o :: r

/-- Blocks of a collective's merge as handed back: one after another, each with its own slots. -/
def blocksBytes (l : List SelBlock) : List Byte := (l.map fun b => blockBytes b b.entries.length).flatten

end Sys2Proof.Machine
end

