-- ==== Sys2Proof/Machine/Score.lean ====
section
/-! DEFINITION. What the Scoring Array computes: SCORE with distance descriptors, PROJECT, WSUM, and the shape of an operation (spec 04 R115 to R128). -/

namespace Sys2Proof.Machine

/-! ## Distance descriptors (04 R125 to R128) -/

/-- One element operation (04 R126). -/
structure Eop where
  op : Nat
  dst : Nat
  a : Nat
  b : Nat
  acc : Nat
deriving DecidableEq, Repr

structure DDesc where
  post : Nat
  ops : List Eop
  pa : F32
  pb : F32
deriving DecidableEq, Repr

def Eop.ofWord (w : Nat) : Eop := { op := fld w 15 12, dst := fld w 11 10, a := fld w 9 8, b := fld w 7 6, acc := fld w 5 4 }

/-- One operand: abs and square take none. -/
def Eop.unary (e : Eop) : Bool := e.op == 4 || e.op == 7

/-- An operation reads `T0` or `T1` before an earlier one wrote it (`w`: written temporaries). -/
def readsEarly : List Eop → List Nat → Bool
  | [], _ => false
  | e :: r, w =>
    let bad := fun x => decide (x ≥ 2) && !w.contains (x - 2)
    bad e.a || (!e.unary && bad e.b) || readsEarly r (e.dst :: w)

/-- Reads the 32 bytes of a descriptor; none when 04 R128 refuses it. -/
def DDesc.parse (b : List Byte) : Option DDesc :=
  let d0 := le32 b 0
  let n := fld d0 19 16
  let ws := (List.range 8).map fun i => le16 b (4 + 2 * i)
  let ops := (ws.take n).map Eop.ofWord
  let post := fld d0 11 8
  let pa : F32 := BitVec.ofNat 32 (le32 b 20)
  let pb : F32 := BitVec.ofNat 32 (le32 b 24)
  let bad := fld d0 7 0 != 1 || decide (post > 4) || fld d0 15 12 != 0 || fld d0 31 20 != 0 || n == 0 || decide (n > 8) ||
    ((ws.drop n).any (· != 0)) || le32 b 28 != 0 || (post != 4 && (pa != 0 || pb != 0)) || ((ws.take n).any fun w => fld w 3 0 != 0) ||
    (ops.any fun e => e.op == 0 || decide (e.op > 8) || decide (e.dst > 1) || e.acc == 3 || (e.unary && e.b != 0)) || readsEarly ops [] ||
    !(ops.any fun e => e.acc == 1) || (post == 3 && !(ops.any fun e => e.acc == 2))
  if bad then none else some { post := post, ops := ops, pa := pa, pb := pb }

/-- A descriptor constant of `AFFINE` is not finite (02 R45). -/
def DDesc.nonFinite (d : DDesc) : Bool := !F32.finite d.pa || !F32.finite d.pb

def eopVal (op : Nat) (a b : F32) : F32 :=
  match op with
  | 1 => F32.mul a b
  | 2 => F32.add a b
  | 3 => F32.sub a b
  | 4 => F32.abs a
  | 5 => F32.min a b
  | 6 => F32.max a b
  | 7 => F32.mul a a
  | _ => if F32.posZero a == F32.posZero b then 0 else f32One

/-- Runs the operations on one element pair: what enters ACC0 and ACC1, in order. -/
def runEops : List Eop → F32 → F32 → F32 → F32 → List F32 × List F32
  | [], _, _, _, _ => ([], [])
  | e :: r, q, x, t0, t1 =>
    let get := fun i => match i with
      | 0 => q
      | 1 => x
      | 2 => t0
      | _ => t1
    let v := eopVal e.op (get e.a) (get e.b)
    let n := if e.dst == 0 then runEops r q x v t1 else runEops r q x t0 v
    (if e.acc == 1 then v :: n.1 else n.1, if e.acc == 2 then v :: n.2 else n.2)

/-- A decoded query (02 R53). -/
def Query.decode (q : Query) (span : Nat) : List F32 :=
  q.codes.zipIdx.map fun c =>
    let g := c.2 / span
    elemVal q.fmt (F32.val (q.scales.getD g f32One)) (q.zps.getD g 0) c.1

/-- ‖q‖ of the decoded query (04 R127), formed once at query load: `at'` names the query. -/
def Query.norm (q : Query) (span tag : Nat) (at' : List Nat) : F32 := F32.sqrt (fsum tag (at' ++ [2]) ((q.decode span).map fun x => F32.mul x x))

/-- Score of a descriptor before `TAU`, with whether it was set to 0.0 under COSINE (04 R124, R127). Step 2 rescales ACC0 (log entry 41, DEDUCED). -/
def descScore (tag : Nat) (at' : List Nat) (d : DDesc) (qn : F32) (qs xs : List F32) (re : Option (F32 × F32)) : F32 × Bool :=
  let l := (qs.zip xs).map fun p => runEops d.ops p.1 p.2 0 0
  let a0 := fsum tag (at' ++ [0]) ((l.map (·.1)).flatten)
  let a0 := match re with
    | some p => F32.fma p.1 a0 p.2
    | none => a0
  let a1 := fsum tag (at' ++ [1]) ((l.map (·.2)).flatten)
  match d.post with
  | 0 => (a0, false)
  | 1 => (F32.negate a0, false)
  | 2 => (F32.negate (F32.sqrt (F32.max a0 0)), false)
  | 3 =>
    let xn := F32.sqrt (F32.max a1 0)
    if (F32.val qn).m == 0 || (F32.val xn).m == 0 then (0, true) else (F32.div a0 (F32.mul qn xn), false)
  | _ => (F32.fma d.pa a0 d.pb, false)

/-! ## SCORE, PROJECT, WSUM -/

/-- The scaled score of one query and row (04 R124), −0 read as +0 (05 R134), and whether COSINE set it to 0.0; `at'` names the query. -/
def arrayScore (tag : Nat) (at' : List Nat) (row : Nat) (r : QRec) (q : Query) (d : RowDec) (desc : Option DDesc) (re : Option (F32 × F32)) (tau : F32) : F32 × Bool :=
  let x := match desc with
    | some dd => descScore tag (at' ++ [row]) dd (q.norm r.span tag at') (q.decode r.span) (r.decode d) re
    | none =>
      let a := r.score tag (at' ++ [row]) q d
      (match re with
        | some p => F32.fma p.1 a p.2
        | none => a, false)
  (F32.posZero (F32.mul x.1 tau), x.2)

/-- PROJECT (04 R115, R124): one value a channel, through the rescale table. -/
def project (tag : Nat) (at' : List Nat) (r : QRec) (rows : List RowDec) (re : Rescale) (xs : List F32) : List F32 :=
  let q := Query.load tag (at' ++ [0]) r r.query xs
  rows.zipIdx.map fun d =>
    let a := r.score tag (at' ++ [1, d.2]) q d.1
    let p := re.getD d.2 (f32One, 0)
    F32.fma p.1 a p.2

/-- WSUM (04 R118): weighted value rows, per channel, in order of arrival. -/
def wsum (tag : Nat) (at' : List Nat) (dim : Nat) (rows : List (F32 × List F32)) : List F32 :=
  (List.range dim).map fun c => fsum tag (at' ++ [c]) (rows.map fun r => F32.mul r.1 (r.2.getD c 0))

/-! ## Shapes (04 R116 to R122) -/

/-- 1,680ths of an element pair a cell takes each step (04 R120). -/
def fmtRate (f : Fmt) : Nat :=
  match f with
  | .bin1 => 26880
  | .int2 => 6720
  | .int4 | .uint4 | .e2m1 => 3360
  | .bf16 | .fp16 | .int16 => 420
  | .fp32 => 105
  | _ => 1680

/-- The shape of a work over rows of so many bytes, in element groups of `group`. -/
def arrShape (queries rows dim : Nat) (qf xf : Fmt) (group rowBytes : Nat) (desc : Option DDesc) : ArrShape :=
  let r := min (fmtRate qf) (fmtRate xf)
  let r := match desc with
    | some d => min r (1680 / max 1 d.ops.length)
    | none => r
  { queries := queries, rows := rows, dim := dim, rate := max 1 r, group := group, rowBytes := rowBytes, queryBytes := qf.rowBytes (queries * dim), desc := desc.isSome }

/-- Tile width (04 R119): the smallest power of two at least min(N, 64). -/
def tileWidth (n : Nat) : Nat := ((List.range 7).map (2 ^ ·)).find? (fun w => min n 64 ≤ w) |>.getD 64

def ArrShape.tiles (a : ArrShape) : Nat := ceilDiv a.rows 64 * ceilDiv a.queries (tileWidth a.queries)

/-- The operations a work is split into (04 R116). -/
def ArrShape.pieces (a : ArrShape) : List ArrShape :=
  ((List.range (ceilDiv a.queries 1024)).map fun q => (List.range (ceilDiv a.rows 4096)).map fun r =>
    let n := min 1024 (a.queries - 1024 * q)
    { a with queries := n, rows := min 4096 (a.rows - 4096 * r), queryBytes := ceilDiv (a.queryBytes * n) a.queries }).flatten

/-- Courses that share a tile (04 R122). -/
def ArrShape.share (a : ArrShape) (courses : Nat) : Nat := if a.tiles < courses && a.tiles != 0 then courses / a.tiles else 1

/-- Row operands and queries of a tile: tiles count the rows first, then the query blocks. Log entry 196, DESIGN CHOICE. -/
def ArrShape.tileRows (a : ArrShape) (tile : Nat) : Nat := min 64 (a.rows - 64 * (tile % max 1 (ceilDiv a.rows 64)))
def ArrShape.tileQueries (a : ArrShape) (tile : Nat) : Nat :=
  min (tileWidth a.queries) (a.queries - tileWidth a.queries * (tile / max 1 (ceilDiv a.rows 64)))

/-- Elements one course handles of a tile that `share` courses hold: whole element groups, or equal parts (04 R122). -/
def ArrShape.reach (a : ArrShape) (share : Nat) : Nat :=
  if a.group == 0 then ceilDiv a.dim share else ceilDiv (a.dim / a.group) share * a.group

/-- Steps of a tile on one course (04 R121). -/
def ArrShape.tileSteps (a : ArrShape) (tile share : Nat) : Nat :=
  let lanes := 64 / tileWidth a.queries
  let d := a.reach share
  max (ceilDiv (d * 1680) (lanes * a.rate)) (ceilDiv (ceilDiv (a.tileRows tile * a.rowBytes * d) a.dim) 128) + 12

/-- Steps a course spends to load its query slice (04 R121). -/
def ArrShape.loadSteps (a : ArrShape) (tile share : Nat) : Nat :=
  ceilDiv (ceilDiv (a.queryBytes * a.tileQueries tile * a.reach share) (a.queries * a.dim)) 128

/-- Tiles one wave takes of `left` remaining on so many courses (04 R113). -/
def ArrShape.waveTiles (a : ArrShape) (left courses limit : Nat) : Nat :=
  if a.share courses > 1 then left
  else min left (max 1 ((limit - a.loadSteps 0 1) / a.tileSteps 0 1) * courses)

/-- Tiles dealt in ascending order (04 R119): in turn, or each to a group of `share` courses (04 R122). -/
def dealTiles (tiles courses : List Nat) (share : Nat) (again : Bool) : List Deal :=
  tiles.zipIdx.map fun t =>
    { tile := t.1, share := share, lost := false, again := again,
      courses := if share > 1 then (courses.drop (t.2 * share)).take share else (courses[t.2 % max 1 courses.length]?).toList }

/-- Steps a course takes in a wave: its query slice, its tiles, the course merge of those it shares (04 R121, R122, R130). -/
def ArrOp.courseSteps (o : ArrOp) (n : Nat) : Nat :=
  let l := o.deals.filter fun d => d.courses.contains n
  match l with
  | [] => 0
  | d :: _ => o.shape.loadSteps d.tile d.share + sumList (l.map fun d => o.shape.tileSteps d.tile d.share) +
      8 * (b2n (l.any fun d => !d.again && decide (d.share > 1)) + b2n (l.any fun d => d.again && decide (d.share > 1)))

def ArrOp.steps (o : ArrOp) : Nat := maxList (o.courses.map o.courseSteps)

/-- Tiles a course has completed in a wave; a shared tile counts for each of its group. -/
def ArrOp.tilesOf (o : ArrOp) (n : Nat) : Nat := (o.deals.filter fun d => !d.lost && d.courses.contains n).length

end Sys2Proof.Machine
end

