-- ==== Sys2Proof/Machine/Stage.lean ====
section
/-! DEFINITION. Editions, floors, what a stage writes, and the commit (spec 08 R253 to R262, R517, 03 R95 to R100). -/

namespace Sys2Proof.Machine

/-! ## Targets -/

/-- Key of a target in `Cmd.eds`. -/
def Target.key : Target → Nat
  | .shard n => n
  | .region c => 4096 + c

def State.region (s : State) (c : Nat) : Option Region := s.regions.find? fun r => r.ctx == c
def State.shard (s : State) (n : Nat) : Option Shard := s.shards.find? fun x => x.num == n

def State.setRegion (s : State) (r : Region) : State := { s with regions := s.regions.map fun x => if x.ctx == r.ctx then r else x }
def State.setShard (s : State) (r : Shard) : State := { s with shards := s.shards.map fun x => if x.num == r.num then r else x }

/-- The record a read at edition `e` sees. -/
def regAt (r : Region) (e : Nat) : Option RegRec := r.recs.find? fun x => decide (x.edition ≤ e)
def shardAt (x : Shard) (e : Nat) : Option ShardRec := x.recs.find? fun y => decide (y.edition ≤ e)

/-- Latest edition; 0 is unbound (08 R253). -/
def State.latest (s : State) : Target → Nat
  | .region c => match s.region c with
    | some r => (r.recs.head?).elim 0 (·.edition)
    | none => 0
  | .shard n => match s.shard n with
    | some x => (x.recs.head?).elim 0 (·.edition)
    | none => 0

/-- The part of a floor that retention raised (08 R255). -/
def State.rawFloor (s : State) : Target → Nat
  | .region c => match s.region c with
    | some r => r.floor
    | none => 0
  | .shard n => match s.shard n with
    | some x => x.floor
    | none => 0

/-- Read editions of running commands on a target. -/
def State.readers (s : State) (t : Target) : List Nat := s.cmds.filterMap fun c => if c.admitted then tget c.eds t.key else none

/-- The floor edition of 08 R255. -/
def State.floorOf (s : State) (t : Target) : Nat := (s.readers t).foldl min (s.rawFloor t)

def State.setFloor (s : State) (t : Target) (e : Nat) : State :=
  match t with
  | .region c => { s with regions := s.regions.map fun r => if r.ctx == c then { r with floor := max r.floor e } else r }
  | .shard n => { s with shards := s.shards.map fun x => if x.num == n then { x with floor := max x.floor e } else x }

/-- Read edition of a command for a target: what admission tagged, else the latest. -/
def State.edOf (s : State) (c : Cmd) (t : Target) : Nat := (tget c.eds t.key).getD (s.latest t)

/-- The check of a named edition (08 R262); 0 names the latest. -/
def State.edBad (s : State) (t : Target) (e : Nat) : Option Nat :=
  if e == 0 then none else if e > s.latest t then some 0x0801 else if e < s.floorOf t then some 0x0802 else none

def Delta.none' : Delta :=
  { ends := [], lens := [], pool := [], cal := [], opened := [], fixed := [], priv := [], holes := [], images := [], late := [], counts := [], desc := none, hwm := none,
    head := none, tail := none, entries := none, cache := none, release := [], mig := none }

def Stage.empty (t : Target) : Stage :=
  { target := t, bind := false, keep := false, changed := false, dies := [], rows := [], delta := Delta.none', blocks := [], slots := [], pages := [], binds := [] }

def Finish.ok : Finish :=
  { status := stOk, sub := 0, result := 0, counter := 0, edition := 0, edShard := none, out := [], drop := none, bumps := [], errs := [], late := [],
    incs := [], layer := none, pfAdd := [], pfUse := [], charges := [], bucket := 0 }

def Done.of (f : Finish) : Done := { fin := f, stages := [], puts := [], pages := [], stats := [] }

/-! ## Rows a stage writes (08 R256, 03 R95, R100) -/

/-- One row to write: its domain, the offset, stride, row length of its piece, its number, its bytes, and whether no published edition covers it. -/
structure Upd where
  fret : Nat
  piece : Nat
  stride : Nat
  len : Nat
  n : Nat
  data : List Byte
  fresh : Bool
deriving DecidableEq, Repr

def Upd.off (u : Upd) : Nat := u.piece + u.n * u.stride
def Upd.col (u : Upd) : Nat := u.off / 32

/-- Blocks of 64 KiB of its piece that a row lies in (13 R423). -/
def Upd.blocks (u : Upd) : List Nat :=
  let k := (u.fret * 2 ^ 21 + u.piece / 32) * 2 ^ 10
  dedupNat [k + u.n * u.stride / 65536, k + (u.n * u.stride + u.len - 1) / 65536]

/-- The rows of a piece that start in one column: first byte and length of their span. -/
def Upd.span (u : Upd) : Nat × Nat :=
  let lo := ceilDiv (32 * u.col - min (32 * u.col) u.piece) (max 1 u.stride)
  let hi := (32 * u.col + 31 - u.piece) / max 1 u.stride
  (u.piece + lo * u.stride, (hi - lo) * u.stride + u.len)

/-- The rows a stage writes, the staging runs they take so far. -/
structure StageAcc where
  rows : List StagedRow
  puts : List HbmPut
deriving DecidableEq, Repr

/-- Stages the rows that start in one column: in place when none is published and no overlay covers the column, else as a copy in the staging area. It waits while the domain is being replaced (03 R109). -/
def State.stageCol (s : State) (bind : Bool) (latest : Nat) (us : List Upd) (a : StageAcc) : Except Halt StageAcc :=
  match us with
  | [] => .ok a
  | u :: _ =>
    if s.sparingAt u.fret then .error (.wait (.spare u.fret))
    else
    let old := (s.hbm.overlays.any fun o => o.fret == u.fret && o.base == u.col)
    if bind || ((us.all (·.fresh)) && !old) then
      .ok { a with puts := a.puts ++ us.map fun x => { fret := x.fret, off := x.off, tag := 0, data := x.data } }
    else
      let sp := u.span
      let cols := (sp.1 + sp.2 - 1) / 32 + 1 - u.col
      let mine := a.rows.filter fun r => r.fret == u.fret
      if s.ovlUsed u.fret + mine.length ≥ 256 then .error (.wait (.overlay u.fret))
      else
        match s.allocStage u.fret (mine.map fun r => (r.stage, r.cols)) cols with
        | none => .error (.wait (.overlay u.fret))
        | some st =>
          let base := s.rowBytes u.fret sp.1 sp.2 latest
          let d := us.foldl (fun d x => overwrite d (x.off - sp.1) x.data) base
          .ok { rows := a.rows ++ [{ fret := u.fret, base := u.col, stage := st, cols := cols, first := sp.1 % 32, len := sp.2,
                                                parts := us.map fun x => (x.off - sp.1, x.data.length) }],
                puts := a.puts ++ [{ fret := u.fret, off := st * 32 + sp.1 % 32, tag := 1, data := d }] }

/-- Groups updates by domain and first column; a later update of a row replaces an earlier one. -/
def groupUpds : List Upd → List (List Upd)
  | [] => []
  | u :: r =>
    let g := groupUpds r
    if g.any fun l => l.any fun x => x.fret == u.fret && x.col == u.col then
      g.map fun l => if l.any fun x => x.fret == u.fret && x.col == u.col then
        (if l.any fun x => x.off == u.off then l else u :: l) else l
    else [u] :: g

def State.stageRows (s : State) (bind : Bool) (latest : Nat) (us : List Upd) : Except Halt StageAcc :=
  (groupUpds us).foldlM (fun a g => s.stageCol bind latest g a) { rows := [], puts := [] }

/-- A stage from its rows and its changes. -/
def State.mkStage (s : State) (t : Target) (bind changed : Bool) (us : List Upd) (d : Delta) : Except Halt (Stage × List HbmPut) := do
  let a ← s.stageRows bind (s.latest t) us
  return ({ Stage.empty t with bind := bind, changed := changed, rows := a.rows, delta := d, blocks := dedupNat ((us.map Upd.blocks).flatten) }, a.puts)

/-! ## Commit (08 R256, R258, R260) -/

def tmerge {β : Type} (a b : Tab β) : Tab β := b.foldl (fun t e => tset t e.1 e.2) a

/-- A value table with the entries of zero length dropped. -/
def mergeOpened (a b : Tab (List (Nat × List F32))) : Tab (List (Nat × List F32)) := tmerge a b

def RegRec.apply (r : RegRec) (e : Nat) (d : Delta) : RegRec :=
  { edition := e, desc := d.desc.getD r.desc, ends := tmerge r.ends d.ends, lens := tmerge r.lens d.lens,
    pool := d.pool.foldl (fun p x => setBit p x.1 (x.2 != 0)) r.pool, cal := tmerge r.cal d.cal, opened := mergeOpened r.opened d.opened,
    fixed := tmerge r.fixed d.fixed, priv := tmerge r.priv d.priv, holes := tmerge r.holes d.holes }

def RegRec.start : RegRec := { edition := 0, desc := [], ends := [], lens := [], pool := 0, cal := [], opened := [], fixed := [], priv := [], holes := [] }

def ShardRec.apply (r : ShardRec) (e : Nat) (d : Delta) : ShardRec :=
  { edition := e, desc := d.desc.getD r.desc, hwm := d.hwm.getD r.hwm, head := d.head.getD r.head, tail := d.tail.getD r.tail,
    entries := d.entries.getD r.entries, cache := d.cache.getD r.cache }

def ShardRec.start : ShardRec := { edition := 0, desc := [], hwm := 0, head := 0, tail := 0, entries := [], cache := [] }

/-- Records no command can name any more go. -/
def pruneRecs {α : Type} (ed : α → Nat) (floor : Nat) (l : List α) : List α :=
  let old := l.filter fun r => decide (ed r ≤ floor)
  (l.filter fun r => decide (floor < ed r)) ++ old.take 1

/-- The floor a commit of edition `e` leaves (08 R255; log entry 42, DEDUCED). -/
def State.newFloor (s : State) (old e : Nat) : Nat := max (max old (e - fld (s.reg32 (pUpd + 0x100)) 7 0)) 1

/-- A region's stage becomes edition `e`. -/
def State.commitRegion (s : State) (part ctx e : Nat) (g : Stage) : State :=
  if g.bind then
    let r : Region := { ctx := ctx, part := part, dies := g.dies, calls := [], due := [], migEd := [], floor := e,
                        recs := [RegRec.start.apply e g.delta], images := [], blocks := [], lastCkpt := 0 }
    let s := { s with regions := (s.regions.filter fun x : Region => x.ctx != ctx) ++ [r],
                      hbm := { s.hbm with overlays := s.hbm.overlays.filter fun o : Overlay => o.owner != some (Target.region ctx) } }
    (s.dropPf part ctx)
  else
    match s.region ctx with
    | none => s
    | some r =>
      let rec' := ((r.recs.head?).getD RegRec.start).apply e g.delta
      let floor := s.newFloor r.floor e
      let s := { s with fte := { s.fte with extents := s.fte.extents ++ g.delta.images.map fun (i : Nat × Nat × Nat) => (⟨part, i.2.1, i.2.2, .spill ctx i.1⟩ : Extent) } }
      s.setRegion { r with images := g.delta.images.foldl (fun (t : Tab Nat) (i : Nat × Nat × Nat) => tset t i.1 i.2.1) r.images, recs := pruneRecs (·.edition) ((s.readers (.region ctx)).foldl min floor) (rec' :: r.recs), floor := floor,
                           migEd := match g.delta.mig with
                             | some l => tset r.migEd l e
                             | none => r.migEd }

def Shard.fresh (num part : Nat) (dies : List Nat) : Shard :=
  { num := num, part := part, dies := dies, floor := 1, recs := [], sweep := none, shadow := false, replaying := false, replayNext := 0,
    ready := false, run := 0, lastOverlap := 0, copies := [], blocks := [], lastCkpt := 0, forcing := false,
    logBuf := [], logCredit := 0 }

def State.commitShard (s : State) (part num e : Nat) (g : Stage) : State :=
  if g.bind then
    let x := { Shard.fresh num part g.dies with floor := e, recs := [ShardRec.start.apply e g.delta] }
    { s with shards := (s.shards.filter fun y : Shard => y.num != num) ++ [x],
             hbm := { s.hbm with overlays := s.hbm.overlays.filter fun o : Overlay => o.owner != some (Target.shard num) } }
  else
    match s.shard num with
    | none => s
    | some x =>
      let rec' := ((x.recs.head?).getD ShardRec.start).apply e g.delta
      let floor := s.newFloor x.floor e
      s.setShard { x with recs := pruneRecs (·.edition) ((s.readers (.shard num)).foldl min floor) (rec' :: x.recs), floor := floor }

/-- Blocks of 13 R423 take the edition that wrote them. -/
def State.markBlocks (s : State) (t : Target) (e : Nat) (bs : List Nat) : State :=
  match t with
  | .region c => { s with regions := s.regions.map fun r => if r.ctx == c then { r with blocks := bs.foldl (fun b k => tset b k e) r.blocks } else r }
  | .shard n => { s with shards := s.shards.map fun x => if x.num == n then { x with blocks := bs.foldl (fun b k => tset b k e) x.blocks } else x }

/-- Pages a stage wrote are committed with its edition (11 R358). -/
def commitHist (tag e : Nat) (pages : List Nat) (l : List Hist) : List Hist :=
  l.map fun h => if h.tag == tag && h.edition.isNone && pages.contains h.page then { h with edition := some e } else h

/-- Counters at the places their rows have moved to, as they stand at the commit (06 R178, R179). -/
def State.moveCounts (s : State) (l : List (Nat × Nat × Bool)) : State :=
  (l.map fun x => let n := leNat (s.devRead x.2.1 1); (x.1, if x.2.2 then n / 2 else n)).foldl (fun s x => s.devWrite x.1 (leBytes 1 x.2)) s

/-- One target's stage is published; answers its edition, 0 when it publishes nothing (08 R256). -/
def State.commitStage (s : State) (c : Cmd) (g : Stage) : State × Nat :=
  let s := s.moveCounts g.delta.counts
  if !g.changed && !g.bind then (s, 0)
  else
    let e := if g.bind && !g.keep then 1 else s.latest g.target + 1
    let s := match g.target with
      | .region ctx => s.commitRegion c.part ctx e g
      | .shard n => s.commitShard c.part n e g
    let s := g.binds.foldl (fun s x => s.hbmWrite x.fret x.off x.tag x.data) s
    let s := g.rows.foldl (fun s r => s.publishRow (some g.target) r e) s
    let s := g.delta.late.foldl (fun s x => s.devWrite x.1 x.2) s
    let s := { s with fte := { s.fte with hist := commitHist c.id e g.pages s.fte.hist } }
    ((s.markBlocks g.target e (g.blocks ++ g.pages.map fun p => 2 ^ 50 + p)).bump (pUpd + 0x040) 1, e)

/-- Nothing but retention holds an overlay entry: no running command reads below its edition. -/
def State.heldByReader (s : State) (o : Overlay) : Bool := match o.owner with
  | some t => (s.readers t).any fun e => decide (e < o.edition)
  | none => false

/-- An overlay entry that may be folded (03 R99, 08 R255). -/
def State.overlayFree (s : State) (o : Overlay) : Bool := match o.owner with
  | some t => decide (o.edition ≤ s.floorOf t) && !s.heldByReader o
  | none => true

/-- The entry of lowest edition among some. -/
def lowestOverlay : List Overlay → Option Overlay
  | [] => none
  | o :: r => some (r.foldl (fun b x => if x.edition < b.edition then x else b) o)

/-- Retention gives way for a stage that waits for an overlay entry of a domain, where it alone holds what could be freed (08 R255). Log entry 184, DEDUCED. -/
def State.yieldFloor (s : State) (f : Nat) : State :=
  let mine := s.hbm.overlays.filter fun o => o.fret == f
  if mine.any s.overlayFree then s
  else match lowestOverlay (mine.filter fun o => !s.heldByReader o) with
    | none => s
    | some o => match o.owner with
      | none => s
      | some t => (s.setFloor t o.edition).bump (pUpd + 0x080) 1

/-- Every stage that waits for an overlay entry: the raise of 08 R255 takes place as soon as no reader stands in its way. -/
def State.yieldAll (s : State) : State :=
  s.cmds.foldl (fun s c => match c.phase with
    | .run (.overlay f) => s.yieldFloor f
    | _ => s) s

end Sys2Proof.Machine
end

