-- ==== Sys2Proof/Machine/Body.lean ====
section
/-! DEFINITION. What command bodies share: checks, data asked for, inputs, pool and flash reads, flags of a result (spec 09 R305, 12 R403, R404, 11 R380). -/

namespace Sys2Proof.Machine

/-- The first check that fails decides (09 R305). -/
def refuseIf (l : List (Bool × (Nat × Nat × Nat))) : Except Halt Unit :=
  match firstSome l with
  | some (st, sub, n) => .error (.refuse st sub n)
  | none => .ok ()

def bf (sub : Nat) : Nat × Nat × Nat := (stField, sub, 0)
def okNow : Nat × Nat × Nat := (stOk, 0, 0)

/-- A check written as an option of a status and SUBSTATUS. -/
def refuseOpt (o : Option (Nat × Nat)) : Except Halt Unit :=
  match o with
  | some (st, sub) => .error (.refuse st sub 0)
  | none => .ok ()

def badData (sub : Nat) : Halt := .fail stData sub 0 [] []

/-- The output size of 09 R307, and `BUFFER_SHORT` with the required size. -/
def sizeChecks (c : Cmd) (need : Nat) : List (Bool × (Nat × Nat × Nat)) :=
  [(decide (need ≥ 2 ^ 32), bf 0x0905), (decide (c.outLen < need), (stBufferShort, 0, need))]

/-- A structure named by address: device memory now, host memory once it has been read (09 R287, R305). What a descriptor that came from elsewhere names has come with it (log entry 71, DEDUCED). -/
def State.fetch (s : State) (c : Cmd) (key a n : Nat) : Except Halt (List Byte) :=
  if n == 0 then .ok []
  else if c.origin != .window && decide (key < 2 ^ 20) then .ok (slice (tgetD c.got key []) 0 n)
  else if isDev a then s.readDev a n
  else
    match tget c.got key with
    | some d => .ok (slice d 0 n)
    | none => .error (.wait (.host key a n))

/-- The input of a command: its buffer, or what came with a request (08 R278). -/
def State.inputOf (s : State) (c : Cmd) : Except Halt (List Byte) :=
  if c.inLen == 0 then .ok []
  else if c.origin != .window then .ok (slice c.input 0 c.inLen)
  else if isDev c.inAddr then s.readBuf c c.inAddr c.inLen
  else s.fetch c 0 c.inAddr c.inLen

/-- Waits for a key to have been filled. -/
def needKey (c : Cmd) (key : Nat) (n : Need) : Except Halt (List Byte) :=
  match tget c.got key with
  | some d => .ok d
  | none => .error (.wait n)

/-- Keys under which a command has had the frets of its slice for its passes (10 R325). -/
def fretKey : Nat := 2 ^ 76

/-- Passes of a command that have begun. -/
def Cmd.passes (c : Cmd) : Nat := (c.got.filter fun e => decide (fretKey ≤ e.1) && decide (e.1 < 2 ^ 80)).length

/-- The next pass of a command, its `i`-th: the frets serve one context of a slice at a time, and a switch falls between passes (10 R324, R325); work of no context of this node does not wait (log entry 62, DEDUCED). -/
def State.usePass (_s : State) (c : Cmd) (i : Nat) : Except Halt Unit :=
  if c.origin != .window || (tget c.got (fretKey + i)).isSome then .ok () else .error (.wait .frets)

/-- The command's sub-batch holds the memory of at least one item (10 R338). -/
def useSram (c : Cmd) (u items : Nat) : Except Halt Unit := if c.work || items == 0 then .ok () else .error (.wait (.sram (roundUp u 64) items))

/-- Columns a strum or pluck of `n` rows moves. Log entry 149, DEDUCED. -/
def strokesOf (stride len n : Nat) : Nat := if n == 0 then 0 else ((n - 1) * stride + len - 1) / 32 + 1

/-- SBC stroke counters of strokes given by fret. -/
def strokeBumps (l : List (Nat × Nat)) : List (Nat × Nat) :=
  (dedupNat (l.map fun x => stackOf x.1)).map fun st => (pSbc st + 0x040, sumList ((l.filter fun x => stackOf x.1 == st).map (·.2)))

/-- Charges of selection and conversion work (10 R340): entries, elements, strokes. -/
def workCharges (entries elems strokes : Nat) : List (Nat × Nat) := [(3, ceilDiv entries 64), (4, ceilDiv elems 64), (5, strokes)]

/-- Keys of reads whose loss leaves rows unread (06 R199, 08 R272). -/
def softKey : Nat := 2 ^ 90

/-- A course of the slice works (04 R132). -/
def State.useArray (s : State) (c : Cmd) (key : Nat) (a : ArrShape) : Except Halt Unit :=
  if a.tiles == 0 then .ok ()
  else if (bitsOf 16 (s.courses c.part)).all fun n => bitOf s.arr.fenced n then .error (.fail stMedia 0x0943 0 [] [])
  else (needKey c key (.array key a)).map fun _ => ()

/-- Pieces of a pool read: a request crosses no 4 KiB boundary of fabric offset (12 R403). -/
def poolPieces : Nat → Nat → Nat → List (Nat × Nat)
  | 0, _, _ => []
  | f + 1, off, n =>
    if n == 0 then []
    else
      let k := min n (4096 - off % 4096)
      (off, k) :: poolPieces f (off + k) (n - k)

/-- Reads bytes at a fabric address (12 R398, R403). -/
def poolRead (c : Cmd) (key addr n : Nat) : Except Halt (List Byte) :=
  ((poolPieces (n / 4096 + 2) (addr % 2 ^ 52) n).zipIdx.mapM fun p =>
    needKey c (key * 2 ^ 24 + p.2) (.pool (key * 2 ^ 24 + p.2) (addr / 2 ^ 52) p.1.1 p.1.2)).map List.flatten

/-- Key of the data of a flash unit. -/
def flashKey (lua : Nat) : Nat := 2 ^ 80 + lua

/-- Units of the partition's flash window (11 R355). -/
def flashUnits (c : Cmd) (lua n : Nat) : Except Halt (List Byte) :=
  ((List.range n).mapM fun i => (needKey c (flashKey (lua + i)) (.flash (lua + i))).bind fun b =>
    if b.isEmpty then Except.error (Halt.fail stMedia 0x0942 0 [] []) else Except.ok b).map List.flatten

/-- Bytes at an offset of an image that starts at unit `lua`. -/
def flashBytes (c : Cmd) (lua off n : Nat) : Except Halt (List Byte) :=
  if n == 0 then .ok []
  else (flashUnits c (lua + off / 4096) ((off + n - 1) / 4096 + 1 - off / 4096)).map fun l => slice l (off % 4096) n

/-- The rescale table at an address (02 R61): header, then the rest. -/
def State.fetchRescale (s : State) (c : Cmd) (key addr channels : Nat) : Except Halt (Option Rescale) := do
  if addr == 0 then return none
  let h ← s.fetch c key addr 16
  let all ← s.fetch c (key + 1) addr (rescaleLen h)
  match readRescale channels all with
  | .inl (st, sub) => .error (.refuse st sub 0)
  | .inr t => return some t

/-- The distance descriptor at an address (04 R125, R128). It is read once, at admission; the command keeps what it read. -/
def State.fetchDesc (s : State) (c : Cmd) (key addr : Nat) : Except Halt (Option DDesc) := do
  if addr == 0 then return none
  let b ← match tget c.got key with
    | some b => Except.ok (slice b 0 32)
    | none => do
      let b ← s.fetch c key addr 32
      if isDev addr then Except.error (.wait (.keep key b)) else Except.ok b
  match DDesc.parse b with
  | none => .error (.refuse stField 0x0916 0)
  | some d => if d.nonFinite then .error (.refuse stData 0x0952 0) else return some d

/-- Formats of query inputs. -/
def inFmtOk (f : Nat) : Bool := Fmt.inputFmt f

/-- Rows of an input; none when an element is not finite. -/
def inputRows (fmt dim n : Nat) (l : List Byte) : List (Option (List F32)) :=
  (List.range n).map fun i => inputRow fmt dim (slice l (i * dim * inBytes fmt) (dim * inBytes fmt))

/-- Query rows: a non-finite element ends the command (02 R45). -/
def queryRows (fmt dim n : Nat) (l : List Byte) : Except Halt (List (List F32)) :=
  (inputRows fmt dim n l).mapM fun r => match r with
    | some x => Except.ok x
    | none => Except.error (badData 0x0950)

/-! ## Answers of owners (08 R279) -/

/-- What an owner answered: status, SUBSTATUS, counter, result, edition, output. The device keeps it as a header of 20 bytes and the output. -/
structure OwnerAns where
  status : Nat
  sub : Nat
  counter : Nat
  result : Nat
  edition : Nat
  out : List Byte
deriving DecidableEq, Repr

def OwnerAns.bytes (a : OwnerAns) : List Byte :=
  leBytes 2 a.status ++ leBytes 2 a.sub ++ leBytes 4 (sat32 a.counter) ++ leBytes 4 (sat32 a.result) ++ leBytes 8 a.edition ++ a.out

def OwnerAns.read (l : List Byte) : OwnerAns :=
  { status := le16 l 0, sub := le16 l 2, counter := le32 l 4, result := le32 l 8, edition := le64 l 12, out := l.drop 20 }

/-- The order in which one of several answers is the outcome (08 R279). -/
def statusOrder : List Nat := [stDenied, stFenced, stField, stData, stMedia, stEcc, stPoolLost, stSideFull, stRerun, stCancelled]

/-- The failure that decides among answers given as (node, status, SUBSTATUS): the first status of the order, of the lowest node. -/
def worst (l : List (Nat × Nat × Nat)) : Option (Nat × Nat) :=
  let bad := l.filter fun x => !stGood x.2.1
  match statusOrder.find? fun st => bad.any fun x => x.2.1 == st with
  | some st => ((sortBy (fun a b => decide (a.1 ≤ b.1)) (bad.filter fun x => x.2.1 == st)).head?).map (·.2)
  | none => (bad.head?).map (·.2)

/-- Counts rows rejected on read (02 R45). -/
def nanBump (n : Nat) : Nat × Nat := (pPeg + 0x048, n)

end Sys2Proof.Machine
end

