-- ==== Sys2Proof/Machine/Region.lean ====
section
/-! DEFINITION. Context regions: the descriptor, placement, extents, rows of tiers, moves, the stages of KV_APPEND, KV_TRIM, CALIBRATE, REQUANT and migration (spec 06 R168 to R185, R201 to R203, 09 R301 to R304, 02 R56 to R60). -/

namespace Sys2Proof.Machine

/-! ## Descriptor (06 R168, R169) -/

structure SegEnt where
  start : Nat
  cap : Nat
  pool : Bool
  addr : Nat
deriving DecidableEq, Repr

structure RDesc where
  layers : Nat
  heads : Nat
  qper : Nat
  segs : List SegEnt
  dca : Nat
  promote : Nat
  demote : Nat
  init : Nat
  age : Nat
  warm : Nat
  hot : Nat
  carry : Nat
  recs : List QRec
deriving DecidableEq, Repr

def RDesc.parse (b : List Byte) : RDesc :=
  let d0 := le32 b 0
  { layers := fld d0 15 8, heads := fld d0 22 16, qper := fld d0 27 24,
    segs := (List.range (fld d0 31 28 + 1)).map fun i =>
      let o := 448 + 32 * i
      { start := fld (le32 b o) 23 0, cap := fld (le32 b (o + 4)) 24 0, pool := bitOf (le32 b (o + 8)) 0, addr := le64 b (o + 16) },
    dca := fld (le32 b 4) 20 0, promote := byteAt b 8, demote := byteAt b 9, init := byteAt b 10, age := le16 b 12, warm := le16 b 16,
    hot := le16 b 18, carry := le64 b 20, recs := (List.range 6).map fun i => QRec.parse (slice b (64 + 64 * i) 64) }

def noRec : QRec := QRec.parse (zeros 64)

/-- Record `i`: COLD key, COLD value, WARM key, WARM value, HOT key, HOT value. -/
def RDesc.rec' (d : RDesc) (i : Nat) : QRec := d.recs.getD i noRec

def RDesc.dh (d : RDesc) : Nat := (d.rec' 0).headDim

/-- A record as the frets of one head use it (06 R171). -/
def RDesc.head (d : RDesc) (i : Nat) : QRec := { d.rec' i with dim := d.dh, headDim := d.dh }

def RDesc.keyRec (d : RDesc) (tier : Nat) : QRec := d.head (2 * tier)
def RDesc.valRec (d : RDesc) (tier : Nat) : QRec := d.head (2 * tier + 1)

def RDesc.tierOn (d : RDesc) (tier : Nat) : Bool := tier == 0 || (tier == 1 && d.warm != 0) || (tier == 2 && d.hot != 0)
def RDesc.tierCap (d : RDesc) (tier : Nat) : Nat := if tier == 1 then d.warm else d.hot

def RDesc.seg (d : RDesc) (i : Nat) : SegEnt := d.segs.getD i ⟨0, 0, false, 0⟩

def stride4 (r : QRec) : Nat := roundUp r.rowLen 4

/-! ## Placement (06 R171 to R173) -/

/-- Dies of the slice in service, in list order. -/
def State.liveDies (s : State) (p : Nat) : List Nat := (s.sliceDies p).filter fun d => !s.hbm.deadDies.contains d

/-- Dies a region of `h` heads uses. -/
def regionDies (h : Nat) (l : List Nat) : List Nat := if h == 0 then [] else l.take (h * (l.length / h))

/-- Fret slots of a head. -/
def fh (dies : List Nat) (h : Nat) : Nat := if h == 0 then 0 else 64 * (dies.length / h)

/-- Slot j of head h as a slot of the region, and its fret. -/
def regSlot (heads h j : Nat) : Nat := (h + heads * (j / 64)) * 64 + j % 64
def slotFret (dies : List Nat) (g : Nat) : Nat := dies.getD (g / 64) 0 * 64 + g % 64

/-- Rows of the COLD key extent and of the base value extent of a segment. -/
def RDesc.rC (d : RDesc) (f s : Nat) : Nat := ceilDiv (d.seg s).cap (max 1 f)
def RDesc.gV (d : RDesc) : Nat := max 1 (d.rec' 1).group
def RDesc.rV (d : RDesc) (f s : Nat) : Nat := ceilDiv (ceilDiv (d.seg s).cap d.gV) (max 1 f) * d.gV

/-- Bytes of a token group's scales. -/
def scaleRow (r : QRec) : Nat := r.dim * scaleBytes r.fp16

/-- Row stride and rows of piece `i` of 06 R173; 0 rows where the piece is absent. Pieces 0 to 3: COLD keys, scales, map, counters; 4 to 9 WARM keys, scales, values, value scales, map, counters; 10 to 15 HOT; 16, 17 base values, scales. -/
def RDesc.piece (d : RDesc) (f s i : Nat) : Nat × Nat :=
  let k := fun (tier : Nat) (n : Nat) => (stride4 (d.keyRec tier), n)
  let sc := fun (tier n : Nat) => if (d.keyRec tier).group == 0 then ((d.keyRec tier).entryBytes, n) else (0, 0)
  let tier := if i ≥ 10 then 2 else 1
  let cap := d.tierCap tier
  if i == 0 then k 0 (d.rC f s)
  else if i == 1 then sc 0 (d.rC f s)
  else if i == 2 then (4, d.rC f s)
  else if i == 3 then (1, d.rC f s)
  else if i ≥ 16 then
    if i == 16 then (stride4 (d.valRec 0), d.rV f s) else (scaleRow (d.valRec 0), d.rV f s / d.gV)
  else
    match (i - 4) % 6 with
    | 0 => k tier cap
    | 1 => sc tier cap
    | 2 => (stride4 (d.valRec tier), cap)
    | 3 => (scaleRow (d.valRec tier), ceilDiv cap (max 1 (d.valRec tier).group))
    | 4 => (4, cap)
    | _ => (1, cap)

def pieceCols (p : Nat × Nat) : Nat := ceilDiv (p.1 * p.2) 32

def RDesc.areaCols (d : RDesc) (f s : Nat) : Nat := sumList ((List.range 18).map fun i => pieceCols (d.piece f s i))

/-- First column of piece `i` of segment `s` and layer `l`; pool-created segments hold no pieces. -/
def RDesc.pieceCol (d : RDesc) (f s l i : Nat) : Nat :=
  d.dca + sumList ((List.range s).map fun t => if (d.seg t).pool then 0 else d.layers * d.areaCols f t) + l * d.areaCols f s +
    sumList ((List.range i).map fun j => pieceCols (d.piece f s j))

/-- One past the last column of the region. -/
def RDesc.endCol (d : RDesc) (f : Nat) : Nat := d.pieceCol f d.segs.length 0 0

/-- Offset in its domain and row length of row n of a piece. -/
def RDesc.rowAt (d : RDesc) (f s l i n : Nat) : Nat := d.pieceCol f s l i * 32 + (d.piece f s i).1 * n

/-! ## Ranges bound in the frets (03 R516) -/

/-- Columns [a, b) in some domains: dies bound by a partition's regions, shards and windows, but for one target. -/
structure BoundRange where
  dies : List Nat
  doms : List Nat
  lo : Nat
  hi : Nat
deriving DecidableEq, Repr

def BoundRange.meets (a b : BoundRange) : Bool :=
  decide (a.lo < a.hi) && decide (b.lo < b.hi) && decide (a.lo < b.hi) && decide (b.lo < a.hi) &&
    ((a.dies.any fun d => b.dies.contains d || b.doms.any fun f => dieOf f == d) ||
     (a.doms.any fun f => b.doms.contains f || b.dies.contains (dieOf f)))

def RDesc.bound (d : RDesc) (dies : List Nat) : BoundRange := { dies := dies, doms := [], lo := d.dca, hi := d.endCol (fh dies d.heads) }

/-- What a bound region holds: up to the last piece of its HBM-resident segments; a spill released the others' (06 R173, R203; log entry 170, DEDUCED). -/
def RDesc.boundNow (d : RDesc) (dies : List Nat) (pool : Nat) : BoundRange :=
  { d.bound dies with hi := maxList (d.dca :: ((List.range d.segs.length).filter fun i => !bitOf pool i).map fun i => d.pieceCol (fh dies d.heads) (i + 1) 0 0) }

/-- An enabled export window (12 R402): its words in `FabSt.exp` are FBASE, FIRST, COUNT, OFF, LEN, PART, EN. -/
def windowRange (w : List Nat) : BoundRange :=
  { dies := [], doms := (List.range (w.getD 2 0)).map fun i => w.getD 1 0 + i, lo := w.getD 3 0 * 2048, hi := (w.getD 3 0 + w.getD 4 0) * 2048 }

/-! ## Checks of a bind (06 R169) -/

/-- A privileged list in device space: the record's first `PRIV_COUNT` channels. -/
def State.privList (s : State) (q : QRec) (a : Nat) : Except Halt (List Nat) := do
  let b ← s.readDev a (2 * q.privCount)
  return (List.range q.privCount).map fun i => le16 b (2 * i)

/-- The privileged lists of the value records, by record × 256 + layer (06 R170). -/
def State.privLists (s : State) (d : RDesc) : Except Halt (Tab (List Nat)) := do
  let l ← (List.range 3).mapM fun r => (List.range d.layers).mapM fun ly => do
    let q := d.rec' (2 * r + 1)
    if !d.tierOn r then return (r * 256 + ly, [])
    let x ← s.privList q (q.privAddr + ly * 128)
    return (r * 256 + ly, x)
  return l.flatten

/-- A value record holds one list a layer (06 R170), any other record one list (log entry 193, DEDUCED). -/
def State.privFails (s : State) (q : QRec) (layers : Nat) : Except Halt Bool := do
  let l ← (List.range layers).mapM fun ly => s.privList q (q.privAddr + ly * 128)
  return l.any q.badPriv

/-- Ranges of the privileged lists of the records in use, that a region descriptor names (06 R170, log entry 193, DEDUCED); no count, no range (09 R288). -/
def RDesc.privRanges (d : RDesc) : List (Nat × Nat) :=
  (((List.range 3).filter d.tierOn).map fun t => [(2 * t, 1), (2 * t + 1, d.layers)]).flatten.filterMap fun x =>
    if (d.rec' x.1).privCount == 0 then none else some ((d.rec' x.1).privAddr, x.2 * 128)

def RDesc.ranges (d : RDesc) : List (Nat × Nat) :=
  (((List.range 3).filter d.tierOn).map fun t => let q := d.rec' (2 * t + 1)
    (q.histAddr, d.layers * (64 * q.dim + 64))) ++ (if d.carry == 0 then [] else [(d.carry, d.layers * d.heads * 32768)])

/-- Address of the calibration history of a value record for a layer (06 R170); its state block follows the 16 entries. -/
def RDesc.histAt (d : RDesc) (ri layer : Nat) : Nat := (d.rec' (2 * ri + 1)).histAddr + layer * (64 * (d.rec' (2 * ri + 1)).dim + 64)

/-- Device-space bytes of histories, the newest entry first (02 R56, 06 R170; log entry 133, DESIGN CHOICE). Keys as in `Delta`. -/
def RDesc.calPuts (d : RDesc) (cal : Tab Cal) : List (Nat × List Byte) :=
  (cal.map fun x => (d.histAt (x.1 / 256) (x.1 % 256), (x.2.map fun e => (e.map fun m => leBytes 4 m.toNat).flatten).flatten)).filter fun x => isDev x.1

/-- Device-space bytes of the privileged counts, in the state blocks (06 R170). -/
def RDesc.countPuts (d : RDesc) (priv : Tab (List Nat)) : List (Nat × List Byte) :=
  (priv.map fun x => (d.histAt (x.1 / 256) (x.1 % 256) + 64 * (d.rec' (2 * (x.1 / 256) + 1)).dim, leBytes 2 x.2.length)).filter fun x => isDev x.1

/-- Device-space bytes of the privileged lists (06 R170). -/
def RDesc.listPuts (d : RDesc) (priv : Tab (List Nat)) : List (Nat × List Byte) :=
  (priv.map fun x => ((d.rec' (2 * (x.1 / 256) + 1)).privAddr + x.1 % 256 * 128, (x.2.map fun c => leBytes 2 c).flatten)).filter fun x => isDev x.1 && !x.2.isEmpty

def rangesMeet (a la b lb : Nat) : Bool := decide (a < b + lb) && decide (b < a + la)

/-- What 06 R169 refuses, but for overlaps with other bindings. -/
def RDesc.bad (d : RDesc) (b : List Byte) (live : Nat) (stageCol : Nat) : Bool :=
  let d0 := le32 b 0
  let keys := [d.rec' 0, d.rec' 2, d.rec' 4]
  let on := (List.range 3).filter d.tierOn
  let segsOk := (List.range d.segs.length).all fun i =>
    let e := d.seg i
    let o := 448 + 32 * i
    fld (le32 b o) 31 24 == 0 && fld (le32 b (o + 4)) 31 25 == 0 && fld (le32 b (o + 8)) 31 1 == 0 && le32 b (o + 12) == 0 &&
      le64 b (o + 24) == 0 && decide (1 ≤ e.cap ∧ e.cap ≤ 2 ^ 24) && decide (e.start + e.cap ≤ 2 ^ 24) &&
      !(e.pool && (e.addr == 0 || d.carry == 0)) &&
      (List.range i).all fun j => !rangesMeet e.start e.cap (d.seg j).start (d.seg j).cap
  let f := fh (regionDies d.heads (List.range live)) d.heads
  fld d0 7 0 != 1 || d.layers == 0 || d.heads == 0 || decide (d.heads > 64) || bitOf d0 23 || d.qper == 0 || decide (d.qper > 8) ||
  fld (le32 b 4) 31 21 != 0 || byteAt b 11 != 0 || le16 b 14 != 0 || (slice b 28 36).any (· != 0) ||
  decide (d.demote ≥ d.promote) ||
  (on.any fun t => (d.rec' (2 * t)).bad .fret || (d.rec' (2 * t + 1)).bad .fret) ||
  ((List.range 3).any fun t => !d.tierOn t && (slice b (64 + 128 * t) 128).any (· != 0)) ||
  (on.any fun t => [d.rec' (2 * t), d.rec' (2 * t + 1)].any fun r => r.dim != d.heads * d.dh || r.headDim != d.dh || r.scaleAddr != 0) ||
  decide (d.dh > 256) || decide (d.qper * d.dh > 2048) || decide (d.heads * d.dh > 4096) ||
  (on.any fun t => (d.rec' (2 * t)).axis == 1 || ((d.rec' (2 * t)).group != 0 && d.dh % (d.rec' (2 * t)).group != 0)) ||
  (on.any fun t => let k := keys.getD t noRec; k.query != (d.rec' 0).query || k.group != (d.rec' 0).group || k.fp16 != (d.rec' 0).fp16) ||
  (on.any fun t => (d.rec' (2 * t + 1)).axis == 0 || (d.rec' (2 * t + 1)).histAddr == 0) ||
  (slice b (448 + 32 * d.segs.length) (512 - 32 * d.segs.length)).any (· != 0) || !segsOk ||
  decide (live < d.heads) || decide (d.endCol f > stageCol)

/-- First column kept from row placement: the FTE area and the staging area (03 R73, 11 R357). -/
def State.topCol (s : State) (dies : List Nat) : Nat :=
  minList fretCols (dies.map fun x => s.stageBase (x * 64) - s.fte.area * 2048)

/-! ## Reading rows -/

/-- A region, its descriptor and state as a read at one edition sees them. -/
structure RegView where
  ctx : Nat
  dies : List Nat
  d : RDesc
  st : RegRec
  ed : Nat
  past : List RegRec
deriving DecidableEq, Repr

def State.regView (s : State) (ctx e : Nat) : Option RegView :=
  match s.region ctx with
  | none => none
  | some r => (regAt r e).map fun x => { ctx := ctx, dies := r.dies, d := RDesc.parse x.desc, st := x, ed := e, past := r.recs }

def RegView.f (v : RegView) : Nat := fh v.dies v.d.heads
def RegView.endTok (v : RegView) (seg layer : Nat) : Nat := tgetD v.st.ends (seg * 256 + layer) 0
def lenKey (seg layer tier slot : Nat) : Nat := ((seg * 256 + layer) * 3 + tier) * 65536 + slot
def RegView.len (v : RegView) (seg layer tier slot : Nat) : Nat := tgetD v.st.lens (lenKey seg layer tier slot) 0
/-- Rows of an extent, and tokens of a segment, that some edition still kept covers (03 R100). -/
def RegView.kept (v : RegView) (seg layer tier slot : Nat) : Nat := maxList (v.past.map fun r => tgetD r.lens (lenKey seg layer tier slot) 0)
def RegView.keptEnd (v : RegView) (seg layer : Nat) : Nat := maxList (v.past.map fun r => tgetD r.ends (seg * 256 + layer) 0)
def RegView.pooled (v : RegView) (seg : Nat) : Bool := bitOf v.st.pool seg

/-- First piece of a tier's key, map and counter. -/
def keyPiece (tier : Nat) : Nat := if tier == 0 then 0 else if tier == 1 then 4 else 10
def mapPiece (tier : Nat) : Nat := if tier == 0 then 2 else keyPiece tier + 4
def cntPiece (tier : Nat) : Nat := mapPiece tier + 1

/-- Row n of piece i on a slot, at the view's edition. -/
def State.regRow (s : State) (v : RegView) (slot seg layer i n len : Nat) : Except Halt (List Byte) :=
  if len == 0 then .ok [] else s.readRow (slotFret v.dies slot) (v.d.rowAt v.f seg layer i n) len v.ed

/-- One member of a tier on a slot: token, key row, its scale entry, value copy, counter. -/
structure Member where
  token : Nat
  key : List Byte
  entry : List Byte
  val : List Byte
  cnt : Nat
deriving DecidableEq, Repr

def State.regCnt (s : State) (v : RegView) (slot seg layer tier n : Nat) : Nat :=
  (memGet s.hbm.cells (linOf (slotFret v.dies slot) (v.d.rowAt v.f seg layer (cntPiece tier) n))).toNat

def State.member (s : State) (v : RegView) (slot seg layer tier n : Nat) : Except Halt Member := do
  let kr := v.d.keyRec tier
  let m ← s.regRow v slot seg layer (mapPiece tier) n 4
  let k ← s.regRow v slot seg layer (keyPiece tier) n kr.rowLen
  let e ← if kr.perRow then s.regRow v slot seg layer (keyPiece tier + 1) n kr.entryBytes else pure []
  let x ← if tier == 0 then pure [] else s.regRow v slot seg layer (keyPiece tier + 2) n (v.d.valRec tier).rowLen
  return { token := fld (le32 m 0) 23 0, key := k, entry := e, val := x, cnt := s.regCnt v slot seg layer tier n }

def State.members (s : State) (v : RegView) (slot seg layer tier : Nat) : Except Halt (List Member) :=
  (List.range (v.len seg layer tier slot)).mapM fun n => s.member v slot seg layer tier n

/-- Base value row of a local token index on its fret: slot, row (06 R172). -/
def RegView.valPlace (v : RegView) (h u : Nat) : Nat × Nat :=
  let g := v.d.gV
  let f := max 1 v.f
  (regSlot v.d.heads h (u / g % f), u / (g * f) * g + u % g)

/-- Scale codes of token group n of a token-axis piece. -/
def State.groupScales (s : State) (v : RegView) (slot seg layer piece n : Nat) (r : QRec) : Except Halt (List Nat) := do
  let b ← s.regRow v slot seg layer piece n (scaleRow r)
  return (List.range r.dim).map fun c => leNat (slice b (c * scaleBytes r.fp16) (scaleBytes r.fp16))

/-- Base value of a token, decoded; none when rejected (02 R45). -/
def State.baseVal (s : State) (v : RegView) (seg layer h u : Nat) : Except Halt (Option (List F32)) := do
  let r := v.d.valRec 0
  let p := v.valPlace h u
  let b ← s.regRow v p.1 seg layer 16 p.2 r.rowLen
  let sc ← s.groupScales v p.1 seg layer 17 (p.2 / v.d.gV) r
  return r.decodeToken sc b

/-- Value copy of row n of a promoted tier, decoded. -/
def State.copyVal (s : State) (v : RegView) (slot seg layer tier n : Nat) (val : List Byte) : Except Halt (Option (List F32)) := do
  let r := v.d.valRec tier
  let sc ← s.groupScales v slot seg layer (keyPiece tier + 3) (n / max 1 r.group) r
  return r.decodeToken sc val

/-! ## Writing rows -/

/-- Row n of a piece as an update; rows at or beyond `old` are covered by no edition. -/
def RegView.upd (v : RegView) (slot seg layer i n old : Nat) (b : List Byte) : Upd :=
  { fret := slotFret v.dies slot, piece := v.d.pieceCol v.f seg layer i * 32, stride := (v.d.piece v.f seg i).1, len := b.length, n := n,
    data := b, fresh := decide (old ≤ n) }

def scaleCodes (r : QRec) (l : List Nat) : List Byte := (l.map fun c => leBytes (scaleBytes r.fp16) c).flatten

/-- Device-space address of a counter. -/
def RegView.cntAddr (v : RegView) (slot seg layer tier n : Nat) : Nat :=
  2 ^ 63 + slotFret v.dies slot * 2 ^ 26 + v.d.rowAt v.f seg layer (cntPiece tier) n

/-- Position of row n of a tier's key extent on the fret of slot j of its head (06 R175): `POS_BASE` is the position of row 0. -/
def RegView.posBase (v : RegView) (seg tier j : Nat) : Nat :=
  let rows := fun s t => (v.d.piece v.f s (keyPiece t)).2
  v.f * (sumList ((List.range seg).map fun s => sumList ((List.range 3).map (rows s))) + sumList ((List.range tier).map (rows seg))) + j * rows seg tier

/-- Decodes a position (06 R175): segment, tier, slot j of the head, row. -/
def RegView.unpos (v : RegView) (p : Nat) : Option (Nat × Nat × Nat × Nat) :=
  (((List.range v.d.segs.length).map fun s => (List.range 3).map fun t => (s, t)).flatten.find? fun x =>
      decide (v.posBase x.1 x.2 0 ≤ p) && decide (p < v.posBase x.1 x.2 v.f)).map fun x =>
    let r := (v.d.piece v.f x.1 (keyPiece x.2)).2
    let o := p - v.posBase x.1 x.2 0
    (x.1, x.2, o / max 1 r, o % max 1 r)

/-- The head of a token of an HBM-resident segment, as head × 2^24 + token: its segment and the slot that holds its key. -/
def RegView.keyPlace (v : RegView) (layer x : Nat) : Option (Nat × Nat) :=
  let tok := x % 2 ^ 24
  ((List.range v.d.segs.length).find? fun i => !v.pooled i && decide ((v.d.seg i).start ≤ tok) && decide (tok < (v.d.seg i).start + v.endTok i layer)).map fun i =>
    (i, regSlot v.d.heads (x / 2 ^ 24) ((tok - (v.d.seg i).start) % max 1 v.f))

/-- Where the counter of such a token lies now (06 R177). -/
def State.keyCounter (s : State) (v : RegView) (layer x : Nat) : Option Nat :=
  (v.keyPlace layer x).bind fun p => (List.range 3).findSome? fun t => match s.members v p.2 p.1 layer t with
    | .ok ms => (ms.findIdx? fun m => m.token == x % 2 ^ 24).map fun n => v.cntAddr p.2 p.1 layer t n
    | .error _ => none

/-! ## Moves between tiers and within one (06 R178, R179, R202) -/

/-- A member with where it lay at the start, and its decoded key and value. -/
structure Item where
  m : Member
  tier : Nat
  row : Nat
  key : List F32
  val : List F32
deriving DecidableEq, Repr

/-- The three tiers of one slot. -/
abbrev Tiers := List (List Item)

def tierOf (t : Tiers) (i : Nat) : List Item := t.getD i []

/-- Removes item `x` of a tier: the last row fills its place (06 R179). -/
def removeItem (l : List Item) (x : Item) : List Item :=
  match l.getLast? with
  | none => l
  | some last => if last == x then l.dropLast else (l.dropLast).map fun y => if y == x then last else y

def moveItem (t : Tiers) (x : Item) (src dst : Nat) : Tiers :=
  let t := t.set src (removeItem (tierOf t src) x)
  t.set dst (tierOf t dst ++ [x])

/-- Loads a slot's tiers with decoded keys and values; a value that 02 R45 rejects counts as zeros (log entry 190, DESIGN CHOICE). -/
def State.loadTiers (s : State) (v : RegView) (slot seg layer h : Nat) : Except Halt Tiers :=
  (List.range 3).mapM fun tier => do
    let ms ← s.members v slot seg layer tier
    ms.zipIdx.mapM fun x => do
      let kr := v.d.keyRec tier
      let val ← if tier == 0 then s.baseVal v seg layer h (x.1.token - (v.d.seg seg).start) else s.copyVal v slot seg layer tier x.2 x.1.val
      return { m := x.1, tier := tier, row := x.2, key := kr.values x.1.key x.1.entry, val := val.getD (List.replicate v.d.dh 0) }

/-- A move pass's changes on one slot: rows, lengths, counters, converted statistics. -/
structure MoveOut where
  upds : List Upd
  lens : Tab Nat
  cnts : List (Nat × Nat × Bool)
  stats : List StatPut
  rows : Nat
  sat : Nat
deriving DecidableEq, Repr

def MoveOut.none' : MoveOut := { upds := [], lens := [], cnts := [], stats := [], rows := 0, sat := 0 }

def MoveOut.join (a b : MoveOut) : MoveOut :=
  { upds := a.upds ++ b.upds, lens := tmerge a.lens b.lens, cnts := a.cnts ++ b.cnts, stats := a.stats ++ b.stats, rows := a.rows + b.rows,
    sat := a.sat + b.sat }

def State.privOf (v : RegView) (r layer h dh : Nat) : List Nat :=
  ((tgetD v.st.priv (r * 256 + layer) []).filter fun c => c / dh == h).map fun c => c % dh

/-- History of one head's channels of a record and layer. -/
def RegView.calHead (v : RegView) (r layer h : Nat) : Cal :=
  (tgetD v.st.cal (r * 256 + layer) []).map fun e => (List.range v.d.dh).map fun c => e.getD (h * v.d.dh + c) 0

def State.margin (s : State) (r : QRec) : F32 := r.marginOf (s.reg32 (pPeg + 0x104))
def State.calWin (s : State) (r : QRec) : Nat := r.window (fld (s.reg32 (pPeg + 0x100)) 4 0)

/-- Writes back one tier of a slot: the rows whose content changed (06 R179, 02 R57, R60). Counters move as they stand at the commit. -/
def State.writeTier (s : State) (v : RegView) (slot seg layer h tier : Nat) (old : Nat) (l : List Item) (halve : Bool) : Except Halt MoveOut := do
  let kr := v.d.keyRec tier
  let vr := v.d.valRec tier
  let g := max 1 vr.group
  let kept := v.kept seg layer tier slot
  let changed := l.zipIdx.filter fun x => x.1.tier != tier || x.1.row != x.2
  -- token groups that open in this pass take their scales from the values the pass writes into them
  let scalesOf := fun (n : Nat) =>
    if n * g ≥ old then
      let vs := ((l.zipIdx.filter fun x => x.2 / g == n).map fun x => x.1.val)
      Except.ok (openScales vr (s.margin vr) (State.privOf v tier layer h v.d.dh) (v.calHead tier layer h) (chanMax v.d.dh vs))
    else s.groupScales v slot seg layer (keyPiece tier + 3) n vr
  let groups := dedupNat (changed.map fun x => x.2 / g)
  let scaleUps ← if tier == 0 then pure [] else
    (groups.filter fun n => decide (n * g ≥ old)).mapM fun n => do
      let sc ← scalesOf n
      return v.upd slot seg layer (keyPiece tier + 3) n (ceilDiv kept g) (scaleCodes vr sc)
  let outs ← changed.mapM fun x => do
    let it := x.1
    let n := x.2
    let stay := it.tier == tier
    let ek := if stay then { bytes := it.m.key, entry := it.m.entry, errs := [], sat := 0 } else kr.encodeRow it.key
    let ev ← if tier == 0 then pure none
      else if stay && it.row / g == n / g then pure (some ({ bytes := it.m.val, entry := [], errs := [], sat := 0 } : EncRow))
      else do
        let sc ← scalesOf (n / g)
        pure (some (vr.encodeToken sc it.val))
    let st : List StatPut := (if stay then [] else [{ kind := 0, number := v.ctx, fmt := kr.elem.code, errs := ek.errs, sat := ek.sat }]) ++
      (match ev with
        | some e => if e.errs.isEmpty then [] else [{ kind := 1, number := v.ctx, fmt := vr.elem.code, errs := e.errs, sat := e.sat }]
        | none => [])
    let us := [v.upd slot seg layer (keyPiece tier) n kept ek.bytes, v.upd slot seg layer (mapPiece tier) n kept (leBytes 4 it.m.token)] ++
      (if kr.perRow then [v.upd slot seg layer (keyPiece tier + 1) n kept ek.entry] else []) ++
      (match ev with
        | some e => [v.upd slot seg layer (keyPiece tier + 2) n kept e.bytes]
        | none => [])
    return { MoveOut.none' with upds := us, stats := st, rows := st.length,
                                sat := ek.sat + (match ev with
                                  | some e => e.sat
                                  | none => 0) }
  let cnts := l.zipIdx.map fun x => (v.cntAddr slot seg layer tier x.2, v.cntAddr slot seg layer x.1.tier x.1.row, halve)
  return outs.foldl MoveOut.join { MoveOut.none' with upds := scaleUps, lens := [(lenKey seg layer tier slot, l.length)], cnts := cnts }

/-- Log entry 141, DEDUCED. -/
def State.writeTiers (s : State) (v : RegView) (slot seg layer h : Nat) (t : Tiers) (halve : Bool) : Except Halt MoveOut := do
  let outs ← (List.range 3).mapM fun tier => s.writeTier v slot seg layer h tier (v.len seg layer tier slot) (tierOf t tier) halve
  return outs.foldl MoveOut.join MoveOut.none'

/-! ## Migration (06 R178) -/

/-- What a pass decides on one fret: the tiers of each segment after it, rows moved up and down, promotions that found no room. -/
structure PassAcc where
  ts : List Tiers
  moved : Nat
  up : Nat
  down : Nat
  full : Nat
deriving DecidableEq, Repr

def candOrder (cnt : Item → Nat) (a b : Nat × Item) : Bool :=
  decide (cnt b.2 < cnt a.2) || (cnt a.2 == cnt b.2 && decide (a.2.m.token ≤ b.2.m.token))

/-- Moves candidates (position of the segment, member) one after another until the fret has moved its share. -/
def passStep (d : RDesc) (batch src dst : Nat) (alt : Option Nat) (up : Bool) : List (Nat × Item) → PassAcc → PassAcc
  | [], a => a
  | x :: r, a =>
    if a.moved ≥ batch then a
    else
      let ts := a.ts.getD x.1 []
      let room := fun t => t == 0 || decide ((tierOf ts t).length < d.tierCap t)
      let goal := if d.tierOn dst && room dst then some dst else alt
      match goal with
      | some t =>
        passStep d batch src dst alt up r
          { a with ts := a.ts.set x.1 (moveItem ts x.2 src t), moved := a.moved + 1, up := a.up + b2n up, down := a.down + b2n (!up) }
      | none => passStep d batch src dst alt up r { a with full := a.full + b2n up }

/-- The steps 2 to 4 of 06 R178 on one fret, over the tiers of every segment the pass covers. -/
def passSlot (d : RDesc) (batch : Nat) (cnt : Item → Nat) (ts : List Tiers) : PassAcc :=
  let pick := fun (tier : Nat) (p : Nat → Bool) =>
    sortBy (candOrder cnt) ((ts.zipIdx.map fun t => ((tierOf t.1 tier).filter fun x => p (cnt x)).map fun x => (t.2, x)).flatten)
  let low := fun n => decide (n ≤ d.demote)
  let high := fun n => decide (n ≥ d.promote)
  let a : PassAcc := { ts := ts, moved := 0, up := 0, down := 0, full := 0 }
  let a := if d.tierOn 2 then passStep d batch 2 1 (some 0) false (pick 2 low) a else a
  let a := if d.tierOn 1 then passStep d batch 1 0 (some 0) false (pick 1 low) a else a
  let up0 := if d.tierOn 1 then some 1 else if d.tierOn 2 then some 2 else none
  let a := match up0 with
    | some dst => passStep d batch 0 dst none true (pick 0 high) a
    | none => a
  if d.tierOn 1 && d.tierOn 2 then passStep d batch 1 2 none true (pick 1 high) a else a

/-- Slots of a region: (head, slot j, region slot). -/
def RegView.slots (v : RegView) : List (Nat × Nat × Nat) :=
  ((List.range v.d.heads).map fun h => (List.range v.f).map fun j => (h, j, regSlot v.d.heads h j)).flatten

/-- Segments a pass covers. -/
def RegView.hbmSegs (v : RegView) : List Nat := (List.range v.d.segs.length).filter fun i => !v.pooled i

/-- The stage of a migration pass over one layer (06 R178 to R180). Log entry 140, DEDUCED. -/
def State.migrate (s : State) (c : Cmd) (layer : Nat) : Except Halt Done := do
  let e := s.latest (.region c.ctx)
  match s.regView c.ctx e with
  | none => return Done.of Finish.ok
  | some v =>
    let cfg := s.reg32 (pAtt + 0x100)
    let en := bitOf cfg 31
    let cnt := fun x : Item => x.m.cnt / 2
    let outs ← v.slots.mapM fun x => do
      let ts ← v.hbmSegs.mapM fun seg => s.loadTiers v x.2.2 seg layer x.1
      let a := if en then passSlot v.d (fld cfg 13 8) cnt ts else { ts := ts, moved := 0, up := 0, down := 0, full := 0 }
      let os ← v.hbmSegs.zipIdx.mapM fun y => s.writeTiers v x.2.2 y.1 layer x.1 (a.ts.getD y.2 []) true
      return (a, os.foldl MoveOut.join MoveOut.none')
    let all := outs.foldl (fun m o => m.join o.2) MoveOut.none'
    let moved := outs.any fun o => o.1.moved != 0
    let tot := fun (f : PassAcc → Nat) => sumList (outs.map fun o => f o.1)
    let delta := { Delta.none' with lens := if moved then all.lens else [], counts := all.cnts, mig := some layer }
    let (st, puts) ← s.mkStage (.region c.ctx) false moved (if moved then all.upds else []) delta
    return { fin := { Finish.ok with bumps := [(pAtt + 0x050, tot (·.up)), (pAtt + 0x058, tot (·.down)), (pAtt + 0x060, tot (·.full)),
                                               (pPeg + 0x040, all.rows), (pPeg + 0x050, all.sat)] },
             stages := [st], puts := puts, pages := [], stats := all.stats }

/-! ## KV_APPEND (06 R181 to R185) -/

def Cmd.layers (c : Cmd) : List Nat := (List.range (c.f 12 15 8)).map fun i => c.f 12 7 0 + i

/-- The view an append works on: the bound region, or what `INIT` binds. -/
def State.appendView (s : State) (c : Cmd) : Except Halt RegView := do
  if bitOf (c.w 12) 24 then
    let b ← s.fetch c 6 (c.q 14) 960
    let d := RDesc.parse b
    let dies := regionDies d.heads (s.liveDies c.part)
    return { ctx := c.ctx, dies := dies, d := d, st := { RegRec.start with desc := b }, ed := 0, past := [] }
  else
    match s.regView c.ctx (s.latest (.region c.ctx)) with
    | some v => return v
    | none => throw (.refuse stField 0x0601 0)

/-- Key and value of token i of layer position k and head h in the input. -/
def appendRow (fmt hd dh n k i h kv : Nat) (inp : List Byte) : Option (List F32) :=
  let o := (((k * n + i) * 2 + kv) * hd + h * dh) * inBytes fmt
  inputRow fmt dh (slice inp o (dh * inBytes fmt))

/-- What an append stages in one (layer, head). -/
structure AppendOut where
  upds : List Upd
  lens : Tab Nat
  opened : List (Nat × List F32)
  fixed : List Nat
  cnts : List HbmPut
  rejected : Nat
  rows : Nat
  sat : Nat
  stats : List StatPut
deriving DecidableEq, Repr

/-- Appends tokens from local index `u0` in one layer and head. A group keeps the scales that its first stored row set, until all of it is released (02 R51, 06 R202). -/
def State.appendHead (s : State) (v : RegView) (seg layer h u0 : Nat) (toks : List (Option (List F32 × List F32))) :
    Except Halt AppendOut := do
  let kr := v.d.keyRec 0
  let vr := v.d.valRec 0
  let g := v.d.gV
  let good := toks.zipIdx.filterMap fun x => x.1.map fun p => (u0 + x.2, p)
  let p := chanMax v.d.dh (good.map fun x => x.2.2)
  let set := tgetD v.st.fixed (seg * 256 + layer) []
  let wasOpen := fun (ch : Nat) => set.contains (ch * 64 + h)
  let fresh := openScales vr (s.margin vr) (State.privOf v 0 layer h v.d.dh) (v.calHead 0 layer h) p
  let scalesOf := fun (ch u : Nat) =>
    if wasOpen ch then s.groupScales v (v.valPlace h u).1 seg layer 17 ((v.valPlace h u).2 / g) vr else Except.ok fresh
  -- key rows go to the published end of each fret's COLD extent in token order
  let keyUps := (good.foldl (fun (a : List (Upd × Upd × Option Upd) × Tab Nat × List HbmPut × List StatPut × Nat) x =>
    let slot := regSlot v.d.heads h (x.1 % max 1 v.f)
    let k := lenKey seg layer 0 slot
    let old := v.len seg layer 0 slot
    let n := tgetD a.2.1 k old
    let kept := v.kept seg layer 0 slot
    let e := kr.encodeRow x.2.1
    let kb := v.upd slot seg layer 0 n kept e.bytes
    let mb := v.upd slot seg layer 2 n kept (leBytes 4 ((v.d.seg seg).start + x.1))
    let sb := if kr.perRow then some (v.upd slot seg layer 1 n kept e.entry) else none
    let cb : HbmPut := { fret := slotFret v.dies slot, off := v.d.rowAt v.f seg layer 3 n, tag := 0, data := leBytes 1 v.d.init }
    (a.1 ++ [(kb, mb, sb)], tset a.2.1 k (n + 1), a.2.2.1 ++ [cb],
      a.2.2.2.1 ++ [{ kind := 0, number := v.ctx, fmt := kr.elem.code, errs := e.errs, sat := e.sat }], a.2.2.2.2 + e.sat))
    ([], [], [], [], 0))
  let vals ← good.mapM fun x => do
    let ch := x.1 / g
    let pl := v.valPlace h x.1
    let sc ← scalesOf ch x.1
    let e := vr.encodeToken sc x.2.2
    let us := v.upd pl.1 seg layer 16 pl.2 0 e.bytes
    return ({ us with fresh := decide (v.keptEnd seg layer ≤ x.1) }, e)
  let chunks' := dedupNat (good.map fun x => x.1 / g)
  let opens := chunks'.filter fun ch => !wasOpen ch
  let scUps := opens.map fun ch =>
    let pl := v.valPlace h (ch * g)
    { v.upd pl.1 seg layer 17 (pl.2 / g) 0 (scaleCodes vr fresh) with fresh := decide (v.keptEnd seg layer ≤ ch * g) }
  return { upds := (keyUps.1.map fun x => [x.1, x.2.1] ++ x.2.2.toList).flatten ++ vals.map (·.1) ++ scUps,
           lens := keyUps.2.1, opened := good.map fun x => (x.1 * 64 + h, x.2.2),
           fixed := opens.map (fun ch => ch * 64 + h), cnts := keyUps.2.2.1,
           rejected := toks.length - good.length, rows := 2 * good.length,
           sat := keyUps.2.2.2.2 + sumList (vals.map fun x => x.2.sat),
           stats := keyUps.2.2.2.1 ++ vals.map fun x => { kind := 1, number := v.ctx, fmt := vr.elem.code, errs := x.2.errs, sat := x.2.sat } }

/-- The calibration steps of the chunks an append closes (02 R56). -/
def closedSteps (d : RDesc) (u0 n : Nat) (rows : List (Nat × List F32)) : List (List F32) :=
  let g := d.gV
  (List.range ((u0 + n) / g - u0 / g)).map fun i =>
    let ch := u0 / g + i
    ((List.range d.heads).map fun h => chanMax d.dh ((rows.filter fun x => x.1 / 64 / g == ch && x.1 % 64 == h).map (·.2))).flatten

def State.kvAppendStage (s : State) (c : Cmd) : Except Halt Done := do
  let v ← s.appendView c
  let init := bitOf (c.w 12) 24
  let inp ← s.inputOf c
  let seg := c.f 12 19 16
  let fmt := c.f 12 23 20
  let n := c.count
  let hd := v.d.heads * v.d.dh
  let privs ← if init then s.privLists v.d else pure v.st.priv
  let v := { v with st := { v.st with priv := privs } }
  let outs ← c.layers.zipIdx.mapM fun ly => do
    let u0 := v.endTok seg ly.1
    let prior := tgetD v.st.opened (seg * 256 + ly.1) []
    let hs ← (List.range v.d.heads).mapM fun h =>
      s.appendHead v seg ly.1 h u0 ((List.range n).map fun i =>
        match appendRow fmt hd v.d.dh n ly.2 i h 0 inp, appendRow fmt hd v.d.dh n ly.2 i h 1 inp with
        | some k, some x => some (k, x)
        | _, _ => none)
    let rows := prior ++ (hs.map (·.opened)).flatten
    let steps := closedSteps v.d u0 n rows
    let cal := steps.foldl (fun h st => calPush (s.calWin (v.d.rec' 1)) st h) (tgetD v.st.cal ly.1 [])
    return (ly.1, hs, rows, if steps.isEmpty then [] else [(ly.1, cal)], u0 + n)
  let hs := (outs.map fun o => o.2.1).flatten
  let cal := (outs.map fun o => o.2.2.2.1).flatten
  let delta := { Delta.none' with ends := outs.map (fun o => (seg * 256 + o.1, o.2.2.2.2)), lens := hs.foldl (fun t h => tmerge t h.lens) [],
                                  cal := cal, opened := outs.map (fun o => (seg * 256 + o.1, o.2.2.1)),
                                  fixed := outs.map (fun o => (seg * 256 + o.1, tgetD v.st.fixed (seg * 256 + o.1) [] ++ (o.2.1.map (·.fixed)).flatten)),
                                  late := v.d.calPuts cal }
  let delta := if init then
      { delta with desc := some v.st.desc, priv := privs,
                   pool := (List.range v.d.segs.length).map (fun i => (i, b2n (v.d.seg i).pool)),
                   late := v.d.countPuts privs ++ delta.late }
    else delta
  let (st, puts) ← s.mkStage (.region c.ctx) init true ((hs.map (·.upds)).flatten) delta
  let rej := sumList (hs.map (·.rejected))
  return { fin := { Finish.ok with sub := (if rej == 0 then 0 else 64), counter := rej, bumps := [(pAtt + 0x048, n * c.layers.length), (pPeg + 0x040, sumList (hs.map (·.rows))),
                                                            (pPeg + 0x050, sumList (hs.map (·.sat))), nanBump rej] },
           stages := [{ st with dies := v.dies }], puts := puts ++ (hs.map (·.cnts)).flatten, pages := [], stats := (hs.map (·.stats)).flatten }

/-! ## Ranges bound (03 R516) -/

/-- Ranges bound in the frets by others than `me`; shards as given. -/
def State.boundRegions (s : State) (me : Nat) : List BoundRange :=
  (s.regions.filter fun r : Region => r.ctx != me).map fun r => (RDesc.parse ((r.recs.head?).elim [] (·.desc))).boundNow r.dies ((r.recs.head?).elim 0 (·.pool))

def State.boundWindows (s : State) : List BoundRange := (s.fab.exp.filter fun w => w.2.getD 6 0 != 0).map fun w => windowRange w.2

end Sys2Proof.Machine
end

