-- ==== Sys2Proof/Machine/Kv.lean ====
section
/-! DEFINITION. KV_TRIM, CALIBRATE and REQUANT of a region, and the admission checks of the region's mutating commands (spec 06 R183, R195, R201 to R203, 09 R301 to R304). -/

namespace Sys2Proof.Machine

/-! ## Pool images (06 R195) -/

/-- Offsets in the image of a segment: key row, value row, value scales of a group, key scale entry. -/
def RDesc.imgKey (d : RDesc) (s l h u : Nat) : Nat := ((l * d.heads + h) * (d.seg s).cap + u) * stride4 (d.keyRec 0)
def RDesc.imgVals (d : RDesc) (s : Nat) : Nat := d.imgKey s d.layers 0 0
def RDesc.imgVal (d : RDesc) (s l h u : Nat) : Nat := d.imgVals s + ((l * d.heads + h) * (d.seg s).cap + u) * stride4 (d.valRec 0)
def RDesc.imgScales (d : RDesc) (s : Nat) : Nat := d.imgVal s d.layers 0 0
def RDesc.imgGroups (d : RDesc) (s : Nat) : Nat := ceilDiv (d.seg s).cap d.gV
def RDesc.imgScale (d : RDesc) (s l h n : Nat) : Nat := d.imgScales s + ((l * d.heads + h) * d.imgGroups s + n) * scaleRow (d.valRec 0)
def RDesc.imgEntries (d : RDesc) (s : Nat) : Nat := d.imgScale s d.layers 0 0
def RDesc.imgEntry (d : RDesc) (s l h u : Nat) : Nat := d.imgEntries s + ((l * d.heads + h) * (d.seg s).cap + u) * (d.keyRec 0).entryBytes
def RDesc.imgBytes (d : RDesc) (s : Nat) : Nat := if (d.keyRec 0).perRow then d.imgEntry s d.layers 0 0 else d.imgEntries s

/-- Every stored key of one (segment, layer, head): local index, region slot, tier, row, member. -/
def State.headKeys (s : State) (v : RegView) (seg layer h : Nat) : Except Halt (List (Nat × Nat × Nat × Nat × Member)) := do
  let l ← (List.range v.f).mapM fun j => do
    let slot := regSlot v.d.heads h j
    let ts ← (List.range 3).mapM fun tier => do
      let ms ← s.members v slot seg layer tier
      return ms.zipIdx.map fun m => (m.1.token - (v.d.seg seg).start, slot, tier, m.2, m.1)
    return ts.flatten
  return sortBy (fun a b => decide (a.1 ≤ b.1)) l.flatten

/-- The runs a spill writes for one (layer, head), its holes, its conversions (log entry 190, DESIGN CHOICE). -/
def State.spillHead (s : State) (v : RegView) (seg layer h : Nat) : Except Halt (List (Nat × List Byte) × List Nat × List StatPut × Nat) := do
  let n := v.endTok seg layer
  let kr := v.d.keyRec 0
  let vr := v.d.valRec 0
  let ks ← s.headKeys v seg layer h
  let rows := ks.map fun k =>
    let m := k.2.2.2.2
    if k.2.2.1 == 0 then (k.1, m.key, m.entry, ([] : List StatPut))
    else
      let e := kr.encodeRow ((v.d.keyRec k.2.2.1).values m.key m.entry)
      (k.1, e.bytes, e.entry, [{ kind := 0, number := v.ctx, fmt := kr.elem.code, errs := e.errs, sat := e.sat }])
  let vals ← ks.mapM fun k => do
    let p := v.valPlace h k.1
    let b ← s.regRow v p.1 seg layer 16 p.2 vr.rowLen
    return (k.1, b)
  let scales ← (dedupNat (ks.map fun k => k.1 / v.d.gV)).mapM fun g => do
    let p := v.valPlace h (g * v.d.gV)
    let b ← s.regRow v p.1 seg layer 17 (p.2 / v.d.gV) (scaleRow vr)
    return (g, b)
  let runs := rows.map (fun r => (v.d.imgKey seg layer h r.1, padTo 4 r.2.1)) ++ vals.map (fun r => (v.d.imgVal seg layer h r.1, padTo 4 r.2)) ++
    scales.map (fun r => (v.d.imgScale seg layer h r.1, r.2)) ++
    (if kr.perRow then rows.map fun r => (v.d.imgEntry seg layer h r.1, r.2.2.1) else [])
  let have' := ks.map (·.1)
  return (runs, (List.range n).filter fun u => !have'.contains u, (rows.map fun r => r.2.2.2).flatten, (rows.filter fun r => !r.2.2.2.isEmpty).length)

/-- Pool requests of a run at a fabric address. -/
def poolWrites (key addr : Nat) (runs : List (Nat × List Byte)) : List Need :=
  ((runs.map fun r => (poolPieces (r.2.length / 4096 + 2) (addr % 2 ^ 52 + r.1) r.2.length).map fun p =>
    (p.1, slice r.2 (p.1 - (addr % 2 ^ 52 + r.1)) p.2)).flatten.zipIdx).map fun x => .poolWr (key + x.2) (addr / 2 ^ 52) x.1.1 x.1.2

/-- The 4 KiB units that runs touch, filled. -/
def unitsOf (runs : List (Nat × List Byte)) : List (Nat × List Byte) :=
  let touched := dedupNat ((runs.map fun r => (List.range ((r.1 + r.2.length - 1) / 4096 + 1 - r.1 / 4096)).map fun i => r.1 / 4096 + i).flatten)
  touched.map fun u => (u, runs.foldl (fun b r =>
    let lo := max r.1 (u * 4096)
    let hi := min (r.1 + r.2.length) (u * 4096 + 4096)
    if lo < hi then overwrite b (lo - u * 4096) (slice r.2 (lo - r.1) (hi - lo)) else b) (zeros 4096))

/-- First LUA of the lowest page-aligned free run of the partition's window (log entry 43, DESIGN CHOICE). -/
def State.freeExtent (s : State) (p units : Nat) : Option Nat :=
  let window := tgetD s.fte.len p 0 * 2 ^ 18
  let used := s.fte.extents.filter fun x => x.part == p
  let starts := 0 :: used.map fun x => roundUp (x.lua + x.units) 4
  let fits := starts.filter fun a => decide (a + units ≤ window) && !(used.any fun x => rangesMeet a units x.lua x.units)
  if used.length ≥ 256 then none
  else match fits with
    | [] => none
    | a :: r => some (r.foldl min a)

/-! ## KV_TRIM (06 R201 to R203) -/

/-- Removes the members at or beyond a new end from one slot. -/
def trimSlot (first : Nat) (t : Tiers) : Tiers :=
  (List.range 3).map fun tier => ((tierOf t tier).filter fun x => decide (first ≤ x.m.token)).foldl removeItem (tierOf t tier)

def State.discardStage (s : State) (v : RegView) (seg n : Nat) : Except Halt (Stage × List HbmPut × MoveOut) := do
  let ends := (List.range v.d.layers).map fun l => (seg * 256 + l, v.endTok seg l - n)
  let outs ← if v.pooled seg then pure [] else
    ((List.range v.d.layers).map fun l => v.slots.map fun x => (l, x)).flatten.mapM fun y => do
      let t ← s.loadTiers v y.2.2.2 seg y.1 y.2.1
      s.writeTiers v y.2.2.2 seg y.1 y.2.1 (trimSlot ((v.d.seg seg).start + v.endTok seg y.1 - n) t) false
  let all := outs.foldl MoveOut.join MoveOut.none'
  let opened := (List.range v.d.layers).map fun l =>
    (seg * 256 + l, (tgetD v.st.opened (seg * 256 + l) []).filter fun x => decide (x.1 / 64 < v.endTok seg l - n))
  let fixed := (List.range v.d.layers).map fun l =>
    (seg * 256 + l, (tgetD v.st.fixed (seg * 256 + l) []).filter fun x => decide (x / 64 * v.d.gV < v.endTok seg l - n))
  let (st, puts) ← s.mkStage (.region v.ctx) false true all.upds
    { Delta.none' with ends := ends, lens := all.lens, opened := opened, fixed := fixed, counts := all.cnts }
  return (st, puts, all)

def State.kvTrimStage (s : State) (c : Cmd) : Except Halt Done := do
  match s.regView c.ctx (s.latest (.region c.ctx)) with
  | none => throw (.refuse stField 0x0601 0)
  | some v =>
    let seg := c.f 12 11 8
    if c.f 12 1 0 == 0 then
      let (st, puts, all) ← s.discardStage v seg (c.f 13 24 0)
      return { fin := { Finish.ok with bumps := [(pPeg + 0x040, all.rows), (pPeg + 0x050, all.sat)] }, stages := [st], puts := puts, pages := [],
               stats := all.stats }
    else
      let hs ← ((List.range v.d.layers).map fun l => (List.range v.d.heads).map fun h => (l, h)).flatten.mapM fun x => do
        let r ← s.spillHead v seg x.1 x.2
        return (x, r)
      let runs := (hs.map fun x => x.2.1).flatten
      let holes := hs.map fun x => ((seg * 256 + x.1.1) * 64 + x.1.2, x.2.2.1)
      -- replayed, it changes residency only (13 R426)
      if (match c.origin with
        | .replay _ => true
        | _ => false) then
        let (st, puts) ← s.mkStage (.region c.ctx) false true [] { Delta.none' with pool := [(seg, 1)], holes := holes }
        return { fin := Finish.ok, stages := [st], puts := puts, pages := [], stats := [] }
      let _ ← (poolWrites (2 ^ 60) (v.d.seg seg).addr runs).mapM fun n =>
        match n with
        | .poolWr key _ _ _ => (needKey c key n).map fun _ => ()
        | _ => Except.ok ()
      let flash := bitOf (c.w 12) 2
      let units := ceilDiv (v.d.imgBytes seg) 4096
      let img ← if !flash then pure none else
        match s.freeExtent c.part units with
        | some a => pure (some a)
        | none => throw (.refuse stField 0x0B06 0)
      let pages := match img with
        | some a => (unitsOf runs).map fun u => { lua := a + u.1, off := 0, data := u.2 }
        | none => []
      let delta := { Delta.none' with pool := [(seg, 1)], holes := holes, images := match img with
        | some a => [(seg, a, units)]
        | none => [] }
      let (st, puts) ← s.mkStage (.region c.ctx) false true [] delta
      return { fin := { Finish.ok with bumps := [(pPeg + 0x040, sumList (hs.map fun x => x.2.2.2.2))] }, stages := [st], puts := puts, pages := pages,
               stats := (hs.map fun x => x.2.2.2.1).flatten }

/-! ## CALIBRATE (09 R301, 02 R59) -/

/-- Log entry 133, DESIGN CHOICE. -/
def State.calibrateStage (s : State) (c : Cmd) : Except Halt Done := do
  match s.regView c.ctx (s.latest (.region c.ctx)) with
  | none => throw (.refuse stField 0x0601 0)
  | some v =>
    let layer := c.f 12 7 0
    let ri := c.f 12 9 8
    let r := v.d.rec' (2 * ri + 1)
    let inp ← s.inputOf c
    let rows ← queryRows (c.f 12 13 10) r.dim c.count inp
    let g := max 1 r.group
    let key := ri * 256 + layer
    let old := tgetD v.st.cal key []
    let steps := (List.range (c.count / g)).map fun i => chanMax r.dim ((rows.drop (i * g)).take g)
    let cal := steps.foldl (fun h st => calPush (s.calWin r) st h) old
    let sel := bitOf (c.w 12) 14
    let priv := selectPriv r old (chanMax r.dim rows)
    let delta := { Delta.none' with cal := if steps.isEmpty then [] else [(key, cal)], priv := if sel then [(key, priv)] else [],
                                    late := (if steps.isEmpty then [] else v.d.calPuts [(key, cal)]) ++ (if sel then v.d.listPuts [(key, priv)] ++ v.d.countPuts [(key, priv)] else []) }
    let (st, puts) ← s.mkStage (.region c.ctx) false (sel || !steps.isEmpty) [] delta
    return { fin := { Finish.ok with counter := steps.length }, stages := [st], puts := puts, pages := [], stats := [] }

/-! ## REQUANT of a region (09 R302 to R304) -/

/-- The replacement is layout-compatible (09 R303). -/
def compatible (a b : QRec) (ra rb : List Byte) : Bool :=
  let norm := fun l : List Byte => leBytes 4 (setFld (setFld (le32 l 0) 28 24 0) 3 0 0) ++ zeros 4 ++ l.drop 8
  norm ra == norm rb && (a.elem == b.elem ||
    ([Fmt.int8, Fmt.e4m3, Fmt.e5m2].contains a.elem && [Fmt.int8, Fmt.e4m3, Fmt.e5m2].contains b.elem) ||
    ([Fmt.int4, Fmt.e2m1].contains a.elem && [Fmt.int4, Fmt.e2m1].contains b.elem))

/-- The rows of a region's piece under a replacement record; a stored row that 02 R45 rejects counts as zeros (log entry 190, DESIGN CHOICE). -/
def State.requantRows (s : State) (v : RegView) (keys : Bool) (nr : QRec) : Except Halt (List Upd × List StatPut × Nat × Nat) := do
  let sites := ((List.range v.d.segs.length).map fun seg => (List.range v.d.layers).map fun l => (List.range v.d.heads).map fun h => (seg, l, h)).flatten.flatten
  let hr := { nr with dim := v.d.dh, headDim := v.d.dh }
  let outs ← sites.mapM fun x => do
    if keys then
      let kr := v.d.keyRec 0
      let ks ← s.headKeys v x.1 x.2.1 x.2.2
      let l := (ks.filter fun k => k.2.2.1 == 0).map fun k =>
        let e := hr.encodeRow (kr.values k.2.2.2.2.key k.2.2.2.2.entry)
        let slot := k.2.1
        let n := k.2.2.2.1
        ([v.upd slot x.1 x.2.1 0 n (n + 1) e.bytes] ++ (if kr.perRow then [v.upd slot x.1 x.2.1 1 n (n + 1) e.entry] else []), e)
      return (l.map fun y => (y.1, ({ kind := 0, number := v.ctx, fmt := hr.elem.code, errs := y.2.errs, sat := y.2.sat } : StatPut)))
    else
      let us := ((tgetD v.st.opened (x.1 * 256 + x.2.1) []).filter fun y => y.1 % 64 == x.2.2).map fun y => y.1 / 64
      let groups := dedupNat (us.map fun u => u / v.d.gV)
      let l ← groups.mapM fun g => do
        let mine := us.filter fun u => u / v.d.gV == g
        let vals ← mine.mapM fun u => do
          let b ← s.baseVal v x.1 x.2.1 x.2.2 u
          return (u, b.getD (List.replicate v.d.dh 0))
        let sc := (List.range v.d.dh).map fun ch => (groupScale hr.elem hr.fp16 (vals.map fun y => y.2.getD ch 0)).1
        let p := v.valPlace x.2.2 (g * v.d.gV)
        let su := v.upd p.1 x.1 x.2.1 17 (p.2 / v.d.gV) (p.2 / v.d.gV + 1) (scaleCodes hr sc)
        let rows := vals.map fun y =>
          let e := hr.encodeToken sc y.2
          let q := v.valPlace x.2.2 y.1
          ([v.upd q.1 x.1 x.2.1 16 q.2 (q.2 + 1) e.bytes],
            ({ kind := 1, number := v.ctx, fmt := hr.elem.code, errs := e.errs, sat := e.sat } : StatPut))
        return ([su], ({ kind := 1, number := v.ctx, fmt := hr.elem.code, errs := [], sat := 0 } : StatPut)) :: rows
      return l.flatten
  let all := outs.flatten
  return ((all.map (·.1)).flatten, all.map (·.2), (all.filter fun x => !x.2.errs.isEmpty).length, sumList (all.map fun x => x.2.sat))

/-- The staged rows need more than one fret can hold (09 R303). -/
def State.exceeds (s : State) (us : List Upd) : Bool :=
  let gs := groupUpds us
  (dedupNat (us.map (·.fret))).any fun f =>
    let mine := gs.filter fun g => g.any fun u => u.fret == f
    let cols := sumList (mine.map fun g => match g with
      | u :: _ => (u.span.1 + u.span.2 - 1) / 32 + 1 - u.col
      | [] => 0)
    decide (mine.length > 256) || decide (cols > s.stageSize (stackOf f) * 8192)

def State.requantRegion (s : State) (c : Cmd) : Except Halt Done := do
  match s.regView c.ctx (s.latest (.region c.ctx)) with
  | none => throw (.refuse stField 0x0601 0)
  | some v =>
    let b ← s.fetch c 1 (c.q 13) 64
    let i := c.f 12 1 0
    let (us, stats, rows, sat) ← s.requantRows v (i == 0) (QRec.parse b)
    let (st, puts) ← s.mkStage (.region c.ctx) false true us { Delta.none' with desc := some (overwrite v.st.desc (64 + 64 * i) b) }
    return { fin := { Finish.ok with counter := rows, bumps := [(pPeg + 0x040, rows), (pPeg + 0x050, sat)] }, stages := [st], puts := puts, pages := [], stats := stats }

/-! ## Admission checks -/

/-- Address, structure and edition checks shared by the region's mutating commands. -/
def State.kvAppendCheck (s : State) (c : Cmd) (others : List BoundRange) (dyn : Bool) : Except Halt Unit := do
  let init := bitOf (c.w 12) 24
  refuseIf [(c.count == 0, okNow),
    (c.f 12 31 25 != 0 || c.f 13 31 24 != 0 || !c.zero 16 31 || !inFmtOk (c.f 12 23 20) || (!init && c.q 14 != 0), bf 0x060A),
    (!init && s.latest (.region c.ctx) == 0, bf 0x0601)]
  if init then refuseOpt (s.rangeBad c.part (c.q 14) 960)
  let v ← s.appendView c
  let live := (s.liveDies c.part).length
  let seg := c.f 12 19 16
  let lf := c.f 12 7 0
  let ln := c.f 12 15 8
  if init then
    let r := v.d.bound v.dies
    refuseIf [(v.d.bad v.st.desc live (s.topCol v.dies) || others.any r.meets, bf 0x0610)]
    refuseOpt (v.d.privRanges.filterMap fun x => s.devRangeBad c.part x.1 x.2).head?
    let bad ← ((List.range 3).filter v.d.tierOn).mapM fun t => do
      let k ← s.privFails (v.d.rec' (2 * t)) 1
      let x ← s.privFails (v.d.rec' (2 * t + 1)) v.d.layers
      return k || x
    refuseIf [(bad.any id, bf 0x0610)]
  refuseIf [(ln == 0 || decide (lf + ln > v.d.layers) || decide (seg ≥ v.d.segs.length), bf 0x0602), (c.kReq != 0, bf 0x0904), (c.edReq != 0, bf 0x0803)]
  let size := ln * c.count * 2 * v.d.heads * v.d.dh * inBytes (c.f 12 23 20)
  if dyn then
    let e := v.d.seg seg
    let pooled := if init then e.pool else v.pooled seg
    refuseIf [(pooled, bf 0x0604), (c.layers.any fun l => c.f 13 23 0 != e.start + v.endTok seg l, bf 0x0605),
      (c.layers.any fun l => decide (v.endTok seg l + c.count > e.cap), bf 0x0606)]
  refuseIf [(c.inLen != size, bf 0x0607), (init && s.confidential c.part && (v.d.segs.any (·.pool)), (stDenied, 0x0932, 0))]
  refuseOpt (s.ranges c [])
  if init then refuseOpt (v.d.ranges.filterMap fun x => s.devRangeBad c.part x.1 x.2).head?

def State.kvTrimCheck (s : State) (c : Cmd) (dyn : Bool) : Except Halt Unit := do
  let spill := c.f 12 1 0 == 1
  refuseIf [(c.count == 0 || c.f 13 24 0 == 0, okNow)]
  match s.regView c.ctx (s.latest (.region c.ctx)) with
  | none => throw (.refuse stField 0x0601 0)
  | some v =>
    let seg := c.f 12 11 8
    refuseIf [(decide (c.count > 1) || decide (seg ≥ v.d.segs.length) || decide (c.f 12 1 0 > 1) || c.f 12 7 3 != 0 || c.f 12 31 12 != 0 ||
        c.f 13 31 25 != 0 || !c.zero 14 31 || (bitOf (c.w 12) 2 && !spill), bf 0x0604),
      (c.kReq != 0, bf 0x0904), (c.edReq != 0, bf 0x0803), (spill && s.confidential c.part, (stDenied, 0x0932, 0))]
    if dyn then
      let n := c.f 13 24 0
      refuseIf [((List.range v.d.layers).any fun l => decide (n > v.endTok seg l), bf 0x0609),
        (spill && (((List.range v.d.layers).any fun l => n != v.endTok seg l) || v.pooled seg || (v.d.seg seg).addr == 0), bf 0x0609)]
    refuseOpt (s.ranges c [])

def State.calibrateCheck (s : State) (c : Cmd) : Except Halt Unit := do
  refuseIf [(c.count == 0, okNow),
    (c.f 12 9 8 == 3 || c.f 12 31 15 != 0 || !c.zero 13 31 || !inFmtOk (c.f 12 13 10), bf 0x0902)]
  match s.regView c.ctx (s.latest (.region c.ctx)) with
  | none => throw (.refuse stField 0x0601 0)
  | some v =>
    let r := v.d.rec' (2 * c.f 12 9 8 + 1)
    refuseIf [(decide (c.f 12 7 0 ≥ v.d.layers), bf 0x0602), (!v.d.tierOn (c.f 12 9 8), bf 0x0915),
      (bitOf (c.w 12) 14 && r.privAddr == 0, bf 0x0917), (c.inLen != c.count * r.dim * inBytes (c.f 12 13 10), bf 0x0607),
      (c.kReq != 0, bf 0x0904), (c.edReq != 0, bf 0x0803)]
    refuseOpt (s.ranges c [])

/-- Checks of REQUANT before its target is looked at. -/
def requantFields (c : Cmd) : List (Bool × (Nat × Nat × Nat)) :=
  [(c.count == 0, okNow),
   (c.f 12 1 0 == 3 || c.f 12 31 14 != 0 || (c.f 12 1 0 != 2 && c.f 12 13 2 != 0) || !c.zero 15 31 || decide (c.count > 1) || c.inLen != 0 ||
     c.outLen != 0 || c.kReq != 0 || c.edReq != 0, bf 0x0902)]

def State.requantRegionCheck (s : State) (c : Cmd) (dyn : Bool) : Except Halt Unit := do
  match s.regView c.ctx (s.latest (.region c.ctx)) with
  | none => throw (.refuse stField 0x0601 0)
  | some v =>
    refuseOpt (s.rangeBad c.part (c.q 13) 64)
    let b ← s.fetch c 1 (c.q 13) 64
    let nr := QRec.parse b
    let i := c.f 12 1 0
    refuseIf [(nr.bad .fret, bf 0x0911)]
    refuseOpt (if nr.privCount == 0 then none else s.devRangeBad c.part nr.privAddr (if i == 0 then 128 else v.d.layers * 128))
    let priv ← s.privFails nr (if i == 0 then 1 else v.d.layers)
    refuseIf [(priv, bf 0x0911), (!compatible (v.d.rec' i) nr (slice v.st.desc (64 + 64 * i) 64) b, bf 0x0912)]
    if dyn then
      refuseIf [((List.range v.d.segs.length).any v.pooled, bf 0x0914)]
      let (us, _, _, _) ← s.requantRows v (i == 0) nr
      refuseIf [(s.exceeds us, bf 0x0913)]

end Sys2Proof.Machine
end

