-- ==== Sys2Proof/Machine/Attend.lean ====
section
/-! DEFINITION. ATTEND (spec 06 R175 to R177, R186 to R192, R196 to R200, 05 R166). -/

namespace Sys2Proof.Machine

def Cmd.layer (c : Cmd) : Nat := c.f 12 7 0
def Cmd.vout (c : Cmd) : Nat := c.f 12 9 8
def Cmd.carryMode (c : Cmd) : Bool := bitOf (c.w 14) 0
def Cmd.collId (c : Cmd) : Nat := c.w 15

/-- The whole output with t tie slots (06 R188). -/
def attendSize (c : Cmd) (d : RDesc) (t : Nat) : Nat :=
  let b := c.count * d.heads * d.qper
  if c.vout == 0 then b * blockSize (c.kReq + t) else roundUp (b * blockSize (c.kReq + t)) 64 + b * d.dh * (if c.vout == 1 then 4 else 2)

/-- Segments a call scans, as their indexes. -/
def Cmd.segs (c : Cmd) : List Nat := bitsOf 16 (c.f 12 31 16)

def State.attendCheck (s : State) (c : Cmd) (dyn : Bool) : Except Halt Unit := do
  refuseIf [(c.count == 0, okNow)]
  match s.regView c.ctx (s.latest (.region c.ctx)) with
  | none => throw (.refuse stField 0x0601 0)
  | some v =>
    let d := v.d
    let tau : F32 := BitVec.ofNat 32 (c.w 13)
    let coll := c.collId != 0
    refuseIf [(decide (c.layer ≥ d.layers), bf 0x0602), (decide (c.count * d.qper > 8), bf 0x0603),
      (c.segs.any fun i => decide (i ≥ d.segs.length), bf 0x0604),
      (!F32.finite tau || bitOf (c.w 13) 31 || (F32.val tau).m == 0 || c.vout == 3, bf 0x0608),
      (c.f 12 11 10 != 0 || !inFmtOk (c.f 12 15 12) || c.f 14 31 3 != 0 || c.f 16 31 22 != 0 || !c.zero 17 31 || (!coll && c.w 16 != 0) ||
        (coll && (c.f 16 20 12 == 0 || decide (c.f 16 20 12 > 256))), bf 0x060A),
      (c.inLen != c.count * d.heads * d.qper * d.dh * inBytes (c.f 12 15 12), bf 0x0607), (decide (c.kReq > 4096), bf 0x0904)]
    if dyn then
      match s.edBad (.region c.ctx) c.edReq with
      | some sub => throw (.refuse stField sub 0)
      | none => pure ()
    refuseIf (sizeChecks c (attendSize c d 0))
    refuseIf [(s.confidential c.part && (coll || c.segs.any v.pooled), (stDenied, 0x0932, 0))]
    refuseOpt (s.ranges c [])

/-! ## Pool-resident segments -/

/-- A re-run that cannot read its flash image either (06 R200). -/
def rerunFails (c : Cmd) : Except Halt (List Byte) → Except Halt (List Byte)
  | .error (.fail _ _ _ _ _) => .error (.fail stPoolLost 0x0991 0 [(if c.opcode == 0x20 then pAtt else pGcu, 0)] [(pCmp + 0x060, 1)])
  | x => x

/-- Bytes of a segment's image: from the pool, or from its flash image on the fall-back path (06 R200). A re-run reads every segment that has an image from flash (log entry 194, DEDUCED). -/
def State.imageRead (s : State) (c : Cmd) (v : RegView) (seg key off n : Nat) : Except Halt (List Byte) :=
  if n == 0 then .ok []
  else
    match (if c.poolRerun then (s.region v.ctx).bind fun r => tget r.images seg else none) with
    | some lua => rerunFails c (flashBytes c lua off n)
    | none => poolRead c key ((v.d.seg seg).addr + off) n

/-- Row of the prefetch buffer for a token of a layer and head. -/
def State.pfRow (s : State) (c : Cmd) (src h tok : Nat) : Option PfRow :=
  (s.part c.part).pf.find? fun r => r.src == src && r.target == c.ctx && r.index == (c.layer * 64 + h) * 2 ^ 24 + tok

def tokKey (seg h u kind : Nat) : Nat := 2 ^ 40 + ((seg * 64 + h) * 2 ^ 25 + u) * 4 + kind

/-- The carry set of a layer and head (06 R198). Log entry 142, DEDUCED. -/
def State.carrySet (s : State) (d : RDesc) (layer h : Nat) : Except Halt (List Nat) := do
  if d.carry == 0 then return []
  let a := d.carry + (layer * d.heads + h) * 32768
  let n ← s.readDev a 4
  let b ← s.readDev (a + 4) (4 * min 8191 (le32 n 0))
  return (List.range (min 8191 (le32 n 0))).map fun i => le32 b (4 * i)

/-- One pool token scored for a head: its segment, local index, key row, scale entry, whether it came from the buffer. -/
structure PoolTok where
  seg : Nat
  u : Nat
  key : List Byte
  entry : List Byte
  hit : Bool
deriving DecidableEq, Repr

/-- Log entry 145, DEDUCED. -/
def RegView.hole (v : RegView) (seg layer h u : Nat) : Bool := (tgetD v.st.holes ((seg * 256 + layer) * 64 + h) []).contains u

/-- The pool tokens a call scores in one head, and how many it leaves unscored (06 R191, R196, R197). -/
def State.poolToks (s : State) (c : Cmd) (v : RegView) (h : Nat) (full : Bool) : Except Halt (List PoolTok × Nat) := do
  let kr := v.d.keyRec 0
  let set ← if full then pure [] else s.carrySet v.d c.layer h
  let l ← (c.segs.filter v.pooled).mapM fun seg => do
    let n := v.endTok seg c.layer
    let start := (v.d.seg seg).start
    if full then
      let ks ← s.imageRead c v seg (tokKey seg h 0 0) (v.d.imgKey seg c.layer h 0) (n * stride4 kr)
      let es ← if kr.perRow then s.imageRead c v seg (tokKey seg h 0 1) (v.d.imgEntry seg c.layer h 0) (n * kr.entryBytes) else pure []
      return (((List.range n).filter fun u => !v.hole seg c.layer h u).map fun u =>
        ({ seg := seg, u := u, key := slice ks (u * stride4 kr) kr.rowLen,
           entry := if kr.perRow then slice es (u * kr.entryBytes) kr.entryBytes else [], hit := false } : PoolTok), 0)
    else
      let mine := set.filter fun t => decide (start ≤ t) && decide (t < start + n) && !v.hole seg c.layer h (t - start)
      let rows ← mine.mapM fun t => do
        match s.pfRow c 6 h t with
        | some r => return ({ seg := seg, u := t - start, key := slice r.data 0 kr.rowLen, entry := r.data.drop kr.rowLen, hit := true } : PoolTok)
        | none =>
          let k ← s.imageRead c v seg (tokKey seg h (t - start) 0) (v.d.imgKey seg c.layer h (t - start)) kr.rowLen
          let e ← if kr.perRow then s.imageRead c v seg (tokKey seg h (t - start) 1) (v.d.imgEntry seg c.layer h (t - start)) kr.entryBytes else pure []
          return { seg := seg, u := t - start, key := k, entry := e, hit := false }
      return (rows, n - mine.length)
  return ((l.map (·.1)).flatten, sumList (l.map (·.2)))

/-- Value row and group scales of a pool token, decoded (06 R196); a carry-mode call takes them from the prefetch buffer where it holds them (06 R199). -/
def State.poolVal (s : State) (c : Cmd) (v : RegView) (h seg u : Nat) : Except Halt (Option (List F32) × Option PfRow) := do
  let r := v.d.valRec 0
  let tok := (v.d.seg seg).start + u
  match if c.carryMode then s.pfRow c 7 h tok else none with
  | some p => return (r.decodeToken ((List.range r.dim).map fun i => leNat (slice (p.data.drop r.rowLen) (i * scaleBytes r.fp16) (scaleBytes r.fp16))) (slice p.data 0 r.rowLen), some p)
  | none =>
    let b ← s.imageRead c v seg (tokKey seg h u 2) (v.d.imgVal seg c.layer h u) r.rowLen
    let g := u / v.d.gV
    let sc ← s.imageRead c v seg (tokKey seg h (g * v.d.gV) 3) (v.d.imgScale seg c.layer h g) (scaleRow r)
    return (r.decodeToken ((List.range r.dim).map fun i => leNat (slice sc (i * scaleBytes r.fp16) (scaleBytes r.fp16))) b, none)

/-! ## HBM-resident segments -/

/-- One HBM key as scored: where it lies, its position and the token its map word gives (06 R175), its row. -/
structure HbmKey where
  seg : Nat
  tier : Nat
  slot : Nat
  row : Nat
  pos : Nat
  token : Nat
  dec : Option RowDec
  val : List Byte
deriving DecidableEq, Repr

/-- Log entry 136, DESIGN CHOICE. -/
def State.hbmKeys (s : State) (c : Cmd) (v : RegView) (h : Nat) : Except Halt (List (Nat × List HbmKey)) :=
  (List.range v.f).mapM fun j => do
    let slot := regSlot v.d.heads h j
    let l ← ((c.segs.filter fun i => !v.pooled i).map fun seg => (List.range 3).map fun t => (seg, t)).flatten.mapM fun x => do
      let ms ← s.members v slot x.1 c.layer x.2
      return ms.zipIdx.map fun m =>
        ({ seg := x.1, tier := x.2, slot := slot, row := m.2, pos := v.posBase x.1 x.2 j + m.2, token := m.1.token, dec := (v.d.keyRec x.2).read m.1.key m.1.entry, val := m.1.val } : HbmKey)
    return (slot, l.flatten)

/-- The token index of a position the frets scored: it is decoded, and the token map word read at the command's edition (06 R175). -/
def RegView.tokenAt (v : RegView) (h : Nat) (ks : List HbmKey) (pos : Nat) : Nat :=
  ((v.unpos pos).bind fun p => (ks.find? fun k => k.seg == p.1 && k.tier == p.2.1 && k.slot == regSlot v.d.heads h p.2.2.1 && k.row == p.2.2.2).map (·.token)).getD nullId

/-- What a call does in one (position, head); `ovf` the stacks that resolve the strum in three passes (03 R85). -/
structure HeadOut where
  head : Nat
  blocks : List SelOut
  keys : List HbmKey
  pool : List PoolTok
  skipped : Nat
  nan : Nat
  ovf : List Nat
  strokes : List (Nat × Nat)
deriving DecidableEq, Repr

def State.attendHead (s : State) (c : Cmd) (v : RegView) (pos h t : Nat) (full : Bool) (qs : List (List F32)) : Except Halt HeadOut := do
  let kr := v.d.keyRec 0
  let tau : F32 := BitVec.ofNat 32 (c.w 13)
  let ks ← s.hbmKeys c v h
  let (pt, skipped) ← s.poolToks c v h full
  let poolDec := pt.map fun p => (p, kr.read p.key p.entry)
  let loads := qs.zipIdx.map fun q => Query.load c.id [pos, h, q.2, 0] kr kr.query q.1
  let outs := loads.zipIdx.map fun q =>
    let at' := [pos, h, q.2]
    let one := fun (x : HbmKey) => x.dec.map fun d =>
      (x.pos, F32.posZero (F32.mul ((v.d.keyRec x.tier).score c.id (at' ++ [1, x.slot, x.seg, x.tier, x.row]) q.1 d) tau))
    let strum : List Strummed := ks.map fun k => ⟨slotFret v.dies k.1, (k.2.filterMap one).map fun e => (v.tokenAt h k.2 e.1, e.2)⟩
    let ex := poolDec.filterMap fun p => p.2.map fun d =>
      ((v.d.seg p.1.seg).start + p.1.u, (arrayScore c.id (at' ++ [2, p.1.seg]) p.1.u kr q.1 d none none tau).1)
    select c.id at' c.kReq t false (strum.filter fun p => !p.scores.isEmpty) ex
  let perFret := ks.map fun k => (slotFret v.dies k.1, k.2.length)
  -- no histogram or emit pass runs when k is 0 (05 R150)
  let full := fun n => decide (n * v.d.qper > 4096) && c.kReq != 0
  let ovf := dedupNat ((perFret.filter fun k => full k.2).map fun k => stackOf k.1)
  let strokes := ks.map fun k =>
    let one := sumList ((c.segs.filter fun i => !v.pooled i).map fun seg => sumList ((List.range 3).map fun tier =>
      strokesOf (stride4 (v.d.keyRec tier)) (v.d.keyRec tier).rowLen (v.len seg c.layer tier k.1)))
    (slotFret v.dies k.1, if full k.2.length then 3 * one else one)
  return { head := h, blocks := outs, keys := (ks.map (·.2)).flatten, pool := pt, skipped := skipped,
           nan := (((ks.map (·.2)).flatten.filter fun k => k.dec.isNone).length + (poolDec.filter fun p => p.2.isNone).length),
           ovf := ovf, strokes := strokes }

/-- Values of the tokens selected in one (position, head), the prefetch rows used, and the value rows rejected: such a row is left out of the value sum while its token stays selected (02 R45; log entry 191, DESIGN CHOICE). -/
def State.selVals (s : State) (c : Cmd) (v : RegView) (o : HeadOut) (ids : List Nat) : Except Halt (List (Nat × List F32) × List PfRow × Nat) := do
  let l ← (dedupNat ids).mapM fun id => do
    match o.keys.find? fun k => k.token == id with
    | some k =>
      let x ← if k.tier == 0 then s.baseVal v k.seg c.layer o.head (k.token - (v.d.seg k.seg).start)
        else s.copyVal v k.slot k.seg c.layer k.tier k.row k.val
      return (x.map fun y => (id, y), none, b2n x.isNone)
    | none =>
      match o.pool.find? fun p => (v.d.seg p.seg).start + p.u == id with
      | some p =>
        let x ← s.poolVal c v o.head p.seg p.u
        return (x.1.map fun y => (id, y), x.2, b2n x.1.isNone)
      | none => return (none, none, 0)
  return (l.filterMap (·.1), l.filterMap (·.2.1), sumList (l.map (·.2.2)))

/-- The weighted value sum of a block (06 R189). -/
def valueSum (tag : Nat) (at' : List Nat) (dh : Nat) (m : F32) (ids : List (Nat × F32)) (vals : List (Nat × List F32)) : List F32 :=
  wsum tag at' dh (ids.filterMap fun e => (vals.find? fun x => x.1 == e.1).map fun x => (expTerm e.2 m, x.2))

/-! ## The commit of a call (06 R177, R198) -/

/-- The HBM tokens a call selected in a head, as head × 2^24 + token (06 R177). -/
def selCounters (o : HeadOut) (ids : List Nat) : List Nat :=
  (o.keys.filter fun k => ids.contains k.token).map fun k => o.head * 2 ^ 24 + k.token

/-- The new carry record of a head: the pool tokens selected by the most query heads, in ascending order. -/
def carryRecord (sel : List Nat) : List Byte :=
  let toks := dedupNat sel
  let count := fun t => (sel.filter fun x => x == t).length
  let kept := (sortBy (fun a b => decide (count b < count a) || (count a == count b && decide (a ≤ b))) toks).take 8191
  leBytes 4 kept.length ++ ((sortBy (fun a b => decide (a ≤ b)) kept).map fun t => leBytes 4 t).flatten

/-! ## Prefetch of the next layer (06 R199) -/

/-- Rows of one carry token of the next layer: key with its entry, value with its scales; none where unread. -/
def State.prefetchTok (c : Cmd) (v : RegView) (layer h seg u : Nat) : Except Halt (List PfRow) := do
  let kr := v.d.keyRec 0
  let vr := v.d.valRec 0
  let base := softKey + tokKey seg h u 0
  let rd := fun key off n => poolRead c key ((v.d.seg seg).addr + off) n
  let k ← rd base (v.d.imgKey seg layer h u) kr.rowLen
  let e ← if kr.perRow then rd (base + 1) (v.d.imgEntry seg layer h u) kr.entryBytes else pure []
  let x ← rd (base + 2) (v.d.imgVal seg layer h u) vr.rowLen
  let sc ← rd (base + 3) (v.d.imgScale seg layer h (u / v.d.gV)) (scaleRow vr)
  let ix := (layer * 64 + h) * 2 ^ 24 + (v.d.seg seg).start + u
  let row := fun src d => ({ src := src, target := c.ctx, index := ix, edition := 0, data := d } : PfRow)
  return (if k.length < kr.rowLen || (kr.perRow && e.isEmpty) then [] else [row 6 (k ++ e)]) ++
    (if x.length < vr.rowLen || sc.length < scaleRow vr then [] else [row 7 (x ++ sc)])

def State.prefetchNext (s : State) (c : Cmd) (v : RegView) : Except Halt (List PfRow × Bool) := do
  let layer := c.layer + 1
  if !bitOf (c.w 14) 1 || decide (layer ≥ v.d.layers) then return ([], false)
  let want ← (List.range v.d.heads).mapM fun h => do
    let set ← s.carrySet v.d layer h
    return (set.map fun t => ((List.range v.d.segs.length).find? fun i =>
      v.pooled i && decide ((v.d.seg i).start ≤ t) && decide (t < (v.d.seg i).start + v.endTok i layer)).map fun i => (h, i, t - (v.d.seg i).start)).filterMap id
  let size := (v.d.keyRec 0).rowLen + (if (v.d.keyRec 0).perRow then (v.d.keyRec 0).entryBytes else 0) + (v.d.valRec 0).rowLen + scaleRow (v.d.valRec 0)
  let free := (s.part c.part).pfUnits * 65536 - pfBytes (s.part c.part).pf
  let all := want.flatten
  let fit := all.take (free / max 1 size)
  let rows ← fit.mapM fun x => State.prefetchTok c v layer x.1 x.2.1 x.2.2
  return (rows.flatten, decide (fit.length < all.length) || rows.any fun r => decide (r.length < 2))

/-! ## The call -/

/-- Blocks of a collective's merge as handed back: one after another, each with its own slots. -/
def readBlocks : Nat → List Byte → List SelBlock
  | 0, _ => []
  | n + 1, l => (readBlock l 0).2 :: readBlocks n (l.drop (blockSize (le32 l 20)))

/-- The merged maximum and own IDs the root returned for each query (05 R166). -/
def readMerged : Nat → List Byte → List (F32 × List Nat)
  | 0, _ => []
  | n + 1, l => (BitVec.ofNat 32 (le32 l 0), (List.range (le32 l 4)).map fun i => le64 l (8 + 8 * i)) :: readMerged n (l.drop (8 + 8 * le32 l 4))

def collKey : Nat := 2 ^ 70

/-- A call of one layer (06 R186 to R192). A key row rejected in several query positions counts once in each (02 R45; log entry 192, DESIGN CHOICE). -/
def State.attendWork (s : State) (c : Cmd) : Except Halt Done := do
  match s.regView c.ctx (s.edOf c (.region c.ctx)) with
  | none => throw (.refuse stField 0x0601 0)
  | some v =>
    let d := v.d
    let coll := c.collId != 0
    let root := bitOf (c.w 16) 21
    let t := if coll then (if c.ties && c.kReq != 0 then 64 else 0) else tieSlots c (attendSize c d)
    let inp ← s.inputOf c
    let qs ← queryRows (c.f 12 15 12) d.dh (c.count * d.heads * d.qper) inp
    useSram c (d.qper * (8 * d.dh + 32 + 16 * (c.kReq + t))) (c.count * d.heads)
    let hbm := c.segs.any fun i => !v.pooled i
    s.selParity
    let sets ← if c.carryMode then (List.range d.heads).mapM fun h => s.carrySet d c.layer h else pure []
    let full := !c.carryMode || sets.all (·.isEmpty)
    let sites := ((List.range c.count).map fun p => (List.range d.heads).map fun h => (p, h)).flatten
    let outs ← sites.mapM fun x => do
      -- a pass is the call of one KV head (10 R325)
      if hbm then s.usePass c (x.1 * d.heads + x.2)
      let o ← s.attendHead c v x.1 x.2 t full ((qs.drop ((x.1 * d.heads + x.2) * d.qper)).take d.qper)
      return (x, o)
    let poolRows := sumList (outs.map fun o => o.2.pool.length)
    let kr := d.keyRec 0
    s.useArray c (2 ^ 33) (arrShape (if poolRows == 0 then 0 else c.count * d.qper) poolRows d.dh kr.query kr.elem kr.group (stride4 kr) none)
    let own := (outs.map fun o => o.2.blocks.map (·.block)).flatten
    -- the blocks returned, and for each the maximum and entries whose values this node accumulates
    let merged ← if coll then needKey c collKey (.coll collKey own) else pure []
    let blocks := if coll && root then readBlocks own.length merged else own
    let mine : List (F32 × List (Nat × F32)) :=
      if coll then ((readMerged own.length (if root then merged.drop (blocksBytes blocks).length else merged)).zip own).map fun x => (x.1.1, (x.2.entries.filter fun e => x.1.2.contains e.id).map fun e => (e.id, e.score))
      else own.map fun b => (b.m, b.entries.map fun e => (e.id, e.score))
    let byHead := outs.zipIdx.map fun o => (o.1, (mine.drop (o.2 * d.qper)).take d.qper)
    let vals ← byHead.mapM fun x =>
      if c.vout == 0 then Except.ok ([], [], 0) else s.selVals c v x.1.2 ((x.2.map fun y => y.2.map (·.1)).flatten)
    let poolSel := sumList (byHead.map fun x => ((dedupNat ((x.2.map fun y => y.2.map (·.1)).flatten)).filter fun id =>
      x.1.2.pool.any fun p => (d.seg p.seg).start + p.u == id).length)
    s.useArray c (2 ^ 33 + 1) (arrShape (if poolSel == 0 || c.vout == 0 then 0 else c.count * d.qper) poolSel d.dh .fp32 (d.valRec 0).elem 0 (stride4 (d.valRec 0)) none)
    let sums := ((byHead.zip vals).map fun x => x.1.2.zipIdx.map fun y => valueSum c.id [9, x.1.1.1.1, x.1.1.1.2, y.2] d.dh y.1.1 y.1.2 x.2.1).flatten
    let total ← if coll && c.vout != 0 then do
        let b ← needKey c (collKey + 1) (.vals (collKey + 1) sums)
        pure ((chunks (4 * d.dh) sums.length b).map fun r => (List.range d.dh).map fun i => BitVec.ofNat 32 (le32 r (4 * i)))
      else pure sums
    let (pfAdd, pfDrop) ← s.prefetchNext c v
    let slots := c.kReq + (if coll then tieSlots c (attendSize c d) else t)
    let body := (blocks.map fun b => blockBytes b slots).flatten
    let out := if c.vout == 0 then body
      else padTo 64 body ++ (total.map fun r => (r.map fun x => outputBytes (if c.vout == 1 then 0 else 1) x).flatten).flatten
    let count := !bitOf (c.w 14) 2
    let selOf := fun (x : ((Nat × Nat) × HeadOut) × List (F32 × List (Nat × F32))) => (x.2.map fun y => y.2.map (·.1)).flatten
    let incs := if count then dedupNat ((byHead.map fun x => selCounters x.1.2 (selOf x)).flatten) else []
    let pooled := c.segs.any v.pooled
    let carry := if count && pooled && d.carry != 0 then (List.range d.heads).map fun h =>
        let sel := (byHead.filter fun x => x.1.1.2 == h).map fun x => (selOf x).filter fun id => x.1.2.pool.any fun p => (d.seg p.seg).start + p.u == id
        (d.carry + (c.layer * d.heads + h) * 32768, carryRecord sel.flatten)
      else []
    let hits := (outs.map fun o => o.2.pool.filter (·.hit)).flatten.length + sumList (vals.map fun x => x.2.1.length)
    let keep := bitOf (s.reg32 (pGcu + 0x100)) 1
    let used := (outs.map fun o => o.2.pool.filterMap fun p => if p.hit then s.pfRow c 6 o.2.head ((d.seg p.seg).start + p.u) else none).flatten ++ (vals.map (·.2.1)).flatten
    let skipped := sumList ((outs.filter fun o => o.1.1 == 0).map fun o => o.2.skipped)
    let sel := outs.map fun o => o.2.blocks
    let strokes := (outs.map fun o => o.2.strokes).flatten
    let nan := sumList (outs.map fun o => o.2.nan) + sumList (vals.map (·.2.2))
    selCounts sel.flatten
    let scanned := sumList (own.map (·.scanned))
    let writes := !coll || root
    return Done.of
      { Finish.ok with
          status := if writes then selStatus c.kReq stShort blocks else stOk
          sub := (if writes then selFlags blocks else 0) ||| (if nan == 0 then 0 else 64)
          result := if writes then selResult blocks else 0
          counter := skipped, edition := v.ed
          out := if writes then out else []
          bumps := ((sel.flatten.map (·.bumps)).flatten) ++ strokeBumps strokes ++ (outs.map fun o => o.2.ovf.map fun st => (pSbc st + 0x088, 1)).flatten ++
            [(pAtt + 0x040, 1), (pAtt + 0x078, poolRows), (pAtt + 0x080, skipped), (pAtt + 0x088, hits),
             (pAtt + 0x090, b2n (outs.any fun o => !o.2.ovf.isEmpty)), nanBump nan,
             (pPeg + 0x060, qs.length)],
          errs := if pfDrop then [(pAtt, 2)] else [], late := carry, incs := incs, layer := some c.layer, pfAdd := pfAdd,
          pfUse := if keep then [] else used,
          charges := workCharges scanned (qs.length * d.dh) (sumList (strokes.map (·.2))),
          bucket := maxList (sel.flatten.map (·.bucket)) }

end Sys2Proof.Machine
end

