-- ==== Sys2Proof/Machine/Corpus.lean ====
section
/-! DEFINITION. Shards: the descriptor, placement, slot records, IDs, ingest, codes, full vectors, adjacency records (spec 07 R204 to R214, 02 R515). -/

namespace Sys2Proof.Machine

/-! ## Descriptor (07 R205, R206) -/

structure SDesc where
  num : Nat
  metric : Nat
  degree : Nat
  entryCount : Nat
  alpha : Nat
  consL : Nat
  rev : Nat
  sideCap : Nat
  dca : Nat
  slotCap : Nat
  entryAddr : Nat
  projAddr : Nat
  rescale : Nat
  ddesc : Nat
  adj : Nat
  vec : Nat
  cacheUnits : Nat
  code : QRec
  full : QRec
  proj : QRec
deriving DecidableEq, Repr

def SDesc.parse (b : List Byte) : SDesc :=
  let w := fun i => le32 b (4 * i)
  { num := fld (w 0) 19 8, metric := fld (w 0) 21 20, degree := fld (w 0) 30 24, entryCount := fld (w 1) 6 0, alpha := fld (w 1) 15 8,
    consL := fld (w 1) 25 16, rev := fld (w 2) 6 0, sideCap := fld (w 3) 26 0, dca := fld (w 4) 20 0, slotCap := le64 b 24,
    entryAddr := le64 b 32, projAddr := le64 b 40, rescale := le64 b 48, ddesc := le64 b 56, adj := le64 b 64, vec := le64 b 72,
    cacheUnits := fld (w 20) 11 0, code := QRec.parse (slice b 128 64), full := QRec.parse (slice b 192 64), proj := QRec.parse (slice b 256 64) }

/-- A record of rows outside every fret layout (02 R515). -/
def QRec.bad515 (r : QRec) (table : Bool) : Bool :=
  r.histAddr != 0 || r.privCount != 0 || r.privAddr != 0 || (r.elem.unscaled && r.scaleAddr != 0) ||
    (r.axis == 1 && (!table || r.scaleAddr == 0)) || (r.axis == 0 && r.group == 0 && r.elem.zp && r.scaleAddr == 0)

/-- Frets of the shard, and V of 07 R213. -/
def vecSize (r : QRec) : Nat := ((List.range 24).map fun i => 2 ^ (i + 9)).find? (fun v => decide (r.rowLen ≤ v)) |>.getD (2 ^ 32)

/-- Stride and rows of piece i of 07 R208. -/
def SDesc.piece (d : SDesc) (f i : Nat) : Nat × Nat :=
  let rk := ceilDiv d.slotCap (max 1 f)
  let rs := ceilDiv d.sideCap (max 1 f)
  match i with
  | 0 => (stride4 d.code, rk)
  | 1 | 2 => (d.code.entryBytes, rk)
  | 3 => (8, rk)
  | 4 => (stride4 d.code, rs)
  | 5 => (d.code.entryBytes, rs)
  | 6 => (8, rs)
  | 7 => (4096, d.cacheUnits * 16)
  | _ => (0, 0)

def SDesc.pieceCol (d : SDesc) (f i : Nat) : Nat := d.dca + sumList ((List.range i).map fun j => pieceCols (d.piece f j))
def SDesc.endCol (d : SDesc) (f : Nat) : Nat := d.pieceCol f 8
def SDesc.rowAt (d : SDesc) (f i n : Nat) : Nat := d.pieceCol f i * 32 + (d.piece f i).1 * n

/-- Output channels of the projection. -/
def SDesc.channels (d : SDesc) : Nat := if d.metric == 1 then d.code.dim - 1 else d.code.dim

def SDesc.bound (d : SDesc) (dies : List Nat) : BoundRange := { dies := dies, doms := [], lo := d.dca, hi := d.endCol (64 * dies.length) }

/-- The flash extents of a shard (11 R355): adjacency, full vectors. -/
def SDesc.extents (d : SDesc) : List (Nat × Nat) := [(d.adj, d.slotCap), (d.vec, ceilDiv (d.slotCap * vecSize d.full) 4096)]

/-- What 07 R206 refuses with 0x0710, but for overlaps. -/
def SDesc.bad (d : SDesc) (b : List Byte) (dies : Nat) (top : Nat) : Bool :=
  let w := fun i => le32 b (4 * i)
  let f := 64 * dies
  let l2 := d.metric == 1
  fld (w 0) 7 0 != 1 || d.metric == 3 || fld (w 0) 23 22 != 0 || bitOf (w 0) 31 || d.degree == 0 || decide (d.degree > 64) ||
  d.entryCount == 0 || decide (d.entryCount > 64) || bitOf (w 1) 7 || decide (d.alpha < 64) || d.consL == 0 || decide (d.consL > 512) ||
  fld (w 1) 31 26 != 0 || d.rev == 0 || decide (d.rev > 64) || fld (w 2) 31 7 != 0 || d.sideCap == 0 || decide (d.sideCap > 2 ^ 26) ||
  fld (w 3) 31 27 != 0 || fld (w 4) 31 21 != 0 || w 5 != 0 || d.slotCap == 0 || decide (d.slotCap > f * 2 ^ 24) || fld (w 20) 31 12 != 0 ||
  (slice b 84 44).any (· != 0) ||
  d.code.bad .fret || d.full.bad .array || d.code.axis == 1 || d.code.group != 0 || !d.code.query.fretQuery ||
  d.full.axis == 1 || (d.full.group == 0 && (d.full.elem.zp || (!d.full.elem.unscaled && d.full.fp16))) ||
  [d.code, d.full].any (fun r => r.scaleAddr != 0 || r.histAddr != 0 || r.privCount != 0) ||
  (if d.projAddr == 0 then (slice b 256 64).any (· != 0) || (if l2 then decide (d.code.dim < d.full.dim + 1) else d.code.dim != d.full.dim)
   else d.proj.bad .array || d.proj.bad515 false || d.proj.dim != d.full.dim) ||
  (l2 && decide (d.code.dim < 2)) || decide (d.endCol f > top)

/-- Overlaps of a layout with what the partition has bound (03 R516); `num` is the shard itself. -/
def State.boundShards (s : State) (num : Nat) : List BoundRange :=
  (s.shards.filter fun x : Shard => x.num != num).map fun x => (SDesc.parse ((x.recs.head?).elim [] (·.desc))).bound x.dies

def State.otherBounds (s : State) (ctx num : Nat) : List BoundRange := s.boundRegions ctx ++ s.boundShards num ++ s.boundWindows

/-! ## A shard at an edition -/

structure SView where
  num : Nat
  dies : List Nat
  d : SDesc
  st : ShardRec
  ed : Nat
  past : List ShardRec
deriving DecidableEq, Repr

def State.shView (s : State) (num e : Nat) : Option SView :=
  match s.shard num with
  | none => none
  | some x => (shardAt x e).map fun r => { num := num, dies := x.dies, d := SDesc.parse r.desc, st := r, ed := e, past := x.recs }

def SView.f (v : SView) : Nat := max 1 (64 * v.dies.length)

/-- Fret of slot or ring entry n. -/
def SView.fretOf (v : SView) (n : Nat) : Nat := slotFret v.dies (n % v.f)
/-- Row of a slot; ring row of a side entry. -/
def SView.slotRow (v : SView) (i : Nat) : Nat := i / v.f
def SView.ringRows (v : SView) : Nat := ceilDiv v.d.sideCap v.f
def SView.ringRow (v : SView) (n : Nat) : Nat := n / v.f % max 1 v.ringRows

def State.shRow (s : State) (v : SView) (fret piece n len : Nat) : Except Halt (List Byte) :=
  if len == 0 then .ok [] else s.readRow fret (v.d.rowAt v.f piece n) len v.ed

def SView.upd (v : SView) (fret piece n : Nat) (fresh : Bool) (b : List Byte) : Upd :=
  { fret := fret, piece := v.d.pieceCol v.f piece * 32, stride := (v.d.piece v.f piece).1, len := b.length, n := n, data := b, fresh := fresh }

/-! ## Slot records and IDs (07 R204, R209, R210) -/

def free' : Nat := 0
def side' : Nat := 1
def live' : Nat := 2
def tomb' : Nat := 3

def makeId (num gen slot : Nat) : Nat := num * 2 ^ 52 + gen * 2 ^ 44 + slot
def idShard (id : Nat) : Nat := id / 2 ^ 52
def idGen (id : Nat) : Nat := id / 2 ^ 44 % 256
def idSlot (id : Nat) : Nat := id % 2 ^ 44

def srGen (w : Nat) : Nat := w % 256
def srState (w : Nat) : Nat := fld w 9 8
def srFscale (w : Nat) : Nat := fld w 23 16
def srAttr (w : Nat) : Nat := fld w 31 24
def srTags (w : Nat) : Nat := w / 2 ^ 32
def setState (w st : Nat) : Nat := setFld w 9 8 st

def State.slotRec (s : State) (v : SView) (i : Nat) : Except Halt Nat := (s.shRow v (v.fretOf i) 3 (v.slotRow i) 8).map leNat

def SView.inRange (v : SView) (id : Nat) : Bool := idShard id == v.num && decide (idSlot id < v.d.slotCap)

/-- The slot record of an ID that names a vector in one of the states. -/
def State.named (s : State) (v : SView) (id : Nat) (states : List Nat) : Except Halt (Option Nat) :=
  if !v.inRange id then .ok none
  else (s.slotRec v (idSlot id)).map fun w => if srGen w == idGen id && states.contains (srState w) then some w else none

/-- The mask value of a scale entry (07 R209). -/
def SDesc.mask (d : SDesc) : List Byte :=
  if d.code.fp16 then slice ([0x00, 0x7E] ++ zeros 6) 0 d.code.entryBytes else slice ((0xFF : Byte) :: zeros 7) 0 d.code.entryBytes

/-- Side ring entries from head to tail, with their IDs. -/
def State.sideIds (s : State) (v : SView) : Except Halt (List (Nat × Nat)) :=
  (List.range (v.st.tail - v.st.head)).mapM fun i => do
    let n := v.st.head + i
    let b ← s.shRow v (v.fretOf n) 6 (v.ringRow n) 8
    return (n, leNat b)

/-- The oldest head a running command can still read (07 R224). -/
def State.reuseHead (s : State) (x : Shard) : Nat :=
  ((s.readers (.shard x.num)).filterMap fun e => (shardAt x e).map (·.head)).foldl min ((x.recs.head?).elim 0 (·.head))

/-- The side fill (07 R224). -/
def State.sideFill (s : State) (x : Shard) : Nat := (x.recs.head?).elim 0 (·.tail) - s.reuseHead x

/-! ## Codes (07 R208, R211, R216) -/

/-- Row of the code extent under the routing (piece 1) or scan (piece 2) scales. -/
def State.codeRow (s : State) (v : SView) (i scales : Nat) : Except Halt (Option RowDec × Bool) := do
  let b ← s.shRow v (v.fretOf i) 0 (v.slotRow i) v.d.code.rowLen
  let e ← s.shRow v (v.fretOf i) scales (v.slotRow i) v.d.code.entryBytes
  return (v.d.code.read b e, e == v.d.mask)

def State.sideRow (s : State) (v : SView) (n : Nat) : Except Halt (Option RowDec × Bool) := do
  let b ← s.shRow v (v.fretOf n) 4 (v.ringRow n) v.d.code.rowLen
  let e ← s.shRow v (v.fretOf n) 5 (v.ringRow n) v.d.code.entryBytes
  return (v.d.code.read b e, e == v.d.mask)

/-- A code score; −0 reads as +0 (05 R134). -/
def SView.score (v : SView) (tag : Nat) (at' : List Nat) (q : Query) (d : RowDec) : F32 := F32.posZero (v.d.code.score tag at' q d)

/-- Channels that 07 R243 takes distances over. -/
def SView.channels (v : SView) (d : RowDec) : List F32 := (v.d.code.decode d).take v.d.channels

/-- The ingest step: unit norm for cosine (07 R211). -/
def ingest (tag : Nat) (at' : List Nat) (metric : Nat) (xs : List F32) : List F32 :=
  if metric != 2 then xs
  else
    let n := F32.sqrt (fsum tag (at' ++ [0]) (xs.map fun x => F32.mul x x))
    if (F32.val n).m == 0 then xs else xs.map fun x => F32.div x n

/-- A device-space row at an edition. -/
def State.devRow (s : State) (a n e : Nat) : Except Halt (List Byte) :=
  match devAddr a with
  | some (f, o) => if n == 0 then .ok [] else s.readRow f o n e
  | none => .ok (zeros n)

/-- The parameter matrix; a row that does not decode ends the command (02 R45, 04 R124). -/
def State.projRows (s : State) (v : SView) : Except Halt (List RowDec) :=
  if v.d.projAddr == 0 then .ok []
  else (List.range v.d.channels).mapM fun i => do
    let r := v.d.proj
    let b ← s.devRow (v.d.projAddr + i * r.rowLen) r.rowLen v.ed
    let e ← if r.perRow && r.scaleAddr != 0 then s.devRow (r.scaleAddr + i * r.entryBytes) r.entryBytes v.ed else pure []
    match r.read b e with
    | some d => return d
    | none => throw (badData 0x0952)

/-- What a command needs to form codes: the matrix and its rescale table. -/
structure Coder where
  rows : List RowDec
  re : Rescale
deriving DecidableEq, Repr

def State.coder (s : State) (c : Cmd) (v : SView) : Except Halt Coder := do
  let rows ← s.projRows v
  let re ← if v.d.projAddr == 0 then pure none else s.fetchRescale c (2 ^ 20 + 4 * v.num) v.d.rescale v.d.channels
  return { rows := rows, re := re.getD (List.replicate v.d.channels (f32One, 0)) }

/-- The code vector of an ingested vector or query (07 R206, R211). -/
def codeVec (tag : Nat) (at' : List Nat) (v : SView) (k : Coder) (query : Bool) (xs : List F32) : List F32 :=
  let x := if v.d.projAddr == 0 then xs else project tag (at' ++ [1]) v.d.proj k.rows k.re xs
  let n := v.d.channels
  let y := (List.range n).map fun i => x.getD i 0
  if v.d.metric != 1 then y
  else y ++ [if query then f32One else F32.negate (F32.mul (fsum tag (at' ++ [2]) (y.map fun a => F32.mul a a)) 0x3F000000)]

/-- Code and rerank queries of 07 R216. -/
def queryPair (tag : Nat) (at' : List Nat) (v : SView) (k : Coder) (xs : List F32) : Query × Query :=
  let x := ingest tag (at' ++ [0]) v.d.metric xs
  (Query.load tag (at' ++ [1]) v.d.code v.d.code.query (codeVec tag (at' ++ [2]) v k true x), Query.load tag (at' ++ [3]) v.d.full v.d.full.query x)

/-- The Array work of projecting so many vectors. -/
def SView.projShape (v : SView) (n : Nat) : ArrShape :=
  if v.d.projAddr == 0 then arrShape 0 0 0 .int8 .int8 0 0 none
  else arrShape n v.d.channels v.d.full.dim v.d.proj.query v.d.proj.elem v.d.proj.group v.d.proj.rowLen none

/-- A vector as stored: code row with its scale entry, full row, FSCALE. -/
structure EncVec where
  code : EncRow
  full : EncRow
  fscale : Nat
deriving DecidableEq, Repr

def encodeVec (tag : Nat) (at' : List Nat) (v : SView) (k : Coder) (xs : List F32) : EncVec :=
  let x := ingest tag (at' ++ [0]) v.d.metric xs
  let f := v.d.full.encodeRow x
  { code := v.d.code.encodeRow (codeVec tag (at' ++ [2]) v k false x), full := f, fscale := if v.d.full.perRow then byteAt f.entry 0 else 0 }

/-! ## Flash records (07 R212, R213, R223, R229) -/

/-- A unit of flash; none when it was unreadable (11 R373). -/
def flashTry (c : Cmd) (lua : Nat) : Except Halt (Option (List Byte)) :=
  (needKey c (flashKey lua) (.flash lua)).map fun l => if l.isEmpty then none else some l

structure Edge where
  id : Nat
  len : F32
deriving DecidableEq, Repr

structure Adj where
  self : Nat
  prim : List Edge
  pend : List Edge
deriving DecidableEq, Repr

def readEdge (b : List Byte) (i : Nat) : Edge := { id := le64 b (16 + 16 * i), len := BitVec.ofNat 32 (le32 b (24 + 16 * i)) }

/-- A usable record of node `self` (07 R223). -/
def Adj.parse (b : List Byte) (self : Nat) : Option Adj :=
  let p := byteAt b 1 % 128
  let q := byteAt b 2
  if byteAt b 0 != 1 || decide (p > 64) || decide (p + q > 255) || le64 b 8 != self then none
  else some { self := self, prim := (List.range p).map (readEdge b), pend := (List.range q).map fun i => readEdge b (p + i) }

def Adj.none' (self : Nat) : Adj := { self := self, prim := [], pend := [] }

def Adj.bytes (a : Adj) : List Byte :=
  slice (leBytes 1 1 ++ leBytes 1 a.prim.length ++ leBytes 1 a.pend.length ++ zeros 5 ++ leBytes 8 a.self ++
    ((a.prim ++ a.pend).map fun e => leBytes 8 e.id ++ leBytes 4 e.len.toNat ++ zeros 4).flatten) 0 4096

/-- A record as read: usable or not, and whether the cache held it (07 R214). -/
def State.adjOf (s : State) (c : Cmd) (v : SView) (id : Nat) : Except Halt (Option Adj × Bool) :=
  match tget v.st.cache (idSlot id) with
  | some n => (s.shRow v (v.fretOf (idSlot id)) 7 n 4096).map fun b => (Adj.parse b id, true)
  | none => (flashTry c (v.d.adj + idSlot id)).map fun b => (b.bind fun b => Adj.parse b id, false)

/-- Units that hold the full vector of a slot, and the byte it starts at. -/
def SView.vecUnits (v : SView) (i : Nat) : List Nat :=
  let a := i * vecSize v.d.full
  (List.range ((a + vecSize v.d.full - 1) / 4096 + 1 - a / 4096)).map fun k => v.d.vec + a / 4096 + k

/-- The stored bytes of a full vector; none when a unit was unreadable. -/
def vecBytes (c : Cmd) (v : SView) (i : Nat) : Except Halt (Option (List Byte)) := do
  let us ← (v.vecUnits i).mapM (flashTry c)
  let a := i * vecSize v.d.full
  if us.any (·.isNone) then return none
  return some (slice ((us.map fun u => u.getD []).flatten) (a % 4096) v.d.full.rowLen)

/-- Decodes a full vector with the FSCALE of its slot record. -/
def SView.fullDec (v : SView) (b : List Byte) (rec' : Nat) : Option RowDec :=
  v.d.full.read b (if v.d.full.perRow then leBytes 1 (srFscale rec') else [])

/-- A full vector written by a stage. -/
def SView.vecPut (v : SView) (i : Nat) (b : List Byte) : List FlashPut :=
  let a := i * vecSize v.d.full
  (chunks 4096 (ceilDiv b.length 4096) b).zipIdx.map fun x => { lua := v.d.vec + a / 4096 + x.2, off := if x.2 == 0 then a % 4096 else 0, data := x.1 }

end Sys2Proof.Machine
end

