-- ==== Sys2Proof/Machine/Walk.lean ====
section
/-! DEFINITION. Walks of the graph and side-list strums (spec 07 R215 to R226). -/

namespace Sys2Proof.Machine

/-! ## Lists (07 R217) -/

def Node.before (a b : Node) : Bool := F32.lt b.score a.score || (a.score == b.score && decide (a.id ≤ b.id))

/-- Inserts a node; the last entry of a list over its capacity leaves. -/
def insNode (cap : Nat) (l : List Node) (n : Node) : List Node × Bool :=
  let r := insertBy Node.before n l
  (r.take cap, decide (cap < r.length))

/-! ## The filter (07 R231) -/

structure Filter where
  on : Bool
  mask : Nat
  value : Nat
  any : Nat
  lo : Nat
  hi : Nat
deriving DecidableEq, Repr

def Filter.none' : Filter := { on := false, mask := 0, value := 0, any := 0, lo := 0, hi := 255 }

def Filter.passes (f : Filter) (rec' : Nat) : Bool :=
  !f.on || ((srTags rec' &&& f.mask) == f.value && (f.any == 0 || (srTags rec' &&& f.any) != 0) && decide (f.lo ≤ srAttr rec' ∧ srAttr rec' ≤ f.hi))

/-! ## Targets (07 R218 to R220) -/

def bloomBits (id : Nat) : List Nat := (List.range 3).map fun i => Config.visitHash i id % 2 ^ 19

/-- One target of an expansion, or one entry point: filter, slot record, pluck, classification (07 R219). -/
def State.visit (s : State) (tag : Nat) (v : SView) (q : Query) (flt : Filter) (w : Walk) (id : Nat) : Except Halt Walk := do
  let bits := bloomBits id
  if bits.all w.bloom.contains then return w
  let w := { w with bloom := w.bloom ++ bits.filter fun b => !w.bloom.contains b, visited := w.visited + 1 }
  match ← s.named v id [live', tomb'] with
  | none => return { w with dangling := w.dangling + 1 }
  | some r =>
    let (row, _) ← s.codeRow v (idSlot id) 1
    match row with
    | none => return { w with nanRows := w.nanRows + 1 }
    | some d =>
      let n : Node := { id := id, score := v.score tag [4, w.query, id] q d, slotRec := r }
      let (f, out) := insNode w.width w.frontier n
      let w := { w with frontier := f, pool := (insNode w.width w.pool n).1, evicted := w.evicted + b2n out }
      if srState r == live' && flt.passes r then
        return { w with result := (insNode w.width w.result n).1, filterPass := w.filterPass + 1 }
      else return w

def State.visitAll (s : State) (tag : Nat) (v : SView) (q : Query) (flt : Filter) (w : Walk) (ids : List Nat) : Except Halt Walk :=
  ids.foldlM (fun w id => s.visit tag v q flt w id) w

/-! ## Ends and expansions (07 R221, R222) -/

/-- `endc` of a walk that has not ended. -/
def running : Nat := 3

/-- The end condition that holds now. An empty frontier ends a walk once no expansion is in flight (log entry 45, DEDUCED). -/
def Walk.endNow (w : Walk) : Option Nat :=
  match w.frontier, w.pool.getLast? with
  | [], _ => if w.flying.isEmpty then some 1 else if w.expanded ≥ w.hops then some 2 else none
  | a :: _, l =>
    let conv := match l with
      | some z => decide (w.k ≤ w.result.length) && decide (w.width ≤ w.pool.length) && !Node.before a z
      | none => false
    if conv then some 0 else if w.expanded ≥ w.hops then some 2 else none

/-- Starts expansions while the walk may: up to BEAM in flight. -/
def Walk.launch : Nat → Walk → Walk
  | 0, w => w
  | n + 1, w =>
    if w.endc != running then w
    else
      match w.endNow with
      | some e => { w with endc := e }
      | none =>
        match w.frontier with
        | [] => w
        | a :: r =>
          if w.flying.length ≥ w.beam then w
          else
            Walk.launch n { w with frontier := r, flying := w.flying ++ [a.id], expanded := w.expanded + 1,
                                   tombVisits := w.tombVisits + b2n (srState a.slotRec == tomb') }

/-- A walk has ended: its end condition holds and nothing is in flight. -/
def Walk.ended (w : Walk) : Bool := w.endc != running && w.flying.isEmpty

def Walk.new (id cmd shard query edition width k beam hops sideN : Nat) : Walk :=
  { id := id, cmd := cmd, shard := shard, query := query, edition := edition, phase := .waiting, width := width, k := k, beam := beam,
    hops := hops, sideN := sideN, frontier := [], pool := [], result := [], bloom := [], flying := [], visited := 0, expanded := 0,
    filterPass := 0, tombVisits := 0, dangling := 0, evicted := 0, nanRows := 0, endc := running, side := if sideN == 0 then some [] else none,
    sideAt := 0, mem := 0, area := false }

/-- The walk begins with its entry points. Log entry 112, DEDUCED. -/
def State.walkBegin (s : State) (tag : Nat) (v : SView) (q : Query) (flt : Filter) (w : Walk) : Except Halt Walk :=
  (s.visitAll tag v q flt { w with phase := .walking } v.st.entries).map fun w => w.launch 9

/-- Slots of targets that can be plucked. Log entry 114, DEDUCED. -/
def rowsPlucked (v : SView) (w : Walk) (ids : List Nat) : List Nat :=
  (dedupNat ids).filter fun id => v.inRange id && !(bloomBits id).all w.bloom.contains

/-- What one expansion, or a walk's beginning, counts beside the walk's own counts: plucks, strokes. -/
def pluckBumps (v : SView) (ids : List Nat) : List (Nat × Nat) :=
  (pGwe + 0x060, ids.length) :: strokeBumps (ids.map fun id =>
    let o := v.d.rowAt v.f 0 (v.slotRow (idSlot id))
    (v.fretOf (idSlot id), (o + v.d.code.rowLen - 1) / 32 + 1 - o / 32))

/-- GWE counters of the growth of a walk's counts. -/
def walkBumps (a b : Walk) : List (Nat × Nat) :=
  [(pGwe + 0x048, b.expanded - a.expanded), (pGwe + 0x068, b.tombVisits - a.tombVisits), (pGwe + 0x070, b.dangling - a.dangling),
   (pGwe + 0x078, b.evicted - a.evicted), nanBump (b.nanRows - a.nanRows)]

/-- What an expansion's record read counts, and its error bit. -/
def adjBumps (x : Option Adj × Bool) : List (Nat × Nat) := [(if x.2 then pGwe + 0x050 else pGwe + 0x058, 1), (pGwe + 0x0B8, b2n x.1.isNone)]

/-- An expansion returns: its targets enter the lists and further expansions start. -/
def State.walkExpand (s : State) (tag : Nat) (v : SView) (q : Query) (flt : Filter) (w : Walk) (id : Nat) (a : Option Adj) : Except Halt Walk :=
  let targets := a.elim [] fun r => r.prim.map (·.id)
  (s.visitAll tag v q flt { w with flying := w.flying.filter (· != id) } targets).map fun w => w.launch 9

/-- A whole walk of a stage: expansions return in an open order (07 R222). -/
def State.walkRun (s : State) (c : Cmd) (v : SView) (q : Query) : Nat → Walk → List (Nat × Nat) → Except Halt (Walk × List (Nat × Nat))
  | 0, w, l => .ok (w, l)
  | n + 1, w, l =>
    match w.flying with
    | [] => .ok (w, l)
    | a :: r => do
      let id := (a :: r).getD (Config.arrival c.id [5, w.query, w.shard] w.expanded % (r.length + 1)) a
      let x ← s.adjOf c v id
      let ids := rowsPlucked v w (x.1.elim [] fun r => r.prim.map (·.id))
      let w' ← s.walkExpand c.id v q Filter.none' w id x.1
      s.walkRun c v q n w' (l ++ adjBumps x ++ pluckBumps v ids)

/-! ## Side strums (07 R226) -/

/-- One vector's side scores, by core die: (position, entry, score). -/
structure SideHit where
  die : Nat
  pos : Nat
  entry : Nat
  score : F32
deriving DecidableEq, Repr

def sideBefore (a b : SideHit) : Bool := F32.lt b.score a.score || (a.score == b.score && decide (a.pos ≤ b.pos))

/-- The side candidates of one vector, and the rows rejected. -/
def State.sideCands (s : State) (tag : Nat) (v : SView) (query : Nat) (q : Query) (flt : Filter) (n : Nat) : Except Halt (List Node × Nat) := do
  let ids ← s.sideIds v
  let rows ← ids.mapM fun e => do
    let (r, _) ← s.sideRow v e.1
    return r.map fun d => ({ die := e.1 % v.f / 64, pos := (e.1 % v.f) * v.ringRows + v.ringRow e.1, entry := e.2, score := v.score tag [6, query, e.1] q d } : SideHit)
  let hits := rows.filterMap id
  let lists := (dedupNat (hits.map (·.die))).map fun d => (sortBy sideBefore (hits.filter fun h => h.die == d)).take 64
  let nodes := sortBy Node.before (lists.flatten.map fun h => ({ id := h.entry, score := h.score, slotRec := 0 } : Node))
  let good ← nodes.filterMapM fun x => do
    let w ← s.slotRec v (idSlot x.id)
    return if srState w == side' && flt.passes w then some { x with slotRec := w } else none
  return (good.take n, (rows.filter (·.isNone)).length)

/-- Strokes of a strum of the side list. -/
def SView.sideStrokes (v : SView) : List (Nat × Nat) :=
  let ents := (List.range (v.st.tail - v.st.head)).map fun i => v.st.head + i
  (dedupNat (ents.map fun n => n % v.f)).map fun j =>
    (slotFret v.dies j, strokesOf (stride4 v.d.code) v.d.code.rowLen (ents.filter fun n => n % v.f == j).length)

/-! ## Walk slots and walk memory (07 R215, 10 R336, R337) -/

/-- Bytes of the free pool of a partition and those in use. Log entry 166, DESIGN CHOICE. -/
def State.freePool (s : State) (p : Nat) : Nat × Nat :=
  let x := s.part p
  let size := less (less (less (min x.units (x.shrink.getD x.units) * 262144) 2097152) (x.fteUnits * 65536)) (x.pfUnits * 65536)
  let used := sumList ((s.cmds.filter fun c => c.part == p).map (·.claim)) +
    sumList ((s.walks.filter fun w => w.phase != .waiting && !w.area && (s.cmd w.cmd).elim false fun c => c.part == p).map (·.mem))
  (size, used)

/-- Walk slots in use (07 R215). -/
def State.walksActive (s : State) : Nat := (s.walks.filter fun w => w.phase == .walking).length

/-- Room for a walk of a partition: none, or a slot with the walk area (`true`), which holds one walk, or with memory of the free pool. -/
def State.walkRoom (s : State) (p mem : Nat) : Option Bool :=
  let pool := s.freePool p
  if s.walksActive ≥ 16384 then none
  else if !s.walks.any fun w => w.area && (s.cmd w.cmd).elim false (·.part == p) then some true
  else if pool.2 + mem ≤ pool.1 then some false else none

/-- Bytes a walk of list width `w` occupies (07 R215). -/
def walkMem (w : Nat) : Nat := 256 + 48 * w + 65536

end Sys2Proof.Machine
end

