-- ==== Sys2Proof/Machine/Search.lean ====
section
/-! DEFINITION. CORPUS_SEARCH, RERANK and SCAN (spec 07 R229 to R237, R250, R251). -/

namespace Sys2Proof.Machine

/-! ## Ownership (07 R232, 13 R406, R408) -/

/-- The map image of an epoch: the current one, else the draining one. -/
def State.mapOf (s : State) (e : Nat) : List Byte := if le16 s.cmp.cur 2 != e && le16 s.cmp.draining 2 == e then s.cmp.draining else s.cmp.cur

/-- Owner node and partition of a shard in a map image. Log entry 150, DEDUCED. -/
def mapOwner (img : List Byte) (num : Nat) : Option (Nat × Nat) :=
  let w := le64 img (17472 + 8 * num)
  if img.isEmpty || !bitOf w 16 then none else some (fld w 11 0, fld w 15 12)

/-- Where a command reaches a shard. -/
inductive Place where
  | here
  | there (node part : Nat)
  | nowhere
deriving DecidableEq, Repr

def State.place (s : State) (c : Cmd) (num : Nat) : Place :=
  let bound := (s.shard num).map (·.part)
  match mapOwner (s.mapOf c.epoch) num with
  | some (n, p) =>
    if c.origin != .window then (if bound.isSome then .here else .nowhere)
    else if n == s.node && p == c.part then (if bound == some c.part then .here else .nowhere)
    else .there n p
  | none =>
    match bound with
    | none => .nowhere
    | some p => if p == c.part then .here else .there s.node p

/-- The owner checks of 07 R232, and 12 R405 for what would leave the partition. -/
def State.placeChecks (s : State) (c : Cmd) (nums : List Nat) (remoteOk : Bool) : List (Bool × (Nat × Nat × Nat)) :=
  let away := fun n => match s.place c n with
    | .there _ _ => true
    | _ => false
  [(nums.any fun n => s.place c n == .nowhere, bf 0x0701), (!remoteOk && nums.any away, bf 0x0702)]

def State.awayChecks (s : State) (c : Cmd) (nums : List Nat) : List (Bool × (Nat × Nat × Nat)) :=
  [(s.confidential c.part && (nums.any fun n => s.place c n != .here), (stDenied, 0x0932, 0))]

/-! ## Rerank (07 R229) -/

/-- SUB, SQR, NEG: the default rerank score of squared Euclidean shards (07 R211). -/
def l2Desc : DDesc := { post := 1, ops := [⟨3, 0, 0, 1, 0⟩, ⟨7, 0, 2, 0, 1⟩], pa := 0, pb := 0 }

/-- The distance descriptor a rerank uses: the command's, the shard's, the default. It is read at admission (04 R125). -/
def State.rerankDesc (s : State) (c : Cmd) (v : SView) (addr : Nat) : Except Halt (Option DDesc) := do
  match ← s.fetchDesc c 12 addr with
  | some d => return some d
  | none =>
    match ← s.fetchDesc c (2 ^ 20 + 4 * v.num + 2) v.d.ddesc with
    | some d => return some d
    | none => return if v.d.metric == 1 then some l2Desc else none

/-- What a rerank of one query yields: scored IDs, vectors unreadable, rows rejected, pairs a COSINE set to 0. -/
structure Reranked where
  scored : List (Nat × F32)
  lost : Nat
  nan : Nat
  zero : Nat
deriving DecidableEq, Repr

def State.rerank (_s : State) (c : Cmd) (v : SView) (at' : List Nat) (q : Query) (desc : Option DDesc) (cands : List Node) : Except Halt Reranked :=
  cands.foldlM (fun r n => do
    match ← vecBytes c v (idSlot n.id) with
    | none => return { r with lost := r.lost + 1 }
    | some b =>
      match v.fullDec b n.slotRec with
      | none => return { r with nan := r.nan + 1 }
      | some d =>
        let x := arrayScore c.id at' n.id v.d.full q d desc none f32One
        return { r with scored := r.scored ++ [(n.id, x.1)], zero := r.zero + b2n x.2 })
    { scored := [], lost := 0, nan := 0, zero := 0 }

def SView.rerankShape (v : SView) (n : Nat) (desc : Option DDesc) : ArrShape :=
  arrShape (if n == 0 then 0 else 1) n v.d.full.dim v.d.full.query v.d.full.elem v.d.full.group v.d.full.rowLen desc

def rerankBumps (r : Reranked) : List (Nat × Nat) := [(pGwe + 0x0C0, r.lost), nanBump r.nan]

/-! ## CORPUS_SEARCH (07 R231 to R234) -/

def Cmd.shards (c : Cmd) : List Nat := (List.range (c.f 12 24 12)).map fun i => c.f 12 11 0 + i

def Cmd.filter (c : Cmd) : Filter :=
  { on := bitOf (c.w 12) 29, mask := c.w 15, value := c.w 16, any := c.w 17, lo := c.f 18 7 0, hi := c.f 18 15 8 }

def Cmd.rerankN (c : Cmd) : Nat := c.f 14 12 0

/-- Output of a search with t tie slots (07 R233). -/
def searchSize (c : Cmd) (t : Nat) : Nat := c.count * (64 + 16 * (c.kReq + t))

/-- Tie slots: what the output allows, or 64 for an owner's part (07 R250). -/
def Cmd.tieT (c : Cmd) (size : Nat → Nat) : Nat := if c.origin == .window then tieSlots c size else if c.ties && c.kReq != 0 then 64 else 0

def State.corpusSearchCheck (s : State) (c : Cmd) (dyn : Bool) : Except Halt Unit := do
  let first := c.f 12 11 0
  let cnt := c.f 12 24 12
  let rn := c.rerankN
  let nums := c.shards.filter fun n => decide (n < 4096)
  let here := nums.filter fun n => s.place c n == .here
  refuseIf ([(c.count == 0, okNow),
    (c.f 12 31 30 != 0 || c.f 13 15 14 != 0 || c.f 14 15 13 != 0 || c.f 14 31 26 != 0 || c.f 18 31 16 != 0 || !c.zero 21 31, bf 0x0703)] ++
    s.placeChecks c nums true ++
    [(decide (c.kReq > 4096), bf 0x0904),
     (decide (c.count > 1024) || cnt == 0 || decide (first + cnt > 4096) || !inFmtOk (c.f 12 28 25) || c.f 13 9 0 == 0 || decide (c.f 13 9 0 > 512) ||
       decide (c.f 13 13 10 > 8) || decide (c.f 14 25 16 > 512) || decide (c.kReq > c.f 13 9 0) ||
       (rn != 0 && (decide (rn < c.kReq) || decide (rn > 4096))) || (c.edReq != 0 && decide (cnt > 1)) ||
       (!bitOf (c.w 12) 29 && !c.zero 15 18), bf 0x0703)])
  if dyn then
    let eds ← here.mapM fun n => match s.edBad (.shard n) c.edReq with
      | some sub => Except.error (.refuse stField sub 0)
      | none => Except.ok ()
    let _ := eds
  refuseIf [((c.w 16 &&& (0xFFFFFFFF ^^^ c.w 15)) != 0 || decide (c.f 18 7 0 > c.f 18 15 8), bf 0x0704),
    (here.any fun n => match s.shView n (s.latest (.shard n)) with
      | some v => c.inLen != c.count * v.d.full.dim * inBytes (c.f 12 28 25)
      | none => false, bf 0x0705)]
  refuseIf (if c.origin == .window then sizeChecks c (searchSize c 0) else [])
  refuseIf (s.awayChecks c nums)
  refuseOpt (s.ranges c (if c.q 19 == 0 then [] else [(c.q 19, 32)]))
  refuseIf [(c.q 19 != 0 && rn == 0, bf 0x0916)]
  let _ ← s.fetchDesc c 12 (c.q 19)
  if rn != 0 then
    let _ ← here.mapM fun n => match s.shView n (s.latest (.shard n)) with
      | some v => s.rerankDesc c v (c.q 19)
      | none => .ok none

/-- Queries of a search as FP32 rows of a shard's FULL DIM. -/
def State.searchRows (s : State) (c : Cmd) (v : SView) : Except Halt (List (List F32)) := do
  let inp ← s.inputOf c
  queryRows (c.f 12 28 25) v.d.full.dim c.count inp

/-- The walks of a search on its local shards (07 R215); walk IDs count shards and queries. -/
def State.searchWalks (s : State) (c : Cmd) : List Walk :=
  let g := s.reg32 (pGwe + 0x100)
  let w := c.f 13 9 0
  let nums := c.shards.filter fun n => s.place c n == .here
  (nums.zipIdx.map fun n => (List.range c.count).map fun q =>
    { Walk.new ((c.id * 4096 + n.2) * 1024 + q) c.id n.1 q (s.edOf c (.shard n.1)) w c.kReq (if c.f 13 13 10 == 0 then fld g 11 8 else c.f 13 13 10)
        (if c.f 13 31 16 == 0 then fld g 31 16 else c.f 13 31 16) (c.f 14 25 16) with
      sideAt := s.time.lctr, mem := walkMem w, area := false }).flatten

/-- What a walk works with, from its command. -/
def State.walkCtx (s : State) (w : Walk) : Except Halt (Cmd × SView × Query) := do
  match s.cmd w.cmd with
  | none => throw (.wait .none)
  | some c =>
    match s.shView w.shard w.edition with
    | none => throw (.wait .none)
    | some v =>
      let k ← s.coder c v
      let rows ← s.searchRows c v
      return (c, v, (queryPair c.id [1, w.shard, w.query] v k (rows.getD w.query [])).1)

/-- Statistics of one query on one shard (07 R233). -/
structure WalkStat where
  visited : Nat
  expanded : Nat
  pass : Nat
  tomb : Nat
  dangling : Nat
  side : Nat
  reranked : Nat
  endc : Nat
  flags : Nat
  evicted : Nat
deriving DecidableEq, Repr

def WalkStat.zero : WalkStat := ⟨0, 0, 0, 0, 0, 0, 0, 0, 0, 0⟩

def WalkStat.join (a b : WalkStat) : WalkStat :=
  { visited := sat32 (a.visited + b.visited), expanded := sat32 (a.expanded + b.expanded), pass := sat32 (a.pass + b.pass),
    tomb := sat32 (a.tomb + b.tomb), dangling := sat32 (a.dangling + b.dangling), side := sat32 (a.side + b.side),
    reranked := sat16 (a.reranked + b.reranked), endc := max a.endc b.endc, flags := a.flags ||| b.flags, evicted := sat32 (a.evicted + b.evicted) }

def WalkStat.bytes (a : WalkStat) : List Byte :=
  ([a.visited, a.expanded, a.pass, a.tomb, a.dangling, a.side].map (leBytes 4)).flatten ++ leBytes 2 a.reranked ++ leBytes 1 a.endc ++
    leBytes 1 a.flags ++ leBytes 4 a.evicted

def WalkStat.read (b : List Byte) : WalkStat :=
  { visited := le32 b 0, expanded := le32 b 4, pass := le32 b 8, tomb := le32 b 12, dangling := le32 b 16, side := le32 b 20, reranked := le16 b 24,
    endc := byteAt b 26, flags := byteAt b 27, evicted := le32 b 28 }

/-- One query on one shard: its block and statistics, with what it counts. -/
structure ShardOut where
  sel : SelOut
  stat : WalkStat
  lost : Nat
  nan : Nat
  bumps : List (Nat × Nat)
deriving DecidableEq, Repr

def fwdKey (num : Nat) : Nat := 2 ^ 72 + num

/-- The final selection of one query on a local shard (07 R229, R230). -/
def State.searchOne (s : State) (c : Cmd) (v : SView) (t : Nat) (desc : Option DDesc) (q : Query) (w : Walk) (ix : Nat) : Except Halt ShardOut := do
  let union := sortBy Node.before (w.result ++ w.side.getD [])
  let rn := c.rerankN
  let r ← if rn == 0 then pure { scored := union.map fun n => (n.id, n.score), lost := 0, nan := 0, zero := 0 }
    else s.rerank c v [7, v.num, w.query] q desc (union.take rn)
  s.useArray c (2 ^ 35 + ix) (if rn == 0 then v.rerankShape 0 none else v.rerankShape r.scored.length desc)
  let sel := select c.id [8, v.num, w.query] c.kReq t false [] r.scored
  return { sel := sel, lost := r.lost, nan := r.nan + w.nanRows,
           stat := { visited := w.visited, expanded := w.expanded, pass := w.filterPass, tomb := w.tombVisits, dangling := w.dangling,
                     side := (w.side.getD []).length, reranked := if rn == 0 then 0 else sat16 r.scored.length, endc := w.endc,
                     flags := (if bitOf c.flags 5 then 1 else 0) + (if r.lost == 0 then 0 else 2), evicted := w.evicted },
           bumps := sel.bumps ++ (if rn == 0 then [] else rerankBumps r) ++ [(pArr + 0x070, r.zero)] }

/-- The part of a remote shard: its blocks with 64 or 0 tie slots, then its statistics. -/
def readRemote (n : Nat) (l : List Byte) : List (SelBlock × WalkStat) :=
  let slots := if n == 0 then 0 else le32 l 20
  (List.range n).map fun i => ((readBlock l (i * blockSize slots)).2, WalkStat.read (slice l (n * blockSize slots + 32 * i) 32))

/-- The blocks of the local shards, by shard, before any merge. -/
def State.searchLocals (s : State) (c : Cmd) : Except Halt (List SView × List (Nat × List ShardOut)) := do
  let nums := c.shards
  let here := nums.filter fun n => s.place c n == .here
  if !here.isEmpty then s.usePass c 0
  let views ← here.mapM fun n => match s.shView n (s.edOf c (.shard n)) with
    | some v => Except.ok v
    | none => Except.error (.refuse stField 0x0701 0)
  s.selParity
  let multi := decide (nums.length > 1)
  let t := c.tieT (searchSize c)
  let tq := if multi then (if c.ties && c.kReq != 0 then 64 else 0) else t
  let coders ← views.mapM fun v => do
    let rows ← s.searchRows c v
    s.useArray c (2 ^ 34 + v.num) (v.projShape c.count)
    let k ← s.coder c v
    return (v, (rows.zipIdx.map fun x => queryPair c.id [1, v.num, x.2] v k x.1))
  let mine := s.walks.filter fun w => w.cmd == c.id
  if !here.isEmpty && (mine.isEmpty || mine.any fun w => w.phase != .walked || w.side.isNone) then throw (.wait .walks)
  let locals ← coders.zipIdx.mapM fun x => do
    let desc ← s.rerankDesc c x.1.1 (c.q 19)
    let l ← x.1.2.zipIdx.mapM fun q => do
      match mine.find? fun w => w.shard == x.1.1.num && w.query == q.2 with
      | some w => s.searchOne c x.1.1 tq desc q.1.2 w (x.2 * 1024 + q.2)
      | none => throw (.wait .walks)
    return (x.1.1.num, l)
  return (views, locals)

def State.corpusSearchWork (s : State) (c : Cmd) : Except Halt Done := do
  let nums := c.shards
  let (views, locals) ← s.searchLocals c
  let multi := decide (nums.length > 1)
  let t := c.tieT (searchSize c)
  -- the queries and the distance descriptor travel to owners
  if nums.any fun n => s.place c n != .here then
    let _ ← s.inputOf c
    if c.q 19 != 0 then let _ ← s.fetch c 12 (c.q 19) 32
  let answers ← (nums.filter fun n => s.place c n != .here).mapM fun n => do
    let b ← needKey c (fwdKey n) (.forward (fwdKey n))
    return (n, OwnerAns.read b)
  match worst (answers.map fun a => (match s.place c a.1 with
    | .there node _ => node
    | _ => 0, a.2.status, a.2.sub)) with
  | some (st, sub) => throw (.fail st sub 0 [] [])
  | none => pure ()
  let remote ← answers.mapM fun a => do
    let n := a.1
    let b := a.2.out
    return (n, (readRemote c.count b).map fun x => ({ sel := SelOut.of x.1, stat := x.2, lost := 0, nan := 0, bumps := [] } : ShardOut))
  let parts := sortBy (fun a b => decide (a.1 ≤ b.1)) (locals ++ remote)
  let outs : List (SelOut × WalkStat) := (List.range c.count).map fun q =>
    let l : List ShardOut := parts.map fun p => p.2.getD q { sel := SelOut.of emptyBlock, stat := WalkStat.zero, lost := 0, nan := 0, bumps := [] }
    -- a re-admitted command shows in every record (07 R251)
    let st := l.foldl (fun a x => a.join x.stat) { WalkStat.zero with flags := if bitOf c.flags 5 then 1 else 0 }
    match l, remote with
    | [x], [] => (x.sel, st)
    | _, _ => (mergeBlocks c.id [11, q] c.kReq t (l.map fun x => x.sel.block), st)
  let blocks := outs.map fun o => o.1.block
  let all := (locals.map (·.2)).flatten
  let nan := sumList (all.map (·.nan))
  let status := selStatus c.kReq (if bitOf (c.w 12) 29 then stFilterShort else stShort) blocks
  let out := (blocks.map fun b => blockBytes b (c.kReq + t)).flatten ++ (outs.map fun o => o.2.bytes).flatten
  let lost := sumList (all.map (·.lost))
  return Done.of
    { Finish.ok with
        status := status
        sub := selFlags blocks ||| (if nan == 0 then 0 else 64) ||| (answers.foldl (fun a x => a ||| x.2.sub) 0 &&& 0xF0)
        result := selResult blocks
        counter := sat32 (sumList (outs.map fun o => o.2.visited))
        edition := match views with
          | v :: _ => if v.num == c.f 12 11 0 then v.ed else 0
          | [] => 0
        out := out
        bumps := (all.map (·.bumps)).flatten ++ (if multi || !remote.isEmpty then (outs.map fun o => o.1.bumps).flatten else []) ++ [(pPeg + 0x060, 2 * all.length)]
        errs := if lost == 0 then [] else [(pGwe, 1)]
        charges := workCharges (sumList (blocks.map (·.scanned))) (sumList (views.map fun v => c.count * v.d.full.dim)) 0 }

/-! ## RERANK (07 R235) -/

def State.rerankCheck (s : State) (c : Cmd) (dyn : Bool) : Except Halt Unit := do
  let num := c.f 12 11 0
  refuseIf ([(c.count == 0, okNow), (c.f 12 31 29 != 0 || !c.zero 15 31, bf 0x0703)] ++ s.placeChecks c [num] false ++
    [(decide (c.kReq > 4096), bf 0x0904),
     (c.f 12 24 12 == 0 || decide (c.f 12 24 12 > 4096) || !inFmtOk (c.f 12 28 25), bf 0x0703)])
  if dyn then
    match s.edBad (.shard num) c.edReq with
    | some sub => throw (.refuse stField sub 0)
    | none => pure ()
  match s.shView num (s.latest (.shard num)) with
  | none => throw (.refuse stField 0x0701 0)
  | some v =>
    refuseIf [(c.inLen != c.count * (v.d.full.dim * inBytes (c.f 12 28 25) + 8 * c.f 12 24 12), bf 0x0705)]
    refuseIf (sizeChecks c (c.count * blockSize c.kReq))
    refuseOpt (s.ranges c (if c.q 13 == 0 then [] else [(c.q 13, 32)]))
    let _ ← s.rerankDesc c v (c.q 13)

def State.rerankWork (s : State) (c : Cmd) : Except Halt Done := do
  let num := c.f 12 11 0
  match s.shView num (s.edOf c (.shard num)) with
  | none => throw (.refuse stField 0x0701 0)
  | some v =>
    let cands := c.f 12 24 12
    let dim := v.d.full.dim
    let t := tieSlots c fun t => c.count * blockSize (c.kReq + t)
    let inp ← s.inputOf c
    let qs ← queryRows (c.f 12 28 25) dim c.count inp
    useSram c (4 * dim + 8 * cands + 32 + 16 * (c.kReq + t)) c.count
    s.selParity
    let desc ← s.rerankDesc c v (c.q 13)
    let base := c.count * dim * inBytes (c.f 12 28 25)
    let outs ← qs.zipIdx.mapM fun x => do
      let ids := (List.range cands).map fun j => le64 inp (base + 8 * (x.2 * cands + j))
      let named ← ids.mapM fun id => do
        let r ← s.named v id [side', live']
        return r.map fun w => ({ id := id, score := 0, slotRec := w } : Node)
      let q := Query.load c.id [3, x.2] v.d.full v.d.full.query (ingest c.id [2, x.2] v.d.metric x.1)
      let r ← s.rerank c v [7, x.2] q desc (named.filterMap id)
      s.useArray c (2 ^ 35 + x.2) (v.rerankShape r.scored.length desc)
      return (select c.id [8, x.2] c.kReq t false [] r.scored, r, (named.filter (·.isNone)).length)
    let blocks := outs.map fun o => o.1.block
    let nan := sumList (outs.map fun o => o.2.1.nan)
    let lost := sumList (outs.map fun o => o.2.1.lost)
    return Done.of
      { Finish.ok with
          status := selStatus c.kReq stShort blocks
          sub := selFlags blocks ||| (if nan == 0 then 0 else 64)
          result := selResult blocks
          counter := sat32 (sumList (outs.map fun o => o.2.2))
          edition := v.ed
          out := (blocks.map fun b => blockBytes b (c.kReq + t)).flatten
          bumps := (outs.map fun o => o.1.bumps ++ rerankBumps o.2.1 ++ [(pArr + 0x070, o.2.1.zero)]).flatten ++ [(pPeg + 0x060, c.count)]
          errs := if lost == 0 then [] else [(pGwe, 1)]
          charges := workCharges (sumList (blocks.map (·.scanned))) (c.count * dim) 0 }

/-! ## SCAN (07 R236, R237) -/

def scanSize (c : Cmd) (t : Nat) : Nat := c.count * blockSize (c.kReq + t)

/-- Bytes of a scale array of so many rows beside rows named by address (02 R515). -/
def scaleArrayBytes (r : QRec) (rows : Nat) : Nat :=
  if r.scaleAddr == 0 || r.elem.unscaled then 0
  else if r.axis == 1 then ceilDiv rows (max 1 r.group) * r.dim * scaleBytes r.fp16
  else if r.group == 0 then rows * r.entryBytes else 0

/-- Log entry 105, DEDUCED. -/
def State.scanCheck (s : State) (c : Cmd) (dyn : Bool) : Except Halt Unit := do
  let num := c.f 12 11 0
  let src := c.f 12 14 12
  let s3 := src == 3
  refuseIf ([(c.count == 0, okNow), (c.f 12 31 19 != 0 || decide (src > 3) || !c.zero 20 31, bf 0x0703)] ++
    (if s3 then [] else s.placeChecks c [num] false) ++
    [(decide (c.kReq > 4096), bf 0x0904), (!inFmtOk (c.f 12 18 15) || (s3 && c.w 15 == 0), bf 0x0703), (s3 && c.edReq != 0, bf 0x0803)])
  if dyn && !s3 then
    match s.edBad (.shard num) c.edReq with
    | some sub => throw (.refuse stField sub 0)
    | none => pure ()
  if s3 then
    refuseOpt (s.rangeBad c.part (c.q 16) 64)
    let b ← s.fetch c 16 (c.q 16) 64
    let r := QRec.parse b
    refuseIf [(c.inLen != c.count * r.dim * inBytes (c.f 12 18 15), bf 0x0705)]
    refuseIf (sizeChecks c (scanSize c 0))
    refuseOpt (s.ranges c ([(c.q 13, c.w 15 * r.rowLen), (r.scaleAddr, scaleArrayBytes r (c.w 15))] ++ if c.q 18 == 0 then [] else [(c.q 18, 32)]))
    refuseIf [(r.bad .array || r.bad515 false, bf 0x0916)]
    let _ ← s.fetchDesc c 12 (c.q 18)
  else
    match s.shView num (s.latest (.shard num)) with
    | none => throw (.refuse stField 0x0701 0)
    | some v =>
      refuseIf [(c.inLen != c.count * v.d.full.dim * inBytes (c.f 12 18 15), bf 0x0705)]
      refuseIf (sizeChecks c (scanSize c 0))
      refuseOpt (s.ranges c [])

/-- A row of a scan: its fret, its ID, its decoded code, whether its scale is masked. -/
structure ScanRow where
  fret : Nat
  id : Nat
  dec : Option RowDec
  masked : Bool
deriving DecidableEq, Repr

/-- Rows of the code extent that every fret strums, fret by fret (07 R237). -/
def State.scanCode (s : State) (v : SView) : Except Halt (List (Nat × List ScanRow)) :=
  (List.range v.f).mapM fun j => do
    let l ← (List.range (ceilDiv v.st.hwm v.f)).mapM fun n => do
      let i := n * v.f + j
      let w ← s.slotRec v i
      let (d, m) ← s.codeRow v i 2
      return ({ fret := v.fretOf i, id := makeId v.num (srGen w) i, dec := d, masked := m } : ScanRow)
    return (v.fretOf j, l)

/-- Side ring rows from head to tail. -/
def State.scanSide (s : State) (v : SView) : Except Halt (List ScanRow) := do
  let l ← s.sideIds v
  l.mapM fun e => do
    let (d, m) ← s.sideRow v e.1
    return { fret := v.fretOf e.1, id := e.2, dec := d, masked := m }

def State.scanFrets (s : State) (c : Cmd) (v : SView) : Except Halt Done := do
  let src := c.f 12 14 12
  let t := tieSlots c (scanSize c)
  let inp ← s.inputOf c
  let qs ← queryRows (c.f 12 18 15) v.d.full.dim c.count inp
  useSram c (4 * v.d.full.dim + 32 + 16 * (c.kReq + t)) c.count
  -- a pass serves up to 8 queries (10 R325)
  let _ ← (List.range (ceilDiv c.count 8)).mapM (s.usePass c)
  s.selParity
  s.useArray c (2 ^ 34) (v.projShape c.count)
  let k ← s.coder c v
  let code ← if src == 1 then pure [] else s.scanCode v
  let sides ← if src == 0 then pure [] else s.scanSide v
  let base' := if src == 1 then (dedupNat (sides.map (·.fret))).map fun f => (f, ([] : List ScanRow)) else code
  -- each fret's rows: codes, then side rows
  let groups := base'.map fun g => (g.1, g.2, sides.filter fun r => r.fret == g.1)
  let rows := (code.map (·.2)).flatten ++ sides
  let outs := qs.zipIdx.map fun x =>
    let q := (queryPair c.id [1, x.2] v k x.1).1
    let strum := groups.map fun g => (⟨g.1, (g.2.1 ++ g.2.2).filterMap fun r => r.dec.map fun d => (r.id, v.score c.id [6, x.2, r.id] q d)⟩ : Strummed)
    select c.id [8, x.2] c.kReq t false (strum.filter fun p => !p.scores.isEmpty) []
  selCounts outs
  let blocks := outs.map (·.block)
  let rej := (rows.filter fun r => r.dec.isNone).length
  let tooMany := decide ((maxList (groups.map fun g => g.2.1.length + g.2.2.length)) * min 8 c.count > 4096) && c.kReq != 0
  let passes := (if tooMany then 3 else 1) * ceilDiv c.count 8
  let strokes := groups.map fun g =>
    let one := fun l : List ScanRow => strokesOf (stride4 v.d.code) v.d.code.rowLen l.length
    (g.1, passes * (one g.2.1 + one g.2.2))
  return Done.of
    { Finish.ok with
        status := selStatus c.kReq stShort blocks
        sub := selFlags blocks ||| (if rej == 0 then 0 else 64)
        result := selResult blocks
        counter := sat32 rej
        edition := v.ed
        out := (blocks.map fun b => blockBytes b (c.kReq + t)).flatten
        bumps := (outs.map (·.bumps)).flatten ++ strokeBumps strokes ++
          [nanBump rej, (pGwe + 0x0A8, (rows.filter (·.masked)).length), (pPeg + 0x060, c.count)] ++
          (if tooMany then (dedupNat (groups.map fun g => stackOf g.1)).map fun st => (pSbc st + 0x088, ceilDiv c.count 8) else [])
        charges := workCharges (sumList (blocks.map (·.scanned))) (c.count * v.d.full.dim) (sumList (strokes.map (·.2)))
        bucket := maxList (outs.map (·.bucket)) }

def State.scanRows (s : State) (c : Cmd) : Except Halt Done := do
  let b ← s.fetch c 16 (c.q 16) 64
  let r := QRec.parse b
  let n := c.w 15
  let t := tieSlots c (scanSize c)
  let inp ← s.inputOf c
  let qs ← queryRows (c.f 12 18 15) r.dim c.count inp
  useSram c (4 * r.dim + 32 + 16 * (c.kReq + t)) c.count
  s.selParity
  let desc ← s.fetchDesc c 12 (c.q 18)
  let data ← s.fetch c 20 (c.q 13) (n * r.rowLen)
  let scales ← s.fetch c 21 r.scaleAddr (scaleArrayBytes r n)
  let decs := (List.range n).map fun i =>
    (i, r.read (slice data (i * r.rowLen) r.rowLen) (if r.perRow && r.scaleAddr != 0 then slice scales (i * r.entryBytes) r.entryBytes else []))
  s.useArray c (2 ^ 33) (arrShape c.count n r.dim r.query r.elem r.group r.rowLen desc)
  let outs := qs.zipIdx.map fun x =>
    let q := Query.load c.id [3, x.2] r r.query x.1
    let sc := decs.filterMap fun d => d.2.map fun y => (d.1, arrayScore c.id [7, x.2] d.1 r q y desc none f32One)
    (select c.id [8, x.2] c.kReq t false [] (sc.map fun y => (y.1, y.2.1)), (sc.filter fun y => y.2.2).length)
  let blocks := outs.map fun o => o.1.block
  let rej := (decs.filter fun d => d.2.isNone).length
  return Done.of
    { Finish.ok with
        status := selStatus c.kReq stShort blocks
        sub := selFlags blocks ||| (if rej == 0 then 0 else 64)
        result := selResult blocks
        counter := sat32 rej
        out := (blocks.map fun b => blockBytes b (c.kReq + t)).flatten
        bumps := (outs.map fun o => o.1.bumps).flatten ++ [nanBump rej, (pPeg + 0x060, c.count), (pArr + 0x070, sumList (outs.map (·.2)))]
        charges := workCharges (sumList (blocks.map (·.scanned))) (c.count * r.dim) 0
        bucket := maxList (outs.map fun o => o.1.bucket) }

def State.scanWork (s : State) (c : Cmd) : Except Halt Done :=
  if c.f 12 14 12 == 3 then s.scanRows c
  else
    match s.shView (c.f 12 11 0) (s.edOf c (.shard (c.f 12 11 0))) with
    | none => .error (.refuse stField 0x0701 0)
    | some v => s.scanFrets c v

end Sys2Proof.Machine
end

