-- ==== Sys2Proof/Machine/Link.lean ====
section
/-! DEFINITION. Shard changes: INSERT, DELETE, CONSOLIDATE, sweeps, BUILD_GRAPH, REQUANT of codes (spec 07 R238 to R249, 09 R302 to R304). -/

namespace Sys2Proof.Machine

/-! ## What the mutating commands of a shard share -/

/-- A command has a slot of a shard: taken, or its record staged (07 R241). -/
def State.holdsSlot (_s : State) (x : Cmd) (num i : Nat) : Bool :=
  (tgetD x.taken num []).contains i || x.stages.any fun g => g.target == .shard num && g.slots.contains i

/-- Takes the slots of `l` whose records a command will stage, in ascending order: it waits at one that another command has taken or holds staged, and keeps those before it (07 R241). -/
def State.waitSlots (s : State) (c : Cmd) (num : Nat) (l : List Nat) : Except Halt Unit :=
  let held := fun i => s.cmds.any fun x => x.id != c.id && s.holdsSlot x num i
  let order := sortBy (fun a b => decide (a ≤ b)) (dedupNat l)
  match order.find? held with
  | some i => .error (.wait (.slot num i (order.filter fun j => decide (j < i))))
  | none => if (tgetD c.taken num []) == order then .ok () else .error (.wait (.take num order))

/-- Slot record, with its changes. -/
def SView.recUpd (v : SView) (i w : Nat) : Upd := v.upd (v.fretOf i) 3 (v.slotRow i) false (leBytes 8 w)
def SView.scanUpd (v : SView) (i : Nat) (b : List Byte) : Upd := v.upd (v.fretOf i) 2 (v.slotRow i) false b
def SView.codeUpds (v : SView) (i : Nat) (e : EncRow) : List Upd :=
  [v.upd (v.fretOf i) 0 (v.slotRow i) false e.bytes, v.upd (v.fretOf i) 1 (v.slotRow i) false e.entry]

/-- One stage of a shard and how its command ends. -/
def State.shardStage (s : State) (num : Nat) (bind changed : Bool) (dies : List Nat) (us : List Upd) (init : List HbmPut) (d : Delta) (slots : List Nat)
    (fin : Finish) (pages : List FlashPut) (stats : List StatPut) : Except Halt Done := do
  let (st, puts) ← s.mkStage (.shard num) bind changed us d
  return { fin := fin, stages := [{ st with dies := dies, slots := slots }], puts := init ++ puts, pages := pages, stats := stats }

/-- Statistics of stored vectors (02 R64): codes and full vectors of a shard. -/
def EncVec.stats (e : EncVec) (v : SView) : List StatPut :=
  [{ kind := 2, number := v.num, fmt := v.d.code.elem.code, errs := e.code.errs, sat := e.code.sat },
   { kind := 3, number := v.num, fmt := v.d.full.elem.code, errs := e.full.errs, sat := e.full.sat }]

def convBumps (l : List EncVec) : List (Nat × Nat) := [(pPeg + 0x040, 2 * l.length), (pPeg + 0x050, sumList (l.map fun e => e.code.sat + e.full.sat))]

/-! ## Vectors as input (07 R238) -/

/-- Bytes of one vector's elements: IN_FMT, or the FULL format. -/
def vecInBytes (fmt dim : Nat) : Nat := (Fmt.ofCode fmt).rowBytes dim

/-- Elements of an input vector: codes of FULL stand for the values they encode. -/
def vecElems (fmt dim : Nat) (b : List Byte) : Option (List F32) :=
  if Fmt.inputFmt fmt then inputRow fmt dim b
  else (unpack (Fmt.ofCode fmt) dim b).mapM fun c => match (Fmt.ofCode fmt).value c with
    | .fin d => some (F32.of d)
    | _ => none

/-- Label words and vectors; a label with a reserved bit ends the command. -/
def vecRows (fmt dim n : Nat) (inp : List Byte) : Except Halt (List (Nat × Option (List F32))) :=
  (List.range n).mapM fun i =>
    let o := i * (8 + vecInBytes fmt dim)
    let label := le64 inp o
    if label % 2 ^ 24 != 0 then Except.error (badData 0x0951)
    else Except.ok (label, vecElems fmt dim (slice inp (o + 8) (vecInBytes fmt dim)))

/-- The lowest FREE slots, then slots at HWM (07 R239): slots and the new HWM. -/
def State.allocSlots (s : State) (v : SView) (n : Nat) : Except Halt (List (Nat × Nat) × Nat) := do
  let recs ← (List.range v.st.hwm).mapM fun i => do
    let w ← s.slotRec v i
    return (i, w)
  let old := (recs.filter fun r => srState r.2 == free').take n
  let more := min (n - old.length) (v.d.slotCap - v.st.hwm)
  let new ← (List.range more).mapM fun k => do
    let w ← s.slotRec v (v.st.hwm + k)
    return (v.st.hwm + k, w)
  return (old ++ new, v.st.hwm + more)

/-- A vector given a slot: slot, ID, its slot record in a state, its encoding. -/
structure Placed where
  slot : Nat
  id : Nat
  rec' : Nat
  enc : EncVec
deriving DecidableEq, Repr

/-- Places the vectors of a command in slots: for each input vector its placement, with the new HWM. -/
def State.placeVecs (s : State) (c : Cmd) (v : SView) (k : Coder) (state : Nat) (rows : List (Nat × Option (List F32))) :
    Except Halt (List (Option Placed) × Nat) := do
  let good := rows.zipIdx.filterMap fun r => r.1.2.map fun x => (r.2, r.1.1, x)
  if (match c.origin with
    | .replay _ => true
    | _ => false) then
    -- each vector at its logged slot and generation, whatever lies there (13 R426)
    let placed := good.filterMap fun g =>
      let id := c.covers.getD g.1 nullId
      let e := encodeVec c.id [20, g.1] v k g.2.2
      if id == nullId then none
      else some (g.1, ({ slot := idSlot id, id := id, rec' := g.2.1 + e.fscale * 2 ^ 16 + state * 2 ^ 8 + idGen id, enc := e } : Placed))
    return ((List.range rows.length).map fun i => (placed.find? fun p => p.1 == i).map (·.2), maxList (v.st.hwm :: placed.map fun p => p.2.slot + 1))
  let (slots, hwm) ← s.allocSlots v good.length
  let placed := (good.zip slots).map fun g =>
    let e := encodeVec c.id [20, g.1.1] v k g.1.2.2
    let gen := (srGen g.2.2 + 1) % 256
    (g.1.1, ({ slot := g.2.1, id := makeId v.num gen g.2.1, rec' := g.1.2.1 + e.fscale * 2 ^ 16 + state * 2 ^ 8 + gen, enc := e } : Placed))
  return ((List.range rows.length).map fun i => (placed.find? fun p => p.1 == i).map (·.2), hwm)

/-- Output and counts of INSERT and BUILD_GRAPH (07 R238): IDs, rejected rows, vectors without a slot. -/
def insertOut (rows : List (Nat × Option (List F32))) (ps : List (Option Placed)) : List Byte × Nat × Nat :=
  let rej := (rows.filter fun r => r.2.isNone).length
  ((ps.map fun p => leBytes 8 (p.elim nullId (·.id))).flatten, rej, (ps.filter (·.isNone)).length - rej)

def insertFin (out : List Byte × Nat × Nat) (ps : List Placed) : Finish :=
  { Finish.ok with
      sub := (if out.2.1 == 0 then 0 else 64) + (if out.2.2 == 0 then 0 else 128)
      result := ps.length, counter := sat32 (out.2.1 + out.2.2), out := out.1
      bumps := nanBump out.2.1 :: convBumps (ps.map (·.enc)) }

/-! ## INSERT (07 R227, R238, R239) -/

/-- Checks of INSERT and DELETE (07 R232). -/
def State.insertCheck (s : State) (c : Cmd) (_dyn : Bool) : Except Halt Unit := do
  let num := c.f 12 11 0
  let del := c.opcode == 0x33
  refuseIf ([(c.count == 0, okNow), (c.f 12 31 (if del then 12 else 16) != 0 || !c.zero 13 31, bf 0x0703)] ++ s.placeChecks c [num] true ++
    [(c.kReq != 0, bf 0x0904)])
  let v := s.shView num (s.latest (.shard num))
  let fmt := c.f 12 15 12
  let here := s.place c num == .here
  if here && !del then refuseIf [(match v with
    | some v => !inFmtOk fmt && fmt != v.d.full.elem.code
    | none => false, bf 0x0703)]
  refuseIf [(c.edReq != 0, bf 0x0803)]
  if del then refuseIf [(c.inLen != 8 * c.count, bf 0x0705)]
  else if here then refuseIf [(match v with
    | some v => c.inLen != c.count * (8 + vecInBytes fmt v.d.full.dim)
    | none => false, bf 0x0705)]
  refuseIf (sizeChecks c (if del then 0 else 8 * c.count))
  refuseIf (s.awayChecks c [num])
  refuseOpt (s.ranges c [])
  if here && !del then refuseIf [(match v with
    | some v => decide (100 * c.count > 95 * v.d.sideCap)
    | none => false, (stSideFull, 0x0961, 0))]

/-- An INSERT has no room in the side list yet (07 R227). -/
def State.sideFullNow (s : State) (c : Cmd) (num : Nat) : Bool :=
  match s.shard num, s.shView num (s.latest (.shard num)) with
  | some x, some v => decide (100 * (s.sideFill x + c.count) > 95 * v.d.sideCap)
  | _, _ => false

def State.insertWork (s : State) (c : Cmd) : Except Halt Done := do
  let num := c.f 12 11 0
  match s.shView num (s.latest (.shard num)) with
  | none => throw (.refuse stField 0x0701 0)
  | some v =>
    let inp ← s.inputOf c
    let rows ← vecRows (c.f 12 15 12) v.d.full.dim c.count inp
    useSram c (8 * v.d.full.dim + 64) c.count
    s.useArray c (2 ^ 34) (v.projShape c.count)
    let k ← s.coder c v
    let (ps, hwm) ← s.placeVecs c v k side' rows
    let placed := ps.filterMap id
    s.waitSlots c num (placed.map (·.slot))
    let out := insertOut rows ps
    let fin := insertFin out placed
    -- a commit whose SUBSTATUS is not 0 publishes nothing (07 R239; log entry 47, DEDUCED)
    if c.flagsNow fin.sub != 0 then s.shardStage num false false [] [] [] Delta.none' [] fin [] []
    else
      let us := placed.zipIdx.map fun p =>
        let n := v.st.tail + p.2
        let f := v.fretOf n
        v.codeUpds p.1.slot p.1.enc.code ++ [v.recUpd p.1.slot p.1.rec', v.upd f 4 (v.ringRow n) true p.1.enc.code.bytes,
          v.upd f 5 (v.ringRow n) true p.1.enc.code.entry, v.upd f 6 (v.ringRow n) true (leBytes 8 p.1.id)]
      s.shardStage num false true [] us.flatten [] { Delta.none' with hwm := some hwm, tail := some (v.st.tail + placed.length) }
        (placed.map (·.slot)) fin (placed.map fun p => v.vecPut p.slot p.enc.full.bytes).flatten (placed.map fun p => p.enc.stats v).flatten

/-! ## DELETE (07 R240) -/

def State.deleteWork (s : State) (c : Cmd) : Except Halt Done := do
  let num := c.f 12 11 0
  match s.shView num (s.latest (.shard num)) with
  | none => throw (.refuse stField 0x0701 0)
  | some v =>
    let inp ← s.inputOf c
    let ids := (List.range c.count).map fun i => le64 inp (8 * i)
    let uniq := dedupNat ids
    s.waitSlots c num ((uniq.filter v.inRange).map idSlot)
    let hits ← uniq.mapM fun id => do
      let r ← s.named v id [side', live']
      return r.map fun w => (id, w)
    let hits := hits.filterMap id
    let sides ← if hits.any fun h => srState h.2 == side' then s.sideIds v else pure []
    let us := hits.map fun h =>
      let i := idSlot h.1
      v.recUpd i (setState h.2 tomb') ::
        (if srState h.2 == live' then [v.scanUpd i v.d.mask]
         else (sides.filter fun e => e.2 == h.1).map fun e => v.upd (v.fretOf e.1) 5 (v.ringRow e.1) false v.d.mask)
    s.shardStage num false (!hits.isEmpty) [] us.flatten [] Delta.none' (hits.map fun h => idSlot h.1)
      { Finish.ok with counter := sat32 (c.count - hits.length) } [] []

/-! ## Pruning and repair (07 R243, R245) -/

/-- d(a, b) in FP32. -/
def dist (tag : Nat) (at' : List Nat) (a b : List F32) : F32 := fsum tag at' ((a.zip b).map fun p => let d := F32.sub p.1 p.2; F32.mul d d)

/-- ALPHA / 64 in FP32. -/
def SDesc.alphaF (d : SDesc) : F32 := F32.of ((Dy.ofNat d.alpha).scale (-6))

/-- A candidate with its vector. -/
abbrev Cv := Nat × List F32

/-- Keeps at most `left` further candidates, in order of distance. -/
def pruneGo (tag : Nat) (alpha : F32) : Nat → List (Cv × F32) → List (Cv × F32) → List (Cv × F32)
  | _, kept, [] => kept
  | 0, kept, _ => kept
  | n + 1, kept, p :: r =>
    let hit := kept.any fun q => !F32.lt p.2 (F32.mul alpha (dist tag [12, q.1.1, p.1.1] q.1.2 p.1.2))
    if hit then pruneGo tag alpha (n + 1) kept r else pruneGo tag alpha n (kept ++ [p]) r

def dedupCv : List Cv → List Cv
  | [] => []
  | a :: r => a :: (dedupCv r).filter fun b => b.1 != a.1

/-- Prunes the candidates of a node to DEGREE edges. -/
def SView.prune (v : SView) (tag : Nat) (node : Cv) (cands : List Cv) : List Edge :=
  let ds := (dedupCv cands).map fun p => (p, dist tag [12, node.1, p.1] node.2 p.2)
  let order := sortBy (fun a b => F32.lt a.2 b.2 || (a.2 == b.2 && decide (a.1.1 ≤ b.1.1))) ds
  (pruneGo tag v.d.alphaF v.d.degree [] order).map fun x => { id := x.1.1, len := x.2 }

/-- Vectors of a batch's own members by ID; other IDs are decoded from their code rows. -/
def State.cv (s : State) (v : SView) (own : List Cv) (id : Nat) : Except Halt (Option Cv) :=
  match own.find? fun o => o.1 == id with
  | some o => .ok (some o)
  | none =>
    if !v.inRange id then .ok none
    else (s.codeRow v (idSlot id) 1).map fun x => x.1.map fun d => (id, v.channels d)

def State.cvs (s : State) (v : SView) (own : List Cv) (ids : List Nat) : Except Halt (List Cv) := do
  let l ← ids.mapM (s.cv v own)
  return l.filterMap id

/-- What record reads of a batch count, and whether one was unusable. -/
abbrev Reads := List (Nat × Nat)

/-- Repairs a record (07 R245): edges to TOMB nodes give way to the LIVE primary edges of those nodes; dangling edges go. Log entry 46, DEDUCED. -/
def State.repair (s : State) (c : Cmd) (v : SView) (own : List Cv) (a : Adj) : Except Halt (Adj × Bool × Reads) := do
  let step := fun (acc : List Edge × List Nat × Bool × Reads) (e : Edge) => do
    match ← s.named v e.id [live', tomb'] with
    | none => return (acc.1, acc.2.1, true, acc.2.2.2)
    | some w =>
      if srState w == live' then return (acc.1 ++ [e], acc.2.1, acc.2.2.1, acc.2.2.2)
      else do
        let x ← s.adjOf c v e.id
        let ends ← ((x.1.elim [] (·.prim)).map (·.id)).filterM fun t => do
          let r ← s.named v t [live']
          return r.isSome && t != a.self && !acc.2.1.contains t
        let new := dedupNat ends
        let me ← s.cv v own a.self
        let l ← s.cvs v own new
        let es := l.map fun p => ({ id := p.1, len := me.elim 0 fun m => dist c.id [12, a.self, p.1] m.2 p.2 } : Edge)
        return (acc.1 ++ es, acc.2.1 ++ new, true, acc.2.2.2 ++ adjBumps x)
  let held := (a.prim ++ a.pend).map (·.id)
  let p ← a.prim.foldlM step ([], held, false, [])
  let q ← a.pend.foldlM step ([], p.2.1, p.2.2.1, p.2.2.2)
  if !q.2.2.1 then return (a, false, q.2.2.2)
  let me ← s.cv v own a.self
  let cands ← s.cvs v own (p.1.map (·.id))
  let prim := match me with
    | some m => v.prune c.id m cands
    | none => []
  return ({ a with prim := prim, pend := q.1.take 191 }, true, q.2.2.2)

/-! ## Linking (07 R242, R244) -/

/-- A member of a batch: slot, ID, its code row. -/
structure Member' where
  slot : Nat
  id : Nat
  dec : RowDec
deriving DecidableEq, Repr

/-- Records of a batch by node ID, and what its reads count. -/
structure LinkAcc where
  recs : List Adj
  bumps : Reads
deriving DecidableEq, Repr

def LinkAcc.put (l : LinkAcc) (a : Adj) : LinkAcc :=
  { l with recs := if l.recs.any fun x => x.self == a.self then l.recs.map fun x => if x.self == a.self then a else x else l.recs ++ [a] }

/-- The record of node `t` as a batch finds it: its own, or the one read, repaired (07 R242 step 6). -/
def State.linkRec (s : State) (c : Cmd) (v : SView) (own : List Cv) (l : LinkAcc) (t : Nat) : Except Halt (Adj × Reads) :=
  match l.recs.find? fun x => x.self == t with
  | some a => .ok (a, [])
  | none => do
    let x ← s.adjOf c v t
    let r ← s.repair c v own (x.1.getD (Adj.none' t))
    return (r.1, adjBumps x ++ r.2.2)

/-- Adds the new edges `ms` of a batch to the record of their target `t`, as pending edges or, past 191 of these, by one prune over all of them (07 R242 steps 4 and 5). -/
def State.reverse (s : State) (c : Cmd) (v : SView) (own : List Cv) (ms : List Cv) (l : LinkAcc) (t : Nat) : Except Halt LinkAcc := do
  let (a, b) ← s.linkRec c v own l t
  let l := { l with bumps := l.bumps ++ b }
  match ← s.cv v own t with
  | none => return l.put a
  | some tv =>
    let new := (ms.filter fun m => !(a.prim ++ a.pend).any fun e => e.id == m.1).map fun m =>
      ({ id := m.1, len := dist c.id [12, t, m.1] tv.2 m.2 } : Edge)
    if a.pend.length + new.length ≤ 191 then return l.put { a with pend := a.pend ++ new }
    let cands ← s.cvs v own ((a.prim ++ a.pend ++ new).map (·.id))
    return l.put { a with prim := v.prune c.id tv cands, pend := [] }

/-- The query a linking walk runs with: the decoded code, the norm channel 1.0 (log entry 48, DEDUCED). -/
def SView.linkQuery (v : SView) (tag : Nat) (m : Member') : Query :=
  Query.load tag [13, m.id] v.d.code v.d.code.query (v.channels m.dec ++ if v.d.metric == 1 then [f32One] else [])

/-- Links a batch: its records, scores of members against each other by (query, row). Its walks need a walk slot and walk memory (07 R215; log entry 198, DEDUCED). -/
def State.linkBatch (s : State) (c : Cmd) (v : SView) (ms : List Member') : Except Halt (LinkAcc × List (Nat × Nat × F32)) := do
  let g := s.reg32 (pGwe + 0x100)
  if !ms.isEmpty && (s.walkRoom c.part (walkMem v.d.consL)).isNone then throw (.wait (.walk (walkMem v.d.consL)))
  let own : List Cv := ms.map fun m => (m.id, v.channels m.dec)
  let qs := ms.map fun m => (m, v.linkQuery c.id m)
  let scores := (qs.map fun q => (ms.filter fun m => m.id != q.1.id).map fun m =>
    (q.1.id, m.id, (arrayScore c.id [14, q.1.id] m.id v.d.code q.2 m.dec none none f32One).1)).flatten
  s.useArray c (2 ^ 36) (arrShape (if ms.length ≤ 1 then 0 else ms.length) ms.length v.d.code.dim v.d.code.query v.d.code.elem v.d.code.group v.d.code.rowLen none)
  let first ← qs.zipIdx.foldlM (fun (l : LinkAcc) q => do
    let m := q.1.1
    let w0 := Walk.new 0 c.id v.num (2 ^ 20 + q.2) v.ed v.d.consL 0 (fld g 11 8) (fld g 31 16) 0
    let ids := rowsPlucked v w0 v.st.entries
    let w1 ← s.walkBegin c.id v q.1.2 Filter.none' w0
    let (w, b) ← s.walkRun c v q.1.2 (fld g 31 16 + 16) w1 (pluckBumps v ids)
    let best := sortBy Node.before ((scores.filter fun x => x.1 == m.id).map fun x => ({ id := x.2.1, score := x.2.2, slotRec := 0 } : Node))
    let cands ← s.cvs v own (((w.pool.filter fun n => srState n.slotRec == live').map (·.id)) ++ (best.take v.d.consL).map (·.id))
    return { l.put { self := m.id, prim := v.prune c.id (m.id, v.channels m.dec) cands, pend := [] } with bumps := l.bumps ++ b ++ walkBumps w0 w })
    ({ recs := [], bumps := [] } : LinkAcc)
  let prims := ms.map fun m => (m, (first.recs.find? fun a => a.self == m.id).elim [] (·.prim))
  let edges := (prims.map fun p => (p.2.take v.d.rev).map fun e => (e.id, ((p.1.id, v.channels p.1.dec) : Cv))).flatten
  let all ← (dedupNat (edges.map (·.1))).foldlM (fun l t => s.reverse c v own ((edges.filter fun e => e.1 == t).map (·.2)) l t) first
  return (all, scores)

/-- Adjacency records as written: flash units, cached copies. -/
def SView.adjWrites (v : SView) (l : List Adj) : List FlashPut × List Upd :=
  (l.map fun a => { lua := v.d.adj + idSlot a.self, off := 0, data := a.bytes },
   l.filterMap fun a => (tget v.st.cache (idSlot a.self)).map fun n => v.upd (v.fretOf (idSlot a.self)) 7 n false a.bytes)

def adjErrs (b : Reads) : List (Nat × Nat) := if b.any fun x => x.1 == pGwe + 0x0B8 && x.2 != 0 then [(pGwe, 0)] else []

/-! ## CONSOLIDATE (07 R246 to R248) -/

def State.consolidateCheck (s : State) (c : Cmd) (dyn : Bool) : Except Halt Unit := do
  let num := c.f 12 11 0
  let mode := c.f 12 13 12
  refuseIf ([(c.count == 0, okNow), (c.f 12 31 14 != 0 || (mode != 1 && c.q 13 != 0) || !c.zero 15 31, bf 0x0703)] ++ s.placeChecks c [num] true ++
    [(c.kReq != 0, bf 0x0904), (decide (c.count > 65536) || decide (mode > 1), bf 0x0703)])
  if dyn && mode == 1 && s.place c num == .here then
    refuseIf [(match s.shView num (s.latest (.shard num)) with
      | some v => decide (c.q 13 + c.count > v.st.hwm)
      | none => false, bf 0x0703)]
  refuseIf [(c.edReq != 0, bf 0x0803), (c.inLen != 0, bf 0x0705)]
  refuseIf (s.awayChecks c [num])
  refuseOpt (s.ranges c [])

/-- A side-list batch. -/
def State.sideBatch (s : State) (c : Cmd) (v : SView) : Except Halt Done := do
  let all ← s.sideIds v
  let ents := all.take c.count
  s.waitSlots c v.num (ents.map fun e => idSlot e.2)
  let recs ← ents.mapM fun e => do
    let w ← s.slotRec v (idSlot e.2)
    return (e.2, w)
  let fresh := recs.filter fun r => srGen r.2 == idGen r.1
  let dead := fresh.filter fun r => srState r.2 == tomb'
  let ms ← (fresh.filter fun r => srState r.2 == side').mapM fun r => do
    let x ← s.codeRow v (idSlot r.1) 1
    let e ← s.shRow v (v.fretOf (idSlot r.1)) 1 (v.slotRow (idSlot r.1)) v.d.code.entryBytes
    return x.1.map fun d => ((⟨idSlot r.1, r.1, d⟩ : Member'), r.2, e)
  let ms := ms.filterMap id
  let (l, _) ← s.linkBatch c v (ms.map (·.1))
  let w := v.adjWrites l.recs
  let us := (dead.map fun r => v.recUpd (idSlot r.1) (setState r.2 free')) ++
    (ms.map fun m => [v.recUpd m.1.slot (setState m.2.1 live'), v.scanUpd m.1.slot m.2.2]).flatten ++ w.2
  s.shardStage v.num false (!ents.isEmpty) [] us [] { Delta.none' with head := some (v.st.head + ents.length) }
    ((dead.map fun r => idSlot r.1) ++ ms.map fun m => m.1.slot)
    { Finish.ok with counter := ms.length, bumps := l.bumps ++ [(pGwe + 0x088, ms.length)], errs := adjErrs l.bumps } w.1 []

/-- The entry points a pass leaves (07 R247), and what its record reads count. -/
def State.sweepEntries (s : State) (c : Cmd) (v : SView) (recs : List Adj) : Except Halt (List Nat × Reads) :=
  v.st.entries.foldlM (fun (acc : List Nat × Reads) e => do
    let es := acc.1
    match ← s.named v e [live'] with
    | some _ => return acc
    | none =>
      let (a, b) ← match recs.find? fun a => a.self == e with
        | some a => pure (a, ([] : Reads))
        | none => do
          let x ← s.adjOf c v e
          pure (x.1.getD (Adj.none' e), adjBumps x)
      let ends ← a.prim.filterM fun t => do
        let r ← s.named v t.id [live']
        return r.isSome && !es.contains t.id
      match sortBy (fun (p q : Edge) => F32.lt p.len q.len || (p.len == q.len && decide (p.id ≤ q.id))) ends with
      | t :: _ => return (es.map fun x => if x == e then t.id else x, acc.2 ++ b)
      | [] => return (es.filter (· != e), acc.2 ++ b)) (v.st.entries, [])

/-- The entry-point table the device keeps (07 R205); unused places hold the null ID (log entry 44, DESIGN CHOICE). -/
def SView.entryTable (v : SView) (es : List Nat) : List (Nat × List Byte) :=
  [(v.d.entryAddr, ((es ++ List.replicate (64 - es.length) nullId).map (leBytes 8)).flatten)]

/-- A sweep range; the last batch of a pass of the device also frees slots and replaces entry points. -/
def State.sweepBatch (s : State) (c : Cmd) (v : SView) : Except Halt Done := do
  let sides ← s.sideIds v
  let out ← (List.range c.count).mapM fun k => do
    let i := c.q 13 + k
    let w ← s.slotRec v i
    if srState w != live' && srState w != tomb' then return none
    let a := makeId v.num (srGen w) i
    -- a TOMB slot deleted while SIDE is still in the side list and has no record (07 R210)
    if srState w == tomb' && sides.any fun e => e.2 == a then return none
    let x ← s.adjOf c v a
    match x.1 with
    | none => return some (none, adjBumps x)
    | some r =>
      let y ← s.repair c v [] r
      return some (if y.2.1 then some y.1 else none, adjBumps x ++ y.2.2)
  let out := out.filterMap id
  let recs := out.filterMap (·.1)
  let bumps := (out.map (·.2)).flatten
  let w := v.adjWrites recs
  let pass := (s.shard v.num).bind (·.sweep)
  let last := c.origin == .internal && pass.isSome && decide (c.q 13 + c.count ≥ pass.elim 0 (·.2.1))
  let tombs := if last then pass.elim [] (·.2.2) else []
  let freed ← tombs.filterM fun i => do
    let w ← s.slotRec v i
    return srState w == tomb'
  s.waitSlots c v.num freed
  let (es, more) ← if last then s.sweepEntries c v recs else pure (v.st.entries, ([] : Reads))
  let bumps := bumps ++ more
  let frees ← freed.mapM fun i => do
    let w ← s.slotRec v i
    return v.recUpd i (setState w free')
  s.shardStage v.num false (!recs.isEmpty || !freed.isEmpty || es != v.st.entries) [] (w.2 ++ frees) []
    { Delta.none' with entries := if es == v.st.entries then none else some es, release := freed.map fun i => v.d.adj + i,
                       late := if es == v.st.entries then [] else v.entryTable es } freed
    { Finish.ok with counter := recs.length, bumps := bumps ++ [(pGwe + 0x090, recs.length), (pGwe + 0x098, freed.length)],
                     errs := adjErrs bumps ++ if last && es.isEmpty && !v.st.entries.isEmpty then [(pGwe, 4)] else [] } w.1 []

def State.consolidateWork (s : State) (c : Cmd) : Except Halt Done := do
  let num := c.f 12 11 0
  match s.shView num (s.latest (.shard num)) with
  | none => throw (.refuse stField 0x0701 0)
  | some v =>
    useSram c (8 * v.d.full.dim + 64) c.count
    if c.f 12 13 12 == 0 then s.sideBatch c v else s.sweepBatch c v

/-! ## BUILD_GRAPH (07 R205, R206, R249) -/

/-- The shard a bind would make. -/
def State.bindView (s : State) (c : Cmd) : Except Halt SView := do
  let b ← s.fetch c 6 (c.q 13) 320
  let d := SDesc.parse b
  return { num := d.num, dies := s.liveDies c.part, d := d, st := { ShardRec.start with desc := b }, ed := 0, past := [] }

def State.buildView (s : State) (c : Cmd) : Except Halt SView :=
  if bitOf (c.w 12) 16 then s.bindView c
  else match s.shView (c.f 12 11 0) (s.latest (.shard (c.f 12 11 0))) with
    | some v => .ok v
    | none => .error (.refuse stField 0x0701 0)

/-- Flash extents fit the window and meet no other (11 R355). -/
def State.extentsBad (s : State) (p : Nat) (l : List (Nat × Nat)) : Bool :=
  let window := tgetD s.fte.len p 0 * 2 ^ 18
  let used := s.fte.extents.filter fun x => x.part == p
  (l.any fun x => decide (x.1 + x.2 > window) || used.any fun y => rangesMeet x.1 x.2 y.lua y.units) ||
    (match l with
      | [a, b] => rangesMeet a.1 a.2 b.1 b.2
      | _ => false) || decide (used.length + l.length > 256)

/-- The faults of a bind in the order of 07 R206. Log entry 104, DEDUCED. -/
def State.bindFaults (s : State) (c : Cmd) (v : SView) : List (Bool × (Nat × Nat × Nat)) :=
  let r := v.d.bound v.dies
  [((s.shard v.num).isSome, bf 0x0711),
   (v.num != c.f 12 11 0 || v.d.bad v.st.desc v.dies.length (s.topCol v.dies) || (s.otherBounds 4096 v.num).any r.meets, bf 0x0710),
   (s.extentsBad c.part v.d.extents, bf 0x0B06)]

/-- Ranges that a shard descriptor names. -/
def SDesc.ranges (d : SDesc) : List (Nat × Nat) :=
  [(d.entryAddr, 512)] ++ (if d.projAddr == 0 then [] else [(d.projAddr, d.channels * d.proj.rowLen), (d.proj.scaleAddr, scaleArrayBytes d.proj d.channels)]) ++
    (if d.rescale == 0 then [] else [(d.rescale, 16)]) ++ (if d.ddesc == 0 then [] else [(d.ddesc, 32)])

def State.buildGraphCheck (s : State) (c : Cmd) (dyn : Bool) : Except Halt Unit := do
  let num := c.f 12 11 0
  let init := bitOf (c.w 12) 16
  refuseIf [(c.count == 0, okNow), (c.f 12 31 17 != 0 || (!init && c.q 13 != 0) || !c.zero 15 31, bf 0x0703)]
  if !init then refuseIf (s.placeChecks c [num] true)
  let here := init || s.place c num == .here
  refuseIf [(c.kReq != 0, bf 0x0904), (decide (c.count > 65536), bf 0x0703)]
  if here then
    -- the shard of an INIT is known by its descriptor, so the checks that need it come after its address (09 R305)
    if init then
      refuseIf [(c.edReq != 0, bf 0x0803)]
      refuseOpt (s.rangeBad c.part (c.q 13) 320)
    let v ← s.buildView c
    let fmt := c.f 12 15 12
    refuseIf [(!inFmtOk fmt && fmt != v.d.full.elem.code, bf 0x0703), (c.edReq != 0, bf 0x0803),
      (c.inLen != c.count * (8 + vecInBytes fmt v.d.full.dim), bf 0x0705)]
    refuseIf (sizeChecks c (8 * c.count))
    refuseOpt (s.ranges c (if init then v.d.ranges else []))
    if init && !isDev v.d.entryAddr then throw (.refuse stField 0x0907 0)
    if init && dyn then refuseIf (s.bindFaults c v)
  else
    refuseIf [(c.edReq != 0, bf 0x0803)]
    refuseIf (sizeChecks c (8 * c.count))
    refuseIf (s.awayChecks c [num])
    refuseOpt (s.ranges c [])

/-- What every fret of a bound shard holds at first (07 R209): masked scales, zero slot records. -/
def SView.init (v : SView) : List HbmPut :=
  ((List.range v.f).map fun j =>
    [1, 2, 3, 5].map fun p =>
      let n := (v.d.piece v.f p).2
      ({ fret := slotFret v.dies j, off := v.d.rowAt v.f p 0, tag := 0, data := (List.replicate n (if p == 3 then zeros 8 else v.d.mask)).flatten } : HbmPut)).flatten

/-- Members of largest mean score against the batch (07 R249). -/
def SView.bestEntries (v : SView) (tag : Nat) (ms : List Member') (scores : List (Nat × Nat × F32)) : List Nat :=
  let mean := fun (m : Member') =>
    let l := (scores.filter fun x => x.2.1 == m.id).map fun x => x.2.2
    if l.isEmpty then (0 : F32) else F32.div (fsum tag [15, m.id] l) (F32.of (Dy.ofNat l.length))
  ((sortBy Node.before (ms.map fun m => ({ id := m.id, score := mean m, slotRec := 0 } : Node))).take v.d.entryCount).map (·.id)

def State.buildGraphWork (s : State) (c : Cmd) : Except Halt Done := do
  let init := bitOf (c.w 12) 16
  let v ← s.buildView c
  if init then refuseIf (s.bindFaults c v)
  let inp ← s.inputOf c
  let rows ← vecRows (c.f 12 15 12) v.d.full.dim c.count inp
  useSram c (8 * v.d.full.dim + 64) c.count
  s.useArray c (2 ^ 34) (v.projShape c.count)
  let k ← s.coder c v
  -- at a bind every slot record is zero whatever the frets hold
  let (ps, hwm) ← if init then
      let good := rows.zipIdx.filterMap fun r => r.1.2.map fun x => (r.2, r.1.1, x)
      let n := min good.length v.d.slotCap
      let placed := (good.take n).zipIdx.map fun g =>
        let e := encodeVec c.id [20, g.1.1] v k g.1.2.2
        (g.1.1, ({ slot := g.2, id := makeId v.num 1 g.2, rec' := g.1.2.1 + e.fscale * 2 ^ 16 + live' * 2 ^ 8 + 1, enc := e } : Placed))
      Except.ok ((List.range rows.length).map fun i => (placed.find? fun p => p.1 == i).map (·.2), n)
    else s.placeVecs c v k live' rows
  let placed := ps.filterMap id
  s.waitSlots c v.num (placed.map (·.slot))
  let ms := placed.filterMap fun p => (v.d.code.read p.enc.code.bytes p.enc.code.entry).map fun d => (⟨p.slot, p.id, d⟩ : Member')
  let (l, scores) ← s.linkBatch c v ms
  let w := v.adjWrites l.recs
  let es := if v.st.entries.isEmpty then v.bestEntries c.id ms scores else v.st.entries
  let us := (placed.map fun p => v.codeUpds p.slot p.enc.code ++ [v.scanUpd p.slot p.enc.code.entry, v.recUpd p.slot p.rec']).flatten ++ w.2
  let out := insertOut rows ps
  let fin := insertFin out placed
  s.shardStage v.num init (!placed.isEmpty) v.dies us (if init then v.init else [])
    { Delta.none' with hwm := some hwm, desc := if init then some v.st.desc else none, entries := if es == v.st.entries then none else some es,
                       late := if es == v.st.entries then [] else v.entryTable es } (placed.map (·.slot))
    { fin with bumps := fin.bumps ++ l.bumps ++ [(pGwe + 0x088, ms.length)], errs := adjErrs l.bumps }
    ((placed.map fun p => v.vecPut p.slot p.enc.full.bytes).flatten ++ w.1) (placed.map fun p => p.enc.stats v).flatten

/-! ## REQUANT of a shard's codes (09 R302 to R304) -/

/-- The code rows and side rows under a replacement record. -/
def State.requantCodes (s : State) (v : SView) (nr : QRec) : Except Halt (List Upd × List EncRow) := do
  let one := fun (dec : RowDec) => nr.encodeRow (v.d.code.decode dec)
  let code ← (List.range v.st.hwm).mapM fun i => do
    let w ← s.slotRec v i
    if srState w == free' then return ([], [])
    let (x, _) ← s.codeRow v i 1
    let sc ← s.shRow v (v.fretOf i) 2 (v.slotRow i) v.d.code.entryBytes
    match x with
    | none => return ([], [])
    | some d =>
      let e := one d
      return (v.codeUpds i e ++ (if sc == v.d.mask then [] else [v.scanUpd i e.entry]), [e])
  let ids ← s.sideIds v
  let sides ← ids.mapM fun n => do
    let (x, masked) ← s.sideRow v n.1
    match x with
    | none => return ([], [])
    | some d =>
      let e := one d
      let f := v.fretOf n.1
      return (v.upd f 4 (v.ringRow n.1) false e.bytes :: (if masked then [] else [v.upd f 5 (v.ringRow n.1) false e.entry]), [e])
  let all := code ++ sides
  return ((all.map (·.1)).flatten, (all.map (·.2)).flatten)

def State.requantShardCheck (s : State) (c : Cmd) (dyn : Bool) : Except Halt Unit := do
  let num := c.f 12 13 2
  refuseIf [(s.place c num != .here, bf 0x0701)]
  match s.shView num (s.latest (.shard num)) with
  | none => throw (.refuse stField 0x0701 0)
  | some v =>
    refuseOpt (s.rangeBad c.part (c.q 13) 64)
    let b ← s.fetch c 1 (c.q 13) 64
    let nr := QRec.parse b
    refuseIf [(nr.bad .fret, bf 0x0911)]
    refuseOpt (if nr.privCount == 0 then none else s.devRangeBad c.part nr.privAddr 128)
    let priv ← s.privFails nr 1
    refuseIf [(priv, bf 0x0911), (!compatible v.d.code nr (slice v.st.desc 128 64) b, bf 0x0912)]
    if dyn then
      let (us, _) ← s.requantCodes v nr
      refuseIf [(s.exceeds us, bf 0x0913)]

def State.requantShard (s : State) (c : Cmd) : Except Halt Done := do
  let num := c.f 12 13 2
  match s.shView num (s.latest (.shard num)) with
  | none => throw (.refuse stField 0x0701 0)
  | some v =>
    let b ← s.fetch c 1 (c.q 13) 64
    let nr := QRec.parse b
    useSram c (8 * v.d.code.dim + 64) 1
    let (us, es) ← s.requantCodes v nr
    s.shardStage num false true [] us [] { Delta.none' with desc := some (overwrite v.st.desc 128 b) } []
      { Finish.ok with counter := es.length, bumps := [(pPeg + 0x040, es.length), (pPeg + 0x050, sumList (es.map (·.sat)))] } []
      (es.map fun e => { kind := 2, number := num, fmt := nr.elem.code, errs := e.errs, sat := e.sat })

end Sys2Proof.Machine
end

