-- ==== Sys2Proof/Machine/Gather.lean ====
section
/-! DEFINITION. GATHER and PREFETCH: index words, the coalescer, rows of every source (spec 08 R263 to R272, R518). -/

namespace Sys2Proof.Machine

/-! ## Fields and checks (08 R263, R518) -/

def Cmd.gsrc (c : Cmd) : Nat := c.f 12 2 0
def Cmd.gfmt (c : Cmd) : Nat := c.f 12 6 3
def Cmd.gshard (c : Cmd) : Nat := c.f 12 19 8
def Cmd.glayer (c : Cmd) : Nat := c.f 12 27 20
def Cmd.gtable (c : Cmd) : Nat := c.q 15

/-- The record of a table: named by address. -/
def State.tableRec (s : State) (c : Cmd) : Except Halt QRec := (s.fetch c 16 (c.q 18) 64).map QRec.parse

/-- Elements of an output row (08 R264). -/
def State.gdim (s : State) (c : Cmd) : Except Halt Nat :=
  match c.gsrc with
  | 0 | 1 => match s.shView c.gshard (s.latest (.shard c.gshard)) with
    | some v => .ok (if c.gsrc == 0 then v.d.code.dim else v.d.full.dim)
    | none => .error (.refuse stField 0x0701 0)
  | 2 | 3 => match s.regView c.ctx (s.latest (.region c.ctx)) with
    | some v => .ok (v.d.heads * v.d.dh)
    | none => .error (.refuse stField 0x0601 0)
  | _ => (s.tableRec c).map (·.dim)

/-- Bytes of a slot. -/
def Cmd.gslot (c : Cmd) (dim : Nat) : Nat := roundUp ((if bitOf (c.w 12) 7 then 8 else 0) + dim * inBytes c.gfmt) 16

def State.gatherCheck (s : State) (c : Cmd) (dyn : Bool) : Except Halt Unit := do
  let src := c.gsrc
  let pf := c.opcode == 0x35
  let tbl := decide (src ≥ 4)
  refuseIf [(c.count == 0, okNow),
    (c.f 12 31 28 != 0 || !c.zero 20 31 || decide (src > 5) || !inFmtOk c.gfmt || (decide (src > 1) && c.gshard != 0) ||
      (src != 2 && src != 3 && c.glayer != 0) || (!tbl && !c.zero 15 19) || (tbl && c.w 17 == 0) ||
      (pf && (c.gfmt != 0 || bitOf (c.w 12) 7 || c.q 13 != 0)), bf 0x0808)]
  if src ≤ 1 then refuseIf (s.placeChecks c [c.gshard] false)
  if src == 2 || src == 3 then
    refuseIf [(match s.regView c.ctx (s.latest (.region c.ctx)) with
      | some v => decide (c.glayer ≥ v.d.layers)
      | none => false, bf 0x0602)]
  refuseIf [(c.kReq != 0, bf 0x0904), (tbl && c.edReq != 0, bf 0x0803)]
  if dyn && !tbl then
    match s.edBad (if src ≤ 1 then .shard c.gshard else .region c.ctx) c.edReq with
    | some sub => throw (.refuse stField sub 0)
    | none => pure ()
  refuseIf [(c.inLen != 8 * c.count, bf 0x0908)]
  -- the dimension of a table stands in its record, so its address comes before what needs it (09 R305)
  if tbl then refuseOpt (s.rangeBad c.part (c.q 18) 64)
  let dim ← s.gdim c
  refuseIf (if pf then [] else sizeChecks c (32 + c.count * c.gslot dim))
  refuseIf [(s.confidential c.part && src == 5, (stDenied, 0x0932, 0))]
  let drop := if c.q 13 == 0 then [] else [(c.q 13, ceilDiv c.count 8)]
  if tbl then
    let r ← s.tableRec c
    refuseOpt (s.ranges c (drop ++ if src == 4 then [(c.gtable, c.w 17 * r.rowLen), (r.scaleAddr, scaleArrayBytes r (c.w 17))] else []))
    refuseIf [(r.bad .array || r.bad515 true, bf 0x0916)]
  else refuseOpt (s.ranges c drop)

/-! ## Index words (08 R266) -/

/-- Why an index is dropped. -/
inductive Drop where
  | range
  | tomb
  | gen
deriving DecidableEq, Repr

/-- What a gather reads from. -/
inductive GSrc where
  | shard (v : SView)
  | region (v : RegView)
  | table (r : QRec)
deriving DecidableEq, Repr

def State.gview (s : State) (c : Cmd) : Except Halt GSrc :=
  match c.gsrc with
  | 0 | 1 => match s.shView c.gshard (s.edOf c (.shard c.gshard)) with
    | some v => .ok (.shard v)
    | none => .error (.refuse stField 0x0701 0)
  | 2 | 3 => match s.regView c.ctx (s.edOf c (.region c.ctx)) with
    | some v => .ok (.region v)
    | none => .error (.refuse stField 0x0601 0)
  | _ => (s.tableRec c).map .table

/-- The source 0 rules of 08 R266. -/
def State.judgeId (s : State) (v : SView) (id : Nat) : Except Halt (Option Drop) :=
  if !v.inRange id then .ok (some .range)
  else (s.slotRec v (idSlot id)).map fun w =>
    if srState w == tomb' || srState w == free' then some .tomb else if srGen w != idGen id then some .gen else none

/-- Segment and local index of a token below its segment's end. -/
def RegView.tokSeg (v : RegView) (layer t : Nat) : Option (Nat × Nat) :=
  ((List.range v.d.segs.length).find? fun i => decide ((v.d.seg i).start ≤ t) && decide (t < (v.d.seg i).start + v.endTok i layer)).map
    fun i => (i, t - (v.d.seg i).start)

def State.judge (s : State) (c : Cmd) (g : GSrc) (x : Nat) : Except Halt (Option Drop) :=
  match g with
  | .shard v => s.judgeId v x
  | .region v => .ok (if x < 2 ^ 24 && (v.tokSeg c.glayer x).isSome then none else some .range)
  | .table _ => .ok (if x ≥ c.w 17 then some .range else none)

/-! ## Rows -/

/-- Row n of a tier that holds a token on its key fret. -/
def State.findKey (s : State) (v : RegView) (seg layer h u : Nat) : Except Halt (Option (Nat × Member)) := do
  let slot := regSlot v.d.heads h (u % max 1 v.f)
  let hits ← ((List.range 3).map fun t => (List.range (v.len seg layer t slot)).map fun n => (t, n)).flatten.filterM fun x => do
    let m ← s.regRow v slot seg layer (mapPiece x.1) x.2 4
    return fld (le32 m 0) 23 0 == (v.d.seg seg).start + u
  match hits with
  | [] => return none
  | x :: _ =>
    let m ← s.member v slot seg layer x.1 x.2
    return some (x.1, m)

/-- The row of one head of a context source that lies in HBM, decoded. -/
def State.ctxHead (s : State) (c : Cmd) (v : RegView) (seg u h : Nat) : Except Halt (Option (List F32)) := do
  match ← s.findKey v seg c.glayer h u with
  | none => return none
  | some (t, m) =>
    if c.gsrc == 2 then return (((v.d.keyRec t).read m.key m.entry).map (v.d.keyRec t).decode)
    else s.baseVal v seg c.glayer h u

/-- Bytes of one head of a pool-resident segment: a row, then its entry or its group's scales. -/
def State.poolHead (s : State) (c : Cmd) (v : RegView) (soft : Nat) (seg u h : Nat) : Except Halt (List Byte) := do
  let kr := v.d.keyRec 0
  let vr := v.d.valRec 0
  let rd := fun kind off n => s.imageRead c v seg (soft + tokKey seg h u kind) off n
  if c.gsrc == 2 then
    let k ← rd 0 (v.d.imgKey seg c.glayer h u) kr.rowLen
    let e ← if kr.perRow then rd 1 (v.d.imgEntry seg c.glayer h u) kr.entryBytes else pure []
    return k ++ e
  else
    let x ← rd 2 (v.d.imgVal seg c.glayer h u) vr.rowLen
    let sc ← rd 3 (v.d.imgScale seg c.glayer h (u / v.d.gV)) (scaleRow vr)
    return x ++ sc

def poolHeadBytes (c : Cmd) (d : RDesc) : Nat :=
  if c.gsrc == 2 then (d.keyRec 0).rowLen + (if (d.keyRec 0).perRow then (d.keyRec 0).entryBytes else 0) else (d.valRec 0).rowLen + scaleRow (d.valRec 0)

def tokenScales (r : QRec) (b : List Byte) : List Nat := (List.range r.dim).map fun i => leNat (slice b (i * scaleBytes r.fp16) (scaleBytes r.fp16))

def poolHeadVal (c : Cmd) (d : RDesc) (b : List Byte) : Option (List F32) :=
  let kr := d.keyRec 0
  let vr := d.valRec 0
  if c.gsrc == 2 then (kr.read (slice b 0 kr.rowLen) (b.drop kr.rowLen)).map kr.decode
  else vr.decodeToken (tokenScales vr (b.drop vr.rowLen)) (slice b 0 vr.rowLen)

/-- Bytes of a table row: the row, then what scales it. -/
def State.tableRow (s : State) (c : Cmd) (r : QRec) (soft i : Nat) : Except Halt (List Byte) := do
  let rd := fun kind a n =>
    if n == 0 then Except.ok []
    else if c.gsrc == 5 then poolRead c (soft + 2 ^ 41 + 2 * i + kind) a n else s.fetch c (2 ^ 42 + 2 * i + kind) a n
  let b ← rd 0 (c.gtable + i * r.rowLen) r.rowLen
  let e ← if r.scaleAddr == 0 || r.elem.unscaled then pure []
    else if r.axis == 1 then rd 1 (r.scaleAddr + i / max 1 r.group * (r.dim * scaleBytes r.fp16)) (r.dim * scaleBytes r.fp16)
    else if r.perRow then rd 1 (r.scaleAddr + i * r.entryBytes) r.entryBytes else pure []
  return b ++ e

def tableRowBytes (r : QRec) : Nat :=
  r.rowLen + (if r.scaleAddr == 0 || r.elem.unscaled then 0 else if r.axis == 1 then r.dim * scaleBytes r.fp16 else if r.perRow then r.entryBytes else 0)

def tableVal (r : QRec) (b : List Byte) : Option (List F32) :=
  let e := b.drop r.rowLen
  if r.axis == 1 then r.decodeToken (tokenScales r e) (slice b 0 r.rowLen) else (r.read (slice b 0 r.rowLen) e).map r.decode

/-- A row that is read from flash, a pool or the host, as its stored bytes; none where it lies in HBM. `soft` marks reads whose loss is borne. -/
def State.farRow (s : State) (c : Cmd) (g : GSrc) (soft x : Nat) : Except Halt (Option (List Byte)) :=
  match g with
  | .shard v =>
    if c.gsrc == 0 then .ok none
    else (vecBytes c v (idSlot x)).bind fun b => match b with
      | some b => .ok (some b)
      | none => .error (.fail stMedia 0x0942 0 [] [])
  | .region v =>
    match v.tokSeg c.glayer x with
    | none => .ok none
    | some (seg, u) =>
      if !v.pooled seg then .ok none
      else ((List.range v.d.heads).mapM fun h => s.poolHead c v soft seg u h).map fun l => some l.flatten
  | .table r => if c.gsrc == 4 && isDev c.gtable then .ok none else (s.tableRow c r soft x).map some

/-- Bytes a far row has when all of it was read. -/
def GSrc.farBytes (g : GSrc) (c : Cmd) : Nat :=
  match g with
  | .shard v => v.d.full.rowLen
  | .region v => v.d.heads * poolHeadBytes c v.d
  | .table r => tableRowBytes r

/-- Decodes a row: its elements, and how many rows or heads of it are rejected and read as zeros (08 R264 to R266). Log entry 106, DEDUCED. -/
def State.rowVals (s : State) (c : Cmd) (g : GSrc) (x : Nat) (far : Option (List Byte)) : Except Halt (List F32 × Nat) := do
  let whole := fun (dim : Nat) (o : Option (List F32)) => match o with
    | some l => (l, 0)
    | none => (List.replicate dim (0 : F32), 1)
  match g, far with
  | .shard v, none => do
    let (d, _) ← s.codeRow v (idSlot x) 1
    return whole v.d.code.dim (d.map v.d.code.decode)
  | .shard v, some b => do
    let w ← s.slotRec v (idSlot x)
    return whole v.d.full.dim ((v.fullDec b w).map v.d.full.decode)
  | .region v, far => do
    match v.tokSeg c.glayer x with
    | none => return ([], 0)
    | some (seg, u) =>
      let hs ← (List.range v.d.heads).mapM fun h =>
        match far with
        | some b => Except.ok (if v.hole seg c.glayer h u then none else poolHeadVal c v.d (slice b (h * poolHeadBytes c v.d) (poolHeadBytes c v.d)))
        | none => s.ctxHead c v seg u h
      let ls := hs.map (whole v.d.dh)
      return ((ls.map (·.1)).flatten, sumList (ls.map (·.2)))
  | .table r, some b => return whole r.dim (tableVal r b)
  | .table r, none => do
    let b ← s.tableRow c r 0 x
    return whole r.dim (tableVal r b)

/-! ## The prefetch buffer (08 R271, R272) -/

/-- The key of a row: source, target or table, index, edition. The index of a context row names its layer too (log entry 50, DEDUCED). -/
def State.pfKey (s : State) (c : Cmd) (x : Nat) : Nat × Nat × Nat × Nat :=
  match c.gsrc with
  | 0 | 1 => (c.gsrc, c.gshard, x, s.edOf c (.shard c.gshard))
  | 2 | 3 => (c.gsrc, c.ctx, c.glayer * 2 ^ 24 + x, s.edOf c (.region c.ctx))
  | _ => (c.gsrc, c.gtable, x, 0)

def State.pfFind (s : State) (c : Cmd) (x : Nat) : Option PfRow :=
  if !bitOf (s.reg32 (pGcu + 0x100)) 0 then none
  else
    let k := s.pfKey c x
    (s.part c.part).pf.find? fun r => r.src == k.1 && r.target == k.2.1 && r.index == k.2.2.1 && r.edition == k.2.2.2

/-! ## The coalescer (08 R268) -/

/-- Windows so far: the open one as (index, why dropped), positions with their outcome, fan-outs, windows closed, indexes fetched in order. -/
structure Window where
  open' : List (Nat × Option Drop)
  pos : List (Nat × Option Drop)
  dup : Nat
  closed : Nat
  fetched : List Nat
deriving DecidableEq, Repr

def State.window (s : State) (c : Cmd) (g : GSrc) (w : Window) (x : Nat) : Except Halt Window :=
  match w.open'.find? fun e => e.1 == x with
  | some e => .ok { w with pos := w.pos ++ [e], dup := w.dup + b2n e.2.isNone }
  | none => do
    let d ← s.judge c g x
    let full := decide (w.open'.length ≥ 65536)
    return { open' := (if full then [] else w.open') ++ [(x, d)], pos := w.pos ++ [(x, d)], dup := w.dup, closed := w.closed + b2n full,
             fetched := if d.isNone then w.fetched ++ [x] else w.fetched }

def State.indexes (s : State) (c : Cmd) (g : GSrc) : Except Halt Window := do
  let inp ← s.inputOf c
  ((List.range c.count).map fun i => le64 inp (8 * i)).foldlM (fun w x => s.window c g w x) { open' := [], pos := [], dup := 0, closed := 0, fetched := [] }

/-- Drop bitmap: bit i mod 8 of byte i / 8 (08 R266). -/
def dropMap (l : List Bool) : List Byte :=
  (chunks 8 l.length l).map fun b => BitVec.ofNat 8 (sumList (b.zipIdx.map fun x => if x.1 then 2 ^ x.2 else 0))

def State.gcuParity (s : State) : Except Halt Unit := if s.armed pGcu 1 then .error (.fail stMedia 0x0944 0 [(pGcu, 1)] []) else .ok ()

/-- A row fetched for one window: its index, its elements, rejected rows, the buffered row used. -/
structure Fetched where
  index : Nat
  vals : List F32
  nan : Nat
  used : Option PfRow
deriving DecidableEq, Repr

/-- Fetches the rows of all windows; a buffered row is used once unless it stays (08 R272). -/
def State.fetchRows (s : State) (c : Cmd) (g : GSrc) (keep : Bool) (l : List Nat) : Except Halt (List Fetched) :=
  l.foldlM (fun acc x => do
    let hit := match s.pfFind c x with
      | some r => if keep || !acc.any fun y => y.index == x then some r else none
      | none => none
    let far ← match hit with
      | some r => Except.ok (some r.data)
      | none => s.farRow c g 0 x
    let v ← s.rowVals c g x far
    return acc ++ [({ index := x, vals := v.1, nan := v.2, used := hit } : Fetched)]) []

def State.gatherWork (s : State) (c : Cmd) : Except Halt Done := do
  let g ← s.gview c
  let dim ← s.gdim c
  let size := c.gslot dim
  useSram c size c.count
  s.gcuParity
  let w ← s.indexes c g
  let keep := bitOf (s.reg32 (pGcu + 0x100)) 1
  let rows ← s.fetchRows c g keep w.fetched
  let withId := bitOf (c.w 12) 7
  let row := fun x => rows.find? fun r => r.index == x
  let slot := fun (p : Nat × Option Drop) =>
    let l := match p.2, row p.1 with
      | none, some r => (r.vals.map fun y => outputBytes c.gfmt y).flatten
      | _, _ => []
    slice ((if withId then leBytes 8 (if p.2.isNone then p.1 else nullId) else []) ++ l) 0 size
  let dropped := (w.pos.filter fun p => p.2.isSome).length
  let why := fun d => (w.pos.filter fun p => p.2 == some d).length
  let nan := sumList (w.pos.map fun p => if p.2.isNone then (row p.1).elim 0 (·.nan) else 0)
  let hits := (rows.filter fun r => r.used.isSome).length
  let read := rows.length - hits
  let sum := ([w.dup, dropped, read, nan, why .range, why .tomb, why .gen, hits].map fun n => leBytes 4 (sat32 n)).flatten
  return Done.of
    { Finish.ok with
        sub := if nan == 0 then 0 else 64
        result := c.count - dropped, counter := dropped
        edition := match g with
          | .shard v => v.ed
          | .region v => v.ed
          | .table _ => 0
        out := sum ++ (w.pos.map slot).flatten
        drop := if c.q 13 == 0 then none else some (c.q 13, dropMap (w.pos.map fun p => p.2.isSome))
        bumps := [(pGcu + 0x040, 1), (pGcu + 0x050, read), (pGcu + 0x058, w.dup), (pGcu + 0x060, dropped), (pGcu + 0x068, w.closed + 1),
          (pGcu + 0x078, hits), nanBump (sumList (rows.map (·.nan)))]
        pfUse := if keep then [] else rows.filterMap (·.used)
        charges := workCharges 0 (rows.length * dim) 0 }

/-- PREFETCH (08 R271): rows read from flash, a pool or the host enter the buffer; rows it holds already are not read again (log entry 51, DEDUCED). -/
def State.prefetchWork (s : State) (c : Cmd) : Except Halt Done := do
  let g ← s.gview c
  let dim ← s.gdim c
  useSram c (c.gslot dim) c.count
  s.gcuParity
  let w ← s.indexes c g
  let on := bitOf (s.reg32 (pGcu + 0x100)) 0
  let rows ← if !on then pure [] else
    (dedupNat w.fetched).filterMapM fun x => do
      if (s.pfFind c x).isSome then return none
      let b ← s.farRow c g softKey x
      let k := s.pfKey c x
      return b.bind fun d => if d.length == g.farBytes c then
        some ({ src := k.1, target := k.2.1, index := k.2.2.1, edition := k.2.2.2, data := d } : PfRow) else none
  -- a row larger than the buffer is not buffered (08 R272)
  let kept := (rows.filter fun r => decide (r.data.length ≤ (s.part c.part).pfUnits * 65536)).length
  return Done.of
    { Finish.ok with
        counter := kept
        edition := match g with
          | .shard v => v.ed
          | .region v => v.ed
          | .table _ => 0
        bumps := [(pGcu + 0x048, 1), (pGcu + 0x068, w.closed + 1), (pGcu + 0x070, kept)], pfAdd := rows }

end Sys2Proof.Machine
end

