-- ==== Sys2Proof/Machine/Scatter.lean ====
section
/-! DEFINITION. SCATTER_UPDATE, commands forwarded whole, and TOPK_MERGE (spec 08 R273 to R281, R518, 05 R159 to R162). -/

namespace Sys2Proof.Machine

/-! ## SCATTER_UPDATE: fields, positions, checks (08 R273, R518) -/

def Cmd.smode (c : Cmd) : Nat := c.f 12 1 0
def Cmd.sfmt (c : Cmd) : Nat := c.f 12 5 2
def Cmd.sdim (c : Cmd) : Nat := c.f 12 18 6

/-- Bytes of a position: its ID and its payload. -/
def Cmd.spos (c : Cmd) : Nat := if c.smode == 2 then 16 else 8 + roundUp (vecInBytes c.sfmt c.sdim) 8

/-- One position: its place in the input, its ID, its bytes. -/
structure SPos where
  ix : Nat
  id : Nat
  data : List Byte
deriving DecidableEq, Repr

def Cmd.positions (c : Cmd) (inp : List Byte) : List SPos :=
  (List.range c.count).map fun i => { ix := i, id := le64 inp (i * c.spos), data := slice inp (i * c.spos + 8) (c.spos - 8) }

def State.scatterCheck (s : State) (c : Cmd) (_dyn : Bool) : Except Halt Unit := do
  let label := c.smode == 2
  refuseIf [(c.count == 0, okNow),
    (c.f 12 31 19 != 0 || !c.zero 15 31 || c.smode == 3 || (label && (c.sfmt != 0 || c.sdim != 0)) ||
      (!label && (c.sdim == 0 || decide (c.sdim > 4096))) || (c.smode == 1 && !inFmtOk c.sfmt) || (Fmt.ofCode c.sfmt).code != c.sfmt || c.sfmt == 0xF, bf 0x0808),
    (c.kReq != 0, bf 0x0904), (c.edReq != 0, bf 0x0803), (c.inLen != c.count * c.spos, bf 0x0908)]
  refuseIf (sizeChecks c 32)
  refuseOpt (s.ranges c (if c.q 13 == 0 then [] else [(c.q 13, ceilDiv c.count 8)]))
  let _ ← s.inputOf c

/-- Shards that positions name, ascending. -/
def shardsOf (l : List SPos) : List Nat := sortBy (fun a b => decide (a ≤ b)) (dedupNat (l.map fun p => idShard p.id))

/-- A shard whose positions have gone to an owner stays with that part of the command (08 R280). -/
def Cmd.sentTo (c : Cmd) (n : Nat) : Bool := c.batches.any fun b => b.shards.contains n

/-- The local shards a batch touches, ascending (08 R276). -/
def State.scatterShards (s : State) (c : Cmd) : List Nat :=
  match s.inputOf c with
  | .ok inp => (shardsOf (c.positions inp)).filter fun n => !c.sentTo n && s.place c n == .here
  | .error _ => []

/-! ## Forwarding (08 R278) -/

/-- Key of the answer to a command forwarded whole, and to its n-th sub-batch. -/
def wholeKey : Nat := 2 ^ 74
def batchKey (n : Nat) : Nat := 2 ^ 73 + n

/-- Sub-batches of some shards, one for each owner elsewhere, with keys from the n-th on. -/
def State.routeShards (s : State) (c : Cmd) (n : Nat) (l : List Nat) : List Batch :=
  let owners := dedupNat (l.filterMap fun x => match s.place c x with
    | .there a q => some (a * 16 + q)
    | _ => none)
  owners.zipIdx.map fun o => { key := batchKey (n + o.2), node := o.1 / 16, part := o.1 % 16,
                               shards := l.filter fun x => s.place c x == .there (o.1 / 16) (o.1 % 16) }

/-- The sub-batches of a SCATTER_UPDATE: those that were routed, and those of the shards that have not been (08 R278, R280). -/
def State.batchesOf (s : State) (c : Cmd) (l : List SPos) : List Batch :=
  c.batches ++ s.routeShards c (maxList (c.batches.map fun b => b.key + 1 - batchKey 0)) ((shardsOf l).filter fun n => !c.sentTo n)

/-- Positions of a sub-batch, in input order. -/
def Batch.positions (b : Batch) (l : List SPos) : List SPos := l.filter fun p => b.shards.contains (idShard p.id)

/-- The update summary (08 R277) with the drop bitmap of the positions. -/
structure USum where
  applied : Nat
  dropped : Nat
  repl : Nat
  nan : Nat
  range : Nat
  tomb : Nat
  gen : Nat
  fwd : Nat
deriving DecidableEq, Repr

def USum.zero : USum := ⟨0, 0, 0, 0, 0, 0, 0, 0⟩

def USum.join (a b : USum) : USum :=
  ⟨a.applied + b.applied, a.dropped + b.dropped, a.repl + b.repl, a.nan + b.nan, a.range + b.range, a.tomb + b.tomb, a.gen + b.gen, a.fwd + b.fwd⟩

/-- Log entry 108, DEDUCED. -/
def USum.bytes (a : USum) : List Byte := ([a.applied, a.dropped, a.repl, a.nan, a.range, a.tomb, a.gen, a.fwd].map fun n => leBytes 4 (sat32 n)).flatten

def USum.read (l : List Byte) : USum := ⟨le32 l 0, le32 l 4, le32 l 8, le32 l 12, le32 l 16, le32 l 20, le32 l 24, le32 l 28⟩

/-! ## The local part -/

/-- What one shard's positions yield. -/
structure ShardPart where
  sum : USum
  drop : List Nat
  stage : Option (Stage × List HbmPut)
  pages : List FlashPut
  stats : List StatPut
  bumps : List (Nat × Nat)
deriving DecidableEq, Repr

/-- Elements of a position. -/
def Cmd.selems (c : Cmd) (p : SPos) : Option (List F32) := vecElems c.sfmt c.sdim (slice p.data 0 (vecInBytes c.sfmt c.sdim))

/-- The new vector of an ID from its valid positions, in order (08 R275); none where the stored vector is rejected. Log entry 107, DEDUCED. -/
def State.newVec (_s : State) (c : Cmd) (v : SView) (id w : Nat) (xs : List (List F32)) : Except Halt (Option (List F32)) := do
  if c.smode == 0 then return xs.getLast?
  match ← vecBytes c v (idSlot id) with
  | none => throw (.fail stMedia 0x0942 0 [] [])
  | some b => return (v.fullDec b w).map fun d => xs.foldl (fun a x => (a.zip x).map fun q => F32.add q.1 q.2) (v.d.full.decode d)

/-- The part of an update that one shard takes (08 R273 to R276). A full vector whose format is not the shard's fails the part (log entry 186, DESIGN CHOICE). -/
def State.scatterShard (s : State) (c : Cmd) (num : Nat) (l : List SPos) : Except Halt ShardPart := do
  match s.shView num (s.latest (.shard num)) with
  | none => return { sum := { USum.zero with dropped := l.length, range := l.length }, drop := l.map (·.ix), stage := none, pages := [], stats := [], bumps := [] }
  | some v =>
    let label := c.smode == 2
    -- elements in a full format are those of this shard's (08 R273)
    if !label && !inFmtOk c.sfmt && (Fmt.ofCode c.sfmt) != v.d.full.elem then throw (.fail stField 0x0808 0 [] [])
    let judged ← l.mapM fun p => do
      if !label && v.d.full.dim != c.sdim then return (p, some Drop.range)
      let d ← s.judgeId v p.id
      return (p, d)
    let gone := judged.filter fun p => p.2.isSome
    let live := (judged.filter fun p => p.2.isNone).map (·.1)
    let good := live.filter fun p => label || (c.selems p).isSome
    let ids := dedupNat (good.map (·.id))
    s.waitSlots c num (ids.map idSlot)
    if !label then s.useArray c (2 ^ 34 + num) (v.projShape ids.length)
    let k ← if label then pure ({ rows := [], re := [] } : Coder) else s.coder c v
    let sides ← s.sideIds v
    let outs ← ids.mapM fun id => do
      let mine := good.filter fun p => p.id == id
      let w ← s.slotRec v (idSlot id)
      let i := idSlot id
      if label then
        let word := (mine.getLast?).elim 0 fun p => leNat (slice p.data 0 8)
        return ((id, mine.length, [v.recUpd i (word + w % 2 ^ 24)], ([] : List FlashPut), (none : Option EncVec)))
      match ← s.newVec c v id w (mine.filterMap c.selems) with
      | none => return ((id, 0, [], [], none))
      | some xs =>
        let e := encodeVec c.id [20, num, i] v k xs
        let rows := v.codeUpds i e.code ++ [v.recUpd i (setFld w 23 16 e.fscale)] ++
          (if srState w == live' then [v.scanUpd i e.code.entry]
           else ((sides.filter fun x => x.2 == id).map fun x =>
             [v.upd (v.fretOf x.1) 4 (v.ringRow x.1) false e.code.bytes, v.upd (v.fretOf x.1) 5 (v.ringRow x.1) false e.code.entry]).flatten)
        return ((id, mine.length, rows, v.vecPut i e.full.bytes, some e))
    let lost := sumList (outs.map fun o => if o.2.1 == 0 then (good.filter fun p => p.id == o.1).length else 0)
    let applied := outs.filter fun o => o.2.1 != 0
    let encs := applied.filterMap fun o => o.2.2.2.2
    let why := fun d => (gone.filter fun p => p.2 == some d).length
    let repl := if c.smode == 1 then 0 else sumList (applied.map fun o => o.2.1 - 1)
    let st ← s.mkStage (.shard num) false (!applied.isEmpty) ((applied.map fun o => o.2.2.1).flatten) Delta.none'
    return { sum := { applied := applied.length, dropped := gone.length, repl := repl, nan := live.length - good.length + lost, range := why .range,
                      tomb := why .tomb, gen := why .gen, fwd := 0 },
             drop := gone.map fun p => p.1.ix, stage := some ({ st.1 with slots := applied.map fun o => idSlot o.1 }, st.2),
             pages := (applied.map fun o => o.2.2.2.1).flatten, stats := (encs.map fun e => e.stats v).flatten, bumps := convBumps encs }

/-- A shard's part staged on top of the parts before it: their staged rows hold overlay entries and staging columns (03 R98). -/
def State.withStage (s : State) (c : Cmd) (g : Stage) : State := s.modCmd c.id fun x => { x with stages := x.stages ++ [g] }

/-- The local parts, in ascending shard order. -/
def State.scatterParts (s : State) (c : Cmd) (all : List SPos) : List Nat → Except Halt (List ShardPart)
  | [] => .ok []
  | n :: r => do
    let p ← s.scatterShard c n (all.filter fun p => idShard p.id == n)
    let s' := p.stage.elim s fun g => s.withStage c g.1
    let rest ← s'.scatterParts c all r
    return p :: rest

/-- How the local part of a split update ended: with a failure, it has no parts (08 R279). -/
structure LocalPart where
  parts : List ShardPart
  bad : List (Nat × Nat)
  errs : List (Nat × Nat)
  bumps : List (Nat × Nat)
deriving DecidableEq, Repr

/-- What fails here counts with the owners' answers, where there are any. -/
def State.localPart (s : State) (c : Cmd) (all : List SPos) (split : Bool) : Except Halt LocalPart :=
  match s.scatterParts c all (s.scatterShards c) with
  | .ok l => .ok { parts := l, bad := [], errs := [], bumps := [] }
  | .error (.fail st sub n errs bumps) =>
    if split then .ok { parts := [], bad := [(st, sub)], errs := errs, bumps := (pUpd + 0x048, 1) :: bumps } else .error (.fail st sub n errs bumps)
  | .error h => .error h

/-- The edition a split update reports: of the lowest shard of this node that changed, which another partition of the node may own (08 R277). Log entry 185, DEDUCED. -/
def scatterEdition (node : Nat) (c : Cmd) (all : List SPos) (answers : List (Batch × OwnerAns)) : Option (Nat × Nat) :=
  let mine := answers.filter fun a => a.1.node == node && a.2.edition != 0
  let cand := mine.filterMap fun a =>
    let kept := ((a.1.positions all).zipIdx.filter fun p => !bitOf (byteAt a.2.out (32 + p.2 / 8)) (p.2 % 8) && (c.smode == 2 || (c.selems p.1).isSome)).map (·.1)
    ((shardsOf kept).head?).map fun n => (n, a.2.edition)
  (sortBy (fun a b => decide (a.1 ≤ b.1)) cand).head?

/-- A SCATTER_UPDATE: the local part, and what the owners of other shards answer (08 R277 to R280). -/
def State.scatterWork (s : State) (c : Cmd) : Except Halt Done := do
  let inp ← s.inputOf c
  let all := c.positions inp
  if c.smode == 2 && all.any fun p => leNat (slice p.data 0 8) % 2 ^ 24 != 0 then throw (badData 0x0951)
  useSram c c.spos c.count
  let batches := s.batchesOf c all
  let answers ← batches.mapM fun o => do
    let b ← needKey c o.key (.forward o.key)
    return (o, OwnerAns.read b)
  let mine ← s.localPart c all (!batches.isEmpty)
  let parts := mine.parts
  let lost := all.filter fun p => !(batches.any fun b => b.shards.contains (idShard p.id)) && s.place c (idShard p.id) == .nowhere
  let away := (batches.filter fun b => b.node != s.node).map fun b => (b.positions all).length
  let base : USum := { USum.zero with dropped := lost.length, range := lost.length, fwd := sumList away }
  let sum := (parts.map (·.sum) ++ answers.map fun a => USum.read a.2.out).foldl USum.join base
  let far := (answers.map fun a => ((a.1.positions all).zipIdx.filter fun p => bitOf (byteAt a.2.out (32 + p.2 / 8)) (p.2 % 8)).map fun p => p.1.ix).flatten
  let gone := (parts.map (·.drop)).flatten ++ far ++ lost.map (·.ix)
  let bits := dropMap ((List.range c.count).map gone.contains)
  let bad := worst ((mine.bad.map fun b => (s.node, b)) ++ answers.map fun a => (a.1.node, a.2.status, a.2.sub))
  let stages := parts.filterMap (·.stage)
  let other := scatterEdition s.node c all answers
  return { fin := { Finish.ok with
             status := bad.elim stOk (·.1)
             sub := match bad with
               | some x => x.2
               | none => (if sum.nan == 0 then 0 else 64) ||| (answers.foldl (fun a x => a ||| x.2.sub) 0)
             result := sum.applied, counter := sum.dropped, edition := other.elim 0 (·.2), edShard := other.map (·.1)
             out := sum.bytes ++ if c.origin == .window then [] else bits
             drop := if c.q 13 == 0 || c.origin != .window then none else some (c.q 13, bits)
             errs := mine.errs
             bumps := (parts.map (·.bumps)).flatten ++ [(pUpd + 0x050, sumList (parts.map fun p => p.sum.repl)), nanBump (sumList (parts.map fun p => p.sum.nan))] ++ mine.bumps },
           stages := stages.map (·.1), puts := (stages.map (·.2)).flatten, pages := (parts.map (·.pages)).flatten, stats := (parts.map (·.stats)).flatten }

/-! ## Commands forwarded whole (08 R278, R279) -/

/-- The owner's answer is the outcome. -/
def State.wholeWork (s : State) (c : Cmd) : Except Halt Done := do
  -- its input travels with it
  let _ ← s.inputOf c
  let b ← needKey c wholeKey (.forward wholeKey)
  let a := OwnerAns.read b
  if stGood a.status then
    return Done.of { Finish.ok with status := a.status, sub := a.sub, counter := a.counter, result := a.result, edition := a.edition, out := a.out }
  else throw (.fail a.status a.sub a.counter [] [])

/-! ## TOPK_MERGE (05 R159 to R161) -/

def Cmd.lists (c : Cmd) : Nat := c.f 12 8 0
def Cmd.collective (c : Cmd) : Bool := bitOf (c.w 12) 16
def Cmd.isRoot (c : Cmd) : Bool := bitOf (c.w 12) 17

/-- The node writes the merged blocks. -/
def Cmd.mergeOut (c : Cmd) : Bool := !c.collective || c.isRoot

def mergeSize (c : Cmd) (t : Nat) : Nat := c.count * blockSize (c.kReq + t)

def State.topkCheck (s : State) (c : Cmd) (_dyn : Bool) : Except Halt Unit := do
  refuseIf [(c.count == 0, okNow),
    (c.f 12 15 9 != 0 || c.f 12 31 18 != 0 || c.f 14 15 12 != 0 || c.f 14 27 25 != 0 || !c.zero 15 31 || (!c.collective && !c.zero 13 14), bf 0x0105),
    (decide (c.lists > 256) || (c.lists == 0 && !(c.collective && c.isRoot)) || (c.collective && (c.w 13 == 0 || c.f 14 24 16 == 0 || decide (c.f 14 24 16 > 256))), bf 0x0105),
    (decide (c.kReq > 4096), bf 0x0904), (c.edReq != 0, bf 0x0803)]
  refuseOpt (s.rangeBad c.part c.inAddr c.inLen)
  let inp ← s.inputOf c
  refuseIf [((blockOffsets inp (c.count * c.lists) 0).isNone, bf 0x0106)]
  refuseIf (if c.mergeOut then sizeChecks c (mergeSize c 0) else [])
  refuseIf [(s.confidential c.part && c.collective, (stDenied, 0x0932, 0))]
  refuseOpt (s.ranges c [])

def State.topkWork (s : State) (c : Cmd) : Except Halt Done := do
  let inp ← s.inputOf c
  let offs := (blockOffsets inp (c.count * c.lists) 0).getD []
  if offs.any (blockBad inp) then throw (badData 0x0951)
  let t := tieSlots c (mergeSize c)
  useSram c (32 + 16 * (c.kReq + t) + 64 * c.lists) c.count
  s.selParity
  let tOwn := if c.collective then (if c.ties && c.kReq != 0 then 64 else 0) else t
  let own := (List.range c.count).map fun q =>
    mergeBlocks c.id [11, q] c.kReq tOwn (((offs.drop (q * c.lists)).take c.lists).map fun o => (readBlock inp o).2)
  let mine := sumList (own.map (·.dropped))
  -- the copies dropped at the root count with its own (05 R161)
  let (blocks, drops) ← if c.collective then do
      let b ← needKey c collKey (.coll collKey (own.map (·.block)))
      let l := readBlocks c.count b
      pure (if c.isRoot then (l, mine + le32 b (blocksBytes l).length) else ([], mine))
    else pure (own.map (·.block), mine)
  let ents := sumList (offs.map fun o => (readBlock inp o).2.entries.length)
  return Done.of
    { Finish.ok with
        status := if c.mergeOut then selStatus c.kReq stShort blocks else stOk
        sub := selFlags blocks, result := selResult blocks, counter := sat32 drops
        out := (blocks.map fun b => blockBytes b (c.kReq + t)).flatten
        bumps := (own.map (·.bumps)).flatten, charges := workCharges ents 0 0 }

end Sys2Proof.Machine
end

