-- ==== Sys2Proof/Machine/Flash.lean ====
section
/-! DEFINITION. Flash: the map and its history, windows, dies and superblocks, placing pages, the raw flash commands (spec 11 R352 to R370, R380, R381, R519). -/

namespace Sys2Proof.Machine

/-! ## Logical space (11 R352, R355) -/

/-- Global page of a LUA of a partition, and its unit. -/
def State.gpage (s : State) (p lua : Nat) : Nat := tgetD s.fte.base p 0 * 65536 + lua / 4

/-- Units of a partition's window. -/
def State.windowUnits (s : State) (p : Nat) : Nat := tgetD s.fte.len p 0 * 2 ^ 18

/-- The extent a LUA lies in. -/
def State.extentOf (s : State) (p lua : Nat) : Option Extent := s.fte.extents.find? fun x => x.part == p && decide (x.lua ≤ lua) && decide (lua < x.lua + x.units)

/-- Target of the pages of an extent that is editioned. -/
def ExtentUse.target : ExtentUse → Option Target
  | .adj n | .vec n => some (.shard n)
  | .spill c _ => some (.region c)
  | .area _ => none

/-! ## The map (11 R356, R358, R370) -/

def MapEnt.none' : MapEnt := { kind := 0, zmask := 0, ppa := 0 }

def State.mapNow (s : State) (g : Nat) : MapEnt := tgetD s.fte.map g MapEnt.none'

/-- The entry a read at edition `e` resolves to: the previous entry of the oldest record not visible to it. -/
def State.mapAt (s : State) (g e : Nat) : MapEnt :=
  match (s.fte.hist.filter fun h => h.page == g && (match h.edition with
    | none => true
    | some x => decide (e < x))).getLast? with
  | some h => h.prev
  | none => s.mapNow g

/-- Bytes of a unit under an entry; none when it is poisoned. -/
def State.unitOf (s : State) (m : MapEnt) (u : Nat) : Option (List Byte) :=
  if m.kind == 0 || bitOf m.zmask u then some (zeros 4096)
  else if m.kind == 2 then none
  else match tget s.fte.phys m.ppa with
    | some x => some (slice x.data (4096 * u) 4096)
    | none => some (zeros 4096)

/-- Edition at which a command reads a LUA. -/
def State.flashEd (s : State) (c : Cmd) (p lua : Nat) : Nat :=
  match (s.extentOf p lua).bind fun x => x.use.target with
  | some t => if isMutating c.opcode then s.latest t else s.edOf c t
  | none => 0

/-- A unit of the partition's window as a command reads it. -/
def State.flashUnit (s : State) (c : Cmd) (lua : Nat) : Option (List Byte) :=
  let g := s.gpage c.part lua
  s.unitOf (if (s.extentOf c.part lua).isSome then s.mapAt g (s.flashEd c c.part lua) else s.mapNow g) (lua % 4)

/-! ## Dies and superblocks (11 R353, R354, R363) -/

def DieSt.absent : DieSt := { st := .absent, retired := [], planes := 1, ppb := 1, pages := 0, retry := false, suspend := false }

def State.die (s : State) (d : Nat) : DieSt := tgetD s.fte.dies d DieSt.absent
def State.modDie (s : State) (d : Nat) (f : DieSt → DieSt) : State := { s with fte := { s.fte with dies := tset s.fte.dies d (f (s.die d)) } }

/-- A partition's usable dies: by die index within a channel, interleaved across channels. -/
def State.partDies (s : State) (p : Nat) : List Nat :=
  let chs := bitsOf 32 (s.flashChs p)
  ((List.range 16).map fun k => chs.map fun c => 16 * c + k).flatten.filter fun d => (s.die d).st == .good

/-- Stripe groups: W dies each, the remainder in the last. -/
def stripeGroups (l : List Nat) : List (List Nat) :=
  let w := min 16 l.length
  if w == 0 then []
  else
    let n := l.length / w
    (List.range n).map fun i => if i + 1 == n then l.drop (i * w) else (l.drop (i * w)).take w

/-- Pages a die programs in one operation; rows of a superblock: pages of a block. A superblock takes one block of each plane (log entry 52, DESIGN CHOICE). -/
def State.geometry (s : State) (p : Nat) : Nat × Nat × Nat :=
  match s.partDies p with
  | d :: _ => let x := s.die d; (max 1 x.planes, max 1 x.ppb, x.pages / (max 1 x.ppb * max 1 x.planes))
  | [] => (1, 1, 0)

/-- Superblocks of a partition. -/
def State.superCount (s : State) (p : Nat) : Nat := (stripeGroups (s.partDies p)).length * (s.geometry p).2.2

def superKey (p i : Nat) : Nat := p * 65536 + i
def streamKey (p st : Nat) : Nat := p * 4 + st

def State.stream (s : State) (p st : Nat) : Stream := tgetD s.fte.streams (streamKey p st) { sb := none, row := [], programming := false }
def State.setStream (s : State) (p st : Nat) (x : Stream) : State := { s with fte := { s.fte with streams := tset s.fte.streams (streamKey p st) x } }
def State.super (s : State) (p i : Nat) : Option Super := tget s.fte.supers (superKey p i)
def State.setSuper (s : State) (p i : Nat) (x : Super) : State := { s with fte := { s.fte with supers := tset s.fte.supers (superKey p i) x } }

/-- The superblocks of a partition in use. -/
def State.supersOf (s : State) (p : Nat) : List (Nat × Super) := (s.fte.supers.filter fun e => e.1 / 65536 == p).map fun e => (e.1 % 65536, e.2)

/-- Superblocks of a partition that hold nothing: no superblock in use has one of their blocks. -/
def State.freeSupers (s : State) (p : Nat) : List Nat :=
  let n := max 1 (s.geometry p).2.2
  let gs := stripeGroups (s.partDies p)
  let used := s.supersOf p
  (List.range (s.superCount p)).filter fun i =>
    !(used.any fun x => x.1 == i || (x.2.block == i % n && x.2.dies.any fun d => (gs.getD (i / n) []).contains d))

def retired (x : DieSt) (block : Nat) : Bool := x.retired.contains block

/-- Stripes of a superblock's dies: one, or two for a group wider than 16. -/
def stripes (l : List Nat) : List (List Nat) := if l.length ≤ 16 then [l] else [l.take 16, l.drop 16]

/-- Data pages of row r of a superblock in order, by page address; parity lies on position r mod W of each stripe. Log entry 132, PRESUMED. -/
def State.rowPages (s : State) (x : Super) (r : Nat) : List Nat :=
  ((stripes (x.dies.filter fun d => !retired (s.die d) x.block && (s.die d).st == .good)).map fun l =>
    (l.zipIdx.filter fun d => l.length == 1 || d.2 != r % l.length).map fun d =>
      let g := s.die d.1
      (List.range (max 1 g.planes)).map fun k => d.1 * 2 ^ 24 + (x.block * max 1 g.planes + k) * max 1 g.ppb + r).flatten.flatten

/-- Parity pages of the row. -/
def State.rowParity (s : State) (x : Super) (r : Nat) : List Nat :=
  ((stripes (x.dies.filter fun d => !retired (s.die d) x.block && (s.die d).st == .good)).map fun l =>
    (l.zipIdx.filter fun d => l.length != 1 && d.2 == r % l.length).map fun d =>
      let g := s.die d.1
      (List.range (max 1 g.planes)).map fun k => d.1 * 2 ^ 24 + (x.block * max 1 g.planes + k) * max 1 g.ppb + r).flatten.flatten

/-- Opens the lowest free superblock for a stream (log entry 52, DESIGN CHOICE). -/
def State.openSuper (s : State) (p st : Nat) : Option State :=
  match s.freeSupers p with
  | [] => none
  | i :: _ =>
    let n := (s.geometry p).2.2
    let dies := (stripeGroups (s.partDies p)).getD (i / max 1 n) []
    some ((s.setSuper p i { dies := dies, block := i % max 1 n, nextRow := 0, closed := false, reads := 0, erasing := false }).setStream p st
      { s.stream p st with sb := some i })

/-- The next page address of a stream, with what placing it changes; none when no superblock is free. -/
def State.nextPage (s : State) (p st : Nat) : Nat → Option (Nat × State)
  | 0 => none
  | fuel + 1 =>
    let x := s.stream p st
    match x.sb.bind fun i => (s.super p i).map fun b => (i, b) with
    | none => (s.openSuper p st).bind fun s => s.nextPage p st fuel
    | some (i, b) =>
      if b.nextRow ≥ (s.geometry p).2.1 then ((s.setSuper p i { b with closed := true }).setStream p st { x with sb := none }).nextPage p st fuel
      else
        match (s.rowPages b b.nextRow).find? fun a => !x.row.contains a with
        | some a => some (a, s.setStream p st { x with row := x.row ++ [a] })
        | none => (s.setSuper p i { b with nextRow := b.nextRow + 1 }).nextPage p st fuel

/-- The key a partition's units are written under: empty outside confidential mode (11 R362, 14 R445; log entry 130, DESIGN CHOICE). -/
def State.flashKeyOf (s : State) (p : Nat) : List Byte := if s.confidential p then Config.shake256 64 (s.sec.root ++ leBytes 1 p ++ tgetD s.sec.nonce p []) else []

/-- Places a page's data in a stream, under a key: it lies in the write buffer until its row is programmed. -/
def State.placePage (s : State) (p st g : Nat) (k d : List Byte) : Option (Nat × State) :=
  (s.nextPage p st 1048576).map fun a =>
    let s := a.2
    let n := tgetD s.fte.seq p 0 + 1
    (a.1, { s with fte := { s.fte with phys := tset s.fte.phys a.1 { gpage := g, part := p, seq := n, key := k, data := d, programmed := false },
                                       seq := tset s.fte.seq p n, written := true } })

/-! ## Writes and trims (11 R358, R366, R367, R370) -/

/-- Key under which a command keeps the pages it has taken, beside the slots of shards. -/
def pageKey : Nat := 4096

/-- A page is held by another command's stage: written by it, or taken while it waits for a higher one (11 R367). -/
def State.pageHeld (s : State) (id g : Nat) : Bool :=
  (s.fte.hist.any fun h => h.page == g && h.edition.isNone && h.tag != id) || s.cmds.any fun x => x.id != id && (tgetD x.taken pageKey []).contains g

/-- The new entry of a page; of an editioned page a history record keeps the entry before (11 R358). Log entry 135, DEDUCED. -/
def State.setMap (s : State) (tag g : Nat) (editioned : Bool) (m : MapEnt) : State :=
  let h := if editioned && !(s.fte.hist.any fun h => h.page == g && h.tag == tag && h.edition.isNone) then
      ({ page := g, prev := s.mapNow g, tag := tag, edition := none } : Hist) :: s.fte.hist
    else s.fte.hist
  { s with fte := { s.fte with hist := h, map := if m.kind == 0 then tdel s.fte.map g else tset s.fte.map g m } }

/-- Pages that an entry names are valid (11 R358, R368). -/
def State.pageValid (s : State) (g a : Nat) : Bool :=
  ((s.mapNow g).ppa == a && (s.mapNow g).kind == 1) || s.fte.hist.any fun h => h.prev.ppa == a && h.prev.kind == 1 && h.page == g

/-- Die, block and stripe row of a page address (11 R354, R363). -/
def State.pageSpot (s : State) (a : Nat) : Nat × Nat × Nat :=
  let x := s.die (a / 2 ^ 24)
  let n := a % 2 ^ 24
  (a / 2 ^ 24, n / (max 1 x.ppb * max 1 x.planes), n % max 1 x.ppb)

def State.inSuper (s : State) (x : Super) (a : Nat) : Bool := x.dies.contains (a / 2 ^ 24) && (s.pageSpot a).2.1 == x.block

/-- Valid pages of a superblock that are programmed. -/
def State.validIn (s : State) (x : Super) : List Nat := (s.fte.phys.filter fun e => e.2.programmed && s.inSuper x e.1 && s.pageValid e.2.gpage e.1).map (·.1)

/-- Data positions of a superblock. -/
def State.superPages (s : State) (p : Nat) (x : Super) : Nat := sumList ((List.range (s.geometry p).2.1).map fun r => (s.rowPages x r).length)

/-- Free superblocks in percent (11 FTE_PART_STS). -/
def State.freePct (s : State) (p : Nat) : Nat := let n := s.superCount p; if n == 0 then 0 else 100 * (s.freeSupers p).length / n

/-- Below URGENT percent. -/
def State.urgent (s : State) (p : Nat) : Bool := s.superCount p != 0 && decide (s.freePct p < fld (s.reg32 (pFte + 0x104)) 23 16)

/-- The closed superblock with the fewest valid pages, ties to the lower number, where relocating it frees something. -/
def State.gcVictim (s : State) (p : Nat) : Option (Nat × Super) :=
  let l := ((s.supersOf p).filter fun x => x.2.closed && !x.2.erasing && !s.fte.phys.any fun e => !e.2.programmed && s.inSuper x.2 e.1).map fun x => (x, (s.validIn x.2).length)
  let best := l.foldl (fun (b : Option ((Nat × Super) × Nat)) x => match b with
    | none => some x
    | some y => if x.2 < y.2 then some x else some y) none
  best.bind fun x => if x.2 < s.superPages p x.1.2 then some x.1 else none

/-- Relocation is called for and can free nothing (11 R368; log entry 70, DEDUCED). -/
def State.gcStuck (s : State) (p : Nat) : Bool :=
  bitOf s.fte.gc p && s.urgent p && (s.gcVictim p).isNone && !((s.supersOf p).any fun x => x.2.erasing)

/-! ## History records (11 R358) -/

/-- Partition in whose window a global page lies. -/
def State.partOfPage (s : State) (g : Nat) : Option Nat :=
  (List.range 16).find? fun p => decide (tgetD s.fte.base p 0 * 65536 ≤ g) && decide (g < tgetD s.fte.base p 0 * 65536 + tgetD s.fte.len p 0 * 65536)

/-- The shard or region a history record belongs to. -/
def State.histTarget (s : State) (p : Nat) (h : Hist) : Option Target :=
  (s.extentOf p ((h.page - tgetD s.fte.base p 0 * 65536) * 4)).bind fun x => x.use.target

/-- Frees history records of a partition that the floor of their target has passed. -/
def State.freeHist (s : State) (p : Nat) : State :=
  let keep := fun (h : Hist) => match h.edition with
    | none => true
    | some e => s.partOfPage h.page != some p || (match s.histTarget p h with
      | some t => decide (s.floorOf t < e)
      | none => true)
  { s with fte := { s.fte with hist := s.fte.hist.filter keep } }

/-- History records the device holds: those of 16 bytes that fit the last 64 KiB of each domain's area. Log entry 135, DESIGN CHOICE. -/
def histCap : Nat := 12288 * 4096

/-- Room for a history record: where none is free, retention of the target that holds the oldest committed record gives way, unless a reader stands in its way. -/
def State.yieldHist (s : State) : State :=
  if s.fte.hist.length < histCap then s
  else
    match (s.fte.hist.filter (·.edition.isSome)).getLast? with
    | none => s
    | some h =>
      match s.partOfPage h.page with
      | none => s
      | some p =>
        match s.histTarget p h, h.edition with
        | some t, some e =>
          if (s.readers t).any fun r => decide (r < e) then s
          else (((s.setFloor t e).bump (pFte + 0x098) 1).bump (pUpd + 0x080) 1).freeHist p
        | _, _ => s

/-- Codewords of pages are read from their dies: `n` of each (11 FTE_RD_UNITS, FTE_CH_RD_BYTES). -/
def State.countReads (s : State) (n : Nat) (pages : List Nat) : State :=
  pages.foldl (fun s a => (s.bump (pFte + 0x040) n).bump (pChan (a / 2 ^ 28) + 0x040) (4608 * n)) s

/-- Writes the parts of one page: the other units are those of the latest edition (11 R366). `none` when no space is free; an unreadable unit ends the command. Log entry 88, DEDUCED. Log entry 110, DESIGN CHOICE. -/
def State.writePage (s : State) (c : Cmd) (p g : Nat) (editioned : Bool) (parts : List FlashPut) : Except Halt State :=
  let old := if editioned then s.mapAt g (2 ^ 64) else s.mapNow g
  let touched := dedupNat (parts.map fun x => x.lua % 4)
  let whole := fun u => (parts.any fun x => x.lua % 4 == u && x.off == 0 && decide (x.data.length ≥ 4096))
  let keep := (List.range 4).filter fun u => !whole u && old.kind != 0 && !bitOf old.zmask u
  if keep.any fun u => (s.unitOf old u).isNone then .error (.fail stMedia 0x0942 0 [] [])
  else if s.gcStuck p then .error (.fail stMedia 0x0942 0 [(pFte, 4)] [])
  else
    let unit := fun u => parts.foldl (fun b x => if x.lua % 4 == u then overwrite b x.off x.data else b) ((s.unitOf old u).getD (zeros 4096))
    let data := ((List.range 4).map unit).flatten
    let zmask := sumList ((List.range 4).map fun u => if !touched.contains u && (old.kind == 0 || bitOf old.zmask u) then 2 ^ u else 0)
    match s.placePage p 0 g (s.flashKeyOf p) data with
    | none => .error (.fail stMedia 0x0942 0 [(pFte, 4)] [])
    | some (a, s) =>
      let merge := decide (keep.length + touched.length != 0) && (List.range 4).any fun u => !whole u
      let s := if merge then s.bump (pFte + 0x060) 1 else s
      let s := s.chargeFree c.part 7 (64 * keep.length)
      let s := if keep.isEmpty || !(tget s.fte.phys old.ppa).elim false (·.programmed) then s else s.countReads keep.length [old.ppa]
      .ok ((if editioned then s.yieldHist else s).setMap c.id g editioned { kind := 1, zmask := zmask, ppa := a })

/-- Parts of a stage by page, ascending (11 R367). -/
def State.putPages (s : State) (p : Nat) (l : List FlashPut) : List (Nat × List FlashPut) :=
  (sortBy (fun a b => decide (a ≤ b)) (dedupNat (l.map fun x => s.gpage p x.lua))).map fun g => (g, l.filter fun x => s.gpage p x.lua == g)

/-- All pages a stage writes; or the first page another stage holds, with those below it, which it keeps while it waits (11 R367). -/
def State.writePages (s : State) (c : Cmd) (p : Nat) (editioned : Bool) (l : List FlashPut) : Except Halt State :=
  let pages := s.putPages p l
  match pages.find? fun x => s.pageHeld c.id x.1 with
  | some x => .error (.wait (.page x.1 ((pages.map (·.1)).filter fun g => decide (g < x.1))))
  | none => pages.foldlM (fun s x => s.writePage c p x.1 editioned x.2) s

/-- Trims one unit (11 R370). -/
def State.trimUnit (s : State) (p lua tag : Nat) (editioned : Bool) : State :=
  let g := s.gpage p lua
  let m := s.mapNow g
  if m.kind == 0 then s
  else
    let z := setBit m.zmask (lua % 4) true
    s.setMap tag g editioned (if z == 15 then MapEnt.none' else { m with zmask := z })

/-- Every page the command wrote is programmed (11 R365). -/
def State.programmed (s : State) (pages : List Nat) : Bool :=
  pages.all fun g => let m := s.mapNow g
    m.kind != 1 || (tget s.fte.phys m.ppa).elim true (·.programmed)

/-! ## FLASH_READ, FLASH_WRITE, FLASH_TRIM (11 R380, R381) -/

def Cmd.faddr (c : Cmd) : Nat := c.q 13
def Cmd.phys (c : Cmd) : Bool := bitOf (c.w 12) 0

def State.flashCheck (s : State) (c : Cmd) : Except Halt Unit := do
  let read := c.opcode == 0x71
  let n := c.count
  let phys := read && c.phys
  let die := c.faddr / 2 ^ 24
  refuseIf [(n == 0, okNow), (c.f 12 31 1 != 0 || (!read && c.phys) || !c.zero 15 31, bf 0x0B01),
    (s.flashChs c.part == 0 || (phys && (n != 1 || decide (c.faddr ≥ 2 ^ 33) || !bitOf (s.flashChs c.part) (die / 16))) ||
      (!phys && decide (c.faddr + n > s.windowUnits c.part)), bf 0x0B02),
    (decide (n > 2 ^ 20), bf 0x0B03), (c.kReq != 0, bf 0x0904), (c.edReq != 0, bf 0x0803),
    (!read && s.fte.extents.any fun x => x.part == c.part && rangesMeet c.faddr n x.lua x.units, bf 0x0B04),
    (phys && s.confidential c.part, (stDenied, 0x0932, 0)), (c.inLen != (if c.opcode == 0x72 then n * 4096 else 0), bf 0x0B05)]
  refuseIf (sizeChecks c (if phys then 18432 else if read then n * 4096 else 0))
  refuseOpt (s.ranges c [])

/-- Metadata and parity of a unit as stored (11 R361). -/
def codeword (x : Phys) (u : Nat) (data : List Byte) : List Byte :=
  let m := leBytes 5 x.gpage ++ leBytes 1 (u + 16 * x.part) ++ zeros 2 ++ leBytes 8 x.seq ++ zeros 12
  let m := m ++ leBytes 4 (crc32c (data ++ m))
  data ++ m ++ slice (Config.ldpcParity (data ++ m)) 0 480

/-- A physical page as stored: 18,432 bytes. Log entry 130, DESIGN CHOICE. -/
def State.rawOf (s : State) (a : Nat) : List Byte :=
  match tget s.fte.phys a with
  | none => slice (Config.rawPage a) 0 18432
  | some x =>
    if !x.programmed then slice (Config.rawPage a) 0 18432
    else ((List.range 4).map fun u =>
      let d := slice x.data (4096 * u) 4096
      codeword x u (if x.key.isEmpty then d else slice (Config.xtsEnc x.key (4 * x.gpage + u) d) 0 4096)).flatten

def State.flashReadWork (s : State) (c : Cmd) : Except Halt Done := do
  if c.phys then return Done.of { Finish.ok with out := s.rawOf c.faddr, bumps := [(pChan (c.faddr / 2 ^ 28) + 0x040, 18432)] }
  let l ← flashUnits c c.faddr c.count
  let zero := (List.range c.count).filter fun i =>
    let m := s.mapNow (s.gpage c.part (c.faddr + i))
    m.kind == 0 || bitOf m.zmask ((c.faddr + i) % 4)
  return Done.of { Finish.ok with out := l, counter := zero.length }

def State.flashWriteWork (s : State) (c : Cmd) : Except Halt Done := do
  let inp ← s.inputOf c
  return { Done.of { Finish.ok with counter := c.count, charges := [] } with
           pages := (List.range c.count).map fun i => { lua := c.faddr + i, off := 0, data := slice inp (4096 * i) 4096 } }

/-- Pages of a range that a trim unmaps. -/
def State.trimRange (s : State) (c : Cmd) : State × Nat :=
  (List.range c.count).foldl (fun (x : State × Nat) i =>
    let g := x.1.gpage c.part (c.faddr + i)
    let was := (x.1.mapNow g).kind
    let t := x.1.trimUnit c.part (c.faddr + i) c.id false
    (t, x.2 + b2n (was != 0 && (t.mapNow g).kind == 0))) (s, 0)

end Sys2Proof.Machine
end

