-- ==== Sys2Proof/Machine/Dies.lean ====
section
/-! DEFINITION. The queues of the NAND dies: what is to be read, programmed and erased, the operation outstanding on each die, suspension and resumption (spec 11 R351, 01 R29, R30). -/

namespace Sys2Proof.Machine

def State.dieLost (s : State) (d : Nat) : Bool := let x := (s.die d).st; x == .dead || x == .rebuilding || x == .excluded

/-- A walk of a command expands the node whose adjacency record is at a LUA. -/
def State.expanding (s : State) (c : Cmd) (lua : Nat) : Bool :=
  s.walks.any fun w => w.cmd == c.id && (match s.walkCtx w with
    | .ok (_, v, _) => w.flying.any fun id => v.d.adj + idSlot id == lua && (tget v.st.cache (idSlot id)).isNone
    | .error _ => false)

/-- The entry a command reads a LUA under. -/
def State.entryFor (s : State) (c : Cmd) (lua : Nat) : MapEnt :=
  let g := s.gpage c.part lua
  if (s.extentOf c.part lua).isSome then s.mapAt g (s.flashEd c c.part lua) else s.mapNow g

/-! ## Rows of a stream (11 R364, R519) -/

/-- Pages of the oldest row a stream has not programmed. -/
def State.firstRow (s : State) (x : Stream) : List Nat :=
  match x.row with
  | [] => []
  | a :: _ => let h := s.pageSpot a; x.row.filter fun b => (s.pageSpot b).2 == h.2

/-- The superblock of the row, and its stripe row. -/
def State.rowHome (s : State) (p : Nat) (l : List Nat) : Option (Nat × Super × Nat) :=
  l.head?.bind fun a => ((s.supersOf p).find? fun x => s.inSuper x.2 a).map fun x => (x.1, x.2, (s.pageSpot a).2.2)

/-- A row is closed: full, or a stage waits for one of its pages. -/
def State.rowClosed (s : State) (p : Nat) (l : List Nat) : Bool :=
  match s.rowHome p l with
  | none => false
  | some (_, x, r) =>
    decide (l.length ≥ (s.rowPages x r).length) || s.cmds.any fun c => c.part == p && c.phase == .run .program &&
      c.done.any fun g => l.contains (s.mapNow g).ppa

/-! ## What waits (11 R351) -/

/-- Dies that one program of a stream's oldest row takes part on, its parity page's too. -/
def State.rowDies (s : State) (p st : Nat) : List Nat :=
  match s.rowHome p (s.firstRow (s.stream p st)) with
  | none => []
  | some (_, x, r) => dedupNat ((s.rowPages x r ++ s.rowParity x r).map (· / 2 ^ 24))

/-- Dies whose block a superblock's erase erases. -/
def State.eraseDies (s : State) (x : Super) : List Nat := x.dies.filter fun d => (s.die d).st == .good && !retired (s.die d) x.block

/-- The operation reads a unit. -/
def DieWork.isRead : DieWork → Bool
  | .read _ _ => true
  | _ => false

/-- The operation reads the unit at a LUA. -/
def DieWork.isReadOf (w : DieWork) (lua : Nat) : Bool :=
  match w with
  | .read l _ => l == lua
  | _ => false

/-- A unit that a command reads, as an operation on the die of its page; none when the NAND is not read, or the page is reconstructed from others (11 R374). -/
def State.readOp (s : State) (c : Cmd) (lua : Nat) : Option (Nat × DieOp) :=
  let m := s.entryFor c lua
  if m.kind == 1 && !bitOf m.zmask (lua % 4) && !s.dieLost (m.ppa / 2 ^ 24) && (tget s.fte.phys m.ppa).elim false (·.programmed) then
    some (m.ppa / 2 ^ 24, ⟨c.part, .read lua m.ppa⟩)
  else none

/-- The LUAs whose units a command waits for: its own read, the records of its walks' expansions in flight. -/
def State.luasOf (s : State) (c : Cmd) : List Nat :=
  (match c.phase with
    | .run (.flash lua) => [lua]
    | _ => []) ++
  ((s.walks.filter fun w => w.cmd == c.id).map fun w => match s.walkCtx w with
    | .ok (_, v, _) => (w.flying.filter fun id => (tget v.st.cache (idSlot id)).isNone && (tget c.got (flashKey (v.d.adj + idSlot id))).isNone).map fun id => v.d.adj + idSlot id
    | .error _ => []).flatten

/-- Reads that are asked for, by die. -/
def State.readsAsked (s : State) : List (Nat × DieOp) := (s.cmds.map fun c => (s.luasOf c).filterMap (s.readOp c)).flatten

/-- Programs that are asked for: of a row already under way, or of one that is closed; none starts in HOLD, and below URGENT percent those of stream 0 wait (11 R364, R368). -/
def State.programsAsked (s : State) : List (Nat × DieOp) :=
  (s.fte.streams.map fun e =>
    let p := e.1 / 4
    let st := e.1 % 4
    if !s.held && (e.2.programming || (s.rowClosed p (s.firstRow e.2) && !(st == 0 && s.urgent p && !s.gcStuck p))) then
      (s.rowDies p st).map fun d => (d, (⟨p, .program st⟩ : DieOp))
    else []).flatten

/-- Erases that are asked for; none starts in HOLD. -/
def State.erasesAsked (s : State) : List (Nat × DieOp) :=
  if s.held then []
  else (s.fte.supers.map fun e => if e.2.erasing then (s.eraseDies e.2).map fun d => (d, (⟨e.1 / 65536, .erase (e.1 % 65536)⟩ : DieOp)) else []).flatten

/-! ## Issue (11 R351, 01 R29, R30) -/

def State.dieRun (s : State) (d : Nat) : DieRun := tgetD s.fte.runs d { cur := none, paused := none, served := 0 }

def State.setRun (s : State) (d : Nat) (r : DieRun) : State :=
  { s with fte := { s.fte with runs := if r.cur.isNone && r.paused.isNone then tdel s.fte.runs d else tset s.fte.runs d r } }

/-- A page buffer of a channel is free: of its 16, each outstanding read holds one. -/
def State.pageBuffer (s : State) (ch : Nat) : Bool :=
  decide ((s.fte.runs.filter fun e => e.1 / 16 == ch && e.2.cur.elim false (·.work.isRead)).length < 16)

/-- The first program of a row is issued: no page joins the row from then on. -/
def State.startRow (s : State) (p st : Nat) : State :=
  let x := s.stream p st
  match s.rowHome p (s.firstRow x) with
  | none => s
  | some (i, b, r) => (s.setSuper p i (if b.nextRow == r then { b with nextRow := r + 1 } else b)).setStream p st { x with programming := true }

/-- A program or an erase is issued to a die. -/
def State.issue (s : State) (d : Nat) (o : DieOp) : State :=
  let s := s.setRun d { cur := some o, paused := none, served := 0 }
  match o.work with
  | .program st => if (s.stream o.part st).programming then s else s.startRow o.part st
  | _ => s

/-- One die: reads go before programs and programs before erases, one operation at a time; a read suspends a program or an erase, which goes on after up to four reads. Log entry 199, DESIGN CHOICE. -/
def State.pumpDie (asked : List (Nat × DieOp)) (s : State) (d : Nat) : State :=
  let r := s.dieRun d
  let mine := (asked.filter fun a => a.1 == d && r.cur != some a.2 && r.paused != some a.2).map (·.2)
  let read := if s.pageBuffer (d / 16) then mine.find? (·.work.isRead) else none
  match r.cur, read with
  | some o, some a =>
    if o.work.isRead || !(s.die d).suspend then s
    else (s.bump (pChan (d / 16) + 0x050) 1).setRun d { cur := some a, paused := some o, served := 1 }
  | some _, none => s
  | none, _ =>
    match (if r.paused.isSome && decide (r.served ≥ 4) then none else read), r.paused, mine.find? fun o => !o.work.isRead with
    | some a, p, _ => s.setRun d { cur := some a, paused := p, served := if p.isSome then r.served + 1 else 0 }
    | none, some o, _ => s.setRun d { cur := some o, paused := none, served := 0 }
    | none, none, some o => s.issue d o
    | none, none, none => s

/-- Every die takes what it may. -/
def State.pumpDies (s : State) : State :=
  let asked := s.readsAsked ++ s.programsAsked ++ s.erasesAsked
  (dedupNat (asked.map (·.1) ++ s.fte.runs.map (·.1))).foldl (State.pumpDie asked) s

/-- An operation is outstanding on each of its dies. -/
def State.allOut (s : State) (o : DieOp) (dies : List Nat) : Bool := !dies.isEmpty && dies.all fun d => (s.dieRun d).cur == some o

/-- Pages from which a unit is being read. -/
def State.readsOut (s : State) (p lua : Nat) : List Nat :=
  s.fte.runs.filterMap fun e => match e.2.cur with
    | some ⟨q, .read l a⟩ => if q == p && l == lua then some a else none
    | _ => none

/-- Outstanding operations end. -/
def State.endOps (s : State) (p : DieOp → Bool) : State :=
  s.fte.runs.foldl (fun s e => if e.2.cur.elim false p then s.setRun e.1 { e.2 with cur := none } else s) s

end Sys2Proof.Machine
end

