-- ==== Sys2Proof/Machine/Ckpt.lean ====
section
/-! DEFINITION. Checkpoint images, the commit log, CHECKPOINT and RESTORE (spec 13 R418, R421 to R427). -/

namespace Sys2Proof.Machine

/-! ## Fields and targets (13 R421, R425) -/

def Cmd.kTarget (c : Cmd) : Target := if bitOf (c.w 12) 0 then .region c.ctx else .shard (c.f 12 12 1)

def Target.number : Target → Nat
  | .shard n => n
  | .region c => c

def Target.ctxOf : Target → Nat
  | .region c => c
  | .shard _ => 0

def Target.kind : Target → Nat
  | .shard _ => 0
  | .region _ => 1

/-- A target as an operand names it: shard n, or 4,096 + context. -/
def Target.ofNum (n : Nat) : Target := if n < 4096 then .shard n else .region (n - 4096)

def State.area (s : State) (t : Target) : Option Area := s.cmp.areas.find? fun a => a.target == t
def State.setArea (s : State) (a : Area) : State :=
  { s with cmp := { s.cmp with areas := if s.cmp.areas.any fun x => x.target == a.target then s.cmp.areas.map fun x => if x.target == a.target then a else x
                                          else s.cmp.areas ++ [a] } }

/-- Units in use and free in an area's ring: two headers, the images, the log (13 R424). Log entry 109, DESIGN CHOICE. -/
def Area.used (a : Area) : Nat := 2 + sumList (a.images.map fun i => ceilDiv i.2.2.length 4096) + sumList (a.log.map fun l => ceilDiv l.2.length 4096)
def Area.free (a : Area) : Nat := a.units - a.used

/-! ## State words (record kind 5; the layout is the model's, log entry 53, DESIGN CHOICE) -/

/-- Words of a table of numbers, of a list. -/
def numWords (l : List Nat) : List Nat := l.length :: l
def tabWords (t : Tab Nat) : List Nat := t.length :: (t.map fun e => [e.1, e.2]).flatten
def calWords (t : Tab Cal) : List Nat := t.length :: (t.map fun e => e.1 :: e.2.length :: (e.2.map fun r => numWords (r.map (·.toNat))).flatten).flatten
def openWords (t : Tab (List (Nat × List F32))) : List Nat :=
  t.length :: (t.map fun e => e.1 :: e.2.length :: (e.2.map fun r => r.1 :: numWords (r.2.map (·.toNat))).flatten).flatten
def listWords (t : Tab (List Nat)) : List Nat := t.length :: (t.map fun e => e.1 :: numWords e.2).flatten

/-- Readers: a value and the words after it. -/
def getNums : List Nat → List Nat × List Nat
  | [] => ([], [])
  | n :: r => (r.take n, r.drop n)

def getMany {α : Type} (f : List Nat → α × List Nat) : Nat → List Nat → List α × List Nat
  | 0, l => ([], l)
  | n + 1, l => let a := f l; let b := getMany f n a.2; (a.1 :: b.1, b.2)

def getCount {α : Type} (f : List Nat → α × List Nat) (l : List Nat) : List α × List Nat :=
  match l with
  | [] => ([], [])
  | n :: r => getMany f (min n r.length) r

def getPair (l : List Nat) : (Nat × Nat) × List Nat := ((l.headD 0, (l.drop 1).headD 0), l.drop 2)
def getF (l : List Nat) : List F32 × List Nat := let x := getNums l; (x.1.map (BitVec.ofNat 32), x.2)
def getKeyed {α : Type} (f : List Nat → α × List Nat) (l : List Nat) : (Nat × α) × List Nat := let x := f (l.drop 1); ((l.headD 0, x.1), x.2)
def getTab (l : List Nat) : Tab Nat × List Nat := getCount getPair l
def getCal (l : List Nat) : Tab Cal × List Nat := getCount (getKeyed (getCount getF)) l
def getOpen (l : List Nat) : Tab (List (Nat × List F32)) × List Nat := getCount (getKeyed (getCount (getKeyed getF))) l
def getLists (l : List Nat) : Tab (List Nat) × List Nat := getCount (getKeyed getNums) l

def wordBytes (l : List Nat) : List Byte := (l.map (leBytes 8)).flatten
def bytesWords (b : List Byte) : List Nat := (List.range (b.length / 8)).map fun i => le64 b (8 * i)

/-! ## Records and images (13 R422) -/

/-- A record: kind, operands, data. -/
structure IRec where
  kind : Nat
  a : Nat
  b : Nat
  c : Nat
  n : Nat
  data : List Byte
deriving DecidableEq, Repr

def IRec.bytes (r : IRec) : List Byte :=
  let h := leBytes 1 r.kind ++ zeros 3 ++ leBytes 4 r.data.length ++ leBytes 4 r.a ++ leBytes 4 r.b ++ leBytes 4 r.c ++ leBytes 4 r.n ++ zeros 4
  padTo 64 (h ++ leBytes 4 (crc32c (h ++ r.data)) ++ r.data)

/-- An image read back. -/
structure Image where
  kind : Nat
  incr : Bool
  pages : Bool
  num : Nat
  edition : Nat
  base : Nat
  recs : List IRec
deriving DecidableEq, Repr

def Image.bytes (i : Image) : List Byte :=
  let h := leBytes 1 1 ++ leBytes 1 (i.kind + (if i.incr then 2 else 0) + if i.pages then 4 else 0) ++ leBytes 2 i.num ++ leBytes 8 i.edition ++
    leBytes 8 i.base ++ leBytes 4 i.recs.length
  h ++ leBytes 4 (crc32c h) ++ zeros 36 ++ (i.recs.map IRec.bytes).flatten

/-- Reads so many records; none when a CRC fails or the bytes end. -/
def readRecs : Nat → List Byte → Option (List IRec × List Byte)
  | 0, l => some ([], l)
  | n + 1, l =>
    let len := le32 l 4
    if l.length < 32 + len || le32 l 28 != crc32c (slice l 0 28 ++ slice l 32 len) then none
    else (readRecs n (l.drop (roundUp (32 + len) 64))).map fun x =>
      ({ kind := byteAt l 0, a := le32 l 8, b := le32 l 12, c := le32 l 16, n := le32 l 20, data := slice l 32 len } :: x.1, x.2)

def readImage (l : List Byte) : Option (Image × List Byte) :=
  if l.length < 64 || byteAt l 0 != 1 || le32 l 24 != crc32c (slice l 0 24) then none
  else (readRecs (le32 l 20) (l.drop 64)).map fun x =>
    let f := byteAt l 1
    ({ kind := f % 2, incr := bitOf f 1, pages := bitOf f 2, num := le16 l 2, edition := le64 l 4, base := le64 l 12, recs := x.1 }, x.2)

/-- A full image and incremental images behind it, each following the one before. -/
def readChain : Nat → Option Image → List Byte → Option (List Image)
  | 0, _, _ => none
  | f + 1, prev, l =>
    if l.isEmpty then (if prev.isNone then none else some [])
    else match readImage l with
      | none => none
      | some (i, rest) =>
        let ok := match prev with
          | none => !i.incr && i.base == 0
          | some p => i.incr && i.base == p.edition && i.kind == p.kind && i.num == p.num
        if !ok then none else (readChain f (some i) rest).map fun r => i :: r

/-- A row lies in a block last written after `base` and not after `ed` (13 R423). -/
def inBlocks (blocks : Tab Nat) (base ed : Nat) (u : Upd) : Bool := u.blocks.any fun k => let e := tgetD blocks k 0; decide (base < e) && decide (e ≤ ed)

def State.rowsOf (s : State) (v : SView) (i : Nat) : Except Halt (List Byte) := do
  let w ← s.shRow v (v.fretOf i) 3 (v.slotRow i) 8
  let b ← s.shRow v (v.fretOf i) 0 (v.slotRow i) v.d.code.rowLen
  let x ← s.shRow v (v.fretOf i) 1 (v.slotRow i) v.d.code.entryBytes
  let y ← s.shRow v (v.fretOf i) 2 (v.slotRow i) v.d.code.entryBytes
  return w ++ b ++ x ++ y

def State.sideOf (s : State) (v : SView) (n : Nat) : Except Halt (List Byte) := do
  let id ← s.shRow v (v.fretOf n) 6 (v.ringRow n) 8
  let b ← s.shRow v (v.fretOf n) 4 (v.ringRow n) v.d.code.rowLen
  let x ← s.shRow v (v.fretOf n) 5 (v.ringRow n) v.d.code.entryBytes
  return id ++ b ++ x

/-- Pages of a flash extent at an edition: in a full image those that hold something, in an incremental one those last written after `base` (13 R423). -/
def State.extentPages (s : State) (p : Nat) (l : List (Nat × Nat)) (blocks : Tab Nat) (incr : Bool) (base e : Nat) : List IRec :=
  (l.map fun x => (dedupNat ((List.range x.2).map fun i => (x.1 + i) / 4)).filterMap fun pg =>
    let g := s.gpage p (4 * pg)
    let m := s.mapAt g e
    let at' := tgetD blocks (2 ^ 50 + g) 0
    if (if incr then decide (at' ≤ base) || decide (e < at') else m.kind == 0) then none
    else some ({ kind := 6, a := pg, b := 0, c := 0, n := 1, data := ((List.range 4).map fun u => (s.unitOf m u).getD (zeros 4096)).flatten } : IRec)).flatten

def State.shardImage (s : State) (v : SView) (x : Shard) (base : Nat) (incr pages : Bool) : Except Halt Image := do
  let keep := fun (us : List Upd) => !incr || us.any (inBlocks x.blocks base v.ed)
  let blank := fun len => List.replicate len (0 : Byte)
  let slots := (List.range v.st.hwm).filter fun i => keep ((List.range 4).map fun p => v.upd (v.fretOf i) p (v.slotRow i) false (blank (v.d.piece v.f p).1))
  let ents := ((List.range (v.st.tail - v.st.head)).map fun i => v.st.head + i).filter fun n =>
    keep ((List.range 3).map fun p => v.upd (v.fretOf n) (4 + p) (v.ringRow n) false (blank (v.d.piece v.f (4 + p)).1))
  let rs ← slots.mapM fun i => (s.rowsOf v i).map fun b => ({ kind := 1, a := i, b := 0, c := 0, n := 1, data := b } : IRec)
  let ss ← ents.mapM fun n => (s.sideOf v n).map fun b => ({ kind := 2, a := n, b := 0, c := 0, n := 1, data := b } : IRec)
  let st := wordBytes ([v.st.hwm, v.st.head, v.st.tail] ++ numWords v.st.entries)
  return { kind := 0, incr := incr, pages := pages, num := v.num, edition := v.ed, base := if incr then base else 0,
           recs := [{ kind := 0, a := 0, b := 0, c := 0, n := 1, data := v.st.desc }] ++ rs ++ ss ++
             [{ kind := 5, a := 0, b := 0, c := 0, n := 1, data := st }] ++ (if pages then s.extentPages x.part v.d.extents x.blocks incr base v.ed else []) }

def State.regionImage (s : State) (v : RegView) (r : Region) (base : Nat) (incr pages : Bool) : Except Halt Image := do
  let sites := (((List.range v.d.segs.length).filter fun i => !v.pooled i).map fun seg => (List.range v.d.layers).map fun l =>
    (List.range v.d.heads).map fun h => (seg, l, h)).flatten.flatten
  let hit := fun (us : List Upd) => !incr || us.any (inBlocks r.blocks base v.ed)
  let blank := fun len => List.replicate len (0 : Byte)
  let keys ← (sites.map fun x => (List.range v.f).map fun j => (List.range 3).map fun t => (x, regSlot v.d.heads x.2.2 j, t)).flatten.flatten.mapM fun y => do
    let x := y.1
    let t := y.2.2
    let ms ← s.members v y.2.1 x.1 x.2.1 t
    let pick := ms.zipIdx.filter fun m => hit ([keyPiece t, mapPiece t].map fun p => v.upd y.2.1 x.1 x.2.1 p m.2 (m.2 + 1) (blank (v.d.piece v.f x.1 p).1))
    return pick.map fun m => ({ kind := 3, a := x.1, b := x.2.1, c := x.2.2 + 256 * t, n := 1,
                                data := leBytes 4 m.1.token ++ leBytes 1 m.1.cnt ++ m.1.key ++ m.1.entry ++ m.1.val } : IRec)
  let vals ← (sites.map fun x => (List.range (ceilDiv (v.endTok x.1 x.2.1) v.d.gV)).map fun g => (x, g)).flatten.mapM fun y => do
    let x := y.1
    let g := v.d.gV
    let p := v.valPlace x.2.2 (y.2 * g)
    if !hit [v.upd p.1 x.1 x.2.1 16 p.2 (p.2 + 1) (blank ((v.d.piece v.f x.1 16).1 * g)), v.upd p.1 x.1 x.2.1 17 (p.2 / g) (p.2 / g + 1) (blank (scaleRow (v.d.valRec 0)))] then
      return none
    let rows ← (List.range g).mapM fun i => s.regRow v p.1 x.1 x.2.1 16 (p.2 + i) (v.d.valRec 0).rowLen
    let sc ← s.regRow v p.1 x.1 x.2.1 17 (p.2 / g) (scaleRow (v.d.valRec 0))
    return some ({ kind := 4, a := x.1, b := x.2.1, c := x.2.2, n := y.2, data := rows.flatten ++ sc } : IRec)
  let carry ← if v.d.carry == 0 then pure [] else ((List.range (v.d.layers * v.d.heads)).mapM fun i => s.readDev (v.d.carry + i * 32768) 32768)
  let st := wordBytes (tabWords v.st.ends ++ [v.st.pool] ++ calWords v.st.cal ++ openWords v.st.opened ++ listWords v.st.fixed ++ listWords v.st.priv ++ listWords v.st.holes)
  return { kind := 1, incr := incr, pages := pages, num := v.ctx, edition := v.ed, base := if incr then base else 0,
           recs := [{ kind := 0, a := 0, b := 0, c := 0, n := 1, data := v.st.desc }] ++ keys.flatten ++ vals.filterMap id ++
             [{ kind := 5, a := 0, b := 0, c := 0, n := 1, data := st }, { kind := 5, a := 1, b := 0, c := 0, n := 1, data := carry.flatten }] ++
             (if pages then s.extentPages r.part (r.images.map fun i => (i.2, ceilDiv (v.d.imgBytes i.1) 4096)) r.blocks incr base v.ed else []) }

/-- The image of a target at an edition (13 R422, R423); `want` asks for an incremental one. -/
def State.imageOf (s : State) (t : Target) (e : Nat) (want pages : Bool) : Except Halt Image :=
  match t with
  | .shard n => match s.shard n, s.shView n e with
    | some x, some v => s.shardImage v x x.lastCkpt (want && x.lastCkpt != 0) pages
    | _, _ => .error (.refuse stField 0x0701 0)
  | .region c => match s.region c, s.regView c e with
    | some r, some v => s.regionImage v r r.lastCkpt (want && r.lastCkpt != 0) pages
    | _, _ => .error (.refuse stField 0x0601 0)

/-! ## CHECKPOINT (13 R421) -/

def Cmd.toFlash (c : Cmd) : Bool := bitOf (c.w 12) 14
def Cmd.toHost (c : Cmd) : Bool := bitOf (c.w 12) 15
def Cmd.barrier (c : Cmd) : Bool := bitOf (c.w 12) 17

/-- The image a checkpoint makes: on flash it holds no pages, since the extents stay in place (13 R422). -/
def State.ckptImage (s : State) (c : Cmd) (flash : Bool) : Except Halt Image :=
  s.imageOf c.kTarget (s.edOf c c.kTarget) (bitOf (c.w 12) 13) (bitOf (c.w 12) 16 && !flash)

/-- Log entry 85, DESIGN CHOICE. -/
def State.checkpointCheck (s : State) (c : Cmd) (dyn : Bool) : Except Halt Unit := do
  let t := c.kTarget
  let host := c.toHost
  let flash := c.toFlash
  let img := fun (incr pages : Bool) => (s.imageOf t (if c.edReq == 0 then s.latest t else c.edReq) incr pages).map Image.bytes
  refuseIf [(c.count == 0, okNow),
    (c.count != 1 || c.f 12 31 18 != 0 || (bitOf (c.w 12) 0 && c.f 12 12 1 != 0) || (!flash && (!c.zero 13 15)) || c.f 16 31 16 != 0 ||
      (!c.barrier && !c.zero 17 18) || c.f 18 31 22 != 0 || !c.zero 19 31, bf 0x0D01),
    (match t with
      | .region _ => s.latest t == 0
      | .shard _ => false, bf 0x0601),
    (match t with
      | .shard n => s.place c n != .here
      | .region _ => false, bf 0x0701),
    ((!flash && !host) || (c.f 16 15 0 != 0 && !flash) || (bitOf (c.w 12) 16 && !host), bf 0x0D02)]
  let mine := s.area t
  let other := s.fte.extents.filter fun x => x.part == c.part && x.use != .area t
  refuseIf [(flash && (decide (c.q 13 + c.w 15 > s.windowUnits c.part) || (other.any fun x => rangesMeet (c.q 13) (c.w 15) x.lua x.units) ||
      (mine.isNone && decide ((s.fte.extents.filter fun x => x.part == c.part).length ≥ 256))), bf 0x0B06)]
  if flash && dyn then
    let full ← img false false
    refuseIf [(decide (c.w 15 < ceilDiv full.length 4096 + 1024), bf 0x0D03)]
  refuseIf [(c.barrier && (c.w 17 == 0 || c.f 18 20 12 == 0 || decide (c.f 18 20 12 > 256)), bf 0x0D04), (c.kReq != 0, bf 0x0904)]
  if dyn then
    match s.edBad t c.edReq with
    | some sub => throw (.refuse stField sub 0)
    | none => pure ()
  refuseIf [(c.inLen != 0, bf 0x0D05), (host && s.confidential c.part, (stDenied, 0x0932, 0))]
  if host && dyn then
    let l ← img (bitOf (c.w 12) 13) (bitOf (c.w 12) 16)
    refuseIf (sizeChecks c l.length)
  refuseOpt (s.ranges c [])

def barKey : Nat := 2 ^ 71

/-- The read edition is fixed when the barrier is released (13 R421). -/
def State.checkpointWork (s : State) (c : Cmd) : Except Halt Done := do
  if c.barrier then
    match tget c.got barKey with
    | none => throw (.wait .peers)
    | some b =>
      match byteAt b 0 with
      | 0 => pure ()
      | 1 => throw (.fail stCancelled 0x0101 0 [] [])
      | 2 => throw (.fail stField 0x0103 0 [] [])
      | 4 => throw (.fail stStale 0 0 [] [])
      | _ => throw (.fail stCancelled 0x0102 0 [] [])
  let i ← s.ckptImage c !c.toHost
  let b := i.bytes
  let stored ← s.ckptImage c true
  let room := match s.area c.kTarget with
    | some a => a.lua != c.q 13 || a.units != c.w 15 || decide (ceilDiv stored.bytes.length 4096 ≤ a.free)
    | none => true
  if c.toFlash && !room then throw (.fail stMedia 0x0D10 0 [(pCmp, 6)] [])
  return Done.of { Finish.ok with edition := i.edition, counter := ceilDiv b.length 4096, out := if c.toHost then b else [] }

/-- The images from the newest full one on. -/
def fromFull : List (Nat × Nat × List Byte) → List (Nat × Nat × List Byte)
  | [] => []
  | i :: r => if r.any fun x => x.2.1 == 0 then fromFull r else if i.2.1 == 0 then i :: r else fromFull r

/-- Drops the images, and the log records of its edition or before, that a full image takes the place of (13 R424). -/
def Area.release (a : Area) : Area :=
  match fromFull a.images with
  | [] => a
  | f :: r => { a with images := f :: r, log := a.log.filter fun l => decide (f.1 < l.1) }

/-- An image enters its area; the target's previous checkpoint moves on. -/
def State.ckptDone (s : State) (c : Cmd) : State :=
  let t := c.kTarget
  match s.ckptImage c true with
  | .error _ => s
  | .ok i =>
    let s := if !c.toFlash then s
      else
        let old := s.area t
        let a : Area := match old with
          | some a => if a.lua == c.q 13 && a.units == c.w 15 then a else { a with lua := c.q 13, units := c.w 15, images := [], log := [] }
          | none => { target := t, part := c.part, lua := c.q 13, units := c.w 15, period := 0, dueAt := 0, images := [], log := [] }
        let per := c.f 16 15 0
        let a := if c.origin == .internal then a else { a with period := per, dueAt := if per == 0 then 0 else s.time.lctr + per * 2 ^ 30 }
        let a := { a with images := a.images ++ [(i.edition, i.base, i.bytes)] }
        let a := if i.incr then a else a.release
        let s := s.setArea a
        { s with fte := { s.fte with extents := (s.fte.extents.filter fun x => x.use != .area t) ++ [⟨c.part, a.lua, a.units, .area t⟩] } }
    let s := match t with
      | .shard n => { s with shards := s.shards.map fun x : Shard => if x.num == n then { x with lastCkpt := i.edition, forcing := false } else x }
      | .region c => { s with regions := s.regions.map fun r : Region => if r.ctx == c then { r with lastCkpt := i.edition } else r }
    s.bump (pCmp + 0x068) 1

/-! ## The commit log (13 R424) -/

/-- Words of a descriptor that hold addresses, zeroed in the log (log entry 54, DEDUCED). -/
def addrWords (op : Nat) : List Nat :=
  [2, 3, 6, 7] ++ (if op == 0x21 then [14, 15] else if op == 0x36 || op == 0x41 then [13, 14] else if op == 0x61 then [16, 17] else [])

/-- The structure an address of a descriptor names, which a replay needs: its key and its bytes (log entry 54, DEDUCED). -/
def State.sideRead (s : State) (c : Cmd) : Nat × List Byte :=
  let get := fun key a n => match s.fetch c key a n with
    | .ok b => (key, b)
    | .error _ => (key, [])
  if c.opcode == 0x21 && bitOf (c.w 12) 24 then get 6 (c.q 14) 960
  else if c.opcode == 0x36 && bitOf (c.w 12) 16 then get 6 (c.q 13) 320
  else if c.opcode == 0x41 then get 1 (c.q 13) 64
  else (0, [])

/-- A log record: assigned IDs, descriptor, what an address named, input. -/
def logBytes (c : Cmd) (side : Nat × List Byte) (ids : List Nat) (inp : List Byte) : List Byte :=
  leBytes 4 ids.length ++ (ids.map (leBytes 8)).flatten ++ ((List.range 32).map fun i => leBytes 4 (if (addrWords c.opcode).contains i then 0 else c.w i)).flatten ++
    leBytes 4 side.1 ++ leBytes 4 side.2.length ++ side.2 ++ inp

structure LogRec where
  ids : List Nat
  dw : List Nat
  key : Nat
  side : List Byte
  input : List Byte
deriving DecidableEq, Repr

def LogRec.parse (b : List Byte) : LogRec :=
  let n := le32 b 0
  let o := 4 + 8 * n + 128
  let k := le32 b (o + 4)
  { ids := (List.range n).map fun i => le64 b (4 + 8 * i), dw := words32 32 (b.drop (4 + 8 * n)), key := le32 b o, side := slice b (o + 8) k,
    input := b.drop (o + 8 + k) }

/-- Bytes of the record that starts a list, once enough of it is there to tell. -/
def LogRec.size (b : List Byte) : Option Nat :=
  let o := 4 + 8 * le32 b 0 + 128
  if b.length < 4 || b.length < o + 8 then none
  else some (o + 8 + le32 b (o + 4) + le32 b (4 + 8 * le32 b 0 + 16))

/-- The IDs a command assigned, as its output gives them. -/
def Cmd.assigned (c : Cmd) (out : List Byte) : List Nat :=
  if c.opcode == 0x32 || c.opcode == 0x36 then (List.range (out.length / 8)).map fun i => le64 out (8 * i) else []

/-- A software-issued mutating command writes a log record on a target with an area. -/
def Cmd.logs (c : Cmd) : Bool := isMutating c.opcode && (match c.origin with
  | .window | .forwarded _ _ _ => true
  | _ => false)

/-- A stage finds no room for its log record. -/
def State.logFull (s : State) (c : Cmd) (d : Done) : Bool :=
  c.logs && d.stages.any fun g => (g.changed || g.bind) && match s.area g.target with
    | some a => decide (a.free < ceilDiv (logBytes c (s.sideRead c) (c.assigned d.fin.out) (match s.inputOf c with
        | .ok l => l
        | .error _ => [])).length 4096)
    | none => false

/-- The record is published with the commit. -/
def State.logCommit (s : State) (c : Cmd) (t : Target) (e : Nat) (out : List Byte) : State :=
  if !c.logs || e == 0 then s
  else match s.area t with
    | none => s
    | some a =>
      let inp := match s.inputOf c with
        | .ok l => l
        | .error _ => []
      (s.setArea { a with log := a.log ++ [(e, logBytes c (s.sideRead c) (c.assigned out) inp)] }).bump (pCmp + 0x070) 1

/-! ## RESTORE (13 R425) -/

def State.restoreArea (s : State) (c : Cmd) : Option Area := s.cmp.areas.find? fun a => a.part == c.part && a.target == c.kTarget && a.lua == c.q 13 && a.units == c.w 15

/-- Log entry 111, DEDUCED. -/
def State.restoreCheck (s : State) (c : Cmd) (_dyn : Bool) : Except Halt Unit := do
  let host := bitOf (c.w 12) 13
  let sh := !bitOf (c.w 12) 0
  refuseIf [(c.count == 0, okNow),
    (decide (c.count > 1) || c.f 12 31 16 != 0 || (!sh && (c.f 12 12 1 != 0 || bitOf (c.w 12) 15)) || (host && !c.zero 13 15) || !c.zero 18 31, bf 0x0902),
    (c.kReq != 0, bf 0x0904), (c.edReq != 0, bf 0x0803), (if host then c.inLen == 0 else c.inLen != 0, bf 0x0908)]
  let w := le64 s.cmp.cur (17472 + 8 * c.f 12 12 1)
  let owner := bitOf w 16 && fld w 11 0 == s.node && fld w 15 12 == c.part
  let shadow := bitOf w 48 && fld w 43 32 == s.node && fld w 47 44 == c.part
  refuseIf [(sh && (if bitOf (c.w 12) 15 then !shadow else !owner), bf 0x0701), (!host && (s.restoreArea c).isNone, bf 0x0B06)]
  refuseOpt (s.ranges c (if c.q 16 == 0 then [] else [(c.q 16, if sh then 320 else 960)]))

/-- Source images of a restore, oldest first. -/
def State.restoreImages (s : State) (c : Cmd) : Except Halt (List Image) := do
  let l ← if bitOf (c.w 12) 13 then s.inputOf c
    else pure ((s.restoreArea c).elim [] fun a => (a.images.map fun i => i.2.2).flatten)
  match readChain (l.length / 64 + 2) none l with
  | none => throw (badData 0x0951)
  | some is =>
    if is.any fun i => i.kind != c.kTarget.kind || i.num != c.kTarget.number then throw (badData 0x0951)
    return is

/-- The newest record of a key over the images. -/
def newest (is : List Image) (key : IRec → Nat) (kind : Nat) : Tab IRec :=
  (is.map fun i => i.recs.filter fun r => r.kind == kind).flatten.foldl (fun t r => tset t (key r) r) []

def lastRec (is : List Image) (kind a : Nat) : List Byte := ((((is.map (·.recs)).flatten.filter fun r => r.kind == kind && r.a == a).getLast?).map (·.data)).getD []

/-- Pages of images put back (record kind 6). -/
def imagePages (is : List Image) : List FlashPut :=
  ((newest is (·.a) 6).map fun r => (List.range 4).map fun u => ({ lua := 4 * r.2.a + u, off := 0, data := slice r.2.data (4096 * u) 4096 } : FlashPut)).flatten

/-- Pages of extents that a new descriptor places elsewhere. -/
def movePages (old new : List (Nat × Nat)) (l : List FlashPut) : List FlashPut :=
  l.map fun p => match (old.zip new).find? fun x => decide (x.1.1 ≤ p.lua) && decide (p.lua < x.1.1 + x.1.2) with
    | some x => { p with lua := x.2.1 + (p.lua - x.1.1) }
    | none => p

def State.restoreDone (c : Cmd) (t : Target) (bound : Bool) (dies : List Nat) (puts : List HbmPut) (d : Delta) (pages : List FlashPut) (n : Nat) : Done :=
  { fin := { Finish.ok with counter := n }, stages := [{ Stage.empty t with bind := true, keep := bound, changed := true, dies := dies, delta := d }],
    puts := puts, pages := if bitOf (c.w 12) 13 then pages else [], stats := [] }

def Upd.put (u : Upd) : HbmPut := { fret := u.fret, off := u.off, tag := 0, data := u.data }

def State.restoreShard (s : State) (c : Cmd) (num : Nat) (is : List Image) : Except Halt Done := do
  let old := lastRec is 0 0
  let b ← if c.q 16 == 0 then pure old else s.fetch c 6 (c.q 16) 320
  let d := SDesc.parse b
  let o := SDesc.parse old
  let dies := s.liveDies c.part
  let ws := bytesWords (lastRec is 5 0)
  let hwm := ws.getD 0 0
  let head := ws.getD 1 0
  let tail := ws.getD 2 0
  let es := (getNums (ws.drop 3)).1
  let v : SView := { num := num, dies := dies, d := d, st := { ShardRec.start with desc := b, hwm := hwm, head := head, tail := tail, entries := es }, ed := 0, past := [] }
  refuseIf [(slice b 128 192 != slice old 128 192 || decide (d.slotCap < hwm) || decide (d.sideCap < tail - head) || d.num != num ||
      d.bad b dies.length (s.topCol dies) || (s.otherBounds 4096 num).any (d.bound dies).meets, bf 0x0D06),
    ((s.shard num).isNone && s.extentsBad c.part d.extents, bf 0x0B06)]
  let cl := o.code.rowLen
  let el := o.code.entryBytes
  let rows := newest is (·.a) 1
  let sides := (newest is (·.a) 2).filter fun r => decide (head ≤ r.1) && decide (r.1 < tail)
  let ups := (rows.map fun r =>
      let x := r.2.data
      [v.upd (v.fretOf r.1) 3 (v.slotRow r.1) true (slice x 0 8), v.upd (v.fretOf r.1) 0 (v.slotRow r.1) true (slice x 8 cl),
       v.upd (v.fretOf r.1) 1 (v.slotRow r.1) true (slice x (8 + cl) el), v.upd (v.fretOf r.1) 2 (v.slotRow r.1) true (slice x (8 + cl + el) el)]).flatten ++
    (sides.map fun r =>
      let x := r.2.data
      [v.upd (v.fretOf r.1) 6 (v.ringRow r.1) true (slice x 0 8), v.upd (v.fretOf r.1) 4 (v.ringRow r.1) true (slice x 8 cl),
       v.upd (v.fretOf r.1) 5 (v.ringRow r.1) true (slice x (8 + cl) el)]).flatten
  return State.restoreDone c (.shard num) (s.shard num).isSome dies (v.init ++ ups.map Upd.put)
    { Delta.none' with desc := some b, hwm := some hwm, head := some head, tail := some tail, entries := some es, late := v.entryTable es }
    (movePages o.extents d.extents (imagePages is)) (sumList (is.map fun i => i.recs.length))

def State.restoreRegion (s : State) (c : Cmd) (is : List Image) : Except Halt Done := do
  let old := lastRec is 0 0
  let b ← if c.q 16 == 0 then pure old else s.fetch c 6 (c.q 16) 960
  let d := RDesc.parse b
  let dies := regionDies d.heads (s.liveDies c.part)
  let w := bytesWords (lastRec is 5 0)
  let (ends, w) := getTab w
  let pool := w.headD 0
  let (cal, w) := getCal (w.drop 1)
  let (opened, w) := getOpen w
  let (fixed, w) := getLists w
  let (priv, w) := getLists w
  let (holes, _) := getLists w
  let v : RegView := { ctx := c.ctx, dies := dies, d := d, st := { RegRec.start with desc := b, ends := ends, pool := pool }, ed := 0, past := [] }
  let o := RDesc.parse old
  refuseIf [(slice b 64 384 != slice old 64 384 || d.layers != o.layers || d.heads != o.heads || d.segs.length != o.segs.length ||
      (ends.any fun e => decide (e.2 > (d.seg (e.1 / 256)).cap)) || ((List.range d.segs.length).any fun i => (d.seg i).start != (o.seg i).start) ||
      d.bad b (s.liveDies c.part).length (s.topCol dies) || (s.otherBounds c.ctx 4096).any (d.bound dies).meets, bf 0x0D06)]
  -- base values first, then keys by token, each tier refilled in token order (log entry 55, DEDUCED)
  let vr := d.valRec 0
  let vals := newest is (fun r => ((r.a * 256 + r.b) * 64 + r.c) * 2 ^ 25 + r.n) 4
  let vups := (vals.map fun r =>
    let p := v.valPlace r.2.c (r.2.n * d.gV)
    v.upd p.1 r.2.a r.2.b 17 (p.2 / d.gV) 0 (slice r.2.data (d.gV * vr.rowLen) (scaleRow vr)) ::
      (List.range d.gV).map fun i => v.upd p.1 r.2.a r.2.b 16 (p.2 + i) 0 (slice r.2.data (i * vr.rowLen) vr.rowLen)).flatten
  let ents := (is.map fun i => i.recs.filter fun r => r.kind == 3).flatten.foldl
    (fun (t : Tab IRec) r => tset t (((r.a * 256 + r.b) * 64 + r.c % 256) * 2 ^ 25 + le32 r.data 0 % 2 ^ 24) r) []
  let alive := ents.filter fun r => decide (le32 r.2.data 0 % 2 ^ 24 < (d.seg r.2.a).start + tgetD ends (r.2.a * 256 + r.2.b) 0)
  let placed := alive.foldl (fun (acc : List (List Upd × Nat × Nat × Nat) × Tab Nat) r =>
    let x := r.2
    let h := x.c % 256
    let tok := le32 x.data 0 % 2 ^ 24
    let u := tok - (d.seg x.a).start
    let slot := regSlot d.heads h (u % max 1 v.f)
    let t0 := x.c / 256
    let len := fun t => tgetD acc.2 (lenKey x.a x.b t slot) 0
    let t := if t0 != 0 && (!d.tierOn t0 || decide (len t0 ≥ d.tierCap t0)) then 0 else t0
    let n := len t
    let kr := d.keyRec t0
    let k := slice x.data 5 kr.rowLen
    let e := if kr.perRow then slice x.data (5 + kr.rowLen) kr.entryBytes else []
    let (k, e) := if t == t0 then (k, e) else
      let y := d.keyRec t |>.encodeRow (kr.values k e)
      (y.bytes, y.entry)
    let us := [v.upd slot x.a x.b (keyPiece t) n 0 k, v.upd slot x.a x.b (mapPiece t) n 0 (leBytes 4 tok), v.upd slot x.a x.b (cntPiece t) n 0 (slice x.data 4 1)] ++
      (if (d.keyRec t).perRow then [v.upd slot x.a x.b (keyPiece t + 1) n 0 e] else [])
    (acc.1 ++ [(us, if t == 0 then 0 else 1, ((x.a * 256 + x.b) * 64 + h) * 2 ^ 25 + u, lenKey x.a x.b t slot * 2 ^ 24 + n)], tset acc.2 (lenKey x.a x.b t slot) (n + 1))) ([], [])
  -- value copies of promoted rows are formed anew from the base values
  let baseOf := fun (key : Nat) =>
    let u := key % 2 ^ 25
    match tget vals (key / 2 ^ 25 * 2 ^ 25 + u / d.gV) with
    | some r => (vr.decodeToken (tokenScales vr (slice r.data (d.gV * vr.rowLen) (scaleRow vr))) (slice r.data (u % d.gV * vr.rowLen) vr.rowLen)).getD (List.replicate d.dh 0)
    | none => []
  let copies := placed.1.filter fun p => p.2.1 == 1
  let cups := (copies.map fun p =>
    let lk := p.2.2.2 / 2 ^ 24
    let n := p.2.2.2 % 2 ^ 24
    let slot := lk % 65536
    let tier := lk / 65536 % 3
    let sl := lk / 65536 / 3
    let r := d.valRec tier
    let g := max 1 r.group
    let mates := copies.filter fun q => q.2.2.2 / 2 ^ 24 == lk && q.2.2.2 % 2 ^ 24 / g == n / g
    let sc := (List.range d.dh).map fun ch => (groupScale r.elem r.fp16 (mates.map fun q => (baseOf q.2.2.1).getD ch 0)).1
    [v.upd slot (sl / 256) (sl % 256) (keyPiece tier + 2) n 0 (r.encodeToken sc (baseOf p.2.2.1)).bytes,
     v.upd slot (sl / 256) (sl % 256) (keyPiece tier + 3) (n / g) 0 (scaleCodes r sc)]).flatten
  let carry := lastRec is 5 1
  return State.restoreDone c (.region c.ctx) (s.region c.ctx).isSome dies ((vups ++ (placed.1.map (·.1)).flatten ++ cups).map Upd.put)
    { Delta.none' with desc := some b, ends := ends, lens := placed.2, pool := (List.range 16).map (fun i => (i, b2n (bitOf pool i))), cal := cal,
                       opened := opened, fixed := fixed, priv := priv, holes := holes,
                       late := d.calPuts cal ++ d.countPuts priv ++ d.listPuts priv ++ if d.carry == 0 then [] else (List.range (d.layers * d.heads)).map fun i => (d.carry + i * 32768, slice carry (i * 32768) 32768) }
    (imagePages is) (sumList (is.map fun i => i.recs.length))

def State.restoreWork (s : State) (c : Cmd) : Except Halt Done := do
  let is ← s.restoreImages c
  match c.kTarget with
  | .shard n => s.restoreShard c n is
  | .region _ => s.restoreRegion c is

end Sys2Proof.Machine
end

