-- ==== Sys2Proof/Machine/Send.lean ====
section
/-! DEFINITION. Requests of this node's commands to others: pool, owners, collectives, barriers (spec 12 R397 to R404, 08 R278, 07 R250, 05 R162 to R166, 13 R418). -/

namespace Sys2Proof.Machine

/-- A transaction number never used before (12 R396). -/
def State.newTxn (s : State) : Nat × State := (s.nextTxn % 2 ^ 32, { s with nextTxn := s.nextTxn + 1 })

def poolTypes (m : Msg) : Bool := m.ty == 0x01 || m.ty == 0x03

/-- Log entry 146, DESIGN CHOICE. -/
def State.poolOut (s : State) : Nat := (s.fab.reqs.filter fun r => poolTypes r.msg).length

/-- Keeps a request until it is answered; pool requests have a peak (12 FAB_POOL_STS). -/
def State.track (s : State) (c : Cmd) (key len : Nat) (m : Msg) (low : Bool) : State :=
  let r : Req := { txn := m.txn, cmd := c.id, key := key, msg := m, len := len, at' := s.time.lctr, refusals := 0, resent := false, waitTo := none,
                   accepted := false, part := c.part, low := low }
  let s := { s with fab := { s.fab with reqs := s.fab.reqs ++ [r] } }
  if s.fab.peak < s.poolOut then { s with fab := { s.fab with peak := s.poolOut } } else s

/-- A request that gets no response, where the injection of FAB_ERR_INJ is armed: it leaves by its first hop and reaches nothing (16 R484). -/
def State.sendVoid (s : State) (m : Msg) (low : Bool) : State × Bool :=
  match s.firstHop m low false 31 with
  | none => (s, false)
  | some l => (State.bump { s with fab := { s.fab with sent := s.fab.sent ++ [{ m with link := l, ver := (s.link l).ver }] } } (pFab + 0x040) 1, true)

/-- What became of a request. -/
inductive Sent where
  | sent (s : State)
  | unreachable (s : State)
  | full
  | capo (r n : Nat)

/-- A pool request (12 R403, R404). -/
def State.poolGo (s : State) (c : Cmd) (key node off len : Nat) (wr : Option (List Byte)) : Sent :=
  let low := wr.isNone && (c.opcode == 0x35 || decide (key ≥ softKey * 2 ^ 24 && c.opcode == 0x20))
  -- 12 R404: requests in flight, those of the partition, and the receive buffer of 16 MiB
  if s.poolOut ≥ 8192 || (wr.isNone && decide (sumList ((s.fab.reqs.filter fun r => r.msg.ty == 0x01).map (·.len)) + len > 2 ^ 24)) || decide ((s.fab.reqs.filter fun r => poolTypes r.msg && r.part == c.part).length ≥ fld (s.reg32 (pFab + 0x118)) 13 0) then .full
  else
    let units := match wr with
      | some d => ceilDiv d.length 64
      | none => 0
    match s.charge c.part 9 units with
    | none => .capo 9 units
    | some s =>
      let (x, s) := s.newTxn
      let m := { s.mkMsg (if wr.isSome then 0x03 else 0x01) node c.part c.part x (match wr with
          | some d => .bytes d
          | none => .empty) with epoch := 0, addr := node * 2 ^ 52 + off, arg := if wr.isSome then 0 else len }
      let r := if s.armed pFab 3 then (s.disarm pFab 3).sendVoid m low else s.trySend m low
      if r.2 then .sent (r.1.track c key len m low) else .unreachable s.noRoute

/-- Open collectives and barriers (05 R165, 13 R418). -/
def State.collOpenCount (s : State) : Nat := s.col.open'.length + s.col.bars.length

def State.addColl (s : State) (k : Coll) : State :=
  let s := { s with col := { s.col with open' := s.col.open' ++ [k] } }
  if s.col.peak < s.collOpenCount then { s with col := { s.col with peak := s.collOpenCount } } else s

/-- The fan-out collective of a search request (07 R250), open from the request on; its identifier is the request's TXN. -/
def State.openFan (s : State) (c : Cmd) (id : Nat) : State :=
  s.addColl { id := id, part := c.part, fanout := true, root := true, rootNode := s.node, cmd := some c.id, count := c.count, k := c.kReq, ties := c.ties, parts := 1,
              epoch := c.epoch, own := [], joins := false, joiners := [], unsent := [], credit := 0, granted := true, since := c.admitAt, vals := [] }

/-- The request that carries a command or a part of it to an owner (08 R278, 07 R250). -/
def State.fwdGo (s : State) (c : Cmd) (key node part : Nat) (search : Bool) (body : Body) : Sent :=
  let units := ceilDiv (bodySize body) 64
  match s.charge c.part 9 units with
  | none => .capo 9 units
  | some s =>
    let (x, s) := s.newTxn
    let m := { s.mkMsg (if search then 0x20 else 0x21) node part c.part x body with epoch := c.epoch, ni := true, fanout := search }
    let r := s.trySend m false
    if r.2 then .sent (let s := r.1.track c key 0 m false
                       if search then s.openFan c x else s.bump (pUpd + 0x058) 1)
    else .unreachable s.noRoute

/-- A descriptor with some words replaced. -/
def Cmd.withWords (c : Cmd) (l : List (Nat × Nat)) : List Nat := l.foldl (fun d x => d.set x.1 x.2) ((List.range 32).map c.w)

/-- The distance descriptor of a search travels behind its queries (log entry 71, DEDUCED). -/
def State.searchDesc (s : State) (c : Cmd) : List Byte :=
  if c.q 19 == 0 then [] else match s.fetch c 12 (c.q 19) 32 with
    | .ok d => d
    | .error _ => []

/-- A search's words for one owner: its shard alone, which it reads at its latest edition (07 R250). -/
def searchWords (c : Cmd) (num : Nat) : List (Nat × Nat) := [(12, setFld (setFld (c.w 12) 24 12 1) 11 0 num), (10, 0), (11, 0)]

/-- What a forward key asks for: the owner and the message; none where no owner is known. -/
def State.fwdBody (s : State) (c : Cmd) (inp : List Byte) (key : Nat) : Option (Nat × Nat × Bool × Body) :=
  if key ≥ wholeKey then
    let num := c.f 12 11 0
    match s.place c num with
    | .there n p => some (n, p, false, .update num (c.withWords []) inp)
    | _ => none
  else if key ≥ batchKey 0 then
    ((s.batchesOf c (c.positions inp)).find? fun b => b.key == key).map fun b =>
      let l := b.positions (c.positions inp)
      let d := (l.map fun x => leBytes 8 x.id ++ slice x.data 0 (c.spos - 8)).flatten
      (b.node, b.part, false, .update 0 (c.withWords [(4, d.length), (5, l.length)]) d)
  else
    let num := key - fwdKey 0
    match s.place c num with
    | .there n p => some (n, p, true, .search num (c.withWords (searchWords c num)) (inp ++ s.searchDesc c))
    | _ => none

/-! ## Collectives (05 R162 to R166) -/

/-- The parameters of a software collective. -/
structure CollPar where
  id : Nat
  rootNode : Nat
  rootPart : Nat
  parts : Nat
  root : Bool
  joins : Bool
deriving DecidableEq, Repr

/-- Log entry 144, DEDUCED. -/
def Cmd.collPar (c : Cmd) : CollPar :=
  if c.opcode == 0x50 then
    { id := c.w 13, rootNode := c.f 14 11 0, rootPart := c.f 14 31 28, parts := c.f 14 24 16, root := c.isRoot, joins := !c.isRoot || c.lists != 0 }
  else { id := c.collId, rootNode := c.f 16 11 0, rootPart := c.part, parts := c.f 16 20 12, root := bitOf (c.w 16) 21, joins := true }

/-- Messages of one query's block: the summary with up to 13 entries, then 15 at a time (05 R163). -/
def blockMsgs (coll query seq : Nat) (b : SelBlock) : List Body :=
  let rest := chunks 15 (b.entries.length / 15 + 1) (b.entries.drop 13)
  .collData coll query seq (some (b.entries.length, { b with entries := [] })) (b.entries.take 13) ::
    rest.zipIdx.map fun r => .collData coll query (seq + 1 + r.2) none r.1

/-- The stream of a contributor; sequence numbers run on over its queries. -/
def streamOf (coll : Nat) (l : List SelBlock) : List Body :=
  (l.zipIdx.foldl (fun (x : List Body × Nat) b => let m := blockMsgs coll b.2 x.2 b.1; (x.1 ++ m, x.2 + m.length)) ([], 0)).1

def State.setColl (s : State) (k k' : Coll) : State := { s with col := { s.col with open' := s.col.open'.map fun x => if x == k then k' else x } }
def State.delColl (s : State) (k : Coll) : State := { s with col := { s.col with open' := s.col.open'.filter (· != k) } }

/-- The collective of an identity on this node in a role. -/
def State.findColl (s : State) (id part : Nat) (fanout root : Bool) (node : Nat) : Option Coll :=
  s.col.open'.find? fun k => k.id == id && k.part == part && k.fanout == fanout && k.root == root && (root || k.rootNode == node)

/-- A message of a collective. -/
def State.collMsg (s : State) (k : Coll) (ty node txn : Nat) (b : Body) : Msg :=
  { s.mkMsg ty node k.part k.part txn b with fanout := k.fanout, epoch := k.epoch, ni := ty == 0x10 }

/-- A contributor asks to join. False where the root cannot be reached. -/
def State.collJoin (s : State) (c : Cmd) (id rootNode rootPart : Nat) (fanout : Bool) (own : List SelBlock) : State × Bool :=
  let k : Coll := { id := id, part := rootPart, fanout := fanout, root := false, rootNode := rootNode, cmd := some c.id, count := c.count, k := c.kReq, ties := c.ties,
                    parts := 0, epoch := c.epoch, own := own, joins := true, joiners := [], unsent := streamOf id own, credit := 0, granted := false,
                    since := s.time.lctr, vals := [] }
  let (x, s) := s.newTxn
  let m := { s.collMsg k 0x10 rootNode x (.collOpen id rootPart c.count c.kReq c.ties) with srcPart := c.part }
  let r := s.trySend m false
  if r.2 then ((r.1.addColl k).track c 0 0 m false, true) else (s.noRoute, false)

/-- Sends what the credit allows (05 R164). -/
def State.collPush (s : State) (k : Coll) : State :=
  let now := k.unsent.take k.credit
  let k' := { k with unsent := k.unsent.drop k.credit, credit := k.credit - now.length }
  let s := s.setColl k k'
  now.foldl (fun s b => s.sendMsg (s.collMsg k 0x12 k.rootNode 0 b)) s

/-- Room for more of a contributor's messages (05 R164). Log entry 160, DEDUCED. -/
def State.collGrant (s : State) (k : Coll) (node n : Nat) : State := s.putMsg (s.collMsg k 0x11 node 0 (.collGrant k.id n))

/-- Every contributor is told that the collective has ended (05 R165). -/
def State.collTell (s : State) (k : Coll) (st sub : Nat) : State :=
  (k.joiners.foldl (fun s j => s.putMsg (s.collMsg k 0x14 j.node 0 (.collAbort k.id st sub))) s).delColl k

/-! ## Barriers (13 R418) -/

def Cmd.barId (c : Cmd) : Nat := c.w 17
def Cmd.barParts (c : Cmd) : Nat := c.f 18 20 12
def Cmd.barRoot (c : Cmd) : Nat := c.f 18 11 0

def State.addBar (s : State) (b : Barrier) : State :=
  let s := { s with col := { s.col with bars := s.col.bars ++ [b] } }
  if s.col.peak < s.collOpenCount then { s with col := { s.col with peak := s.collOpenCount } } else s

def State.setBar (s : State) (b b' : Barrier) : State := { s with col := { s.col with bars := s.col.bars.map fun x => if x == b then b' else x } }
def State.delBar (s : State) (b : Barrier) : State := { s with col := { s.col with bars := s.col.bars.filter (· != b) } }

end Sys2Proof.Machine
end

