-- ==== Sys2Proof/Machine/Peers.lean ====
section
/-! DEFINITION. Collectives and barriers at their root and at their members, up to what their commands do next (spec 05 R162 to R166, 13 R418 to R420). -/

namespace Sys2Proof.Machine

/-! ## Joining (05 R163 to R165) -/

/-- Contributors a root waits for: PARTICIPANTS without itself when it contributes (05 R159). -/
def Coll.expected (k : Coll) : Nat := k.parts - b2n k.joins

def Coll.find (k : Coll) (node : Nat) : Option Joiner := k.joiners.find? fun j => j.node == node

/-- A joiner is turned away alone (05 R165). -/
def State.refuseJoin (s : State) (k : Coll) (m : Msg) (st sub : Nat) : State := s.putMsg (s.collMsg k 0x14 m.src m.txn (.collAbort k.id st sub))

/-- A request to join an open collective: the collective as it stands then, or the status it ends with at the root (05 R165). -/
def State.joinRoot (s : State) (k : Coll) (m : Msg) : State × Coll × Option (Nat × Nat) :=
  match m.body with
  | .collOpen _ _ count kk ties =>
    if (k.find m.src).isSome || k.joiners.length ≥ k.expected then (((s.raise pCol 3)).refuseJoin k m stCancelled 0x0104, k, none)
    else if count != k.count || kk != k.k || ties != k.ties then
      ((((s.bump (pCol + 0x058) 1).raise pCol 1).refuseJoin k m stCancelled 0x0103).collTell k stCancelled 0x0103, k, some (stField, 0x0103))
    else if m.epoch != k.epoch then ((((s.bump (pCol + 0x058) 1).raise pCol 1).refuseJoin k m stStale 0).collTell k stStale 0, k, some (stStale, 0))
    else
      let win := fld (s.reg32 (pCol + 0x100)) 6 0
      let j : Joiner := { node := m.src, txn := m.txn, granted := win, nextSeq := 0, blocks := [], complete := false, epoch := m.epoch, since := s.time.lctr }
      let k' := { k with joiners := k.joiners ++ [j] }
      ((s.setColl k k').collGrant k' m.src win, k', none)
  | _ => (s, k, none)

/-- A message is a request to join this collective. -/
def Coll.wants (k : Coll) (m : Msg) : Bool :=
  m.ty == 0x10 && m.fanout == k.fanout && (match m.body with
    | .collOpen id rp _ _ _ => id == k.id && rp == k.part
    | _ => false)

/-- Requests that came before the root's own command join now; once one of them ends the collective, the rest hear of that end (05 R165). -/
def State.joinEarly (s : State) (k : Coll) : List Msg → State × Coll × Option (Nat × Nat)
  | [] => (s, k, none)
  | m :: r =>
    match s.joinRoot k m with
    | (s, k, none) => s.joinEarly k r
    | (s, k, some e) => (r.foldl (fun s m => s.refuseJoin k m (if e.1 == stStale then stStale else stCancelled) (if e.1 == stStale then 0 else e.2)) s, k, some e)

/-! ## The merge at the root (05 R162, R166) -/

def Coll.ready (k : Coll) : Bool := decide (k.joiners.length = k.expected) && k.joiners.all (·.complete)

/-- Blocks of the members for a query, in ascending node order, own included. -/
def State.collLists (s : State) (k : Coll) (q : Nat) : List (Nat × SelBlock) :=
  let all := (if k.joins then [(s.node, k.own.getD q emptyBlock)] else []) ++ k.joiners.map fun j => (j.node, (tgetD j.blocks q (0, emptyBlock)).2)
  sortBy (fun a b => decide (a.1 ≤ b.1)) all

/-- Tie slots of the result. -/
def State.collTies (s : State) (c : Cmd) : Nat :=
  if c.opcode == 0x50 then tieSlots c (mergeSize c)
  else match s.regView c.ctx (s.edOf c (.region c.ctx)) with
    | some v => tieSlots c (attendSize c v.d)
    | none => 0

/-- The member a merged entry came from: the first that gave it. -/
def sourceOf (l : List (Nat × SelBlock)) (e : Entry) : Option Nat := (l.find? fun x => x.2.entries.any fun y => y.id == e.id && y.score == e.score).map (·.1)

/-- The merged maximum and a node's own selected entries of one query. -/
def mergedRec (m : F32) (ids : List Nat) : List Byte := leBytes 4 m.toNat ++ leBytes 4 ids.length ++ (ids.map (leBytes 8)).flatten

/-- Every contributor has streamed its blocks: the merge, and the confirmations or merged maxima that go out. The root's command reads the blocks, then the copies dropped, or the merged maximum and the IDs whose kept copy is its own (05 R161, R166). -/
def State.collMerge (s : State) (c : Cmd) (k : Coll) : State × List Byte :=
  let t := s.collTies c
  let lists := (List.range k.own.length).map (s.collLists k)
  let outs := lists.zipIdx.map fun l => mergeBlocks c.id [11, l.2] k.k t (l.1.map (·.2))
  let blocks := outs.map (·.block)
  let s := s.bumps ((outs.map (·.bumps)).flatten)
  let ownOf := fun (n : Nat) (b : SelBlock × List (Nat × SelBlock)) => (b.1.entries.filter fun e => sourceOf b.2 e == some n).map (·.id)
  let s := s.bump (pCol + 0x040) 1
  let s := if c.opcode == 0x50 then s
    else k.joiners.foldl (fun s j => (blocks.zip lists).zipIdx.foldl (fun s b =>
      s.putMsg (s.collMsg k 0x13 j.node j.txn (.mergedM k.id b.2 b.1.1.m (ownOf j.node b.1)))) s) s
  let s := if c.opcode == 0x50 || c.vout == 0 then (k.joiners.foldl (fun s j => s.putMsg (s.collMsg k 0x13 j.node j.txn (.collDone k.id))) s).delColl k else s
  (s, blocksBytes blocks ++ (if c.opcode == 0x50 then leBytes 4 (sat32 (sumList (outs.map (·.dropped))))
    else ((blocks.zip lists).map fun b => mergedRec b.1.m (ownOf s.node b)).flatten))

/-- The sums of a root with those of its contributors, in node order, in FP32 (05 R166). -/
def Coll.addVals (k : Coll) (own : List (List F32)) : List (List F32) :=
  own.zipIdx.map fun r =>
    (sortBy (fun a b => decide (a.node ≤ b.node)) k.joiners).foldl (fun (acc : List F32) j => (acc.zip (tgetD k.vals (j.node * 2 ^ 20 + r.2) [])).map fun x => F32.add x.1 x.2) r.1

/-- A contributor's sums are here. -/
def Coll.valsOf (k : Coll) (n : Nat) (j : Joiner) : Bool := (List.range n).all fun q => (tget k.vals (j.node * 2 ^ 20 + q)).isSome

/-- Every contributor's sums are here. -/
def Coll.valsIn (k : Coll) (n : Nat) : Bool := k.joiners.all (k.valsOf n)

/-- The collective of a command. -/
def State.collOf (s : State) (id : Nat) : Option Coll := s.col.open'.find? fun k => k.cmd == some id

/-- Value sums as a command reads them back. -/
def valBytes (l : List (List F32)) : List Byte := (l.map fun r => (r.map fun x => leBytes 4 x.toNat).flatten).flatten

/-- The root has all sums: it confirms and hands back the total. -/
def State.valsDone (s : State) (k : Coll) (own : List (List F32)) : State × List Byte :=
  ((k.joiners.foldl (fun s j => s.putMsg (s.collMsg k 0x13 j.node j.txn (.collDone k.id))) s).delColl k, valBytes (k.addVals own))

/-! ## Barriers (13 R418 to R420) -/

/-- A node's SUSPECT bit in this node's copy of the current map: software's in the image, or the device's mark (13 R407, R420). -/
def State.mapSuspect (s : State) (n : Nat) : Bool := s.col.suspect.contains n || (!s.cmp.cur.isEmpty && bitOf (byteAt s.cmp.cur (1088 + 4 * n)) 1)

/-- Sets or clears the device's suspect mark of a node (13 R420). -/
def State.markSuspect (s : State) (n : Nat) (on : Bool) : State :=
  let s := { s with col := { s.col with suspect := if on then s.col.suspect ++ [n] else s.col.suspect.filter (· != n) } }
  let s := if on then s.bump (pCol + 0x080) 1 else s
  s.logEvent pCol 6 2 noAttr n (b2n !on)

def lastCount (l : List Nat) (n : Nat) : Nat := (l.filter (· == n)).length

/-- The last arriver of a barrier this node took part in (13 R420). -/
def State.noteLast (s : State) (node parts : Nat) : State :=
  if parts < 2 then s
  else
    let s := { s with col := { s.col with last := (node :: s.col.last).take 1024 } }
    let thr := fld (s.reg32 (pCol + 0x140)) 10 0
    let s := if lastCount s.col.last node > thr && !s.col.suspect.contains node then s.markSuspect node true else s
    (s.col.suspect.filter fun n => decide (lastCount s.col.last n ≤ thr / 2)).foldl (fun s n => s.markSuspect n false) s

/-- The root tells every member that has arrived, and the barrier is over (13 R418, R419). -/
def State.barTell (s : State) (b : Barrier) (last status : Nat) : State :=
  ((b.arrived.filter fun a => a.1 != s.node).foldl (fun s a =>
    s.putMsg { s.mkMsg 0x19 a.1 0 0 a.2 (.barRelease b.id last status) with epoch := b.epoch }) s).delBar b

/-- An arrival at the root's barrier: the barrier as it stands then, or what its commands read at their key (13 R419). -/
def State.barJoin (s : State) (b : Barrier) (m : Msg) : State × Barrier × Option Nat :=
  match m.body with
  | .barArrive _ parts =>
    let b' := { b with arrived := b.arrived ++ [(m.src, m.txn)] }
    if m.epoch != b.epoch then ((s.setBar b b').barTell b' m.src 2, b', some 4)
    else if parts != b.parts then ((s.setBar b b').barTell b' m.src 2, b', some 2)
    else if b'.arrived.any (fun a => a.1 == s.node) && decide (b'.arrived.length ≥ b.parts) then
      (((s.setBar b b').barTell b' m.src 0).bump (pCol + 0x070) 1 |>.noteLast m.src b.parts, b', some 0)
    else (s.setBar b b', b', none)
  | _ => (s, b, none)

def Barrier.wants (b : Barrier) (m : Msg) : Bool :=
  m.ty == 0x18 && (match m.body with
    | .barArrive id _ => id == b.id
    | _ => false)

/-- Arrivals that came before the root's own. -/
def State.barEarly (s : State) (b : Barrier) : List Msg → State × Barrier × Option Nat
  | [] => (s, b, none)
  | m :: r =>
    match s.barJoin b m with
    | (s, b, none) => s.barEarly b r
    | (s, b, some e) => (s, b, some e)

/-- The read edition of a checkpoint is fixed at its barrier's release (13 R421). -/
def State.barEds (s : State) (c : Cmd) : Tab Nat := if c.edReq == 0 then [(c.kTarget.key, s.latest c.kTarget)] else c.eds

end Sys2Proof.Machine
end

