-- ==== Sys2Proof/Machine/Engine.lean ====
section
/-! DEFINITION. How a command runs: admission, the waits of its processing, its stage, its commit, its end (spec 09 R300, R305, R306, R312, 02 R58, 08 R254 to R258, 10 R326 to R338, 13 R417, R424, R425). -/

namespace Sys2Proof.Machine

/-- Opcode of an internal migration pass (06 R178); no descriptor carries it. -/
def opPass : Nat := 0xF0

/-- A command as it enters a queue. -/
def Cmd.start (id part ctx : Nat) (port : Port) (fn : Nat) (dw : List Nat) (prio epoch since : Nat) (origin : Origin) : Cmd :=
  { id := id, part := part, ctx := ctx, port := port, fn := fn, dw := dw, prio := prio, epoch := epoch, edition := 0, eds := [], origin := origin,
    phase := .queued, admitted := false, admitAt := 0, since := since, got := [], done := [], reruns := 0, byEpoch := false, flags := 0, poolRerun := false,
    charged := 0, claim := 0, work := false, area := false, split := false, covers := [], input := [], fin := none, stages := [], logged := false, behind := [],
    batches := [], taken := [], peer := false }

/-- A command enters the machine with the next name. -/
def State.addCmd (s : State) (part ctx : Nat) (port : Port) (fn : Nat) (dw : List Nat) (prio : Nat) (origin : Origin) : State × Nat :=
  ({ s with cmds := s.cmds ++ [Cmd.start s.nextCmd part ctx port fn dw prio s.epoch s.time.lctr origin], nextCmd := s.nextCmd + 1 }, s.nextCmd)

/-! ## Opcodes -/

/-- A mutating corpus command for a shard that another node or partition owns goes there whole (08 R278). Log entry 127, DEDUCED. -/
def State.away (s : State) (c : Cmd) : Bool :=
  [0x32, 0x33, 0x34, 0x36].contains c.opcode && c.origin == .window && (match s.place c (c.f 12 11 0) with
    | .there _ _ => true
    | _ => false)

/-- NOP and FENCE, in the order of 09 R305 (09 R300). -/
def plainCheck (c : Cmd) : Except Halt Unit :=
  refuseIf [((if c.opcode == 0x7F then c.f 12 31 2 != 0 || !c.zero 13 31 else !c.zero 12 31), bf 0x0902),
    (c.count != 0 || c.inLen != 0 || c.outLen != 0 || c.kReq != 0 || c.edReq != 0, bf 0x090A)]

/-- The checks of steps 9 to 11 of 09 R305; `dyn` those that look at the published state (02 R58). -/
def State.opCheck (s : State) (c : Cmd) (dyn : Bool) : Except Halt Unit :=
  match c.opcode with
  | 0x01 | 0x7F => plainCheck c
  | 0x10 => s.corpusSearchCheck c dyn
  | 0x11 => s.scanCheck c dyn
  | 0x12 => s.rerankCheck c dyn
  | 0x20 => s.attendCheck c dyn
  | 0x21 => s.kvAppendCheck c (s.otherBounds c.ctx 4096) dyn
  | 0x22 => s.kvTrimCheck c dyn
  | 0x30 | 0x35 => s.gatherCheck c dyn
  | 0x31 => s.scatterCheck c dyn
  | 0x32 | 0x33 => s.insertCheck c dyn
  | 0x34 => s.consolidateCheck c dyn
  | 0x36 => s.buildGraphCheck c dyn
  | 0x40 => s.calibrateCheck c
  | 0x41 => (refuseIf (requantFields c)).bind fun _ => if c.f 12 1 0 == 2 then s.requantShardCheck c dyn else s.requantRegionCheck c dyn
  | 0x50 => s.topkCheck c dyn
  | 0x60 => s.checkpointCheck c dyn
  | 0x61 => s.restoreCheck c dyn
  | 0x70 | 0x71 | 0x72 => s.flashCheck c
  | _ => .ok ()

/-- A FENCE completes once what it covers has ended (09 R300). -/
def State.fenceWork (s : State) (c : Cmd) : Except Halt Done :=
  let open' := c.covers.any fun i => (s.cmds.any fun x => x.id == i) || (s.rings.any fun r => r.2.held.any fun x => x.id == i && x.kind == 0)
  let inner := bitOf (c.w 12) 1 && s.cmds.any fun x => x.part == c.part && x.origin == .internal && x.admitted
  if open' || inner then .error (.wait .none) else .ok (Done.of { Finish.ok with counter := c.covers.length })

/-- The processing of a command, replayed over the data it has received. -/
def State.opWork (s : State) (c : Cmd) : Except Halt Done :=
  if s.away c then s.wholeWork c
  else
    match c.opcode with
    | 0x01 | 0x70 => .ok (Done.of Finish.ok)
    | 0x7F => s.fenceWork c
    | 0x10 => s.corpusSearchWork c
    | 0x11 => s.scanWork c
    | 0x12 => s.rerankWork c
    | 0x20 => s.attendWork c
    | 0x21 => s.kvAppendStage c
    | 0x22 => s.kvTrimStage c
    | 0x30 => s.gatherWork c
    | 0x31 => s.scatterWork c
    | 0x32 => s.insertWork c
    | 0x33 => s.deleteWork c
    | 0x34 => s.consolidateWork c
    | 0x35 => s.prefetchWork c
    | 0x36 => s.buildGraphWork c
    | 0x40 => s.calibrateStage c
    | 0x41 => if c.f 12 1 0 == 2 then s.requantShard c else s.requantRegion c
    | 0x50 => s.topkWork c
    | 0x60 => s.checkpointWork c
    | 0x61 => s.restoreWork c
    | 0x71 => s.flashReadWork c
    | 0x72 => s.flashWriteWork c
    | 0xF0 => s.migrate c (c.f 12 7 0)
    | _ => .ok (Done.of Finish.ok)

/-- The local shards and the region a command reads or changes. -/
def State.targets (s : State) (c : Cmd) : List Target :=
  if s.away c then []
  else
    match c.opcode with
    | 0x10 => (c.shards.filter fun n => s.place c n == .here).map .shard
    | 0x11 => if c.f 12 14 12 == 3 then [] else [.shard (c.f 12 11 0)]
    | 0x12 | 0x32 | 0x33 | 0x34 | 0x36 => [.shard (c.f 12 11 0)]
    | 0x20 | 0x21 | 0x22 | 0x40 | 0xF0 => [.region c.ctx]
    | 0x30 | 0x35 => if c.gsrc ≤ 1 then [.shard c.gshard] else if c.gsrc ≤ 3 then [.region c.ctx] else []
    | 0x31 => (s.scatterShards c).map .shard
    | 0x41 => if c.f 12 1 0 == 2 then [.shard (c.f 12 13 2)] else [.region c.ctx]
    | 0x60 | 0x61 => [c.kTarget]
    | _ => []

/-! ## Waits of admission -/

/-- The classes in which one command stages at a time: regions, shards by conversion, shards by linking (02 R58, 07 R241). -/
def State.convKeys (s : State) (c : Cmd) : List Nat :=
  if s.away c then []
  else
    match c.opcode with
    | 0x21 | 0x22 | 0x40 | 0xF0 => [4096 + c.ctx]
    | 0x41 => if c.f 12 1 0 == 2 then [c.f 12 13 2, 2 ^ 20 + c.f 12 13 2] else [4096 + c.ctx]
    | 0x31 => s.scatterShards c
    | 0x32 => [c.f 12 11 0]
    | 0x34 => [2 ^ 20 + c.f 12 11 0]
    | 0x36 => [c.f 12 11 0, 2 ^ 20 + c.f 12 11 0]
    | _ => []

def State.convMeets (s : State) (c x : Cmd) : Bool := let ks := s.convKeys c; x.id != c.id && (s.convKeys x).any ks.contains

/-- A converting command waits for the one that stages and for those before it; a migration pass behind all of software, and behind the passes before it (02 R58). -/
def State.convWait (s : State) (c : Cmd) : Bool :=
  if c.opcode == opPass then s.cmds.any fun x => s.convMeets c x && (x.admitted || (x.phase == .held .convert && (x.opcode != opPass || decide (x.id < c.id))))
  else s.cmds.any fun x => s.convMeets c x && x.opcode != opPass && (x.admitted || (x.phase == .held .convert && x.id < c.id))

/-- A bind of a bound region waits for its readers (06 R184, 08 R254). -/
def State.bindWait (s : State) (c : Cmd) : Bool :=
  c.opcode == 0x21 && bitOf (c.w 12) 24 && s.cmds.any fun x => x.id != c.id && x.admitted && (s.targets x).contains (.region c.ctx)

/-- A RESTORE of a bound target waits for the commands on it; the others wait for it (13 R425). -/
def State.restoreWait (s : State) (c : Cmd) : Bool :=
  let ts := s.targets c
  let meets := fun x : Cmd => x.id != c.id && (s.targets x).any ts.contains
  if c.opcode == 0x61 then s.latest c.kTarget != 0 && s.cmds.any fun x => meets x && (x.admitted || (x.opcode == 0x61 && x.phase == .held .restore && x.id < c.id))
  else s.cmds.any fun x => x.opcode == 0x61 && meets x && (x.admitted || x.phase == .held .restore)

def Origin.isReplay : Origin → Bool
  | .replay _ => true
  | _ => false

/-- A new owner that waits for the last log record of the old one (13 R429). -/
def State.finalOpen (s : State) (n : Nat) : Bool := s.cmp.finalWait.contains n || s.cmp.finalWait.contains (4096 + n)

/-- Commands on a target whose log is being replayed wait; replayed ones run one after the other (13 R426, R429). -/
def State.replayWait (s : State) (c : Cmd) : Bool :=
  if c.origin.isReplay then s.cmds.any fun x => decide (x.id < c.id) && x.origin.isReplay && (s.targets x).any (s.targets c).contains
  else (s.targets c).any fun t => match t with
    | .shard n => ((s.shard n).elim false fun x => x.replaying && !x.shadow) || s.finalOpen n
    | .region r => s.cmds.any fun x => x.ctx == r && x.origin.isReplay

/-- Replay stops at a gap: the target opens at its last applied edition (13 R426, R429). -/
def State.replayStop (s : State) (t : Target) : State :=
  let gone := s.cmds.filter fun x => x.origin.isReplay && (s.targets x).contains t
  let s := gone.foldl (fun s x => (s.discard x).dropCmd x.id) s
  let s := match t with
    | .shard n => { s with shards := s.shards.map fun x : Shard => if x.num == n then { x with replaying := false, logBuf := [], logCredit := 0 } else x,
                           cmp := { s.cmp with finalWait := s.cmp.finalWait.filter fun k => k % 4096 != n } }
    | .region _ => s
  s.raise pCmp 4

def State.before (s : State) (c : Cmd) : Bool :=
  (s.cmds.any fun x => x.ctx == c.ctx && x.origin == .window && decide (x.id < c.id)) ||
    ((s.ring c.port c.ctx).held.any fun r => r.kind == 0 && decide (r.id < c.id))

def State.holdWhy (s : State) (c : Cmd) : Option Hold :=
  let win := c.origin == .window
  if win && s.cmds.any (fun x => x.ctx == c.ctx && x.origin == .window && x.opcode == 0x7F && decide (x.id < c.id)) then some .fence
  else if win && c.ordered && s.before c then some .ordered
  else if s.restoreWait c then some .restore
  else if s.replayWait c then some .replay
  else if s.convWait c || s.bindWait c then some .convert
  else if c.opcode == 0x32 && !s.away c && s.sideFullNow c (c.f 12 11 0) then some .side
  else if ((c.opcode == 0x10 && (c.origin.isForwarded || c.shards.any fun n => s.place c n != .here)) || (c.opcode == 0x50 && c.collective) || (c.opcode == 0x20 && c.collId != 0) || (c.opcode == 0x60 && c.barrier)) && decide (s.collOpenCount ≥ 512) then some .coll
  else none

/-! ## Ends -/

def Origin.local' : Origin → Bool
  | .window | .forwarded _ _ _ | .shadow _ _ => true
  | _ => false

/-- A command of the device begins again. -/
def State.restartOwn (s : State) (c : Cmd) : State :=
  (s.discard c).modCmd c.id fun x => { x with phase := .queued, admitted := false, got := [], eds := [], charged := 0, taken := [] }

/-- An internal command fails: its page counts it, and it is issued again or dropped (07 R228, 06 R180). -/
def State.failInternal (s : State) (c : Cmd) (st : Nat) (errs bumps : List (Nat × Nat)) : State :=
  let s := s.bumps bumps
  let s := errs.foldl (fun s x => s.reportErr ⟨some c.part, 0⟩ x) s
  if c.opcode == 0x34 then
    let s := s.raiseAt pGwe 2 ⟨some c.part, 0⟩
    s.restartOwn c
  else if c.opcode == opPass then ((if st == stEcc then s.raiseAt pAtt 1 ⟨some c.part, c.ctx⟩ else s).discard c).dropCmd c.id
  else (s.discard c).dropCmd c.id

/-- A command that has been admitted ends with a failure. -/
def State.failAny (s : State) (c : Cmd) (st sub counter : Nat) (errs bumps : List (Nat × Nat)) : State :=
  if c.origin == .internal then s.failInternal c st errs bumps
  else if c.origin.isReplay then (s.targets c).foldl (fun s t => s.replayStop t) (s.failCmd c st sub counter errs bumps)
  else s.failCmd c st sub counter errs bumps

/-- Admission turns a command away (09 R305); one that is no descriptor of this device counts nowhere. -/
def State.turnAway (s : State) (c : Cmd) (st sub counter : Nat) : State :=
  let s := if st == stSideFull then s.raiseAt pGwe 3 ⟨some c.part, c.ctx⟩ else s
  match c.origin with
  | .window => s.refuseCmd c st sub counter
  | .replay _ => (s.targets c).foldl (fun s t => s.replayStop t) (s.answer c st sub 0 0 counter [])
  | _ => s.answer c st sub 0 0 counter []

/-- A read command has lost pool data (13 R417, 06 R200, 08 R270). -/
def State.poolLost (s : State) (c : Cmd) (key : Nat) (flashToo : Bool) : State × Bool :=
  let s := { s with fab := { s.fab with reqs := s.fab.reqs.filter fun r => !(r.cmd == c.id && poolTypes r.msg) } }
  let s := s.bump (pFab + 0x088) 1
  if key ≥ softKey * 2 ^ 24 then
    -- rows left out: a prefetch or a lookup that the loss does not end
    let s := if c.opcode == 0x20 then s.raiseAt pAtt 2 ⟨some c.part, c.ctx⟩ else s
    (s.modCmd c.id fun x => { x with got := tset x.got key [], phase := .run .none }, true)
  else
    let blk := if c.opcode == 0x20 then pAtt + 0x098 else pGcu + 0x090
    if c.retry && !c.poolRerun && flashToo && isRead c.opcode then
      ((s.bump (pCmp + 0x058) 1).bump blk 1 |>.modCmd c.id fun x =>
        { x with got := x.got.filter (fun e => (decide (e.1 ≥ 2 ^ 80) && decide (e.1 < 2 ^ 81)) || decide (e.1 < 2 ^ 24)), poolRerun := true, flags := x.flags ||| 16, phase := .run .none }, true)
    else
      let s := s.bump (pCmp + 0x060) 1
      let sub := if isMutating c.opcode then 0x0992 else if c.poolRerun then 0x0991 else 0x0990
      (s.failAny c stPoolLost sub 0 (if c.opcode == 0x30 || c.opcode == 0x35 then [(pGcu, 0)] else if c.opcode == 0x20 then [(pAtt, 0)] else []) [], false)

/-- The pool-resident segment of a command's region that holds a fabric address lost to it has a flash image (06 R200, 08 R270). -/
def State.lostImage (s : State) (c : Cmd) (addr : Nat) : Bool :=
  (c.opcode == 0x20 || ((c.opcode == 0x30 || c.opcode == 0x35) && (c.gsrc == 2 || c.gsrc == 3))) &&
    (match s.region c.ctx, s.regView c.ctx (s.edOf c (.region c.ctx)) with
      | some r, some v => (List.range v.d.segs.length).any fun i =>
        v.pooled i && decide ((v.d.seg i).addr ≤ addr) && decide (addr < (v.d.seg i).addr + v.d.imgBytes i) && (tget r.images i).isSome
      | _, _ => false)

/-! ## Memory of sub-batches (10 R336 to R339) -/

/-- A sub-batch takes the work area when it is free and what it needs of the pool; none when no item fits (10 R338). Log entry 148, DESIGN CHOICE. -/
def State.takeSram (s : State) (c : Cmd) (u items : Nat) : Option State :=
  let (size, used) := s.freePool c.part
  let areaFree := !(s.cmds.any fun x => x.part == c.part && x.area)
  let room := min (size - used) (size / 2)
  let base := if areaFree then 786432 else 0
  let claim := min room (less (u * items) base)
  let n := (base + claim) / max 1 u
  if n == 0 then none
  else
    let split := decide (n < items)
    let s := if split && !c.split then s.bump (pCtx + 0x060) 1 else s
    some (s.modCmd c.id fun x => { x with work := true, area := areaFree, claim := claim, split := x.split || split })

/-! ## Waiting -/

def State.waitOn (s : State) (c : Cmd) (n : Need) : State := s.modCmd c.id fun x => { x with phase := .run n, since := s.time.lctr }

/-- Something arrived at once: the command goes on. -/
def State.fill (s : State) (c : Cmd) (key : Nat) (d : List Byte) : State := s.modCmd c.id fun x => { x with got := tset x.got key d, phase := .run .none }

def State.waitCapo (s : State) (c : Cmd) (r n : Nat) : State := (s.waitOn c (.capo r n)).noteHeld c.part r

/-- What a request to another node led to. -/
def State.afterSend (_s : State) (c : Cmd) (need : Need) (lost : State → State × Bool) : Sent → State × Bool
  | .sent s => (s.waitOn c need, false)
  | .unreachable s => lost s
  | .full => (_s.waitOn c need, false)
  | .capo r n => (_s.waitCapo c r n, false)

/-- No route to an owner (08 R280, 07 R251). The other owners of a split command, this node among them, commit their own parts (08 R279). -/
def State.noOwner (s : State) (c : Cmd) (key : Nat) (accepted : Bool) : State × Bool :=
  if c.opcode == 0x31 then
    let a : OwnerAns := { status := stCancelled, sub := if accepted then 0x0806 else 0x0807, counter := 0, result := 0, edition := 0, out := [] }
    ((if accepted then s.raiseAt pUpd 0 ⟨some c.part, c.ctx⟩ else s).fill c key a.bytes, true)
  else if isMutating c.opcode then
    (s.failAny c stCancelled (if accepted then 0x0806 else 0x0807) 0 (if accepted then [(pUpd, 0)] else []) [], false)
  else (s.failAny c stCancelled 0x0102 0 [] [], false)

/-- A command is admitted again under the current epoch (13 R415); beyond RERUN_MAX it ends (10 R330). Log entry 157, DEDUCED. -/
def State.again (s : State) (c : Cmd) : State × Bool :=
  let n := c.reruns + 1
  if n > fld (s.reg32 (pCtx + 0x100)) 7 0 && c.origin != .internal then (s.failAny c stRerun 0x0981 0 [] [], false)
  else
    let s := ((s.discard c).bump (pCmp + 0x050) 1).collDrop c.id 0x0102
    let s := { s with col := { s.col with bars := s.col.bars.filter fun b => b.cmd != some c.id } }
    (s.modCmd c.id fun x => { x with reruns := n, byEpoch := true, epoch := s.epoch, flags := x.flags ||| 32, admitted := false, phase := .queued, peer := false,
                                     eds := [], charged := 0, got := x.got.filter fun e => decide (e.1 < 2 ^ 24) }, true)

/-- A command that an epoch makes stale: an ATTEND collective or a barrier is admitted again once (13 R415). -/
def State.stale (s : State) (c : Cmd) (sub : Nat) : State × Bool :=
  if !c.byEpoch && ((c.opcode == 0x20 && c.collId != 0) || (c.opcode == 0x60 && c.barrier)) then s.again c
  else (s.failAny c stStale sub 0 [] [], false)

/-- A collective or barrier ends badly for the command here. -/
def State.badPeers (s : State) (c : Cmd) (st sub : Nat) : State × Bool := if st == stStale then s.stale c 0 else (s.failAny c st sub 0 [] [], false)

/-- The root looks whether its contributors have all streamed. -/
def State.collCheck (s : State) (c : Cmd) (k : Coll) : State × Bool :=
  if k.ready then let r := s.collMerge c k; (r.1.fill c collKey r.2, true) else (s, false)

/-- Joins or opens what a command needs of its peers; the root takes in those that came before it, and waits until all have come. -/
def State.openPeers (s : State) (c : Cmd) (own : List SelBlock) : State × Bool :=
  let p := c.collPar
  if !p.root then
    let r := s.collJoin c p.id p.rootNode p.rootPart false own
    if r.2 then (r.1.waitOn c (.coll collKey own), false) else (r.1.failAny c stCancelled 0x0102 0 [] [], false)
  else
    let k : Coll := { id := p.id, part := p.rootPart, fanout := false, root := true, rootNode := s.node, cmd := some c.id, count := c.count, k := c.kReq, ties := c.ties,
                      parts := p.parts, epoch := c.epoch, own := own, joins := p.joins, joiners := [], unsent := [], credit := 0,
                      granted := true, since := c.admitAt, vals := [] }
    let early := s.col.early.filter k.wants
    let s := { s with col := { s.col with early := s.col.early.filter fun m => !k.wants m } }
    match ((s.waitOn c (.coll collKey own)).addColl k).joinEarly k early with
    | (s, _, some (st, sub)) => s.badPeers c st sub
    | (s, k, none) => s.collCheck c k

/-- Value sums: a contributor sends its own, the root waits for all (05 R166). -/
def State.giveVals (s : State) (c : Cmd) (key : Nat) (own : List (List F32)) : State × Bool :=
  match s.collOf c.id with
  | none => (s.waitOn c (.vals key own), false)
  | some k =>
    if k.root then
      if k.valsIn own.length then let r := s.valsDone k own; (r.1.fill c key r.2, true) else (s.waitOn c (.vals key own), false)
    else
      let s := own.zipIdx.foldl (fun s r => s.sendMsg { s.collMsg k 0x12 k.rootNode 0 (.valueSums k.id r.2 r.1) with srcPart := c.part }) s
      (s.waitOn c (.vals key own), false)

/-- A member arrives at its barrier (13 R418). -/
def State.arrive (s : State) (c : Cmd) : State × Bool :=
  let root := bitOf (c.w 18) 21
  let b : Barrier := { id := c.barId, root := root, rootNode := c.barRoot, cmd := some c.id, parts := c.barParts, epoch := c.epoch, arrived := [],
                       since := if root then ((s.col.barFirst.find? fun e => e.1 == c.barId).map (·.2)).getD s.time.lctr else s.time.lctr }
  let done := fun (s : State) (code : Nat) =>
    (s.modCmd c.id fun x => { x with got := tset x.got barKey [BitVec.ofNat 8 code], phase := .run .none, eds := if code == 0 then s.barEds c else x.eds }, true)
  if root then
    let early := s.col.early.filter b.wants
    let s := { s with col := { s.col with early := s.col.early.filter (fun m => !b.wants m), barFirst := s.col.barFirst.filter fun e => e.1 != b.id } }
    match ((s.waitOn c .peers).addBar b).barEarly b early with
    | (s, _, some e) => done s e
    | (s, b, none) =>
      let b' := { b with arrived := b.arrived ++ [(s.node, 0)] }
      let s := s.setBar b b'
      if b'.arrived.length ≥ b.parts then done (((s.barTell b' s.node 0).bump (pCol + 0x070) 1).noteLast s.node b.parts) 0 else (s, false)
  else
    let (x, s) := s.newTxn
    let m := { s.mkMsg 0x18 c.barRoot c.part c.part x (.barArrive c.barId c.barParts) with epoch := c.epoch }
    let r := s.trySend m false
    if r.2 then (((r.1.waitOn c .peers).addBar b).track c 0 0 m false, false) else (r.1.noRoute.failAny c stCancelled 0x0102 0 [] [], false)

/-- A unit is read without the NAND: unmapped, all zero, or still in the write buffer (11 R356, R365). -/
def State.quickUnit (s : State) (c : Cmd) (lua : Nat) : Option (List Byte) :=
  let g := s.gpage c.part lua
  let m := s.mapAt g (s.flashEd c c.part lua)
  if m.kind == 0 || bitOf m.zmask (lua % 4) then some (zeros 4096)
  else
    match tget s.fte.phys m.ppa with
    | some x => if x.programmed then none else some (slice x.data (4096 * (lua % 4)) 4096)
    | none => none

/-- A context has fret work waiting: a pass to begin, or walks that go on. -/
def State.fretWork (s : State) (ctx : Nat) : Bool :=
  s.cmds.any fun c => c.ctx == ctx && c.origin == .window && (match c.phase with
    | .run .frets => true
    | .run .walks => s.walks.any fun w => w.cmd == c.id && (w.phase != .walked || w.side.isNone)
    | _ => false)

/-- Contexts of a partition with fret work, with the highest priority present. -/
def State.fretWaiters (s : State) (p : Nat) : List (Nat × Nat) :=
  let l := s.cmds.filter fun c => c.part == p && c.origin == .window && (s.part p).cur != some c.ctx && s.fretWork c.ctx
  let top := maxList (l.map (·.prio))
  (dedupNat ((l.filter fun c => c.prio == top).map (·.ctx))).map fun n => (n, (s.ctx n).weight)

/-- A switch of a partition's frets is due: its current context begins no further pass (10 R325). -/
def State.turnDue (s : State) (p : Nat) : Bool := (s.part p).due && !(s.fretWaiters p).isEmpty

/-- The frets hold the context of a command, and no switch is due (10 R324, R325); the device's own work needs no turn (log entry 62, DEDUCED). -/
def State.turnOf (s : State) (c : Cmd) : Bool := c.origin != .window || ((s.part c.part).cur == some c.ctx && !s.turnDue c.part)

/-- The frets of the slice for a pass of a command: taken when no context has them (10 R326), refused while another has them or a switch is due. -/
def State.fretsFor (s : State) (c : Cmd) : Option State :=
  if s.turnOf c then some s
  else if (s.part c.part).cur.isNone then some (s.modPart c.part fun x => { x with cur := some c.ctx, turnAt := s.time.lctr, scrubbed := false, due := false })
  else none

/-- A command waits for something: it is asked for, or taken at once. True: the command goes on. -/
def State.park (s : State) (c : Cmd) (n : Need) : State × Bool :=
  match n with
  | .host key a len =>
    match s.charge c.part 1 (ceilDiv len 64) with
    | none => (s.waitCapo c 1 (ceilDiv len 64), false)
    | some s => ((s.hostRead c key a len).waitOn c n, false)
  | .flash lua =>
    match s.quickUnit c lua with
    | some d => (s.fill c (flashKey lua) d, true)
    | none =>
      match s.charge c.part 7 64 with
      | none => (s.waitCapo c 7 64, false)
      | some s => ((s.waitOn c n).pumpDies, false)
  | .keep key d => (s.fill c key d, true)
  | .pool key node off len => s.afterSend c n (fun s => s.poolLost c key (s.lostImage c (node * 2 ^ 52 + off))) (s.poolGo c key node off len none)
  | .poolWr key node off d => s.afterSend c n (fun s => s.poolLost c key false) (s.poolGo c key node off d.length (some d))
  | .frets =>
    match s.fretsFor c with
    | some s => (s.fill c (fretKey + c.passes) [], true)
    | none => (s.waitOn c n, false)
  | .sram u items =>
    match s.takeSram c u items with
    | some s => (s.modCmd c.id fun x => { x with phase := .run .none }, true)
    | none => ((s.bump (pCtx + 0x068) 1).waitOn c n, false)
  | .array key shape =>
    let l : List ArrOp := shape.pieces.zipIdx.map fun a =>
      { cmd := c.id, key := key, piece := a.2, part := c.part, prio := c.prio, shape := a.1, left := a.1.tiles, deals := [], courses := [] }
    let q := s.arr.queue ++ l
    ({ s with arr := { s.arr with queue := q, peak := max s.arr.peak q.length } }.waitOn c n, false)
  | .overlay f => (((s.yieldFloor f).bump (pSbc (stackOf f) + 0x070) 1).waitOn c n, false)
  | .slot num _ l => (((s.modCmd c.id fun x => { x with taken := tset x.taken num l }).bump (pGwe + 0x0C8) 1).waitOn c n, false)
  | .take num l => (s.modCmd c.id fun x => { x with taken := tset x.taken num l, phase := .run .none }, true)
  | .page _ l => (((s.modCmd c.id fun x => { x with taken := tset x.taken pageKey l }).bump (pFte + 0x0A0) 1).waitOn c n, false)
  | .walks =>
    let s := if s.walks.any fun w => w.cmd == c.id then s else { s with walks := s.walks ++ s.searchWalks c }
    (s.waitOn c n, false)
  | .coll _ own => s.openPeers c own
  | .vals key own => s.giveVals c key own
  | .forward key =>
    match s.inputOf c with
    | .error _ => (s.waitOn c n, false)
    | .ok inp =>
      let s := if c.opcode == 0x31 then s.modCmd c.id fun x => { x with batches := s.batchesOf c (c.positions inp) } else s
      match s.fwdBody c inp key with
      | none => s.noOwner c key false
      | some (node, part, search, body) =>
        s.afterSend c n (fun s => s.noOwner c key false) (s.fwdGo (c) key node part search body) |> fun r =>
          (r.1.modCmd c.id fun x => { x with peer := true }, r.2)
  | .peers => s.arrive c
  | _ => (s.waitOn c n, false)

/-! ## The stage (08 R256) -/

/-- Charges in order from the i-th; the first that is held, with its place. -/
def State.chargeFrom (s : State) (p : Nat) : List (Nat × Nat) → Nat → State × Option (Nat × Nat × Nat)
  | [], _ => (s, none)
  | (r, n) :: rest, i =>
    match s.charge p r n with
    | none => (s, some (i, r, n))
    | some s => s.chargeFrom p rest (i + 1)

/-- What a command is charged for its work, its output to the host and its pages. -/
def Cmd.allCharges (c : Cmd) (pages : Nat) (f : Finish) : List (Nat × Nat) :=
  let host := fun a n => if isDev a || n == 0 then [] else [(2, ceilDiv n 64)]
  f.charges ++ (if stGood f.status && c.origin == .window then host c.outAddr f.out.length else []) ++
    (match f.drop with
      | some (a, d) => host a d.length
      | none => []) ++ (if pages == 0 then [] else [(8, 256 * pages)])

/-- The pages of each target's stage. -/
def State.stagePages (s : State) (c : Cmd) (l : List FlashPut) (stages : List Stage) : List Stage :=
  match stages with
  | [g] => [{ g with pages := dedupNat (l.map fun x => s.gpage c.part x.lua) }]
  | gs => gs.map fun g =>
    { g with pages := dedupNat ((l.filter fun x => ((s.extentOf c.part x.lua).bind fun e => e.use.target) == some g.target).map fun x => s.gpage c.part x.lua) }

/-- The stage of a command is written: pages, rows, statistics. The rows of a bind that replaces a bound target stay with the stage until its commit, so that a discarded one leaves every published edition as it was (08 R256, R257; log entry 183, DESIGN CHOICE). -/
def State.writeStage (s : State) (c : Cmd) (d : Done) : Except Halt State := do
  let s ← s.writePages c c.part (c.opcode != 0x72) d.pages
  -- what replaces a bound target waits for the commit
  let later := d.stages.any fun g => g.bind && s.latest g.target != 0
  let d := if later then { d with puts := [], stages := d.stages.map fun g => if g.bind then { g with binds := d.puts } else g } else d
  let s := d.puts.foldl (fun s x => s.hbmWrite x.fret x.off x.tag x.data) s
  let s := d.stats.foldl (fun s x => s.pegStat c.id x.kind x.number c.part (Fmt.ofCode x.fmt) x.errs x.sat) s
  let (s, n) := if c.opcode == 0x70 then s.trimRange c else (s, d.fin.counter)
  return s.modCmd c.id fun x => { x with fin := some { d.fin with counter := n }, stages := s.stagePages c d.pages d.stages,
                                         done := dedupNat (d.pages.map fun p => s.gpage c.part p.lua), taken := tdel x.taken pageKey }

def f5 (l : List (Nat × Nat)) : List (Nat × Nat) := l.filter fun x => x.1 == 5

/-- The domain a device-space address lies in. -/
def fretsAt (l : List Nat) : List Nat := l.filterMap fun a => (devAddr a).map (·.1)

/-- Domains that hold the counters a call will count in (06 R177). -/
def State.countFrets (s : State) (c : Cmd) (f : Finish) : List Nat :=
  match s.regView c.ctx (s.latest (.region c.ctx)), f.layer with
  | some v, some l => f.incs.filterMap fun x => (v.keyPlace l x).map fun p => slotFret v.dies p.2
  | _, _ => []

/-- Domains that what a command has decided is still to be written to (09 R312, 08 R256). -/
def State.outFrets (s : State) (c : Cmd) (f : Finish) : List Nat :=
  (c.stages.map fun g => g.rows.map (·.fret) ++ g.binds.map (·.fret) ++ fretsAt (g.delta.late.map (·.1) ++ g.delta.counts.map (·.1))).flatten ++
    fretsAt ((if stGood f.status && c.origin == .window && !f.out.isEmpty then [c.outAddr] else []) ++ (f.drop.elim [] fun x => [x.1]) ++ f.late.map (·.1)) ++ s.countFrets c f

/-- The work is done: log room, charges, then the stage. It stands while a domain it writes to is being replaced (03 R109). -/
def State.accept (s : State) (c : Cmd) (d : Done) : State × Except Halt Bool :=
  if s.logFull c d then (s, .error (.fail stMedia 0x0D10 0 [(pCmp, 6)] []))
  else match d.puts.find? fun x => s.sparingAt x.fret with
  | some x => (s, .error (.wait (.spare x.fret)))
  | none =>
    let l := c.allCharges (dedupNat (d.pages.map fun x => s.gpage c.part x.lua)).length d.fin
    let (s, h) := s.chargeFrom c.part (l.drop c.charged) c.charged
    match h with
    | some (i, r, n) => ((s.modCmd c.id fun x => { x with charged := i }).waitCapo c r n, .ok false)
    | none =>
      -- strokes count against the context's share of the frets (10 R346)
      let strokes := sumList ((f5 l).map (·.2))
      let s := s.modPart c.part fun x => { x with credit := tset x.credit c.ctx (tgetD x.credit c.ctx 0 - strokes) }
      let c := { c with charged := l.length }
      match (s.modCmd c.id fun x => { x with charged := l.length }).writeStage c d with
      | .error h => (s.modCmd c.id fun x => { x with charged := l.length }, .error h)
      | .ok s => (s, .ok true)

/-! ## After the commit -/

/-- Adds a bound shard's extents (11 R355). -/
def State.bindExtents (s : State) (part num : Nat) : State :=
  match s.shView num (s.latest (.shard num)) with
  | none => s
  | some v =>
    let old := s.fte.extents.filter fun x => !(x.use == .adj num || x.use == .vec num)
    let vecUnits := ceilDiv (v.d.slotCap * vecSize v.d.full) 4096
    { s with fte := { s.fte with extents := old ++ [⟨part, v.d.adj, v.d.slotCap, .adj num⟩, ⟨part, v.d.vec, vecUnits, .vec num⟩] } }

/-- One ring of the breadth-first order of 07 R214: the records of the slots given, and the slots they name. -/
def State.cacheRing (s : State) (p : Nat) (v : SView) (ids : List Nat) : List (Nat × List Byte) × List Nat :=
  let recs := ids.filterMap fun id =>
    let g := s.gpage p (v.d.adj + idSlot id)
    (s.unitOf (s.mapNow g) ((v.d.adj + idSlot id) % 4)).bind fun b => (Adj.parse b id).map fun a => (idSlot id, b, a)
  (recs.map fun r => (r.1, r.2.1), dedupNat ((recs.map fun r => (r.2.2.prim ++ r.2.2.pend).map (·.id)).flatten))

/-- Breadth first from the entry points, ties by slot, until the cache areas of all `f` frets, of `per` records each, are full (07 R214): the records cached, with the slots already met. -/
def State.cacheWalk (s : State) (p : Nat) (v : SView) (per : Nat) : Nat → List Nat → List Nat → List (Nat × Nat × List Byte) × Tab Nat → List (Nat × Nat × List Byte) × Tab Nat
  | 0, _, _, acc => acc
  | fuel + 1, ids, seen, acc =>
    let ids := sortBy (fun a b => decide (idSlot a ≤ idSlot b)) (ids.filter fun i => !seen.contains (idSlot i))
    if ids.isEmpty || decide (acc.1.length ≥ per * v.f) then acc
    else
      let r := s.cacheRing p v ids
      s.cacheWalk p v per fuel r.2 (seen ++ ids.map idSlot) (r.1.foldl (fun (a : List (Nat × Nat × List Byte) × Tab Nat) x =>
        let n := tgetD a.2 (v.fretOf x.1) 0
        if n ≥ per then a else (a.1 ++ [(x.1, n, x.2)], tset a.2 (v.fretOf x.1) (n + 1))) acc)

/-- Fills the adjacency cache of a shard (07 R214): its latest edition reads the new copies, an older one its records from flash. Log entry 153, DEDUCED. -/
def State.fillCache (s : State) (num : Nat) : State :=
  match s.shard num, s.shView num (s.latest (.shard num)) with
  | some x, some v =>
    let per := v.d.cacheUnits * 16
    if per == 0 then s
    else
      let placed := (s.cacheWalk x.part v per (v.st.hwm + 1) v.st.entries [] ([], [])).1
      let us := placed.map fun p => v.upd (v.fretOf p.1) 7 p.2.1 true p.2.2
      -- the copies of an earlier fill give way, those that wait to be folded too
      let covered := fun (o : Overlay) => o.owner == some (.shard num) && us.any fun u => u.fret == o.fret && rangesMeet u.off u.data.length (32 * o.base) (32 * o.cols)
      let s := { s with hbm := { s.hbm with overlays := s.hbm.overlays.filter fun o => !covered o } }
      let s := us.foldl (fun s u => s.hbmWrite u.fret u.off 0 u.data) s
      match x.recs with
      | r :: rest => s.setShard { x with recs := { r with cache := placed.foldl (fun t p => tset t p.1 p.2.1) [] } :: rest.map fun y => { y with cache := [] } }
      | [] => s
  | _, _ => s

/-- A sweep batch of the device has committed: the pass moves on, or ends (07 R246). -/
def State.sweepDone (s : State) (c : Cmd) (num : Nat) : State :=
  if c.origin != .internal || c.opcode != 0x34 || c.f 12 13 12 != 1 then s
  else
    match s.shard num with
    | none => s
    | some x =>
      let next := c.q 13 + c.count
      if next ≥ x.sweep.elim 0 (·.2.1) then (s.setShard { x with sweep := none }).fillCache num
      else s.setShard { x with sweep := x.sweep.map fun p => (next, p.2) }

/-- The descriptor words of an internal CONSOLIDATE. -/
def consolidateWords (num mode first count : Nat) : List Nat :=
  ((((List.replicate 32 0).set 0 0x34).set 5 count).set 12 (num + mode * 4096)).set 13 (first % 2 ^ 32) |>.set 14 (first / 2 ^ 32)

/-- Side fill in percent of SIDE_CAP, in hundredths of an entry (07 R228). -/
def State.sideAtLeast (s : State) (num pct : Nat) : Bool :=
  match s.shard num, s.shView num (s.latest (.shard num)) with
  | some x, some v => decide (100 * s.sideFill x ≥ pct * v.d.sideCap) && decide (s.sideFill x != 0)
  | _, _ => false

/-- An internal side batch of the shard is under way. -/
def State.autoRunning (s : State) (num : Nat) : Bool :=
  s.cmds.any fun c => c.origin == .internal && c.opcode == 0x34 && c.f 12 11 0 == num && c.f 12 13 12 == 0

/-- The chain of 07 R228: another batch until the fill is below LOW percent. -/
def State.autoNext (s : State) (c : Cmd) (num : Nat) : State :=
  let cfg := s.reg32 (pGwe + 0x104)
  if c.origin == .internal && c.opcode == 0x34 && c.f 12 13 12 == 0 && s.sideAtLeast num (fld cfg 30 24) then
    (s.addCmd c.part 0 .pa 0 (consolidateWords num 0 0 (fld cfg 16 0)) 0 .internal).1
  else s

/-- What follows a commit of one target. -/
def State.afterCommit (s : State) (c : Cmd) (g : Stage) : State :=
  match g.target with
  | .region ctx =>
    if g.bind && c.opcode == 0x61 then s else if g.bind then { s with fte := { s.fte with extents := s.fte.extents.filter fun x => match x.use with
      | .spill r _ => r != ctx
      | _ => true } } else s
  | .shard num =>
    let s := if g.bind then (s.bindExtents c.part num).fillCache num else s
    let s := if g.bind && c.opcode == 0x61 && bitOf (c.w 12) 15 then { s with shards := s.shards.map fun x : Shard => if x.num == num then { x with shadow := true } else x } else s
    s.sweepDone c num

/-- Publishes every stage in ascending target order: the first edition, and the state (08 R258, R260). -/
def State.publish (s : State) (c : Cmd) (f : Finish) : State × Nat :=
  (sortBy (fun a b => decide (a.target.key ≤ b.target.key)) c.stages).foldl (fun (x : State × Nat) g =>
    let s := g.delta.release.foldl (fun s lua => s.trimUnit c.part lua c.id true) x.1
    let g := { g with pages := dedupNat (g.pages ++ g.delta.release.map fun lua => s.gpage c.part lua) }
    let (s, e) := s.commitStage c g
    let s := s.logCommit c g.target e f.out
    let s := s.afterCommit c g
    (s, if x.2 == 0 then e else x.2)) (s, 0)

/-! ## The end of a command -/

/-- Selection counters of an ATTEND (06 R177). -/
def State.countHits (s : State) (c : Cmd) (f : Finish) : State :=
  if f.incs.isEmpty then s
  else
    let mig := match s.region c.ctx, f.layer with
      | some r, some l => tgetD r.migEd l 0
      | _, _ => 0
    if mig > s.edOf c (.region c.ctx) then s.bump (pAtt + 0x070) 1
    else match s.regView c.ctx (s.latest (.region c.ctx)), f.layer with
      | some v, some l => (f.incs.filterMap (s.keyCounter v l)).foldl (fun s a => s.devWrite a (leBytes 1 (sat8 (leNat (s.devRead a 1) + 1)))) s
      | _, _ => s

/-- Counts a call of a layer and marks a pass as due (06 R178). -/
def State.countCall (s : State) (c : Cmd) (f : Finish) : State :=
  match f.layer, s.region c.ctx with
  | some l, some r =>
    let n := tgetD r.calls l 0 + 1
    let age := match s.regView c.ctx (s.latest (.region c.ctx)) with
      | some v => v.d.age
      | none => 0
    s.setRegion { r with calls := tset r.calls l n, due := if age != 0 && n % age == 0 && !r.due.contains l then r.due ++ [l] else r.due }
  | _, _ => s

/-- A window command has ended with output written; its late effects, counters and record follow (09 R312). -/
def State.complete (s : State) (c : Cmd) (f : Finish) : State :=
  let s := if c.opcode == 0x20 then (s.countHits c f).countCall c f else s
  let s := if s.selMax < f.bucket then { s with selMax := f.bucket } else s
  let s := if c.opcode == 0x60 && stGood f.status then s.ckptDone c else s
  let s := s.collDrop c.id 0x0102
  s.finish c f

/-- The block part of a forwarded search's answer travels as a collective stream to the root (07 R250). -/
def fanKey : Nat := 2 ^ 75

/-- Node and partition that shadow a shard (13 R407). -/
def mapShadow (img : List Byte) (num : Nat) : Option (Nat × Nat) :=
  let w := le64 img (17472 + 8 * num)
  if img.isEmpty || !bitOf w 48 then none else some (fld w 43 32, fld w 47 44)

/-- A copy of one query on one shard goes to its shadow, with this node's own IDs kept for the comparison; at most 64 are in flight (13 R428). -/
def State.copyWalk (s : State) (c : Cmd) (num node part q : Nat) (ids : List Nat) : State :=
  match s.shard num, s.inputOf c with
  | some x, .ok inp =>
    if x.copies.length ≥ 64 then s
    else
      let n := c.inLen / max 1 c.count
      let (t, s) := s.newTxn
      let dw := c.withWords [(4, n), (5, 1), (12, setFld (setFld (c.w 12) 24 12 1) 11 0 num)]
      let r := s.trySend (s.mkMsg 0x39 node part c.part t (.shadowCopy num dw (slice inp (q * n) n ++ s.searchDesc c))) false
      if r.2 then r.1.setShard { x with copies := x.copies ++ [(t, s.time.lctr, ids)] } else r.1
  | _, _ => s

/-- The walks of a search on shards that have a shadow are copied to it. -/
def State.copyWalks (s : State) (c : Cmd) (f : Finish) : State :=
  let own := match c.origin with
    | .window | .forwarded _ _ _ => true
    | _ => false
  if c.opcode != 0x10 || !own || !stGood f.status || (tget c.got fanKey).isSome then s
  else match s.searchLocals c with
    | .error _ => s
    | .ok (_, l) => l.foldl (fun s x => match mapShadow s.cmp.cur x.1 with
      | none => s
      | some (node, part) => x.2.zipIdx.foldl (fun s o => s.copyWalk c x.1 node part o.2 (o.1.sel.block.entries.map (·.id))) s) s

/-- A command ends, or a search for another node streams its blocks first. -/
def State.endWork (s : State) (c : Cmd) (f : Finish) : State :=
  let s := s.copyWalks c f
  match c.origin with
  | .forwarded node txn part =>
    if c.opcode == 0x10 && stGood f.status && (tget c.got fanKey).isNone then
      let r := s.collJoin c txn node part true (readBlocks c.count f.out)
      if r.2 then r.1.waitOn c (.coll fanKey []) else r.1.complete c { f with status := stCancelled, sub := 0x0102, out := [] }
    else if c.opcode == 0x10 && stGood f.status then s.complete c { f with out := f.out.drop (f.out.length - 32 * c.count) }
    else s.complete c f
  | _ => s.complete c f

/-- The verify of the staged rows: a staged column that cannot be corrected, or an armed injection, makes it fail (03 R96, 07 GWE_ERR_INJ). Log entry 86, DEDUCED. -/
def State.verifyFails (s : State) (c : Cmd) : Option (State × List (Nat × Nat)) :=
  let rows := (c.stages.map (·.rows)).flatten
  match rows.find? fun r => s.armed (pSbc (stackOf r.fret)) 2 || s.poisonedRow r.fret (r.stage * 32) (32 * r.cols) with
  | some r => some (s, [(verifyKey + r.fret, r.stage)])
  | none =>
    if rows.isEmpty then none
    else if (c.opcode == 0x34 || c.opcode == 0x36) && s.armed pGwe 2 then some (s.disarm pGwe 2, [])
    else if c.opcode == opPass && s.armed pAtt 1 then some (s.disarm pAtt 1, []) else none

/-- The part of a split update that lies here fails; the other owners' parts stand, and the outcome is the first in the order of 08 R279. -/
def State.partFails (s : State) (c : Cmd) (f : Finish) (st sub : Nat) (errs : List (Nat × Nat)) : State :=
  let s := errs.foldl (fun s x => s.reportErr ⟨some c.part, c.ctx⟩ x) s
  let w := (worst ((0, st, sub) :: if stGood f.status then [] else [(1, f.status, f.sub)])).getD (st, sub)
  (s.discard c).endWork c { f with status := w.1, sub := w.2, out := [], drop := none, edition := 0, edShard := none }

/-- The stage is written: it waits for its programs, is verified, and goes to its commit phase or its end. -/
def State.settle (s : State) (c : Cmd) (f : Finish) : State :=
  if !s.programmed c.done then
    -- below URGENT percent the programs of stream 0 wait (11 R368)
    ((if c.phase != .run .program && s.urgent c.part && !s.gcStuck c.part then s.bump (pFte + 0x0A8) 1 else s).waitOn c .program).pumpDies
  else
    match s.verifyFails c with
    | some (s, errs) =>
      if c.opcode == 0x31 && !c.batches.isEmpty then s.partFails c f stEcc 0 errs else s.failAny c stEcc 0 0 errs []
    | none =>
      match (s.outFrets c f).find? s.sparingAt with
      | some x => s.waitOn c (.spare x)
      | none =>
      if !s.away c && (isMutating c.opcode || c.opcode == opPass || (c.opcode == 0x20 && (!f.incs.isEmpty || !f.late.isEmpty))) then
        s.modCmd c.id fun x => { x with phase := .staged, since := s.time.lctr }
      else s.endWork c f

/-! ## Admission and running -/

/-- Mutating commands of one context on one local shard or region stage and commit in the order of their admission (08 R281, 09 R316): those admitted before `c`. Log entry 87, DEDUCED. -/
def State.behindOf (s : State) (c : Cmd) : List (Nat × Nat) :=
  if c.origin != .window || !isMutating c.opcode then []
  else
    let ts := s.targets c
    (s.cmds.filter fun x => x.id != c.id && x.ctx == c.ctx && x.origin == .window && x.admitted && isMutating x.opcode && (s.targets x).any ts.contains).map fun x => (x.id, x.reruns)

/-- Those of them that have not committed. -/
def State.ahead (s : State) (c : Cmd) : List Cmd := s.cmds.filter fun x => x.admitted && c.behind.contains (x.id, x.reruns)

/-- All before it have staged: its stage meets theirs as they stand. -/
def State.stageTurn (s : State) (c : Cmd) : Bool := (s.ahead c).all fun x => x.fin.isSome

/-- Its commit may start: those before it have committed; the commands that read a region it replaces have completed (06 R182); no domain it writes to is being replaced (03 R109). -/
def State.commitTurn (s : State) (c : Cmd) (f : Finish) : Bool :=
  (s.ahead c).isEmpty && !((s.outFrets c f).any s.sparingAt) &&
    !(c.stages.any fun g => g.bind && s.cmds.any fun x => x.id != c.id && x.admitted && (s.targets x).contains g.target)

/-- Read editions a command is fixed to when it is tagged (08 R254). -/
def State.tagEds (s : State) (c : Cmd) : Tab Nat :=
  if !isRead c.opcode || (c.opcode == 0x60 && c.barrier && c.edReq == 0) then []
  else (s.targets c).foldl (fun t x => tset t x.key (if c.edReq != 0 then c.edReq else s.latest x)) []

/-- What a FENCE waits for (09 R300). -/
def State.fenceCovers (s : State) (c : Cmd) : List Nat :=
  let mine := fun x : Cmd => x.entered && x.id != c.id && x.origin == .window && (if bitOf (c.w 12) 0 then x.part == c.part else x.ctx == c.ctx)
  let recs := (s.rings.filter fun r => if bitOf (c.w 12) 0 then (s.ctx (r.1 % 4096)).part == c.part else r.1 % 4096 == c.ctx).map fun r => (r.2.held.filter fun x => x.kind == 0).map (·.id)
  dedupNat ((s.cmds.filter mine).map (·.id) ++ recs.flatten ++
    (if bitOf (c.w 12) 1 then (s.cmds.filter fun x => x.part == c.part && x.origin == .internal && x.admitted).map (·.id) else []))

/-- A migration pass that stages gives way to a converting command of its region (06 R180). -/
def State.dropPasses (s : State) (c : Cmd) : State :=
  if c.opcode == opPass then s
  else (s.cmds.filter fun x => x.opcode == opPass && x.admitted && s.convMeets c x).foldl (fun s x => ((s.discard x).dropCmd x.id).bump (pAtt + 0x068) 1) s

/-- A command is held in admission. -/
def State.hold (s : State) (c : Cmd) (h : Hold) : State :=
  if c.phase == .held h then s
  else
    let s := if h == .ordered || h == .fence then s.bump (pCau + 0x060) 1 else s
    let s := if h == .side then s.bump (pGwe + 0x0B0) 1 else s
    let s := if h == .coll then { s with col := { s.col with waits := s.col.waits + 1 } } else s
    s.modCmd c.id fun x => { x with phase := .held h, since := s.time.lctr }

/-- Steps 9 to 11 of 09 R305, the waits of admission, the tag. True: the command goes on. Log entry 162, DEDUCED. Log entry 165, DEDUCED. -/
def State.letIn (s : State) (c : Cmd) : State × Except Halt Bool :=
  -- a logged command has passed its checks at the owner
  if c.origin == .internal && isMutating c.opcode && s.pwr.hold then (s, .ok false)
  else
  -- CAU tags the command with the epoch current at its admission (13 R409)
  let c := if c.origin == .window || c.origin == .internal then { c with epoch := s.epoch } else c
  let check := fun dyn => if c.origin.isReplay then Except.ok () else s.opCheck c dyn
  match s.holdWhy c with
  | some h =>
    -- what depends on the published state is checked when the wait ends
    match check false with
    | .error e => (s, .error e)
    | .ok _ => (s.hold c h, .ok false)
  | none =>
    match check true with
    | .error h => (s, .error h)
    | .ok _ =>
      let units := if (c.origin == .window || c.origin.isForwarded) && c.reruns == 0 then 1 else 0
      match s.charge c.part 0 units with
      | none => (s.waitCapo c 0 1, .ok false)
      | some s =>
        let s := s.dropPasses c
        let s := if units == 1 && c.origin == .window then s.bump (pCau + 0x040) 1 else s
        -- the origin learns that the owner has admitted its request (12 R394)
        let s := match c.origin with
          | .forwarded node txn part => if isMutating c.opcode && c.reruns == 0 then s.putMsg (s.mkMsg 0x22 node part c.part txn .empty) else s
          | _ => s
        (s.modCmd c.id fun x => { x with admitted := true, epoch := c.epoch, admitAt := s.time.lctr, behind := s.behindOf c, phase := .run .none, eds := if x.eds.isEmpty then s.tagEds c else x.eds,
                                         covers := if c.opcode == 0x7F then s.fenceCovers c else x.covers }, .ok true)

/-- A command stops where it stands. -/
def State.halt (s : State) (c : Cmd) : Halt → State × Bool
  | .wait n => s.park c n
  | .refuse st sub n => if c.admitted then (s.failAny c st sub n [] [], false) else (s.turnAway c st sub n, false)
  | .fail st sub n errs bumps => if st == stStale then s.stale c sub else (s.failAny c st sub n errs bumps, false)

/-- One stretch of a command's processing. -/
def State.runCmd (s : State) (c : Cmd) : State × Bool :=
  if !c.admitted then
    match s.yieldAll.letIn c with
    | (s, .ok b) => (s, b)
    | (s, .error h) => s.halt c h
  else
    match c.fin with
    | some f => (s.settle c f, false)
    | none =>
      match s.opWork c with
      | .error h => s.halt c h
      | .ok d =>
        if !s.stageTurn c then (s.waitOn c .turn, false) else
        match s.accept c d with
        | (s, .ok b) => (s, b)
        | (s, .error h) => s.halt ((s.cmd c.id).getD c) h

/-- A command runs until it waits or ends. -/
def State.advance : Nat → State → Nat → State
  | 0, s, _ => s
  | fuel + 1, s, id =>
    match s.cmd id with
    | none => s
    | some c =>
      let r := s.runCmd c
      if r.2 then State.advance fuel r.1 id else r.1

/-- How many waits a command can pass in one go. -/
def runFuel : Nat := 1000000

/-- Runs a command until it waits or ends. An internal command does not start while its partition's allocation is 0 (10 R339). -/
def State.run (s : State) (id : Nat) : State :=
  match s.cmd id with
  | some c => if c.origin == .internal && c.phase == .queued && (s.part c.part).units == 0 then s else State.advance runFuel s id
  | none => s

/-- Data a command has asked for arrives. -/
def State.deliver (s : State) (id key : Nat) (d : List Byte) : State :=
  (s.modCmd id fun x => { x with got := tset x.got key d, phase := .run .none }).run id

/-- Admits a command again under the current epoch. -/
def State.readmit (s : State) (c : Cmd) : State := let r := s.again c; if r.2 then r.1.run c.id else r.1

end Sys2Proof.Machine
end

