-- ==== Sys2Proof/Machine/Opcodes.lean ====
section
/-! DEFINITION. The descriptors' opcodes as commands, and the events that let a waiting command go on (spec 09 R299, R305, 02 R58, 07 R227, R241, 08 R256, 10 R329, R338). Each opcode's row takes the descriptor at the head of a context's queue. -/

namespace Sys2Proof.Machine

/-- The command of a context that is to be admitted next: the oldest that is not, whether queued, waiting in admission or killed (09 R316, 10 R329). Log entry 158, DEDUCED. -/
def State.headOf (s : State) (ctx : Nat) : Option Cmd := s.cmds.find? fun c => c.ctx == ctx && c.origin == .window && !c.admitted

/-- Admits the head of a context's queue when it carries the opcode; any other state is left as it is (log entry 63, DESIGN CHOICE). -/
def State.admitHead (s : State) (ctx op : Nat) : State :=
  match s.headOf ctx with
  | some c => if c.opcode == op && c.phase == .queued then s.run c.id else s
  | none => s

def execNop (ctx : Nat) (s : State) : Answer := .next (s.admitHead ctx 0x01)

/-- A FENCE at the head is admitted; one that waits looks again (09 R300). -/
def execFence (ctx : Nat) (s : State) : Answer :=
  match s.cmds.find? fun c => c.ctx == ctx && c.opcode == 0x7F && c.admitted with
  | some c => .next (s.run c.id)
  | none => .next (s.admitHead ctx 0x7F)

def execCorpusSearch (ctx : Nat) (s : State) : Answer := .next (s.admitHead ctx 0x10)
def execScan (ctx : Nat) (s : State) : Answer := .next (s.admitHead ctx 0x11)
def execRerank (ctx : Nat) (s : State) : Answer := .next (s.admitHead ctx 0x12)
def execAttend (ctx : Nat) (s : State) : Answer := .next (s.admitHead ctx 0x20)
def execKvAppend (ctx : Nat) (s : State) : Answer := .next (s.admitHead ctx 0x21)
def execKvTrim (ctx : Nat) (s : State) : Answer := .next (s.admitHead ctx 0x22)
def execGather (ctx : Nat) (s : State) : Answer := .next (s.admitHead ctx 0x30)
def execScatterUpdate (ctx : Nat) (s : State) : Answer := .next (s.admitHead ctx 0x31)
def execInsert (ctx : Nat) (s : State) : Answer := .next (s.admitHead ctx 0x32)
def execDelete (ctx : Nat) (s : State) : Answer := .next (s.admitHead ctx 0x33)
def execConsolidate (ctx : Nat) (s : State) : Answer := .next (s.admitHead ctx 0x34)
def execPrefetch (ctx : Nat) (s : State) : Answer := .next (s.admitHead ctx 0x35)
def execBuildGraph (ctx : Nat) (s : State) : Answer := .next (s.admitHead ctx 0x36)
def execCalibrate (ctx : Nat) (s : State) : Answer := .next (s.admitHead ctx 0x40)
def execRequant (ctx : Nat) (s : State) : Answer := .next (s.admitHead ctx 0x41)
def execTopkMerge (ctx : Nat) (s : State) : Answer := .next (s.admitHead ctx 0x50)
def execCheckpoint (ctx : Nat) (s : State) : Answer := .next (s.admitHead ctx 0x60)
def execRestore (ctx : Nat) (s : State) : Answer := .next (s.admitHead ctx 0x61)
def execFlashTrim (ctx : Nat) (s : State) : Answer := .next (s.admitHead ctx 0x70)
def execFlashRead (ctx : Nat) (s : State) : Answer := .next (s.admitHead ctx 0x71)
def execFlashWrite (ctx : Nat) (s : State) : Answer := .next (s.admitHead ctx 0x72)

/-! ## Waits that end -/

/-- A command held in admission looks again; a FENCE that waits does too (02 R58, 09 R296, R300). -/
def execAdmissionWaitEnd (cmd : Nat) (s : State) : Answer :=
  match s.cmd cmd with
  | some c => match c.phase with
    | .held _ => .next (s.run cmd)
    | .run .none => if c.opcode == 0x7F then .next (s.run cmd) else .next s
    | _ => .next s
  | none => .next s

/-- SIDE_TMO has passed since an INSERT was held (07 R227). -/
def execSideFull (cmd : Nat) (s : State) : Answer :=
  match s.cmd cmd with
  | some c =>
    if c.phase == .held .side && decide (s.time.lctr ≥ c.since + fld (s.reg32 (pGwe + 0x10C)) 31 16 * 2 ^ 14) then .next (s.turnAway c stSideFull 0x0960 0)
    else .next s
  | none => .next s

/-- The thing a stage waits for is free (07 R241, 03 R98, 11 R367). -/
def State.stageFree (s : State) (c : Cmd) : Bool :=
  match c.phase with
  | .run (.slot shard slot _) => !(s.cmds.any fun x => x.id != c.id && s.holdsSlot x shard slot)
  | .run (.walk mem) => (s.walkRoom c.part mem).isSome
  | .run (.overlay f) => decide (s.ovlUsed f < 256)
  | .run (.page g _) => !s.pageHeld c.id g
  | .run .turn => s.stageTurn c
  | _ => false

def execStageResume (cmd : Nat) (s : State) : Answer :=
  let s := s.yieldAll
  match s.cmd cmd with
  | some c => if s.stageFree c then .next (s.run cmd) else .next s
  | none => .next s

/-! ## The log: readers, replay (13 R426) -/

def State.setReader (s : State) (r r' : LogReader) : State := { s with cmp := { s.cmp with logReqs := s.cmp.logReqs.map fun x => if x == r then r' else x } }

/-- Sends a reader the parts its credit allows, of the records from the one it wants next. -/
def State.pushLog (s : State) (r : LogReader) : Nat → State
  | 0 => s
  | n + 1 =>
    match (s.area (.shard r.shard)).bind fun a => (a.log.find? fun l => decide (r.next ≤ l.1)).map fun l => (a.part, l) with
    | none => s
    | some (part, e, b) =>
      if r.credit == 0 then s
      else
        let off := if r.next == e then r.off else 0
        let d := (b.drop off).take 4096
        let s := s.sendMsg (s.mkMsg 0x38 r.node r.part part r.txn (.logData r.shard e false d))
        let r' := if off + d.length ≥ b.length then { r with next := e + 1, off := 0, credit := r.credit - 1 } else { r with next := e, off := off + d.length, credit := r.credit - 1 }
        (s.setReader r r').pushLog r' n

/-- Every reader takes what has been published. -/
def State.pushLogs (s : State) : State := s.cmp.logReqs.foldl (fun s r => s.pushLog r 8) s

/-- Asks the owner of a shard for the records from an edition on. -/
def State.askLog (s : State) (num first : Nat) : State :=
  match s.shard num, mapOwner s.cmp.cur num with
  | some x, some (node, part) =>
    let (t, s) := s.newTxn
    let s := s.setShard { x with logCredit := 8 }
    s.putMsg (s.mkMsg 0x37 node part x.part t (.logReq num first 8))
  | _, _ => s

/-- A logged command enters the queue of its target (13 R426). -/
def State.addReplay (s : State) (part ctx e : Nat) (b : List Byte) : State :=
  let l := LogRec.parse b
  let r := s.addCmd part ctx .pa 0 l.dw 0 (.replay e)
  r.1.modCmd r.2 fun c => { c with covers := l.ids, input := l.input, got := if l.side.isEmpty then [] else [(l.key, l.side)] }

/-- The oldest logged command of a target that has not begun goes on; with none left, replay is complete. Log entry 92, DEDUCED. -/
def State.replayGo (s : State) (t : Target) : State :=
  match s.cmds.find? fun c => c.origin.isReplay && (s.targets c).contains t with
  | some c => if c.admitted then s else s.run c.id
  | none => match t with
    | .shard n => { s with shards := s.shards.map fun x : Shard => if x.num == n && !x.shadow then { x with replaying := false } else x,
                           cmp := { s.cmp with finalWait := s.cmp.finalWait.filter (· != 4096 + n) } }
    | .region _ => s

/-- After the images: the records of the local log, or those the owner sends. `old` is the state before the commit. -/
def State.replayFor (s old : State) (c : Cmd) : State :=
  let t := c.kTarget
  let e := match old.restoreImages c with
    | .ok is => (is.getLast?).elim 0 (·.edition)
    | .error _ => 0
  if bitOf (c.w 12) 15 then
    match t with
    | .shard n => ({ s with shards := s.shards.map fun x : Shard => if x.num == n then { x with replaying := true, replayNext := e + 1, logBuf := [] } else x } : State).askLog n (e + 1)
    | .region _ => s
  else
    match old.area t with
    | none => s
    | some a =>
      -- an image later than those restored has taken the place of records of the log
      if a.images.any fun i => i.2.1 == 0 && decide (i.1 > e) then s.replayStop t
      else
        let recs := a.log.filter fun l => decide (l.1 > e)
        let s := recs.foldl (fun s l => s.addReplay a.part t.ctxOf l.1 l.2) s
        let s := match t with
          | .shard n => if recs.isEmpty then s else { s with shards := s.shards.map fun x : Shard => if x.num == n then { x with replaying := true } else x }
          | .region _ => s
        s.replayGo t

/-- What a commit leads to: readers are served, a restore goes on with its log, a replay with its next record. -/
def State.afterPublish (s old : State) (c : Cmd) : State :=
  let s := if s.cmp.logReqs.isEmpty then s else s.pushLogs
  if c.opcode == 0x61 && bitOf (c.w 12) 14 then s.replayFor old c else s

/-- `EDITION_USED` of a mutating command: the edition of what it published first here, or of a lower shard of another partition (08 R277). -/
def Finish.editionUsed (f : Finish) (stages : List Stage) (mine : Nat) : Nat :=
  let low := (stages.filter (·.changed)).filterMap fun g => match g.target with
    | .shard n => some n
    | .region _ => none
  match f.edShard with
  | some n => if low.all fun m => decide (n < m) then f.edition else mine
  | none => mine

/-- The commit phase of a verified stage, then the command's end; none starts in HOLD (08 R256, 15 R466). -/
def execCommitPhase (cmd : Nat) (s : State) : Answer :=
  let s0 := s
  match s.cmd cmd with
  | some c =>
    match c.phase, c.fin with
    | .staged, some f =>
      if s.held || !s.commitTurn c f then .next s
      else
        let r := s.publish c f
        let s := match c.origin with
          | .forwarded _ _ _ => r.1.bump (pUpd + 0x060) 1
          | _ => r.1
        let s := (s.shards.map (·.num)).foldl (fun s n => if c.stages.any fun g => g.target == .shard n then s.autoNext c n else s) s
        let t := (s.endWork c (if isMutating c.opcode then { f with edition := f.editionUsed c.stages r.2 } else f)).afterPublish s0 c
        .next (if c.origin.isReplay then (s0.targets c).foldl (fun t x => t.replayGo x) (t.bump (pCmp + 0x078) 1) else t)
    | _, _ => .next s
  | none => .next s

/-- Memory for a sub-batch is free (10 R338). -/
def execSubBatchStart (cmd : Nat) (s : State) : Answer :=
  match s.cmd cmd with
  | some c => match c.phase with
    | .run (.sram u items) => if (s.takeSram c u items).isSome then .next (s.run cmd) else .next s
    | _ => .next s
  | none => .next s

/-- What a killed command had been using is free, and nothing more urgent of its partition waits (10 R329). -/
def State.mayRerun (s : State) (c : Cmd) : Bool :=
  c.phase == .killed && !(s.cmds.any fun x => x.part == c.part && decide (x.prio > c.prio) && (match x.phase with
    | .run .frets | .run (.array _ _) | .run (.sram _ _) | .run .walks | .run (.walk _) => true
    | _ => false))

def execCommandRerun (cmd : Nat) (s : State) : Answer :=
  match s.cmd cmd with
  | some c => if s.mayRerun c then .next ((s.modCmd cmd fun x => { x with phase := .queued }).run cmd) else .next s
  | none => .next s

end Sys2Proof.Machine
end

