-- ==== Sys2Proof/Machine/HostPorts.lean ====
section
/-! DEFINITION. Host ports: push windows, submission, completion rings, MSI-X, host reads, links, resets, ownership (spec 09 R282 to R294, R305, R308 to R313, R317 to R320, 17 R510). -/

namespace Sys2Proof.Machine

/-! ## Who reaches a register (16 R477, R490; 15 R460) -/

/-- A page answers an agent: it exists, its power domain is on, it is not the DBG page of a device locked as a whole (14 R453), start has reached stage 2 or it is one of the first five (15 R457) or serves the loading of firmware that start waits for (14 R437), and a VF reaches its own page only. Log entry 99, DEDUCED. -/
def State.reaches (s : State) (a : Agent) (off : Nat) : Bool :=
  match pageOf off with
  | none => false
  | some g =>
    s.powered g.domain && !(g.ty == 0x7F && s.devLocked) && (off / 4096 < 5 || (s.pwr.stage.elim false fun n => decide (n ≥ 2)) || (s.sec.noPatch && g.ty == 0x34)) && (match a with
      | .mgmt => true
      | .host p 0 => (s.port p).up
      | .host p n => (s.port p).up && n ≤ 16 && g.ty == 0x10 && off / 4096 * 4096 == pHif p && (off % 4096 < 0x100 || (0x120 ≤ off % 4096 && off % 4096 ≤ 0x130)))

/-- Where an access of an agent's BAR0 lands in the register map: a VF's BAR0 is its 4 KiB page (09 HIF registers). -/
def barOff (a : Agent) (off : Nat) : Nat :=
  match a with
  | .host p (_ + 1) => if off < 4096 then pHif p + off else 2 ^ 32
  | _ => off

/-- The HIF page an agent's write lands on: a VF's own port (09 HIF registers). -/
def agentPort : Agent → Port → Bool
  | .host p (_ + 1), q => p == q
  | _, _ => true

/-- A VF touches contexts of its own partition only. -/
def State.ringShown (s : State) (a : Agent) (ctx : Nat) : Bool :=
  match a with
  | .host _ (n + 1) => (s.ctx ctx).part == n
  | _ => true

/-! ## Push windows (09 R286, R290 to R293) -/

def State.owns (s : State) (p : Port) (part : Nat) : Bool := bitOf (s.port p).own part

/-- The partition's IDE stream on a port is keyed (14 R447). -/
def State.ideKeyed (s : State) (p : Port) (part : Nat) : Bool := (tget s.sec.ide (p.idx * 16 + part)).isSome

/-- A window is live (09 R286, R317; 14 R447; 09 R319). -/
def State.windowLive (s : State) (p : Port) (fn ctx : Nat) : Bool :=
  let e := s.ctx ctx
  (e.state == .ready || e.state == .faulted) && s.owns p e.part && !bitOf (s.port p).rel e.part && fn == s.submitFn p e.part &&
    (s.ring p ctx).en && (!s.confidential e.part || s.ideKeyed p e.part) && s.powered (3 + p.idx) && (s.port p).up

/-- Steps 1 to 8 of 09 R305: status and SUBSTATUS of a descriptor that is turned away. -/
def State.generalCheck (s : State) (c : Cmd) : Option (Nat × Nat) :=
  let e := s.ctx c.ctx
  firstSome
    [(bitOf (s.reg32 (pCmp + 0x11C)) c.part, (stFenced, 0)),
     (e.state == .off || e.state == .draining, (stCtxFault, 0x0970)),
     (e.state == .faulted, (stCtxFault, 0x0971)),
     (c.f 0 11 8 != 1 && c.f 0 11 8 != 2, (stVersion, 0x0201)),
     (!opcodes.contains c.opcode, (stOpcode, 0)),
     (match permBit c.opcode with
       | some b => !bitOf (s.reg32 (regKey (pCau + 0x108) c.part)) b
       | none => false, (stDenied, 0x0930)),
     (c.f 1 27 16 != c.ctx, (stField, 0x0903)),
     (c.f 0 31 20 != 0 || c.f 1 31 28 != 0 || (c.ties && !isSelecting c.opcode) || (c.f 0 11 8 == 1 && (c.ordered || c.edReq != 0)), (stField, 0x0902))]

/-- A descriptor is submitted (09 R290, R293, R297, R305). Log entry 159, DEDUCED. -/
def State.submit (s : State) (p : Port) (fn ctx : Nat) (dw : List Nat) (torn : Option Nat) : State :=
  if s.inflight p ctx ≥ 64 then (s.bump (pHif p + 0x068) 1).raise (pHif p) 0
  else
    let s := s.bump (pHif p + 0x040) 1
    let part := (s.ctx ctx).part
    let want := fld (dw.getD 0 0) 15 12
    let cap := fld (s.reg32 (regKey (pCau + 0x108) part)) 3 0
    let (s, id) := s.addCmd part ctx p fn dw (min want cap) .window
    match s.cmd id with
    | none => s
    | some c =>
      match torn with
      | some tag => s.refuseCmd { c with dw := (List.replicate 32 0).set 1 tag } stField 0x0901 0
      | none =>
        if s.armed pCau 0 then ((s.disarm pCau 0).raiseAt pCau 0 ⟨some part, ctx⟩).refuseCmd c stMedia 0x0944 0
        else if s.armed pCtx 0 && (s.ctx ctx).state != .faulted then
          (((s.disarm pCtx 0).raiseAt pCtx 0 ⟨some part, ctx⟩).faultCtx ctx 2 (some (id, stMedia, 0x0944)))
        else
          -- a context that is FAULTED already is not faulted again (10 R332)
          let s := if s.armed pCtx 0 then ((s.disarm pCtx 0).raiseAt pCtx 0 ⟨some part, ctx⟩).logEvent pCtx 5 2 ⟨some part, ctx⟩ 2 0 else s
          match s.generalCheck c with
          | some (st, sub) => s.refuseCmd c st sub 0
          | none => if want > cap then s.bump (pCau + 0x058) 1 else s

def slotKey (ctx slot : Nat) : Nat := ctx * 32 + slot

/-- One byte reaches a slot (09 R290, R291). Log entry 154, DEDUCED. -/
def State.slotByte (s : State) (p : Port) (fn ctx off : Nat) (b : Byte) : State :=
  let k := slotKey ctx (off / 128)
  let i := off % 128
  let x := (tget (s.port p).slots k).getD { data := zeros 128, mask := 0 }
  let put := fun (y : Slot) => ({ data := y.data.set i b, mask := setBit y.mask i true } : Slot)
  if bitOf x.mask i then
    let tag := if bitOf x.mask 4 && bitOf x.mask 5 then le16 x.data 4 else 0xFFFF
    let s := (s.bump (pHif p + 0x060) 1).submit p fn ctx [] (some tag)
    s.modPort p fun y => { y with slots := tset y.slots k (put { data := zeros 128, mask := 0 }) }
  else
    let y := put x
    if y.mask == 2 ^ 128 - 1 then
      (s.modPort p fun z => { z with slots := tdel z.slots k }).submit p fn ctx (words32 32 y.data) none
    else s.modPort p fun z => { z with slots := tset z.slots k y }

/-- The bytes of a write to one window. -/
def State.windowBytes (s : State) (p : Port) (fn ctx : Nat) : Nat → List Byte → State
  | _, [] => s
  | off, b :: r => (s.slotByte p fn ctx off b).windowBytes p fn ctx (off + 1) r

/-- The parts of a write by window. -/
def windowParts : Nat → Nat → List Byte → List (Nat × List Byte)
  | 0, _, _ => []
  | f + 1, off, l =>
    if l.isEmpty then []
    else let n := 4096 - off % 4096; (off, l.take n) :: windowParts f (off + n) (l.drop n)

def execPushWindowWrite (port : Port) (fn off : Nat) (data : List Byte) (s : State) : Answer :=
  .next ((windowParts (data.length / 4096 + 2) off data).foldl (fun s x =>
    let ctx := x.1 / 4096 % 4096
    if s.windowLive port fn ctx then s.windowBytes port fn ctx (x.1 % 4096) x.2
    else (s.bump (pHif port + 0x058) 1).raise (pHif port) 1) s)

/-! ## Host reads (09 R289) -/

def execHostReadCompletion (cmd key : Nat) (data : List Byte) (s : State) : Answer :=
  match s.cmd cmd with
  | some c => match c.phase with
    | .run (.host k _ len) => if k == key then .next (s.deliver cmd key (slice data 0 len)) else .next s
    | _ => .next s
  | none => .next s

def execHostReadError (cmd key : Nat) (s : State) : Answer :=
  match s.cmd cmd with
  | some c => match c.phase with
    | .run (.host k _ _) =>
      if k == key then
        let s := (s.bump (pHif c.port + 0x078) 1).raiseAt (pHif c.port) 2 ⟨some c.part, c.ctx⟩
        .next (if c.admitted then s.failAny c stMedia 0x0940 0 [] [] else s.turnAway c stMedia 0x0940 0)
      else .next s
    | _ => .next s
  | none => .next s

/-! ## Completion rings (09 R308) -/

/-- A write of HIF_RING_CFG's fields but EN; SIZE is ignored while the ring is enabled. -/
def Ring.cfg (r : Ring) (v : Nat) : Ring :=
  let n := fld v 30 27
  { r with size := if !r.en && 6 ≤ n && n ≤ 12 then n else r.size, vector := fld v 26 16, coalCnt := fld v 15 8, coalUs := fld v 7 0 }

/-- Setting EN: a grant at entry 0, then the held records (09 R308, R319). Records whose message is still to come keep their count (09 R313). -/
def State.ringOn (s : State) (p : Port) (ctx v : Nat) : State :=
  let r := (s.ring p ctx).cfg v
  if r.en then s.setRing p ctx r
  else
    let ed := if r.note == 1 then s.latest (.region ctx) else 0
    let g := grantRec ctx r.note (if r.note == 1 then r.killed else 0) (if r.note == 1 then r.lost else 0) ed
    let s := s.setRing p ctx { r with en := true, tail := 0, phase := true, note := 0, killed := 0, lost := 0, held := g :: r.held }
    s.drainRing p ctx

/-- EN is cleared: the credits software holds are void, a grant that was not yet written too (09 R292); what it was to tell stays for the next. -/
def Ring.close (r : Ring) : Ring :=
  match r.held.find? fun x => x.kind == 1 with
  | none => { r with en := false }
  | some g => { r with en := false, held := r.held.filter (fun x => x.kind != 1), note := if r.note == 0 then g.sub else r.note,
                       killed := r.killed + g.counter, lost := r.lost + g.result }

def State.ringOff (s : State) (p : Port) (ctx v : Nat) : State := s.setRing p ctx ((s.ring p ctx).cfg v).close

/-- A write of HIF_RING_CFG with EN as given. Log entry 164, DEDUCED. -/
def State.ringWrite (s : State) (a : Agent) (p : Port) (v : Nat) : State :=
  let ctx := s.selOf a (pHif p + 0x120) % 4096
  if !s.reaches a (pHif p + 0x12C) || !s.ringShown a ctx then s
  else if bitOf v 31 then s.ringOn p ctx v else s.ringOff p ctx v

def execRingEnable (a : Agent) (port : Port) (v : Nat) (s : State) : Answer :=
  if bitOf v 31 then .next (s.ringWrite a port v) else .next s

def execRingDisable (a : Agent) (port : Port) (v : Nat) (s : State) : Answer :=
  if bitOf v 31 then .next s else .next (s.ringWrite a port v)

/-! ## MSI-X (09 R313) -/

/-- COAL_US has passed since the first record without its message. -/
def execMsixCoalesceTimer (ctx : Nat) (s : State) : Answer :=
  .next ([Port.pa, .pb].foldl (fun s p =>
    let r := s.ring p ctx
    if r.coal != 0 && r.coalUs != 0 && decide (s.time.lctr ≥ r.coalAt) then
      (s.setRing p ctx { r with coal := 0 }).sendMsix p (s.submitFn p (s.ctx ctx).part) r.vector
    else s) s)

/-- What PCIe configuration does to MSI-X; a vector that becomes free to send and is pending is sent. -/
def State.msixSet (s : State) (p : Port) (fn : Nat) (op : MsixOp) : State :=
  let has := fun v => decide (v < (pcieFn (s.port p).bar4 fn).msix)
  let m := s.msixFn p fn
  let m := match op with
    | .enable on => { m with en := on }
    | .maskAll on => { m with maskAll := on }
    | .mask v => { m with open' := m.open'.filter (· != v) }
    | .unmask v => if m.open'.contains v || !has v then m else { m with open' := m.open' ++ [v] }
  let free := m.pend.filter fun v => m.en && !m.maskAll && m.open'.contains v
  let s := s.modPort p fun x => { x with msix := tset x.msix fn { m with pend := m.pend.filter fun v => !free.contains v } }
  free.foldl (fun s v => s.sendMsix p fn v) s

def execMsixUnmask (port : Port) (fn : Nat) (op : MsixOp) (s : State) : Answer := .next (s.msixSet port fn op)

/-! ## Links and resets (09 R313, R318, R320; 17 R510) -/

def execPcieLinkDown (port : Port) (s : State) : Answer :=
  if !(s.port port).up then .next s
  else .next ((s.modPort port fun x => { x with up := false, speed := 0, width := 0, flit := false, downAt := s.time.lctr }).raise (pHif port) 4)

def State.drainAll (s : State) (p : Port) : State :=
  (s.rings.filter fun r => r.1 / 4096 == p.idx).foldl (fun s r => s.drainRing p (r.1 % 4096)) s

def execPcieLinkUp (port : Port) (speed width : Nat) (flit : Bool) (s : State) : Answer :=
  if (s.port port).up || !s.powered (3 + port.idx) || !([4, 5, 6].contains speed && [1, 2, 4, 8, 16].contains width) then .next s
  else
    let s := s.modPort port fun x => { x with up := true, speed := speed, width := width, flit := flit || speed == 6 }
    let s := s.modPort port.other fun x => { x with peerDown := false }
    .next (s.drainAll port)

/-- The contexts of a partition. -/
def State.ctxsOf (s : State) (part : Nat) : List Nat := (List.range 4096).filter fun c => (tget s.ctxs c).elim (part == 0) fun e => e.part == part

/-- Steps 2 to 4 of 09 R319: every command of the partition ends that came through the port or from another node or partition, and the device's own begin again. What a restore or a shadow replays goes on. Log entry 155, DEDUCED. -/
def State.killPart (s : State) (p : Port) (part sub : Nat) (discard : Bool) : State :=
  let mine := s.cmds.filter fun c => c.part == part && ((c.port == p && c.origin == .window) || c.origin.isForwarded)
  let s := mine.foldl (fun s c => s.endCmd c stCancelled sub) s
  let own := s.cmds.filter fun c => c.part == part && c.origin == .internal && c.entered
  let s := own.foldl (fun s c => s.restartOwn c) s
  if !discard then s
  else
    let rs := s.rings.filter fun r => r.1 / 4096 == p.idx && (s.ctx (r.1 % 4096)).part == part
    rs.foldl (fun s r =>
      let n := (r.2.held.filter fun x => x.kind == 0).length
      let s := s.setRing p (r.1 % 4096) { s.ring p (r.1 % 4096) with held := [], lost := r.2.lost + n }
      if n == 0 then s else (s.bump (pHif p + 0x070) n).raiseAt (pHif p) 3 (partAttr part)) s

/-- A session of a partition on a port ends, and its IDE stream loses its keys (14 R443). -/
def State.endSession (s : State) (p : Port) (part : Nat) : State :=
  { s with sec := { s.sec with sessions := s.sec.sessions.filter fun x : Session => !(x.part == part && x.port == p), ide := tdel s.sec.ide (p.idx * 16 + part) } }

/-- A function reset of one partition (09 R320): its records are discarded, its rings disabled. -/
def State.flrPart (s : State) (p : Port) (part : Nat) : State :=
  -- a record of a command that the reset ends is never written
  let up := (s.port p).up
  let s := s.modPort p fun x => { x with up := false }
  let s := (s.killPart p part 0x0921 true).endSession p part
  let s := s.modPort p fun x => { x with up := up, slots := x.slots.filter fun e => (s.ctx (e.1 / 32)).part != part }
  (s.ctxsOf part).foldl (fun s c => match tget s.rings (ringKey p c) with
    | some r => s.setRing p c { r with en := false, held := [], coal := 0, note := 2 }
    | none => s) s

/-- A reset of the PF or of the port: every partition the port owns (09 R320, 17 R510). -/
def State.portReset (s : State) (p : Port) : State :=
  let s := ((List.range 16).filter (s.owns p)).foldl (fun s part => s.flrPart p part) s
  s.modPort p fun x => { x with msix := [] }

def execFunctionLevelReset (port : Port) (fn : Nat) (whole : Bool) (s : State) : Answer :=
  if whole || fn == 0 then .next (s.portReset port)
  else if fn ≤ 16 then
    let s := if s.owns port (fn - 1) then s.flrPart port (fn - 1) else s
    .next (s.modPort port fun x => { x with msix := tdel x.msix fn })
  else .next s

/-- PERST_N also takes the port's link down (17 R510). -/
def execPerst (port : Port) (s : State) : Answer :=
  let s := s.portReset port
  if (s.port port).up then
    .next ((s.modPort port fun x => { x with up := false, speed := 0, width := 0, flit := false, downAt := s.time.lctr }).raise (pHif port) 4)
  else .next s

/-! ## Ownership (09 R317 to R319) -/

/-- The partitions named by the low 16 bits of a mask. -/
def maskParts (m : Nat) : List Nat := bitsOf 16 m

def execRelease (a : Agent) (port : Port) (mask : Nat) (s : State) : Answer :=
  if !s.reaches a (pHif port + 0x10C) then .next s
  else .next (s.modPort port fun x => { x with rel := x.rel ||| (mask &&& x.own) % 2 ^ 16 })

/-- A partition moves to a port that asked for it. -/
def State.own (s : State) (p : Port) (part : Nat) : State :=
  s.modPort p fun x => { x with own := setBit x.own part true, pend := setBit x.pend part false, first := setBit x.first part false }

/-- The port whose request for a partition was seen first (09 R318). -/
def State.nextOwner (s : State) (part : Nat) : Option Port :=
  ([Port.pa, .pb].filter fun p => bitOf (s.port p).pend part && (bitOf (s.port p).first part || !bitOf (s.port p.other).pend part)).head?

def execReleaseComplete (port : Port) (part : Nat) (s : State) : Answer :=
  let busy := (s.cmds.any fun c => c.part == part && c.port == port && c.origin == .window) ||
    s.rings.any fun r => r.1 / 4096 == port.idx && (s.ctx (r.1 % 4096)).part == part && r.2.held.any fun x => x.kind == 0
  if part ≥ 16 || !bitOf (s.port port).rel part || busy || !(s.port port).up then .next s
  else
    let s := (s.modPort port fun x => { x with own := setBit x.own part false, rel := setBit x.rel part false }).endSession port part
    .next (match s.nextOwner part with
      | some p => s.own p part
      | none => s)

/-- A request for one partition without FORCE (09 R318). -/
def State.take1 (s : State) (p : Port) (part : Nat) : State :=
  if s.owns p part && !bitOf (s.port p).rel part then s
  else if s.owns p part || s.owns p.other part then
    if bitOf (s.port p).pend part then s
    else
      let first := !bitOf (s.port p.other).pend part
      s.modPort p fun x => { x with pend := setBit x.pend part true, first := setBit x.first part first }
  else s.own p part

/-- Before stage 5 a take is ignored (15 R457). -/
def execTake (a : Agent) (port : Port) (mask : Nat) (s : State) : Answer :=
  if !s.reaches a (pHif port + 0x110) || s.pwr.stage != some 5 then .next s else .next ((maskParts mask).foldl (fun s q => s.take1 port q) s)

/-- Authority is open for this partition and port (15 R475). -/
def State.authFor (s : State) (p : Port) (part : Nat) : Bool :=
  match s.mgt.auth with
  | some (q, port, _) => q == part && port == p
  | none => false

/-- Forced takeover from the other port is acceptable: its link down for GRACE, or authority (09 R318). -/
def State.mayForce (s : State) (p : Port) (part : Nat) : Bool := (s.port p).peerDown || s.authFor p part

/-- Forced takeover of one partition (09 R319); of one that the other port does not own it needs authority, and is then a take (log entry 167, DEDUCED). -/
def State.force1 (s : State) (p : Port) (part : Nat) : State :=
  let old := p.other
  if !s.owns old part then
    if s.authFor p part then State.take1 { s with mgt := { s.mgt with auth := none } } p part else s.raiseAt (pHif p) 5 (partAttr part)
  else if !s.mayForce p part then s.raiseAt (pHif p) 5 (partAttr part)
  else
    let mine := s.cmds.filter fun c => c.part == part && c.port == old && c.origin == .window
    let before := s
    let s := s.killPart old part 0x0920 (!(s.port old).up)
    let s := s.modPort old fun x => { x with own := setBit x.own part false, rel := setBit x.rel part false, slots := x.slots.filter fun e => (s.ctx (e.1 / 32)).part != part }
    let s := (s.own p part).endSession old part
    let s := if (s.port p).peerDown then s else { s with mgt := { s.mgt with auth := none } }
    (s.ctxsOf part).foldl (fun s c =>
      let killed := (mine.filter fun x => x.ctx == c).length
      let lost := (s.ring old c).lost - (before.ring old c).lost
      let s := if lost == 0 then s else s.setRing old c { s.ring old c with lost := 0 }
      if killed == 0 && lost == 0 then (match tget s.rings (ringKey p c) with
        | some r => s.setRing p c r.close
        | none => s)
      else s.setRing p c { (s.ring p c).close with note := 1, killed := killed, lost := lost }) s

def execForcedTakeover (a : Agent) (port : Port) (mask : Nat) (s : State) : Answer :=
  if !s.reaches a (pHif port + 0x110) || s.pwr.stage != some 5 then .next s else .next ((maskParts mask).foldl (fun s q => s.force1 port q) s)

/-- The other port's link has been down for GRACE (09 R318). `port` is the one that went down. -/
def execTakeoverGraceExpiry (port : Port) (s : State) : Answer :=
  let x := s.port port
  let g := fld (s.reg32 (pHif port.other + 0x114)) 7 0
  if x.up || decide (s.time.lctr < x.downAt + g * 2 ^ 20) then .next s
  else .next (s.modPort port.other fun y => { y with peerDown := true })

end Sys2Proof.Machine
end

