-- ==== Sys2Proof/Machine/Contexts.lean ====
section
/-! DEFINITION. Contexts, fret turns, pre-emption, partition SRAM, capos (spec 10 R321 to R348). -/

namespace Sys2Proof.Machine

/-- The context an agent's CTX_SEL names. -/
def State.selCtx (s : State) (a : Agent) : Nat := s.selOf a (pCtx + 0x104) % 4096

/-- A write of CTX_ENT_CTL that an agent can make. -/
def State.entCtl (s : State) (a : Agent) (f : Nat → State) : State := if s.reaches a (pCtx + 0x10C) then f (s.selCtx a) else s

/-- OFF to READY; the entry's generation moves on (14 R445). Log entry 161, DEDUCED. -/
def execEnable (a : Agent) (s : State) : Answer :=
  .next (s.entCtl a fun n =>
    if (s.ctx n).state == .off && (s.part (s.ctx n).part).units != 0 then s.modCtx n fun x => { x with state := .ready, gen := x.gen + 1 } else s)

/-- READY to DRAINING: descriptors not yet admitted end; FAULTED to OFF. -/
def execDisable (a : Agent) (s : State) : Answer :=
  .next (s.entCtl a fun n =>
    match (s.ctx n).state with
    | .ready =>
      let s := s.modCtx n fun x => { x with state := .draining }
      (s.cmds.filter fun c => c.ctx == n && c.origin == .window && !c.entered).foldl (fun s c => (s.discard c).refuseCmd c stCtxFault 0x0970 0) s
    | .faulted => s.modCtx n fun x => { x with state := .off, cause := 0 }
    | _ => s)

/-- Log entry 156, DEDUCED. -/
def execClear (a : Agent) (s : State) : Answer :=
  .next (s.entCtl a fun n => if (s.ctx n).state == .faulted then s.modCtx n fun x => { x with state := .ready, cause := 0 } else s)

def execFault (a : Agent) (s : State) : Answer := .next (s.entCtl a fun n => s.faultCtx n 3 none)

/-- The bound region of a context goes (10 R323). -/
def State.unbind (s : State) (n : Nat) : State :=
  match s.region n with
  | none => s
  | some r =>
    let s := { s with regions := s.regions.filter (fun x : Region => x.ctx != n),
                      hbm := { s.hbm with overlays := s.hbm.overlays.filter fun o : Overlay => o.owner != some (Target.region n) },
                      fte := { s.fte with extents := s.fte.extents.filter fun x : Extent => match x.use with
                        | .spill c _ => c != n
                        | _ => true } }
    s.dropPf r.part n

def execUnbind (a : Agent) (s : State) : Answer := .next (s.entCtl a fun n => if (s.ctx n).state == .off then s.unbind n else s)

/-- A DRAINING context has no admitted command left (10 R322). -/
def execContextDrained (ctx : Nat) (s : State) : Answer :=
  if (s.ctx ctx).state == .draining && !(s.cmds.any fun c => c.ctx == ctx && c.origin == .window) then .next (s.modCtx ctx fun x => { x with state := .off })
  else .next s

/-! ## Partition SRAM (10 R335 to R339) -/

/-- Quadrants that hold stacks of the slice; all four for a slice without stacks. -/
def State.sliceQuads (s : State) (p : Nat) : List Nat :=
  let q := (List.range 4).filter fun q => (List.range 48).any fun d => s.dieIn p (q * 48 + d)
  if q.isEmpty then List.range 4 else q

/-- Units of 256 KiB a partition takes in each quadrant: the floor area in one, the rest spread evenly. -/
def State.quadUnits (s : State) (p units : Nat) : List Nat :=
  let qs := s.sliceQuads p
  let floorQ := if (s.sliceDies p).isEmpty then p % 4 else qs.headD 0
  let rest := units - 8
  (List.range 4).map fun q =>
    (if q == floorQ && units != 0 then 8 else 0) +
      (match qs.zipIdx.find? fun x => x.1 == q with
        | some (_, i) => rest / qs.length + (if i < rest % qs.length then 1 else 0)
        | none => 0)

/-- Units in use of each quadrant, with one partition's allocation replaced. -/
def State.quadTotals (s : State) (p units : Nat) : List Nat :=
  (List.range 16).foldl (fun l x => (l.zip (s.quadUnits x (if x == p then units else (s.part x).units))).map fun y => y.1 + y.2) [0, 0, 0, 0]

/-- Whether an allocation is refused (10 R335, R339). -/
def State.unitsBad (s : State) (p n : Nat) : Bool :=
  let x := s.part p
  if n == 0 then (s.ctxsOf p).any (fun c => (s.ctx c).state != .off) || s.cmds.any fun c => c.part == p
  else decide (n < 8) || decide (n > 768) || (s.quadTotals p n).any (fun q => decide (q > 192)) ||
    decide (n * 262144 < 2097152 + x.fteUnits * 65536 + x.pfUnits * 65536)

/-- UNITS takes effect: at once, or when the memory in use fits (10 R339). -/
def State.setUnits (s : State) (p n : Nat) : State :=
  let x := s.part p
  if n == 0 then s.modPart p fun x => { x with units := 0, fteUnits := 0, pfUnits := 0, shrink := none, pf := [] }
  else if n ≥ x.units then s.modPart p fun x => { x with units := n, shrink := none }
  else if (s.freePool p).2 ≤ less (less (less (n * 262144) 2097152) (x.fteUnits * 65536)) (x.pfUnits * 65536) then s.modPart p fun x => { x with units := n, shrink := none }
  else s.modPart p fun x => { x with shrink := some n }

/-- FTE_UNITS is ignored where it would leave no free pool (10 R337). -/
def State.setFteUnits (s : State) (p n : Nat) : State :=
  let x := s.part p
  if x.units != 0 && 2097152 + n * 65536 + x.pfUnits * 65536 ≤ x.units * 262144 then s.modPart p fun x => { x with fteUnits := n } else s

def execCtxPartSramWrite (a : Agent) (v : Nat) (s : State) : Answer :=
  if !s.reaches a (pCtx + 0x118) then .next s
  else
    let p := s.selOf a (pCtx + 0x114) % 16
    let n := fld v 9 0
    if n != (s.part p).units && s.unitsBad p n then .next (s.raiseAt pCtx 2 (partAttr p))
    else
      let s := if n == (s.part p).units && (s.part p).shrink.isNone then s else s.setUnits p n
      .next (if fld v 25 16 == (s.part p).fteUnits then s else s.setFteUnits p (fld v 25 16))

def execSramShrinkDone (part : Nat) (s : State) : Answer :=
  match (s.part part).shrink with
  | none => .next s
  | some n =>
    let x := s.part part
    if (s.freePool part).2 ≤ less (less (less (n * 262144) 2097152) (x.fteUnits * 65536)) (x.pfUnits * 65536) then .next (s.modPart part fun x => { x with units := n, shrink := none })
    else .next s

/-! ## Arbiters (10 R347, R348) -/

/-- Chooses among backlogged children, given by (child, weight): round robin from the last served among those with credit, refilled when none has. Log entry 204, DESIGN CHOICE. -/
def arbitrate (credit : Tab Int) (last : Nat) (kids : List (Nat × Nat)) : Option (Nat × Tab Int) :=
  let order := (kids.filter fun k => decide (k.1 > last)) ++ kids.filter fun k => decide (k.1 ≤ last)
  let keep := credit.filter fun e => kids.any fun k => k.1 == e.1
  match order.find? fun k => decide (tgetD keep k.1 0 > 0) with
  | some k => some (k.1, keep)
  | none =>
    -- as many refills as give some child credit
    let need := kids.map fun k => (-(tgetD keep k.1 0)).toNat / (64 * max 1 k.2) + 1
    let n := minList (need.headD 1) need
    let full := kids.foldl (fun t k => tset t k.1 (tgetD keep k.1 0 + n * (64 * k.2 : Nat))) keep
    match order.find? fun k => decide (tgetD full k.1 0 > 0) with
    | some k => some (k.1, full)
    | none => order.head?.map fun k => (k.1, full)

/-! ## Fret turns (10 R324 to R326) -/

def execQuantumExpiry (part : Nat) (s : State) : Answer :=
  let x := s.part part
  if x.cur.isSome && !(s.fretWaiters part).isEmpty && decide (s.time.lctr ≥ x.turnAt + 100 * fld (s.reg32 (pCtx + 0x100)) 31 16) then
    .next (s.modPart part fun x => { x with due := true })
  else .next s

/-- The waiting commands of a context that has the frets go on. -/
def State.runFrets (s : State) (n : Nat) : State :=
  (s.cmds.filter fun c => c.ctx == n && c.origin == .window && c.phase == .run .frets).foldl (fun s c => s.run c.id) s

/-- A turn goes on: the switch that was due has lost its reason. -/
def State.goOnTurn (s : State) (p n : Nat) : State := (s.modPart p fun x => { x with due := false }).runFrets n

/-- A context takes the frets of its slice (10 R326), and its waiting commands go on. -/
def State.takeTurn (s : State) (p n : Nat) : State :=
  (s.modPart p fun x => { x with cur := some n, turnAt := s.time.lctr, due := false, scrubbed := false, qpos := n }).runFrets n

/-- The switch of 10 R326: the frets are scrubbed, the chosen context becomes current. -/
def State.switchTo (s : State) (p n : Nat) : State := ((s.scrubSlice p).bump (pCtx + 0x040) 1).takeTurn p n

/-- A switch, when it is due and the string ends of the slice hold no outgoing data; frets that no context has go to a waiting one without a scrub (10 R325, R326). -/
def execContextSwitch (part : Nat) (s : State) : Answer :=
  let x := s.part part
  let w := sortBy (fun a b => decide (a.1 ≤ b.1)) (s.fretWaiters part)
  match w, x.cur with
  -- nobody waits any more: the current context goes on
  | [], some n => if x.due then .next (s.goOnTurn part n) else .next s
  | [], none => .next s
  | w, cur =>
    if cur.elim false (fun c => !x.due && s.fretWork c) || (cur.isSome && s.sbc.ends.any fun e => s.dieIn part e.1) then .next s
    else
      match arbitrate x.credit x.qpos w with
      | none => .next s
      | some (n, credit) =>
        let s := s.modPart part fun x => { x with credit := credit }
        .next (if cur.isSome then s.switchTo part n else s.takeTurn part n)

/-! ## Pre-emption (10 R327 to R331) -/

/-- A command may be killed: not one in its commit phase, a NOP or a FENCE, nor a member of a collective, a sharded search or a forwarded update whose requests have been sent or received (10 R331). -/
def State.killable (s : State) (c : Cmd) : Bool :=
  c.admitted && c.opcode != 0x01 && c.opcode != 0x7F && !c.peer && !c.origin.isForwarded && c.phase != .killed &&
    !(s.col.open'.any fun k => k.cmd == some c.id && (!k.root || !k.joiners.isEmpty))

/-- Commands that hold what a command waits for. -/
def State.holders (s : State) (b : Cmd) : List Cmd :=
  let mine := s.cmds.filter fun a => a.part == b.part && a.id != b.id && decide (a.prio < b.prio) && s.killable a
  let sram := mine.filter fun a => a.claim != 0 || a.area
  let walks := mine.filter fun a => s.walks.any fun w => w.cmd == a.id && w.phase == .walking
  match b.phase with
  | .run .frets => mine.filter fun a => (s.part b.part).cur == some a.ctx && a.passes != 0
  | .run (.array _ _) => mine.filter fun a => (tget s.arr.wave b.part).elim false fun o => o.cmd == a.id
  | .run (.sram _ _) => sram ++ walks
  | .run (.walk _) => walks ++ sram
  | .run .walks => if s.walks.any fun w => w.cmd == b.id && w.phase == .waiting then walks ++ sram else []
  | _ => []

/-- The lowest priority, then the latest admitted (10 R328). -/
def victim (l : List Cmd) : Option Cmd :=
  l.foldl (fun v c => match v with
    | none => some c
    | some x => if c.prio < x.prio || (c.prio == x.prio && (decide (c.admitAt > x.admitAt) || (c.admitAt == x.admitAt && decide (c.id > x.id)))) then some c else some x) none

/-- Kills a command; beyond RERUN_MAX it ends (10 R329, R330). -/
def State.kill (s : State) (c : Cmd) : State :=
  let s := s.bump (pCtx + 0x048) 1
  let n := c.reruns + 1
  let s := if c.origin == .window then s.modCtx c.ctx fun x => { x with killPeak := max x.killPeak (sat8 n) } else s
  if n > fld (s.reg32 (pCtx + 0x100)) 7 0 && c.origin != .internal then s.failAny c stRerun 0x0980 0 [] []
  else
    (s.discard c).modCmd c.id fun x =>
      { x with phase := .killed, reruns := n, byEpoch := false, admitted := isRead x.opcode && x.admitted, area := false, charged := 0,
               got := x.got.filter fun e => decide (e.1 < 2 ^ 24), since := s.time.lctr }

def execPreemption (cmd : Nat) (s : State) : Answer :=
  match s.cmd cmd with
  | none => .next s
  | some b =>
    if s.time.lctr < b.since + 100 * fld (s.reg32 (pCtx + 0x100)) 15 8 then .next s
    else
      match victim (s.holders b) with
      | none => .next s
      | some a =>
        let s := s.kill a
        .next (if b.phase == .run .frets then s.modPart b.part fun x => { x with due := true } else s)

/-! ## Capos (10 R341, R345) -/

/-- A refill of one capo: rates written since take effect first. -/
def Capo.refill (c : Capo) : Capo :=
  { c with cir := c.newCir, pir := c.newPir,
           clvl := min (c.cbs : Int) (c.clvl + c.newCir), plvl := min (c.pbs : Int) (c.plvl + c.newPir) }

/-- Messages a FAB_TX capo holds go out in order while they pass. -/
def State.drainTx (s : State) (p : Nat) : List Msg → State
  | [] => s
  | m :: rest =>
    if m.srcPart != p then ({ s with fab := { s.fab with txq := s.fab.txq ++ [m] } } : State).drainTx p rest
    else
      match s.charge p 9 (ceilDiv (bodySize m.body) 64) with
      | some t => (t.putMsg m).drainTx p rest
      | none => ({ s with fab := { s.fab with txq := s.fab.txq ++ [m] } } : State).drainTx p rest

/-- Requests that were held are classed again, oldest first. -/
def State.releaseCapos (s : State) (p : Nat) : State :=
  let q := s.fab.txq
  let s := State.drainTx { s with fab := { s.fab with txq := [] } } p q
  (s.cmds.filter fun c => c.part == p && (match c.phase with
    | .run (.capo _ _) => true
    | _ => false)).foldl (fun s c => s.run c.id) s

def execCapoRefill (part : Nat) (s : State) : Answer :=
  let x := s.part part
  if part ≥ 16 || decide (s.time.lctr < x.refillAt) then .next s
  else
    let n := fld (s.reg32 (pCapo part + 0x100)) 4 0
    let s := s.modPart part fun x => { x with capos := x.capos.map fun e => (e.1, e.2.refill), refill := n, refillAt := s.time.lctr + 2 ^ n }
    .next (s.releaseCapos part)

/-- A write of CBS or PBS sets the depth and the level (10 R345). -/
def execCapoDepthWrite (a : Agent) (part r : Nat) (peak : Bool) (v : Nat) (s : State) : Answer :=
  if part ≥ 16 || r > 10 || !s.reaches a (pCapo part) then .next s
  else
    let d : Nat := v % 2 ^ 31
    let lvl : Int := if bitOf (s.reg32 (pCapo part + 0x100)) 8 then d else 0
    .next (s.modCapo part r fun c => if peak then { c with pbs := d, plvl := lvl } else { c with cbs := d, clvl := lvl })

end Sys2Proof.Machine
end

