-- ==== Sys2Proof/Machine/Array.lean ====
section
/-! DEFINITION. The Scoring Array's waves, and its courses: fencing, parity errors, self-test (spec 04 R111 to R114, R129 to R132). -/

namespace Sys2Proof.Machine

/-- The partition whose slice holds a course (13 R406). -/
def State.courseSlice (s : State) (n : Nat) : Option Nat := (List.range 16).find? fun p => bitOf (s.courses p) n

/-- Unfenced courses of a slice. -/
def State.courseList (s : State) (p : Nat) : List Nat := (bitsOf 16 (s.courses p)).filter fun n => !bitOf s.arr.fenced n

/-- A course becomes fenced, with its cause (04 R129; 16 R498 code 0x0A). -/
def State.fenceCourse (s : State) (n src : Nat) : State :=
  let a := { s.arr with pendFence := tdel s.arr.pendFence n, pendJoin := setBit s.arr.pendJoin n false, testing := setBit s.arr.testing n false }
  if bitOf s.arr.fenced n then { s with arr := { a with src := tset a.src n src } }
  else State.logEvent { s with arr := { a with fenced := setBit a.fenced n true, src := tset a.src n src } } (pCourse n) 0x0A 2 noAttr 6 n

/-- A course works again. -/
def State.joinCourse (s : State) (n : Nat) : State :=
  { s with arr := { s.arr with fenced := setBit s.arr.fenced n false, src := tdel s.arr.src n, pendJoin := setBit s.arr.pendJoin n false } }

/-- Requests about the courses of a list take effect: a wave boundary of their slice (04 R129, R131). -/
def State.applyCourses (s : State) (l : List Nat) : State :=
  l.foldl (fun s n =>
    match tget s.arr.pendFence n with
    | some src => s.fenceCourse n src
    | none => if bitOf s.arr.pendJoin n then s.joinCourse n else s) s

/-- A course is in no wave: a request takes effect at once (log entry 64, DEDUCED). -/
def State.settleCourse (s : State) (n : Nat) : State :=
  match s.courseSlice n with
  | some p => if (tget s.arr.wave p).isSome then s else s.applyCourses [n]
  | none => s.applyCourses [n]

/-- No course of the slice works: every command of the partition that waits for the Array ends (04 R132). -/
def State.arrayDead (s : State) (p : Nat) : State :=
  let s := { s with arr := { s.arr with wave := tdel s.arr.wave p, again := tdel s.arr.again p } }
  (s.arr.queue.filter fun o => o.part == p).foldl (fun s o =>
    match s.cmd o.cmd with
    | some c => s.failAny c stMedia 0x0943 0 [] []
    | none => { s with arr := { s.arr with queue := s.arr.queue.filter (· != o) } }) s

/-- The tiles dealt to a failed course are dealt again to the courses left, in ascending order; a shared tile loses the partials of its whole group, and is shared anew (04 R130; log entry 197, DEDUCED). With no course left, the operation ends. -/
def State.tilesBack (s : State) (n p : Nat) (o : ArrOp) : State :=
  let hit := fun (d : Deal) => !d.lost && d.courses.contains n
  let gone := o.deals.filter hit
  let left := o.courses.filter (· != n)
  let tiles := sortBy (fun a b => decide (a ≤ b)) (gone.map (·.tile))
  let share := if gone.any fun d => decide (d.share > 1) then max 1 (left.length / max 1 tiles.length) else 1
  let kept := o.deals.map fun d => { d with lost := d.lost || hit d, courses := d.courses.filter (· != n) }
  let o := { o with courses := left, deals := kept ++ dealTiles tiles left share true }
  let s := { s with arr := { s.arr with wave := tset s.arr.wave p o, again := tset s.arr.again p (tgetD s.arr.again p 0 + gone.length) } }
  let s := if gone.isEmpty then s else (s.bump (pArr + 0x058) gone.length).raiseAt (pCourse n) 2 (partAttr p)
  if left.isEmpty then s.arrayDead p else s

/-- The wave that a failed course works in. -/
def State.leaveWave (s : State) (n : Nat) : State :=
  match s.courseSlice n with
  | none => s
  | some p =>
    match tget s.arr.wave p with
    | none => s
    | some o =>
      if o.courses.contains n then s.tilesBack n p o else s

/-- A parity error of a course (04 R130). -/
def State.courseError (s : State) (n : Nat) : State :=
  if bitOf s.arr.fenced n then s
  else
    let at' := match s.courseSlice n with
      | some p => partAttr p
      | none => noAttr
    (((s.bump (pCourse n + 0x050) 1).raiseAt (pCourse n) 0 at').fenceCourse n 2).leaveWave n

def execCourseParityError (course : Nat) (s : State) : Answer := if course < 16 then .next (s.courseError course) else .next s

/-- The wave of a slice ends: counts, charges, and the operation's end with its last tile (04 R113, 10 R340, R346). -/
def State.endWave (s : State) (p : Nat) (o : ArrOp) : State :=
  let steps := o.steps
  let n := o.courses.length
  let s := { s with arr := { s.arr with wave := tdel s.arr.wave p, again := tdel s.arr.again p } }
  let s := (s.bump (pArr + 0x048) 1).bump (pArr + 0x050) steps
  let s := o.courses.foldl (fun s x => s.bumps [(pCourse x + 0x040, o.tilesOf x), (pCourse x + 0x048, o.courseSteps x)]) s
  let s := s.chargeFree p 6 (steps * n)
  let leaf := match s.cmd o.cmd with
    | some c => if c.origin == .window then c.ctx else 4096
    | none => 4096
  let s := s.modPart p fun x => { x with arrCredit := tset x.arrCredit leaf (tgetD x.arrCredit leaf 0 - (steps * n : Nat)) }
  match s.arr.queue.find? fun x => x.cmd == o.cmd && x.key == o.key && x.piece == o.piece with
  | none => s
  | some q =>
    if q.left != 0 then s
    else
      let s := { s with arr := { s.arr with queue := s.arr.queue.filter (· != q) } }
      let s := (s.bump (pArr + 0x040) 1).bumps [(pArr + 0x068, b2n o.shape.desc)]
      if s.arr.queue.any fun x => x.cmd == o.cmd && x.key == o.key then s else s.deliver o.cmd o.key []

/-- The next operation of a slice: highest priority, then the arbiter's turn, oldest first (04 R113, 10 R347). -/
def State.nextOp (s : State) (p last : Nat) : Option (ArrOp × Tab Int) :=
  let ops := s.arr.queue.filter fun o => o.part == p
  let top := maxList (ops.map (·.prio))
  let ops := ops.filter fun o => o.prio == top
  let leaf := fun (o : ArrOp) => match s.cmd o.cmd with
    | some c => if c.origin == .window then c.ctx else 4096
    | none => 4096
  let kids := (dedupNat (ops.map leaf)).map fun n => (n, if n == 4096 then (s.part p).intWeight else (s.ctx n).weight)
  match arbitrate (s.part p).arrCredit last (sortBy (fun a b => decide (a.1 ≤ b.1)) kids) with
  | none => none
  | some (n, credit) => (ops.find? fun o => leaf o == n).map fun o => (o, credit)

/-- A wave starts (04 R112, R113); none while the capo of STEP holds the partition. -/
def State.startWave (s : State) (p last : Nat) : State :=
  match s.nextOp p last with
  | none => s
  | some (o, credit) =>
    if (s.courseList p).isEmpty then s.arrayDead p
    else if s.classOf p 6 == .held then s.noteHeld p 6
    else
      let cs := s.courseList p
      let tiles := o.shape.waveTiles o.left cs.length (256 * fld (s.reg32 (pArr + 0x100)) 6 0)
      let s := s.modPart p fun x => { x with arrCredit := credit }
      let s := { s with arr := { s.arr with wave := tset s.arr.wave p { o with deals := dealTiles ((List.range tiles).map (o.shape.tiles - o.left + ·)) cs (o.shape.share cs.length) false, courses := cs },
                                            queue := s.arr.queue.map fun q => if q == o then { q with left := q.left - tiles } else q } }
      (cs.filter fun n => s.armed (pCourse n) 0).foldl (fun s n => (s.disarm (pCourse n) 0).courseError n) s

/-- A domain switches: counted and logged (15 PWR_PD_SWITCHES, 16 R498 code 0x0C). Log entry 94, DEDUCED. -/
def State.switchBit (s : State) (d : Nat) (on : Bool) : State :=
  if s.powered d == on then s
  else ((({ s with pwr := { s.pwr with on := setBit s.pwr.on d on } } : State).bump (pPwr + 0x060) 1).logEvent pPwr 0x0C 0 noAttr d (b2n on))

/-- A quadrant's Array domain goes off once its four courses are fenced (04 R129). -/
def State.leaveDomains (s : State) : State :=
  s.pwr.leaving.foldl (fun s d =>
    if (List.range 4).all fun i => bitOf s.arr.fenced (4 * (d - 6) + i) then
      { s.switchBit d false with pwr := { (s.switchBit d false).pwr with leaving := s.pwr.leaving.filter (· != d) } }
    else s) s

/-- A wave boundary of a slice: the wave in progress ends, requests about its courses take effect, the next wave starts. -/
def execWaveBoundary (part : Nat) (s : State) : Answer :=
  let last := match tget s.arr.wave part with
    | some o => (s.cmd o.cmd).elim 4096 fun c => if c.origin == .window then c.ctx else 4096
    | none => 4096
  let s := match tget s.arr.wave part with
    | some o => s.endWave part o
    | none => s
  .next ((s.applyCourses (bitsOf 16 (s.courses part))).leaveDomains.startWave part last)

/-- The power domain of a course (15 R460). -/
def courseDomain (n : Nat) : Nat := 6 + n / 4

/-- A write of CTL.FENCE (04 R129, R131): the later of two requests counts (16 R491). -/
def State.writeFence (s : State) (n : Nat) (fence : Bool) : State :=
  let src := tgetD s.arr.src n 0
  if fence then
    if bitOf s.arr.fenced n then { s with arr := { s.arr with pendJoin := setBit s.arr.pendJoin n false, testing := setBit s.arr.testing n false } }
    else State.settleCourse { s with arr := { s.arr with pendFence := tset s.arr.pendFence n 1 } } n
  else if s.pwr.leaving.contains (courseDomain n) then s
  else if !bitOf s.arr.fenced n then { s with arr := { s.arr with pendFence := tdel s.arr.pendFence n } }
  else if src == 1 then State.settleCourse { s with arr := { s.arr with pendJoin := setBit s.arr.pendJoin n true } } n
  else if s.powered (courseDomain n) then { s with arr := { s.arr with testing := setBit s.arr.testing n true } }
  else s

def execCourseFenceWrite (a : Agent) (course : Nat) (fence : Bool) (s : State) : Answer :=
  if course < 16 && s.reaches a (pCourse course) then .next (s.writeFence course fence) else .next s

/-- A course's self-test has ended (04 R131). -/
def execCourseSelftestDone (course : Nat) (pass : Bool) (s : State) : Answer :=
  if course ≥ 16 || !bitOf s.arr.testing course then .next s
  else
    let s := { s with arr := { s.arr with testing := setBit s.arr.testing course false } }
    if pass then .next (State.settleCourse { s with arr := { s.arr with pendJoin := setBit s.arr.pendJoin course true } } course)
    else .next ((s.fenceCourse course 2).raiseAt (pCourse course) 1 noAttr)

end Sys2Proof.Machine
end

