-- ==== Sys2Proof/Machine/Rounds.lean ====
section
/-! DEFINITION. Walks and side strums as they proceed, and the work GWE, UPD, ATT and the Nut start by themselves (spec 07 R215 to R228, R246, 06 R178, 03 R99, 13 R424). -/

namespace Sys2Proof.Machine

def State.walk (s : State) (id : Nat) : Option Walk := s.walks.find? fun w => w.id == id

def State.setWalk (s : State) (w : Walk) : State := { s with walks := s.walks.map fun x => if x.id == w.id then w else x }

/-- A command goes on when none of its walks has work left. -/
def State.walksDone (s : State) (id : Nat) : State :=
  match s.cmd id with
  | some c =>
    if c.phase == .run .walks && (s.walks.filter fun w => w.cmd == id).all fun w => w.phase == .walked && w.side.isSome then s.run id else s
  | none => s

/-- What a walk met ends its command; a wait leaves everything as it was. Log entry 147, DEDUCED. -/
def State.walkHalt (s : State) (w : Walk) : Halt → State
  | .wait _ => s
  | .refuse st sub n => match s.cmd w.cmd with
    | some c => s.failAny c st sub n [] []
    | none => s
  | .fail st sub n errs bumps => match s.cmd w.cmd with
    | some c => s.failAny c st sub n errs bumps
    | none => s

/-- A walk as it now stands; one that has ended gives its slot and memory back (07 R215, R221). -/
def State.walkStands (s : State) (old w : Walk) (bumps : List (Nat × Nat)) : State :=
  let w := if w.ended then { w with phase := .walked, mem := 0, area := false } else w
  let s := (s.setWalk w).bumps (walkBumps old w ++ bumps)
  (if w.ended then (s.bump (pGwe + 0x040) 1).walksDone w.cmd else s).pumpDies

/-- A walk slot and its memory are free (07 R215). -/
def execWalkStart (walk : Nat) (s : State) : Answer :=
  match s.walk walk with
  | none => .next s
  | some w =>
    if w.phase != .waiting then .next s
    else
      match s.walkCtx w with
      | .error h => .next (s.walkHalt w h)
      | .ok (c, v, q) =>
        match s.walkRoom c.part w.mem, s.turnOf c with
        | some area, true =>
          (match s.walkBegin c.id v q c.filter w with
            | .error h => .next (s.walkHalt w h)
            | .ok w' =>
              let s := s.walkStands w { w' with area := area } (pluckBumps v (rowsPlucked v w v.st.entries))
              .next (if s.walkPeak < s.walksActive then { s with walkPeak := s.walksActive } else s))
        | _, _ => .next s

/-- The record of an expansion: cached, received from flash, or read without the NAND. -/
def State.expansionRec (s : State) (c : Cmd) (v : SView) (id : Nat) : Except Halt (State × (Option Adj × Bool)) :=
  match s.adjOf c v id with
  | .ok x => .ok (s, x)
  | .error (.wait (.flash lua)) =>
    (match s.quickUnit c lua with
      | some b => .ok (s, (Adj.parse b id, false))
      | none => .error (.wait (.flash lua)))
  | .error h => .error h

/-- An expansion's reads have all returned (07 R218 to R223). `slot` names the node expanded. -/
def execExpansionComplete (walk slot : Nat) (s : State) : Answer :=
  match s.walk walk with
  | none => .next s
  | some w =>
    match w.flying.find? fun id => idSlot id == slot with
    | none => .next s
    | some id =>
      match s.walkCtx w with
      | .error h => .next (s.walkHalt w h)
      | .ok (c, v, q) =>
        if !s.turnOf c then .next s
        else
          match s.expansionRec c v id with
          | .error h => .next (s.walkHalt w h)
          | .ok (s, x) =>
            match s.walkExpand c.id v q c.filter w id x.1 with
            | .error h => .next (s.walkHalt w h)
            | .ok w' =>
              let ids := rowsPlucked v w (x.1.elim [] fun r => r.prim.map (·.id))
              let s := s.walkStands w w' (adjBumps x ++ pluckBumps v ids)
              .next (if x.1.isNone then s.raiseAt pGwe 0 ⟨some c.part, c.ctx⟩ else s)

/-- A batch of side vectors may start: 8 vectors, or SIDE_WAIT after its first joined, in the turn of its context (07 R226). -/
def State.sideDue (s : State) (l : List Walk) : Bool :=
  match l with
  | [] => false
  | a :: _ => (decide (l.length ≥ 8) || decide (s.time.lctr ≥ a.sideAt + 100 * fld (s.reg32 (pGwe + 0x10C)) 7 0)) && (s.cmd a.cmd).elim true s.turnOf

/-- The walks a side-list strum serves: up to 8 of one shard, context and edition; of the batches that may start, the one whose first vector is oldest (07 R226). Log entry 113, DEDUCED. -/
def State.sideBatchOf (s : State) (shard : Nat) : List Walk :=
  let l := s.walks.filter fun w => w.shard == shard && w.side.isNone
  let home := fun (w : Walk) => (s.cmd w.cmd).map fun c => (c.part, c.ctx, c.origin == Origin.window)
  ((l.map fun a => (l.filter fun w => w.edition == a.edition && home w == home a).take 8).find? s.sideDue).getD []

/-- The side candidates of a batch. -/
def State.sideFor (s : State) (l : List Walk) : Except Halt (List Walk) :=
  l.mapM fun w => do
    let (c, v, q) ← s.walkCtx w
    let r ← s.sideCands c.id v w.query q c.filter w.sideN
    return { w with side := some r.1, nanRows := w.nanRows + r.2 }

/-- A side-list strum batch of a shard starts (07 R226). -/
def execSideStrumBatch (shard : Nat) (s : State) : Answer :=
  let l := s.sideBatchOf shard
  match l with
  | [] => .next s
  | a :: _ =>
    match s.walkCtx a with
    | .error h => .next (s.walkHalt a h)
    | .ok (c, v, _) =>
      match s.sideFor l with
      | .error h => .next (s.walkHalt a h)
      | .ok ws =>
        let strokes := v.sideStrokes
        let n := sumList (strokes.map (·.2))
        let s := (l.zip ws).foldl (fun s x => (s.setWalk x.2).bumps [nanBump (x.2.nanRows - x.1.nanRows)]) s
        let s := (s.bumps (strokeBumps strokes)).bump (pGwe + 0x080) 1
        let s := (s.chargeFree c.part 5 n).modPart c.part fun x => { x with credit := tset x.credit c.ctx (tgetD x.credit c.ctx 0 - n) }
        .next ((dedupNat (l.map (·.cmd))).foldl (fun s id => s.walksDone id) s)

/-! ## Work of the device itself -/

/-- Internal commands of a kind on a target. -/
def State.ownWork (s : State) (op : Nat) (p : Cmd → Bool) : Option Cmd := s.cmds.find? fun c => c.origin == .internal && c.opcode == op && p c

/-- Starts an internal command, or lets the one there go on. -/
def State.startOwn (s : State) (part ctx : Nat) (dw : List Nat) (old : Option Cmd) : State :=
  match old with
  | some c => match c.phase with
    | .queued | .held _ => s.run c.id
    | _ => s
  | none => let r := s.addCmd part ctx .pa 0 dw 0 .internal; r.1.run r.2

/-- Side-list batches of the device (07 R228). -/
def execAutoConsolidate (shard : Nat) (s : State) : Answer :=
  match s.shard shard with
  | none => .next s
  | some x =>
    let cfg := s.reg32 (pGwe + 0x104)
    let old := s.ownWork 0x34 fun c => c.f 12 11 0 == shard && c.f 12 13 12 == 0
    if old.isNone && !(bitOf cfg 31 && s.sideAtLeast shard 75) then .next s
    else .next (s.startOwn x.part 0 (consolidateWords shard 0 0 (fld cfg 16 0)) old)

/-- A batch of the running sweep pass; the first one notes the HWM and the slots TOMB at its start (07 R246). Log entry 151, DEDUCED. -/
def execSweepBatch (shard : Nat) (s : State) : Answer :=
  match s.shard shard, s.shView shard (s.latest (.shard shard)) with
  | some x, some v =>
    let old := s.ownWork 0x34 fun c => c.f 12 11 0 == shard && c.f 12 13 12 == 1
    if v.st.hwm == 0 || (old.isNone && !bitOf (s.reg32 (pGwe + 0x108)) 31) then .next s
    else
      let tombs := (List.range v.st.hwm).filter fun i => match s.slotRec v i with
        | .ok w => srState w == tomb'
        | .error _ => false
      let pass := x.sweep.getD (0, v.st.hwm, tombs)
      let s := s.setShard { x with sweep := some pass }
      .next (s.startOwn x.part 0 (consolidateWords shard 1 pass.1 (min 65536 (pass.2.1 - pass.1))) old)
  | _, _ => .next s

/-- A migration pass that is due starts, or one that waits goes on (06 R178, 02 R58). -/
def execMigrationPass (ctx layer : Nat) (s : State) : Answer :=
  match s.region ctx with
  | none => .next s
  | some r =>
    let old := s.ownWork opPass fun c => c.ctx == ctx && c.f 12 7 0 == layer
    if old.isNone && !r.due.contains layer then .next s
    else
      let s := if old.isNone then s.setRegion { r with due := r.due.filter (· != layer) } else s
      .next (s.startOwn r.part ctx (((List.replicate 32 0).set 0 opPass).set 12 layer) old)

/-- The descriptor words of a checkpoint the device takes into a target's area. -/
def ckptWords (a : Area) (incr : Bool) : List Nat :=
  let t := match a.target with
    | .region _ => 1
    | .shard n => 2 * n
  ((((((List.replicate 32 0).set 0 0x60).set 5 1).set 12 (t + (if incr then 2 ^ 13 else 0) + 2 ^ 14)).set 13 (a.lua % 2 ^ 32)).set 14 (a.lua / 2 ^ 32)).set 15 a.units

/-- An internal checkpoint of a target under way. -/
def State.ownCkpt (s : State) (t : Target) : Option Cmd := s.ownWork 0x60 fun c => c.kTarget == t

/-- A full checkpoint when the area's free space falls below a quarter (13 R424). -/
def execAutoFullCheckpoint (target : Nat) (s : State) : Answer :=
  match s.area (Target.ofNum target) with
  | none => .next s
  | some a =>
    let old := s.ownCkpt a.target
    if old.isNone && decide (4 * a.free ≥ a.units) then .next s
    else .next (s.startOwn a.part a.target.ctxOf (ckptWords a false) old)

/-- An incremental checkpoint at each PERIOD (13 R424). -/
def execPeriodicCheckpoint (target : Nat) (s : State) : Answer :=
  match s.area (Target.ofNum target) with
  | none => .next s
  | some a =>
    let old := s.ownCkpt a.target
    if old.isNone && (a.period == 0 || decide (s.time.lctr < a.dueAt)) then .next s
    else
      let s := if old.isNone then s.setArea { a with dueAt := a.dueAt + a.period * 2 ^ 30 } else s
      .next (s.startOwn a.part a.target.ctxOf (ckptWords a true) old)

/-- The oldest overlay entry of a row that no running command reads past (03 R99). -/
def State.foldable (s : State) (fret base : Nat) : Option Overlay :=
  (lowestOverlay (s.hbm.overlays.filter fun o => o.fret == fret && o.base == base)).bind fun o =>
    if s.overlayFree o && !s.sparingAt fret then some o else none

def execOverlayFold (fret base : Nat) (s : State) : Answer :=
  let s := s.yieldAll
  match s.foldable fret base with
  | some o => .next (s.foldOverlay o)
  | none => .next s

end Sys2Proof.Machine
end

