-- ==== Sys2Proof/Machine/Links.lean ====
section
/-! DEFINITION. Fabric links: link-up, flits and replay, width, retrain, quarantine, and what becomes of messages that lose their link (spec 12 R382 to R391, R400). -/

namespace Sys2Proof.Machine

def LinkState.code : LinkState → Nat
  | .disabled => 0
  | .down => 1
  | .training => 2
  | .up => 3
  | .quarantined => 4

/-- The SerDes domain of a link (15 R460). -/
def linkDomain (l : Nat) : Nat := 22 + l / 6

def State.linkOn (s : State) (l : Nat) : Bool := bitOf (s.reg32 (pLink l + 0x100)) 31 && s.powered (linkDomain l) && bitOf s.pwr.quadRef (l / 6)

/-- A link changes state (16 R498 code 0x07). -/
def State.linkTo (s : State) (l : Nat) (x : LinkSt) (st : LinkState) : State :=
  let lanes := if st == .up then x.lanes else 0
  let s := s.setLink l { x with st := st, lanes := lanes }
  if (s.link l).st == x.st then s else s.logEvent (pLink l) 7 2 noAttr st.code lanes

/-! ## Routes (12 R398; log entry 61, DEDUCED) -/

/-- Route entries as the peers of the links give them: a peer is reached through its links, another member through links to switches. -/
def State.buildRoutes (s : State) : State :=
  let peers := (List.range 24).filterMap fun l => let x := s.link l; if x.everUp && x.kind ≤ 1 then some (l, x.peer) else none
  let sw := (List.range 24).filter fun l => (s.link l).everUp && (s.link l).kind == 2
  let mask := fun (ls : List Nat) => sumList (ls.map fun l => 2 ^ l)
  let nodes := dedupNat (peers.map (·.2) ++ if sw.isEmpty then [] else (List.range 4095).filter fun n => bitOf (byteAt s.cmp.cur (1088 + 4 * n)) 0)
  { s with fab := { s.fab with route := nodes.foldl (fun t n =>
      let d := (peers.filter fun p => p.2 == n).map (·.1)
      tset t n (BitVec.ofNat 32 (2 ^ 31 + mask (if d.isEmpty then sw else d)))) [] } }

/-! ## Unreachable destinations (12 R400) -/

def State.req (s : State) (txn : Nat) : Option Req := s.fab.reqs.find? fun r => r.txn == txn
def State.dropReq (s : State) (txn : Nat) : State := { s with fab := { s.fab with reqs := s.fab.reqs.filter fun r => r.txn != txn } }
def State.setReq (s : State) (r : Req) : State := { s with fab := { s.fab with reqs := s.fab.reqs.map fun x => if x.txn == r.txn then r else x } }

/-- A command goes on where what it met lets it. -/
def goOn (id : Nat) (r : State × Bool) : State := if r.2 then r.1.run id else r.1

/-- A collective ends with a status at the root or at a contributor (05 R165). -/
def State.endColl (s : State) (k : Coll) (rootSt tellSt sub : Nat) : State :=
  let s := if k.root then s.collTell k tellSt sub else s.delColl k
  match k.cmd.bind s.cmd with
  | some c => s.failAny c rootSt (if rootSt == stStale then 0 else sub) 0 [] []
  | none => s

/-- What becomes of the command behind a message that reached nobody (12 R400). -/
def State.lostMsg (s : State) (m : Msg) : State :=
  match m.ty with
  | 0x01 | 0x03 | 0x20 | 0x21 =>
    (match s.req m.txn with
      | none => s
      | some r =>
        let s := s.dropReq m.txn
        match s.cmd r.cmd with
        | none => s
        | some c => goOn c.id (if poolTypes m then s.poolLost c r.key (s.lostImage c r.msg.addr) else s.noOwner c r.key r.accepted))
  | 0x10 | 0x11 | 0x12 | 0x13 | 0x14 =>
    -- a collective that has lost a member (05 R165)
    (match s.col.open'.find? fun k => (match m.body with
        | .collOpen id _ _ _ _ => k.id == id
        | .collGrant id _ => k.id == id
        | .collData id _ _ _ _ => k.id == id
        | .collDone id => k.id == id
        | .collAbort id _ _ => k.id == id
        | .mergedM id _ _ _ => k.id == id
        | .valueSums id _ _ => k.id == id
        | _ => false) && k.fanout == m.fanout with
      | none => s
      | some k => if m.ty ≥ 0x13 then s else ((s.bump (pCol + 0x060) 1).raise pCol 2).endColl k stCancelled stCancelled 0x0102)
  | 0x18 =>
    (match s.col.bars.find? fun b => !b.root && (match m.body with
        | .barArrive id _ => b.id == id
        | _ => false) with
      | none => s
      | some b => match b.cmd.bind s.cmd with
        | some c => (s.delBar b).failAny c stCancelled 0x0102 0 [] []
        | none => s.delBar b)
  | 0x37 =>
    -- the owner's log cannot be read (13 R426; log entry 72, DEDUCED)
    (match m.body with
      | .logReq num _ _ => s.replayStop (.shard num)
      | _ => s)
  | _ => s

/-- An answer that says why a request is not served (12 R397); those about pool requests carry no epoch. -/
def State.refuseMsg (s : State) (m : Msg) (reason : Nat) : State :=
  s.putMsg { s.reply m 0x05 reason .empty with epoch := if poolTypes m then 0 else m.epoch }

/-- A destination turns out to be unreachable. A relayed message is refused to its source. -/
def State.unreachable (s : State) (m : Msg) : State :=
  if m.src == s.node then s.noRoute.lostMsg m
  else if m.ty == 0x05 then s
  else s.refuseMsg m 4

/-- Sends a message again, on another route where its link is gone (12 R390). -/
def State.resend (s : State) (m : Msg) (low : Bool) : State :=
  let r := s.trySend { m with resend := true } low
  if r.2 then r.1.bump (pFab + 0x058) 1 else s.unreachable m

/-! ## Loss of a link (12 R390, R391) -/

/-- Messages of a link whose last flit is not acknowledged. -/
def LinkSt.unsent (x : LinkSt) : List (Msg × Bool) :=
  (x.replay.map (·.2) ++ x.queue).filterMap fun f => f.msg.map fun m => (m, f.vc == 7)

/-- A link goes DOWN, DISABLED or QUARANTINED: partial messages are dropped, its messages are sent elsewhere (12 R390). -/
def State.linkLost (s : State) (l : Nat) (st : LinkState) : State :=
  let x := s.link l
  let back := x.unsent
  let s := s.linkTo l { x with queue := [], replay := [], partials := [], retrainAt := none, asked := false, ver := 0 } st
  back.foldl (fun s m => s.resend m.1 m.2) s

/-- A quarantine begins (12 R391): its back-off grows with each one. Log entry 163, DEDUCED. -/
def State.quarantine (s : State) (l : Nat) : State :=
  let x := s.link l
  let cfg := s.reg32 (pFab + 0x114)
  let n := if x.quarAt == 0 then 0 else min (x.shift + 1) (fld cfg 11 8)
  let s := s.setLink l { x with quarAt := max 1 s.time.lctr, quarEnd := s.time.lctr + fld cfg 7 0 * 2 ^ 20 * 2 ^ n, shift := n, retrains := [] }
  let s := ((s.bump (pLink l + 0x078) 1).raise pFab 2).raise (pLink l) 4
  s.linkLost l .quarantined

/-- A retrain begins (12 R389); too many within a flap window quarantine the link (12 R391). -/
def State.retrain (s : State) (l lanes : Nat) : State :=
  let x := s.link l
  let now := s.time.lctr
  let win := s.reg32 (pFab + 0x110) * 2 ^ 10
  let thr := fld (s.reg32 (pFab + 0x10C)) 7 0
  let rs := (x.retrains.filter fun t => decide (now - t ≤ win)) ++ [now]
  let s := (s.setLink l { x with retrains := rs, tries := 0, nextLanes := lanes }).bump (pLink l + 0x068) 1
  if thr != 0 && rs.length > thr then s.quarantine l
  else s.linkTo l { s.link l with retrainAt := some now, asked := false } .training

/-! ## Replay (12 R384) -/

/-- Distance from one sequence number to another. -/
def seqDist (a b : Nat) : Nat := (b + 1024 - a % 1024) % 1024

/-- Replays from a sequence number; three replays without progress retrain the link. -/
def State.replayFrom (s : State) (l seq : Nat) : State :=
  let x := s.link l
  match x.replay with
  | [] => s
  | (s0, _) :: _ =>
    if seqDist s0 seq ≥ x.replay.length then s
    else if x.tries ≥ 3 then s.retrain l x.laneMask
    else
      let again := x.replay.drop (seqDist s0 seq)
      let y := again.foldl (fun y f => y.send f.1 f.2) { x with tries := x.tries + 1, lastAck := s.time.lctr }
      ((s.setLink l y).bump (pLink l + 0x060) 1).bump (pLink l + 0x040) again.length

def execReplayTimeout (link : Nat) (s : State) : Answer :=
  let x := s.link link
  if link < 24 && x.st == .up && !x.replay.isEmpty && decide (s.time.lctr ≥ x.lastAck + 1000) then .next (s.replayFrom link (x.replay.headD (0, ⟨0, false, false, [], none⟩)).1)
  else .next s

/-! ## Link-up (12 R386, R387) -/

/-- The highest version both ends support. -/
def agreed (h : Hello) : Option Nat := [0x21, 0x20, 0x13].find? fun v => decide (h.lo ≤ v) && decide (v ≤ h.hi)

/-- A link comes up fresh. -/
def State.linkUp (s : State) (l : Nat) (h : Hello) (ver : Nat) : State :=
  let x := s.link l
  let changed := x.everUp && x.prevPeer != h.node
  let mask := if h.lanes ≥ 4 then 15 else if h.lanes ≥ 2 then 3 else 1
  let y := { LinkSt.reset with kind := h.kind, lanes := popCount 4 mask, laneMask := mask, ver := ver, peer := h.node, everUp := true, prevPeer := h.node, wire := x.wire,
                               inbox := x.inbox, retrains := x.retrains, shift := x.shift, quarAt := x.quarAt, lastAck := s.time.lctr, st := x.st }
  let s := s.linkTo l (y.control 2 [s.node, 0, 0x13, 0x21, 4]) .up
  let s := if changed then s.raise (pLink l) 5 else s
  if changed || !x.everUp then s.buildRoutes else s

/-- A link whose hello fails stays DOWN (12 R386). -/
def State.stayDown (s : State) (l : Nat) : State := if (s.link l).st == .training then s.linkTo l (s.link l) .down else s

/-- A hello of the peer: it completes a retrain, or brings a trained link up. -/
def execHello (link : Nat) (h : Hello) (s : State) : Answer :=
  let x := s.link link
  if link ≥ 24 || !s.linkOn link then .next s
  else
    match x.st with
    | .up | .quarantined => .next s
    | _ =>
      match x.retrainAt with
      | some _ =>
        -- both ends kept their sequence numbers and credits (12 R389)
        let s := s.linkTo link { x with retrainAt := none, laneMask := x.nextLanes, lanes := popCount 4 x.nextLanes } .up
        let y := s.link link
        let s := match y.replay with
          | [] => s
          | (n, _) :: _ => s.replayFrom link n
        .next (s.pump link)
      | none =>
        if h.kind > 2 then .next (s.stayDown link)
        else if s.node == 0xFFF || h.node == 0xFFF || h.node == s.node then .next ((s.stayDown link).raise pFab 0)
        else
          match agreed h with
          | none => .next ((s.stayDown link).raise pFab 1)
          | some v => .next (s.linkUp link h v)

/-! ## Flits (12 R383 to R385) -/

/-- One credit of a channel comes back (12 R385). -/
def LinkSt.credit (x : LinkSt) (v : Nat) : LinkSt :=
  let n := x.outst.getD v 0
  let x := if n ≤ 32 then { x with credits := x.credits.set v (x.credits.getD v 0 + 1) } else { x with shared := x.shared + 1 }
  { x with outst := x.outst.set v (n - 1) }

def LinkSt.creditN (x : LinkSt) (v : Nat) : Nat → LinkSt
  | 0 => x
  | n + 1 => (x.credit v).creditN v n

/-- What an ACK covers leaves the replay buffer. -/
def LinkSt.ack (x : LinkSt) (now a : Nat) : LinkSt :=
  match x.replay with
  | [] => x
  | (s0, _) :: _ =>
    let n := seqDist s0 a
    if n == 0 || n > x.replay.length then x else { x with replay := x.replay.drop n, acked := a, lastAck := now, tries := 0 }

/-- A flit cannot be used: it and those after it are discarded until a retry request is answered. -/
def LinkSt.askRetry (x : LinkSt) : LinkSt := if x.asked then x else { x.control 1 [x.rxNext] with asked := true }

/-- Corrected symbols count against their lane within 2^20 ticks (12 R388). -/
def LinkSt.symbols (x : LinkSt) (now : Nat) (l : List Nat) : LinkSt :=
  { x with syms := (l.take 4).zipIdx.foldl (fun t n =>
      let (c, t0) := tgetD t n.2 (0, now)
      tset t n.2 (if now - t0 > 2 ^ 20 then (n.1, now) else (c + n.1, t0))) x.syms }

/-- A data flit in its turn joins the message of its channel; the last one completes it (12 R383). -/
def LinkSt.accept (x : LinkSt) (h : Nat) (data : List Byte) : LinkSt :=
  let v := fld h 2 0
  let had := if bitOf h 3 then [] else tgetD x.partials v []
  let all := had ++ data
  let x := { x with rxNext := (x.rxNext + 1) % 1024, asked := false }
  if bitOf h 4 then { x with partials := tdel x.partials v, inbox := x.inbox ++ [(v, all)] } else { x with partials := tset x.partials v all }

/-- The credits a flit's header, and a control flit's contents, return. -/
def LinkSt.credits' (x : LinkSt) (now h : Nat) : LinkSt := (x.ack now (fld h 25 16)).creditN (fld h 28 26) (fld h 31 29)

/-- A control flit takes effect. -/
def State.controlFlit (s : State) (l : Nat) (data : List Byte) : State :=
  let (kind, vals) := Config.readControl data
  if kind == 0 then s.setLink l (vals.zipIdx.foldl (fun (x : LinkSt) v => x.creditN v.2 v.1) (s.link l))
  else if kind == 1 then s.replayFrom l (vals.headD 0)
  else s

def execFlitReceive (link : Nat) (flit : List Byte) (fec : Fec) (s : State) : Answer :=
  let x := s.link link
  if link ≥ 24 || x.st != .up || flit.length != 256 then .next s
  else
    let s := s.bumps [(pLink link + 0x050, sumList fec.syms)]
    let s := s.setLink link (x.symbols s.time.lctr fec.syms)
    let x := s.link link
    if fec.uncorr then .next (((s.setLink link x.askRetry).bump (pLink link + 0x058) 1).raise (pLink link) 1)
    else if crc32c (slice flit 0 252) != le32 flit 252 then .next ((s.setLink link x.askRetry).raise (pLink link) 0)
    else
      let h := le32 flit 0
      let data := slice flit 4 248
      let s := s.setLink link (x.credits' s.time.lctr h)
      let s := if bitOf h 5 then s.controlFlit link data
        else if fld h 15 6 == (s.link link).rxNext then (s.setLink link ((s.link link).accept h data)).bump (pLink link + 0x048) 1
        else s
      .next (s.pump link)

/-! ## Width, retrain, quarantine (12 R388 to R391) -/

/-- The lanes left when one fails: the other half. -/
def narrower (mask lane : Nat) : Nat :=
  if mask == 15 then (if lane < 2 then 12 else 3) else if popCount 4 mask == 2 then mask - 2 ^ lane else 0

/-- MIN_LANES as a number of lanes. -/
def State.minLanes (s : State) (l : Nat) : Nat := 2 ^ fld (s.reg32 (pLink l + 0x100)) 9 8

/-- A lane in use has too many corrected symbols, or has lost lock (12 R388). -/
def execLaneFail (link lane : Nat) (s : State) : Answer :=
  let x := s.link link
  if link ≥ 24 || x.st != .up || !bitOf x.laneMask lane || lane > 3 then .next s
  else
    let m := narrower x.laneMask lane
    if m == 0 || popCount 4 m < s.minLanes link then .next (s.linkLost link .down)
    else
      let s := (s.bump (pLink link + 0x070) 1).raise (pLink link) 2
      let s := s.setLink link { x with syms := tdel x.syms lane, widenAt := s.time.lctr + fld (s.reg32 (pFab + 0x114)) 7 0 * 2 ^ 20 * 2 ^ x.shift }
      .next (s.retrain link m)

/-- A retrain has not completed within 40 µs (12 R389). A link that tried to widen keeps its width. -/
def execRetrainTimeout (link : Nat) (s : State) : Answer :=
  let x := s.link link
  match x.retrainAt with
  | some t =>
    if link < 24 && x.st == .training && decide (s.time.lctr ≥ t + 4000) then .next ((s.raise (pLink link) 3).linkLost link .down) else .next s
  | none => .next s

/-- The end of a back-off: a quarantined link trains again; a narrowed link tries its full width (12 R388, R391). -/
def execQuarantineRetry (link : Nat) (ok : Bool) (s : State) : Answer :=
  let x := s.link link
  if link ≥ 24 then .next s
  else
    match x.st with
    | .quarantined =>
      if s.time.lctr < x.quarEnd then .next s
      else
        let s := s.bump (pLink link + 0x068) 1
        if ok then .next (s.linkTo link { s.link link with quarEnd := 0, retrains := [s.time.lctr] } .training)
        else .next ((s.raise (pLink link) 3).linkTo link { s.link link with quarEnd := 0 } .down)
    | .up =>
      if x.laneMask == 15 || decide (s.time.lctr < x.widenAt) then .next s
      else
        let wait := fld (s.reg32 (pFab + 0x114)) 7 0 * 2 ^ 20 * 2 ^ x.shift
        .next (State.retrain (s.setLink link { x with widenAt := s.time.lctr + wait }) link (if ok then 15 else x.laneMask))
    | _ => .next s

/-- A retried link has stayed up for a flap window without a retrain (12 R391). -/
def execFlapWindowEnd (link : Nat) (s : State) : Answer :=
  let x := s.link link
  let last := maxList x.retrains
  if link < 24 && x.st == .up && x.quarAt != 0 && decide (s.time.lctr ≥ max last x.quarAt + s.reg32 (pFab + 0x110) * 2 ^ 10) then .next (s.setLink link { x with shift := 0, quarAt := 0 })
  else .next s

end Sys2Proof.Machine
end

