-- ==== Sys2Proof/Machine/Fabric.lean ====
section
/-! DEFINITION. Messages received: relays, duplicates, epochs, policing; pool requests and refusals (spec 12 R392 to R404, 10 R343, 13 R412, R417). -/

namespace Sys2Proof.Machine

/-! ## Reception (12 R392 to R399) -/

/-- A message in the buffer of its link: a part of the one a command names. -/
def inboxOf (m : Msg) (e : Nat × List Byte) : Bool := byteAt e.2 0 == m.ty && fld (le32 e.2 4) 27 16 == m.src && le32 e.2 12 == m.txn

/-- It came on the low-priority channel (12 R393). -/
def State.lowOf (s : State) (m : Msg) : Bool := (s.link m.link).inbox.any fun e => e.1 == 7 && inboxOf m e

/-- A received message leaves the buffer of its link in all its parts, and its flits' credits go back (12 R385). -/
def State.unbuffer (s : State) (m : Msg) : State :=
  let x := s.link m.link
  let mine := x.inbox.filter (inboxOf m)
  if mine.isEmpty then s
  else
    let y := { x with inbox := x.inbox.filter (fun e => !inboxOf m e), owed := mine.foldl (fun o e => o.set e.1 (o.getD e.1 0 + e.2.length / 248)) x.owed }
    let s := (s.setLink m.link y).pump m.link
    let z := s.link m.link
    if z.owed.all (· == 0) || z.st != .up then s else s.setLink m.link { z.control 0 z.owed with owed := List.replicate 8 0 }

/-- A message for another node goes on by the same virtual channel (12 R399). -/
def State.relay (s : State) (m : Msg) (low : Bool) : State :=
  if m.hops ≥ 2 then (if m.ty == 0x05 then s else s.refuseMsg m 4)
  else
    match s.firstHop m low true 31 with
    | none => if m.ty == 0x05 then s else s.refuseMsg m 4
    | some l =>
      (s.bump (pFab + 0x050) 1).enqueue l (msgFlits { m with hops := m.hops + 1 } low)

/-- A pair of the duplicate table is still kept (12 R396). -/
def State.seen (s : State) (m : Msg) : Bool := s.fab.dup.any fun d => d.1 == m.src && d.2.1 == m.txn && decide (s.time.lctr - d.2.2 ≤ 2 ^ 20)

/-- Keeps a pair; a full table lets its oldest go early (12 R396). -/
def State.keepPair (s : State) (m : Msg) : State :=
  let live := s.fab.dup.filter fun d => decide (s.time.lctr - d.2.2 ≤ 2 ^ 20)
  let full := decide (live.length ≥ 8192)
  let d := if full then live.drop 1 else live
  let s := { s with fab := { s.fab with dup := d ++ [(m.src, m.txn, s.time.lctr)] } }
  if full then s.bump (pFab + 0x068) 1 else s

/-- Where a request's epoch stands (12 R395, 13 R412). -/
inductive EpochIs where
  | served
  | waits
  | stale
deriving DecidableEq, Repr

def State.epochIs (s : State) (m : Msg) : EpochIs :=
  if !([0x20, 0x21, 0x10, 0x18].contains m.ty) then .served
  else if m.epoch == s.epoch then .served
  else if s.cmp.prepared && le16 s.cmp.loaded 2 == m.epoch then .waits
  else if !s.cmp.draining.isEmpty && le16 s.cmp.draining 2 == m.epoch then (if m.ty == 0x21 then .stale else .served)
  else if m.ty == 0x18 then .served
  else .stale

/-- The partition a policed request is charged to: an exporter's, or the one named. -/
def State.windowOf (s : State) (m : Msg) (len : Nat) : Option (Nat × List Nat) :=
  let o := m.addr % 2 ^ 52
  s.fab.exp.find? fun w => w.2.getD 6 0 != 0 && decide (w.2.getD 0 0 * 2 ^ 26 ≤ o) && decide (o + len ≤ w.2.getD 0 0 * 2 ^ 26 + w.2.getD 2 0 * w.2.getD 4 0 * 65536)

/-- Bytes a pool request covers. -/
def poolLen (m : Msg) : Nat := if m.ty == 0x01 then m.arg else bodySize m.body

/-- A pool request that a window can serve (12 R403). -/
def State.windowFor (s : State) (m : Msg) : Option (List Nat) :=
  let n := poolLen m
  if n == 0 || n > 4096 || m.addr % 4096 + n > 4096 then none else (s.windowOf m n).map (·.2)

/-- Polices a request (10 R343): true when it is served. -/
def State.police (s : State) (m : Msg) (part : Nat) : State × Bool :=
  let n := max 1 (ceilDiv (bodySize m.body) 64)
  match s.classOf part 10 with
  | .green => (s.take part 10 n .green, true)
  | .yellow => ((s.take part 10 n .yellow).bump (pCapo part + 0x0A0) n, true)
  | .held => ((((s.bump (pCapo part + 0x0A8) n).bump (pCapo part + 0x0B0) 1).raiseAt (pCapo part) 0 (partAttr part)).refuseMsg m 1, false)

/-- A partition that answers the fabric: in service and not fenced (12 R397, 13 R431). -/
def State.fabricPart (s : State) (p : Nat) : Bool := p < 16 && (s.part p).units != 0 && !bitOf (s.reg32 (pCmp + 0x11C)) p

/-- The steps common to every message for this node. True: it is handled now. -/
def State.receive (s : State) (m : Msg) : State × Bool :=
  let low := s.lowOf m
  let s := s.unbuffer m
  if m.dst != s.node then (s.relay m low, false)
  else
    let s := if m.src == s.node then s else s.bump (pFab + 0x048) 1
    if !m.e2eOk || !msgTypes.contains m.ty then (s.bump (pFab + 0x070) 1, false)
    else if m.ni && s.seen m then (s.bump (pFab + 0x060) 1, false)
    else
      let s := if m.ni then s.keepPair m else s
      match s.epochIs m with
      | .waits => ({ s with fab := { s.fab with waitEpoch := s.fab.waitEpoch ++ [m] } }, false)
      | .stale => ((s.putMsg (s.reply m 0x28 0 .empty)).bump (pFab + 0x090) 1, false)
      | .served => (s, true)

/-- A command that stands for a message of one type: a message of another known type is no such command. -/
def State.onMsg (s : State) (ty : Nat) (m : Msg) (f : State → State) : State :=
  if m.ty != ty && msgTypes.contains m.ty then s else let r := s.receive m; if r.2 && m.ty == ty then f r.1 else r.1

/-- A kept pair leaves the table (12 R396). -/
def execDupPairExpiry (src txn : Nat) (s : State) : Answer :=
  .next { s with fab := { s.fab with dup := s.fab.dup.filter fun d => !(d.1 == src && d.2.1 == txn && decide (s.time.lctr ≥ d.2.2 + 2 ^ 20)) } }

/-! ## The exporter (12 R402, R403) -/

/-- Domain and offset of a fabric address in a window. -/
def windowPlace (w : List Nat) (o : Nat) : Nat × Nat :=
  let k := o - w.getD 0 0 * 2 ^ 26
  let n := max 1 (w.getD 4 0 * 65536)
  (w.getD 1 0 + k / n, w.getD 3 0 * 65536 + k % n)

/-- A row as base columns hold it (12 R403: overlays are bypassed). -/
def State.plainRow (s : State) (f off len : Nat) : Except Halt (List Byte) := State.readRow { s with hbm := { s.hbm with overlays := [] } } f off len 0

/-- The access of an admitted pool request; it waits while its domain is being replaced, and a read for its return space (03 R109, 01 R29). -/
def State.poolAccess (s : State) (w : List Nat) (part : Nat) (m : Msg) : State :=
  let (f, o) := windowPlace w (m.addr % 2 ^ 52)
  if s.sparingAt f then { s with fab := { s.fab with waitHbm := s.fab.waitHbm ++ [m] } }
  else if m.ty == 0x01 then
    match s.plainRow f o m.arg with
    | .ok d => s.sendMsg { s.reply m 0x02 0 (.bytes d) with epoch := 0, srcPart := part }
    | .error (.wait _) => { s with fab := { s.fab with waitHbm := s.fab.waitHbm ++ [m] } }
    | .error _ => s
  else
    match m.body with
    | .bytes d => (s.hbmWrite f o 0 d).putMsg { s.reply m 0x04 0 .empty with epoch := 0, srcPart := part }
    | _ => s

/-- Pool requests that waited for HBM look again, in their order. -/
def State.poolAgain (s : State) : State :=
  s.fab.waitHbm.foldl (fun s m => match s.windowFor m with
    | some w => s.poolAccess w (w.getD 5 0) m
    | none => s) { s with fab := { s.fab with waitHbm := [] } }

/-- A pool request is served with an ordinary access; a read that HBM cannot give is not answered (log entry 66, DEDUCED). -/
def State.servePool (s : State) (m : Msg) : State :=
  match s.windowFor m with
  | none => s.refuseMsg m 2
  | some w =>
    let part := w.getD 5 0
    if !s.fabricPart part then s.refuseMsg m 3
    else
      match s.police m part with
      | (s, false) => s
      | (s, true) =>
        s.poolAccess w part m

def execPoolRd (m : Msg) (s : State) : Answer := .next (s.onMsg 0x01 m fun s => s.servePool m)
def execPoolWr (m : Msg) (s : State) : Answer := .next (s.onMsg 0x03 m fun s => s.servePool m)

/-! ## The requester (12 R404) -/

/-- A command waits for a pool request that the limits have not let out. -/
def State.poolWaiting (s : State) : Option Cmd :=
  s.cmds.find? fun c => (match c.phase with
    | .run (.pool _ _ _ _) => true
    | .run (.poolWr _ _ _ _) => true
    | _ => false) && !(s.fab.reqs.any fun r => r.cmd == c.id && poolTypes r.msg)

/-- A request has left; the next one waiting goes out. -/
def State.poolNext (s : State) : State :=
  match s.poolWaiting with
  | some c => s.run c.id
  | none => s

/-- An answer to a request of this node. -/
def State.answered (s : State) (m : Msg) (ty : Nat) : Option Req := s.fab.reqs.find? fun r => r.txn == m.txn && r.msg.ty == ty && (r.msg.dst == m.src || m.src == s.node)

def execPoolData (m : Msg) (s : State) : Answer :=
  .next (s.onMsg 0x02 m fun s =>
    match s.answered m 0x01, m.body with
    | some r, .bytes d =>
      let s := ((s.dropReq r.txn).chargeFree r.part 10 (ceilDiv d.length 64)).bumps [(pGcu + 0x088, d.length)]
      (s.deliver r.cmd r.key (slice d 0 r.len)).poolNext
    | _, _ => s)

def execPoolAck (m : Msg) (s : State) : Answer :=
  .next (s.onMsg 0x04 m fun s =>
    match s.answered m 0x03 with
    | some r => ((s.dropReq r.txn).deliver r.cmd r.key []).poolNext
    | none => s)

/-- A pool request is lost: its command follows 13 R417. -/
def State.losePool (s : State) (r : Req) : State :=
  let s := s.dropReq r.txn
  match s.cmd r.cmd with
  | some c => (goOn c.id (s.poolLost c r.key (s.lostImage c r.msg.addr))).poolNext
  | none => s

/-- A refusal (12 R397). -/
def execRefuse (m : Msg) (s : State) : Answer :=
  .next (s.onMsg 0x05 m fun s =>
    let s := s.bump (pFab + 0x080) 1
    match s.req m.txn with
    | none => (match s.fab.sent.find? fun x => x.txn == m.txn && x.ty == 0x37 with
      | some x => s.lostMsg x
      | none => s)
    | some r =>
      if m.arg == 1 then
        let n := r.refusals + 1
        let cfg := s.reg32 (pFab + 0x100)
        if n > fld cfg 19 16 then s.unreachable r.msg
        else s.setReq { r with refusals := n, waitTo := some (s.time.lctr + 100 * fld cfg 15 0 * 2 ^ (n - 1)) }
      else if m.arg == 2 && poolTypes r.msg then s.losePool r
      else s.unreachable r.msg)

/-- A request to be sent again: one subject to 12 R396 takes a new transaction number, so that it is no duplicate. Log entry 169, DEDUCED. -/
def State.renew (s : State) (r : Req) : Req × State :=
  if r.msg.ni then
    let x := s.newTxn
    let r' := { r with txn := x.1, msg := { r.msg with txn := x.1 } }
    (r', { x.2 with fab := { x.2.fab with reqs := x.2.fab.reqs.map fun q => if q.txn == r.txn then r' else q },
                        col := { x.2.col with open' := x.2.col.open'.map fun k => if k.root && k.fanout && k.id == r.txn then { k with id := x.1 } else k } })
  else (r, s.setReq r)

def execRefuseResend (txn : Nat) (s : State) : Answer :=
  match s.req txn with
  | none => .next s
  | some r =>
    match r.waitTo with
    | none => .next s
    | some t =>
      if s.time.lctr < t then .next s
      else
        let y := s.renew { r with waitTo := none, at' := s.time.lctr }
        let x := y.2.trySend y.1.msg y.1.low
        .next (if x.2 then x.1 else y.2.unreachable y.1.msg)

/-- Another link than `l` leads to the destination. Log entry 82, DEDUCED. -/
def State.otherRoute (s : State) (m : Msg) (low : Bool) (l : Nat) : Bool :=
  match s.firstHop m low false l with
  | some k => k != l
  | none => false

/-- No response within TMO: sent once more where there is another route, else lost (12 R404). -/
def execPoolTimeout (txn : Nat) (s : State) : Answer :=
  match s.req txn with
  | none => .next s
  | some r =>
    if !poolTypes r.msg || r.waitTo.isSome || decide (s.time.lctr < r.at' + fld (s.reg32 (pFab + 0x118)) 31 16 * 2 ^ 14) then .next s
    else
      let l := (s.fab.sent.reverse.find? fun x => x.txn == txn && x.ty == r.msg.ty).elim 31 (·.link)
      if !r.resent && s.otherRoute r.msg r.low l then
        .next ((s.trySendNot r.msg r.low l).1.setReq { r with resent := true, at' := s.time.lctr })
      else .next ((s.raise pFab 3).losePool r)

end Sys2Proof.Machine
end

