-- ==== Sys2Proof/Machine/Collective.lean ====
section
/-! DEFINITION. Messages of collectives and barriers, and their timeouts (spec 05 R162 to R166, 13 R418, R419). -/

namespace Sys2Proof.Machine

/-! ## At the root -/

def State.rootColl (s : State) (m : Msg) : Option Coll := s.col.open'.find? fun k => k.root && k.wants m

/-- The status a root's collective ends with reaches its command. -/
def State.failRoot (s : State) (k : Coll) (e : Option (Nat × Nat)) : State :=
  match e, k.cmd.bind s.cmd with
  | some (st, sub), some c => goOn c.id (s.badPeers c st sub)
  | _, _ => s

def State.onCollOpen (s : State) (m : Msg) : State :=
  match s.rootColl m with
  | some k => let r := s.joinRoot k m; r.1.failRoot k r.2.2
  | none =>
    if m.fanout then
      match m.body with
        | .collOpen id _ _ _ _ => s.putMsg { s.mkMsg 0x14 m.src m.srcPart m.dstPart m.txn (.collAbort id stCancelled 0x0102) with fanout := true }
        | _ => s
    else { s with col := { s.col with early := s.col.early ++ [m] } }

def execCollOpen (m : Msg) (s : State) : Answer := .next (s.onMsg 0x10 m fun s => s.onCollOpen m)

/-- Queries whose blocks a collective carries. -/
def Coll.queries (k : Coll) : Nat := if k.fanout then k.count else k.own.length

/-- A message of a stream joins its block (05 R163). -/
def Joiner.take (j : Joiner) (n q : Nat) (summary : Option (Nat × SelBlock)) (es : List Entry) : Joiner :=
  let old := tgetD j.blocks q (0, emptyBlock)
  let new : Nat × SelBlock := match summary with
    | some (cnt, b) => (cnt, { b with entries := es })
    | none => (old.1, { old.2 with entries := old.2.entries ++ es })
  let bs := tset j.blocks q new
  { j with nextSeq := j.nextSeq + 1, blocks := bs, granted := j.granted + 1,
           complete := (List.range n).all fun i => (tget bs i).elim false fun b => decide (b.2.entries.length ≥ b.1) }

def State.onCollData (s : State) (m : Msg) : State :=
  match m.body with
  | .collData id q seq summary es =>
    (match s.findColl id m.dstPart m.fanout true 0 with
      | none => s
      | some k =>
        match k.find m.src with
        | none => s
        | some j =>
          -- a repeated message is known by its number (12 R396)
          if j.nextSeq != seq || j.complete then s
          else
            let j' := j.take k.queries q summary es
            let k' := { k with joiners := k.joiners.map fun x => if x.node == j.node then { j' with since := s.time.lctr } else x }
            let s := ((s.setColl k k').bump (pCol + 0x048) es.length).chargeFree k.part 10 (ceilDiv (bodySize m.body) 64)
            let s := if j'.complete then s else s.collGrant k' m.src 1
            if k.fanout then (if j'.complete then s.putMsg (s.collMsg k' 0x13 m.src m.txn (.collDone id)) else s)
            else match k'.cmd.bind s.cmd with
              | some c => goOn c.id (s.collCheck c k')
              | none => s)
  | _ => s

/-- COLL_DATA; value sums travel under its type too (log entry 67, DEDUCED). -/
def execCollData (m : Msg) (s : State) : Answer := .next (s.onMsg 0x12 m fun s => s.onCollData m)

/-- A contributor's value sums reach the root (05 R166). -/
def State.onValueSums (s : State) (m : Msg) : State :=
  match m.body with
  | .valueSums id q vals =>
    (match s.findColl id m.dstPart m.fanout true 0 with
      | none => s
      | some k =>
        let k' := { k with vals := tset k.vals (m.src * 2 ^ 20 + q) vals,
                           joiners := k.joiners.map fun x => if x.node == m.src then { x with since := s.time.lctr } else x }
        let s := (s.setColl k k').chargeFree k.part 10 (ceilDiv (bodySize m.body) 64)
        match k'.cmd.bind s.cmd with
        | some c => (match c.phase with
          | .run (.vals key own) => if k'.valsIn own.length then let r := s.valsDone k' own; r.1.deliver c.id key r.2 else s
          | _ => s)
        | none => s)
  | _ => s

def execPartialValueSums (m : Msg) (s : State) : Answer := .next (s.onMsg 0x12 m fun s => s.onValueSums m)

/-! ## At a contributor -/

def State.memberColl (s : State) (m : Msg) (id : Nat) : Option Coll := s.col.open'.find? fun k => !k.root && k.id == id && k.fanout == m.fanout && k.rootNode == m.src

def State.onCollGrant (s : State) (m : Msg) : State :=
  match m.body with
  | .collGrant id n => (match s.memberColl m id with
    | some k =>
      let k' := { k with credit := k.credit + n, granted := true }
      (s.setColl k k').collPush k'
    | none => s)
  | _ => s

def execCollGrant (m : Msg) (s : State) : Answer := .next (s.onMsg 0x11 m fun s => s.onCollGrant m)

/-- The key a contributor's command waits at. -/
def Cmd.collWait (c : Cmd) : Option Nat :=
  match c.phase with
  | .run (.coll key _) => some key
  | .run (.vals key _) => some key
  | _ => none

/-- The root confirms: the contributor goes on to its end (05 R162). -/
def State.onCollDone (s : State) (m : Msg) : State :=
  match m.body with
  | .collDone id => (match s.memberColl m id with
    | none => s
    | some k =>
      let s := s.delColl k
      match k.cmd.bind s.cmd with
      | none => s
      | some c => match c.collWait with
        | some key => s.deliver c.id key ((tget c.got key).getD [])
        | none => s)
  | _ => s

def execCollDone (m : Msg) (s : State) : Answer := .next (s.onMsg 0x13 m fun s => s.onCollDone m)

/-- Where a contributor keeps the merged maximum of a query until all are here. -/
def mergedKey (q : Nat) : Nat := 2 ^ 70 + 2 ^ 21 + q

/-- The merged maximum and this node's selected entries of one query (05 R166). -/
def State.onMergedM (s : State) (m : Msg) : State :=
  match m.body with
  | .mergedM id q mx ids => (match s.memberColl m id with
    | none => s
    | some k =>
      match k.cmd.bind s.cmd with
      | none => s
      | some c =>
        let got := tset c.got (mergedKey q) (mergedRec mx ids)
        let n := k.own.length
        let all := (List.range n).filterMap fun i => tget got (mergedKey i)
        if all.length < n then s.modCmd c.id fun x => { x with got := got }
        else if c.vout != 0 then (s.modCmd c.id fun x => { x with got := got }).deliver c.id collKey all.flatten
        else s.modCmd c.id fun x => { x with got := tset got collKey all.flatten })
  | _ => s

def execMergedMReturn (m : Msg) (s : State) : Answer := .next (s.onMsg 0x13 m fun s => s.onMergedM m)

/-! ## Abnormal ends (05 R165) -/

/-- What an end counts as. -/
def State.countEnd (s : State) (st sub : Nat) : State :=
  if st == stStale || sub == 0x0103 then (s.bump (pCol + 0x058) 1).raise pCol 1
  else if sub == 0x0101 then (s.bump (pCol + 0x050) 1).raise pCol 0
  else if sub == 0x0102 then (s.bump (pCol + 0x060) 1).raise pCol 2
  else s

/-- An abort: of the root to a member, or of a member that is lost to its root. -/
def State.onCollAbort (s : State) (m : Msg) : State :=
  match m.body with
  | .collAbort id st sub =>
    (match s.memberColl m id with
      | some k =>
        let s := (s.delColl k).countEnd st sub
        match k.cmd.bind s.cmd with
        | some c => goOn c.id (s.badPeers c st sub)
        | none => s
      | none =>
        match s.findColl id m.dstPart m.fanout true 0 with
        | none => s
        | some k =>
          if (k.find m.src).isNone then s
          else if k.fanout then s.delColl k
          else (s.countEnd stCancelled 0x0102).endColl k stCancelled stCancelled 0x0102)
  | _ => s

def execCollAbort (m : Msg) (s : State) : Answer := .next (s.onMsg 0x14 m fun s => s.onCollAbort m)

/-- A collective that the rules of 05 R165 give up at a time: a root whose members have not all asked to join within TMO of its admission, or one of whose granted streams has not moved for TMO; a contributor without a grant TMO after its request. `vals` are the value sums the root's command waits for. -/
def Coll.late (k : Coll) (vals : Option Nat) (now tmo : Nat) : Bool :=
  if k.root then
    (decide (k.joiners.length < k.expected) && decide (now ≥ k.since + tmo)) ||
      k.joiners.any fun j => decide (now ≥ j.since + tmo) && (!j.complete || vals.elim false fun n => !k.valsOf n j)
  else !k.granted && decide (now ≥ k.since + tmo)

/-- The value sums a command waits for from its contributors. -/
def State.awaitsVals (s : State) (k : Coll) : Option Nat := (k.cmd.bind s.cmd).bind fun c => match c.phase with
  | .run (.vals _ own) => some own.length
  | _ => none

def execCollectiveTimeout (coll part : Nat) (s : State) : Answer :=
  let tmo := fld (s.reg32 (pCol + 0x100)) 31 16 * 2 ^ 14
  match s.col.open'.find? fun k => k.id == coll && k.part == part && k.late (s.awaitsVals k) s.time.lctr tmo with
  | some k => .next ((s.countEnd stCancelled 0x0101).endColl k stCancelled stCancelled 0x0101)
  | none => .next s

/-! ## Barriers -/

/-- A barrier is over for a command: what it reads, and the edition it is fixed to. -/
def State.barDone (s : State) (b : Barrier) (code : Nat) : State :=
  match b.cmd.bind s.cmd with
  | some c => (s.modCmd c.id fun x => { x with eds := if code == 0 then s.barEds c else x.eds }).deliver c.id barKey [BitVec.ofNat 8 code]
  | none => s

/-- An arrival before the root's own: it waits, and TMO runs from the first one (13 R418, R419; log entry 205, DEDUCED). -/
def State.barEarlyAt (s : State) (m : Msg) : State :=
  let first := match m.body with
    | .barArrive id _ => if s.col.barFirst.any fun e => e.1 == id then s.col.barFirst else s.col.barFirst ++ [(id, s.time.lctr)]
    | _ => s.col.barFirst
  { s with col := { s.col with early := s.col.early ++ [m], barFirst := first } }

def State.onBarArrive (s : State) (m : Msg) : State :=
  match s.col.bars.find? fun b => b.root && b.wants m with
  | none => s.barEarlyAt m
  | some b =>
    match s.barJoin b m with
    | (s, _, none) => s
    | (s, b, some e) => s.barDone b e

def execBarArrive (m : Msg) (s : State) : Answer := .next (s.onMsg 0x18 m fun s => s.onBarArrive m)

def State.onBarRelease (s : State) (m : Msg) : State :=
  match m.body with
  | .barRelease id last status =>
    (match s.col.bars.find? fun b => !b.root && b.id == id && b.rootNode == m.src with
      | none => s
      | some b =>
        let s := s.delBar b
        if status == 0 then ((s.bump (pCol + 0x068) 1).noteLast last b.parts).barDone b 0
        else if status == 1 then (s.bump (pCol + 0x078) 1).barDone b 1
        else if status == 2 then s.barDone b (if m.epoch != b.epoch then 4 else 2)
        else s.barDone b 3)
  | _ => s

def execBarRelease (m : Msg) (s : State) : Answer := .next (s.onMsg 0x19 m fun s => s.onBarRelease m)

/-- Early arrivals at a barrier whose root never came to it are told of the time-out. -/
def State.barGiveUp (s : State) (bar : Nat) : State :=
  let mine := fun (m : Msg) => m.ty == 0x18 && (match m.body with
    | .barArrive id _ => id == bar
    | _ => false)
  let l := s.col.early.filter mine
  let s := { s with col := { s.col with early := s.col.early.filter (fun m => !mine m), barFirst := s.col.barFirst.filter fun e => e.1 != bar } }
  (l.foldl (fun s m => s.putMsg { s.mkMsg 0x19 m.src 0 0 m.txn (.barRelease bar s.node 1) with epoch := m.epoch }) s).bump (pCol + 0x078) 1

/-- Not every member has arrived within TMO (13 R419). -/
def execBarrierTimeout (bar : Nat) (s : State) : Answer :=
  let tmo := fld (s.reg32 (pCol + 0x140)) 31 16 * 2 ^ 14
  match s.col.bars.find? fun b => b.root && b.id == bar && decide (s.time.lctr ≥ b.since + tmo) with
  | some b => .next (((s.barTell b s.node 1).bump (pCol + 0x078) 1).barDone b 1)
  | none => .next (if s.col.barFirst.any fun e => e.1 == bar && decide (s.time.lctr ≥ e.2 + tmo) then s.barGiveUp bar else s)

end Sys2Proof.Machine
end

