-- ==== Sys2Proof/Machine/Forward.lean ====
section
/-! DEFINITION. Requests between nodes that carry commands: at the owner and at the origin (spec 07 R250, R251, 08 R278 to R280, 13 R415). -/

namespace Sys2Proof.Machine

/-! ## The owner -/

/-- A forwarded request becomes a command of the shard's partition. -/
def State.takeForward (s : State) (m : Msg) (dw : List Nat) (input : List Byte) : State :=
  let r := s.addCmd m.dstPart 0 .pa 0 dw 0 (.forwarded m.src m.txn m.srcPart)
  (r.1.modCmd r.2 fun c => { c with epoch := m.epoch, input := input, got := if input.length > c.inLen then [(12, input.drop c.inLen)] else [] }).run r.2

/-- A partition that owns a shard under the epoch of a request (12 R397, 13 R412). -/
def State.ownsShard (s : State) (num part epoch : Nat) : Bool :=
  (s.shard num).elim false fun x => x.part == part && (match mapOwner (s.mapOf epoch) num with
    | some (n, p) => n == s.node && p == part
    | none => !x.shadow)

def State.onSearchReq (s : State) (m : Msg) : State :=
  match m.body with
  | .search num dw q =>
    if !s.fabricPart m.dstPart || !s.ownsShard num m.dstPart m.epoch then s.refuseMsg m 3
    else
      match s.police m m.dstPart with
      | (s, false) => s
      | (s, true) => s.takeForward m dw q
  | _ => s

def execSearchReq (m : Msg) (s : State) : Answer := .next (s.onMsg 0x20 m fun s => s.onSearchReq m)

/-- The shards an update request touches. -/
def updateShards (dw : List Nat) (input : List Byte) : List Nat :=
  if fld (dw.getD 0 0) 7 0 == 0x31 then
    let n := dw.getD 5 0
    dedupNat ((List.range n).map fun i => idShard (le64 input (i * (input.length / max 1 n))))
  else [fld (dw.getD 12 0) 11 0]

def State.onUpdateReq (s : State) (m : Msg) : State :=
  match m.body with
  | .update _ dw input =>
    if !s.fabricPart m.dstPart || !(updateShards dw input).any (fun n => s.ownsShard n m.dstPart m.epoch) then s.refuseMsg m 3
    else
      match s.police m m.dstPart with
      | (s, false) => s
      | (s, true) => s.takeForward m dw input
  | _ => s

def execUpdateReq (m : Msg) (s : State) : Answer := .next (s.onMsg 0x21 m fun s => s.onUpdateReq m)

/-! ## The origin -/

/-- The owner has admitted a request (08 R280). -/
def execFwdAccept (m : Msg) (s : State) : Answer :=
  .next (s.onMsg 0x22 m fun s =>
    match s.answered m 0x21 with
    | some r => s.setReq { r with accepted := true }
    | none => s)

/-- Blocks of a fan-out at equal slots, as a search reads them back. -/
def fanBytes (k : Coll) : List Byte :=
  match k.joiners with
  | [] => []
  | j :: _ =>
    let l := (List.range k.count).map fun q => (tgetD j.blocks q (0, emptyBlock)).2
    let slots := maxList (l.map fun b => b.entries.length)
    (l.map fun b => blockBytes b slots).flatten

/-- An owner's answer: output, summary, status (08 R279); a search's blocks came before it (07 R250). -/
def State.onFwdResult (s : State) (m : Msg) : State :=
  match m.body with
  | .fwdResult st sub counter result edition out =>
    let a : OwnerAns := { status := st, sub := sub, counter := counter, result := result, edition := edition, out := out }
    let s := s.chargeFree m.dstPart 10 (ceilDiv (bodySize m.body) 64)
    (match s.answered m 0x21 with
      | some r => (s.dropReq r.txn).deliver r.cmd r.key a.bytes
      | none =>
        match s.answered m 0x20 with
        | none => s
        | some r =>
          let k := s.col.open'.find? fun k => k.root && k.fanout && k.id == r.txn
          let s := k.elim s s.delColl
          (s.dropReq r.txn).deliver r.cmd r.key { a with out := k.elim [] fanBytes ++ out }.bytes)
  | _ => s

def execFwdResult (m : Msg) (s : State) : Answer := .next (s.onMsg 0x23 m fun s => s.onFwdResult m)

/-- A forwarded update goes to the owner of the current epoch; the other parts keep their routes and answers (08 R280). -/
def State.restage (s : State) (c : Cmd) (key : Nat) : State :=
  let n := c.reruns + 1
  let s := s.bump (pUpd + 0x068) 1
  if n > fld (s.reg32 (pCtx + 0x100)) 7 0 then s.failAny c stRerun 0x0981 0 [] []
  else (s.modCmd c.id fun x => { x with reruns := n, epoch := s.epoch, flags := x.flags ||| 32, phase := .run .none, batches := x.batches.filter fun b => b.key != key }).bump (pCmp + 0x050) 1 |>.run c.id

/-- A peer does not know the epoch (13 R415). -/
def execEpochStale (m : Msg) (s : State) : Answer :=
  .next (s.onMsg 0x28 m fun s =>
    match s.req m.txn with
    | none => s
    | some r =>
      let s := s.dropReq r.txn
      match s.cmd r.cmd with
      | none => s
      | some c =>
        if r.msg.ty == 0x20 then (s.bump (pGwe + 0x0A0) 1).readmit c
        else if r.msg.ty == 0x21 then s.restage c r.key
        else if r.msg.ty == 0x10 then goOn c.id ((s.countEnd stStale 0).badPeers c stStale 0)
        else s)

end Sys2Proof.Machine
end

