-- ==== Sys2Proof/Machine/Sbc.lean ====
section
/-! DEFINITION. What the stack controllers do by themselves: restores after a loss, the spare copy, thermal levels, patrol scrub, the BAR4 aperture, a lost quadrant reference (spec 03 R101 to R110, 13 R427, 17 R508). -/

namespace Sys2Proof.Machine

/-! ## Restores after a loss (13 R427) -/

/-- Rows a target has in a domain: slots and side entries of a shard, members and base values of a region. -/
def State.targetRows (s : State) (t : Target) (f : Nat) : Nat :=
  match t with
  | .shard n => (match s.shView n (s.latest t) with
    | some v =>
      if !v.dies.contains (dieOf f) then 0
      else ((List.range v.st.hwm).filter fun i => v.fretOf i == f).length + ((List.range (v.st.tail - v.st.head)).filter fun i => v.fretOf (v.st.head + i) == f).length
    | none => 0)
  | .region c => match s.regView c (s.latest t) with
    | some v =>
      if !v.dies.contains (dieOf f) then 0
      else
        let mine := (v.slots.filter fun x => slotFret v.dies x.2.2 == f).map (·.2.2)
        sumList (mine.map fun slot => sumList (v.st.lens.map fun e => if e.1 % 65536 == slot then e.2 else 0))
    | none => 0

/-- Every bound target: shards, then regions. -/
def State.boundTargets (s : State) : List Target := s.shards.map (fun x => Target.shard x.num) ++ s.regions.map fun r => Target.region r.ctx

/-- Columns a target has bound in its domains. -/
def State.targetBound (s : State) (t : Target) : Option BoundRange :=
  match t with
  | .shard n => (s.shView n (s.latest t)).map fun v => v.d.bound v.dies
  | .region c => (s.regView c (s.latest t)).map fun v => v.d.boundNow v.dies v.st.pool

/-- A target's rows in a domain return from its image chain and log: they stand as at its latest edition (13 R426, R427; log entry 69, DEDUCED). -/
def State.returnRows (s : State) (f : Nat) (keep : List Host.Cell) (ovl : List Overlay) (t : Target) : State :=
  match s.targetBound t with
  | none => s
  | some b =>
    let mine := fun (a : Nat) => decide (linOf f (b.lo * 32) ≤ a) && decide (a < linOf f (b.hi * 32))
    let base := keep.filter fun c => mine c.1
    let h := { s.hbm with cells := base.foldl (fun m c => memSet m c.1 c.2) s.hbm.cells, poison := clearPoison s.hbm.poison f (b.lo * 32) ((b.hi - b.lo) * 32) }
    let os := sortBy (fun (x y : Overlay) => decide (x.edition ≤ y.edition)) (ovl.filter fun o => o.fret == f && o.owner == some t)
    let s := os.foldl (fun s o => s.hbmWrite f (o.base * 32 + o.first) 0 (memRead keep (linOf f (o.stage * 32 + o.first)) o.len)) { s with hbm := h }
    s.bump (pCmp + 0x088) (s.targetRows t f)

/-- A domain that could not be copied has its spare: targets with an area are written again, others keep poisoned rows. -/
def State.restoreDomain (s old : State) (f : Nat) : State :=
  if !bitOf (s.reg32 (pCmp + 0x108)) 0 then s
  else
    (s.boundTargets.filter fun t => decide (old.targetRows t f > 0)).foldl (fun s t =>
      if (s.area t).isSome then s.returnRows f old.hbm.cells old.hbm.overlays t else s.raise pCmp 5) s

/-- The descriptor words of a RESTORE of a target from its area, with replay. -/
def restoreWords (a : Area) : List Nat :=
  let t := match a.target with
    | .region _ => 1
    | .shard n => 2 * n
  (((((List.replicate 32 0).set 0 0x61).set 5 1).set 12 (t + 2 ^ 14)).set 13 (a.lua % 2 ^ 32)).set 14 (a.lua / 2 ^ 32) |>.set 15 a.units

/-- A core die is fenced: every target with rows there is restored from its area. -/
def State.restoreDie (s : State) (die : Nat) : State :=
  if !bitOf (s.reg32 (pCmp + 0x108)) 0 then s
  else
    (s.boundTargets.filter fun t => (List.range 64).any fun i => decide (s.targetRows t (64 * die + i) > 0)).foldl (fun s t =>
      match s.area t with
      | some a => s.startOwn a.part a.target.ctxOf (restoreWords a) (s.ownWork 0x61 fun c => c.kTarget == t)
      | none => s.raise pCmp 5) s

/-- Dies lost since `old`: rows restored by an internal RESTORE are those of these dies, and commands that stalled for a spare there go on. -/
def State.afterFence (old s : State) : State :=
  let new := s.hbm.deadDies.filter fun d => !old.hbm.deadDies.contains d
  if new.isEmpty then s
  else
    let s := { s with sbc := { s.sbc with stalled := s.sbc.stalled.filter fun i => match i.frame? with
      | some f => !s.hbm.deadDies.contains f.dieKey
      | none => true } }
    let s := new.foldl (fun s d => s.restoreDie d) s
    (s.cmds.filter fun c => match c.phase with
      | .run (.spare f) => !s.sparingAt f
      | _ => false).foldl (fun s c => s.run c.id) s


/-! ## Temperature (03 R107) -/

/-- 0 below 85 °C, 1 from there (refresh doubled), 2 from 95 °C (an idle column cycle after every stroke). -/
def thermalLevel (temp : Nat) : Nat := if temp ≥ 95 then 2 else if temp ≥ 85 then 1 else 0

def execStackThermal (stack temp : Nat) (s : State) : Answer :=
  if stack ≥ 12 then .next s
  else
    let t := sat8 temp
    let was := tgetD s.hbm.thermal stack 0
    let s := { s with hbm := { s.hbm with temp := tset s.hbm.temp stack t, tempMax := tset s.hbm.tempMax stack (max t (tgetD s.hbm.tempMax stack 0)),
                                          thermal := tset s.hbm.thermal stack (thermalLevel t) } }
    if thermalLevel t == 2 && was != 2 then
      .next ((s.elog stack { time := s.time.lctr, pair := 0, die := 0, kind := 10, writer := 3, symbol := 0x3F, spare := false, dca := 0, channel := 0, count := 0 }).raise (pSbc stack) 6)
    else .next s

/-! ## BAR4 (03 R104 to R106) -/

/-- The linear address of an aperture offset. -/
def State.aptAddr (s : State) (p : Port) (off : Nat) : Nat := fld (s.reg32 (pSbc 0 + 0x180 + 4 * p.idx)) 9 0 * 2 ^ 30 + off

/-- An access that SBC drops: beyond HBM, on what is fenced, or in a confidential partition's slice. -/
def State.aptDrop (s : State) (lin : Nat) : Bool :=
  let f := lin / fretBytes
  decide (lin ≥ nFrets * fretBytes) || s.hbm.deadDies.contains (dieOf f) || s.hbm.deadChs.contains (stackOf f * 32 + chanOf f) ||
    (List.range 16).any fun p => s.confidential p && s.dieIn p (dieOf f)

/-- The page whose entry a byte of the FTE area holds, and which of its five bytes (11 R357). -/
def State.mapPlace (s : State) (f o : Nat) : Option (Nat × Nat) :=
  let top := s.stageBase f * 32
  let base := top - s.fte.area * 65536
  if s.fte.area == 0 || o < base || (o - base) / 5 ≥ (s.fte.area - 1) * 65536 / 5 then none else some ((o - base) / 5 * nFrets + f, (o - base) % 5)

/-- An entry as a 40-bit word (11 R356). -/
def MapEnt.word (m : MapEnt) : Nat := m.kind % 4 * 2 ^ 38 + m.zmask % 16 * 2 ^ 34 + m.ppa % 2 ^ 33

def mapEntOf (w : Nat) : MapEnt := { kind := fld w 39 38, zmask := fld w 37 34, ppa := fld w 32 0 }

/-- Bytes that stand at offset `o` of a domain, with the map's entries where the FTE area holds them (11 R357). Log entry 168, DEDUCED. -/
def State.mapView (s : State) (f o : Nat) (d : List Byte) : List Byte :=
  if s.fte.area == 0 then d
  else d.zipIdx.map fun x => match s.mapPlace f (o + x.2) with
    | some (g, i) => (leBytes 5 (s.mapNow g).word).getD i 0
    | none => x.1

/-- A byte written where a domain's entries stand changes its entry. -/
def State.mapByte (s : State) (f : Nat) (t : Tab MapEnt) (o : Nat) (b : Byte) : Tab MapEnt :=
  match s.mapPlace f o with
  | some (g, i) =>
    let m := mapEntOf (leNat ((leBytes 5 (tgetD t g MapEnt.none').word).set i b))
    if m == MapEnt.none' then tdel t g else tset t g m
  | none => t

/-- Bytes written into the FTE area change the entries they belong to (11 R357). -/
def State.mapPut (s : State) (f o : Nat) (d : List Byte) : State :=
  if s.fte.area == 0 then s
  else { s with fte := { s.fte with map := d.zipIdx.foldl (fun t x => s.mapByte f t (o + x.2) x.1) s.fte.map } }

/-- Bytes of a read: what cannot be corrected reads as an open value (log entry 3, DESIGN CHOICE). -/
def State.aptRead (s : State) (f o n : Nat) : List Byte × State :=
  let base := pSbc (stackOf f)
  if s.armed base 1 then
    let s := (s.uncorrect f (o / 32) []).disarm base 1
    let r := s.takeFree (8 * n)
    (leBytes n r.1, r.2)
  else if s.poisonedRow f o n then let r := s.takeFree (8 * n); (leBytes n r.1, r.2)
  else (s.mapView f o (s.hbmRead f o n), s)

/-- The parts of an access by domain: domain, offset, length. -/
def domainParts : Nat → Nat → Nat → List (Nat × Nat × Nat)
  | 0, _, _ => []
  | k + 1, lin, n =>
    if n == 0 then []
    else let m := min n (fretBytes - lin % fretBytes); (lin / fretBytes, lin % fretBytes, m) :: domainParts k (lin + m) (n - m)

def Access.size : Access → Nat
  | .rd n => n
  | .wr d => d.length

/-- The decoder reads a column: all of a read's, and those a write changes in part (03 R105). -/
def aptReads (acc : Access) (q : Nat × Nat × Nat) (col : Nat) : Bool :=
  runsMeet (q.2.1, q.2.2) (col * 32, 32) && (match acc with
    | .rd _ => true
    | .wr _ => !(decide (q.2.1 ≤ col * 32) && decide (col * 32 + 32 ≤ q.2.1 + q.2.2)))

/-- What the controller's decoder meets in a column (03 R107). -/
def State.scrubFlaw (s : State) (x : Flaw) : State :=
  match x.kind with
  | .single => s.correct x.fret x.col 0 x.symbol
  | .double => s.uncorrect x.fret x.col []
  | .parity | .tag => s

/-- Flaws in the columns an access reads. -/
def State.aptFlaws (s : State) (acc : Access) (parts : List (Nat × Nat × Nat)) (flaws : List Flaw) : State :=
  (flaws.filter fun x => parts.any fun q => q.1 == x.fret && aptReads acc q x.col).foldl State.scrubFlaw s

/-- An access through the aperture of a port's physical function. -/
def State.aperture (s : State) (p : Port) (off : Nat) (acc : Access) (flaws : List Flaw) : State :=
  let lin := s.aptAddr p off
  let n := Access.size acc
  let parts := domainParts (n / fretBytes + 2) lin n
  if n == 0 then s
  else if s.aptDrop lin || s.aptDrop (lin + n - 1) then
    let st := if lin ≥ nFrets * fretBytes then 0 else stackOf (lin / fretBytes)
    let s := (s.bump (pSbc st + 0x078) 1).raise (pSbc st) 7
    match acc with
    | .rd n => s.emit p (.answer 0 off (List.replicate n 0xFF))
    | .wr _ => s
  else
    let s := s.aptFlaws acc parts flaws
    match acc with
    | .rd _ =>
      let r := parts.foldl (fun (x : List Byte × State) q => let y := x.2.aptRead q.1 q.2.1 q.2.2; (x.1 ++ y.1, y.2)) ([], s)
      r.2.emit p (.answer 0 off r.1)
    | .wr d => (parts.foldl (fun (x : State × List Byte) q => ((x.1.hbmWrite q.1 q.2.1 0 (x.2.take q.2.2)).mapPut q.1 q.2.1 (x.2.take q.2.2), x.2.drop q.2.2)) (s, d)).1

/-- An access of this port waits. -/
def State.aptWaits (s : State) (p : Port) : Bool := s.sbc.stalled.any fun i => match i with
  | .bar4Access q _ _ => q == p
  | _ => false

/-- An access beyond the aperture's size is not this function's. One to a domain being replaced waits, and later ones of its port behind it (03 R105, R106, R109). -/
def execBar4Access (port : Port) (off : Nat) (x : ApertureAccess) (s : State) : Answer :=
  let n := Access.size x.acc
  if !(s.port port).up || !s.powered (3 + port.idx) || decide (off + n > (s.port port).bar4 * 2 ^ 30) then .next s
  else if s.aptWaits port || ((domainParts (n / fretBytes + 2) (s.aptAddr port off) (n)).any fun q => s.sparingAt q.1) then
    .next { s with sbc := { s.sbc with stalled := s.sbc.stalled ++ [.bar4Access port off x] } }
  else .next (State.afterFence s (s.aperture port off x.acc x.flaws))

/-! ## Patrol scrub (03 SBC_CFG, 10 R344) -/

/-- A pass over a stack: what its decoder met in each column. -/
def execPatrolScrub (stack : Nat) (flaws : List Flaw) (s : State) : Answer :=
  if stack ≥ 12 || !bitOf (s.reg32 (pSbc stack + 0x100)) 13 then .next s
  else .next (State.afterFence s ((flaws.filter fun x => stackOf x.fret == stack && x.fret < nFrets && x.col < fretCols && !s.hbm.deadDies.contains (dieOf x.fret)).foldl State.scrubFlaw s))

/-! ## Frames, and what waits at the stack controllers (03 R79, R92, R109) -/

/-- An answer with the restores its fences call for. -/
def withFence (old : State) : Answer → Answer
  | .next s => .next (State.afterFence old s)
  | x => x

def execQload (f : Frame) (s : State) : Answer := withFence s (qloadGo f s)
def execQscrub (f : Frame) (s : State) : Answer := withFence s (qscrubGo f s)
def execStrum (f : Frame) (flaws : List Flaw) (s : State) : Answer := withFence s (strumGo f flaws s)
/-- Log entry 124, DESIGN CHOICE. -/
def execPluck (f : Frame) (flaws : List Flaw) (s : State) : Answer := withFence s (pluckGo f flaws s)
def execHist (f : Frame) (s : State) : Answer := withFence s (histGo f s)
def execList (f : Frame) (s : State) : Answer := withFence s (listGo f s)
def execExpsum (f : Frame) (s : State) : Answer := withFence s (expsumGo f s)
def execVacc (x : ReadFrame) (s : State) : Answer := withFence s (vaccGo x.frame x.flaws s)
def execString (f : Frame) (s : State) : Answer := withFence s (stringGo f s)
def execStageWrite (x : ReadFrame) (s : State) : Answer := withFence s (stageWriteGo x.frame x.flaws s)
def execCommitRow (f : Frame) (flaws : List Flaw) (s : State) : Answer := withFence s (commitRowGo f flaws s)

/-- The state an answer goes on in. -/
def nextOf (s : State) : Answer → State
  | .next t => t
  | _ => s

/-- A frame or access that waited is issued; it may wait again. -/
def State.reissue (s : State) : Instr → State
  | .qload f => nextOf s (execQload f s)
  | .qscrub f => nextOf s (execQscrub f s)
  | .strum f l => nextOf s (execStrum f l s)
  | .pluck f l => nextOf s (execPluck f l s)
  | .hist f => nextOf s (execHist f s)
  | .list f => nextOf s (execList f s)
  | .expsum f => nextOf s (execExpsum f s)
  | .vacc x => nextOf s (execVacc x s)
  | .string f => nextOf s (execString f s)
  | .stageWrite x => nextOf s (execStageWrite x s)
  | .commitRow f l => nextOf s (execCommitRow f l s)
  | .bar4Access p off x => nextOf s (execBar4Access p off x s)
  | _ => s

/-- What waits looks again, in its order. -/
def State.reissueAll (s : State) : State := s.sbc.stalled.foldl State.reissue { s with sbc := { s.sbc with stalled := [] } }

/-! ## Sparing (03 R109) -/

/-- The copy into a spare has completed, and the commands that stalled go on. -/
def State.copyDone (s : State) (fret : Nat) : State :=
  match s.hbm.sparing.find? fun x => x.fret == fret with
  | none => s
  | some x =>
    let t := s.spareDone fret
    let t := if x.reads then t else t.restoreDomain s fret
    ((t.cmds.filter fun c => c.phase == .run (.spare fret)).foldl (fun s c => s.run c.id) t).poolAgain.reissueAll

def execSpareCopyDone (fret : Nat) (s : State) : Answer := .next (s.copyDone fret)

/-! ## Time passes for the stack controllers (01 R29, R30) -/

/-- The consumers take what their queues hold; frames, accesses and commands that waited for space or a turn look again. -/
def State.drain (s : State) : State :=
  let s := ({ s with sbc := s.sbc.consume } : State).poolAgain.reissueAll
  (s.cmds.filter fun c => match c.phase with
    | .run (.ret f) => s.sbc.room (retKey f) 1
    | _ => false).foldl (fun s c => s.run c.id) s

/-- Nothing is commanded: the buffers drain and local time passes. -/
def State.idle (s : State) : State := s.drain.idleTick

/-! ## A quadrant without its reference (17 R508) -/

/-- A channel does not train: its die is fenced (03 R107). -/
def State.failChannel (s : State) (stack ch : Nat) : State :=
  let h := { s.hbm with deadChs := dedupNat (s.hbm.deadChs ++ [stack * 32 + ch]) }
  let s := ({ s with hbm := h } : State).elog stack
    { time := s.time.lctr, pair := 0, die := ch / 2, kind := 8, writer := 3, symbol := 0x3F, spare := false, dca := 0, channel := ch, count := 0 }
  (s.raise (pSbc stack) 5).fenceDie (stack * 16 + ch / 2)

end Sys2Proof.Machine
end

