-- ==== Sys2Proof/Machine/Nand.lean ====
section
/-! DEFINITION. What the flash engine does by itself: reads that return, programs, relocation, the patrol scan, the loss and rebuild of a die; a quadrant that loses its reference (spec 11 R363 to R376, R519, 17 R508). -/

namespace Sys2Proof.Machine

/-! ## Moving pages (11 R369) -/

/-- Dies of the stripe a page lies in. -/
def State.stripeOf (s : State) (p a : Nat) : List Nat :=
  match (s.supersOf p).find? fun x => s.inSuper x.2 a with
  | some (_, x) => ((stripes (x.dies.filter fun d => !retired (s.die d) x.block)).find? fun l => l.contains (a / 2 ^ 24)).getD []
  | none => []

/-- The other pages of its stripe row, from which a page is reconstructed (11 R371). -/
def State.mates (s : State) (p a : Nat) : List Nat := ((s.stripeOf p a).filter (· != a / 2 ^ 24)).map fun d => d * 2 ^ 24 + a % 2 ^ 24

/-- Every entry that names a page address names another one. -/
def State.rename (s : State) (g a b : Nat) : State :=
  let f := fun (m : MapEnt) => if m.ppa == a && m.kind == 1 then { m with ppa := b } else m
  { s with fte := { s.fte with map := s.fte.map.map fun e => if e.1 == g then (e.1, f e.2) else e,
                               hist := s.fte.hist.map fun h => if h.page == g then { h with prev := f h.prev } else h } }

/-- A page is written again through a stream, its units as they were encrypted; false when no space is free. -/
def State.movePage (s : State) (p st a : Nat) : State × Bool :=
  match tget s.fte.phys a with
  | none => (s, true)
  | some x =>
    match s.placePage p st x.gpage x.key x.data with
    | none => (s, false)
    | some (b, s) => (s.rename x.gpage a b, true)

/-- Relocates one page through stream 1, charged to the partition (11 R368, R372). -/
def State.relocate (s : State) (p a : Nat) : State × Bool :=
  let r := s.movePage p 1 a
  if r.2 then (((r.1.countReads 4 [a]).chargeFree p 7 256).chargeFree p 8 256, true) else (s, false)

/-- Relocates pages in order until one finds no space. -/
def State.relocateAll (s : State) (p : Nat) : List Nat → State × Bool
  | [] => (s, true)
  | a :: r =>
    match s.relocate p a with
    | (s, true) => (s.bump (pFte + 0x058) 1).relocateAll p r
    | (s, false) => (s, false)

/-- A superblock is relocated; a closed one then waits for its erase. -/
def State.relocateSuper (s : State) (p i : Nat) (x : Super) : State :=
  let r := s.relocateAll p (s.validIn x)
  if r.2 then (if x.closed then r.1.setSuper p i { x with erasing := true } else r.1) else r.1.raiseAt pFte 4 (partAttr p)

/-! ## Garbage collection (11 R368) -/

/-- One victim of a relocation in progress. Traffic below URGENT is never held by capos. -/
def State.gcStep (s : State) (p : Nat) : State :=
  if !bitOf s.fte.gc p || s.held then s
  else if !s.urgent p && s.classOf p 7 == .held then s.noteHeld p 7
  else if !s.urgent p && s.classOf p 8 == .held then s.noteHeld p 8
  else
    match s.gcVictim p with
    | some (i, x) => s.relocateSuper p i x
    | none => if (s.supersOf p).any fun x => x.2.erasing then s else s.raiseAt pFte 4 (partAttr p)

/-- Relocation starts below START percent, and goes on while it is active. -/
def execGcStart (part : Nat) (s : State) : Answer :=
  let s := s.freeHist part
  if part ≥ 16 || s.superCount part == 0 then .next s
  else if bitOf s.fte.gc part then .next (s.gcStep part).pumpDies
  else if s.freePct part < fld (s.reg32 (pFte + 0x104)) 7 0 then .next (State.gcStep { s with fte := { s.fte with gc := setBit s.fte.gc part true } } part).pumpDies
  else .next s

/-- The blocks of a victim have been erased: the superblock is free, and relocation stops at STOP percent or takes its next victim. -/
def execEraseComplete (part sb : Nat) (s : State) : Answer :=
  let s := s.pumpDies
  match s.super part sb with
  | none => .next s
  | some x =>
    if !x.erasing || !s.allOut ⟨part, .erase sb⟩ (s.eraseDies x) then .next s
    else
      let s := s.endOps fun o => o == ⟨part, .erase sb⟩
      let phys := s.fte.phys.filter fun e => !(e.2.part == part && s.inSuper x e.1)
      let s := State.bump { s with fte := { s.fte with phys := phys, supers := tdel s.fte.supers (superKey part sb) } } (pFte + 0x050)
        (sumList ((s.eraseDies x).map fun d => max 1 (s.die d).planes))
      let s := if s.freePct part ≥ fld (s.reg32 (pFte + 0x104)) 15 8 then { s with fte := { s.fte with gc := setBit s.fte.gc part false } }
        else (s.freeHist part).gcStep part
      .next s.pumpDies

/-! ## Losing a die (11 R374 to R376) -/

/-- Entries that name a page become poisoned (11 R373). -/
def State.poisonPage (s : State) (g a : Nat) : State :=
  let f := fun (m : MapEnt) => if m.ppa == a && m.kind == 1 then { m with kind := 2 } else m
  { s with fte := { s.fte with map := s.fte.map.map fun e => if e.1 == g then (e.1, f e.2) else e,
                               hist := s.fte.hist.map fun h => if h.page == g then { h with prev := f h.prev } else h } }

/-- Valid pages that a second loss in their row leaves without reconstruction. -/
def State.doubleLoss (s : State) : List (Nat × Phys) :=
  s.fte.phys.filter fun e => e.2.programmed && s.dieLost (e.1 / 2 ^ 24) && s.pageValid e.2.gpage e.1 &&
    (let l := s.stripeOf e.2.part e.1
     l.length ≤ 1 || decide ((l.filter s.dieLost).length ≥ 2))

/-- A die is declared dead: its rebuild starts, what cannot be rebuilt is lost, what is not yet programmed goes elsewhere. -/
def State.killDie (s : State) (d : Nat) : State :=
  match (s.die d).st with
  | .good =>
    let s := s.modDie d fun x => { x with st := .rebuilding }
    let s := { s with fte := { s.fte with runs := tdel s.fte.runs d } }
    let s := State.raise { s with fte := { s.fte with rebuild := s.fte.rebuild ++ [d] } } pFte 2
    let lost := s.doubleLoss
    let s := if lost.isEmpty then s else (s.bump (pFte + 0x080) (4 * lost.length)).raise pFte 3 |>.raise pFte 1
    let s := lost.foldl (fun s e => s.poisonPage e.2.gpage e.1) s
    let rows := s.fte.streams
    let pend := s.fte.phys.filter fun e => !e.2.programmed && e.1 / 2 ^ 24 == d
    let s := { s with fte := { s.fte with streams := rows.map fun e => (e.1, { e.2 with row := e.2.row.filter fun a => a / 2 ^ 24 != d }) } }
    pend.foldl (fun s e =>
      let st := ((rows.find? fun r => r.1 / 4 == e.2.part && r.2.row.contains e.1).map fun r => r.1 % 4).getD 0
      let r := s.movePage e.2.part st e.1
      if r.2 then { r.1 with fte := { r.1.fte with phys := tdel r.1.fte.phys e.1 } } else (s.poisonPage e.2.gpage e.1).raise pFte 4) s
  | _ => s

/-- A die has not answered within 10 ms. -/
def execDieTimeout (die : Nat) (s : State) : Answer :=
  if die ≥ 512 || (s.die die).st != .good then .next s
  else .next (((s.bump (pChan (die / 16) + 0x058) 1).raise (pChan (die / 16)) 1).killDie die)

/-- Writes the valid pages of a lost die again; false when space runs short. -/
def State.rebuildPages (s : State) : List (Nat × Phys) → State × Bool
  | [] => (s, true)
  | (a, x) :: r =>
    let m := s.movePage x.part 1 a
    if m.2 then (((m.1.countReads 4 (s.mates x.part a)).chargeFree x.part 8 256).bump (pFte + 0x0B0) 1).rebuildPages r else (s.raiseAt pFte 4 (partAttr x.part), false)

/-- The rebuild of a die ends: every valid page has been reconstructed and written, and the die is excluded (11 R375). -/
def execRebuildComplete (die : Nat) (s : State) : Answer :=
  if (s.die die).st != .rebuilding then .next s
  else
    let r := s.rebuildPages (s.fte.phys.filter fun e => e.1 / 2 ^ 24 == die && e.2.programmed && s.pageValid e.2.gpage e.1)
    if !r.2 then .next r.1
    else
      let s := r.1.modDie die fun x => { x with st := .excluded }
      .next { s with fte := { s.fte with rebuild := s.fte.rebuild.filter (· != die), phys := s.fte.phys.filter fun e => e.1 / 2 ^ 24 != die } }

/-! ## Reads (11 R371 to R373) -/

/-- The step at which a codeword decodes. A page of a lost die goes to reconstruction at once, an armed injection fails the hard decode, step 2 is skipped on a die without read-retry, and step 4 needs the other pages of the row (11 R350, R371, R374). -/
def State.decodeStep (s : State) (p a : Nat) (dec : Decoded) : Nat :=
  let retry := (s.die (a / 2 ^ 24)).retry && fld (s.reg32 (pFte + 0x108)) 19 16 != 0
  let whole := !(s.mates p a).isEmpty && !(s.mates p a).any fun b => s.dieLost (b / 2 ^ 24)
  let step := if dec.step == 0 then 0 else if s.dieLost (a / 2 ^ 24) then 4
    else if dec.step == 1 && s.armed pFte 0 then 2 else dec.step
  if step == 2 && !retry then 3 else if step == 4 && !whole then 0 else step

/-- A read of a superblock counts; beyond DISTURB_THR it is relocated. -/
def State.disturb (s : State) (p a n : Nat) : State :=
  match (s.supersOf p).find? fun x => s.inSuper x.2 a with
  | none => s
  | some (i, x) =>
    let s := s.setSuper p i { x with reads := x.reads + n }
    if x.reads + n > fld (s.reg32 (pFte + 0x108)) 31 20 * 2 ^ 10 && !x.erasing then s.relocateSuper p i { x with reads := x.reads + n } else s

/-- One codeword of a page is read and decoded. -/
def State.readCodeword (s : State) (p g a : Nat) (dec : Decoded) : State :=
  let step := s.decodeStep p a dec
  let s := if dec.step == 1 && s.armed pFte 0 && !s.dieLost (a / 2 ^ 24) then s.disarm pFte 0 else s
  let s := s.countReads 1 ((if s.dieLost (a / 2 ^ 24) then [] else [a]) ++ if step == 4 then s.mates p a else [])
  let s := s.bumps [(pFte + 0x068, b2n (step == 2)), (pFte + 0x070, b2n (step == 3)), (pFte + 0x078, b2n (step == 4))]
  if step == 0 then ((s.poisonPage g a).bump (pFte + 0x080) 1).raiseAt pFte 1 (partAttr p)
  else
    let s := if step ≥ 2 || dec.bits > fld (s.reg32 (pFte + 0x108)) 9 0 then
        let r := s.relocate p a
        if r.2 then r.1.bump (pFte + 0x088) 1 else s
      else s
    s.disturb p a 1

/-- What a command that waits for a unit receives: none when it is unreadable (11 R373). -/
def State.giveUnit (s : State) (c : Cmd) (lua : Nat) : State :=
  let d := (s.unitOf (s.entryFor c lua) (lua % 4)).getD []
  if c.phase == .run (.flash lua) then s.deliver c.id (flashKey lua) d
  else match s.charge c.part 7 64 with
    | none => s.noteHeld c.part 7
    | some s => s.modCmd c.id fun x => { x with got := tset x.got (flashKey lua) d }

/-- A read of a unit completes on the dies on which it is outstanding, for every command that waits for it there. -/
def execFlashReadDone (part lua : Nat) (dec : Decoded) (s : State) : Answer :=
  let s := s.pumpDies
  let out := s.readsOut part lua
  let open' := fun (m : MapEnt) => m.kind == 1 && !bitOf m.zmask (lua % 4) && (tget s.fte.phys m.ppa).elim false (·.programmed)
  let cs := s.cmds.filter fun c => c.part == part && (c.phase == .run (.flash lua) || ((tget c.got (flashKey lua)).isNone && s.expanding c lua)) &&
    (let m := s.entryFor c lua
     !open' m || s.dieLost (m.ppa / 2 ^ 24) || out.contains m.ppa)
  let as := dedupNat (out ++ ((cs.map fun c => s.entryFor c lua).filter open').map (·.ppa))
  let s := s.endOps fun o => o.part == part && o.work.isReadOf lua
  let s := as.foldl (fun s a => s.readCodeword part (s.gpage part lua) a dec) s
  .next (cs.foldl (fun s c => match s.cmd c.id with
    | some c => s.giveUnit c lua
    | none => s) s).pumpDies

/-- The scan reads every valid page once per DAYS days; a superblock with a weak codeword is relocated (11 R372). `weak` names pages by address. -/
def execPatrolScan (part : Nat) (weak : List Nat) (s : State) : Answer :=
  let period := fld (s.reg32 (pFte + 0x10C)) 7 0 * 8640000000000
  if part ≥ 16 || decide (s.time.lctr < tgetD s.fte.scanAt part 0 + period) then .next s
  else
    let s := { s with fte := { s.fte with scanAt := tset s.fte.scanAt part s.time.lctr } }
    let all := s.fte.phys.filter fun e => e.2.part == part && e.2.programmed && s.pageValid e.2.gpage e.1
    let s := (s.bump (pFte + 0x040) (4 * all.length)).chargeFree part 7 (256 * all.length)
    let s := all.foldl (fun s e => s.bump (pChan (e.1 / 2 ^ 28) + 0x040) 18432) s
    let s := all.foldl (fun s e => s.disturb part e.1 4) s
    .next ((s.supersOf part).foldl (fun s x => if !x.2.erasing && weak.any fun a => s.inSuper x.2 a then s.relocateSuper part x.1 x.2 else s) s)

/-! ## Programs (11 R364, R365, R519) -/

/-- Blocks of a die fail: retired; too many make the die dead (11 R364, R374). -/
def State.retireBlock (s : State) (d block : Nat) : State :=
  let s := (s.modDie d fun x => { x with retired := dedupNat (x.retired ++ [block]) }).bump (pFte + 0x090) 1
  let thr := fld (s.reg32 (pFte + 0x114)) 15 0
  if thr != 0 && (s.die d).retired.length > thr then s.killDie d else s

/-- Stages whose pages are now all programmed go on. -/
def State.wakePrograms (s : State) (p : Nat) : State :=
  (s.cmds.filter fun c => c.part == p && c.phase == .run .program && s.programmed c.done).foldl (fun s c => s.run c.id) s

/-- The row's programs have completed; where some failed, its pages are programmed again in the next row. -/
def State.programRow (s : State) (p st : Nat) (failed : List Nat) : State :=
  let x := s.stream p st
  let l := s.firstRow x
  match s.rowHome p l with
  | none => s
  | some (i, b, r) =>
    let inj := s.armed pFte 1
    let bad := dedupNat (failed.filter b.dies.contains ++ if inj then (l.take 1).map fun a => a / 2 ^ 24 else [])
    let s := if inj then s.disarm pFte 1 else s
    let all := (s.rowPages b r ++ s.rowParity b r).filter fun a => !bad.contains (a / 2 ^ 24)
    let s := s.bump (pFte + 0x048) all.length
    let s := all.foldl (fun s a => s.bump (pChan (a / 2 ^ 28) + 0x048) 18432) s
    -- the row is closed, with its empty positions padded
    let nb := if b.nextRow == r then { b with nextRow := r + 1 } else b
    let nb := if nb.nextRow ≥ (s.geometry p).2.1 then { nb with closed := true } else nb
    let sb' := if nb.closed && x.sb == some i then none else x.sb
    let s := (s.setSuper p i nb).setStream p st { sb := sb', row := x.row.filter (fun a => !l.contains a), programming := false }
    if bad.isEmpty then
      ({ s with fte := { s.fte with phys := s.fte.phys.map fun e => if l.contains e.1 then (e.1, { e.2 with programmed := true }) else e } } : State).wakePrograms p
    else
      let s := l.foldl (fun s a =>
        let m := s.movePage p st a
        if m.2 then { m.1 with fte := { m.1.fte with phys := tdel m.1.fte.phys a } } else s.raise pFte 4) s
      bad.foldl (fun s d => s.retireBlock d b.block) s

/-- A stream's row completes: its programs are outstanding on all of its dies (11 R351, R364). -/
def execProgramComplete (part stream : Nat) (failed : List Nat) (s : State) : Answer :=
  let s := s.pumpDies
  if part ≥ 16 || stream ≥ 3 || !s.allOut ⟨part, .program stream⟩ (s.rowDies part stream) then .next s
  else .next ((s.endOps fun o => o == ⟨part, .program stream⟩).programRow part stream failed).pumpDies

/-! ## A quadrant loses its reference (17 R508) -/

/-- A flash channel fails: all of its dies are lost (11 R374). -/
def State.failFlashCh (s : State) (c : Nat) : State :=
  if !bitOf s.fte.chUp c then s
  else
    let s := State.raise { s with fte := { s.fte with chUp := setBit s.fte.chUp c false } } (pChan c) 0
    (List.range 16).foldl (fun s i => s.killDie (16 * c + i)) s

/-- A link that cannot train goes DOWN (12 R389). -/
def State.failLink (s : State) (l : Nat) : State :=
  match (s.link l).st with
  | .up | .training => (s.raise (pLink l) 3).linkLost l .down
  | _ => s

/-- The stacks, flash channels and links of a quadrant fail, each as its own fault. -/
def execQuadrantReferenceLost (quad : Nat) (s : State) : Answer :=
  if quad ≥ 4 || !bitOf s.pwr.quadRef quad then .next s
  else
    let t := { s with pwr := { s.pwr with quadRef := setBit s.pwr.quadRef quad false } }
    let chans := ((List.range 3).map fun i => (List.range 32).map fun c => (quad * 3 + i, c)).flatten
    let t := if s.powered (14 + quad) then chans.foldl (fun t x => if t.hbm.deadChs.contains (x.1 * 32 + x.2) then t else t.failChannel x.1 x.2) t else t
    let t := if s.powered (18 + quad) then (List.range 8).foldl (fun t i => t.failFlashCh (quad * 8 + i)) t else t
    let t := if s.powered (22 + quad) then (List.range 6).foldl (fun t i => t.failLink (quad * 6 + i)) t else t
    .next (State.afterFence s t)

end Sys2Proof.Machine
end

