-- ==== Sys2Proof/Machine/Compose.lean ====
section
/-! DEFINITION. Composition: map images, changes and epochs, handovers, the commit log between nodes, shadows, partition fences (spec 13 R406 to R415, R426, R428, R429, R431). -/

namespace Sys2Proof.Machine

/-! ## Map images (13 R407, R408) -/

def mapLen : Nat := 50240
def mapEpoch (m : List Byte) : Nat := le16 m 2
def mapCoord (m : List Byte) : Nat := fld (le16 m 4) 11 0
def mapMember (m : List Byte) (n : Nat) : Bool := !m.isEmpty && bitOf (byteAt m (1088 + 4 * n)) 0
def mapMembers (m : List Byte) : List Nat := if m.isEmpty then [] else (List.range 4096).filter (mapMember m)

/-- Resources of a slice entry as one number: courses, flash channels, links, dies. -/
def mapSlice (m : List Byte) (p : Nat) : Nat :=
  let b := 64 + 64 * p
  le16 m b + le32 m (b + 4) * 2 ^ 16 + le32 m (b + 8) * 2 ^ 48 + leNat (slice m (b + 16) 24) * 2 ^ 80

def mapDieIn (m : List Byte) (p d : Nat) : Bool := bitOf (leNat (slice m (64 + 64 * p + 16) 24)) d

/-- A reserved bit of an image is set. -/
def mapReserved (m : List Byte) : Bool :=
  byteAt m 1 != 0 || byteAt m 5 / 16 != 0 || le16 m 6 != 0 || (slice m 12 52).any (· != 0) ||
    ((List.range 16).any fun p =>
      let e := slice m (64 + 64 * p) 64
      le16 e 2 != 0 || byteAt e 11 != 0 || le32 e 12 != 0 || (slice e 40 24).any (· != 0)) ||
    ((List.range 4096).any fun n => decide (le32 m (1088 + 4 * n) / 8 != 0)) ||
    (List.range 4096).any fun n => let w := le64 m (17472 + 8 * n); fld w 31 17 != 0 || fld w 63 49 != 0

/-- The epoch after one (13 R408). -/
def epochAfter (e : Nat) : Nat := if e ≥ 65535 then 1 else e + 1

/-- Result code of a load (13 CMP_MAP_STS): none is a read error. -/
def State.mapResult (s : State) (image : Option (List Byte)) : Nat :=
  match image with
  | none => 2
  | some m =>
    if m.length != mapLen || byteAt m 0 != 1 || le32 m 8 != crc32c (slice m 64 (mapLen - 64)) || mapReserved m then 3
    else if mapEpoch m != epochAfter s.epoch then 4
    else if (List.range 16).any fun p => (List.range 16).any fun q => decide (p < q) && (mapSlice m p &&& mapSlice m q) != 0 then 5
    else if !mapMember m s.node then 6 else 1

/-- MAP_LOAD; a prepared image stays (log entry 73, DEDUCED). Log entry 134, DESIGN CHOICE. -/
def execMapLoad (a : Agent) (image : Option (List Byte)) (s : State) : Answer :=
  if !s.reaches a (pCmp + 0x114) || s.cmp.prepared then .next s
  else
    let r := s.mapResult image
    let s := { s with cmp := { s.cmp with result := r, loaded := if r == 1 then image.getD [] else [], dropped := if r == 1 then 0 else s.cmp.dropped } }
    .next (if r == 1 then s else s.raise pCmp 0)

/-! ## What a member refuses (13 R411) -/

/-- Quadrants that hold a partition's stacks in a map. -/
def mapQuads (m : List Byte) (p : Nat) : List Nat :=
  if m.isEmpty then [] else (List.range 4).filter fun q => (List.range 48).any fun d => mapDieIn m p (q * 48 + d)

/-- A die of a partition holds something bound. -/
def State.dieUsed (s : State) (p d : Nat) : Bool :=
  (s.regions.any fun r => r.part == p && r.dies.contains d) || (s.shards.any fun x => x.part == p && x.dies.contains d) ||
    s.fab.exp.any fun w => w.2.getD 6 0 != 0 && w.2.getD 5 0 == p && (List.range (w.2.getD 2 0)).any fun i => dieOf (w.2.getD 1 0 + i) == d

/-- Quadrant totals with a partition's stacks placed as a new map has them (10 R335). -/
def State.totalsUnder (s : State) (m : List Byte) : List Nat := State.quadTotals { s with cmp := { s.cmp with cur := m } } 16 0

/-- Bits of a slice entry: courses, flash channels, links, dies. -/
def sliceBits (m : List Byte) (p : Nat) : List Nat :=
  let b := 64 + 64 * p
  if m.isEmpty then [0, 0, 0, 0] else [le16 m b, le32 m (b + 4), le32 m (b + 8) % 2 ^ 24, leNat (slice m (b + 16) 24)]

/-- Resources that are fenced, in the order of `sliceBits`. -/
def State.fencedBits (s : State) : List Nat :=
  let mask := fun (n : Nat) (f : Nat → Bool) => sumList (((List.range n).filter f).map fun i => 2 ^ i)
  [s.arr.fenced, s.fte.chTrainFail, mask 24 fun l => (s.link l).st == .disabled || (s.link l).st == .quarantined, mask 192 s.hbm.deadDies.contains]

/-- A confidential partition's slice entry changes other than by losing fenced resources (14 R451). -/
def State.confSliceBad (s : State) (m : List Byte) (p : Nat) : Bool :=
  s.confidential p && ((sliceBits s.cmp.cur p).zip ((sliceBits m p).zip s.fencedBits)).any fun x =>
    let (old, new, fenced) := x
    (new &&& old) != new || (((old ^^^ new) &&& fenced) != (old ^^^ new))

/-- The map places in a slice a resource whose power domain is off (15 R461). -/
def State.offBad (s : State) (m : List Byte) : Bool :=
  (List.range 16).any fun p =>
    let b := sliceBits m p
    (bitsOf 16 (b.getD 0 0)).any (fun n => !s.powered (6 + n / 4)) || (bitsOf 32 (b.getD 1 0)).any (fun c => !s.powered (18 + c / 8)) ||
      (bitsOf 24 (b.getD 2 0)).any (fun l => !s.powered (22 + l / 6)) || (bitsOf 192 (b.getD 3 0)).any fun d => !s.powered (14 + d / 48)

/-- A change this node refuses with result 2 (13 R411, 14 R451, 15 R461). -/
def State.mapRefused (s : State) (m : List Byte) : Bool :=
  let old := s.cmp.cur
  s.offBad m || (List.range 16).any (s.confSliceBad m) ||
  ((List.range 16).any fun p =>
    ((List.range 192).any fun d => mapDieIn old p d && !mapDieIn m p d && !s.hbm.deadDies.contains d && s.dieUsed p d) ||
    (tgetD s.fte.len p 0 != 0 && (List.range 32).any fun c => bitOf (le32 old (64 + 64 * p + 4)) c && !bitOf (le32 m (64 + 64 * p + 4)) c) ||
    ((s.part p).units != 0 && mapQuads old p != mapQuads m p && (!(mapQuads old p).isEmpty || (s.totalsUnder m).any fun q => decide (q > 192)))) ||
  s.shards.any fun x => match mapOwner m x.num with
    | some (n, p) => n == s.node && (p != x.part || (x.shadow && !x.ready))
    | none => false

/-! ## Handover (13 R429) -/

/-- Shards a descriptor changes. -/
def Cmd.changes (c : Cmd) (inp : List Byte) : List Nat :=
  match c.opcode with
  | 0x31 => dedupNat ((c.positions inp).map fun p => idShard p.id)
  | 0x32 | 0x33 | 0x34 | 0x36 => [c.f 12 11 0]
  | 0x41 => if c.f 12 1 0 == 2 then [c.f 12 13 2] else []
  | _ => []

/-- A mutating command of a shard that has moved, not yet in its commit phase, goes to the new owner. -/
def State.moveCmd (s : State) (c : Cmd) : State :=
  let s := s.bump (pUpd + 0x068) 1
  match c.origin with
  | .window =>
    ((s.discard c).modCmd c.id fun x => { x with epoch := s.epoch, admitted := false, phase := .queued, eds := [], charged := 0,
                                                 got := x.got.filter fun e => decide (e.1 < 2 ^ 24) }).run c.id
  | .forwarded node txn part => ((s.discard c).dropCmd c.id).putMsg (s.mkMsg 0x28 node part c.part txn .empty)
  | _ => (s.discard c).dropCmd c.id

/-- The old owner's last record goes to its readers with FINAL. Log entry 91, DEDUCED. -/
def State.sendFinal (s : State) (num : Nat) : State :=
  let rs := s.cmp.logReqs.filter fun r => r.shard == num
  let s := rs.foldl (fun s r => s.pushLog { r with credit := 8 } 8) s
  let last := (s.area (.shard num)).bind fun a => a.log.getLast?
  let s := rs.foldl (fun s r => s.putMsg (s.mkMsg 0x38 r.node r.part ((s.shard num).elim 0 (·.part)) r.txn
    (.logData num (last.elim 0 (·.1)) true (last.elim [] (·.2))))) s
  { s with cmp := { s.cmp with logReqs := s.cmp.logReqs.filter fun r => r.shard != num } }

/-- Ownership of one bound shard under the new map. Log entry 93, DEDUCED. -/
def State.handOver (s : State) (old : List Byte) (x : Shard) : State :=
  let was := mapOwner old x.num
  let now := mapOwner s.cmp.cur x.num
  let me := some (s.node, x.part)
  if was == now then s
  else if was == me then
    let cs := s.cmds.filter fun c => isMutating c.opcode && c.part == x.part && (c.changes ((s.inputOf c).toOption.getD [])).contains x.num
    (cs.foldl (fun s c => s.moveCmd c) s).sendFinal x.num
  else if now == me then
    let waits := was.isSome
    { s with shards := s.shards.map fun y : Shard => if y.num == x.num then { y with shadow := false, ready := false, run := 0, copies := [], replaying := waits } else y,
             cmp := { s.cmp with finalWait := if waits then s.cmp.finalWait ++ [x.num] else s.cmp.finalWait } }
  else s

/-! ## Activation and retirement (13 R410 to R414) -/

/-- Messages that waited for an epoch are looked at again. -/
def State.wakeEpoch (s : State) : State :=
  let l := s.fab.waitEpoch
  l.foldl (fun s m =>
    match s.epochIs m with
    | .waits => { s with fab := { s.fab with waitEpoch := s.fab.waitEpoch ++ [m] } }
    | .stale => (s.putMsg (s.reply m 0x28 0 .empty)).bump (pFab + 0x090) 1
    | .served =>
      if m.ty == 0x20 then s.onSearchReq m
      else if m.ty == 0x21 then s.onUpdateReq m
      else if m.ty == 0x10 then s.onCollOpen m
      else s.onBarArrive m) { s with fab := { s.fab with waitEpoch := [] } }

/-- Collectives and barriers end where a member has left (05 R165, 13 R419). -/
def State.leavers (s : State) : State :=
  let gone := fun n => !mapMember s.cmp.cur n
  let s := (s.col.open'.filter fun k => if k.root then k.joiners.any fun j => gone j.node else gone k.rootNode).foldl (fun s k =>
    (s.countEnd stCancelled 0x0102).endColl k stCancelled stCancelled 0x0102) s
  (s.col.bars.filter fun b => if b.root then b.arrived.any fun x => gone x.1 else gone b.rootNode).foldl (fun s b =>
    if b.root then (s.barTell b s.node 3).barDone b 3 else (s.delBar b).barDone b 3) s

def State.noteChange (s : State) (f : Change → Change) : State := { s with cmp := { s.cmp with change := s.cmp.change.map f } }

/-- This node's map becomes current, the old one draining. -/
def State.activate (s : State) : State :=
  let s0 := s
  let old := s.cmp.cur
  let s := { s with cmp := { s.cmp with cur := s.cmp.loaded, loaded := [], prepared := false, draining := old, drainAt := s.time.lctr } }
  let s := (s.bump (pCmp + 0x040) 1).logEvent pCmp 8 0 noAttr s.epoch 0
  let s := { s with sec := { s.sec with meas := s.sec.meas.set 4 (Config.shake256 64 s.cmp.cur) } }
  let s := s.buildRoutes
  let s := if s.pwr.stage == some 4 then s.enterStage 5 else s
  -- a core die that joins a slice is scrubbed (10 R326)
  let s := s.scrubDies ((List.range 192).filter fun d => (List.range 16).any fun p => s.dieIn p d && !s0.dieIn p d)
  let s := s.shards.foldl (fun s x => s.handOver old x) s
  s.leavers.wakeEpoch

/-- The epoch drops out: what waited for it is stale now. Log entry 90, DESIGN CHOICE. -/
def State.unprepare (s : State) : State := if s.cmp.prepared then State.wakeEpoch { s with cmp := { s.cmp with prepared := false } } else s

/-- The members of a change. -/
def State.changeMembers (s : State) : List Nat := dedupNat (mapMembers s.cmp.cur ++ mapMembers s.cmp.loaded)

def State.tellAll (s : State) (l : List Nat) (ty : Nat) (body : Body) : State :=
  (l.filter (· != s.node)).foldl (fun s n => let (x, s) := s.newTxn; s.putMsg (s.mkMsg ty n 0 0 x body)) s

/-- A change is given up (13 R410 step 3). -/
def State.abortChange (s : State) : State :=
  match s.cmp.change with
  | none => s
  | some g => ((s.tellAll g.members 0x35 (.comp g.epoch 0 0)).bump (pCmp + 0x048) 1 |> fun s => ({ s with cmp := { s.cmp with change := none } } : State)).unprepare

/-- This node prepares a change itself: 0 ready, 2 refused. -/
def State.prepareSelf (s : State) : State × Nat :=
  if s.mapRefused s.cmp.loaded then (s.raise pCmp 1, 2) else ({ s with cmp := { s.cmp with prepared := true, prepAt := s.time.lctr } }, 0)

/-- Every answer is there: activation, or abort. -/
def State.decide' (s : State) : State :=
  match s.cmp.change with
  | none => s
  | some g =>
    if g.activated then s
    else if g.ready.any fun r => r.2 != 0 then s.abortChange
    else if g.members.all fun n => g.ready.any fun r => r.1 == n then
      let s := s.tellAll g.members 0x32 (.comp g.epoch 0 0)
      let joined := s.cmp.cur.isEmpty
      let s := s.activate
      s.noteChange fun g => { g with activated := true, active := [s.node], retired := if joined then [s.node] else [] }
    else s

/-- The coordinator begins a change (13 R410). -/
def State.beginChange (s : State) : State :=
  let e := mapEpoch s.cmp.loaded
  let ms := s.changeMembers
  let s := { s with cmp := { s.cmp with pendingGo := false } }
  if ms == [s.node] then
    -- its own only member: local, at once
    match s.prepareSelf with
    | (s, 0) =>
      let joined := s.cmp.cur.isEmpty
      let s := s.activate
      if joined then s else { s with cmp := { s.cmp with change := some { epoch := e, members := ms, ready := [], activated := true, active := ms, retired := [], since := s.time.lctr } } }
    | (s, _) => s.bump (pCmp + 0x048) 1
  else
    let s := s.tellAll ms 0x30 (.comp e (le32 s.cmp.loaded 8) 0)
    match s.prepareSelf with
    | (s, r) => State.decide' { s with cmp := { s.cmp with change := some { epoch := e, members := ms, ready := [(s.node, r)], activated := false, active := [], retired := [], since := s.time.lctr } } }

/-- Members still hold two live epochs (13 R414). A firmware switch takes place within one command (log entry 76, DESIGN CHOICE). -/
def State.changeWaits (s : State) : Bool := s.cmp.change.isSome || !s.cmp.draining.isEmpty

def execGo (a : Agent) (s : State) : Answer :=
  if !s.reaches a (pCmp + 0x114) then .next s
  else if s.cmp.loaded.isEmpty || mapCoord s.cmp.loaded != s.node || !(s.pwr.stage.elim false fun n => decide (n ≥ 4)) || s.cmp.prepared then .next (s.raise pCmp 8)
  else if s.changeWaits then .next { s with cmp := { s.cmp with pendingGo := true } }
  else .next s.beginChange

/-- ABORT on a member: its prepared epoch drops, and a later prepare of it is answered 1 until an image is loaded again. On the coordinator of a change that is not decided it ends the change. Log entry 206, DESIGN CHOICE. -/
def execAbort (a : Agent) (s : State) : Answer :=
  if !s.reaches a (pCmp + 0x114) || !s.cmp.prepared then .next s
  else
    let t : State := { s with cmp := { s.cmp with dropped := mapEpoch s.cmp.loaded } }
    .next (if s.cmp.change.elim false fun g => !g.activated then t.abortChange else t.unprepare)

/-- A waiting change begins once nothing holds it back. -/
def State.goPending (s : State) : State :=
  if s.cmp.pendingGo && !s.changeWaits && !s.cmp.prepared && !s.cmp.loaded.isEmpty && mapCoord s.cmp.loaded == s.node then s.beginChange else s

/-- Every member has retired its old epoch: the change is over. -/
def State.changeOver (s : State) : State :=
  match s.cmp.change with
  | some g => if g.activated && g.members.all g.retired.contains then State.goPending { s with cmp := { s.cmp with change := none } } else s
  | none => s.goPending

/-- A member answers a prepare (13 R410, R411, R414). -/
def execCompPrepare (m : Msg) (s : State) : Answer :=
  .next (s.onMsg 0x30 m fun s =>
    match m.body with
    | .comp e crc _ =>
      let ans := fun (s : State) r => s.putMsg (s.reply m 0x31 0 (.comp e 0 r))
      if s.cmp.prepared || !s.cmp.draining.isEmpty then ans s 1
      else if s.cmp.loaded.isEmpty || mapEpoch s.cmp.loaded != e || le32 s.cmp.loaded 8 != crc || s.cmp.dropped == e then ans s 1
      else let r := s.prepareSelf; ans r.1 r.2
    | _ => s)

def execCompReady (m : Msg) (s : State) : Answer :=
  .next (s.onMsg 0x31 m fun s =>
    match m.body, s.cmp.change with
    | .comp e _ r, some g =>
      if g.epoch != e || g.activated || !g.members.contains m.src then s
      else (s.noteChange fun g => { g with ready := (g.ready.filter fun x => x.1 != m.src) ++ [(m.src, r)] }).decide'
    | _, _ => s)

/-- The coordinator's decision reaches a member. A node without an old epoch has none to drain. -/
def execCompActivate (m : Msg) (s : State) : Answer :=
  .next (s.onMsg 0x32 m fun s =>
    match m.body with
    | .comp e _ _ =>
      if !s.cmp.prepared || mapEpoch s.cmp.loaded != e then s
      else
        let joined := s.cmp.cur.isEmpty
        let s := s.activate
        let s := s.putMsg (s.reply m 0x33 0 (.comp e 0 0))
        if joined then let (x, s) := s.newTxn; s.putMsg (s.mkMsg 0x34 m.src 0 0 x (.comp 0 0 0)) else s
    | _ => s)

def execCompActive (m : Msg) (s : State) : Answer :=
  .next (s.onMsg 0x33 m fun s => s.noteChange fun g => if g.active.contains m.src then g else { g with active := g.active ++ [m.src] })

def execCompRetired (m : Msg) (s : State) : Answer :=
  .next (s.onMsg 0x34 m fun s => (s.noteChange fun g => if g.retired.contains m.src then g else { g with retired := g.retired ++ [m.src] }).changeOver)

def execCompAbort (m : Msg) (s : State) : Answer :=
  .next (s.onMsg 0x35 m fun s =>
    match m.body with
    | .comp e _ _ => if s.cmp.prepared && mapEpoch s.cmp.loaded == e then s.unprepare else s
    | _ => s)

/-- A query about an epoch; one that is still undecided is answered when it is decided (log entry 74, DEDUCED). -/
def execCompQuery (m : Msg) (s : State) : Answer :=
  .next (s.onMsg 0x36 m fun s =>
    match m.body with
    | .comp e _ _ =>
      if s.cmp.change.elim false fun g => g.epoch == e && !g.activated then s
      else s.putMsg (s.reply m (if s.epoch == e then 0x32 else 0x35) 0 (.comp e 0 0))
    | _ => s)

/-- PREP_TMO: at the coordinator a member has not answered; at a member the decision has not come. -/
def execPrepTmo (s : State) : Answer :=
  let t := fld (s.reg32 (pCmp + 0x108)) 15 8 * 2 ^ 17
  match s.cmp.change with
  | some g => if !g.activated && decide (s.time.lctr ≥ g.since + t) then .next ((s.raise pCmp 2).abortChange) else .next s
  | none =>
    if s.cmp.prepared && decide (s.time.lctr ≥ s.cmp.prepAt + t) then
      let s := { s with cmp := { s.cmp with prepAt := s.time.lctr } }
      let (x, s) := s.newTxn
      .next (s.putMsg (s.mkMsg 0x36 (mapCoord s.cmp.loaded) 0 0 x (.comp (mapEpoch s.cmp.loaded) 0 0)))
    else .next s

/-- The draining epoch is retired, and the coordinator learns it. -/
def State.retire (s : State) : State :=
  let e := mapEpoch s.cmp.draining
  let s := State.logEvent { s with cmp := { s.cmp with draining := [] } } pCmp 8 0 noAttr e 1
  if mapCoord s.cmp.cur == s.node then (s.noteChange fun g => { g with retired := g.retired ++ [s.node] }).changeOver
  else
    let (x, s) := s.newTxn
    (s.putMsg (s.mkMsg 0x34 (mapCoord s.cmp.cur) 0 0 x (.comp e 0 0))).changeOver

/-- A command has sent or awaits a TFP request (13 R413). -/
def State.onFabric (s : State) (c : Cmd) : Bool :=
  c.peer || (s.fab.reqs.any fun r => r.cmd == c.id) || (match c.phase with
    | .run (.pool _ _ _ _) | .run (.poolWr _ _ _ _) | .run (.coll _ _) | .run (.vals _ _) | .run (.forward _) | .run .fabric | .run .peers => true
    | _ => false)

def execEpochRetire (s : State) : Answer :=
  if s.cmp.draining.isEmpty || s.cmds.any (fun c => c.epoch == mapEpoch s.cmp.draining && s.onFabric c) then .next s else .next s.retire

/-- DRAIN_TMO after activation: the draining epoch goes, and handovers that wait for their FINAL open. -/
def execDrainTmo (s : State) : Answer :=
  if s.time.lctr < s.cmp.drainAt + fld (s.reg32 (pCmp + 0x108)) 31 16 * 2 ^ 14 then .next s
  else
    let s := (s.cmp.finalWait.filter (· < 4096)).foldl (fun s n => s.replayStop (.shard n)) s
    .next (if s.cmp.draining.isEmpty then s else (s.raise pCmp 3).retire)

/-! ## The commit log between nodes (13 R426, R429) -/

/-- A reader asks for records; those the owner no longer has are refused (log entry 72, DEDUCED). -/
def execLogReq (m : Msg) (s : State) : Answer :=
  .next (s.onMsg 0x37 m fun s =>
    match m.body with
    | .logReq num first credit =>
      if !s.fabricPart m.dstPart || !s.ownsShard num m.dstPart s.epoch then s.refuseMsg m 3
      else if (s.area (.shard num)).elim false fun a => a.images.any fun i => i.2.1 == 0 && decide (i.1 ≥ first) then s.refuseMsg m 2
      else
        let old := s.cmp.logReqs.find? fun r : LogReader => r.node == m.src && r.shard == num
        let r : LogReader := match old with
          | some r => if r.next == first then { r with credit := r.credit + min 8 credit, txn := m.txn } else { r with next := first, off := 0, credit := min 8 credit, txn := m.txn }
          | none => { node := m.src, part := m.srcPart, txn := m.txn, shard := num, next := first, off := 0, credit := min 8 credit }
        let s := { s with cmp := { s.cmp with logReqs := (s.cmp.logReqs.filter fun x : LogReader => !(x.node == m.src && x.shard == num)) ++ [r] } }
        s.pushLog r 8
    | _ => s)

/-- A part of a record reaches a reader; a whole record is replayed. -/
def State.onLogData (s : State) (num e : Nat) (final : Bool) (part : List Byte) : State :=
  match s.shard num with
  | none => s
  | some x =>
    if !(x.shadow || s.finalOpen num) then s
    else
      let old := decide (e < x.replayNext)
      let buf := if old then x.logBuf else x.logBuf ++ part
      let whole := !old && (LogRec.size buf).elim false fun n => decide (buf.length ≥ n)
      let credit := x.logCredit - 1
      let s := s.setShard { x with logBuf := if whole then [] else buf, replayNext := if whole then e + 1 else x.replayNext, logCredit := credit }
      let s := if whole then (s.addReplay x.part 0 e buf).replayGo (.shard num) else s
      if final then
        let busy := s.cmds.any fun c => c.origin.isReplay && (s.targets c).contains (.shard num)
        let s := { s with cmp := { s.cmp with finalWait := s.cmp.finalWait.map fun k => if k == num then 4096 + num else k } }
        if busy then s else s.replayGo (.shard num)
      else if credit == 0 then s.askLog num (if whole || buf.isEmpty then (s.shard num).elim 0 (·.replayNext) else e)
      else s

def execLogData (m : Msg) (s : State) : Answer :=
  .next (s.onMsg 0x38 m fun s =>
    match m.body with
    | .logData num e final part => s.onLogData num e final part
    | _ => s)

/-! ## Shadows (13 R428) -/

/-- A copy is walked by the shadow at its latest edition. -/
def execShadowCopy (m : Msg) (s : State) : Answer :=
  .next (s.onMsg 0x39 m fun s =>
    match m.body with
    | .shadowCopy num dw q =>
      (match s.shard num with
        | none => s
        | some x =>
          if !x.shadow then s
          else
            let r := s.addCmd x.part 0 .pa 0 dw 0 (.shadow m.src m.txn)
            (r.1.modCmd r.2 fun c => { c with input := q, got := if q.length > c.inLen then [(12, q.drop c.inLen)] else [] }).run r.2)
    | _ => s)

/-- Overlap of a shadow's list with the owner's, in units of 2^-16 (13 R428). -/
def overlapOf (own other : List Nat) : Nat :=
  if own.isEmpty then (if other.isEmpty then 65536 else 0) else (own.filter other.contains).length * 65536 / own.length

def execShadowResult (m : Msg) (s : State) : Answer :=
  .next (s.onMsg 0x3A m fun s =>
    match m.body with
    | .shadowResult num ids =>
      (match s.shard num with
        | none => s
        | some x =>
          match x.copies.find? fun k => k.1 == m.txn with
          | none => s
          | some (_, _, own) =>
            let o := overlapOf own ids
            let cfg := s.reg32 (pCmp + 0x128)
            let n := fld cfg 31 16
            -- the exact ratio decides
            let good := if own.isEmpty then ids.isEmpty else decide ((own.filter ids.contains).length * 65536 ≥ fld cfg 15 0 * own.length)
            let run := if good then sat16 (x.run + 1) else 0
            let s := s.bump (pCmp + 0x080) 1
            let s := s.setShard { x with copies := x.copies.filter (fun k => k.1 != m.txn), run := run, lastOverlap := min o 0xFFFF, ready := good && (x.ready || decide (run ≥ n)) }
            -- reaching the run sends READY; a run that is lost takes it back (log entry 75, DEDUCED)
            if good && !x.ready && decide (run ≥ n) || (!good && x.ready) then
              let (t, s) := s.newTxn
              s.putMsg { s.mkMsg 0x3B m.src m.srcPart x.part t (.shadowReady num) with arg := if good then 1 else 0 }
            else s)
    | _ => s)

def execShadowReady (m : Msg) (s : State) : Answer :=
  .next (s.onMsg 0x3B m fun s =>
    match m.body with
    | .shadowReady num => { s with shards := s.shards.map fun x : Shard => if x.num == num && x.shadow then { x with ready := m.arg == 1 } else x }
    | _ => s)

/-- A copy without an answer within COL_BAR_CFG.TMO does not count. -/
def execShadowCopyTimeout (shard txn : Nat) (s : State) : Answer :=
  let tmo := fld (s.reg32 (pCol + 0x140)) 31 16 * 2 ^ 14
  .next { s with shards := s.shards.map fun x : Shard => if x.num == shard then
    { x with copies := x.copies.filter fun k => !(k.1 == txn && decide (s.time.lctr ≥ k.2.1 + tmo)) } else x }

/-! ## Fences (13 R431) -/

/-- A write of CMP_PART_FENCE; locked for partitions as 14 R453 has it. -/
def State.fenceParts (s : State) (mask : Nat) : State :=
  let old := s.reg32 (pCmp + 0x11C)
  let s := s.setReg32 (pCmp + 0x11C) (mask % 65536)
  (bitsOf 16 (mask &&& (old ^^^ 0xFFFF))).foldl (fun s p => s.logEvent pCmp 0x0A 2 (partAttr p) 7 p) s

end Sys2Proof.Machine
end

