-- ==== Sys2Proof/Machine/RegRead.lean ====
section
/-! DEFINITION. What a 32-bit register read returns, and what a read changes (spec 16 R477 to R501 and the register tables of 01 to 15). -/

namespace Sys2Proof.Machine

/-- The 32 bytes of a log entry (16 R497). -/
def Event.bytes (e : Event) : List Byte :=
  leBytes 8 e.time ++ leBytes 4 e.seq ++ leBytes 4 e.source ++ leBytes 1 e.code ++ leBytes 1 e.sev ++ leBytes 1 e.part ++ leBytes 1 0 ++
    leBytes 2 e.ctx ++ leBytes 2 e.count ++ leBytes 4 e.d0 ++ leBytes 4 e.d1

/-- The entry a SEQ names, or zeros (16 R501). -/
def State.eventAt (s : State) (seq : Nat) : List Byte :=
  match s.reg.log.find? fun e : Event => e.seq == seq with
  | some e => e.bytes
  | none => zeros 32

/-- A boolean at a bit. -/
def bitAt (i : Nat) (b : Bool) : Nat := if b then 2 ^ i else 0

/-- The bits of a list of unit numbers. -/
def maskOf (l : List Nat) : Nat := sumList ((dedupNat l).map fun i => 2 ^ i)

def log2Floor : Nat → Nat → Nat
  | 0, _ => 0
  | f + 1, n => if n ≤ 1 then 0 else 1 + log2Floor f (n / 2)

/-! ## Headers (16 R478 to R486) -/

/-- The unit of a page is fenced (16 R482). -/
def State.pageFenced (s : State) (g : Page) : Bool :=
  match g.ty, g.kind with
  | 0x20, 1 => bitOf s.arr.fenced g.inst
  | 0x31, 1 => bitOf s.fte.chTrainFail g.inst
  | 0x32, 1 => (s.link g.inst).st == .disabled || (s.link g.inst).st == .quarantined
  | 0x30, _ => s.stackDead g.inst
  | _, _ => false

/-- A course's status: its slice, why it is fenced, whether a wave uses it (04 ARR_C_STS). -/
def State.courseStatus (s : State) (n : Nat) : Nat :=
  (((List.range 16).find? fun p => bitOf (s.courses p) n).getD 0) * 16 + tgetD s.arr.src n 0 * 4 +
    bitAt 1 (s.arr.wave.any fun w => w.2.courses.contains n) + b2n (bitOf s.arr.fenced n)

/-- The block status at 0x014. -/
def State.stsOf (s : State) (g : Page) : Nat :=
  match g.ty, g.kind with
  | 0x02, _ =>
    bitAt 5 s.pwr.avsOk + bitAt 4 (s.pwr.vset != 0 && decide (s.pwr.vset < fld (s.reg32 (pPwr + 0x108)) 7 0)) + bitAt 3 s.pwr.hold + s.pwr.stage.getD 0
  | 0x03, _ => bitAt 2 s.devLocked + bitAt 1 s.sec.noPatch + b2n s.sec.bootOk
  | 0x20, 1 => s.courseStatus g.inst
  | 0x31, 0 => bitAt 4 (!s.fte.rebuild.isEmpty) + bitAt 3 s.fte.flushed + bitAt 2 s.pwr.flush.isSome + bitAt 1 s.held + b2n s.fte.loaded
  | _, _ => 0

/-- A counter, 0 on a per-partition page of a confidential partition (14 R449). Log entry 152, DESIGN CHOICE. -/
def State.counterOf (s : State) (g : Page) (off : Nat) : Nat := if g.kind == 2 && s.confidential g.inst then 0 else s.counter off

/-- Offset of the counter a header offset belongs to. -/
def counterBase (off : Nat) : Nat := off / 8 * 8

def isCounter (g : Page) (off : Nat) : Bool := decide (0x040 ≤ off % 4096) && decide (off % 4096 < 0x040 + 8 * g.counters)

/-- A word of the common header. -/
def State.header (s : State) (a : Agent) (g : Page) (off : Nat) : Nat :=
  let o := off % 4096
  if isCounter g off then
    if o % 8 == 0 then s.counterOf g off % 2 ^ 32 else (s.latchOf a off).getD 0
  else
    match o with
    | 0x000 => g.id
    | 0x004 => 0x10000
    | 0x008 => g.caps
    | 0x010 => if s.pageFenced g then 2 else 1
    | 0x014 => s.stsOf g
    | 0x018 | 0x01C | 0x020 | 0x024 | 0x028 => s.reg32 off
    | _ => 0

/-! ## Block registers -/

def State.viewGlb (s : State) (a : Agent) (o : Nat) : Nat :=
  match o with
  | 0x100 => s.time.lctr % 2 ^ 32
  | 0x104 => (s.latchOf a 0x104).getD 0
  | 0x108 => sat16 s.time.switches * 2 ^ 16 + s.time.src
  | 0x110 => 0x0C120000 + Config.stepping.toNat
  | 0x114 => Config.serial.toNat % 2 ^ 32
  | 0x118 => Config.serial.toNat / 2 ^ 32
  | 0x11C => 12 * 2 ^ 24 + 16 * 2 ^ 16 + 4 * 2 ^ 8 + 16
  | 0x120 => 16384 * 2 ^ 16 + 4096
  | 0x124 => 24 * 2 ^ 24 + 32 * 2 ^ 16 + 16 * 2 ^ 8 + 192
  | 0x128 => s.errSum
  | 0x140 => s.reg.head
  | _ =>
    if 0x148 ≤ o ∧ o < 0x168 then le32 (tgetD s.reg.copy (agentIdx a) (zeros 32)) (o - 0x148) else 0

/-- The setpoint floor of 15 R462 in 5 mV units. -/
def State.vFloor (s : State) : Nat := max 124 (fld (s.reg32 (pPwr + 0x100)) 7 0 + 6)

def State.viewPwr (s : State) (o : Nat) : Nat :=
  match o with
  | 0x100 => 110 * 2 ^ 8
  | 0x108 => s.pwr.vset * 2 ^ 16 + s.vFloor * 2 ^ 8
  | 0x10C => s.pwr.vmin % 2 ^ 16 * 2 ^ 16 + minList (s.pwr.mv.headD 0) s.pwr.mv % 2 ^ 16
  | 0x114 => sumList ((s.pwr.temps.take 4).zipIdx.map fun t => t.1 % 256 * 2 ^ (8 * t.2))
  | 0x11C => s.pwr.core % 2 ^ 16 * 2 ^ 16 + s.pwr.power % 2 ^ 16
  | 0x124 => s.pwr.on
  | _ => 0

def Lifecycle.code : Lifecycle → Nat
  | .blank => 0
  | .provisioned => 1
  | .retired => 2

/-- Streams of a port that are keyed. -/
def State.keyedMask (s : State) (p : Port) : Nat := maskOf ((List.range 16).filter fun n => (tget s.sec.ide (p.idx * 16 + n)).isSome)

def State.viewSec (s : State) (a : Agent) (o : Nat) : Nat :=
  match o with
  | 0x100 => s.sec.life.code * 2 ^ 30 + s.sec.revoked % 16 * 16 + s.sec.valid % 16
  | 0x104 => s.cmp.bootSvn * 2 ^ 16 + byteAt s.cmp.image 2 * 2 ^ 8 + s.sec.arb
  | 0x108 => s.sec.busy % 2 ^ 16 * 2 ^ 16 + s.sec.conf % 2 ^ 16
  | 0x10C => s.keyedMask .pa
  | 0x110 => s.keyedMask .pb
  | 0x118 =>
    let sel := s.selOf a (pSec + 0x114)
    if bitOf sel 8 then le32 s.sec.idDigest (4 * fld sel 7 4) else le32 (s.sec.meas.getD (fld sel 2 0) []) (4 * fld sel 7 4)
  | _ => 0

/-- The port whose mailbox an agent's access reaches. -/
def mboxPort : Agent → Option Port
  | .host p _ => some p
  | .mgmt => none

def State.box (s : State) : Port → Mbox
  | .pa => s.mgt.boxA
  | .pb => s.mgt.boxB

def State.setBox (s : State) (p : Port) (b : Mbox) : State :=
  match p with
  | .pa => { s with mgt := { s.mgt with boxA := b } }
  | .pb => { s with mgt := { s.mgt with boxB := b } }

def State.viewMgt (s : State) (a : Agent) (o : Nat) : Nat :=
  match o with
  | 0x100 => bitAt 31 s.mgt.i3c + s.mgt.dyn % 128 * 2 ^ 24 + (0x60 + s.pwr.straps % 4) * 2 ^ 16 + s.mgt.eid % 256
  | 0x104 => 0x1210
  | 0x108 => match mboxPort a with
    | some p => bitAt 31 (s.box p).req + bitAt 30 (s.box p).rsp + (s.box p).len % 2048
    | none => 0
  | 0x10C => match s.mgt.auth with
    | some (p, port, _) => 2 ^ 31 + port.idx * 2 ^ 16 + p % 16
    | none => 0
  | _ => if o ≥ 0x800 then (match mboxPort a with
    | some p => le32 (s.box p).data (o - 0x800)
    | none => 0) else 0

/-- A ring register shown to an agent. -/
def State.viewRing (s : State) (a : Agent) (p : Port) (o : Nat) : Nat :=
  let ctx := s.selOf a (pHif p + 0x120) % 4096
  let r := s.ring p ctx
  if !s.ringShown a ctx then 0
  else
    match o with
    | 0x124 => r.base % 2 ^ 32
    | 0x128 => r.base / 2 ^ 32
    | 0x12C => bitAt 31 r.en + r.size * 2 ^ 27 + r.vector * 2 ^ 16 + r.coalCnt * 2 ^ 8 + r.coalUs
    | 0x130 => r.tail * 2 ^ 16 + bitAt 15 r.phase + s.inflight p ctx
    | _ => 0

def State.viewHif (s : State) (a : Agent) (p : Port) (o : Nat) : Nat :=
  let x := s.port p
  match o with
  | 0x104 => bitAt 12 x.flit + x.speed * 2 ^ 8 + x.width * 2 + b2n x.up
  | 0x108 => x.own % 2 ^ 16
  | 0x10C => x.rel % 2 ^ 16
  | 0x118 => bitAt 16 x.peerDown + x.pend % 2 ^ 16
  | _ => s.viewRing a p o

def State.viewCau (s : State) (a : Agent) (o : Nat) : Nat :=
  match o with
  | 0x100 => 0x0201
  | 0x108 => s.reg32 (regKey (pCau + 0x108) (s.selOf a (pCau + 0x104) % 16))
  | 0x10C => if s.confidential (s.ctx s.refuse.2.2.2).part then 0 else s.refuse.1 * 2 ^ 16 + s.refuse.2.1
  | 0x110 => if s.confidential (s.ctx s.refuse.2.2.2).part then 0 else s.refuse.2.2.1 * 2 ^ 16 + s.refuse.2.2.2
  | _ => 0

def CtxState.code : CtxState → Nat
  | .off => 0
  | .ready => 1
  | .faulted => 2
  | .draining => 3

/-- CTX_ENT_STS of a context (10). -/
def State.entStatus (s : State) (n : Nat) : Nat :=
  let e := s.ctx n
  let lock := s.confidential e.part
  e.state.code * 2 ^ 30 + bitAt 29 ((s.part e.part).cur == some n) + bitAt 28 lock +
    if lock then 0
    else e.cause * 2 ^ 24 + sat8 e.killPeak * 2 ^ 16 + (s.cmds.filter fun c => c.ctx == n && c.origin == .window && c.entered).length

def State.viewCtx (s : State) (a : Agent) (o : Nat) : Nat :=
  let n := s.selOf a (pCtx + 0x104) % 4096
  let p := s.selOf a (pCtx + 0x114) % 16
  let x := s.part p
  match o with
  | 0x108 => (s.ctx n).part * 2 ^ 8 + (s.ctx n).weight
  | 0x110 => s.entStatus n
  | 0x118 => x.fteUnits * 2 ^ 16 + x.units
  | 0x11C => x.intWeight
  | 0x120 =>
    let f := s.freePool p
    bitAt 31 x.shrink.isSome + bitAt 28 x.cur.isSome + x.cur.getD 0 * 2 ^ 16 + min 4095 ((f.1 - f.2) / 65536)
  | 0x124 => sumList ((s.quadTotals 16 0).zipIdx.map fun q => (192 - q.1) * 2 ^ (8 * q.2))
  | _ => 0

/-- Two's complement in 32 bits. -/
def int32 (i : Int) : Nat := (i % 2 ^ 32).toNat

def State.viewCapo (s : State) (p o : Nat) : Nat :=
  if o < 0x200 || o ≥ 0x360 then 0
  else
    let r := (o - 0x200) / 32
    let c := s.capo p r
    match (o - 0x200) % 32 with
    | 0x00 => c.newCir
    | 0x04 => c.cbs
    | 0x08 => c.newPir
    | 0x0C => c.pbs
    | 0x10 => int32 c.clvl
    | 0x14 => int32 c.plvl
    | 0x18 => sat16 c.peak * 2 ^ 16 + sat16 (s.capoHeld p r)
    | _ => 0

def State.viewArr (s : State) (o : Nat) : Nat :=
  match o with
  | 0x104 => s.arr.fenced
  | 0x108 => sat16 s.arr.peak * 2 ^ 16 + sat16 s.arr.queue.length
  | _ => 0

def PegSlot.reset : PegSlot := { bind := 0, sse := 0, cnt := 0, sat := 0 }

/-- The slot an agent's PEG_STAT_SEL names. -/
def State.pegSel (s : State) (a : Agent) : Nat := s.selOf a (pPeg + 0x110) % 64
def State.pegSlot (s : State) (n : Nat) : PegSlot := tgetD s.peg n PegSlot.reset

/-- The partition of the region or shard a binding word names. -/
def State.pegPart (s : State) (b : Nat) : Option Nat :=
  if fld b 29 28 ≤ 1 then (s.region (fld b 11 0)).map (·.part) else (s.shard (fld b 11 0)).map (·.part)

def State.pegLocked (s : State) (b : Nat) : Bool := (s.pegPart b).elim false s.confidential

/-- SSE_HI to SAT show the agent's latch; without one, the slot (02 R66). -/
def State.viewPeg (s : State) (a : Agent) (o : Nat) : Nat :=
  let x := s.pegSlot (s.pegSel a)
  let held := fun (now : Nat) => (s.latchOf a (pPeg + o)).getD now
  match o with
  | 0x114 => x.bind + bitAt 22 (s.pegLocked x.bind)
  | 0x118 => x.sse % 2 ^ 32
  | 0x11C => held (x.sse / 2 ^ 32)
  | 0x120 => held (x.cnt % 2 ^ 32)
  | 0x124 => held (x.cnt / 2 ^ 32)
  | 0x128 => held x.sat
  | _ => 0

/-- Whether a selected shard is shown only as locked. -/
def State.shardLocked (s : State) (n : Nat) : Bool := (s.shard n).elim false fun x => s.confidential x.part
def State.regionLocked (s : State) (n : Nat) : Bool := s.confidential (s.ctx n).part

/-- Slots that are TOMB at the latest edition. -/
def State.tombCount (s : State) (n : Nat) : Nat :=
  match s.shView n (s.latest (.shard n)) with
  | none => 0
  | some v => ((List.range v.st.hwm).filter fun i => match s.slotRec v i with
    | .ok w => srState w == tomb'
    | .error _ => false).length

def State.shardStatus (s : State) (n : Nat) : Nat :=
  match s.shard n, s.shView n (s.latest (.shard n)) with
  | some x, some v =>
    2 ^ 31 + bitAt 29 (s.cmds.any fun c => c.admitted && (c.opcode == 0x34 || c.opcode == 0x36) && c.f 12 11 0 == n) + bitAt 28 x.sweep.isSome +
      bitAt 27 (s.cmds.any fun c => c.phase == .held .side && c.f 12 11 0 == n) + min 100 (100 * s.sideFill x / max 1 v.d.sideCap)
  | some _, none => 2 ^ 31
  | none, _ => 0

def State.viewGwe (s : State) (a : Agent) (o : Nat) : Nat :=
  let n := s.selOf a (pGwe + 0x110) % 4096
  let lock := s.shardLocked n
  match o with
  | 0x114 => if lock then 2 ^ 30 else s.shardStatus n
  | 0x118 => if lock then 0 else (s.shard n).elim 0 s.sideFill
  | 0x11C => if lock then 0 else sat32 (s.tombCount n)
  | 0x120 => if lock then 0 else s.latest (.shard n) % 2 ^ 32
  | 0x124 => (s.latchOf a (pGwe + 0x124)).getD 0
  | 0x128 => sat16 s.walkPeak * 2 ^ 16 + sat16 s.walksActive
  | _ => 0

def State.viewAtt (s : State) (a : Agent) (o : Nat) : Nat :=
  let n := s.selOf a (pAtt + 0x110) % 4096
  let lock := s.regionLocked n
  match o with
  | 0x108 => (s.part (s.selOf a (pAtt + 0x104) % 16)).pfUnits
  | 0x114 =>
    if lock then 2 ^ 30
    else match (s.region n).bind (·.recs.head?) with
      | some r => 2 ^ 31 + (segCount r.desc - 1) * 2 ^ 16 + r.pool % 2 ^ 16
      | none => 0
  | 0x118 => if lock then 0 else s.latest (.region n) % 2 ^ 32
  | 0x11C => (s.latchOf a (pAtt + 0x11C)).getD 0
  | _ => 0
where
  segCount (desc : List Byte) : Nat := (RDesc.parse desc).segs.length

/-- Occupancy of a partition's prefetch buffer in 64 KiB units (08 GCU_PF_OCC). -/
def State.pfOcc (s : State) (p : Nat) : Nat := ceilDiv (pfBytes (s.part p).pf) 65536

def State.viewGcu (s : State) (a : Agent) (o : Nat) : Nat :=
  match o with
  | 0x104 => s.pfPeak % 2048 * 2 ^ 16 + s.pfOcc (s.selOf a (pAtt + 0x104) % 16) % 2048
  | _ => 0

/-- The target an agent's UPD_SEL names. -/
def State.updSel (s : State) (a : Agent) : Target :=
  let v := s.selOf a (pUpd + 0x104)
  if bitOf v 12 then .region (v % 4096) else .shard (v % 4096)

def State.targetLocked (s : State) : Target → Bool
  | .shard n => s.shardLocked n
  | .region c => s.regionLocked c

def State.viewUpd (s : State) (a : Agent) (o : Nat) : Nat :=
  let t := s.updSel a
  let lock := s.targetLocked t
  match o with
  | 0x108 =>
    if lock then 2 ^ 30
    else if s.latest t == 0 then 0
    else 2 ^ 31 + sat8 (s.cmds.filter fun c => c.admitted && isMutating c.opcode && (s.targets c).contains t).length
  | 0x10C => if lock then 0 else s.floorOf t % 2 ^ 32
  | 0x110 => (s.latchOf a (pUpd + 0x110)).getD 0
  | _ => 0

/-- Highest overlay occupancy of any fret of a stack (03 SBC_OVL). -/
def State.ovlMost (s : State) (n : Nat) : Nat :=
  maxList ((dedupNat ((s.hbm.overlays.filter fun o : Overlay => stackOf o.fret == n).map (·.fret))).map s.ovlCount)

def State.viewSbc (s : State) (a : Agent) (n o : Nat) : Nat :=
  let e := tget s.hbm.elog (n * 256 + s.selOf a (pSbc n + 0x120) % 256)
  match o with
  | 0x108 => sumList ((List.range 16).map fun d => min 2 (tgetD s.hbm.spares (n * 16 + d) 0) * 4 ^ d)
  | 0x10C => maskOf ((List.range 16).filter fun d => s.hbm.deadDies.contains (n * 16 + d))
  | 0x110 => maskOf ((List.range 32).filter fun c => s.hbm.deadChs.contains (n * 32 + c))
  | 0x114 => sat8 (tgetD s.hbm.tempMax n 0) * 2 ^ 8 + sat8 (tgetD s.hbm.temp n 0)
  | 0x118 => tgetD s.hbm.ovlPeak n 0 * 2 ^ 16 + s.ovlMost n
  | 0x124 => min (2 ^ 24 - 1) (tgetD s.hbm.elogWraps n 0) * 2 ^ 8 + tgetD s.hbm.elogNext n 0
  | 0x128 => e.elim 0 fun e => e.time % 2 ^ 32
  | 0x12C => e.elim 0 Elog.d1
  | 0x130 => e.elim 0 Elog.d2
  | 0x134 => e.elim 0 fun e => e.channel * 2 ^ 16 + sat16 e.count
  | _ => 0

def DieState.code : DieState → Nat
  | .absent => 0
  | .good => 1
  | .excluded => 2
  | .dead => 3
  | .rebuilding => 4

def State.viewFte (s : State) (a : Agent) (o : Nat) : Nat :=
  let p := s.selOf a (pFte + 0x11C) % 16
  let d := s.selOf a (pFte + 0x12C) % 512
  match o with
  | 0x100 => s.fte.area
  | 0x120 => tgetD s.fte.base p 0
  | 0x124 => tgetD s.fte.len p 0
  | 0x128 =>
    if s.confidential p then 2 ^ 31
    else
      let w := min 16 (s.partDies p).length
      bitAt 30 (s.urgent p) + bitAt 29 (bitOf s.fte.gc p) + bitAt 28 (w == 1) + w * 2 ^ 8 + s.freePct p
  | 0x130 =>
    (s.die d).st.code * 2 ^ 29 + (((List.range 16).find? fun p => bitOf (s.flashChs p) (d / 16)).getD 0) * 2 ^ 25 + sat16 (s.die d).retired.length
  | _ => 0

/-- A channel's rate carries its signalling: 4,096 and more for NV-LPDDR4. A die of no pages did not answer. -/
def State.viewChan (s : State) (c o : Nat) : Nat :=
  let dies := fun (f : DieSt → Bool) => maskOf ((List.range 16).filter fun i => f (s.die (16 * c + i)))
  match o with
  | 0x104 =>
    let r := tgetD s.fte.chRate c 0
    bitAt 31 (bitOf s.fte.chUp c) + bitAt 30 (decide (r ≥ 4096)) + r % 4096 * 2 ^ 16 + dies fun x => x.st != .absent && x.pages != 0
  | 0x108 => dies fun x => x.st == .dead || x.st == .excluded
  | _ => 0

/-- Words of an export window: base, first domain, count, offset, length, partition, enable. -/
def State.expWord (s : State) (w i : Nat) : Nat := (tgetD s.fab.exp w []).getD i 0

def State.viewFab (s : State) (a : Agent) (o : Nat) : Nat :=
  let w := s.selOf a (pFab + 0x128) % 16
  match o with
  | 0x108 => 0x2113
  | 0x11C => s.fab.peak % 2 ^ 14 * 2 ^ 16 + s.poolOut % 2 ^ 14
  | 0x124 => (tgetD s.fab.route (s.selOf a (pFab + 0x120) % 4096) 0).toNat
  | 0x12C => bitAt 31 (s.expWord w 6 != 0) + s.expWord w 5
  | 0x130 => s.expWord w 0
  | 0x134 => s.expWord w 2 * 2 ^ 16 + s.expWord w 1
  | 0x138 => s.expWord w 4 * 2 ^ 16 + s.expWord w 3
  | _ => 0

/-- What FAB_L_LANE shows of a lane (12). -/
def State.laneView (s : State) (x : LinkSt) (i : Nat) : Nat :=
  let on := x.st == .up && bitOf x.laneMask i
  let n := match tget x.syms i with
    | some (c, t) => if s.time.lctr - t ≤ 2 ^ 20 then c else 0
    | none => 0
  bitAt 7 on + bitAt 6 on + min 63 (log2Floor 64 n)

def State.viewLink (s : State) (l o : Nat) : Nat :=
  let x := s.link l
  let up := x.st == .up
  match o with
  | 0x104 => x.st.code * 2 ^ 29 + x.kind % 4 * 2 ^ 27 + (if up then x.lanes * 2 ^ 24 + x.ver * 2 ^ 16 else 0) + x.peer
  | 0x108 => sumList ((List.range 4).map fun i => s.laneView x i * 2 ^ (8 * i))
  | 0x10C => x.shift * 2 ^ 28 + (if x.st == .quarantined then ceilDiv (x.quarEnd - s.time.lctr) (2 ^ 20) % 2 ^ 28 else 0)
  | _ => 0

def State.viewCol (s : State) (a : Agent) (o : Nat) : Nat :=
  let n := s.selOf a (pCol + 0x144) % 4096
  match o with
  | 0x104 => min 1023 s.col.peak * 2 ^ 16 + s.collOpenCount
  | 0x108 => sat32 s.col.waits
  | 0x148 => bitAt 31 (s.col.suspect.contains n) + lastCount s.col.last n
  | _ => 0

/-- The role this node has for a shard under the current map: 1 owner, 2 shadow (13 CMP_SHARD_STS). -/
def State.shardRole (s : State) (n : Nat) : Nat :=
  let e := le64 s.cmp.cur (17472 + 8 * n)
  if s.cmp.cur.isEmpty then 0
  else if bitOf e 16 && fld e 11 0 == s.node then 1
  else if bitOf e 48 && fld e 43 32 == s.node then 2
  else 0

def State.viewCmp (s : State) (a : Agent) (o : Nat) : Nat :=
  let n := s.selOf a (pCmp + 0x120) % 4096
  let m := s.selOf a (pCmp + 0x130) % 4096
  match o with
  | 0x100 =>
    bitAt 31 s.cmp.pendingGo + bitAt 30 s.cmp.prepared + bitAt 29 (!s.cmp.draining.isEmpty) +
      bitAt 28 (!s.cmp.cur.isEmpty && mapCoord s.cmp.cur == s.node) + s.epoch
  | 0x104 => if s.cmp.prepared then mapEpoch s.cmp.loaded else mapEpoch s.cmp.draining
  | 0x118 => mapEpoch s.cmp.loaded * 2 ^ 16 + s.cmp.result
  | 0x124 =>
    if s.shardLocked n then 2 ^ 31
    else
      let x := s.shard n
      s.shardRole n * 2 ^ 29 + bitAt 28 (x.elim false (·.ready)) + bitAt 27 (x.elim false (·.replaying)) + bitAt 26 (s.area (.shard n)).isSome
  | 0x12C => (s.shard n).elim 0 fun x => sat16 x.run * 2 ^ 16 + x.lastOverlap
  | 0x134 =>
    let e := if s.cmp.cur.isEmpty then 0 else byteAt s.cmp.cur (1088 + 4 * m)
    bitAt 2 (bitOf e 2) + bitAt 1 (s.mapSuspect m) + b2n (bitOf e 0)
  | 0x138 => le16 s.cmp.image 4 * 2 ^ 16 + bitAt 3 s.cmp.fallback + bitAt 2 (!s.cmp.staged.isEmpty) + bitAt 1 s.cmp.unconfirmed + s.cmp.bank
  | _ => 0

def State.viewTel (s : State) (a : Agent) (o : Nat) : Nat :=
  let n := s.selOf a (pTel + 0x100) % 32
  match o with
  | 0x104 => if n < 23 then bitAt 31 (bitOf s.pwr.valid n) + s.pwr.sensors.getD n 0 % 2 ^ 16 else 0
  | _ => 0

/-- A register that shows typed state, by block. -/
def State.viewBlock (s : State) (a : Agent) (g : Page) (o : Nat) : Nat :=
  match g.ty, g.kind with
  | 0x01, _ => s.viewGlb a o
  | 0x02, _ => s.viewPwr o
  | 0x03, _ => s.viewSec a o
  | 0x05, _ => s.viewMgt a o
  | 0x10, _ => s.viewHif a (if g.inst == 0 then .pa else .pb) o
  | 0x11, _ => s.viewCau a o
  | 0x12, _ => s.viewCtx a o
  | 0x13, _ => s.viewCapo g.inst o
  | 0x20, 0 => s.viewArr o
  | 0x21, _ => if o == 0x104 then sat32 s.selMax else 0
  | 0x22, _ => s.viewPeg a o
  | 0x23, _ => s.viewGwe a o
  | 0x24, _ => s.viewAtt a o
  | 0x25, _ => s.viewGcu a o
  | 0x26, _ => s.viewUpd a o
  | 0x30, _ => s.viewSbc a g.inst o
  | 0x31, 0 => s.viewFte a o
  | 0x31, _ => s.viewChan g.inst o
  | 0x32, 0 => s.viewFab a o
  | 0x32, _ => s.viewLink g.inst o
  | 0x33, _ => s.viewCol a o
  | 0x34, _ => s.viewCmp a o
  | 0x40, _ => s.viewTel a o
  | _, _ => 0

/-- The VF page begins with a header that names a VF of HIF and holds the ring registers (09, 16 R479, R481). Log entry 97, DEDUCED. -/
def State.viewVf (s : State) (a : Agent) (p : Port) (n o : Nat) : Nat :=
  match o with
  | 0x000 => 0x10030000 + p.idx * 256 + n
  | 0x004 => 0x10000
  | 0x008 => 0x100
  | 0x010 => 1
  | 0x120 => s.selOf a (pHif p + 0x120)
  | _ => if 0x124 ≤ o ∧ o ≤ 0x130 then s.viewRing a p o else 0

/-- A stored register, an agent's own selector (16 R490), or a value composed of both with typed state. -/
def State.viewPage (s : State) (a : Agent) (g : Page) (off : Nat) : Nat :=
  let o := off % 4096
  if o < 0x100 then s.header a g off
  else if g.ty == 0x04 || g.ty == 0x7F then 0
  else if selectors.contains (g.ty, o) && g.kind != 1 then s.selOf a off
  else if g.ty == 0x11 && o == 0x108 then s.viewCau a o
  else
    match storedReg g off with
    | some (rw, rwl, _) => (s.reg32 off &&& (rw ||| rwl)) ||| s.viewBlock a g o
    | none => s.viewBlock a g o

/-- What a 32-bit read by an agent returns (16 R477, R489): 0 where nothing answers. -/
def State.regShow (s : State) (a : Agent) (bar : Nat) : Nat :=
  let off := barOff a bar
  if !s.reaches a off || off % 4 != 0 then 0
  else
    match a with
    | .host p (n + 1) => s.viewVf a p (n + 1) (off % 4096)
    | _ => match pageOf off with
      | some g => s.viewPage a g off
      | none => 0

/-! ## What a read changes -/

/-- Registers whose read latches others of the agent: offset read, latches set (01 R34, 02 R66, 16 R490). -/
def State.latchRead (s : State) (a : Agent) (g : Page) (off : Nat) : State :=
  let o := off % 4096
  match g.ty, o with
  | 0x01, 0x100 => s.setLatch a 0x104 (s.time.lctr / 2 ^ 32)
  | 0x22, 0x118 =>
    let x := s.pegSlot (s.pegSel a)
    ((((s.setLatch a (pPeg + 0x11C) (x.sse / 2 ^ 32)).setLatch a (pPeg + 0x120) (x.cnt % 2 ^ 32)).setLatch a (pPeg + 0x124) (x.cnt / 2 ^ 32)).setLatch a (pPeg + 0x128) x.sat)
  | 0x24, 0x118 => let n := s.selOf a (pAtt + 0x110) % 4096; s.setLatch a (pAtt + 0x11C) (if s.regionLocked n then 0 else s.latest (.region n) / 2 ^ 32)
  | 0x23, 0x120 => let n := s.selOf a (pGwe + 0x110) % 4096; s.setLatch a (pGwe + 0x124) (if s.shardLocked n then 0 else s.latest (.shard n) / 2 ^ 32)
  | 0x26, 0x10C => let t := s.updSel a; s.setLatch a (pUpd + 0x110) (if s.targetLocked t then 0 else s.floorOf t / 2 ^ 32)
  | _, _ => if isCounter g off && o % 8 == 0 then s.setLatch a (off + 4) (s.counterOf g off / 2 ^ 32) else s

/-- RC fields restart from the present value (16 R487). -/
def State.restartRc (s : State) (a : Agent) (g : Page) (off : Nat) : State :=
  let o := off % 4096
  match g.ty, g.kind, o with
  | 0x02, _, 0x10C => { s with pwr := { s.pwr with vmin := minList (s.pwr.mv.headD 0) s.pwr.mv } }
  | 0x30, _, 0x114 => { s with hbm := { s.hbm with tempMax := tset s.hbm.tempMax g.inst (tgetD s.hbm.temp g.inst 0) } }
  | 0x30, _, 0x118 => { s with hbm := { s.hbm with ovlPeak := tset s.hbm.ovlPeak g.inst (s.ovlMost g.inst) } }
  | 0x20, 0, 0x108 => { s with arr := { s.arr with peak := s.arr.queue.length } }
  | 0x21, _, 0x104 => { s with selMax := 0 }
  | 0x33, _, 0x104 => { s with col := { s.col with peak := s.collOpenCount } }
  | 0x23, _, 0x128 => { s with walkPeak := s.walksActive }
  | 0x25, _, 0x104 => { s with pfPeak := maxList ((List.range 16).map s.pfOcc) }
  | 0x12, _, 0x110 =>
    let n := s.selOf a (pCtx + 0x104) % 4096
    let reruns := maxList ((s.cmds.filter fun c => c.ctx == n && c.origin == .window).map fun c => sat8 c.reruns)
    if (tget s.ctxs n).isSome then s.modCtx n fun e => { e with killPeak := reruns } else s
  | 0x13, _, _ =>
    if 0x200 ≤ o ∧ o < 0x360 ∧ (o - 0x200) % 32 = 0x18 then
      let r := (o - 0x200) / 32
      s.modCapo g.inst r fun c => { c with peak := s.capoHeld g.inst r }
    else s
  | 0x32, 0, 0x11C => { s with fab := { s.fab with peak := s.poolOut } }
  | _, _, _ => s

/-- The state after a 32-bit read. -/
def State.afterRead (s : State) (a : Agent) (off : Nat) : State :=
  if !s.reaches a off || off % 4 != 0 then s
  else
    match a, pageOf off with
    | .host _ (_ + 1), _ => s
    | _, some g => (s.latchRead a g off).restartRc a g off
    | _, none => s

/-- One 32-bit read: value and state. -/
def State.regRead (s : State) (a : Agent) (off : Nat) : Nat × State := (s.regShow a off, s.afterRead a off)

/-- Reads of consecutive words in ascending order (16 R489). -/
def State.regReads (s : State) (a : Agent) (off : Nat) : Nat → List Nat × State
  | 0 => ([], s)
  | n + 1 => let r := s.regRead a off; let q := r.2.regReads a (off + 4) n; (r.1 :: q.1, q.2)

/-- The bytes a read returns go to the agent that asked: a function of a port; the management port answers by message. -/
def State.giveRead (s : State) (a : Agent) (off : Nat) (d : List Byte) : State :=
  match a with
  | .host p fn => s.emit p (.answer fn off d)
  | .mgmt => s

/-- A 32-bit read of BAR0 by an agent. -/
def State.readOne (s : State) (a : Agent) (off : Nat) : State := let r := s.regRead a off; r.2.giveRead a off (leBytes 4 r.1)

/-- A 64-bit read of a counter or of GLB_LCTR_LO: both halves of one instant (01 R34, 16 R486). -/
def State.readPair (s : State) (a : Agent) (off v : Nat) : State := (s.afterRead a off).giveRead a off (leBytes 8 v)

/-- A read that no page answers returns zeros to a host whose port is up (16 R477). -/
def State.readZero (s : State) (a : Agent) (off n : Nat) : State :=
  match a with
  | .host p _ => if (s.port p).up then s.giveRead a off (zeros n) else s
  | .mgmt => s

/-! ## Rows of reads -/

def execGlbLctrLoRead (a : Agent) (wide : Bool) (s : State) : Answer :=
  if !s.reaches a 0x100 then .next (s.readZero a 0x100 (if wide then 8 else 4))
  else if wide then .next (s.giveRead a 0x100 (leBytes 8 s.time.lctr)) else .next (s.readOne a 0x100)

def execPegStatSseLoRead (a : Agent) (s : State) : Answer := if s.reaches a (pPeg + 0x118) then .next (s.readOne a (pPeg + 0x118)) else .next (s.readZero a (pPeg + 0x118) 4)

/-- The offset of a counter's lower half. -/
def counterLow (off : Nat) : Bool := (pageOf off).elim false fun g => isCounter g off && off % 8 == 0

def execCounterLoRead (a : Agent) (off : Nat) (s : State) : Answer :=
  if !counterLow off then .next s else if s.reaches a off then .next (s.readOne a off) else .next (s.readZero a off 4)

/-- The low registers of editions and floors. -/
def editionLows : List Nat := [pAtt + 0x118, pGwe + 0x120, pUpd + 0x10C]

def execEditionLoRead (a : Agent) (off : Nat) (s : State) : Answer :=
  if !editionLows.contains off then .next s else if s.reaches a off then .next (s.readOne a off) else .next (s.readZero a off 4)

def execRcFieldRead (a : Agent) (off : Nat) (s : State) : Answer := if off % 4 != 0 then .next s else if s.reaches a (barOff a off) then .next (s.readOne a off) else .next (s.readZero a off 4)

end Sys2Proof.Machine
end

