-- ==== Sys2Proof/Machine/Security.lean ====
section
/-! DEFINITION. The root of trust, firmware images, attestation, sessions and confidential mode (spec 14 R433 to R450, 13 R432). -/

namespace Sys2Proof.Machine

/-! ## Firmware images (14 R435, R436) -/

def imgBody (b : List Byte) : Nat := le32 b 8

/-- The part of what was read that is the image. -/
def imgTrim (b : List Byte) : List Byte := b.take (4096 + imgBody b)

/-- Reserved bytes and bits, version and size of an image (14 R435). -/
def imgFormatBad (b : List Byte) : Bool :=
  byteAt b 0 != 1 || decide (byteAt b 1 > 3) || decide (byteAt b 2 > 64) || decide (byteAt b 3 > 1) || decide (byteAt b 6 > 15) || byteAt b 7 != 0 ||
    imgBody b == 0 || decide (imgBody b > 126976) || decide (b.length < 4096 + imgBody b) || (slice b 12 52).any (· != 0) ||
    (slice b 1857 191).any (· != 0) || (slice b 3328 768).any (· != 0)

/-- The first failed check of 14 R436, as the SEC_ERR bit that records it (log entry 77, DEDUCED, for REVOKE). -/
def State.imgBad (s : State) (b : List Byte) : Option Nat :=
  let slot := byteAt b 1
  let pub := slice b 64 1793
  if imgFormatBad b then some 0
  else if !bitOf s.sec.valid slot || bitOf s.sec.revoked slot || Config.shake256 32 pub != s.sec.digests.getD slot [] then some 2
  else if !Config.falconVerify pub (slice b 0 64 ++ slice b 4096 (imgBody b)) (slice b 2048 1280) then some 0
  else if byteAt b 2 < s.sec.arb then some 1
  else if bitOf (byteAt b 6) slot then some 2
  else none

/-- An image is checked and counted (14 R436). -/
def State.checkImg (s : State) (b : List Byte) : State × Bool :=
  let s := s.bump (pSec + 0x040) 1
  match s.imgBad b with
  | some bit => ((s.bump (pSec + 0x048) 1).raise pSec bit, false)
  | none => (s, true)

def State.measure (s : State) (i : Nat) (d : List Byte) : State := { s with sec := { s.sec with meas := s.sec.meas.set i d } }

/-- M1 follows every OTP write (14 R440). -/
def State.measureOtp (s : State) : State :=
  s.measure 1 (Config.shake256 64 (Config.layout 0x434 [s.sec.life.code, s.sec.valid, s.sec.revoked, s.sec.arb]))

/-- The ROM's work in stage 0 (14 R434, R439). -/
def State.romStart (s : State) : State :=
  let x := s.sec
  let x := match x.life with
    | .blank => { x with life := .provisioned, seed := Config.trng x.draws 48, root := Config.trng (x.draws + 1) 32, draws := x.draws + 2, chain := Config.certChain }
    | .provisioned => x
    | .retired => { x with seed := [], root := [] }
  let x := { x with idDigest := Config.shake256 32 (Config.falconPublic x.seed) }
  (({ s with sec := x } : State).measure 0 (Config.shake256 64 Config.romImage)).measureOtp

/-- The slot the selector names first, then the other (14 R437, 17 R513). -/
def State.bootSlots (s : State) : List (List Byte) := if s.sec.selector == 1 then [s.sec.slot1, s.sec.slot0] else [s.sec.slot0, s.sec.slot1]

/-- Checks slots until one is accepted. -/
def State.trySlots (s : State) : List (List Byte) → State × Option (List Byte)
  | [] => (s, none)
  | b :: r =>
    let x := s.checkImg b
    if x.2 then (x.1, some (imgTrim b)) else x.1.trySlots r

/-- Stage 1 loads the first accepted image into bank 0 (14 R437). -/
def State.bootPatch (s : State) : State :=
  let x := s.trySlots s.bootSlots
  match x.2 with
  | some b =>
    let d := Config.shake256 64 b
    let s := (x.1.measure 2 d).measure 3 d
    { s with cmp := { s.cmp with image := b, bank := 0, bootSvn := byteAt b 2, unconfirmed := false }, sec := { s.sec with bootOk := true, noPatch := false } }
  | none => { x.1 with sec := { x.1.sec with bootOk := false, noPatch := true } }

/-! ## Live update (13 R432, 14 R438) -/

/-- Steps 1 and 2: the image is read into the inactive bank and checked. -/
def execFwLoad (a : Agent) (image : Option (List Byte)) (s : State) : Answer :=
  if !s.reaches a (pCmp + 0x114) then .next s
  else
    match image with
    | none => .next (s.raise pCmp 7)
    | some b =>
      let x := s.checkImg b
      let s := x.1
      if x.2 then .next { s with cmp := { s.cmp with staged := imgTrim b } }
      else .next (State.raise { s with cmp := { s.cmp with staged := [], switching := false } } pCmp 7)

/-- Step 3: a switch is asked for; ignored while no image is staged. -/
def execFwSwitch (a : Agent) (s : State) : Answer :=
  if !s.reaches a (pCmp + 0x114) || s.cmp.staged.isEmpty then .next s else .next { s with cmp := { s.cmp with switching := true } }

/-- A switch can be accepted: no prepared epoch, no HOLD. -/
def State.mayCut (s : State) : Bool := s.cmp.switching && !s.cmp.staged.isEmpty && !s.cmp.prepared && !s.pwr.hold

/-- Steps 3 to 6 succeed (log entry 76, DESIGN CHOICE). In a start that waits for an image, the new one completes stage 1 (14 R437). -/
def execFwSwitchAccept (s : State) : Answer :=
  if !s.mayCut then .next s
  else
    let b := s.cmp.staged
    let s := { s with cmp := { s.cmp with image := b, bank := 1 - s.cmp.bank, staged := [], switching := false, unconfirmed := true, fallback := false },
                      sec := { s.sec with noPatch := false } }
    .next (((s.measure 3 (Config.shake256 64 b)).bump (pCmp + 0x090) 1).logEvent pCmp 9 0 noAttr (le16 b 4) 0)

/-- The new firmware fails its check or is late: the old bank stays active. -/
def execFwFallback (s : State) : Answer :=
  if !s.mayCut then .next s
  else
    let v := le16 s.cmp.staged 4
    let s := { s with cmp := { s.cmp with staged := [], switching := false, fallback := true } }
    .next ((s.raise pCmp 7).logEvent pCmp 9 3 noAttr v 1)

/-- The confirmed image raises ARB where its BURN is set (14 R438, 1). -/
def State.raiseArb (s : State) (b : List Byte) : State := State.measureOtp { s with sec := { s.sec with arb := byteAt b 2 } }

/-- The slots named in REVOKE are revoked (14 R438, 2). -/
def State.revokeSlots (s : State) (b : List Byte) : State := State.measureOtp { s with sec := { s.sec with revoked := s.sec.revoked ||| byteAt b 6 } }

/-- The running image goes into the slot the selector does not name, and the selector flips (14 R438, 3 and 4). -/
def State.storeImage (s : State) (b : List Byte) : State :=
  let x := if s.sec.selector == 1 then { s.sec with slot0 := b, selector := 0 } else { s.sec with slot1 := b, selector := 1 }
  { s with sec := x, cmp := { s.cmp with unconfirmed := false } }

/-- ARB, revocations, the boot store, the selector, in order; a failed OTP write stops it (14 R438). -/
def execFwConfirm (a : Agent) (otpOk : Bool) (s : State) : Answer :=
  if !s.reaches a (pCmp + 0x114) || s.cmp.image.isEmpty then .next s
  else
    let b := s.cmp.image
    let burn := bitOf (byteAt b 3) 0 && decide (s.sec.arb < byteAt b 2)
    let revoke := (s.sec.revoked ||| byteAt b 6) != s.sec.revoked
    if (burn || revoke) && !otpOk then .next (s.raise pSec 5)
    else
      let s := if burn then s.raiseArb b else s
      let s := if revoke then s.revokeSlots b else s
      .next (s.storeImage b)

/-! ## Messages (14 R441, 15 R470 to R474) -/

/-- The transport can carry a message now: the management port from stage 0, a port's mailbox with a request in it, a port's DOE. -/
def State.carries (s : State) : Transport → Bool
  | .mctp => s.pwr.stage.isSome
  | .mbox p => s.powered (3 + p.idx) && (s.port p).up && (s.box p).req
  | .doe p => s.powered (3 + p.idx) && (s.port p).up

/-- A message goes back the way its request came; a mailbox response overwrites the request (15 MGT_MBOX). -/
def State.respond (s : State) (t : Transport) (l : List Byte) : State :=
  let s := { s with mgt := { s.mgt with resp := s.mgt.resp ++ [(t, l)] } }
  match t with
  | .mbox p => s.setBox p { len := l.length, req := false, rsp := true, data := overwrite (s.box p).data 0 l }
  | _ => s

/-- An Ebaety response (15 R471). -/
def ebMsg (ver cls code seq status : Nat) (payload : List Byte) : List Byte :=
  leBytes 1 ver ++ leBytes 1 (cls + 128) ++ leBytes 1 code ++ leBytes 1 seq ++ leBytes 2 status ++ leBytes 2 payload.length ++ payload

/-- Counts and sends an Ebaety response (15 MGT counters). -/
def State.ebReply (s : State) (t : Transport) (ver cls code seq status : Nat) (payload : List Byte) : State :=
  let s := s.bump (pMgt + 0x040) 1
  let s := if status == 0 then s else s.bump (pMgt + 0x048) 1
  s.respond t (ebMsg ver cls code seq status payload)

/-- An attestation response: DOE, or the attestation class of Ebaety (14 R441). -/
def State.attest (s : State) (t : Transport) (code seq : Nat) (payload : List Byte) : State :=
  match t with
  | .doe _ => s.respond t (leBytes 1 code ++ leBytes 1 seq ++ payload)
  | _ => s.ebReply t 0x12 0 code seq 0 payload

/-- A refused attestation message, with a reason whose coding the manual leaves open. -/
def State.attestNo (s : State) (t : Transport) (code seq reason : Nat) : State :=
  let s := s.bump (pSec + 0x078) 1
  let why := Config.layout 0x441 [code, reason]
  match t with
  | .doe _ => s.respond t (leBytes 1 code ++ leBytes 1 seq ++ why)
  | _ => s.ebReply t 0x12 0 code seq 8 why

/-- What carries no message changes nothing; a message before stage 1 is answered NOT_READY (15 R472). -/
def State.onAttest (s : State) (t : Transport) (code seq : Nat) (f : State → State) : Answer :=
  if !s.carries t then .next s
  else if !(s.pwr.stage.elim false fun n => decide (n ≥ 1)) then .next (s.ebReply t 0x12 0 code seq 4 [])
  else .next (f s)

def execGetInfo (t : Transport) (seq : Nat) (s : State) : Answer :=
  s.onAttest t 0x01 seq fun s => s.attest t 0x01 seq (Config.layout 0x01 [s.sec.life.code, s.sec.arb, byteAt s.cmp.image 2, s.cmp.bootSvn, le16 s.cmp.image 4,
    s.sec.conf, s.keyedMask .pa, s.keyedMask .pb])

def execGetCert (t : Transport) (seq off len : Nat) (s : State) : Answer :=
  s.onAttest t 0x02 seq fun s => if len > 1024 then s.attestNo t 0x02 seq 0 else s.attest t 0x02 seq ((s.sec.chain.drop off).take len)

/-- The signed part of a report (14 R442). -/
def State.reportBody (s : State) (nonce : List Byte) : List Byte :=
  slice (Config.layout 0x442 [1, s.sec.life.code, s.sec.arb, byteAt s.cmp.image 2, le16 s.cmp.image 4, s.sec.conf, s.keyedMask .pa, s.keyedMask .pb]) 0 64 ++
    slice nonce 0 32 ++ ((List.range 8).map fun i => slice (s.sec.meas.getD i []) 0 64).flatten

def execGetReport (t : Transport) (seq : Nat) (nonce : List Byte) (s : State) : Answer :=
  s.onAttest t 0x03 seq fun s =>
    if nonce.length != 32 then s.attestNo t 0x03 seq 1
    else
      let b := s.reportBody nonce
      (s.bump (pSec + 0x050) 1).attest t 0x03 seq (b ++ slice (Config.falconSign s.sec.seed b) 0 1280)

/-! ## Sessions (14 R443) -/

def State.session (s : State) (p : Port) (part : Nat) : Option Session := s.sec.sessions.find? fun x : Session => x.part == part && x.port == p

def State.setSession (s : State) (y : Session) : State :=
  { s with sec := { s.sec with sessions := s.sec.sessions.map fun x : Session => if x.part == y.part && x.port == y.port then y else x } }

/-- A partition has one session, on the port that owns it. Log entry 103, DEDUCED. -/
def execSessionOpen (port : Port) (seq part : Nat) (s : State) : Answer :=
  s.onAttest (.doe port) 0x10 seq fun s =>
    if part ≥ 16 || !s.owns port part then s.attestNo (.doe port) 0x10 seq 2
    else if s.sec.sessions.any fun x : Session => x.part == part then s.attestNo (.doe port) 0x10 seq 3
    else
      let priv := Config.trng s.sec.draws 64
      let ek := slice (Config.kemPublic priv) 0 1568
      let req := leBytes 1 0x10 ++ leBytes 1 seq ++ leBytes 1 part
      let out := ek ++ Config.falconSign s.sec.seed (ek ++ req)
      let x : Session := { part := part, port := port, priv := priv, key := [], keyed := false, seq := seq, opening := req ++ out }
      let s := { s with sec := { s.sec with sessions := s.sec.sessions ++ [x], draws := s.sec.draws + 1 } }
      (s.bump (pSec + 0x058) 1).attest (.doe port) 0x10 seq out

def execSessionKey (port : Port) (seq part : Nat) (ct : List Byte) (s : State) : Answer :=
  s.onAttest (.doe port) 0x11 seq fun s =>
    match s.session port part with
    | none => s.attestNo (.doe port) 0x11 seq 4
    | some x =>
      if x.keyed || ct.length != 1568 then s.attestNo (.doe port) 0x11 seq 5
      else
        let key := Config.shake256 32 (Config.kemDecaps x.priv ct ++ x.opening ++ leBytes 1 0x11 ++ leBytes 1 seq ++ ct)
        (s.setSession { x with key := key, keyed := true, seq := seq }).attest (.doe port) 0x11 seq []

/-- A session message opens: its sequence number is the next one and its tag holds (log entry 78, DEDUCED). -/
def State.opens (s : State) (p : Port) (part seq : Nat) (msg : List Byte) : Option (List Byte × State) :=
  match s.session p part with
  | none => none
  | some x =>
    if !x.keyed || seq != (x.seq + 1) % 256 then none
    else (Config.gcmOpen x.key (Config.layout 0x443 [seq]) msg).map fun d => (d, s.setSession { x with seq := seq })

/-- A session message does its work, or is refused (14 R443). -/
def State.inSession (s : State) (p : Port) (code seq part : Nat) (msg : List Byte) (f : List Byte → State → State) : Answer :=
  s.onAttest (.doe p) code seq fun s =>
    match s.opens p part seq msg with
    | none => (s.raise pSec 6).attestNo (.doe p) code seq 6
    | some (d, s) => f d s

def execSetIdeKey (port : Port) (seq part : Nat) (msg : List Byte) (s : State) : Answer :=
  s.inSession port 0x12 seq part msg fun d s =>
    State.attest { s with sec := { s.sec with ide := tset s.sec.ide (port.idx * 16 + part) d } } (.doe port) 0x12 seq []

def execSessionClose (port : Port) (seq part : Nat) (msg : List Byte) (s : State) : Answer :=
  s.inSession port 0x14 seq part msg fun _ s => (s.endSession port part).attest (.doe port) 0x14 seq []

/-! ## Confidential mode (14 R444, R450) -/

/-- Every context of the partition is OFF and holds no region. -/
def State.partIdle (s : State) (p : Nat) : Bool := (s.ctxsOf p).all fun c => (s.ctx c).state == .off && (s.region c).isNone

/-- The conditions of entry. -/
def State.mayEnter (s : State) (port : Port) (p : Nat) : Bool :=
  s.sec.life == .provisioned && s.partIdle p && !(s.shards.any fun x => x.part == p) &&
    !(s.fab.exp.any fun w => w.2.getD 6 0 != 0 && w.2.getD 5 0 == p) && bitOf (s.reg32 (pHif port + 0x11C)) p && s.ideKeyed port p

/-- The partition's fret domains outside their staging and FTE areas, and its SRAM, hold zeros. -/
def State.zeroPart (s : State) (p : Nat) : State :=
  let inside := fun (f c : Nat) => s.dieIn p (dieOf f) && decide (c < s.stageBase f - s.fte.area * 2048)
  let at' := fun (lin : Nat) => inside (lin / fretBytes) (lin % fretBytes / 32)
  let mine := dedupNat ((s.hbm.poison.map (·.fret)).filter fun f => s.dieIn p (dieOf f))
  let h := { s.hbm with cells := s.hbm.cells.filter (fun c => !at' c.1),
                        poison := mine.foldl (fun l f => clearPoison l f 0 ((s.stageBase f - s.fte.area * 2048) * 32)) s.hbm.poison }
  let s := { s with hbm := h, sec := { s.sec with chunks := s.sec.chunks.filter fun c => !at' c.1 } }
  s.modPart p fun x => { x with pf := [] }

/-- The whole flash window is trimmed (11 R370). -/
def State.trimWindow (s : State) (p : Nat) : State :=
  let b := tgetD s.fte.base p 0 * 65536
  let e := b + tgetD s.fte.len p 0 * 65536
  let inside := fun (g : Nat) => decide (b ≤ g) && decide (g < e)
  { s with fte := { s.fte with map := s.fte.map.filter (fun m => !inside m.1), hist := s.fte.hist.filter (fun h : Hist => !inside h.page),
                               extents := s.fte.extents.filter fun x : Extent => x.part != p },
           cmp := { s.cmp with areas := s.cmp.areas.filter fun a : Area => a.part != p } }

/-- M5: SHAKE256-512 over the sixteen entry records (14 R440). -/
def State.measureEntries (s : State) : State :=
  s.measure 5 (Config.shake256 64 ((List.range 16).map fun p => slice (tgetD s.sec.entry p []) 0 64).flatten)

/-- The entry record of a partition: its slice entry, CAU_PART_PERM and the window registers. -/
def State.entryRecord (s : State) (p : Nat) : List Byte :=
  slice (Config.layout 0x444 (sliceBits s.cmp.cur p ++ [s.reg32 (regKey (pCau + 0x108) p), tgetD s.fte.base p 0, tgetD s.fte.len p 0])) 0 64

/-- Steps 1 to 5 of entry (14 R444). -/
def State.enterConf (s : State) (p : Nat) : State :=
  let d := s.sec.draws
  let s := { s with sec := { s.sec with nonce := tset s.sec.nonce p (Config.trng d 8), buf := tset s.sec.buf p (Config.trng (d + 1) 32),
                                        ctr := tdel s.sec.ctr p, draws := d + 2 } }
  let s := (s.trimWindow p).zeroPart p
  let s := State.measureEntries { s with sec := { s.sec with entry := tset s.sec.entry p (s.entryRecord p) } }
  { s with sec := { s.sec with conf := setBit s.sec.conf p true } }

/-- Exit (14 R450). -/
def State.exitConf (s : State) (p : Nat) : State :=
  let s := s.zeroPart p
  let s := { s with sec := { s.sec with buf := tdel s.sec.buf p, ctr := tdel s.sec.ctr p } }
  let s := s.trimWindow p
  State.measureEntries { s with sec := { s.sec with nonce := tdel s.sec.nonce p, conf := setBit s.sec.conf p false, entry := tdel s.sec.entry p } }

def execConfidentialEnter (port : Port) (seq part : Nat) (msg : List Byte) (s : State) : Answer :=
  s.inSession port 0x13 seq part msg fun _ s =>
    if s.mayEnter port part then (s.enterConf part).attest (.doe port) 0x13 seq [] else s.attestNo (.doe port) 0x13 seq 7

def execConfidentialExit (port : Port) (seq part : Nat) (msg : List Byte) (s : State) : Answer :=
  s.inSession port 0x13 seq part msg fun _ s =>
    if s.confidential part && s.partIdle part then (s.exitConf part).attest (.doe port) 0x13 seq [] else s.attestNo (.doe port) 0x13 seq 8

/-- A request for a confidential partition outside its stream (14 R447). -/
def execIdeDrop (port : Port) (part : Nat) (posted : Bool) (s : State) : Answer :=
  if !s.confidential part then .next s
  else
    let s := (s.bump (pSec + 0x068) 1).raiseAt pSec 4 (partAttr part)
    .next (if posted then s else s.emit port (.unsupported part))

end Sys2Proof.Machine
end

