-- ==== Sys2Proof/Machine/Power.lean ====
section
/-! DEFINITION. Staged start, power domains, supply monitors and HOLD, the power-fail flush, temperature and the core voltage loop, references and local time (spec 15 R454 to R469, R476, 16 R492, R493, 11 R350, R377, R379, 17 R505 to R512, 01 R32). -/

namespace Sys2Proof.Machine

/-! ## Readings -/

/-- Lowest quadrant VDD_CORE in mV. -/
def State.vLow (s : State) : Nat := minList (s.pwr.mv.headD 0) s.pwr.mv

/-- VDD_CORE as measured at the quadrants; the minimum since the last read and that of the HOLD episode follow (15 PWR_VCORE, R467). Log entry 95, DESIGN CHOICE. -/
def State.setMv (s : State) (mv : List Nat) : State :=
  let low := minList (mv.headD 0) mv
  { s with pwr := { s.pwr with mv := mv, vmin := if s.pwr.vmin == 0 then low else min s.pwr.vmin low,
                               holdMin := if s.pwr.hold then min s.pwr.holdMin low else s.pwr.holdMin } }

/-- VMON_WARN in mV. -/
def State.vWarn (s : State) : Nat := 5 * fld (s.reg32 (pPwr + 0x100)) 7 0

/-- VDD_CORE lies above VMON_WARN + 20 mV in every quadrant. -/
def State.vGood (s : State) : Bool := decide (s.vLow > s.vWarn + 20)

/-! ## Register resets (16 R492, R493) -/

/-- What a stored word keeps when its page is reset: the retained fields STAGE_SIZE and those of FTE_CH_CFG; EVT_PTR, which counts from the power-up of PD00 (16 R485). -/
def keepWord (off : Nat) (v : W32) : Option (Nat × W32) :=
  match pageOf (off % 2 ^ 26) with
  | none => none
  | some g =>
    let o := off % 4096
    if o == 0x028 then some (off, v)
    else if g.ty == 0x30 && o == 0x100 then
      (if off ≥ 2 ^ 26 then some (off, v) else some (off, BitVec.ofNat 32 (setFld 0x2404 11 8 (fld v.toNat 11 8))))
    else if g.ty == 0x31 && g.kind == 1 && o == 0x100 then some (off, v)
    else none

/-- An offset, of whichever entry or agent, lies in a page that is reset. -/
def inReset (p : Page → Bool) (off : Nat) : Bool := (pageOf (off % 2 ^ 26)).elim false p

/-- Stored words, selectors, latches and counters of the pages named go back to reset. -/
def RegSt.resetPages (r : RegSt) (p : Page → Bool) : RegSt :=
  { r with w := r.w.filterMap (fun e => if inReset p e.1 then keepWord e.1 e.2 else some e), sel := r.sel.filter (fun e => !inReset p e.1),
           latch := r.latch.filter (fun e => !inReset p e.1), cnt := r.cnt.filter fun e => !inReset p e.1 }

/-- Pages that keep their registers through a core restart. -/
def isAlways (g : Page) : Bool := g.ty == 0x01 || g.ty == 0x02 || g.ty == 0x05

/-- Bound regions and shards with what runs over them begun again. -/
def Region.rest (r : Region) : Region := { r with calls := [], due := [] }
def Shard.rest (h : Shard) : Shard :=
  { h with sweep := none, replaying := false, forcing := false, copies := [], logBuf := [], logCredit := 0 }

/-- The context table as its registers reset; a context keeps the partition of its region (10 R323). -/
def boundCtxs (l : List Region) : Tab CtxEnt := l.foldl (fun t r => tset t r.ctx { CtxEnt.reset with part := r.part }) []

/-- The typed registers of a domain's pages (16 R492). -/
def State.resetTyped (s : State) (d : Nat) : State :=
  let inQuad := fun (n : Nat) => n / 3 == d - 14
  match d with
  | 3 => { s with pa := { Port.reset with out := s.pa.out }, rings := s.rings.filter fun r => r.1 / 4096 != 0 }
  | 4 => { s with pb := { Port.reset with out := s.pb.out }, rings := s.rings.filter fun r => r.1 / 4096 != 1 }
  | 5 =>
    let c := s.cmp
    { s with ctxs := boundCtxs s.regions, parts := [], refuse := (0, 0, 0, 0), shards := s.shards.map Shard.rest, regions := s.regions.map Region.rest, arr := { s.arr with peak := 0 },
             cmp := { CmpSt.reset with areas := c.areas, bank := c.bank, image := c.image, bootSvn := c.bootSvn, staged := c.staged, unconfirmed := c.unconfirmed, fallback := c.fallback },
             fte := { s.fte with base := [], len := [] } }
  | 14 | 15 | 16 | 17 =>
    let h := s.hbm
    { s with hbm := { h with spares := h.spares.filter (fun e => !inQuad (e.1 / 16)), spared := h.spared.filter (fun x => !inQuad (stackOf x)), sparing := h.sparing.filter (fun x : Sparing => !inQuad (stackOf x.fret)),
                             deadDies := h.deadDies.filter (fun x => !inQuad (x / 16)), deadChs := h.deadChs.filter (fun x => !inQuad (x / 32)),
                             ce := h.ce.filter (fun e => !inQuad (stackOf e.1)), elog := h.elog.filter (fun e => !inQuad (e.1 / 256)),
                             elogNext := h.elogNext.filter (fun e => !inQuad e.1), elogWraps := h.elogWraps.filter (fun e => !inQuad e.1),
                             thermal := h.thermal.filter (fun e => !inQuad e.1), temp := h.temp.filter (fun e => !inQuad e.1),
                             tempMax := h.tempMax.filter (fun e => !inQuad e.1), ovlPeak := h.ovlPeak.filter fun e => !inQuad e.1 } }
  | 18 | 19 | 20 | 21 =>
    let keep := 2 ^ 32 - 1 - 255 * 2 ^ (8 * (d - 18))
    { s with fte := { s.fte with chUp := s.fte.chUp &&& keep, chTrainFail := s.fte.chTrainFail &&& keep, chRate := s.fte.chRate.filter fun e => e.1 / 8 != d - 18 } }
  | 22 | 23 | 24 | 25 => { s with fab := { s.fab with links := s.fab.links.filter fun e => e.1 / 6 != d - 22 } }
  | 26 => { s with walks := [], walkPeak := 0 }
  | 27 => { s with peg := [], selMax := 0 }
  | 28 => { s with fab := { FabSt.reset with links := s.fab.links }, col := ColSt.reset }
  | 29 => { s with pwr := { s.pwr with valid := 0 } }
  | _ => s

/-- A domain's pages are reset as it comes on. -/
def State.resetDomain (s : State) (d : Nat) : State := State.resetTyped { s with reg := s.reg.resetPages fun g => g.domain == d } d

/-! ## Domains -/

/-- Domains of a start stage come on (15 R454). -/
def State.stageOn (s : State) (l : List Nat) : State := l.foldl (fun s d => s.switchBit d true) s

/-! ## What survives without main power -/

/-- A map entry whose page was never programmed goes back to the newest entry before it that was (11 R379). -/
def State.settledEntry (s : State) (g : Nat) (m : MapEnt) : MapEnt :=
  let ok := fun (m : MapEnt) => m.kind != 1 || (tget s.fte.phys m.ppa).elim false (·.programmed)
  if ok m then m
  else match s.fte.hist.find? fun h : Hist => h.page == g && ok h.prev with
    | some h => h.prev
    | none => MapEnt.none'

/-- Pages that were not programmed are lost with what named them. -/
def State.dropUnprogrammed (s : State) : State :=
  let lost := s.fte.phys.any fun e => !e.2.programmed
  if !lost then s
  else
    let map := s.fte.map.map fun e => (e.1, s.settledEntry e.1 e.2)
    { s with fte := { s.fte with map := map.filter (fun e => e.2.kind != 0), phys := s.fte.phys.filter (fun e => e.2.programmed),
                                 supers := s.fte.supers.map fun e => (e.1, { e.2 with closed := true }), streams := [] } }

/-- What NAND and its journal hold: the map with its history records, extents, pages, superblocks, retired blocks, sequence numbers; and the flush record. -/
def FteSt.kept (f : FteSt) : FteSt :=
  { FteSt.reset with dies := f.dies.map (fun e => (e.1, { e.2 with st := .absent })), map := f.map, hist := f.hist, extents := f.extents, phys := f.phys, supers := f.supers,
                     streams := f.streams.map (fun e => (e.1, { e.2 with row := [], programming := false })), seq := f.seq, written := f.written, flushed := f.flushed }

/-- What OTP, the boot store and the map images hold (14 R433, R437, R446; log entry 80, DESIGN CHOICE, for the entry record). -/
def SecSt.kept (x : SecSt) : SecSt :=
  { SecSt.reset with life := x.life, digests := x.digests, valid := x.valid, revoked := x.revoked, arb := x.arb, seed := x.seed, root := x.root,
                     nonce := x.nonce, entry := x.entry, slot0 := x.slot0, slot1 := x.slot1, selector := x.selector, chain := x.chain, draws := x.draws }

/-- Every committed edition survives: the bound regions and shards, the rows they publish, their checkpoint areas (11 R377, R379; log entry 80, DESIGN CHOICE). -/
def State.keepBound (s t : State) : State :=
  { s with
    regions := t.regions.map Region.rest,
    shards := t.shards.map Shard.rest,
    ctxs := boundCtxs t.regions,
    hbm := { HbmSt.reset with cells := t.hbm.cells, writer := t.hbm.writer, poison := t.hbm.poison, overlays := t.hbm.overlays },
    cmp := { CmpSt.reset with areas := t.cmp.areas.map fun a => { a with dueAt := s.time.lctr + a.period * 2 ^ 30 } },
    fte := t.fte.kept, sec := t.sec.kept }

/-- Stages that have not committed are lost (11 R377). -/
def State.dropStages (s : State) : State := s.cmds.foldl (fun s c => s.discard c) s

/-- PD01 to PD29 go off: every command ends as a conventional reset of both ports ends it, and only what PD00, the stacks in self-refresh and non-volatile memory hold is left (15 R459, R460, 16 R492). -/
def State.mainOff (s : State) : State :=
  let s := (List.range 29).foldl (fun s i => s.switchBit (29 - i) false) (((s.portReset .pa).portReset .pb).dropStages)
  let r := State.reset
  State.keepBound
         { r with
           pending := s.pending, free := s.free, nextCmd := s.nextCmd, nextTxn := s.nextTxn, time := s.time, mgt := s.mgt,
           reg := s.reg.resetPages fun g => !isAlways g,
           pwr := { s.pwr with hold := false, holdInj := false, monitors := false, flush := none, holdReqs := [], turning := [], leaving := [], valid := 0 },
           pa := { Port.reset with out := s.pa.out }, pb := { Port.reset with out := s.pb.out } } s

/-! ## HOLD (15 R465 to R468) -/

/-- HOLD begins: what has been issued to the dies completes (11 R364). -/
def State.enterHold (s : State) (inj : Bool) : State :=
  let s := s.pumpDies
  { s with pwr := { s.pwr with hold := true, holdAt := s.time.lctr, holdMin := s.vLow, holdInj := inj } }

/-- An armed dip of the warning monitor occurs (15 PWR ERR_INJ bit 0). -/
def State.injectDip (s : State) : State :=
  if s.armed pPwr 0 && s.pwr.monitors && !s.pwr.hold && s.pwr.flush.isNone then (s.disarm pPwr 0).enterHold true else s

/-- VDD_CORE falls below VMON_WARN. -/
def execHoldEnter (mv : List Nat) (s : State) : Answer :=
  let s := s.setMv mv
  .next (if s.pwr.monitors && !s.pwr.hold && s.pwr.flush.isNone && decide (s.vLow < s.vWarn) then s.enterHold false else s)

/-! ## The power-fail flush (11 R377, 15 R469) -/

/-- Every open row of a stream is closed and programmed. -/
def State.closeRows (s : State) (p st : Nat) : Nat → State
  | 0 => s
  | n + 1 => if (s.stream p st).row.isEmpty then s else (s.programRow p st []).closeRows p st n

/-- Steps 4 to 6 of 11 R377. -/
def State.flushAll (s : State) : State :=
  let s := s.fte.streams.foldl (fun s e => s.closeRows (e.1 / 4) (e.1 % 4) (e.2.row.length + 1)) s
  { s with fte := { s.fte with flushed := true, written := false } }

/-- A start stage's work begins again from stage 0, without the wait (15 R459). -/
def State.startAgain (s : State) : State :=
  let s := { s with pwr := { s.pwr with waitRestart := false, tripWait := false, trip := false }, fte := { s.fte with flushed := false } }
  (((s.bump (pPwr + 0x068) 1).enterStage 0).stageOn [1, 2, 29]).romStart

/-- The flush ends: the main domains go off; a management RESET goes on with its restart. -/
def State.flushEnd (s : State) : State :=
  match s.pwr.flush with
  | none => s
  | some cause =>
    let s := s.flushAll.mainOff
    if cause == 4 && !s.pwr.tripWait && !s.pwr.pwrFail then s.startAgain
    else { s with pwr := { s.pwr with waitRestart := true } }

/-- Start has reached stage 3, where there are streams. -/
def State.hasStreams (s : State) : Bool := s.pwr.stage.elim false fun n => decide (n ≥ 3)

/-- A flush starts, by cause: 0 PWR_FAIL_N, 1 VMON_RST, 2 HOLD_MAX, 3 thermal trip, 4 a management RESET (16 R498 code 0x03). Before stage 3 there is nothing to close and it ends at once (17 R511). Log entry 98, DEDUCED. -/
def State.startFlush (s : State) (cause : Nat) : State :=
  if s.pwr.flush.isSome || s.pwr.waitRestart || !s.pwr.good then s
  else
    let s := ({ s with pwr := { s.pwr with flush := some cause, hold := false, holdInj := false } } : State).bump (pPwr + 0x050) 1
    let s := if cause < 4 then s.logEvent pPwr 3 3 noAttr cause 0 else s
    if s.hasStreams then s else s.flushEnd

/-- Log entry 131, DESIGN CHOICE. -/
def execFlushComplete (s : State) : Answer := .next s.flushEnd

/-- PWR_FAIL_N low for `ns`: under 1 µs ignored, from 2 µs acted on, between open (17 R511; log entry 3, DESIGN CHOICE). -/
def execPwrFailN (ns : Nat) (stays : Bool) (s : State) : Answer :=
  if ns < 1000 then .next s
  else
    let r := if ns < 2000 then s.takeFree 1 else (1, s)
    if r.1 == 0 then .next r.2
    else .next ((State.raise { r.2 with pwr := { r.2.pwr with pwrFail := stays } } pPwr 1).startFlush 0)

/-- VDD_CORE reaches VMON_RST. -/
def execVmonRst (mv : List Nat) (s : State) : Answer :=
  let s := s.setMv mv
  .next (if s.pwr.monitors && decide (s.vLow ≤ 550) then (s.raise pPwr 0).startFlush 1 else s)

/-- HOLD_MAX expires in HOLD. -/
def execHoldMaxExpiry (s : State) : Answer :=
  if !s.pwr.hold || decide (s.time.lctr < s.pwr.holdAt + fld (s.reg32 (pPwr + 0x104)) 5 0 * 2 ^ 14) then .next s
  else .next (((s.bump (pPwr + 0x048) 1).raise pPwr 2).startFlush 2)

/-- The board says that the supply is good again. -/
def execRestartAfterFlush (s : State) : Answer :=
  if !s.pwr.waitRestart || s.pwr.tripWait || !s.pwr.good then .next s
  else .next (State.startAgain { s with pwr := { s.pwr with pwrFail := false } })

/-! ## Temperature (15 R463, R464, 17 R512) -/

def State.trips (s : State) : Bool := s.pwr.temps.any fun t => decide (t ≥ fld (s.reg32 (pPwr + 0x110)) 15 8)

def execThermalTrip (temps : List Nat) (s : State) : Answer :=
  let s := { s with pwr := { s.pwr with temps := temps } }
  if !s.trips || !s.pwr.good then .next s
  else .next ((State.raise { s with pwr := { s.pwr with trip := true, tripWait := true } } pPwr 3).startFlush 3)

/-- Every junction has been below THROTTLE − 10 °C for 1 s. -/
def execThermalRecovery (temps : List Nat) (s : State) : Answer :=
  let s := { s with pwr := { s.pwr with temps := temps } }
  let cool := temps.all fun t => decide (t + 10 < fld (s.reg32 (pPwr + 0x110)) 7 0)
  if !s.pwr.tripWait || !cool || s.pwr.flush.isSome || !s.pwr.good then .next s
  else .next s.startAgain

/-- The next setpoint of the loop, in 5 mV units; it never lies below the floor (15 R462, R463). -/
def nextVset (v floor target t p throttle cap peak : Nat) : Nat :=
  if p > peak then max (v - 4) floor
  else if t ≥ throttle ∨ p > cap then max (v - 1) floor
  else if t + 2 < throttle ∧ 100 * p < 98 * cap then max (min (v + 1) target) floor
  else max v floor

/-- PWR writes the setpoint over AVSBus; where that fails three times, it stays (15 R462). -/
def State.avsWrite (s : State) (v : Nat) (ok : Bool) : State :=
  if ok then { s with pwr := { s.pwr with vset := v, avsOk := true } }
  else State.raise { s with pwr := { s.pwr with avsOk := false } } pPwr 5

def execVoltageLoopStep (temp power : Nat) (avsOk : Bool) (s : State) : Answer :=
  if s.pwr.hold || !s.powered 5 || !(s.pwr.stage.elim false fun n => decide (n ≥ 1)) then .next s
  else
    let s := { s with pwr := { s.pwr with power := power } }
    let th := s.reg32 (pPwr + 0x110)
    let cap := s.reg32 (pPwr + 0x118)
    let v := nextVset s.pwr.vset s.vFloor (fld (s.reg32 (pPwr + 0x108)) 7 0) temp power (fld th 7 0) (fld cap 15 0) (fld cap 31 16)
    if v == s.pwr.vset then .next s
    else
      let low := decide (v < s.pwr.vset) && avsOk
      let s := s.avsWrite v avsOk
      .next (if low then s.bump (pPwr + 0x058) 1 else s)

/-- Whether a sensor has been measured: those of a stack while its PHY domain is on (15 R476). -/
def State.sensorOn (s : State) (i : Nat) : Bool := if 4 ≤ i ∧ i < 16 then s.powered (14 + (i - 4) / 3) else true

/-- TEL refreshes its sensors; the readings of PWR are those of the same quantities, and the setpoint is PWR's own. -/
def execSensorRefresh (vals : List Nat) (s : State) : Answer :=
  if !s.powered 29 then .next s
  else
    let now := fun (i : Nat) => if i == 22 then 5 * s.pwr.vset else if s.sensorOn i then vals.getD i 0 else s.pwr.sensors.getD i 0
    let s := s.setMv ((List.range 4).map fun q => vals.getD (16 + q) 0)
    let p := { s.pwr with sensors := (List.range 23).map now, valid := maskOf ((List.range 23).filter s.sensorOn),
                          temps := (List.range 4).map (fun q => vals.getD q 0 / 16), power := vals.getD 20 0, core := vals.getD 21 0 }
    .next (State.bump { s with pwr := p } (pTel + 0x048) 1)

/-! ## Training (03 R107, R110, 04 R129, 11 R350, R357) -/

/-- A domain that fails the self-test of start stage 2 is spared before any row is written, so nothing is copied (03 R110). -/
def State.spareBad (s : State) (f : Nat) : State :=
  let s := (s.elogAt f 5 none).failDomain f true
  if s.sparingAt f then
    let h := s.hbm
    { s with hbm := { h with sparing := h.sparing.filter (fun x => x.fret != f), poison := clearDomain h.poison f, writer := tagDomain h.writer f 0,
                             spared := if h.spared.contains f then h.spared else h.spared ++ [f],
                             cells := h.cells.filter fun c => !(linOf f 0 ≤ c.1 && c.1 < linOf f fretBytes) } }
  else s

/-- The stacks of a quadrant train and test their frets. -/
def State.trainStacks (s : State) (q : Nat) (rep : StartReport) : State :=
  let mine := fun (stack : Nat) => stack / 3 == q && decide (stack < 12)
  let chans := if bitOf s.pwr.quadRef q then (dedupNat rep.badChannels).filter fun x => mine (x / 32)
    else ((List.range 3).map fun i => (List.range 32).map fun c => (q * 3 + i) * 32 + c).flatten
  let s := chans.foldl (fun s x => s.failChannel (x / 32) (x % 32)) s
  ((dedupNat rep.badDomains).filter fun f => mine (stackOf f)).foldl (fun s f => s.spareBad f) s

/-- The courses of a domain run their self-test. -/
def State.testCourses (s : State) (d : Nat) (rep : StartReport) : State :=
  (List.range 4).foldl (fun s i =>
    let n := 4 * (d - 6) + i
    if bitOf rep.badCourses n then (s.fenceCourse n 2).raiseAt (pCourse n) 1 noAttr
    else if tgetD s.arr.src n 0 == 3 then State.settleCourse { s with arr := { s.arr with pendJoin := setBit s.arr.pendJoin n true } } n
    else s) s

/-- How many of a list equal a value. -/
def countOf (l : List (Nat × Nat × Nat)) (x : Nat × Nat × Nat) : Nat := (l.filter (· == x)).length

/-- The page size, pages per block and plane count of most dies; the first found among equals (log entry 79, DESIGN CHOICE). -/
def majority (l : List (Nat × Nat × Nat)) : Nat × Nat × Nat :=
  l.foldl (fun b x => if countOf l x > countOf l b then x else b) (l.headD (0, 0, 0))

def NandDie.shape (d : NandDie) : Nat × Nat × Nat := (d.pageBytes, d.pagesPerBlock, d.planes)

/-- A die is excluded (11 R350). -/
def nandBad (most : Nat × Nat × Nat) (trained : Bool) (d : NandDie) : Bool :=
  !d.answers || !trained || decide (d.pageBytes < 18432) || decide (d.planes * 16384 > 65536) || decide (d.pages > 2 ^ 24) || NandDie.shape d != most

/-- Flash channels train and their dies are found. -/
def State.findNand (s : State) (chs : List Nat) (rep : StartReport) : State :=
  let found := rep.nand.filter fun d : NandDie => chs.contains (d.die / 16) && decide (d.die < 512)
  let most := majority ((rep.nand.filter fun d : NandDie => d.answers).map NandDie.shape)
  let failed := fun (c : Nat) => bitOf rep.badNand c || !bitOf s.pwr.quadRef (c / 8)
  let populated := chs.filter fun c => (found.any fun d : NandDie => d.die / 16 == c) || bitOf rep.badNand c
  let s := populated.foldl (fun s c =>
    if failed c then State.raise { s with fte := { s.fte with chTrainFail := setBit s.fte.chTrainFail c true } } (pChan c) 0
    else { s with fte := { s.fte with chUp := setBit s.fte.chUp c true,
                                      chRate := match rep.rates.find? fun r => r.1 == c with
                                        | some r => tset s.fte.chRate c r.2
                                        | none => s.fte.chRate } }) s
  let s := found.foldl (fun s d => s.modDie d.die fun x =>
    { x with st := if nandBad most (!failed (d.die / 16)) d then .excluded else .good, planes := d.planes, ppb := d.pagesPerBlock,
             pages := if d.answers && !failed (d.die / 16) then d.pages else 0, retry := d.retry, suspend := d.suspend }) s
  let usable := s.fte.dies.filter fun e => e.2.st == .good
  let p := sumList (usable.map fun e => e.2.pages)
  { s with fte := { s.fte with area := ceilDiv (5 * ceilDiv p 12288) 65536 + 1 } }

/-- Partitions whose map images carry the confidential flag are confidential again, under a fresh buffer key (14 R446; log entry 80, DESIGN CHOICE). -/
def State.confAgain (s : State) : State :=
  s.sec.nonce.foldl (fun s e =>
    { s with sec := { s.sec with conf := setBit s.sec.conf e.1 true, buf := tset s.sec.buf e.1 (Config.trng s.sec.draws 32), draws := s.sec.draws + 1 } }) s

/-- The maps are loaded and the journals replayed (11 R359, R379). -/
def State.loadMaps (s : State) : State :=
  let s := if s.fte.written then (s.bump (pFte + 0x0B8) 1).raise pFte 5 else s
  (State.confAgain { s with fte := { s.fte with loaded := true } }).measureEntries

/-- Links come out of their domain: DOWN, ready to train, or held DISABLED (12 R386). -/
def State.wakeLinks (s : State) (q : Nat) : State :=
  (List.range 6).foldl (fun s i =>
    let l := 6 * q + i
    s.setLink l { s.link l with st := if bitOf (s.reg32 (pLink l + 0x100)) 31 then .down else .disabled }) s

/-! ## Staged start (15 R454, R457, R458, 17 R505) -/

/-- 50 ms after PWR_GOOD. -/
def execStage0Entry (mv : List Nat) (s : State) : Answer :=
  if !s.pwr.good || s.pwr.stage.isSome || s.pwr.waitRestart || decide (s.time.lctr < 5000000) then .next s
  else .next (((s.setMv mv).enterStage 0).stageOn [1, 2, 29]).romStart

/-- Stage 0 completes once VDD_CORE is above VMON_WARN + 20 mV; stage 1 checks the boot image and sets the voltage. -/
def State.toStage1 (s : State) (rep : StartReport) : State :=
  let s := s.setMv rep.mv
  if !s.vGood then s
  else
    let s := ({ s with pwr := { s.pwr with monitors := true } } : State).enterStage 1
    let s := ((s.stageOn [3, 4, 5]).bootPatch).avsWrite (max (fld (s.reg32 (pPwr + 0x108)) 7 0) s.vFloor) rep.avsOk
    s.injectDip

/-- Stage 1 completes once an image is accepted; the frets are scrubbed (10 R326). -/
def State.toStage2 (s : State) : State :=
  if s.cmp.image.isEmpty then s else (State.enterStage { s with frets := [] } 2).stageOn ((List.range 12).map (· + 6) ++ [27])

/-- The staging size written takes effect at this start (03 SBC_CFG). -/
def State.takeStageSize (s : State) : State := (List.range 12).foldl (fun s n => s.setReg32 (regKey (pSbc n + 0x100) 1) (s.reg32 (pSbc n + 0x100))) s

/-- Stage 2 ends with every stack trained or fenced; with every die fenced, start stops. -/
def State.toStage3 (s : State) (rep : StartReport) : State :=
  let s := (List.range 4).foldl (fun s q => s.trainStacks q rep) s.takeStageSize
  let s := (List.range 4).foldl (fun s i => s.testCourses (6 + i) rep) s
  if (List.range 12).all s.stackDead then s.raise pPwr 6
  else (s.enterStage 3).stageOn [18, 19, 20, 21]

/-- Stage 3 ends with every map loaded. -/
def State.toStage4 (s : State) (rep : StartReport) : State :=
  let s := (s.findNand (List.range 32) rep).loadMaps
  let s := (s.enterStage 4).stageOn [22, 23, 24, 25, 26, 28]
  (List.range 4).foldl (fun s q => s.wakeLinks q) s

/-- The current stage's work is done; HOLD pauses it. Stage 4 ends with the first activation. -/
def execStageAdvance (rep : StartReport) (s : State) : Answer :=
  if !s.pwr.good || s.held || s.pwr.waitRestart then .next s
  else match s.pwr.stage with
    | some 0 => .next (s.toStage1 rep)
    | some 1 => .next s.toStage2
    | some 2 => .next (s.toStage3 rep)
    | some 3 => .next (s.toStage4 rep)
    | _ => .next s

/-- PWR_GOOD: asserted, straps are sampled and PD00 comes up cold; deasserted, PD00 is lost (17 R505, R506, 16 R492). -/
def execPwrGood (on : Bool) (straps : Nat) (s : State) : Answer :=
  if on == s.pwr.good then .next s
  else
    let r := State.reset
    if on then .next { s with time := TimeSt.reset, reg := RegSt.reset, mgt := MgtSt.reset, pwr := { PwrSt.reset with straps := straps, quadRef := s.pwr.quadRef } }
    else
      let s := s.dropStages.dropUnprogrammed
      .next <| State.keepBound
                   { r with
                     pending := s.pending, free := s.free, nextCmd := s.nextCmd, nextTxn := s.nextTxn, pa := { Port.reset with out := s.pa.out },
                     pb := { Port.reset with out := s.pb.out }, pwr := { PwrSt.reset with good := false, on := 0, quadRef := s.pwr.quadRef } } s

/-! ## Power-domain requests (15 R460, R461) -/

/-- A domain may be switched off. -/
def State.mayOff (s : State) (d : Nat) : Bool :=
  let parts := List.range 16
  match d with
  | 3 => s.pa.own == 0
  | 4 => s.pb.own == 0
  | 5 | 27 => parts.all fun p => (s.part p).units == 0
  | 6 | 7 | 8 | 9 | 29 => true
  | 10 | 11 | 12 | 13 => (s.quadTotals 16 0).getD (d - 10) 0 == 0
  | 14 | 15 | 16 | 17 =>
    let inQuad := fun (die : Nat) => die / 48 == d - 14
    (parts.all fun p => !(s.sliceDies p).any inQuad && tgetD s.fte.len p 0 == 0) &&
      !(s.fab.exp.any fun w => w.2.getD 6 0 != 0 && (List.range (w.2.getD 2 0)).any fun i => inQuad (dieOf (w.2.getD 1 0 + i)))
  | 18 | 19 | 20 | 21 => parts.all fun p => !(bitsOf 32 (s.flashChs p)).any fun c => c / 8 == d - 18
  | 22 | 23 | 24 | 25 => parts.all fun p => !(bitsOf 24 (s.links p)).any fun l => l / 6 == d - 22
  | 26 => s.shards.isEmpty
  | 28 => [22, 23, 24, 25].all fun x => !s.powered x
  | _ => false

/-- What goes with a domain. -/
def State.domainGone (s : State) (d : Nat) : State :=
  match d with
  | 3 => s.modPort .pa fun x => { x with up := false, speed := 0, width := 0, flit := false, downAt := s.time.lctr }
  | 4 => s.modPort .pb fun x => { x with up := false, speed := 0, width := 0, flit := false, downAt := s.time.lctr }
  | 6 | 7 | 8 | 9 => (List.range 4).foldl (fun s i => let n := 4 * (d - 6) + i; State.settleCourse { s with arr := { s.arr with pendFence := tset s.arr.pendFence n 3 } } n) s
  | 18 | 19 | 20 | 21 => { s with fte := { s.fte with chUp := s.fte.chUp &&& (2 ^ 32 - 1 - 255 * 2 ^ (8 * (d - 18))), runs := s.fte.runs.filter fun e => e.1 / 128 != d - 18 } }
  | 22 | 23 | 24 | 25 => (List.range 6).foldl (fun s i => let l := 6 * (d - 22) + i; if (s.link l).st == .disabled then s else s.linkLost l .disabled) s
  | _ => s

/-- A request that was granted takes effect; an Array domain waits for the wave boundary at which its courses are fenced (04 R129), and a request to switch it on before that takes the fences back. Log entry 101, DESIGN CHOICE. -/
def State.pdApply (s : State) (d : Nat) (on : Bool) : State :=
  if on && s.pwr.leaving.contains d then
    { s with pwr := { s.pwr with leaving := s.pwr.leaving.filter (· != d) },
             arr := { s.arr with pendFence := s.arr.pendFence.filter fun e => !(e.1 / 4 == d - 6 && e.2 == 3) } }
  else if s.powered d == on || s.pwr.leaving.contains d then s
  else if on then
    let s := (s.switchBit d true).resetDomain d
    let s := if 22 ≤ d ∧ d ≤ 25 then (List.range 6).foldl (fun s i => let l := 6 * (d - 22) + i; s.setLink l { s.link l with st := .disabled }) s else s
    { s with pwr := { s.pwr with turning := s.pwr.turning ++ [d] } }
  else
    let s := s.domainGone d
    let s := { s with pwr := { s.pwr with turning := s.pwr.turning.filter (· != d) } }
    if 6 ≤ d ∧ d ≤ 9 then State.leaveDomains { s with pwr := { s.pwr with leaving := s.pwr.leaving ++ [d] } } else s.switchBit d false

/-- A request is judged as it arrives; granted, it waits out a HOLD. The outcome: true when granted. -/
def State.pdRequest (s : State) (d : Nat) (on : Bool) : State × Bool :=
  if d > 29 || (!on && s.powered d && !s.mayOff d) || (!on && d ≤ 2) then (s.raise pPwr 4, false)
  else if s.pwr.hold then ({ s with pwr := { s.pwr with holdReqs := s.pwr.holdReqs ++ [(d, on)] } }, true)
  else (s.pdApply d on, true)

def execPdSwitchOn (a : Agent) (domain : Nat) (s : State) : Answer := if s.reaches a (pPwr + 0x120) then .next (s.pdRequest domain true).1 else .next s

def execPdSwitchOff (a : Agent) (domain : Nat) (s : State) : Answer := if s.reaches a (pPwr + 0x120) then .next (s.pdRequest domain false).1 else .next s

/-- The work of a domain that has come on is done, and its units serve. -/
def execDomainOnDone (domain : Nat) (rep : StartReport) (s : State) : Answer :=
  if !s.pwr.turning.contains domain then .next s
  else
    let s := { s with pwr := { s.pwr with turning := s.pwr.turning.filter (· != domain) } }
    match domain with
    | 6 | 7 | 8 | 9 => .next (s.testCourses domain rep)
    | 14 | 15 | 16 | 17 => .next (s.trainStacks (domain - 14) rep)
    | 18 | 19 | 20 | 21 => .next (s.findNand ((List.range 8).map (· + 8 * (domain - 18))) rep)
    | 22 | 23 | 24 | 25 => .next (s.wakeLinks (domain - 22))
    | 5 => .next { s with fte := { s.fte with loaded := true } }
    | _ => .next s

/-! ## Leaving HOLD (15 R467) -/

/-- Commits that waited start in the order in which their stages completed; held requests, internal commands and power requests go on. -/
def State.release (s : State) : State :=
  let staged := sortBy (fun a b : Cmd => decide (a.since < b.since) || (a.since == b.since && decide (a.id ≤ b.id))) (s.cmds.filter fun c => c.phase == .staged)
  let s := staged.foldl (fun s c => match execCommitPhase c.id s with
    | .next t => t
    | _ => s) s
  let s := (List.range 16).foldl (fun s p => s.releaseCapos p) s
  let s := (s.cmds.filter fun c => c.origin == .internal && c.phase == .queued).foldl (fun s c => s.run c.id) s
  let reqs := s.pwr.holdReqs
  State.pumpDies (reqs.foldl (fun s r => s.pdApply r.1 r.2) { s with pwr := { s.pwr with holdReqs := [] } })

/-- VDD_CORE is above VMON_WARN + 20 mV everywhere, within HOLD_MAX of the entry; an injected dip lasts 1 ms. -/
def execHoldExit (mv : List Nat) (s : State) : Answer :=
  let s := s.setMv mv
  let late := decide (s.time.lctr > s.pwr.holdAt + fld (s.reg32 (pPwr + 0x104)) 5 0 * 2 ^ 14)
  if !s.pwr.hold || !s.vGood || late || (s.pwr.holdInj && decide (s.time.lctr < s.pwr.holdAt + 100000)) then .next s
  else
    let s := s.bump (pPwr + 0x040) 1
    let s := s.logEvent pPwr 2 2 noAttr (sat32 (s.time.lctr - s.pwr.holdAt)) (s.pwr.holdMin % 2 ^ 16)
    .next (State.release { s with pwr := { s.pwr with hold := false, holdInj := false } }).injectDip

/-! ## Local time (01 R32) -/

/-- LCTR follows the first source present; a change is counted. -/
def execLctrSourceSwitch (pa pb : Bool) (s : State) : Answer :=
  let src := if pa then 0 else if pb then 1 else 2
  let n := if src == s.time.src then s.time.switches else sat16 (s.time.switches + 1)
  .next { s with time := { s.time with refPa := pa, refPb := pb, src := src, switches := n } }

end Sys2Proof.Machine
end

