-- ==== Sys2Proof/Machine/Registers.lean ====
section
/-! DEFINITION. Register writes (spec 16 R482 to R491, R495, R501; 14 R453; the register tables of 01 to 15; 02 R65, R66; 11 R353; 12 R402; 13 R431). -/

namespace Sys2Proof.Machine

/-- The state an answer leads to. -/
def Answer.state (s : State) : Answer → State
  | .next t => t
  | _ => s

/-! ## Locks (14 R453) -/

/-- A write ignored under 14 R453. -/
def State.rwlDrop (s : State) : State := s.bump (pSec + 0x070) 1

/-- Does `f` unless the lock holds. -/
def State.unlessLocked (s : State) (lock : Bool) (f : State → State) : State := if lock then s.rwlDrop else f s

/-! ## Stored fields (16 R487, R488) -/

/-- Ranges outside which a field keeps its value: block, offset, bits, least and greatest value. -/
def fieldRanges : List (Nat × Nat × Nat × Nat × Nat × Nat) :=
  [(0x02, 0x100, 7, 0, 114, 124), (0x02, 0x104, 5, 0, 1, 61), (0x02, 0x108, 7, 0, 124, 160), (0x02, 0x110, 15, 8, 106, 120),
   (0x02, 0x110, 7, 0, 80, 105), (0x02, 0x118, 15, 0, 100, 950), (0x10, 0x114, 7, 0, 1, 255), (0x12, 0x100, 31, 16, 1, 65535),
   (0x12, 0x100, 15, 8, 1, 255), (0x13, 0x100, 4, 0, 8, 16), (0x20, 0x100, 6, 0, 1, 64), (0x22, 0x100, 4, 0, 1, 16),
   (0x22, 0x104, 31, 0, 0x3F800000, 0x40800000), (0x23, 0x100, 31, 16, 1, 65535), (0x23, 0x100, 11, 8, 1, 8), (0x23, 0x104, 30, 24, 1, 74),
   (0x23, 0x104, 16, 0, 256, 65536), (0x23, 0x108, 15, 0, 1, 65535), (0x23, 0x10C, 31, 16, 1, 65535), (0x23, 0x10C, 7, 0, 1, 255),
   (0x24, 0x100, 13, 8, 1, 63), (0x30, 0x100, 11, 8, 1, 15), (0x30, 0x100, 7, 0, 1, 16)] ++
  [(0x31, 0x104, 7, 0, 1, 50), (0x31, 0x108, 31, 20, 1, 4095), (0x31, 0x10C, 7, 0, 1, 255), (0x31, 0x110, 15, 0, 1, 65535),
   (0x31, 0x118, 15, 0, 64, 4096), (0x32, 0x100, 15, 0, 1, 65535), (0x32, 0x110, 31, 0, 1, 0xFFFFFFFF), (0x32, 0x114, 7, 0, 1, 255),
   (0x32, 0x118, 31, 16, 1, 65535), (0x32, 0x118, 13, 0, 1, 8192), (0x33, 0x100, 31, 16, 1, 65535), (0x33, 0x100, 6, 0, 1, 64),
   (0x33, 0x140, 31, 16, 1, 65535), (0x33, 0x140, 10, 0, 0, 1024), (0x34, 0x108, 31, 16, 1, 65535), (0x34, 0x108, 15, 8, 1, 255),
   (0x34, 0x128, 31, 16, 1, 65535)]

/-- A field of `new` that is out of range keeps the value it has in `old`. -/
def keepField (old new hi lo : Nat) (ok : Bool) : Nat := if ok then new else setFld new hi lo (fld old hi lo)

/-- Ranges of the unit pages, which share offsets with their block page. -/
def unitRange (g : Page) (o old new : Nat) : Nat :=
  match g.ty, o with
  | 0x31, 0x100 => let r := fld new 15 4; keepField old new 15 4 (decide (400 ≤ r) && decide (r ≤ 3600))
  | 0x32, 0x100 => keepField old new 9 8 (fld new 9 8 != 3)
  | _, _ => new

/-- Fields whose range another field of the register bounds: CAP and PEAK, START, STOP and URGENT. -/
def relRange (g : Page) (o old new : Nat) : Nat :=
  match g.ty, o with
  | 0x02, 0x118 => keepField old new 31 16 (decide (fld new 15 0 ≤ fld new 31 16) && decide (fld new 31 16 ≤ 1050))
  | 0x31, 0x104 =>
    let n := keepField old new 23 16 (decide (fld new 23 16 < fld new 7 0))
    keepField old n 15 8 (decide (fld n 15 8 > fld n 7 0) && decide (fld n 15 8 ≤ 100))
  | _, _ => new

/-- The word a write leaves in a stored register whose writable bits are `mask`. -/
def stored (g : Page) (o mask old v : Nat) : Nat :=
  let new := (old &&& (0xFFFFFFFF - mask)) ||| (v &&& mask)
  if g.kind == 1 then unitRange g o old new
  else
    let new := (fieldRanges.filter fun r => r.1 == g.ty && r.2.1 == o).foldl (fun n r =>
      let (_, _, hi, lo, a, b) := r
      keepField old n hi lo (decide (a ≤ fld n hi lo) && decide (fld n hi lo ≤ b))) new
    relRange g o old new

/-- A plain write: RW fields, and RWL fields unless the device is locked as a whole. -/
def State.writeStored (s : State) (g : Page) (off v : Nat) : State :=
  match storedReg g off with
  | none => s
  | some (rw, rwl, _) =>
    let lock := rwl != 0 && s.devLocked
    let s := if lock then s.rwlDrop else s
    s.setReg32 off (stored g (off % 4096) (if lock then rw else rw ||| rwl) (s.reg32 off) v)

/-! ## Headers (16 R482 to R484, R495) -/

/-- A write of 1 clears an ERR bit and its repeat flag. -/
def State.clearErr (s : State) (base mask : Nat) : State :=
  let keep := fun (w : Nat) => w &&& (0xFFFFFFFF - mask % 2 ^ 32)
  (s.setReg32 (base + 0x018) (keep (s.reg32 (base + 0x018)))).setReg32 (base + 0x024) (keep (s.reg32 (base + 0x024)))

/-- Enabling an error that is set makes it count toward the summary (16 R495). -/
def State.writeErrEn (s : State) (g : Page) (v : Nat) : State := s.withSum (sumBit g.ty) fun s => s.setReg32 (g.base + 0x01C) (v &&& g.errMask)

/-- Arms injected faults; those that need no further event occur at once (15 PWR ERR_INJ, 12 FAB_L ERR_INJ). -/
def State.writeInj (s : State) (g : Page) (v : Nat) : State :=
  if s.devLocked then s
  else
    let s := s.setReg32 (g.base + 0x020) (s.reg32 (g.base + 0x020) ||| (v &&& g.injMask))
    if g.ty == 0x02 then s.injectDip
    else if g.ty == 0x32 && g.kind == 1 && s.armed g.base 3 && (s.link g.inst).st == .up then
      (s.disarm g.base 3).retrain g.inst (s.link g.inst).laneMask
    else s

/-- Writes of the common header. -/
def State.writeHeader (s : State) (g : Page) (o v : Nat) : State :=
  match o with
  | 0x010 => if g.ty == 0x20 && g.kind == 1 then s.writeFence g.inst (bitOf v 1) else s
  | 0x018 => s.clearErr g.base v
  | 0x01C => s.writeErrEn g v
  | 0x020 => s.writeInj g v
  | _ => s

/-! ## Selectors (16 R490) -/

/-- Bits of a selector. -/
def selMask (g : Page) (o : Nat) : Nat := (storedReg g o).elim 0 fun r => r.1

/-- The entry an agent's GLB_EVT_SEL names is copied (16 R501). -/
def State.copyEvent (s : State) (a : Agent) (seq : Nat) : State :=
  let s := s.setSel a 0x144 seq
  { s with reg := { s.reg with copy := tset s.reg.copy (agentIdx a) (s.eventAt seq) } }

/-- Offsets whose latches a write of PEG_STAT_SEL discards (02 R66). -/
def pegLatches : List Nat := [pPeg + 0x11C, pPeg + 0x120, pPeg + 0x124, pPeg + 0x128]

def State.writePegSel (s : State) (a : Agent) (v : Nat) : State := pegLatches.foldl (fun s o => s.dropLatch a o) (s.setSel a (pPeg + 0x110) (v % 64))

def State.writeSel (s : State) (a : Agent) (g : Page) (off v : Nat) : State :=
  if off == 0x144 then s.copyEvent a (v % 2 ^ 32)
  else if off == pPeg + 0x110 then s.writePegSel a v
  else s.setSel a off (v &&& selMask g off)

/-! ## Block registers that act on a write -/

/-- A statistics slot is rebound, enabled or cleared (02 R65); its binding is locked with the region's partition. -/
def State.writePegBind (s : State) (a : Agent) (v : Nat) : State :=
  let n := s.pegSel a
  let x := s.pegSlot n
  let b := v &&& 0xBF000FFF
  let lock := s.pegLocked x.bind || s.pegLocked b
  let s := if lock then s.rwlDrop else s
  let y := if lock then x else { x with bind := b }
  { s with peg := tset s.peg n (if bitOf v 30 then { PegSlot.reset with bind := y.bind } else y) }

/-- Requests to hand over or take partitions, ring registers, the submitting function (09). -/
def State.writeHif (s : State) (a : Agent) (p : Port) (o v : Nat) : State :=
  let ctx := s.selOf a (pHif p + 0x120) % 4096
  let r := s.ring p ctx
  match o with
  | 0x10C => (execRelease a p (v % 2 ^ 16) s).state s
  | 0x110 => if bitOf v 16 then (execForcedTakeover a p (v % 2 ^ 16) s).state s else (execTake a p (v % 2 ^ 16) s).state s
  | 0x11C =>
    let old := s.reg32 (pHif p + 0x11C)
    let keep := maskOf ((List.range 16).filter fun q => s.confidential q || s.cmds.any fun c => c.part == q && c.origin == .window && c.entered)
    s.setReg32 (pHif p + 0x11C) ((old &&& keep) ||| (v % 2 ^ 16 &&& (2 ^ 16 - 1 - keep)))
  | 0x124 => if s.ringShown a ctx && !r.en then s.setRing p ctx { r with base := r.base / 2 ^ 32 * 2 ^ 32 + v % 2 ^ 32 / 4096 * 4096 } else s
  | 0x128 => if s.ringShown a ctx && !r.en then s.setRing p ctx { r with base := v % 2 ^ 31 * 2 ^ 32 + r.base % 2 ^ 32 } else s
  | 0x12C => s.ringWrite a p v
  | _ => s

/-- CAU_PART_PERM of the selected partition. -/
def State.writePerm (s : State) (a : Agent) (v : Nat) : State :=
  let p := s.selOf a (pCau + 0x104) % 16
  s.unlessLocked (s.confidential p) fun s => s.setReg32 (regKey (pCau + 0x108) p) (v &&& 0xC000000F)

/-- CTX_ENT_CFG (10 R323). A PART that the context already has is no change. Log entry 100, DEDUCED. -/
def State.writeEntCfg (s : State) (a : Agent) (v : Nat) : State :=
  let n := s.selOf a (pCtx + 0x104) % 4096
  let w := fld v 7 0
  let s := if w == 0 then s else s.modCtx n fun e => { e with weight := w }
  let p := fld v 11 8
  if p == (s.ctx n).part then s
  else s.unlessLocked (s.confidential (s.ctx n).part || s.confidential p) fun s =>
    if (s.ctx n).state == .off && (s.region n).isNone then s.modCtx n fun e => { e with part := p } else s.raiseAt pCtx 3 ⟨some (s.ctx n).part, n⟩

/-- CTX_ENT_CTL: each bit that is 1 in turn (10 R322). -/
def State.writeEntCtl (s : State) (a : Agent) (v : Nat) : State :=
  let go := fun (s : State) (i : Nat) (f : Agent → State → Answer) => if bitOf v i then (f a s).state s else s
  go (go (go (go (go s 0 execEnable) 1 execDisable) 2 execFault) 3 execClear) 4 execUnbind

def State.writeCtx (s : State) (a : Agent) (o v : Nat) : State :=
  match o with
  | 0x108 => s.writeEntCfg a v
  | 0x10C => s.writeEntCtl a v
  | 0x118 => (execCtxPartSramWrite a v s).state s
  | 0x11C => if fld v 7 0 == 0 then s else s.modPart (s.selOf a (pCtx + 0x114) % 16) fun x => { x with intWeight := fld v 7 0 }
  | _ => s

/-- Rates take effect at the next refill, depths at once (10 R345). -/
def State.writeCapo (s : State) (a : Agent) (p o v : Nat) : State :=
  if o < 0x200 || o ≥ 0x360 then s
  else
    let r := (o - 0x200) / 32
    match (o - 0x200) % 32 with
    | 0x00 => s.modCapo p r fun c => { c with newCir := v % 2 ^ 32 }
    | 0x04 => (execCapoDepthWrite a p r false v s).state s
    | 0x08 => if v % 2 ^ 32 == 0 then s.raiseAt (pCapo p) 1 (partAttr p) else s.modCapo p r fun c => { c with newPir := v % 2 ^ 32 }
    | 0x0C => (execCapoDepthWrite a p r true v s).state s
    | _ => s

/-- ATT_PF_BYTES: ignored above the partition's free SRAM (06). -/
def State.writePf (s : State) (a : Agent) (v : Nat) : State :=
  let p := s.selOf a (pAtt + 0x104) % 16
  let n := fld v 10 0
  let x := s.part p
  let f := s.freePool p
  if n > 1024 || decide (n * 65536 > f.1 + x.pfUnits * 65536 - f.2) then s
  else s.modPart p fun x => { x with pfUnits := n, pf := (pfMakeRoom 0 (n * 65536) x.pf).2 }

/-- Pages a window may hold, in hundredths times W (11 R353). -/
def State.windowRoom (s : State) (p len : Nat) : Bool :=
  let dies := s.partDies p
  let w := min 16 dies.length
  let raw := sumList (dies.map fun d => (s.die d).pages)
  if w == 0 then false
  else if w == 1 then decide (100 * len ≤ 93 * raw)
  else decide (100 * w * len ≤ 93 * (w - 1) * raw)

/-- A window write that is refused (11 R353): its share, an overlap, a mapped page cut off, the size of the map. -/
def State.windowBad (s : State) (p base len : Nat) : Bool :=
  let b := base * 65536
  let n := len * 65536
  let ob := tgetD s.fte.base p 0 * 65536
  let on' := tgetD s.fte.len p 0 * 65536
  (len != 0 && !s.windowRoom p n) ||
    ((List.range 16).any fun q => q != p && len != 0 && tgetD s.fte.len q 0 != 0 && decide (b < (tgetD s.fte.base q 0 + tgetD s.fte.len q 0) * 65536) &&
      decide (tgetD s.fte.base q 0 * 65536 < b + n)) ||
    (s.fte.map.any fun m => m.2.kind != 0 && decide (ob ≤ m.1) && decide (m.1 < ob + on') && !(decide (b ≤ m.1) && decide (m.1 < b + n))) ||
    decide (len != 0 ∧ b + n > 12288 * ((s.fte.area - 1) * 65536 / 5))

def State.writeWindow (s : State) (p base len : Nat) : State :=
  s.unlessLocked (s.confidential p) fun s =>
    if s.windowBad p base len then s.raiseAt pFte 6 (partAttr p)
    else { s with fte := { s.fte with base := tset s.fte.base p base, len := tset s.fte.len p len } }

def State.writeFte (s : State) (a : Agent) (o v : Nat) : State :=
  let p := s.selOf a (pFte + 0x11C) % 16
  match o with
  | 0x120 => s.writeWindow p (v % 2 ^ 17) (tgetD s.fte.len p 0)
  | 0x124 => s.writeWindow p (tgetD s.fte.base p 0) (v % 2 ^ 17)
  | _ => s

/-- An export window that cannot be enabled (12 R402, R405). -/
def State.expBad (s : State) (w : Nat) (x : List Nat) : Bool :=
  let g := fun i => x.getD i 0
  let p := g 5
  let others := s.fab.exp.filter fun e => e.1 != w && e.2.getD 6 0 != 0
  s.confidential p || g 2 == 0 || decide (g 2 > 12288) || g 4 == 0 || decide (g 1 + g 2 > nFrets) ||
    ((List.range (g 2)).any fun i => !s.dieIn p (dieOf (g 1 + i))) ||
    ((List.range (g 2)).any fun i => decide ((g 3 + g 4) * 65536 > (s.stageBase (g 1 + i) - s.fte.area * 2048) * 32)) ||
    (others.any fun e => decide (g 0 * 1024 < e.2.getD 0 0 * 1024 + e.2.getD 2 0 * e.2.getD 4 0) && decide (e.2.getD 0 0 * 1024 < g 0 * 1024 + g 2 * g 4)) ||
    (others.any fun e => (windowRange x).meets (windowRange e.2)) ||
    ((s.boundRegions 4096 ++ s.boundShards 4096).any fun b => (windowRange x).meets b)

/-- Export window registers; while EN is 1 only EN is written (12 FAB_EXP_CFG). -/
def State.writeExp (s : State) (a : Agent) (o v : Nat) : State :=
  let w := s.selOf a (pFab + 0x128) % 16
  let x := (List.range 7).map fun i => s.expWord w i
  let put := fun (y : List Nat) => ({ s with fab := { s.fab with exp := tset s.fab.exp w y } } : State)
  let lock := s.confidential (s.expWord w 5) || (o == 0x12C && s.confidential (fld v 3 0))
  if lock then s.rwlDrop
  else if s.expWord w 6 != 0 then
    (if o == 0x12C && !bitOf v 31 then put (x.set 6 0) else s)
  else
    match o with
    | 0x12C =>
      let y := x.set 5 (fld v 3 0)
      if !bitOf v 31 then put y
      else if s.expBad w y then (put y).raiseAt pFab 5 (partAttr (fld v 3 0)) else put (y.set 6 1)
    | 0x130 => put (x.set 0 (v % 2 ^ 26))
    | 0x134 => put ((x.set 2 (fld v 29 16)).set 1 (fld v 13 0))
    | 0x138 => put ((x.set 4 (fld v 25 16)).set 3 (fld v 9 0))
    | _ => s

def State.writeFab (s : State) (a : Agent) (o v : Nat) : State :=
  match o with
  | 0x124 => s.unlessLocked s.devLocked fun s =>
    { s with fab := { s.fab with route := tset s.fab.route (s.selOf a (pFab + 0x120) % 4096) (BitVec.ofNat 32 (v &&& 0x80FFFFFF)) } }
  | 0x12C | 0x130 | 0x134 | 0x138 => s.writeExp a o v
  | _ => s

/-- FAB_L_CFG: EN 0 holds the link DISABLED (12 R386, R390). -/
def State.writeLink (s : State) (g : Page) (off v : Nat) : State :=
  let s := s.writeStored g off v
  let x := s.link g.inst
  if off % 4096 != 0x100 then s
  else if !bitOf v 31 then (if x.st == .disabled then s else s.linkLost g.inst .disabled)
  else if x.st == .disabled then s.linkTo g.inst x .down
  else s

/-- What a host read returns that no operand gives: open bytes (log entry 3, DESIGN CHOICE). -/
def State.freeBytes (s : State) (n : Nat) : List Byte × State := let r := s.takeFree (8 * n); (leBytes n r.1, r.2)

/-- CMP_CHANGE: each bit that is 1 in turn; the image read and the outcome of an OTP write are open here (log entry 81, DESIGN CHOICE). -/
def State.writeChange (s : State) (a : Agent) (v : Nat) : State :=
  let s := if bitOf v 0 then let r := s.freeBytes mapLen; (execMapLoad a (some r.1) r.2).state r.2 else s
  let s := if bitOf v 1 then (execGo a s).state s else s
  let s := if bitOf v 2 then (execAbort a s).state s else s
  let s := if bitOf v 3 then let r := s.freeBytes 131072; (execFwLoad a (some r.1) r.2).state r.2 else s
  let s := if bitOf v 4 then (execFwSwitch a s).state s else s
  if bitOf v 5 then let r := s.takeFree 1; (execFwConfirm a (r.1 == 1) r.2).state r.2 else s

/-- Fences, with the bits of confidential partitions as they were (13 R431, 14 R453). -/
def State.writePartFence (s : State) (mask : Nat) : State :=
  let old := s.reg32 (pCmp + 0x11C)
  let keep := s.sec.conf % 2 ^ 16
  let new := (old &&& keep) ||| (mask % 2 ^ 16 &&& (2 ^ 16 - 1 - keep))
  let s := if new == mask % 2 ^ 16 then s else s.rwlDrop
  s.fenceParts new

/-- The mailbox of the agent's port (15 MGT_MBOX). -/
def State.writeMbox (s : State) (a : Agent) (o v : Nat) : State :=
  match mboxPort a with
  | none => s
  | some p =>
    let b := s.box p
    if o ≥ 0x800 then s.setBox p { b with data := overwrite b.data (o - 0x800) (leBytes 4 v) }
    else if o == 0x108 then
      let n := fld v 10 0
      let n := if n == 0 then 2048 else n
      s.setBox p { b with len := if n < 8 then b.len else n, req := b.req || bitOf v 31, rsp := b.rsp && !bitOf v 30 }
    else s

/-- A register that acts on a write, by block; a plain one is stored. -/
def State.writeBlock (s : State) (a : Agent) (g : Page) (off v : Nat) : State :=
  let o := off % 4096
  match g.ty, g.kind with
  | 0x02, _ => if o == 0x120 then (s.pdRequest (fld v 4 0) (bitOf v 8)).1 else s.writeStored g off v
  | 0x05, _ => s.writeMbox a o v
  | 0x10, _ => if o == 0x100 || o == 0x114 then s.writeStored g off v else s.writeHif a (if g.inst == 0 then .pa else .pb) o v
  | 0x11, _ => if o == 0x108 then s.writePerm a v else s
  | 0x12, _ => if o == 0x100 then s.writeStored g off v else s.writeCtx a o v
  | 0x13, _ => if o == 0x100 then s.writeStored g off v else s.writeCapo a g.inst o v
  | 0x22, _ => if o == 0x114 then s.writePegBind a v else s.writeStored g off v
  | 0x24, _ => if o == 0x108 then s.writePf a v else s.writeStored g off v
  | 0x31, 0 => if o == 0x120 || o == 0x124 then s.writeFte a o v else s.writeStored g off v
  | 0x32, 0 => if o ≥ 0x120 then s.writeFab a o v else s.writeStored g off v
  | 0x32, _ => s.writeLink g off v
  | 0x34, _ => if o == 0x114 then s.writeChange a v else if o == 0x11C then s.writePartFence v else s.writeStored g off v
  | _, _ => s.writeStored g off v

/-- One 32-bit write by an agent (16 R477, R489): ignored where nothing answers; a VF reaches its ring registers only. -/
def State.regWrite (s : State) (a : Agent) (bar v : Nat) : State :=
  let off := barOff a bar
  let o := off % 4096
  if !s.reaches a off || off % 4 != 0 then s
  else
    match pageOf off with
    | none => s
    | some g =>
      match a with
      | .host p (_ + 1) =>
        if o == 0x120 then s.setSel a off (v % 4096)
        else if 0x124 ≤ o ∧ o ≤ 0x12C then s.writeHif a p o v
        else s
      | _ =>
        if o < 0x100 then s.writeHeader g o v
        else if selectors.contains (g.ty, o) && g.kind != 1 then s.writeSel a g off v
        else s.writeBlock a g off v

/-! ## Rows of writes -/

def execRegisterWrite (a : Agent) (off v : Nat) (s : State) : Answer := .next (s.regWrite a off v)

/-- The base of the page an offset lies in. -/
def pageBase (off : Nat) : Nat := off / 4096 * 4096

/-- The header of a page is written by a host's PF or by management. -/
def State.headerWrite (s : State) (a : Agent) (page o v : Nat) : State := s.regWrite a (pageBase page + o) v

def execErrClear (a : Agent) (page mask : Nat) (s : State) : Answer := .next (s.headerWrite a page 0x018 mask)

def execErrInjWrite (a : Agent) (page mask : Nat) (s : State) : Answer := .next (s.headerWrite a page 0x020 mask)

def execGlbEvtSelWrite (a : Agent) (seq : Nat) (s : State) : Answer := .next (s.regWrite a 0x144 seq)

def execPegStatBindWrite (a : Agent) (v : Nat) (s : State) : Answer := .next (s.regWrite a (pPeg + 0x114) v)

def execPegStatSelWrite (a : Agent) (v : Nat) (s : State) : Answer := .next (s.regWrite a (pPeg + 0x110) v)

def execPartitionFenceWrite (a : Agent) (mask : Nat) (s : State) : Answer := .next (s.regWrite a (pCmp + 0x11C) mask)

/-- An access BAR0 takes, by size and alignment (16 R489). -/
def accessOk (write : Bool) (off size : Nat) : Bool :=
  if write then off % 4 == 0 && (size == 4 || size == 8)
  else if size == 1 || size == 2 then decide (off % 4 + size ≤ 4)
  else decide (size ≥ 4) && off % 4 == 0 && size % 4 == 0

/-- An access that is ignored: counted, and a read returns zeros (16 R489). -/
def State.badAccess (s : State) : State := (s.bump 0x040 1).raise 0 0

def execBadAccess (a : Agent) (write : Bool) (off size : Nat) (s : State) : Answer :=
  if accessOk write off size then .next s
  else
    let s := s.badAccess
    .next (if write then s else s.giveRead a off (zeros size))

end Sys2Proof.Machine
end

