-- ==== Sys2Proof/Machine/Manage.lean ====
section
/-! DEFINITION. The management interface: Ebaety requests and MCTP control messages (spec 15 R470 to R476). -/

namespace Sys2Proof.Machine

/-! ## Ebaety requests (15 R471 to R474) -/

/-- The agent a transport's requests act for. -/
def agentOf : Transport → Agent
  | .mctp => .mgmt
  | .mbox p => .host p 0
  | .doe p => .host p 0

/-- Ebaety runs over the management port, and over a port's mailbox from stage 1. Log entry 96, DESIGN CHOICE. -/
def State.hearsEb (s : State) (t : Transport) : Bool :=
  match t with
  | .doe _ => false
  | _ => s.carries t

/-- Versions 1.0, 1.1 and 1.2. -/
def ebVersion (ver : Nat) : Bool := decide (0x10 ≤ ver) && decide (ver ≤ 0x12)

/-- Start has reached a stage. -/
def State.fromStage (s : State) (n : Nat) : Bool := s.pwr.stage.elim false fun m => decide (m ≥ n)

/-- A request is answered with a status and a payload, after its version, its code and its stage are checked (15 R472). Log entry 83, DESIGN CHOICE. Log entry 207, DEDUCED. -/
def State.onEb (s : State) (t : Transport) (ver cls code seq since stage : Nat) (f : State → Nat × List Byte × State) : Answer :=
  if !s.hearsEb t then .next s
  else if !ebVersion ver then .next (s.ebReply t ver cls code seq 1 [0x10, 0x12])
  else if ver < since then .next (s.ebReply t ver cls code seq 2 [])
  else if !s.fromStage stage then .next (s.ebReply t ver cls code seq 4 [])
  else
    let r := f s
    .next (r.2.2.ebReply t ver cls code seq r.1 r.2.1)

def execGetVersion (t : Transport) (ver seq : Nat) (s : State) : Answer :=
  s.onEb t ver 1 0 seq 0x10 0 fun s => (0, [0x10, 0x12], s)

/-- The fields of GET_STATUS: PWR_STS, PWR_ERR, lifecycle, CMP_STATUS, node ID, ACTIVE_VER. -/
def State.statusFields (s : State) : List Nat :=
  [s.regShow .mgmt (pPwr + 0x014), s.regShow .mgmt (pPwr + 0x018), s.sec.life.code, s.regShow .mgmt (pCmp + 0x100), s.node, le16 s.cmp.image 4]

def execGetStatus (t : Transport) (ver seq : Nat) (s : State) : Answer :=
  s.onEb t ver 1 1 seq 0x10 0 fun s => (0, Config.layout 0x101 s.statusFields, s)

def execReadReg (t : Transport) (ver seq off n : Nat) (s : State) : Answer :=
  s.onEb t ver 1 2 seq 0x10 1 fun s =>
    if n == 0 || n > 16 then (8, [], s)
    else if off % 4 != 0 then (0, zeros (4 * n), s.badAccess)
    else
      let r := s.regReads (agentOf t) off n
      (0, (r.1.map (leBytes 4)).flatten, r.2)

/-- The bits of a register that a masked write gives back as it found them: none where a written bit acts. -/
def keptBits (g : Page) (o : Nat) : Nat :=
  match g.ty, o with
  | _, 0x018 => 0
  | _, 0x020 => 0
  | 0x10, 0x10C => 0
  | 0x10, 0x110 => 0
  | 0x12, 0x10C => 0
  | 0x02, 0x120 => 0
  | 0x34, 0x114 => 0
  | 0x05, 0x108 => 0x7FF
  | _, _ => 2 ^ 32 - 1

/-- The value a masked write writes. -/
def State.maskedValue (s : State) (a : Agent) (off v mask : Nat) : Nat :=
  let kept := ((pageOf off).elim 0 fun g => keptBits g (off % 4096)) &&& (2 ^ 32 - 1 - mask % 2 ^ 32)
  (s.regShow a off &&& kept) ||| (v &&& (mask % 2 ^ 32))

/-- Writes refused because a partition is confidential (SEC_RWL_DROPS). -/
def State.rwlDrops (s : State) : Nat := s.counter (pSec + 0x070)

def execWriteReg (t : Transport) (ver seq off v mask : Nat) (s : State) : Answer :=
  s.onEb t ver 1 3 seq 0x10 1 fun s =>
    if off % 4 != 0 then (0, [], s.badAccess)
    else if mask % 2 ^ 32 == 0 then (0, [], s)
    else
      let u := s.regWrite (agentOf t) off (s.maskedValue (agentOf t) off v mask)
      (if u.rwlDrops == s.rwlDrops then 0 else 6, [], u)

/-- A core restart on request (15 R459): from stage 3 on, the flush of 11 R377 comes first. -/
def State.restartCore (s : State) : State :=
  if s.pwr.flush.isSome || s.pwr.waitRestart then s
  else if s.fromStage 3 then s.startFlush 4
  else s.mainOff.startAgain

/-- RESET is acknowledged, and then the core restarts. -/
def execReset (t : Transport) (ver seq : Nat) (s : State) : Answer :=
  if s.hearsEb t && ebVersion ver then .next (s.ebReply t ver 1 4 seq 0 []).restartCore
  else s.onEb t ver 1 4 seq 0x10 0 fun s => (0, [], s)

/-- The ranges of PWR_CAP and PWR_THERM. -/
def limitsOk (cap peak throttle trip : Nat) : Bool :=
  decide (100 ≤ cap) && decide (cap ≤ 950) && decide (cap ≤ peak) && decide (peak ≤ 1050) &&
    decide (80 ≤ throttle) && decide (throttle ≤ 105) && decide (106 ≤ trip) && decide (trip ≤ 120)

def execSetLimits (t : Transport) (ver seq cap peak throttle trip : Nat) (s : State) : Answer :=
  s.onEb t ver 1 5 seq 0x10 0 fun s =>
    if limitsOk cap peak throttle trip then
      (0, [], (s.setReg32 (pPwr + 0x118) (peak * 2 ^ 16 + cap)).setReg32 (pPwr + 0x110) (trip * 2 ^ 8 + throttle))
    else (8, [], s)

def execPdControl (t : Transport) (ver seq domain : Nat) (on : Bool) (s : State) : Answer :=
  s.onEb t ver 1 6 seq 0x12 2 fun s =>
    let r := s.pdRequest domain on
    (if r.2 then 0 else 8, [], r.1)

/-! ## Takeover authority (15 R475) -/

def execTakeoverAuth (t : Transport) (ver seq part : Nat) (port : Port) (s : State) : Answer :=
  s.onEb t ver 1 7 seq 0x12 5 fun s =>
    if t != .mctp || part ≥ 16 then (8, [], s)
    else (0, [], { s with mgt := { s.mgt with auth := some (part, port, s.time.lctr) } })

/-- An unused authority lapses after 2^27 ticks. -/
def execTakeoverAuthLapse (s : State) : Answer :=
  match s.mgt.auth with
  | none => .next s
  | some (_, _, t) => if s.time.lctr < t + 2 ^ 27 then .next s else .next { s with mgt := { s.mgt with auth := none } }

/-! ## Telemetry (15 R476, 16 R501) -/

/-- Telemetry is answered while its domain is on. -/
def State.telemetry (s : State) (f : State → Nat × List Byte × State) : Nat × List Byte × State :=
  if s.powered 29 then f s else (7, [], s)

def execGetSensors (t : Transport) (ver seq : Nat) (s : State) : Answer :=
  s.onEb t ver 2 0 seq 0x10 0 fun s => s.telemetry fun s => (0, Config.layout 0x200 s.pwr.sensors, s)

/-- The entries of consecutive sequence numbers. -/
def State.eventsFrom (s : State) (seq : Nat) : Nat → List Byte
  | 0 => []
  | n + 1 => s.eventAt seq ++ s.eventsFrom (nextSeq seq) n

def execGetEvents (t : Transport) (ver seq first n : Nat) (s : State) : Answer :=
  s.onEb t ver 2 1 seq 0x10 0 fun s => s.telemetry fun s => if n == 0 || n > 8 then (8, [], s) else (0, s.eventsFrom first n, s)

/-- A counter shown to management or a host: 0 for a confidential partition, or where no counter answers. -/
def State.showCounter (s : State) (a : Agent) (off : Nat) : Nat :=
  match pageOf off with
  | none => 0
  | some g => if isCounter g off && off % 8 == 0 && s.reaches a off then s.counterOf g off else 0

def execGetCounters (t : Transport) (ver seq page first n : Nat) (s : State) : Answer :=
  s.onEb t ver 2 2 seq 0x10 1 fun s => s.telemetry fun s =>
    if n == 0 || n > 8 then (8, [], s)
    else (0, ((List.range n).map fun i => leBytes 8 (s.showCounter (agentOf t) (page + first + 8 * i))).flatten, s)

/-! ## The bus and MCTP control messages (15 R470) -/

/-- A control message is answered while the port works. -/
def State.onControl (s : State) (f : State → State) : Answer := if s.pwr.stage.isSome then .next (f s) else .next s

/-- The response to a control message, by its MCTP command code; the manual gives its body no layout. -/
def State.controlReply (s : State) (code : Nat) (l : List Nat) : State := s.respond .mctp (Config.layout (0x47000 + code) l)

def execSetEndpointId (eid : Nat) (s : State) : Answer :=
  s.onControl fun s => State.controlReply { s with mgt := { s.mgt with eid := eid % 256 } } 1 [eid % 256]

def execGetEndpointId (s : State) : Answer := s.onControl fun s => s.controlReply 2 [s.mgt.eid]

def execGetMctpVersionSupport (ty : Nat) (s : State) : Answer := s.onControl fun s => s.controlReply 4 [ty, 0x13]

/-- Message types: control (0x00) and PCI vendor-defined (0x7E). -/
def execGetMessageTypeSupport (s : State) : Answer := s.onControl fun s => s.controlReply 5 [0x00, 0x7E]

def execGetVendorDefinedMsgSupport (sel : Nat) (s : State) : Answer := s.onControl fun s => s.controlReply 6 [sel]

/-- The bus controller assigns a dynamic address, and the port leaves SMBus mode. -/
def execDynamicAddressAssign (addr : Nat) (s : State) : Answer :=
  s.onControl fun s => { s with mgt := { s.mgt with i3c := true, dyn := addr % 128 } }

end Sys2Proof.Machine
end

