-- ==== Sys2Proof/Machine/Dispatch.lean ====
section
/-! DEFINITION. One arm for each command of the table. -/

namespace Sys2Proof.Machine

open Sys2Proof

def exec (i : Instr) (s : State) : Host.Outcome State Fault Refusal :=
  match i with
  | .pushWindowWrite x0 x1 x2 x3 => Sys2Proof.Machine.execPushWindowWrite x0 x1 x2 x3 s
  | .nop x0 => Sys2Proof.Machine.execNop x0 s
  | .fence x0 => Sys2Proof.Machine.execFence x0 s
  | .corpusSearch x0 => Sys2Proof.Machine.execCorpusSearch x0 s
  | .scan x0 => Sys2Proof.Machine.execScan x0 s
  | .rerank x0 => Sys2Proof.Machine.execRerank x0 s
  | .attend x0 => Sys2Proof.Machine.execAttend x0 s
  | .kvAppend x0 => Sys2Proof.Machine.execKvAppend x0 s
  | .kvTrim x0 => Sys2Proof.Machine.execKvTrim x0 s
  | .gather x0 => Sys2Proof.Machine.execGather x0 s
  | .scatterUpdate x0 => Sys2Proof.Machine.execScatterUpdate x0 s
  | .insert x0 => Sys2Proof.Machine.execInsert x0 s
  | .delete x0 => Sys2Proof.Machine.execDelete x0 s
  | .consolidate x0 => Sys2Proof.Machine.execConsolidate x0 s
  | .prefetch x0 => Sys2Proof.Machine.execPrefetch x0 s
  | .buildGraph x0 => Sys2Proof.Machine.execBuildGraph x0 s
  | .calibrate x0 => Sys2Proof.Machine.execCalibrate x0 s
  | .requant x0 => Sys2Proof.Machine.execRequant x0 s
  | .topkMerge x0 => Sys2Proof.Machine.execTopkMerge x0 s
  | .checkpoint x0 => Sys2Proof.Machine.execCheckpoint x0 s
  | .restore x0 => Sys2Proof.Machine.execRestore x0 s
  | .flashTrim x0 => Sys2Proof.Machine.execFlashTrim x0 s
  | .flashRead x0 => Sys2Proof.Machine.execFlashRead x0 s
  | .flashWrite x0 => Sys2Proof.Machine.execFlashWrite x0 s
  | .admissionWaitEnd x0 => Sys2Proof.Machine.execAdmissionWaitEnd x0 s
  | .sideFull x0 => Sys2Proof.Machine.execSideFull x0 s
  | .stageResume x0 => Sys2Proof.Machine.execStageResume x0 s
  | .commitPhase x0 => Sys2Proof.Machine.execCommitPhase x0 s
  | .subBatchStart x0 => Sys2Proof.Machine.execSubBatchStart x0 s
  | .walkStart x0 => Sys2Proof.Machine.execWalkStart x0 s
  | .expansionComplete x0 x1 => Sys2Proof.Machine.execExpansionComplete x0 x1 s
  | .sideStrumBatch x0 => Sys2Proof.Machine.execSideStrumBatch x0 s
  | .autoConsolidate x0 => Sys2Proof.Machine.execAutoConsolidate x0 s
  | .sweepBatch x0 => Sys2Proof.Machine.execSweepBatch x0 s
  | .migrationPass x0 x1 => Sys2Proof.Machine.execMigrationPass x0 x1 s
  | .autoFullCheckpoint x0 => Sys2Proof.Machine.execAutoFullCheckpoint x0 s
  | .periodicCheckpoint x0 => Sys2Proof.Machine.execPeriodicCheckpoint x0 s
  | .commandRerun x0 => Sys2Proof.Machine.execCommandRerun x0 s
  | .qload x0 => Sys2Proof.Machine.execQload x0 s
  | .qscrub x0 => Sys2Proof.Machine.execQscrub x0 s
  | .strum x0 x1 => Sys2Proof.Machine.execStrum x0 x1 s
  | .pluck x0 x1 => Sys2Proof.Machine.execPluck x0 x1 s
  | .hist x0 => Sys2Proof.Machine.execHist x0 s
  | .list x0 => Sys2Proof.Machine.execList x0 s
  | .expsum x0 => Sys2Proof.Machine.execExpsum x0 s
  | .vacc x0 => Sys2Proof.Machine.execVacc x0 s
  | .string x0 => Sys2Proof.Machine.execString x0 s
  | .stageWrite x0 => Sys2Proof.Machine.execStageWrite x0 s
  | .commitRow x0 x1 => Sys2Proof.Machine.execCommitRow x0 x1 s
  | .overlayFold x0 x1 => Sys2Proof.Machine.execOverlayFold x0 x1 s
  | .spareCopyDone x0 => Sys2Proof.Machine.execSpareCopyDone x0 s
  | .stackThermal x0 x1 => Sys2Proof.Machine.execStackThermal x0 x1 s
  | .bar4Access x0 x1 x2 => Sys2Proof.Machine.execBar4Access x0 x1 x2 s
  | .waveBoundary x0 => Sys2Proof.Machine.execWaveBoundary x0 s
  | .courseParityError x0 => Sys2Proof.Machine.execCourseParityError x0 s
  | .courseFenceWrite x0 x1 x2 => Sys2Proof.Machine.execCourseFenceWrite x0 x1 x2 s
  | .courseSelftestDone x0 x1 => Sys2Proof.Machine.execCourseSelftestDone x0 x1 s
  | .collOpen x0 => Sys2Proof.Machine.execCollOpen x0 s
  | .collGrant x0 => Sys2Proof.Machine.execCollGrant x0 s
  | .collData x0 => Sys2Proof.Machine.execCollData x0 s
  | .collDone x0 => Sys2Proof.Machine.execCollDone x0 s
  | .collAbort x0 => Sys2Proof.Machine.execCollAbort x0 s
  | .collectiveTimeout x0 x1 => Sys2Proof.Machine.execCollectiveTimeout x0 x1 s
  | .barArrive x0 => Sys2Proof.Machine.execBarArrive x0 s
  | .barRelease x0 => Sys2Proof.Machine.execBarRelease x0 s
  | .barrierTimeout x0 => Sys2Proof.Machine.execBarrierTimeout x0 s
  | .hello x0 x1 => Sys2Proof.Machine.execHello x0 x1 s
  | .flitReceive x0 x1 x2 => Sys2Proof.Machine.execFlitReceive x0 x1 x2 s
  | .replayTimeout x0 => Sys2Proof.Machine.execReplayTimeout x0 s
  | .laneFail x0 x1 => Sys2Proof.Machine.execLaneFail x0 x1 s
  | .retrainTimeout x0 => Sys2Proof.Machine.execRetrainTimeout x0 s
  | .quarantineRetry x0 x1 => Sys2Proof.Machine.execQuarantineRetry x0 x1 s
  | .dupPairExpiry x0 x1 => Sys2Proof.Machine.execDupPairExpiry x0 x1 s
  | .poolRd x0 => Sys2Proof.Machine.execPoolRd x0 s
  | .poolData x0 => Sys2Proof.Machine.execPoolData x0 s
  | .poolWr x0 => Sys2Proof.Machine.execPoolWr x0 s
  | .poolAck x0 => Sys2Proof.Machine.execPoolAck x0 s
  | .refuse x0 => Sys2Proof.Machine.execRefuse x0 s
  | .refuseResend x0 => Sys2Proof.Machine.execRefuseResend x0 s
  | .poolTimeout x0 => Sys2Proof.Machine.execPoolTimeout x0 s
  | .searchReq x0 => Sys2Proof.Machine.execSearchReq x0 s
  | .updateReq x0 => Sys2Proof.Machine.execUpdateReq x0 s
  | .fwdAccept x0 => Sys2Proof.Machine.execFwdAccept x0 s
  | .fwdResult x0 => Sys2Proof.Machine.execFwdResult x0 s
  | .epochStale x0 => Sys2Proof.Machine.execEpochStale x0 s
  | .mapLoad x0 x1 => Sys2Proof.Machine.execMapLoad x0 x1 s
  | .go x0 => Sys2Proof.Machine.execGo x0 s
  | .abort x0 => Sys2Proof.Machine.execAbort x0 s
  | .compPrepare x0 => Sys2Proof.Machine.execCompPrepare x0 s
  | .compReady x0 => Sys2Proof.Machine.execCompReady x0 s
  | .compActivate x0 => Sys2Proof.Machine.execCompActivate x0 s
  | .compActive x0 => Sys2Proof.Machine.execCompActive x0 s
  | .compRetired x0 => Sys2Proof.Machine.execCompRetired x0 s
  | .compAbort x0 => Sys2Proof.Machine.execCompAbort x0 s
  | .compQuery x0 => Sys2Proof.Machine.execCompQuery x0 s
  | .prepTmo => Sys2Proof.Machine.execPrepTmo s
  | .epochRetire => Sys2Proof.Machine.execEpochRetire s
  | .drainTmo => Sys2Proof.Machine.execDrainTmo s
  | .logReq x0 => Sys2Proof.Machine.execLogReq x0 s
  | .logData x0 => Sys2Proof.Machine.execLogData x0 s
  | .shadowCopy x0 => Sys2Proof.Machine.execShadowCopy x0 s
  | .shadowResult x0 => Sys2Proof.Machine.execShadowResult x0 s
  | .shadowReady x0 => Sys2Proof.Machine.execShadowReady x0 s
  | .shadowCopyTimeout x0 x1 => Sys2Proof.Machine.execShadowCopyTimeout x0 x1 s
  | .partitionFenceWrite x0 x1 => Sys2Proof.Machine.execPartitionFenceWrite x0 x1 s
  | .fwLoad x0 x1 => Sys2Proof.Machine.execFwLoad x0 x1 s
  | .fwSwitch x0 => Sys2Proof.Machine.execFwSwitch x0 s
  | .fwSwitchAccept => Sys2Proof.Machine.execFwSwitchAccept s
  | .fwFallback => Sys2Proof.Machine.execFwFallback s
  | .fwConfirm x0 x1 => Sys2Proof.Machine.execFwConfirm x0 x1 s
  | .flashReadDone x0 x1 x2 => Sys2Proof.Machine.execFlashReadDone x0 x1 x2 s
  | .programComplete x0 x1 x2 => Sys2Proof.Machine.execProgramComplete x0 x1 x2 s
  | .gcStart x0 => Sys2Proof.Machine.execGcStart x0 s
  | .patrolScan x0 x1 => Sys2Proof.Machine.execPatrolScan x0 x1 s
  | .dieTimeout x0 => Sys2Proof.Machine.execDieTimeout x0 s
  | .rebuildComplete x0 => Sys2Proof.Machine.execRebuildComplete x0 s
  | .pwrFailN x0 x1 => Sys2Proof.Machine.execPwrFailN x0 x1 s
  | .flushComplete => Sys2Proof.Machine.execFlushComplete s
  | .restartAfterFlush => Sys2Proof.Machine.execRestartAfterFlush s
  | .holdEnter x0 => Sys2Proof.Machine.execHoldEnter x0 s
  | .holdExit x0 => Sys2Proof.Machine.execHoldExit x0 s
  | .holdMaxExpiry => Sys2Proof.Machine.execHoldMaxExpiry s
  | .vmonRst x0 => Sys2Proof.Machine.execVmonRst x0 s
  | .thermalTrip x0 => Sys2Proof.Machine.execThermalTrip x0 s
  | .thermalRecovery x0 => Sys2Proof.Machine.execThermalRecovery x0 s
  | .voltageLoopStep x0 x1 x2 => Sys2Proof.Machine.execVoltageLoopStep x0 x1 x2 s
  | .sensorRefresh x0 => Sys2Proof.Machine.execSensorRefresh x0 s
  | .pwrGood x0 x1 => Sys2Proof.Machine.execPwrGood x0 x1 s
  | .stage0Entry x0 => Sys2Proof.Machine.execStage0Entry x0 s
  | .stageAdvance x0 => Sys2Proof.Machine.execStageAdvance x0 s
  | .pdSwitchOn x0 x1 => Sys2Proof.Machine.execPdSwitchOn x0 x1 s
  | .pdSwitchOff x0 x1 => Sys2Proof.Machine.execPdSwitchOff x0 x1 s
  | .domainOnDone x0 x1 => Sys2Proof.Machine.execDomainOnDone x0 x1 s
  | .lctrSourceSwitch x0 x1 => Sys2Proof.Machine.execLctrSourceSwitch x0 x1 s
  | .glbLctrLoRead x0 x1 => Sys2Proof.Machine.execGlbLctrLoRead x0 x1 s
  | .pegStatBindWrite x0 x1 => Sys2Proof.Machine.execPegStatBindWrite x0 x1 s
  | .pegStatSseLoRead x0 => Sys2Proof.Machine.execPegStatSseLoRead x0 s
  | .pegStatSelWrite x0 x1 => Sys2Proof.Machine.execPegStatSelWrite x0 x1 s
  | .counterLoRead x0 x1 => Sys2Proof.Machine.execCounterLoRead x0 x1 s
  | .editionLoRead x0 x1 => Sys2Proof.Machine.execEditionLoRead x0 x1 s
  | .rcFieldRead x0 x1 => Sys2Proof.Machine.execRcFieldRead x0 x1 s
  | .errClear x0 x1 x2 => Sys2Proof.Machine.execErrClear x0 x1 x2 s
  | .errInjWrite x0 x1 x2 => Sys2Proof.Machine.execErrInjWrite x0 x1 x2 s
  | .glbEvtSelWrite x0 x1 => Sys2Proof.Machine.execGlbEvtSelWrite x0 x1 s
  | .badAccess x0 x1 x2 x3 => Sys2Proof.Machine.execBadAccess x0 x1 x2 x3 s
  | .registerWrite x0 x1 x2 => Sys2Proof.Machine.execRegisterWrite x0 x1 x2 s
  | .ringEnable x0 x1 x2 => Sys2Proof.Machine.execRingEnable x0 x1 x2 s
  | .ringDisable x0 x1 x2 => Sys2Proof.Machine.execRingDisable x0 x1 x2 s
  | .msixCoalesceTimer x0 => Sys2Proof.Machine.execMsixCoalesceTimer x0 s
  | .msixUnmask x0 x1 x2 => Sys2Proof.Machine.execMsixUnmask x0 x1 x2 s
  | .hostReadError x0 x1 => Sys2Proof.Machine.execHostReadError x0 x1 s
  | .pcieLinkDown x0 => Sys2Proof.Machine.execPcieLinkDown x0 s
  | .pcieLinkUp x0 x1 x2 x3 => Sys2Proof.Machine.execPcieLinkUp x0 x1 x2 x3 s
  | .functionLevelReset x0 x1 x2 => Sys2Proof.Machine.execFunctionLevelReset x0 x1 x2 s
  | .perst x0 => Sys2Proof.Machine.execPerst x0 s
  | .release x0 x1 x2 => Sys2Proof.Machine.execRelease x0 x1 x2 s
  | .releaseComplete x0 x1 => Sys2Proof.Machine.execReleaseComplete x0 x1 s
  | .take x0 x1 x2 => Sys2Proof.Machine.execTake x0 x1 x2 s
  | .forcedTakeover x0 x1 x2 => Sys2Proof.Machine.execForcedTakeover x0 x1 x2 s
  | .enable x0 => Sys2Proof.Machine.execEnable x0 s
  | .disable x0 => Sys2Proof.Machine.execDisable x0 s
  | .clear x0 => Sys2Proof.Machine.execClear x0 s
  | .fault x0 => Sys2Proof.Machine.execFault x0 s
  | .unbind x0 => Sys2Proof.Machine.execUnbind x0 s
  | .contextDrained x0 => Sys2Proof.Machine.execContextDrained x0 s
  | .ctxPartSramWrite x0 x1 => Sys2Proof.Machine.execCtxPartSramWrite x0 x1 s
  | .sramShrinkDone x0 => Sys2Proof.Machine.execSramShrinkDone x0 s
  | .quantumExpiry x0 => Sys2Proof.Machine.execQuantumExpiry x0 s
  | .contextSwitch x0 => Sys2Proof.Machine.execContextSwitch x0 s
  | .preemption x0 => Sys2Proof.Machine.execPreemption x0 s
  | .capoRefill x0 => Sys2Proof.Machine.execCapoRefill x0 s
  | .capoDepthWrite x0 x1 x2 x3 x4 => Sys2Proof.Machine.execCapoDepthWrite x0 x1 x2 x3 x4 s
  | .getInfo x0 x1 => Sys2Proof.Machine.execGetInfo x0 x1 s
  | .getCert x0 x1 x2 x3 => Sys2Proof.Machine.execGetCert x0 x1 x2 x3 s
  | .getReport x0 x1 x2 => Sys2Proof.Machine.execGetReport x0 x1 x2 s
  | .sessionOpen x0 x1 x2 => Sys2Proof.Machine.execSessionOpen x0 x1 x2 s
  | .sessionKey x0 x1 x2 x3 => Sys2Proof.Machine.execSessionKey x0 x1 x2 x3 s
  | .setIdeKey x0 x1 x2 x3 => Sys2Proof.Machine.execSetIdeKey x0 x1 x2 x3 s
  | .confidentialEnter x0 x1 x2 x3 => Sys2Proof.Machine.execConfidentialEnter x0 x1 x2 x3 s
  | .confidentialExit x0 x1 x2 x3 => Sys2Proof.Machine.execConfidentialExit x0 x1 x2 x3 s
  | .sessionClose x0 x1 x2 x3 => Sys2Proof.Machine.execSessionClose x0 x1 x2 x3 s
  | .ideDrop x0 x1 x2 => Sys2Proof.Machine.execIdeDrop x0 x1 x2 s
  | .getVersion x0 x1 x2 => Sys2Proof.Machine.execGetVersion x0 x1 x2 s
  | .getStatus x0 x1 x2 => Sys2Proof.Machine.execGetStatus x0 x1 x2 s
  | .readReg x0 x1 x2 x3 x4 => Sys2Proof.Machine.execReadReg x0 x1 x2 x3 x4 s
  | .writeReg x0 x1 x2 x3 x4 x5 => Sys2Proof.Machine.execWriteReg x0 x1 x2 x3 x4 x5 s
  | .reset x0 x1 x2 => Sys2Proof.Machine.execReset x0 x1 x2 s
  | .setLimits x0 x1 x2 x3 x4 x5 x6 => Sys2Proof.Machine.execSetLimits x0 x1 x2 x3 x4 x5 x6 s
  | .pdControl x0 x1 x2 x3 x4 => Sys2Proof.Machine.execPdControl x0 x1 x2 x3 x4 s
  | .takeoverAuth x0 x1 x2 x3 x4 => Sys2Proof.Machine.execTakeoverAuth x0 x1 x2 x3 x4 s
  | .takeoverAuthLapse => Sys2Proof.Machine.execTakeoverAuthLapse s
  | .getSensors x0 x1 x2 => Sys2Proof.Machine.execGetSensors x0 x1 x2 s
  | .getEvents x0 x1 x2 x3 x4 => Sys2Proof.Machine.execGetEvents x0 x1 x2 x3 x4 s
  | .getCounters x0 x1 x2 x3 x4 x5 => Sys2Proof.Machine.execGetCounters x0 x1 x2 x3 x4 x5 s
  | .setEndpointId x0 => Sys2Proof.Machine.execSetEndpointId x0 s
  | .getEndpointId => Sys2Proof.Machine.execGetEndpointId s
  | .getMctpVersionSupport x0 => Sys2Proof.Machine.execGetMctpVersionSupport x0 s
  | .getMessageTypeSupport => Sys2Proof.Machine.execGetMessageTypeSupport s
  | .getVendorDefinedMsgSupport x0 => Sys2Proof.Machine.execGetVendorDefinedMsgSupport x0 s
  | .dynamicAddressAssign x0 => Sys2Proof.Machine.execDynamicAddressAssign x0 s
  | .patrolScrub x0 x1 => Sys2Proof.Machine.execPatrolScrub x0 x1 s
  | .eraseComplete x0 x1 => Sys2Proof.Machine.execEraseComplete x0 x1 s
  | .quadrantReferenceLost x0 => Sys2Proof.Machine.execQuadrantReferenceLost x0 s
  | .hostReadCompletion x0 x1 x2 => Sys2Proof.Machine.execHostReadCompletion x0 x1 x2 s
  | .mergedMReturn x0 => Sys2Proof.Machine.execMergedMReturn x0 s
  | .partialValueSums x0 => Sys2Proof.Machine.execPartialValueSums x0 s
  | .flapWindowEnd x0 => Sys2Proof.Machine.execFlapWindowEnd x0 s
  | .takeoverGraceExpiry x0 => Sys2Proof.Machine.execTakeoverGraceExpiry x0 s

end Sys2Proof.Machine
end

