-- ==== Sys2Proof/Machine/Step.lean ====
section
/-! DEFINITION. The step: the command at the front of the queue runs with the queue's rest; an empty queue lets the controllers' buffers drain and local time pass. -/

namespace Sys2Proof.Machine

/-- One step. On an empty queue the consumers of the stack controllers' buffers take what stands there (log entry 172, DESIGN CHOICE), and the local counter advances by one tick while `PD00` is powered (01 R32; log entry 2, DESIGN CHOICE). Log entry 137, DESIGN CHOICE. -/
def step (s : State) : Host.Outcome State Fault Refusal :=
  match s.pending with
  | [] => .next s.idle
  | c :: rest => exec c { s with pending := rest }

/-- The command a word spells is put at the front of the queue; no row of the table gives bits, so no word spells one. -/
def State.withFetchWord (s : State) (nbits w : Nat) : State :=
  match decodeTableWord nbits w with
  | some c => { s with pending := c :: s.pending }
  | none => s

end Sys2Proof.Machine
end

