-- ==== Sys2Proof/Safety.lean ====
section
/-! DEFINITION. What counts as a safe step, and the vocabulary of the statements about steps. -/

namespace Sys2Proof.Machine

/-- A step goes on: neither a fault nor a refusal. -/
def Goes (o : Host.Outcome State Fault Refusal) : Prop := ∃ t, o = .next t

/-- HBM is kept in its canonical form: addresses strictly rising, no cell 0. -/
def Inv (s : State) : Prop := memWf s.hbm.cells = true

/-- From `x` to `y` OTP has only gained: LIFECYCLE stays or leaves BLANK for PROVISIONED, the key digests and valid slots stand, a revoked slot stays revoked, ARB does not decrease (14 R433, R434, R438). -/
structure OtpOnlyAdds (x y : SecSt) : Prop where
  life : y.life = x.life ∨ (x.life = .blank ∧ y.life = .provisioned)
  digests : y.digests = x.digests
  valid : y.valid = x.valid
  revoked : ∀ i, bitOf x.revoked i = true → bitOf y.revoked i = true
  arb : x.arb ≤ y.arb

/-- The rows that take a descriptor from its context's queue, with their opcodes (09 R299). -/
def opcodeRows : List ((Nat → Instr) × Nat) :=
  [(.nop, 0x01), (.fence, 0x7F), (.corpusSearch, 0x10), (.scan, 0x11), (.rerank, 0x12), (.attend, 0x20), (.kvAppend, 0x21), (.kvTrim, 0x22),
   (.gather, 0x30), (.scatterUpdate, 0x31), (.insert, 0x32), (.delete, 0x33), (.consolidate, 0x34), (.prefetch, 0x35), (.buildGraph, 0x36),
   (.calibrate, 0x40), (.requant, 0x41), (.topkMerge, 0x50), (.checkpoint, 0x60), (.restore, 0x61), (.flashTrim, 0x70), (.flashRead, 0x71),
   (.flashWrite, 0x72)]

/-- Work the device starts by itself: an internal command of a partition enters under the next name and runs (07 R228, 06 R178, 13 R424). -/
def internalRun (s : State) (part ctx : Nat) (dw : List Nat) : State :=
  State.run { s with cmds := s.cmds ++ [Cmd.start s.nextCmd part ctx .pa 0 dw 0 s.epoch s.time.lctr .internal], nextCmd := s.nextCmd + 1 } s.nextCmd

/-- A frame that returns `n` bytes a fret runs at once: it meets a die that is not fenced, nothing it would wait for, and carries its row's opcode without reserved bits (03 R79, R81, R107, R109). -/
def State.serves (s : State) (f : Frame) (op n : Nat) : Bool := !s.hbm.deadDies.contains f.dieKey && !s.frameWaits f n && f.formed op

/-- The rows of fret frames, met without a flaw: the row, its opcode, the bytes a fret returns, what it asks of tags (03 R78, R79, R81, R89). -/
def frameRows : List ((Frame → Instr) × Nat × (Frame → Nat) × (Frame → TagRule)) :=
  [(.qload, 0x01, fun _ => 0, fun _ => .any), (.qscrub, 0x02, fun _ => 0, fun f => if bitOf (f.w 4) 0 then .any else .notOther),
   ((.strum · []), 0x10, fun _ => 0, fun _ => .loaded), ((.pluck · []), 0x11, fun f => 8 * f.pluckRows.length * f.vecs.length, fun _ => .loaded),
   (.hist, 0x12, fun _ => 0, fun _ => .loaded), (.list, 0x13, fun _ => 0, fun _ => .loaded), (.expsum, 0x14, fun _ => 0, fun _ => .loaded),
   ((.vacc ⟨·, []⟩), 0x18, fun _ => 0, fun _ => .loaded), (.string, 0x20, fun _ => 0, fun _ => .notOther),
   ((.stageWrite ⟨·, []⟩), 0x30, fun _ => 0, fun _ => .any), ((.commitRow · []), 0x31, fun _ => 0, fun _ => .any)]

/-- The rows that receive a TFP message, with its TYPE (12 R394). Value sums travel under 0x12 and merged maxima under 0x13 (log entry 67, DEDUCED). -/
def messageRows : List ((Msg → Instr) × Nat) :=
  [(.poolRd, 0x01), (.poolData, 0x02), (.poolWr, 0x03), (.poolAck, 0x04), (.refuse, 0x05), (.collOpen, 0x10), (.collGrant, 0x11), (.collData, 0x12),
   (.partialValueSums, 0x12), (.collDone, 0x13), (.mergedMReturn, 0x13), (.collAbort, 0x14), (.barArrive, 0x18), (.barRelease, 0x19), (.searchReq, 0x20),
   (.updateReq, 0x21), (.fwdAccept, 0x22), (.fwdResult, 0x23), (.epochStale, 0x28), (.compPrepare, 0x30), (.compReady, 0x31), (.compActivate, 0x32),
   (.compActive, 0x33), (.compRetired, 0x34), (.compAbort, 0x35), (.compQuery, 0x36), (.logReq, 0x37), (.logData, 0x38), (.shadowCopy, 0x39),
   (.shadowResult, 0x3A), (.shadowReady, 0x3B)]

/-- The Ebaety rows but RESET with their class, code, first version and stage (15 R472 to R474), over any values of their fields. -/
def ebRows (x : Nat → Nat) (on : Bool) (port : Port) : List ((Transport → Nat → Nat → Instr) × Nat × Nat × Nat × Nat) :=
  [(fun t v q => .getVersion t v q, 1, 0, 0x10, 0), (fun t v q => .getStatus t v q, 1, 1, 0x10, 0), (fun t v q => .readReg t v q (x 0) (x 1), 1, 2, 0x10, 1),
   (fun t v q => .writeReg t v q (x 0) (x 1) (x 2), 1, 3, 0x10, 1), (fun t v q => .setLimits t v q (x 0) (x 1) (x 2) (x 3), 1, 5, 0x10, 0),
   (fun t v q => .pdControl t v q (x 0) on, 1, 6, 0x12, 2), (fun t v q => .takeoverAuth t v q (x 0) port, 1, 7, 0x12, 5),
   (fun t v q => .getSensors t v q, 2, 0, 0x10, 0), (fun t v q => .getEvents t v q (x 0) (x 1), 2, 1, 0x10, 0),
   (fun t v q => .getCounters t v q (x 0) (x 1) (x 2), 2, 2, 0x10, 1)]

/-- An Ebaety request is heard, of a version and at a stage that serve it (15 R472). -/
def State.ebServes (s : State) (t : Transport) (ver since stage : Nat) : Bool :=
  s.hearsEb t && ebVersion ver && decide (since ≤ ver) && s.fromStage stage

end Sys2Proof.Machine
end

