-- ==== Sys2Proof/Certificates/Slice0/Obligations.lean ====
section
/-! DEFINITION. The statements for the provers. Each says which rules of the manual it formalises; what is the model's own choice is named as such. -/

open Sys2Proof Sys2Proof.Machine

/-! ## The machine as a whole -/

/-- A step takes the command at the front of the queue and runs it on the state with the queue's rest. With nothing queued the block idles: what waits in the stack controllers' buffers drains to its consumers, and the local counter advances by one while PD00 is powered (01 R32); where nothing waits there, nothing else changes. The tick and the draining on an empty queue are the model's choice (log entries 2 and 172). -/
def Obligations.StepRunsFrontCommand : Prop :=
  (∀ (c : Instr) (rest : List Instr) (s : State), s.pending = c :: rest → step s = exec c { s with pending := rest }) ∧
  (∀ s : State, s.pending = [] →
       step s = .next s.drain.idleTick ∧
       (s.sbc.ends = [] → s.sbc.rets = [] → s.sbc.queue = [] → s.sbc.stalled = [] → s.fab.waitHbm = [] → (∀ c ∈ s.cmds, ∀ f, c.phase ≠ .run (.ret f)) →
         step s = .next (if s.pwr.good then { s with time := { s.time with lctr := (s.time.lctr + 1) % 2 ^ 64 } } else s)))

/-- Right after PD00 power-up: every register word reads its Reset column, every counter 0, the event log is empty, LCTR is 0 from the always-on oscillator, no context is enabled, no partition owned, no ring enabled, no link up, nothing in flight (16 R492). -/
def Obligations.ResetValues : Prop :=
  (∀ off, State.reset.reg32 off = resetReg (off % 2 ^ 26)) ∧ (∀ off, State.reset.counter off = 0) ∧
    (∀ a off, State.reset.selOf a off = 0 ∧ State.reset.latchOf a off = none) ∧
    State.reset.reg.log = [] ∧ State.reset.reg.head = 0 ∧ State.reset.time.lctr = 0 ∧ State.reset.time.src = 2 ∧
    (∀ n, (State.reset.ctx n).state = .off) ∧ (∀ p part, State.reset.owns p part = false) ∧
    (∀ p n, (State.reset.ring p n).en = false) ∧ (∀ p, (State.reset.port p).up = false) ∧
    (∀ l, (State.reset.link l).st = .down) ∧ State.reset.pending = [] ∧ State.reset.cmds = [] ∧
    (∀ a, memGet State.reset.hbm.cells a = 0)

/-- The invariant of `Inv` holds of the state after reset. -/
def Obligations.ResetMeetsInvariant : Prop :=
  Inv State.reset

/-- Every step, whatever command it runs and from whatever state, keeps the canonical form of HBM: addresses strictly rising and no cell 0. -/
def Obligations.StepKeepsInvariant : Prop :=
  ∀ s t : State, Inv s → step s = .next t → Inv t

/-- Whatever command runs, no bit of OTP is cleared: the lifecycle only leaves BLANK, digests and valid slots stand, a revoked slot stays revoked, and ARB never decreases (14 R433, R434, R438). -/
def Obligations.OtpIsNeverCleared : Prop :=
  ∀ s t : State, step s = .next t → OtpOnlyAdds s.sec t.sec

/-- No command stops the block: every failure the manual names is a record, an error bit or a context fault, and each command of the table answers a next state from every state (09 R314, 16 R483). A command never touches the queue of waiting commands, and the names the model gives out (commands, transactions, free values) only move on. -/
def Obligations.EveryCommandGoesOn : Prop :=
  (∀ (c : Instr) (s : State), Goes (exec c s)) ∧
  (∀ (c : Instr) (s t : State), exec c s = .next t →
       t.pending = s.pending ∧ s.free ≤ t.free ∧ s.nextCmd ≤ t.nextCmd ∧ s.nextTxn ≤ t.nextTxn)

/-! ## Contexts and partitions (10) -/

/-- The transitions that `ENABLE`, `CLEAR`, `DISABLE` of a faulted context and `UNBIND` make, and nothing else of the state: OFF to READY where the partition has SRAM (a new generation begins, 14 R445), FAULTED to READY, FAULTED to OFF (10 R322); an OFF context's region is released with its overlays, spilled extents and prefetched rows (10 R323). The agent must reach CTX_ENT_CTL; `n` is the context its CTX_SEL names. A write of CTX_ENT_CTL that names a transition the table of 10 R322 does not list changes nothing, and `ENABLE` changes nothing while the partition has no SRAM. -/
def Obligations.ContextsMoveOnlyAsListed : Prop :=
  (∀ (a : Agent) (s : State), s.reaches a (pCtx + 0x10C) = true →
       let n := s.selCtx a
       ((s.ctx n).state = .off → (s.part (s.ctx n).part).units ≠ 0 →
         exec (.enable a) s = .next { s with ctxs := tset s.ctxs n { s.ctx n with state := .ready, gen := (s.ctx n).gen + 1 } }) ∧
       ((s.ctx n).state = .faulted →
         exec (.clear a) s = .next { s with ctxs := tset s.ctxs n { s.ctx n with state := .ready, cause := 0 } } ∧
         exec (.disable a) s = .next { s with ctxs := tset s.ctxs n { s.ctx n with state := .off, cause := 0 } }) ∧
       ((s.ctx n).state = .off → ∀ r, s.region n = some r → ∃ t, exec (.unbind a) s = .next t ∧
         t.regions = s.regions.filter (fun x => x.ctx != n) ∧ t.ctxs = s.ctxs ∧ t.cmds = s.cmds ∧ t.hbm.cells = s.hbm.cells ∧
         (∀ o ∈ t.hbm.overlays, o.owner ≠ some (.region n)) ∧
         (∀ x ∈ (t.part r.part).pf, x.target = n → x.src ≠ 2 ∧ x.src ≠ 3 ∧ x.src ≠ 6 ∧ x.src ≠ 7))) ∧
  (∀ (a : Agent) (s : State), s.reaches a (pCtx + 0x10C) = true →
       let n := s.selCtx a
       ((s.ctx n).state ≠ .off ∨ (s.part (s.ctx n).part).units = 0 → exec (.enable a) s = .next s) ∧
       ((s.ctx n).state ≠ .faulted → exec (.clear a) s = .next s) ∧
       ((s.ctx n).state = .off ∨ (s.ctx n).state = .draining → exec (.disable a) s = .next s) ∧
       ((s.ctx n).state = .off ∨ (s.ctx n).state = .faulted → exec (.fault a) s = .next s) ∧
       ((s.ctx n).state ≠ .off → exec (.unbind a) s = .next s))

/-- `DISABLE` of a READY context makes it DRAINING; its descriptors not yet admitted end, so that only admitted ones are left; no other context, and nothing in HBM, changes. Once none is left, the context becomes OFF (10 R322). A write of `FAULT` to a READY or DRAINING context makes it FAULTED with cause 3; every other context keeps its entry, no published state changes, and where the context held the slice's frets they hold nothing of it afterwards (10 R332, R333, R334). -/
def Obligations.DisableAndFaultEndTheContextsWork : Prop :=
  ((∀ (a : Agent) (s : State), s.reaches a (pCtx + 0x10C) = true → (s.ctx (s.selCtx a)).state = .ready →
       ∃ t, exec (.disable a) s = .next t ∧ t.ctxs = tset s.ctxs (s.selCtx a) { s.ctx (s.selCtx a) with state := .draining } ∧
         (∀ c ∈ t.cmds, c.ctx = s.selCtx a → c.origin = .window → c.entered = true) ∧ t.hbm = s.hbm ∧ t.regions = s.regions ∧ t.sec = s.sec) ∧
     (∀ (ctx : Nat) (s : State), (s.ctx ctx).state = .draining → (∀ c ∈ s.cmds, c.ctx = ctx → c.origin ≠ .window) →
       exec (.contextDrained ctx) s = .next { s with ctxs := tset s.ctxs ctx { s.ctx ctx with state := .off } })) ∧
  (∀ (a : Agent) (s : State), s.reaches a (pCtx + 0x10C) = true →
       let n := s.selCtx a
       (s.ctx n).state = .ready ∨ (s.ctx n).state = .draining →
       ∃ t, exec (.fault a) s = .next t ∧ t.ctxs = tset s.ctxs n { s.ctx n with state := .faulted, cause := 3 } ∧
         t.hbm = s.hbm ∧ t.regions = s.regions ∧ t.shards = s.shards ∧ t.sec = s.sec ∧ t.cmp = s.cmp ∧
         ((s.part (s.ctx n).part).cur = some n → (t.part (s.ctx n).part).cur = none ∧ ∀ e ∈ t.frets, s.dieIn (s.ctx n).part (dieOf e.1) = false))

/-- SRAM of a partition: a valid write of UNITS takes effect at once when it grows, or when the free pool in use fits; otherwise it is remembered, and takes effect when it fits; a refused one sets CTX_ERR bit 2 and changes no allocation (10 R339). -/
def Obligations.SramAllocationFollowsUnits : Prop :=
  (∀ (a : Agent) (v : Nat) (s : State), s.reaches a (pCtx + 0x118) = true →
    let p := s.selOf a (pCtx + 0x114) % 16
    let n := fld v 9 0
    n ≠ (s.part p).units → fld v 25 16 = (s.part p).fteUnits → n ≠ 0 →
    (s.unitsBad p n = true → exec (.ctxPartSramWrite a v) s = .next (s.raiseAt pCtx 2 (partAttr p))) ∧
    (s.unitsBad p n = false → n > (s.part p).units →
      exec (.ctxPartSramWrite a v) s = .next { s with parts := tset s.parts p { s.part p with units := n, shrink := none } }) ∧
    (s.unitsBad p n = false → n < (s.part p).units →
      (s.freePool p).2 > n * 262144 - 2097152 - (s.part p).fteUnits * 65536 - (s.part p).pfUnits * 65536 →
      exec (.ctxPartSramWrite a v) s = .next { s with parts := tset s.parts p { s.part p with shrink := some n } })) ∧
  (∀ (p n : Nat) (s : State), (s.part p).shrink = some n →
    (s.freePool p).2 ≤ n * 262144 - 2097152 - (s.part p).fteUnits * 65536 - (s.part p).pfUnits * 65536 →
    exec (.sramShrinkDone p) s = .next { s with parts := tset s.parts p { s.part p with units := n, shrink := none } })

/-- The frets' turn: past QUANTUM with others waiting a switch falls due; at the switch, once the string ends of the slice hold no outgoing data, every fret of the slice is scrubbed, the arbiter's context becomes current and CTX_SWITCHES counts it; frets that no context has are taken by a waiting one without a scrub or a count; where nobody waits any more the current context goes on (10 R324 to R326). The fret passes that then begin are the clauses' `runFrets`. A higher-priority command that has waited PREEMPT_WAIT kills the chosen holder of its resource: within RERUN_MAX the holder keeps its place with its stage discarded and its reruns counted, no published state changes; beyond it the holder's command ends (10 R328 to R331, 08 R257). -/
def Obligations.FretTurnsChangeAndPreempt : Prop :=
  ((∀ (p : Nat) (s : State), (s.part p).cur.isSome = true → s.fretWaiters p ≠ [] →
       s.time.lctr ≥ (s.part p).turnAt + 100 * fld (s.reg32 (pCtx + 0x100)) 31 16 →
       exec (.quantumExpiry p) s = .next { s with parts := tset s.parts p { s.part p with due := true } }) ∧
     (∀ (p c n : Nat) (credit : Tab Int) (s : State), (s.part p).cur = some c → s.fretWaiters p ≠ [] → (s.part p).due = true ∨ s.fretWork c = false →
       ((∃ e ∈ s.sbc.ends, s.dieIn p e.1 = true) → exec (.contextSwitch p) s = .next s) ∧
       ((∀ e ∈ s.sbc.ends, s.dieIn p e.1 = false) →
         arbitrate (s.part p).credit (s.part p).qpos (sortBy (fun a b => decide (a.1 ≤ b.1)) (s.fretWaiters p)) = some (n, credit) →
         ∃ u : State, exec (.contextSwitch p) s = .next (u.runFrets n) ∧
           u.parts = tset s.parts p { s.part p with credit := credit, cur := some n, turnAt := s.time.lctr, due := false, scrubbed := false, qpos := n } ∧
           u.frets = s.frets.filter (fun e => !s.dieIn p (dieOf e.1)) ∧ u.sbc = s.sbc ∧
           u.counter (pCtx + 0x040) = (s.counter (pCtx + 0x040) + 1) % 2 ^ 64 ∧ u.hbm = s.hbm ∧ u.ctxs = s.ctxs ∧ u.cmds = s.cmds)) ∧
     (∀ (p n : Nat) (credit : Tab Int) (s : State), (s.part p).cur = none → s.fretWaiters p ≠ [] →
       arbitrate (s.part p).credit (s.part p).qpos (sortBy (fun a b => decide (a.1 ≤ b.1)) (s.fretWaiters p)) = some (n, credit) →
       ∃ u : State, exec (.contextSwitch p) s = .next (u.runFrets n) ∧
         u = { s with parts := tset s.parts p { s.part p with credit := credit, cur := some n, turnAt := s.time.lctr, due := false, scrubbed := false, qpos := n } }) ∧
     (∀ (p c : Nat) (s : State), (s.part p).cur = some c → s.fretWaiters p = [] → (s.part p).due = true →
       exec (.contextSwitch p) s = .next (State.runFrets { s with parts := tset s.parts p { s.part p with due := false } } c))) ∧
  (∀ (id : Nat) (s : State) (b a : Cmd), s.cmd id = some b → s.time.lctr ≥ b.since + 100 * fld (s.reg32 (pCtx + 0x100)) 15 8 →
       victim (s.holders b) = some a →
       ∃ t, exec (.preemption id) s = .next t ∧
         (a.reruns + 1 ≤ fld (s.reg32 (pCtx + 0x100)) 7 0 →
           t.hbm = s.hbm ∧ t.regions = s.regions ∧ t.shards = s.shards ∧ t.sec = s.sec ∧ t.cmds.map (·.id) = s.cmds.map (·.id) ∧
           ∀ x ∈ t.cmds, x.id = a.id → x.phase = .killed ∧ x.reruns = a.reruns + 1 ∧ x.stages = [] ∧ x.work = false) ∧
         (a.reruns + 1 > fld (s.reg32 (pCtx + 0x100)) 7 0 → a.origin = .window → t.hbm = s.hbm ∧ ∀ x ∈ t.cmds, x.id ≠ a.id))

/-- At a refill every bucket's level becomes min(depth, level + rate), with rates written since in force, the next period is timed by REFILL as it then reads, and only then are held requests classed again (10 R341, R345); a write of CBS or PBS sets the depth and the level, full where FILL is set and else empty, and nothing else (10 R345). -/
def Obligations.CapoBucketsRefillAndTakeDepths : Prop :=
  (∀ (p : Nat) (s : State), p < 16 → s.time.lctr ≥ (s.part p).refillAt →
    ∃ u : State, exec (.capoRefill p) s = .next (u.releaseCapos p) ∧
      u = { s with parts := tset s.parts p { s.part p with
            capos := (s.part p).capos.map (fun e => (e.1, { e.2 with cir := e.2.newCir, pir := e.2.newPir, clvl := min (e.2.cbs : Int) (e.2.clvl + e.2.newCir), plvl := min (e.2.pbs : Int) (e.2.plvl + e.2.newPir) })),
            refill := fld (s.reg32 (pCapo p + 0x100)) 4 0, refillAt := s.time.lctr + 2 ^ fld (s.reg32 (pCapo p + 0x100)) 4 0 } }) ∧
  (∀ (a : Agent) (p r v : Nat) (s : State), p < 16 → r ≤ 10 → s.reaches a (pCapo p) = true →
    let full := bitOf (s.reg32 (pCapo p + 0x100)) 8
    (∃ t, exec (.capoDepthWrite a p r false v) s = .next t ∧
      t.capo p r = { s.capo p r with cbs := v % 2 ^ 31, clvl := if full then ((v % 2 ^ 31 : Nat) : Int) else 0 } ∧
      (∀ q, q ≠ p → t.part q = s.part q) ∧ (∀ k, k ≠ r → t.capo p k = s.capo p k) ∧ t = { s with parts := t.parts }) ∧
    (∃ t, exec (.capoDepthWrite a p r true v) s = .next t ∧
      t.capo p r = { s.capo p r with pbs := v % 2 ^ 31, plvl := if full then ((v % 2 ^ 31 : Nat) : Int) else 0 } ∧
      (∀ q, q ≠ p → t.part q = s.part q) ∧ (∀ k, k ≠ r → t.capo p k = s.capo p k) ∧ t = { s with parts := t.parts }))

/-! ## Push windows and commands (09, 08 R256, 02 R58) -/

/-- A push window is live exactly when its context is enabled (READY or FAULTED, 10 R322), the port owns the partition and has not begun to release it, the write comes through the submitting function, the ring is enabled, the port is up and a confidential partition's stream is keyed (09 R286, R317, 14 R447). A write to one that is not live is discarded, counted in HIF_WIN_DROPS and sets HIF_ERR.WIN_DROP: no slot, command or record comes of it. -/
def Obligations.DeadWindowsDropTheWrite : Prop :=
  ∀ (p : Port) (fn off : Nat) (data : List Byte) (s : State), data ≠ [] → off % 4096 + data.length ≤ 4096 →
    let ctx := off / 4096 % 4096
    ((s.ctx ctx).state ≠ .ready ∧ (s.ctx ctx).state ≠ .faulted ∨ s.owns p (s.ctx ctx).part = false ∨ fn ≠ s.submitFn p (s.ctx ctx).part ∨ (s.ring p ctx).en = false) →
    ∃ t, exec (.pushWindowWrite p fn off data) s = .next t ∧
      t = (s.bump (pHif p + 0x058) 1).raise (pHif p) 1 ∧ t.cmds = s.cmds ∧ t.rings = s.rings ∧ t.hbm = s.hbm ∧ t.refuse = s.refuse

/-- A byte that reaches a live window is put into its slot; the one that completes the 128 submits the descriptor, its words little-endian, and frees the slot; one written a second time tears the slot, which is counted and ends as a submission refused with BAD_FIELD 0x0901, and begins the slot anew (09 R290, R291, R293, R305). Submission: with 64 descriptors of the context in flight a further one is discarded without a record, counted and HIF_ERR.OVERRUN set (09 R293); otherwise one that passes the general checks waits in the context's queue under the next name, with its priority lowered to the partition's PRIO_MAX (09 R297, R305). -/
def Obligations.WindowBytesBecomeCommands : Prop :=
  (∀ (p : Port) (fn off : Nat) (b : Byte) (s : State), s.windowLive p fn (off / 4096 % 4096) = true →
       let ctx := off / 4096 % 4096
       let k := slotKey ctx (off % 4096 / 128)
       let i := off % 128
       let x := (tget (s.port p).slots k).getD { data := zeros 128, mask := 0 }
       let y : Slot := { data := x.data.set i b, mask := setBit x.mask i true }
       (bitOf x.mask i = false → y.mask ≠ 2 ^ 128 - 1 →
         exec (.pushWindowWrite p fn off [b]) s = .next (s.modPort p fun z => { z with slots := tset z.slots k y })) ∧
       (bitOf x.mask i = false → y.mask = 2 ^ 128 - 1 →
         exec (.pushWindowWrite p fn off [b]) s = .next ((s.modPort p fun z => { z with slots := tdel z.slots k }).submit p fn ctx (words32 32 y.data) none)) ∧
       (bitOf x.mask i = true →
         exec (.pushWindowWrite p fn off [b]) s =
           .next (((s.bump (pHif p + 0x060) 1).submit p fn ctx [] (some (if bitOf x.mask 4 && bitOf x.mask 5 then le16 x.data 4 else 0xFFFF))).modPort p
             fun z => { z with slots := tset z.slots k { data := (zeros 128).set i b, mask := setBit 0 i true } }))) ∧
  (∀ (s : State) (p : Port) (fn ctx : Nat) (dw : List Nat),
       (s.inflight p ctx ≥ 64 → s.submit p fn ctx dw none = (s.bump (pHif p + 0x068) 1).raise (pHif p) 0) ∧
       (let part := (s.ctx ctx).part
        let cap := fld (s.reg32 (regKey (pCau + 0x108) part)) 3 0
        let c := Cmd.start s.nextCmd part ctx p fn dw (min (fld (dw.getD 0 0) 15 12) cap) s.epoch s.time.lctr .window
        s.inflight p ctx < 64 → s.armed pCau 0 = false → s.armed pCtx 0 = false → (∀ x ∈ s.cmds, x.id ≠ s.nextCmd) → s.generalCheck c = none →
        let t := s.submit p fn ctx dw none
        t.cmds = s.cmds ++ [c] ∧ t.nextCmd = s.nextCmd + 1 ∧ t.hbm = s.hbm ∧ t.rings = s.rings ∧ t.ctxs = s.ctxs))

/-- `NOP` completes with OK once it is admitted: it leaves the queue, its record (status 0, counter 0) is put on its ring, and nothing in HBM, on a ring or in a context changes otherwise (09 R300, R309). A `FENCE` that is admitted and looks again completes with OK once every command it covers has had its record and, with INTERNAL set, no internal command of its partition is at work; its counter is the number of commands it waited for. Until then it stays (09 R300). -/
def Obligations.NopAndFenceComplete : Prop :=
  (∀ (ctx : Nat) (s u : State) (c : Cmd), s.headOf ctx = some c → s.cmd c.id = some c → c.phase = .queued → c.opcode = 0x01 → c.admitted = false →
       c.reruns = 0 → c.flags = 0 → c.fin = none → c.stages = [] → c.charged = 0 → plainCheck c = .ok () → s.yieldAll.holdWhy c = none → s.yieldAll.charge c.part 0 1 = some u →
       ∃ v : State, exec (.nop ctx) s = .next (v.putRec c.port ctx (c.record stOk 0 0 0 0 0)) ∧
         (∀ x ∈ v.cmds, x.id ≠ c.id) ∧ v.hbm = s.hbm ∧ v.rings = s.rings ∧ v.ctxs = s.ctxs ∧ v.frets = s.frets ∧ v.sec = s.sec) ∧
  (∀ (ctx : Nat) (s : State) (c : Cmd), (s.cmds.find? fun c => c.ctx == ctx && c.opcode == 0x7F && c.admitted) = some c → s.cmd c.id = some c →
       c.fin = none → c.stages = [] → c.flags = 0 → c.origin = .window → c.behind = [] →
       let busy := (∃ i ∈ c.covers, (∃ x ∈ s.cmds, x.id = i) ∨ ∃ r ∈ s.rings, ∃ x ∈ r.2.held, x.id = i ∧ x.kind = 0) ∨
         (bitOf (c.w 12) 1 = true ∧ ∃ x ∈ s.cmds, x.part = c.part ∧ x.origin = .internal ∧ x.admitted = true)
       (busy → exec (.fence ctx) s = .next (s.waitOn c .none)) ∧
       (¬busy → ∃ v : State, exec (.fence ctx) s = .next (v.putRec c.port ctx (c.record stOk 0 0 0 0 c.covers.length)) ∧
         (∀ x ∈ v.cmds, x.id ≠ c.id) ∧ v.hbm = s.hbm ∧ v.rings = s.rings ∧ v.ctxs = s.ctxs))

/-- Every opcode's row takes the descriptor at the head of its context's queue through admission and its processing. A check that fails turns it away with that check's status and SUBSTATUS (09 R305); a wait of admission leaves it held; admitted, its work is `opWork` of it, and the command waits for what that asks for, going on at once where it is at hand, or, once its turn to stage has come, is charged, stages and settles with what `opWork` answers (09 R299, 08 R254, R256). A command that still waits for a full overlay first lets retention yield (08 R255, `yieldAll`). What becomes of an accepted command: a mutating one stands staged, ready for its commit phase; another one ends with its record; both once their pages have been programmed, their staged rows verified and no fret they write is being copied to a spare; while one is, the command waits for it (08 R256, R365, 03 R96, R109). -/
def Obligations.OpcodesAreAdmittedAndWorked : Prop :=
  (∀ row ∈ opcodeRows, ∀ (ctx : Nat) (s : State) (c : Cmd), s.headOf ctx = some c → s.cmd c.id = some c → c.phase = .queued → c.opcode = row.2 →
       c.admitted = false → c.fin = none → (∀ x ∈ s.cmds, x.ctx = ctx → x.opcode = 0x7F → x.admitted = false) →
       ∃ t, exec (row.1 ctx) s = .next t ∧
         (∀ u st sub n, s.yieldAll.letIn c = (u, .error (.refuse st sub n)) → t = u.turnAway c st sub n) ∧
         (∀ u, s.yieldAll.letIn c = (u, .ok false) → t = u) ∧
         (∀ u c', s.yieldAll.letIn c = (u, .ok true) → u.cmd c.id = some c' → c'.admitted = true → c'.fin = none →
           (∀ n v, u.opWork c' = .error (.wait n) → u.park c' n = (v, false) → t = v) ∧
           (∀ n v, u.opWork c' = .error (.wait n) → u.park c' n = (v, true) → t = State.advance (runFuel - 2) v c.id) ∧
           (∀ d v c₂ f, u.opWork c' = .ok d → u.stageTurn c' = true → u.accept c' d = (v, .ok true) → v.cmd c.id = some c₂ → c₂.admitted = true → c₂.fin = some f → t = v.settle c₂ f))) ∧
  (∀ (s : State) (c : Cmd) (f : Finish), s.programmed c.done = true → s.verifyFails c = none →
       (∀ x, (s.outFrets c f).find? s.sparingAt = some x → s.settle c f = s.waitOn c (.spare x)) ∧
       ((s.outFrets c f).find? s.sparingAt = none → c.origin = .window → s.away c = false → isMutating c.opcode = true →
         s.settle c f = { s with cmds := s.cmds.map fun x => if x.id == c.id then { x with phase := .staged, since := s.time.lctr } else x }) ∧
       ((s.outFrets c f).find? s.sparingAt = none → c.origin = .window → isMutating c.opcode = false → c.opcode ≠ 0x10 → c.opcode ≠ 0x20 → c.opcode ≠ opPass → s.settle c f = s.complete c f))

/-- A command held in admission, a stage that waits, a sub-batch, a killed command: each goes on once what it waits for is free, and an INSERT held past SIDE_TMO completes with SIDE_FULL 0x0960; until then nothing of it changes (a stage that waits for a full overlay lets retention yield, 08 R255) (02 R58, 07 R227, R241, 10 R329, R338). -/
def Obligations.WaitingCommandsGoOnOrTimeOut : Prop :=
  ∀ (id : Nat) (s : State) (c : Cmd), s.cmd id = some c →
    (∀ h, c.phase = .held h → exec (.admissionWaitEnd id) s = .next (s.run id)) ∧
    (c.phase = .held .side → s.time.lctr ≥ c.since + fld (s.reg32 (pGwe + 0x10C)) 31 16 * 2 ^ 14 → c.origin = .window →
      ∃ v : State, exec (.sideFull id) s = .next (v.putRec c.port c.ctx (c.record stSideFull 0x0960 0 0 0 0)) ∧ (∀ x ∈ v.cmds, x.id ≠ id) ∧ v.hbm = s.hbm ∧ v.shards = s.shards) ∧
    (s.time.lctr < c.since + fld (s.reg32 (pGwe + 0x10C)) 31 16 * 2 ^ 14 → exec (.sideFull id) s = .next s) ∧
    (s.yieldAll.stageFree c = true → exec (.stageResume id) s = .next (s.yieldAll.run id)) ∧
    (s.yieldAll.stageFree c = false → exec (.stageResume id) s = .next s.yieldAll) ∧
    (∀ u n, c.phase = .run (.sram u n) → (s.takeSram c u n).isSome = true → exec (.subBatchStart id) s = .next (s.run id)) ∧
    (∀ u n, c.phase = .run (.sram u n) → s.takeSram c u n = none → exec (.subBatchStart id) s = .next s) ∧
    (s.mayRerun c = true → exec (.commandRerun id) s = .next ((s.modCmd id fun x => { x with phase := .queued }).run id)) ∧
    (s.mayRerun c = false → exec (.commandRerun id) s = .next s)

/-- The commit phase of a staged window command: nothing starts in HOLD or before the commits it follows, the copies it waits for and the readers a rebind waits for; then its stages are published, it completes with the edition of the lowest shard published in EDITION_USED, and the readers of the commit log are served (08 R256, R258, R281, 13 R426, 15 R466). The commit that binds a shard or a region publishes edition 1; every later commit to it publishes the latest edition plus 1; a stage that changes nothing publishes none and leaves the state as it is but for the hit counters it moves (08 R253, R256, 06 R177). The premise on the records holds where they stand newest first. -/
def Obligations.CommitsPublishTheNextEdition : Prop :=
  (∀ (id : Nat) (s : State) (c : Cmd) (f : Finish), s.cmd id = some c → c.phase = .staged → c.fin = some f → c.origin = .window → c.opcode ≠ 0x10 →
       (s.held = true ∨ s.commitTurn c f = false → exec (.commitPhase id) s = .next s) ∧
       (s.held = false → s.commitTurn c f = true →
         exec (.commitPhase id) s =
           .next (((s.publish c f).1.complete c (if isMutating c.opcode then { f with edition := f.editionUsed c.stages (s.publish c f).2 } else f)).afterPublish s c))) ∧
  (∀ (s : State) (c : Cmd) (g : Stage),
       (g.changed = false → g.bind = false → s.commitStage c g = (s.moveCounts g.delta.counts, 0) ∧ (g.delta.counts = [] → s.commitStage c g = (s, 0))) ∧
       (g.bind = true → g.keep = false → (s.commitStage c g).2 = 1 ∧ (s.commitStage c g).1.latest g.target = 1) ∧
       (g.changed = true → g.bind = false →
         (match g.target with
           | .shard n => ∃ x, s.shard n = some x ∧ ∀ r ∈ x.recs, r.edition ≤ s.latest (.shard n)
           | .region k => ∃ x, s.region k = some x ∧ ∀ r ∈ x.recs, r.edition ≤ s.latest (.region k)) →
         (s.commitStage c g).2 = s.latest g.target + 1 ∧ (s.commitStage c g).1.latest g.target = s.latest g.target + 1))

/-- Host reads: the data a command asked for reaches it, cut or filled to the length it asked for, and it goes on (09 R287); a read that fails is counted in HIF_HOST_RD_ERR and ends the command with MEDIA_ERROR 0x0940, its record the only thing written for it (09 R289). Data for another key changes nothing. -/
def Obligations.HostReadsReachTheirCommand : Prop :=
  ∀ (id key a len : Nat) (s : State) (c : Cmd), s.cmd id = some c → c.phase = .run (.host key a len) →
    (∀ data, exec (.hostReadCompletion id key data) s =
      .next ((s.modCmd id fun x => { x with got := tset x.got key (slice data 0 len), phase := .run .none }).run id)) ∧
    (∀ data k, k ≠ key → exec (.hostReadCompletion id k data) s = .next s ∧ exec (.hostReadError id k) s = .next s) ∧
    (c.origin = .window → ∃ v : State, exec (.hostReadError id key) s = .next (v.putRec c.port c.ctx (c.record stMedia 0x0940 0 0 0 0)) ∧
      (∀ x ∈ v.cmds, x.id ≠ id) ∧ v.hbm = s.hbm ∧ v.regions = s.regions ∧ v.shards = s.shards)

/-! ## Walks and the device's own work (07, 06 R178, 13 R424) -/

/-- A waiting walk starts only when one of the 16,384 slots is free, its partition's walk area or its SRAM of the free pool too, and its command holds the frets; until then nothing changes. It starts with the entry points visited and its first expansions in flight, what it has done since is counted, and the peak of walks in progress is kept (07 R215 to R218, 10 R336). An expansion that has returned leaves the flying set, its targets are classified into the walk's three lists and further expansions start; an unusable adjacency record counts as one without edges and sets GWE_ERR.ADJ_BAD; no published state changes (07 R217 to R223). `x` is the record as read; the walk here has not ended by it. -/
def Obligations.WalksStartAndExpand : Prop :=
  (∀ (id : Nat) (s : State) (w : Walk) (c : Cmd) (v : SView) (q : Query), s.walk id = some w → w.phase = .waiting → s.walkCtx w = .ok (c, v, q) →
       let taken := s.walks.any fun x => x.area && (s.cmd x.cmd).elim false (·.part == c.part)
       (s.walksActive ≥ 16384 ∨ (taken = true ∧ (s.freePool c.part).2 + w.mem > (s.freePool c.part).1) ∨ s.turnOf c = false → exec (.walkStart id) s = .next s) ∧
       (∀ w', s.walksActive < 16384 → taken = false ∨ (s.freePool c.part).2 + w.mem ≤ (s.freePool c.part).1 → s.turnOf c = true →
         s.walkBegin c.id v q c.filter w = .ok w' → w'.ended = false →
         ∃ t, exec (.walkStart id) s = .next t ∧ t.walks = s.walks.map (fun x => if x.id == w'.id then { w' with area := !taken } else x) ∧
           t.walksActive ≤ max t.walkPeak s.walkPeak ∧ t.walkPeak ≥ s.walkPeak ∧ t.cmds = s.cmds ∧ t.hbm = s.hbm ∧ t.shards = s.shards)) ∧
  (∀ (walk slot id : Nat) (s u : State) (w w' : Walk) (c : Cmd) (v : SView) (q : Query) (x : Option Adj × Bool),
       s.walk walk = some w → (w.flying.find? fun i => idSlot i == slot) = some id → s.walkCtx w = .ok (c, v, q) → s.turnOf c = true →
       s.expansionRec c v id = .ok (u, x) → u.walkExpand c.id v q c.filter w id x.1 = .ok w' → w'.ended = false →
       ∃ t, exec (.expansionComplete walk slot) s = .next t ∧ t.walks = u.walks.map (fun y => if y.id == w'.id then w' else y) ∧
         t.cmds = u.cmds ∧ t.hbm = u.hbm ∧ t.shards = u.shards ∧ t.regions = u.regions)

/-- A side-list strum batch starts when 8 vectors of one edition and context have joined or SIDE_WAIT has passed since the first, and its command's context holds the frets: `sideBatchOf` is the first such group, and while there is none nothing changes. Every walk of the batch has its side candidates then, the batch is counted and its strokes charged (07 R226). -/
def Obligations.SideBatchesStrumTogether : Prop :=
  (∀ (shard : Nat) (s : State),
    let home := fun (w : Walk) => (s.cmd w.cmd).map fun c => (c.part, c.ctx, c.origin == Origin.window)
    (∀ w ∈ s.walks, w.shard = shard → w.side = none →
      s.sideDue (((s.walks.filter fun x => x.shard == shard && x.side.isNone).filter fun x => x.edition == w.edition && home x == home w).take 8) = false) →
    exec (.sideStrumBatch shard) s = .next s) ∧
  (∀ (s : State) (a : Walk) (l : List Walk), s.sideDue (a :: l) = true ↔
    (l.length ≥ 7 ∨ s.time.lctr ≥ a.sideAt + 100 * fld (s.reg32 (pGwe + 0x10C)) 7 0) ∧ ∀ c, s.cmd a.cmd = some c → s.turnOf c = true) ∧
  (∀ (shard : Nat) (s : State) (a : Walk) (l ws : List Walk) (c : Cmd) (v : SView) (q : Query), s.sideBatchOf shard = a :: l → s.walkCtx a = .ok (c, v, q) → s.sideFor (a :: l) = .ok ws →
    s.sideDue (a :: l) = true ∧ l.length < 8 ∧ (∀ w ∈ a :: l, w.shard = shard ∧ w.edition = a.edition ∧ w.side = none) ∧
    ∃ u : State, exec (.sideStrumBatch shard) s = .next ((dedupNat ((a :: l).map (·.cmd))).foldl (fun s id => s.walksDone id) u) ∧
      u.walks = ws.foldl (fun t w => t.map fun x => if x.id == w.id then w else x) s.walks ∧ u.cmds = s.cmds ∧ u.hbm = s.hbm ∧ u.shards = s.shards)

/-- Work the device starts by itself enters as an internal command of the owning partition, at priority 0, under the next name, and runs: a side-list batch at 75 % fill with CONS_EN set, a sweep batch with sweeping enabled, a migration pass that is due, a full checkpoint when less than a quarter of an area is free, an incremental one at each PERIOD, whose next due time moves on by PERIOD; a sweep pass keeps the high-water mark and the slots to free as they were at its start (07 R228, R246, 06 R178, 13 R424). None starts while one of its kind is under way. -/
def Obligations.DeviceWorkStartsAsInternalCommands : Prop :=
  (∀ (n : Nat) (s : State) (x : Shard), s.shard n = some x → (s.ownWork 0x34 fun c => c.f 12 11 0 == n && c.f 12 13 12 == 0) = none →
    bitOf (s.reg32 (pGwe + 0x104)) 31 = true → s.sideAtLeast n 75 = true →
    exec (.autoConsolidate n) s = .next (internalRun s x.part 0 (consolidateWords n 0 0 (fld (s.reg32 (pGwe + 0x104)) 16 0)))) ∧
  (∀ (n : Nat) (s : State) (x : Shard) (v : SView), s.shard n = some x → s.shView n (s.latest (.shard n)) = some v → v.st.hwm ≠ 0 →
    (s.ownWork 0x34 fun c => c.f 12 11 0 == n && c.f 12 13 12 == 1) = none → bitOf (s.reg32 (pGwe + 0x108)) 31 = true →
    ∃ p, exec (.sweepBatch n) s = .next (internalRun (s.setShard { x with sweep := some p }) x.part 0 (consolidateWords n 1 p.1 (min 65536 (p.2.1 - p.1)))) ∧
      (∀ o, x.sweep = some o → p = o) ∧ (x.sweep = none → p.1 = 0 ∧ p.2.1 = v.st.hwm)) ∧
  (∀ (ctx layer : Nat) (s : State) (r : Region), s.region ctx = some r → (s.ownWork opPass fun c => c.ctx == ctx && c.f 12 7 0 == layer) = none → layer ∈ r.due →
    exec (.migrationPass ctx layer) s =
      .next (internalRun (s.setRegion { r with due := r.due.filter (· != layer) }) r.part ctx (((List.replicate 32 0).set 0 opPass).set 12 layer))) ∧
  (∀ (k : Nat) (s : State) (a : Area), s.area (Target.ofNum k) = some a → s.ownCkpt a.target = none →
    (4 * a.free < a.units → exec (.autoFullCheckpoint k) s = .next (internalRun s a.part a.target.ctxOf (ckptWords a false))) ∧
    (a.period ≠ 0 → s.time.lctr ≥ a.dueAt →
      exec (.periodicCheckpoint k) s = .next (internalRun (s.setArea { a with dueAt := a.dueAt + a.period * 2 ^ 30 }) a.part a.target.ctxOf (ckptWords a true))) ∧
    (4 * a.free ≥ a.units → exec (.autoFullCheckpoint k) s = .next s) ∧
    (a.period = 0 ∨ s.time.lctr < a.dueAt → exec (.periodicCheckpoint k) s = .next s))

/-! ## Frets and HBM (03) -/

/-- A frame to a fenced die changes nothing; one that meets a domain that is being replaced, an earlier waiting frame, a pause of its die, the turn of another context or a want of return space waits at SBC; a malformed one is refused at every fret it addresses and ends its host command. One that names vectors of which some fret it touches has the wrong tag is refused at those frets and faults its context, and the frets whose tags agree perform it as if it named them alone; a string, which passes every fret, delivers nothing then (01 R29, 03 R78, R81, R92, R107, R109, 10 R324). Every frame's row answers so. -/
def Obligations.FramesAreRefusedByName : Prop :=
  ∀ row ∈ frameRows, ∀ (f : Frame) (s : State), f.dw.length = 16 →
    (s.hbm.deadDies.contains f.dieKey = true → exec (row.1 f) s = .next s) ∧
    (s.hbm.deadDies.contains f.dieKey = false → s.frameWaits f (row.2.2.1 f) = true → exec (row.1 f) s = .next (s.stall (row.1 f))) ∧
    (s.hbm.deadDies.contains f.dieKey = false → s.frameWaits f (row.2.2.1 f) = false → f.formed row.2.1 = false →
      exec (row.1 f) s = .next (State.afterFence s (s.refuseFrame f))) ∧
    (s.serves f row.2.1 (row.2.2.1 f) = true → s.tagBad f (row.2.2.2 f) ≠ [] →
      let bad := s.tagBad f (row.2.2.2 f)
      let good := f.frets.filter fun x => !bad.contains x
      exec (row.1 f) s = .next (State.afterFence s (s.refuseFrame f)) ∨
      ((good = [] ∨ row.2.1 = 0x20) ∧ exec (row.1 f) s = .next (State.afterFence s (s.refuseTag f bad))) ∨
      (good ≠ [] ∧ row.2.1 ≠ 0x20 ∧ ∃ u, exec (row.1 (f.only good)) s = .next (State.afterFence s u) ∧ exec (row.1 f) s = .next (State.afterFence s (u.refuseTag f bad))))

/-- `QLOAD` puts its vector, tagged with its context, into the slot's vector of every fret it addresses, with that vector's working state cleared; `QSCRUB` with ALL empties the addressed frets, and without it the vectors of VMASK, with their tags (the tags are the model's choice, log entry 176). Nothing else of the state changes (03 R76, R78, R81, R82). -/
def Obligations.QueryVectorsAreLoadedAndScrubbed : Prop :=
  (∀ (f : Frame) (s : State), s.serves f 0x01 0 = true → f.frets.length = 1 → (Fmt.ofCode (f.g 4 7 4)).fretQuery = true →
    (Fmt.ofCode (f.g 4 7 4)).rowBytes (f.g 4 20 8) ≤ (if bitOf (f.w 4) 2 then 4096 else 8192) →
    ∃ t q, exec (.qload f) s = .next t ∧ q.ctx = f.ctx ∧ q.fmt = (Fmt.ofCode (f.g 4 7 4)).code ∧ q.vlen = f.g 4 20 8 ∧
      q.elems = slice f.payload 0 ((Fmt.ofCode (f.g 4 7 4)).rowBytes (f.g 4 20 8)) ∧
      (∀ x ∈ f.frets, tget (t.fret x).q (2 * f.g 4 1 0 + (if bitOf (f.w 4) 2 && bitOf (f.w 4) 3 then 1 else 0)) = some q ∧
        (t.fret x).vec (2 * f.g 4 1 0 + (if bitOf (f.w 4) 2 && bitOf (f.w 4) 3 then 1 else 0)) = VecSt.reset) ∧
      t = { s with frets := t.frets }) ∧
  (∀ (f : Frame) (s : State), s.serves f 0x02 0 = true →
    (bitOf (f.w 4) 0 = true → exec (.qscrub f) s = .next { s with frets := f.frets.foldl (fun t x => tdel t x) s.frets }) ∧
    (bitOf (f.w 4) 0 = false → s.tagBad f .notOther = [] → ∃ t, exec (.qscrub f) s = .next t ∧ t = { s with frets := t.frets } ∧
      (∀ x, f.frets = [x] → t.fret x = { q := f.vecs.foldl tdel (s.fret x).q, v := f.vecs.foldl tdel (s.fret x).v })))

/-- A `STRUM` over an extent its frets hold, without a flaw, changes the working state of the addressed frets and no HBM, command, context or buffered output; what each of them then holds is `strumFret` of the rows it read. A `PLUCK` leaves its entries, one transfer of each fret, in the return buffer of the fret's channel, and changes no fret (03 R77, R80, R83, R89, 01 R29). -/
def Obligations.StrumsAndPlucksReadOnly : Prop :=
  ∀ (f : Frame) (s : State), f.extent.fits = true → s.tagBad f .loaded = [] →
    (s.serves f 0x10 0 = true → (f.g 6 27 26 = 0 → 1 ≤ f.g 7 22 16 ∧ f.g 7 22 16 ≤ 64) → (∀ x ∈ f.frets, ∀ n, n < f.extent.rows → s.extBad x f.extent n = false) →
      ∃ t, exec (.strum f []) s = .next t ∧ t.hbm = s.hbm ∧ t.cmds = s.cmds ∧ t.ctxs = s.ctxs ∧ t.sbc = s.sbc ∧ t.free = s.free + 1 ∧
        (∀ x ∈ f.frets, t.fret x = strumFret (s.fret x) (2 ^ 40 + s.free) f x (s.extReads f x)) ∧ ∀ x, x ∉ f.frets → t.fret x = s.fret x) ∧
    (s.serves f 0x11 (8 * f.pluckRows.length * f.vecs.length) = true → (∀ x ∈ f.frets, ∀ n ∈ f.pluckRows, n < f.extent.rows → s.extBad x f.extent n = false) →
      ∃ t, exec (.pluck f []) s = .next t ∧ t.hbm = s.hbm ∧ t.cmds = s.cmds ∧ t.frets = s.frets ∧
        t.sbc = s.sbc.putReads (f.stack % 12)
          (f.frets.map fun x => { seq := f.seq, chan := chanOf x, data := pluckFret (s.fret x) (2 ^ 40 + s.free) f x (s.pluckReads f x) }))

/-- `HIST`, `LIST`, `EXPSUM` and `VACC` change the working state of the frets they address and nothing else but the count of rejected rows: bins of the buffered scores, the entries made ready with the sums of their list, a sums record formed, value rows accumulated; `STRING` puts the combination of its kind over the die's 64 frets into the die's string end, under its SEQ and the channel the die sends on, and takes what it sent with it (03 R68, R79, R84 to R92). -/
def Obligations.LocalStateFramesStayLocal : Prop :=
  ∀ (f : Frame) (s : State),
    (s.tagBad f .loaded = [] →
      (s.serves f 0x12 0 = true → ∃ t, exec (.hist f) s = .next t ∧ t = { s with frets := t.frets } ∧
        ∀ x ∈ f.frets, ∀ i v, f.vecs[i]? = some v → (t.fret x).vec v =
          if ((s.fret x).vec v).sums.overflow then (s.fret x).vec v
          else { (s.fret x).vec v with hist := ((s.fret x).vec v).buffer.foldl (fun h e => pushBin h (f.vecRec i) e.2) [], binRec := (f.vecRec i).map (·.toNat) }) ∧
      (s.serves f 0x13 0 = true → ∃ t, exec (.list f) s = .next t ∧ t = { s with frets := t.frets } ∧
        ∀ x ∈ f.frets, ∀ v ∈ f.vecs, (t.fret x).vec v =
          { (s.fret x).vec v with emit := if bitOf (f.w 4) 0 then ((s.fret x).vec v).selected else ((s.fret x).vec v).list, listed := some ((s.fret x).vec v).sums }) ∧
      (s.serves f 0x14 0 = true → ∃ t, exec (.expsum f) s = .next t ∧ t = { s with frets := t.frets } ∧
        ∀ x ∈ f.frets, ∀ v ∈ f.vecs, (t.fret x).vec v = { (s.fret x).vec v with record := some ((s.fret x).vec v).sums }) ∧
      (s.serves f 0x18 0 = true → (Fmt.ofCode (f.g 5 15 12)).fretRow = true → (Fmt.ofCode (f.g 5 15 12)).zp = false → f.g 5 23 16 ≠ 0 →
        f.vecs.length * f.g 6 12 0 ≤ 2048 → (∀ x ∈ f.frets, (s.fret x).accOthers f + f.vecs.length * f.g 6 12 0 ≤ 2048) →
        (∀ x ∈ f.frets, ∀ p ∈ f.vaccRows, s.vaccRead f x p ≠ none) →
        ∃ t, exec (.vacc ⟨f, []⟩) s = .next t ∧ t.hbm = s.hbm ∧ t.cmds = s.cmds ∧ t.ctxs = s.ctxs ∧ t.sbc = s.sbc ∧ (∀ x, x ∉ f.frets → t.fret x = s.fret x) ∧
          ∀ x ∈ f.frets, t.fret x = vaccFret (s.fret x) f (f.vaccRows.map fun p => (s.vaccRead f x p).getD none))) ∧
    (s.tagBad f .notOther = [] → s.serves f 0x20 0 = true → f.g 4 2 0 ≤ 4 → (f.g 4 2 0 = 2 → 1 ≤ f.g 4 22 16 ∧ f.g 4 22 16 ≤ 64) →
      ∃ t, exec (.string f) s = .next t ∧
        t = { s with frets := t.frets, sbc := s.sbc.putString f.dieKey f.seq (s.stringChan f.dieKey) (s.stringOut f) } ∧ ∀ x, (t.fret x).q = (s.fret x).q)

/-- `STAGE_WRITE` writes only the columns it names, inside the staging area, of the frets it addresses, and a target outside the area is refused: the payload's bytes, or with COPY those of the source columns, stand there afterwards, tagged fret or migration, and every other byte of HBM is unchanged; no overlay appears (03 R95). -/
def Obligations.StageWriteStaysInTheStagingArea : Prop :=
  ∀ (f : Frame) (s : State) (x : Nat), s.serves f 0x30 0 = true → f.frets = [x] → Inv s → 1 ≤ f.g 5 8 0 → f.g 5 8 0 ≤ 256 → f.g 4 20 0 + f.g 5 8 0 ≤ fretCols →
    (s.stageBase x > f.g 4 20 0 → exec (.stageWrite ⟨f, []⟩) s = .next (State.afterFence s (s.refuseFrame f))) ∧
    (∀ d : List Byte, s.stageBase x ≤ f.g 4 20 0 →
      (bitOf (f.w 5) 17 = false ∧ d = slice f.payload 0 (32 * f.g 5 8 0)) ∨
      (bitOf (f.w 5) 17 = true ∧ f.g 6 20 0 + f.g 5 8 0 ≤ fretCols ∧ s.poisonedRow x (f.g 6 20 0 * 32) (32 * f.g 5 8 0) = false ∧ d = s.hbmRead x (f.g 6 20 0 * 32) (32 * f.g 5 8 0)) →
      ∃ t, exec (.stageWrite ⟨f, []⟩) s = .next t ∧ t.hbm.overlays = s.hbm.overlays ∧ t.frets = s.frets ∧ t.cmds = s.cmds ∧
        t.hbmRead x (f.g 4 20 0 * 32) (32 * f.g 5 8 0) = d ∧
        (∀ a, a < linOf x (f.g 4 20 0 * 32) ∨ a ≥ linOf x (f.g 4 20 0 * 32) + 32 * f.g 5 8 0 → memGet t.hbm.cells a = memGet s.hbm.cells a) ∧
        t.writerOf x (f.g 4 20 0) = (if bitOf (f.w 5) 16 then 2 else 1))

/-- `COMMIT_ROW` with PHASE 1 inserts one overlay entry {BASE, STAGE, COLUMNS, EDITION} at each fret it addresses and changes no byte of HBM: a read at an edition not below it resolves to the staged copy, one below it does not (03 R97). With PHASE 0 and no flaw, poison or injection it changes nothing (03 R96). Where a row is read: at the overlay of its first column with the greatest edition not above the read edition, and at its base when there is none (03 R97). -/
def Obligations.CommitRowPublishesThroughAnOverlay : Prop :=
  (∀ (f : Frame) (s : State) (x : Nat), s.serves f 0x31 0 = true → f.frets = [x] → 1 ≤ f.g 6 8 0 → f.g 4 20 0 + f.g 6 8 0 ≤ fretCols →
       f.g 5 20 0 + f.g 6 8 0 ≤ fretCols →
       (bitOf (f.w 6) 12 = true → s.ovlCount x < 256 →
         ∃ t, exec (.commitRow f []) s = .next t ∧ t.hbm.cells = s.hbm.cells ∧ t.frets = s.frets ∧ t.cmds = s.cmds ∧
           t.hbm.overlays = s.hbm.overlays ++ [{ fret := x, base := f.g 5 20 0, stage := f.g 4 20 0, cols := f.g 6 8 0, first := 0, len := 32 * f.g 6 8 0,
                                                  edition := f.w 10 + f.w 11 * 2 ^ 32, owner := none }]) ∧
       (bitOf (f.w 6) 12 = false → s.armed (pSbc (stackOf x)) 2 = false → s.poisonedRow x (f.g 4 20 0 * 32) (f.g 6 8 0 * 32) = false →
         exec (.commitRow f []) s = .next s)) ∧
  (∀ (l : List Overlay) (f base e : Nat),
       (∀ o, findOverlay l f base e = some o → o ∈ l ∧ o.fret = f ∧ o.base = base ∧ o.edition ≤ e ∧
         ∀ p ∈ l, p.fret = f → p.base = base → p.edition ≤ e → p.edition ≤ o.edition) ∧
       (findOverlay l f base e = none → ∀ p ∈ l, p.fret = f → p.base = base → e < p.edition))

/-- `OVERLAY_FOLD` of an entry no running command reads below and whose fret is not being copied: the entry goes, its bytes stand in the base row, every other byte of HBM is unchanged, and the fold is counted in UPD_FOLDS; where none may fold nothing of HBM changes (03 R99, R109). Retention yields first where a stage waits for the overlay (08 R255, `yieldAll`). -/
def Obligations.FoldsMoveTheOverlayIntoItsBase : Prop :=
  ∀ (fret base : Nat) (s : State), Inv s →
    (s.yieldAll.foldable fret base = none → exec (.overlayFold fret base) s = .next s.yieldAll) ∧
    (∀ o, s.yieldAll.foldable fret base = some o →
      ∃ t, exec (.overlayFold fret base) s = .next t ∧ t.hbm.overlays = s.hbm.overlays.filter (· != o) ∧
        (∀ i, i < o.len → memGet t.hbm.cells (linOf o.fret (o.base * 32 + o.first) + i) = memGet s.hbm.cells (linOf o.fret (o.stage * 32 + o.first) + i)) ∧
        (∀ a, a < linOf o.fret (o.base * 32 + o.first) ∨ a ≥ linOf o.fret (o.base * 32 + o.first) + o.len → memGet t.hbm.cells a = memGet s.hbm.cells a) ∧
        t.counter (pUpd + 0x070) = (s.counter (pUpd + 0x070) + 1) % 2 ^ 64 ∧ t.cmds = s.cmds ∧ t.shards = s.yieldAll.shards ∧ t.regions = s.yieldAll.regions)

/-- An access beyond the aperture's size is not claimed and changes nothing; one to a domain that is being replaced, and one behind it, waits. A write through BAR4 that lies in one domain and on nothing fenced or confidential stores its bytes at the aperture's linear address and changes no other byte; a read answers the bytes that stand there (in the FTE area the bytes of the map's entries) and changes none; an access that is dropped is counted, sets SBC_ERR bit 7, reads all ones and stores nothing (03 R72, R104, R105, R106, R109, 11 R357, 14 R447). -/
def Obligations.Bar4ReachesLinearHbm : Prop :=
  ∀ (p : Port) (off : Nat) (s : State), Inv s → (s.port p).up = true → s.powered (3 + p.idx) = true →
    let lin := s.aptAddr p off
    let claimed := fun n => off + n ≤ (s.port p).bar4 * 2 ^ 30
    let waits := fun n => s.aptWaits p || (domainParts (n / fretBytes + 2) lin n).any fun q => s.sparingAt q.1
    (∀ x : ApertureAccess, ¬claimed (Access.size x.acc) → exec (.bar4Access p off x) s = .next s) ∧
    (∀ x : ApertureAccess, claimed (Access.size x.acc) → waits (Access.size x.acc) = true →
      exec (.bar4Access p off x) s = .next { s with sbc := { s.sbc with stalled := s.sbc.stalled ++ [.bar4Access p off x] } }) ∧
    (∀ d : List Byte, d ≠ [] → claimed d.length → waits d.length = false → s.aptDrop lin = false → s.aptDrop (lin + d.length - 1) = false → lin % fretBytes + d.length ≤ fretBytes →
      ∃ t, exec (.bar4Access p off ⟨.wr d, []⟩) s = .next t ∧ memRead t.hbm.cells lin d.length = d ∧
        (∀ a, a < lin ∨ a ≥ lin + d.length → memGet t.hbm.cells a = memGet s.hbm.cells a) ∧ t.cmds = s.cmds ∧ t.hbm.overlays = s.hbm.overlays ∧ t.reg = s.reg) ∧
    (∀ n : Nat, n ≠ 0 → claimed n → waits n = false → s.aptDrop lin = false → s.aptDrop (lin + n - 1) = false → lin % fretBytes + n ≤ fretBytes →
      s.armed (pSbc (stackOf (lin / fretBytes))) 1 = false → s.poisonedRow (lin / fretBytes) (lin % fretBytes) n = false →
      exec (.bar4Access p off ⟨.rd n, []⟩) s = .next (s.emit p (.answer 0 off (s.mapView (lin / fretBytes) (lin % fretBytes) (memRead s.hbm.cells lin n))))) ∧
    (s.aptDrop lin = true →
      let st := if lin ≥ nFrets * fretBytes then 0 else stackOf (lin / fretBytes)
      let t := (s.bump (pSbc st + 0x078) 1).raise (pSbc st) 7
      (∀ d : List Byte, d ≠ [] → claimed d.length → waits d.length = false → exec (.bar4Access p off ⟨.wr d, []⟩) s = .next t) ∧
      (∀ n : Nat, n ≠ 0 → claimed n → waits n = false → exec (.bar4Access p off ⟨.rd n, []⟩) s = .next (t.emit p (.answer 0 off (List.replicate n 0xFF)))) ∧ t.hbm = s.hbm ∧ t.cmds = s.cmds)

/-- What SBC does by itself: a temperature that does not enter the upper level is recorded with its level (85 °C doubles refresh, 95 °C adds idle cycles) and changes nothing else; a scrub pass that meets nothing changes nothing, one that meets a single error corrects and counts it; when a copy into a spare completes, its entry goes and the commands, peers' requests, frames and accesses that waited for it go on (03 R107, R109, 10 R344). -/
def Obligations.StacksLookAfterThemselves : Prop :=
  (∀ (stack temp : Nat) (s : State), stack < 12 → temp ≤ 255 → temp < 95 ∨ tgetD s.hbm.thermal stack 0 = 2 →
    exec (.stackThermal stack temp) s = .next { s with hbm := { s.hbm with temp := tset s.hbm.temp stack temp, tempMax := tset s.hbm.tempMax stack (max temp (tgetD s.hbm.tempMax stack 0)), thermal := tset s.hbm.thermal stack (if temp ≥ 95 then 2 else if temp ≥ 85 then 1 else 0) } }) ∧
  (∀ (stack : Nat) (s : State), exec (.patrolScrub stack []) s = .next s) ∧
  (∀ (stack : Nat) (fl : Flaw) (s : State), stack < 12 → bitOf (s.reg32 (pSbc stack + 0x100)) 13 = true → fl.kind = .single → stackOf fl.fret = stack →
    fl.fret < nFrets → fl.col < fretCols → s.hbm.deadDies.contains (dieOf fl.fret) = false →
    exec (.patrolScrub stack [fl]) s = .next (State.afterFence s (s.correct fl.fret fl.col 0 fl.symbol))) ∧
  (∀ (fret : Nat) (s : State) (x : Sparing), (s.hbm.sparing.find? fun y => y.fret == fret) = some x → x.reads = true →
    exec (.spareCopyDone fret) s =
      .next (((s.spareDone fret).cmds.filter fun c => c.phase == .run (.spare fret)).foldl (fun s c => s.run c.id) (s.spareDone fret)).poolAgain.reissueAll ∧
    (s.spareDone fret).hbm.sparing = s.hbm.sparing.filter (· != x))

/-! ## The Scoring Array (04) -/

/-- Courses are fenced and return: a request by CTL.FENCE on a course of a slice without a wave takes effect at once; a parity error fences its course at once; a self-test that passes lets the course rejoin, one that fails leaves it fenced; a request or an error fences no other course (04 R129 to R131). That a request on an idle slice takes effect at once is log entry 64. A wave boundary of a slice whose courses have no request and lose no domain: where no wave runs and no operation waits, none starts; with an operation waiting, a wave of it starts on every unfenced course of the slice, with its next tiles, as many as 04 R113, R119 and R122 allow, dealt over them (R120, R122). -/
def Obligations.CoursesFenceAndWavesRun : Prop :=
  ((∀ (a : Agent) (n p : Nat) (s : State), n < 16 → s.reaches a (pCourse n) = true → s.courseSlice n = some p → tget s.arr.wave p = none → bitOf s.arr.fenced n = false →
       ∃ t, exec (.courseFenceWrite a n true) s = .next t ∧ bitOf t.arr.fenced n = true ∧ (∀ k, k ≠ n → bitOf t.arr.fenced k = bitOf s.arr.fenced k) ∧
         t.arr.queue = s.arr.queue ∧ t.cmds = s.cmds ∧ t.hbm = s.hbm) ∧
     (∀ (n : Nat) (s : State), n < 16 → bitOf s.arr.fenced n = false → (∀ p, s.courseSlice n = some p → tget s.arr.wave p = none) →
       ∃ t, exec (.courseParityError n) s = .next t ∧ bitOf t.arr.fenced n = true ∧ tget t.arr.src n = some 2 ∧
         (∀ k, k ≠ n → bitOf t.arr.fenced k = bitOf s.arr.fenced k) ∧ t.cmds = s.cmds ∧ t.hbm = s.hbm) ∧
     (∀ (n : Nat) (s : State), n < 16 → bitOf s.arr.testing n = true →
       (∃ t, exec (.courseSelftestDone n true) s = .next t ∧ bitOf t.arr.testing n = false ∧ t.cmds = s.cmds ∧
         ((∀ p, s.courseSlice n = some p → tget s.arr.wave p = none) → tget s.arr.pendFence n = none → bitOf t.arr.fenced n = false)) ∧
       (∃ t, exec (.courseSelftestDone n false) s = .next t ∧ bitOf t.arr.testing n = false ∧ bitOf t.arr.fenced n = true ∧ t.cmds = s.cmds ∧ t.hbm = s.hbm))) ∧
  (∀ (p : Nat) (s : State), s.applyCourses (bitsOf 16 (s.courses p)) = s → s.leaveDomains = s → tget s.arr.wave p = none →
       ((∀ o ∈ s.arr.queue, o.part ≠ p) → exec (.waveBoundary p) s = .next s) ∧
       (∀ o credit, s.nextOp p 4096 = some (o, credit) → s.courseList p ≠ [] → s.classOf p 6 ≠ .held →
         ((s.courseList p).filter fun n => s.armed (pCourse n) 0) = [] →
         ∃ t, exec (.waveBoundary p) s = .next t ∧ t.cmds = s.cmds ∧ t.hbm = s.hbm ∧
           (let cs := s.courseList p
            let tiles := o.shape.waveTiles o.left cs.length (256 * fld (s.reg32 (pArr + 0x100)) 6 0)
            tget t.arr.wave p = some { o with deals := dealTiles ((List.range tiles).map (o.shape.tiles - o.left + ·)) cs (o.shape.share cs.length) false, courses := cs } ∧
            t.arr.queue = s.arr.queue.map fun q => if q == o then { q with left := q.left - tiles } else q)))

/-! ## Messages, collectives, barriers (12, 05, 13) -/

/-- Every row that receives a message: one of another TYPE changes nothing, one for another node is relayed, one whose end-to-end CRC fails is dropped and counted, a pair still kept is dropped and counted, and a request of an unknown epoch is answered with EPOCH_STALE and counted; none of these reaches a command, a collective or HBM (12 R392 to R399, 13 R412). -/
def Obligations.MessagesAreReceivedByRule : Prop :=
  ∀ row ∈ messageRows, ∀ (m : Msg) (s : State),
    (m.ty ≠ row.2 → msgTypes.contains m.ty = true → exec (row.1 m) s = .next s) ∧
    (m.ty = row.2 → m.dst ≠ s.node → exec (row.1 m) s = .next ((s.unbuffer m).relay m (s.lowOf m))) ∧
    (m.ty = row.2 → m.dst = s.node → m.e2eOk = false → ∃ t, exec (row.1 m) s = .next t ∧
      t.counter (pFab + 0x070) = (s.counter (pFab + 0x070) + 1) % 2 ^ 64 ∧ t.cmds = s.cmds ∧ t.col = s.col ∧ t.hbm = s.hbm ∧ t.fab.dup = s.fab.dup) ∧
    (m.ty = row.2 → m.dst = s.node → m.e2eOk = true → m.ni = true → s.seen m = true → ∃ t, exec (row.1 m) s = .next t ∧
      t.counter (pFab + 0x060) = (s.counter (pFab + 0x060) + 1) % 2 ^ 64 ∧ t.cmds = s.cmds ∧ t.col = s.col ∧ t.hbm = s.hbm ∧ t.fab.dup = s.fab.dup) ∧
    (m.ty = row.2 → m.dst = s.node → m.e2eOk = true → m.ni = false → s.epochIs m = .stale → ∃ t, exec (row.1 m) s = .next t ∧
      t.counter (pFab + 0x090) = (s.counter (pFab + 0x090) + 1) % 2 ^ 64 ∧ t.cmds = s.cmds ∧ t.col = s.col ∧ t.hbm = s.hbm ∧ t.fab.dup = s.fab.dup)

/-- Opening: a contributor whose parameters agree joins with the room its root grants; one that asks before the root's own command waits; one whose parameters differ is turned away and the collective ends at its root with BAD_FIELD 0x0103, or with EPOCH_STALE where the epochs differ (05 R162, R164, R165; that an early request waits is log entry 67). Data: the next message of a stream joins its block and is counted, any other changes nothing (05 R163). The end of a collective. A contributor whose root confirms goes on with what its blocks gave; one that gets its merged maxima keeps them, and goes on when it needs no value sums of its own; a root that has every contributor's value sums confirms to each and goes on with the total (05 R162, R166). An abort, or a wait beyond COL_CFG.TMO, ends the collective with its status on both sides and is counted; before the time is out nothing happens: the wait of a root for its contributors, of a contributor for its grant, and of a root for each stream since its last message (05 R165). -/
def Obligations.CollectivesGatherMergeAndEnd : Prop :=
  (∀ (m : Msg) (s r : State), s.receive m = (r, true) →
       (∀ k id rp count kk ties, m.ty = 0x10 → m.body = .collOpen id rp count kk ties → r.rootColl m = some k → k.find m.src = none →
         k.joiners.length < k.expected →
         (count = k.count → kk = k.k → ties = k.ties → m.epoch = k.epoch →
           let win := fld (r.reg32 (pCol + 0x100)) 6 0
           ∃ t, exec (.collOpen m) s = .next t ∧ t.cmds = r.cmds ∧ t.col = { r.col with open' := r.col.open'.map fun x => if x == k then
             { k with joiners := k.joiners ++ [{ node := m.src, txn := m.txn, granted := win, nextSeq := 0, blocks := [], complete := false, epoch := m.epoch, since := r.time.lctr }] } else x }) ∧
         (count ≠ k.count ∨ kk ≠ k.k ∨ ties ≠ k.ties → exec (.collOpen m) s =
           .next (State.failRoot ((((r.bump (pCol + 0x058) 1).raise pCol 1).refuseJoin k m stCancelled 0x0103).collTell k stCancelled 0x0103) k (some (stField, 0x0103)))) ∧
         (count = k.count → kk = k.k → ties = k.ties → m.epoch ≠ k.epoch → exec (.collOpen m) s =
           .next (State.failRoot ((((r.bump (pCol + 0x058) 1).raise pCol 1).refuseJoin k m stStale 0).collTell k stStale 0) k (some (stStale, 0))))) ∧
       (m.ty = 0x10 → m.fanout = false → r.rootColl m = none → exec (.collOpen m) s = .next { r with col := { r.col with early := r.col.early ++ [m] } }) ∧
       (∀ k j id q seq sum es, m.ty = 0x12 → m.body = .collData id q seq sum es → r.findColl id m.dstPart m.fanout true 0 = some k → k.find m.src = some j →
         (j.nextSeq ≠ seq ∨ j.complete = true → exec (.collData m) s = .next r) ∧
         (j.nextSeq = seq → j.complete = false → (j.take k.queries q sum es).complete = false →
           ∃ t, exec (.collData m) s = .next t ∧ t.cmds = r.cmds ∧ t.counter (pCol + 0x048) = (r.counter (pCol + 0x048) + es.length) % 2 ^ 64 ∧
             t.col.open' = r.col.open'.map fun x => if x == k then
               { k with joiners := k.joiners.map fun y => if y.node == j.node then { j.take k.queries q sum es with since := r.time.lctr } else y } else x)) ∧
       (∀ k id n, m.ty = 0x11 → m.body = .collGrant id n → r.memberColl m id = some k →
         { k with credit := k.credit + n, granted := true } ∉ r.col.open' →
         ∃ t, exec (.collGrant m) s = .next t ∧ t.cmds = r.cmds ∧ t.col.open' = r.col.open'.map fun x => if x == k then
           { k with unsent := k.unsent.drop (k.credit + n), credit := k.credit + n - k.unsent.length, granted := true } else x)) ∧
  ((∀ (m : Msg) (s r : State) (k : Coll) (c : Cmd) (id : Nat), s.receive m = (r, true) → k.cmd.bind r.cmd = some c →
       (∀ key, m.ty = 0x13 → m.body = .collDone id → r.memberColl m id = some k → c.collWait = some key →
         exec (.collDone m) s = .next ((r.delColl k).deliver c.id key ((tget c.got key).getD []))) ∧
       (∀ q mx ids, m.ty = 0x13 → m.body = .mergedM id q mx ids → r.memberColl m id = some k → c.vout = 0 →
         ∃ t, exec (.mergedMReturn m) s = .next t ∧ t.col = r.col ∧ t.hbm = r.hbm ∧
           ∀ d, t.cmd c.id = some d → tget d.got (mergedKey q) = some (leBytes 4 mx.toNat ++ leBytes 4 ids.length ++ (ids.map (leBytes 8)).flatten)) ∧
       (∀ q vals key own, m.ty = 0x12 → m.body = .valueSums id q vals → r.findColl id m.dstPart m.fanout true 0 = some k → c.phase = .run (.vals key own) →
         let k' := { k with vals := tset k.vals (m.src * 2 ^ 20 + q) vals, joiners := k.joiners.map fun x => if x.node == m.src then { x with since := r.time.lctr } else x }
         let u := (r.setColl k k').chargeFree k.part 10 (ceilDiv (bodySize m.body) 64)
         (k'.valsIn own.length = false → exec (.partialValueSums m) s = .next u) ∧
         (k'.valsIn own.length = true → exec (.partialValueSums m) s = .next ((u.valsDone k' own).1.deliver c.id key (valBytes (k'.addVals own))))) ∧
       (∀ st sub, m.ty = 0x14 → m.body = .collAbort id st sub → r.memberColl m id = some k →
         exec (.collAbort m) s = .next (goOn c.id (((r.delColl k).countEnd st sub).badPeers c st sub))) ∧
       (∀ st sub, m.ty = 0x14 → m.body = .collAbort id st sub → r.memberColl m id = none → r.findColl id m.dstPart m.fanout true 0 = some k →
         (k.find m.src).isSome = true →
         exec (.collAbort m) s = .next (if k.fanout then r.delColl k else (r.countEnd stCancelled 0x0102).endColl k stCancelled stCancelled 0x0102))) ∧
     (∀ (coll part : Nat) (s : State) (k : Coll),
       let tmo := fld (s.reg32 (pCol + 0x100)) 31 16 * 2 ^ 14
       ((∀ x ∈ s.col.open', x.id = coll → x.part = part → x.late (s.awaitsVals x) s.time.lctr tmo = false) → exec (.collectiveTimeout coll part) s = .next s) ∧
       (s.col.open' = [k] → k.id = coll → k.part = part → k.late (s.awaitsVals k) s.time.lctr tmo = true → k.cmd = none →
         ∃ t, exec (.collectiveTimeout coll part) s = .next t ∧ t.col.open' = [] ∧ t.counter (pCol + 0x050) = (s.counter (pCol + 0x050) + 1) % 2 ^ 64 ∧ t.hbm = s.hbm ∧ t.cmds = s.cmds)) ∧
     (∀ (k : Coll) (vals : Option Nat) (now tmo : Nat),
       (k.root = false → (k.late vals now tmo = true ↔ k.granted = false ∧ now ≥ k.since + tmo)) ∧
       (k.root = true → k.joiners.length < k.expected → now ≥ k.since + tmo → k.late vals now tmo = true) ∧
       (k.root = true → ∀ j ∈ k.joiners, j.complete = false → now ≥ j.since + tmo → k.late vals now tmo = true) ∧
       (now < k.since + tmo → (∀ j ∈ k.joiners, now < j.since + tmo) → k.late vals now tmo = false)))

/-- Barriers: an arrival that does not complete its barrier is noted, one before the root's own waits; the one that completes it releases every member and the root's command; one that names other parameters ends it. A member goes on as its release says; a root that has waited TMO releases every member with the time-out, counted; so are early arrivals whose root never comes (13 R418, R419; that an early arrival waits is log entry 67, from when TMO runs log entry 205). -/
def Obligations.BarriersReleaseTogetherOrTimeOut : Prop :=
  (∀ (m : Msg) (s r : State) (id parts : Nat), s.receive m = (r, true) → m.ty = 0x18 → m.body = .barArrive id parts →
    ((r.col.bars.find? fun b => b.root && b.wants m) = none →
      exec (.barArrive m) s = .next { r with col := { r.col with early := r.col.early ++ [m], barFirst := if (r.col.barFirst.any fun e => e.1 == id) = true then r.col.barFirst else r.col.barFirst ++ [(id, r.time.lctr)] } }) ∧
    (∀ b, (r.col.bars.find? fun b => b.root && b.wants m) = some b → m.epoch = b.epoch →
      let b' := { b with arrived := b.arrived ++ [(m.src, m.txn)] }
      (parts = b.parts → b'.arrived.length < b.parts → exec (.barArrive m) s = .next (r.setBar b b')) ∧
      (parts = b.parts → (b'.arrived.any fun a => a.1 == r.node) = true → b'.arrived.length ≥ b.parts →
        exec (.barArrive m) s = .next (((((r.setBar b b').barTell b' m.src 0).bump (pCol + 0x070) 1).noteLast m.src b.parts).barDone b' 0)) ∧
      (parts ≠ b.parts → exec (.barArrive m) s = .next (((r.setBar b b').barTell b' m.src 2).barDone b' 2)))) ∧
  (∀ (m : Msg) (s r : State) (id last status : Nat) (b : Barrier), s.receive m = (r, true) → m.ty = 0x19 → m.body = .barRelease id last status →
    (r.col.bars.find? fun b => !b.root && b.id == id && b.rootNode == m.src) = some b →
    (status = 0 → exec (.barRelease m) s = .next ((((r.delBar b).bump (pCol + 0x068) 1).noteLast last b.parts).barDone b 0)) ∧
    (status = 1 → exec (.barRelease m) s = .next (((r.delBar b).bump (pCol + 0x078) 1).barDone b 1))) ∧
  (∀ (bar : Nat) (s : State),
    ((∀ b ∈ s.col.bars, b.root = true → b.id = bar → s.time.lctr < b.since + fld (s.reg32 (pCol + 0x140)) 31 16 * 2 ^ 14) →
      (∀ e ∈ s.col.barFirst, e.1 = bar → s.time.lctr < e.2 + fld (s.reg32 (pCol + 0x140)) 31 16 * 2 ^ 14) → exec (.barrierTimeout bar) s = .next s) ∧
    (s.col.bars = [] → s.col.early = [] → (∃ e ∈ s.col.barFirst, e.1 = bar ∧ s.time.lctr ≥ e.2 + fld (s.reg32 (pCol + 0x140)) 31 16 * 2 ^ 14) →
      ∃ t, exec (.barrierTimeout bar) s = .next t ∧ (∀ e ∈ t.col.barFirst, e.1 ≠ bar) ∧ t.counter (pCol + 0x078) = (s.counter (pCol + 0x078) + 1) % 2 ^ 64 ∧ t.cmds = s.cmds ∧ t.hbm = s.hbm) ∧
    (∀ b, s.col.bars = [b] → b.root = true → b.id = bar → s.time.lctr ≥ b.since + fld (s.reg32 (pCol + 0x140)) 31 16 * 2 ^ 14 → b.cmd = none →
      ∃ t, exec (.barrierTimeout bar) s = .next t ∧ t.col.bars = [] ∧ t.counter (pCol + 0x078) = (s.counter (pCol + 0x078) + 1) % 2 ^ 64 ∧ t.cmds = s.cmds ∧ t.hbm = s.hbm))

/-! ## Links (12) -/

/-- Link-up: a hello whose version both ends support and whose node ID is valid brings a trained link up at that version, with SEQ 0, empty replay buffer and full credits; a node ID conflict or a version failure leaves it DOWN and sets FAB_ERR bit 0 or 1, a peer of unknown kind leaves it DOWN; a retraining link comes up with its new width and keeps its sequence numbers (12 R386, R387, R389). Retrain: three replays without progress retrain; a failed lane narrows the link or, below MIN_LANES, takes it down; a retrain that is not done within 40 µs leaves it DOWN; a quarantined link is tried again at the end of its back-off, not before; a flap window without a retrain sets the exponent back (12 R384, R388, R389, R391). -/
def Obligations.LinksTrainRetrainAndBackOff : Prop :=
  ∀ (link : Nat) (s : State), link < 24 →
    let x := s.link link
    (∀ h : Hello, s.linkOn link = true → x.st ≠ .up → x.st ≠ .quarantined →
      (x.retrainAt = none → h.kind ≤ 2 → s.node = 0xFFF ∨ h.node = 0xFFF ∨ h.node = s.node → exec (.hello link h) s = .next ((s.stayDown link).raise pFab 0)) ∧
      (x.retrainAt = none → h.kind > 2 → exec (.hello link h) s = .next (s.stayDown link)) ∧
      (x.st = .training → ((s.stayDown link).link link).st = .down) ∧ (x.st ≠ .training → s.stayDown link = s) ∧
      (x.retrainAt = none → h.kind ≤ 2 → s.node ≠ 0xFFF → h.node ≠ 0xFFF → h.node ≠ s.node →
        (agreed h = none → exec (.hello link h) s = .next ((s.stayDown link).raise pFab 1)) ∧
        (∀ v, agreed h = some v → h.lo ≤ v ∧ v ≤ h.hi ∧ (v = 0x21 ∨ v = 0x20 ∨ v = 0x13) ∧
          ∃ t, exec (.hello link h) s = .next t ∧ (t.link link).st = .up ∧ (t.link link).ver = v ∧ (t.link link).peer = h.node ∧ (t.link link).seqTx = 0 ∧
            (t.link link).rxNext = 0 ∧ (t.link link).replay = [] ∧ (t.link link).queue = [] ∧ (t.link link).credits = LinkSt.reset.credits ∧ t.cmds = s.cmds ∧ t.hbm = s.hbm)) ∧
      (x.retrainAt ≠ none → x.replay = [] → x.queue = [] →
        ∃ t, exec (.hello link h) s = .next t ∧ (t.link link).st = .up ∧ (t.link link).retrainAt = none ∧ (t.link link).laneMask = x.nextLanes ∧
          (t.link link).seqTx = x.seqTx ∧ (t.link link).rxNext = x.rxNext ∧ (t.link link).credits = x.credits ∧ t.cmds = s.cmds)) ∧
    (x.replay = [] ∨ s.time.lctr < x.lastAck + 1000 → exec (.replayTimeout link) s = .next s) ∧
    (x.st = .up → x.replay ≠ [] → s.time.lctr ≥ x.lastAck + 1000 → x.tries ≥ 3 → exec (.replayTimeout link) s = .next (s.retrain link x.laneMask)) ∧
    (x.st = .up → x.replay ≠ [] → s.time.lctr ≥ x.lastAck + 1000 → x.tries < 3 →
      ∃ t, exec (.replayTimeout link) s = .next t ∧ (t.link link).replay = x.replay ∧ (t.link link).tries = x.tries + 1 ∧
        (t.link link).wire.length = x.wire.length + x.replay.length ∧ t.counter (pLink link + 0x060) = (s.counter (pLink link + 0x060) + 1) % 2 ^ 64) ∧
    (∀ lane, lane < 4 → x.st = .up → bitOf x.laneMask lane = true →
      (popCount 4 (narrower x.laneMask lane) < s.minLanes link → x.unsent = [] →
        ∃ t, exec (.laneFail link lane) s = .next t ∧ (t.link link).st = .down ∧ (t.link link).partials = [] ∧ t.cmds = s.cmds) ∧
      (narrower x.laneMask lane ≠ 0 → popCount 4 (narrower x.laneMask lane) ≥ s.minLanes link → fld (s.reg32 (pFab + 0x10C)) 7 0 = 0 →
        ∃ t, exec (.laneFail link lane) s = .next t ∧ (t.link link).st = .training ∧ (t.link link).nextLanes = narrower x.laneMask lane ∧
          (t.link link).replay = x.replay ∧ (t.link link).seqTx = x.seqTx ∧ t.counter (pLink link + 0x070) = (s.counter (pLink link + 0x070) + 1) % 2 ^ 64)) ∧
    (∀ at', x.retrainAt = some at' → x.st = .training →
      (s.time.lctr < at' + 4000 → exec (.retrainTimeout link) s = .next s) ∧
      (s.time.lctr ≥ at' + 4000 → x.unsent = [] → ∃ t, exec (.retrainTimeout link) s = .next t ∧ (t.link link).st = .down ∧ (t.link link).retrainAt = none)) ∧
    (∀ ok, x.st = .quarantined →
      (s.time.lctr < x.quarEnd → exec (.quarantineRetry link ok) s = .next s) ∧
      (s.time.lctr ≥ x.quarEnd → ∃ t, exec (.quarantineRetry link ok) s = .next t ∧ (t.link link).st = (if ok then .training else .down) ∧ (t.link link).shift = x.shift ∧ t.cmds = s.cmds)) ∧
    (x.st = .up → x.quarAt ≠ 0 → s.time.lctr ≥ max (maxList x.retrains) x.quarAt + s.reg32 (pFab + 0x110) * 2 ^ 10 →
      exec (.flapWindowEnd link) s = .next (s.setLink link { x with shift := 0, quarAt := 0 })) ∧
    (s.time.lctr < max (maxList x.retrains) x.quarAt + s.reg32 (pFab + 0x110) * 2 ^ 10 → exec (.flapWindowEnd link) s = .next s)

/-- Flits are taken in their order: on a link that is up, one whose CRC fails or whose codeword cannot be corrected is discarded and a retry asked for; a data flit out of turn is discarded; the one in turn joins the message of its channel and advances the expected number, and its last flit completes the message (12 R383, R384). -/
def Obligations.FlitsAreTakenInOrder : Prop :=
  ∀ (link : Nat) (flit : List Byte) (fec : Fec) (s : State), link < 24 →
    let x := s.link link
    let h := le32 flit 0
    (x.st ≠ .up ∨ flit.length ≠ 256 → exec (.flitReceive link flit fec) s = .next s) ∧
    (x.st = .up → flit.length = 256 → fec.uncorr = true ∨ crc32c (slice flit 0 252) ≠ le32 flit 252 →
      ∃ t, exec (.flitReceive link flit fec) s = .next t ∧ (t.link link).asked = true ∧ (t.link link).rxNext = x.rxNext ∧ (t.link link).inbox = x.inbox ∧
        (t.link link).partials = x.partials ∧ (t.link link).replay = x.replay ∧ t.cmds = s.cmds) ∧
    (x.st = .up → flit.length = 256 → fec.uncorr = false → crc32c (slice flit 0 252) = le32 flit 252 → bitOf h 5 = false →
      ∃ t, exec (.flitReceive link flit fec) s = .next t ∧ t.cmds = s.cmds ∧
        (fld h 15 6 ≠ x.rxNext → (t.link link).rxNext = x.rxNext ∧ (t.link link).inbox = x.inbox ∧ (t.link link).partials = x.partials) ∧
        (fld h 15 6 = x.rxNext → (t.link link).rxNext = (x.rxNext + 1) % 1024 ∧ (t.link link).asked = false ∧
          t.counter (pLink link + 0x048) = (s.counter (pLink link + 0x048) + 1) % 2 ^ 64 ∧
          let all := (if bitOf h 3 then [] else tgetD x.partials (fld h 2 0) []) ++ slice flit 4 248
          (bitOf h 4 = true → (t.link link).inbox = x.inbox ++ [(fld h 2 0, all)] ∧ tget (t.link link).partials (fld h 2 0) = none) ∧
          (bitOf h 4 = false → (t.link link).inbox = x.inbox ∧ tget (t.link link).partials (fld h 2 0) = some all)))

/-! ## Pool memory and forwarded work (12, 08, 07) -/

/-- The exporter serves a pool request through the window it falls in. Outside every window it is refused with reason 2, for a partition not in service with reason 3; one its capo holds is refused as busy and counted, and changes no memory; one to a domain that is being replaced, or a read without return space, waits. A write that is served puts its bytes at the window's place and no others and is acknowledged; a read is answered with the bytes read (12 R402, R403, 10 R343, 03 R109). That a read HBM cannot give is not answered is log entry 66. -/
def Obligations.PoolRequestsAreServedThroughWindows : Prop :=
  ∀ (m : Msg) (s r : State) (row : Msg → Instr), s.receive m = (r, true) → (row = .poolRd ∧ m.ty = 0x01) ∨ (row = .poolWr ∧ m.ty = 0x03) →
    (r.windowFor m = none → exec (row m) s = .next (r.refuseMsg m 2)) ∧
    (∀ w, r.windowFor m = some w →
      let part := w.getD 5 0
      let n := max 1 (ceilDiv (bodySize m.body) 64)
      (r.fabricPart part = false → exec (row m) s = .next (r.refuseMsg m 3)) ∧
      (r.fabricPart part = true → r.classOf part 10 = .held →
        ∃ u, exec (row m) s = .next u ∧ u = ((((r.bump (pCapo part + 0x0A8) n).bump (pCapo part + 0x0B0) 1).raiseAt (pCapo part) 0 (partAttr part)).refuseMsg m 1) ∧
          u.hbm = r.hbm ∧ u.cmds = r.cmds) ∧
      (∀ u, r.fabricPart part = true → r.police m part = (u, true) →
        let f := (windowPlace w (m.addr % 2 ^ 52)).1
        let o := (windowPlace w (m.addr % 2 ^ 52)).2
        let later : State := { u with fab := { u.fab with waitHbm := u.fab.waitHbm ++ [m] } }
        (u.sparingAt f = true → exec (row m) s = .next later) ∧
        (u.sparingAt f = false → m.ty = 0x01 →
          (∀ d, u.plainRow f o m.arg = .ok d → exec (.poolRd m) s = .next (u.sendMsg { u.reply m 0x02 0 (.bytes d) with epoch := 0, srcPart := part })) ∧
          (∀ why, u.plainRow f o m.arg = .error (.wait why) → exec (.poolRd m) s = .next later) ∧
          (∀ e, u.plainRow f o m.arg = .error e → (∀ why, e ≠ .wait why) → exec (.poolRd m) s = .next u)) ∧
        (u.sparingAt f = false → m.ty = 0x03 → ∀ d, m.body = .bytes d → Inv r →
          ∃ t, exec (.poolWr m) s = .next t ∧ t = (u.hbmWrite f o 0 d).putMsg { u.reply m 0x04 0 .empty with epoch := 0, srcPart := part } ∧
            memRead t.hbm.cells (linOf f o) d.length = d ∧
            (∀ a, a < linOf f o ∨ a ≥ linOf f o + d.length → memGet t.hbm.cells a = memGet r.hbm.cells a) ∧ t.cmds = r.cmds)))

/-- The requester. Data of a pool read reach the command that asked, charged to its partition and counted; an acknowledgement lets its write go on; an answer to no request changes nothing. A refusal is counted; one as busy is sent again after its wait, doubled each time, and before that reaches nothing; one beyond the limit, or for another reason, ends the request. A request that is sent again for being busy takes a new pair where it must not be served twice (`renew`); a pool request without an answer within TMO is tried once on another route where there is one, and otherwise is lost (12 R396, R397, R404). A kept pair leaves the table when its time is over, and only then (12 R396). -/
def Obligations.PoolAnswersReachTheirCommand : Prop :=
  (∀ (m : Msg) (s r : State), s.receive m = (r, true) →
    (m.ty = 0x02 →
      (∀ q d, m.body = .bytes d → r.answered m 0x01 = some q →
        exec (.poolData m) s = .next (((((r.dropReq q.txn).chargeFree q.part 10 (ceilDiv d.length 64)).bumps [(pGcu + 0x088, d.length)]).deliver q.cmd q.key (slice d 0 q.len)).poolNext)) ∧
      (r.answered m 0x01 = none → exec (.poolData m) s = .next r)) ∧
    (m.ty = 0x04 →
      (∀ q, r.answered m 0x03 = some q → exec (.poolAck m) s = .next (((r.dropReq q.txn).deliver q.cmd q.key []).poolNext)) ∧
      (r.answered m 0x03 = none → exec (.poolAck m) s = .next r)) ∧
    (m.ty = 0x05 →
      let u := r.bump (pFab + 0x080) 1
      let most := fld (r.reg32 (pFab + 0x100)) 19 16
      (∀ q, r.req m.txn = some q →
        (m.arg = 1 → q.refusals + 1 ≤ most →
          exec (.refuse m) s = .next (u.setReq { q with refusals := q.refusals + 1, waitTo := some (r.time.lctr + 100 * fld (r.reg32 (pFab + 0x100)) 15 0 * 2 ^ q.refusals) })) ∧
        (m.arg = 1 → q.refusals + 1 > most → exec (.refuse m) s = .next (u.unreachable q.msg)) ∧
        (m.arg = 2 → poolTypes q.msg = true → exec (.refuse m) s = .next (u.losePool q)) ∧
        (m.arg ≠ 1 → m.arg ≠ 2 ∨ poolTypes q.msg = false → exec (.refuse m) s = .next (u.unreachable q.msg))) ∧
      (r.req m.txn = none → (∀ x ∈ r.fab.sent, x.txn = m.txn → x.ty ≠ 0x37) → exec (.refuse m) s = .next u))) ∧
  (∀ (txn : Nat) (s : State), s.req txn = none → exec (.refuseResend txn) s = .next s ∧ exec (.poolTimeout txn) s = .next s) ∧
  (∀ (txn : Nat) (s : State) (q : Req), s.req txn = some q →
    (q.waitTo = none ∨ (∃ w, q.waitTo = some w ∧ s.time.lctr < w) → exec (.refuseResend txn) s = .next s) ∧
    (∀ w, q.waitTo = some w → s.time.lctr ≥ w →
      let y := s.renew { q with waitTo := none, at' := s.time.lctr }
      let x := y.2.trySend y.1.msg y.1.low
      exec (.refuseResend txn) s = .next (if x.2 then x.1 else y.2.unreachable y.1.msg)) ∧
    (let tmo := fld (s.reg32 (pFab + 0x118)) 31 16 * 2 ^ 14
     let was := (s.fab.sent.reverse.find? fun x => x.txn == txn && x.ty == q.msg.ty).elim 31 (·.link)
     (poolTypes q.msg = false ∨ q.waitTo ≠ none ∨ s.time.lctr < q.at' + tmo → exec (.poolTimeout txn) s = .next s) ∧
     (poolTypes q.msg = true → q.waitTo = none → s.time.lctr ≥ q.at' + tmo → q.resent = false → s.otherRoute q.msg q.low was = true →
       exec (.poolTimeout txn) s = .next ((s.trySendNot q.msg q.low was).1.setReq { q with resent := true, at' := s.time.lctr })) ∧
     (poolTypes q.msg = true → q.waitTo = none → s.time.lctr ≥ q.at' + tmo → q.resent = true ∨ s.otherRoute q.msg q.low was = false →
       exec (.poolTimeout txn) s = .next ((s.raise pFab 3).losePool q)))) ∧
  (∀ (src txn : Nat) (s : State), ∃ t, exec (.dupPairExpiry src txn) s = .next t ∧ t = { s with fab := { s.fab with dup := t.fab.dup } } ∧
    ∀ d, d ∈ t.fab.dup ↔ d ∈ s.fab.dup ∧ ¬(d.1 = src ∧ d.2.1 = txn ∧ s.time.lctr ≥ d.2.2 + 2 ^ 20))

/-- Forwarded work: a request for a shard this partition does not own is refused with reason 3; one that is owned and not held becomes a command of the partition (07 R250, 08 R278). At the origin, the owner's acceptance is noted, its result reaches the command that waits for it (a search's with the blocks that came before it), and EPOCH_STALE admits a search again, stages an update again, or makes a collective stale (08 R279, R280, 13 R415). -/
def Obligations.ForwardedWorkReachesItsOwnerAndOrigin : Prop :=
  ∀ (m : Msg) (s r : State), s.receive m = (r, true) →
    (∀ num dw q, m.ty = 0x20 → m.body = .search num dw q →
      (r.fabricPart m.dstPart = false ∨ r.ownsShard num m.dstPart m.epoch = false → exec (.searchReq m) s = .next (r.refuseMsg m 3)) ∧
      (∀ u, r.fabricPart m.dstPart = true → r.ownsShard num m.dstPart m.epoch = true → r.police m m.dstPart = (u, true) →
        exec (.searchReq m) s = .next (u.takeForward m dw q))) ∧
    (∀ num dw q, m.ty = 0x21 → m.body = .update num dw q →
      (r.fabricPart m.dstPart = false ∨ (∀ n ∈ updateShards dw q, r.ownsShard n m.dstPart m.epoch = false) → exec (.updateReq m) s = .next (r.refuseMsg m 3)) ∧
      (∀ u, r.fabricPart m.dstPart = true → (∃ n ∈ updateShards dw q, r.ownsShard n m.dstPart m.epoch = true) → r.police m m.dstPart = (u, true) →
        exec (.updateReq m) s = .next (u.takeForward m dw q))) ∧
    (∀ q, m.ty = 0x22 → r.answered m 0x21 = some q → exec (.fwdAccept m) s = .next (r.setReq { q with accepted := true })) ∧
    (m.ty = 0x22 → r.answered m 0x21 = none → exec (.fwdAccept m) s = .next r) ∧
    (∀ st sub n res e out q, m.ty = 0x23 → m.body = .fwdResult st sub n res e out → r.answered m 0x21 = some q →
      let u := r.chargeFree m.dstPart 10 (ceilDiv (bodySize m.body) 64)
      exec (.fwdResult m) s = .next ((u.dropReq q.txn).deliver q.cmd q.key (OwnerAns.bytes { status := st, sub := sub, counter := n, result := res, edition := e, out := out }))) ∧
    (∀ st sub n res e out q, m.ty = 0x23 → m.body = .fwdResult st sub n res e out → r.answered m 0x21 = none → r.answered m 0x20 = some q →
      let u := r.chargeFree m.dstPart 10 (ceilDiv (bodySize m.body) 64)
      let k := u.col.open'.find? fun k => k.root && k.fanout && k.id == q.txn
      exec (.fwdResult m) s = .next (((k.elim u u.delColl).dropReq q.txn).deliver q.cmd q.key
        (OwnerAns.bytes { status := st, sub := sub, counter := n, result := res, edition := e, out := k.elim [] fanBytes ++ out }))) ∧
    (m.ty = 0x28 → r.req m.txn = none → exec (.epochStale m) s = .next r) ∧
    (∀ q c, m.ty = 0x28 → r.req m.txn = some q → (r.dropReq q.txn).cmd q.cmd = some c →
      (q.msg.ty = 0x20 → exec (.epochStale m) s = .next (((r.dropReq q.txn).bump (pGwe + 0x0A0) 1).readmit c)) ∧
      (q.msg.ty = 0x21 → exec (.epochStale m) s = .next ((r.dropReq q.txn).restage c q.key)) ∧
      (q.msg.ty = 0x10 → exec (.epochStale m) s = .next (goOn c.id (((r.dropReq q.txn).countEnd stStale 0).badPeers c stStale 0))))

/-! ## Composition and resilience (13) -/

/-- Loading a map leaves the current one: the load's result is the first check that fails, and only an image that passes is held; one already prepared stays (13 R407; the last is log entry 73). Preparing: a member that holds another epoch prepared or draining, or has not loaded the image asked for, answers 1; one that refuses the change answers 2; else it is prepared and answers 0 (13 R410, R411). Activation swaps the maps, the old one draining; an abort drops the prepared epoch; a query is answered with what was decided (13 R410, R414; ABORT on the coordinator of an undecided change ends it, log entry 206). The coordinator: GO without a loaded image of this coordinator is an error, while a change is under way it waits; an answer that refuses aborts the change at every member; one that is missing leaves it open until PREP_TMO; the change ends when every member has retired its old epoch (13 R410, R414). -/
def Obligations.CompositionChangesInTwoPhases : Prop :=
  ((∀ (a : Agent) (image : Option (List Byte)) (s : State),
       (s.reaches a (pCmp + 0x114) = false ∨ s.cmp.prepared = true → exec (.mapLoad a image) s = .next s) ∧
       (s.reaches a (pCmp + 0x114) = true → s.cmp.prepared = false → ∃ t, exec (.mapLoad a image) s = .next t ∧ t.cmp.result = s.mapResult image ∧
         (s.mapResult image = 1 → image = some t.cmp.loaded) ∧ (s.mapResult image ≠ 1 → t.cmp.loaded = []) ∧ t.cmp.cur = s.cmp.cur ∧ t.cmp.draining = s.cmp.draining ∧
         t.cmds = s.cmds ∧ t.shards = s.shards ∧ t.hbm = s.hbm)) ∧
     (∀ (m : Msg) (s r : State) (e crc x : Nat), s.receive m = (r, true) → m.body = .comp e crc x →
       (m.ty = 0x30 → r.cmp.prepared = true ∨ r.cmp.draining ≠ [] ∨ r.cmp.loaded = [] ∨ mapEpoch r.cmp.loaded ≠ e ∨ le32 r.cmp.loaded 8 ≠ crc ∨ r.cmp.dropped = e →
         exec (.compPrepare m) s = .next (r.putMsg (r.reply m 0x31 0 (.comp e 0 1)))) ∧
       (m.ty = 0x30 → r.cmp.prepared = false → r.cmp.draining = [] → r.cmp.loaded ≠ [] → mapEpoch r.cmp.loaded = e → le32 r.cmp.loaded 8 = crc → r.cmp.dropped ≠ e →
         (r.mapRefused r.cmp.loaded = true → exec (.compPrepare m) s = .next ((r.raise pCmp 1).putMsg ((r.raise pCmp 1).reply m 0x31 0 (.comp e 0 2)))) ∧
         (r.mapRefused r.cmp.loaded = false → ∃ t, exec (.compPrepare m) s = .next t ∧ t.cmp = { r.cmp with prepared := true, prepAt := r.time.lctr } ∧ t.cmds = r.cmds)) ∧
       (m.ty = 0x32 → r.cmp.prepared = false ∨ mapEpoch r.cmp.loaded ≠ e → exec (.compActivate m) s = .next r) ∧
       (m.ty = 0x32 → r.cmp.prepared = true → mapEpoch r.cmp.loaded = e → r.pwr.stage ≠ some 4 → r.shards = [] → r.col.open' = [] → r.col.bars = [] → r.fab.waitEpoch = [] →
         ∃ t, exec (.compActivate m) s = .next t ∧ t.cmp.cur = r.cmp.loaded ∧ t.cmp.loaded = [] ∧ t.cmp.prepared = false ∧ t.cmp.draining = r.cmp.cur ∧
           t.counter (pCmp + 0x040) = (r.counter (pCmp + 0x040) + 1) % 2 ^ 64 ∧ t.cmds = r.cmds) ∧
       (m.ty = 0x35 → r.cmp.prepared = true → mapEpoch r.cmp.loaded = e → r.fab.waitEpoch = [] →
         ∃ t, exec (.compAbort m) s = .next t ∧ t = { r with cmp := { r.cmp with prepared := false }, fab := t.fab } ∧ t.fab.waitEpoch = []) ∧
       (m.ty = 0x35 → r.cmp.prepared = false ∨ mapEpoch r.cmp.loaded ≠ e → exec (.compAbort m) s = .next r) ∧
       (m.ty = 0x36 → (∃ g, r.cmp.change = some g ∧ g.epoch = e ∧ g.activated = false) → exec (.compQuery m) s = .next r) ∧
       (m.ty = 0x36 → r.cmp.change = none → exec (.compQuery m) s = .next (r.putMsg (r.reply m (if r.epoch = e then 0x32 else 0x35) 0 (.comp e 0 0))))) ∧
     (∀ (a : Agent) (s : State), s.reaches a (pCmp + 0x114) = true →
       (s.cmp.prepared = false → exec (.abort a) s = .next s) ∧
       (s.cmp.prepared = true → (∃ g, s.cmp.change = some g ∧ g.activated = false) →
         exec (.abort a) s = .next (State.abortChange { s with cmp := { s.cmp with dropped := mapEpoch s.cmp.loaded } })) ∧
       (s.cmp.prepared = true → (∀ g, s.cmp.change = some g → g.activated = true) → s.fab.waitEpoch = [] → ∃ t, exec (.abort a) s = .next t ∧ t.cmp = { s.cmp with prepared := false, dropped := mapEpoch s.cmp.loaded } ∧ t.cmds = s.cmds))) ∧
  ((∀ (a : Agent) (s : State), s.reaches a (pCmp + 0x114) = true →
       (s.cmp.loaded = [] ∨ mapCoord s.cmp.loaded ≠ s.node ∨ s.cmp.prepared = true → exec (.go a) s = .next (s.raise pCmp 8)) ∧
       (s.cmp.loaded ≠ [] → mapCoord s.cmp.loaded = s.node → s.pwr.stage = some 5 → s.cmp.prepared = false → s.cmp.draining ≠ [] →
         exec (.go a) s = .next { s with cmp := { s.cmp with pendingGo := true } }) ∧
       (s.cmp.loaded ≠ [] → mapCoord s.cmp.loaded = s.node → s.pwr.stage = some 5 → s.cmp.prepared = false → s.cmp.draining = [] → s.cmp.change = none →
         s.changeMembers = [s.node] → s.mapRefused s.cmp.loaded = true →
         ∃ t, exec (.go a) s = .next t ∧ t.cmp.cur = s.cmp.cur ∧ t.cmp.prepared = false ∧ t.counter (pCmp + 0x048) = (s.counter (pCmp + 0x048) + 1) % 2 ^ 64 ∧ t.cmds = s.cmds)) ∧
     (∀ (m : Msg) (s r : State) (g : Change), s.receive m = (r, true) → r.cmp.change = some g →
       (∀ x res, m.ty = 0x31 → m.body = .comp g.epoch x res → g.activated = false → m.src ∈ g.members →
         (res ≠ 0 → r.fab.waitEpoch = [] → ∃ t, exec (.compReady m) s = .next t ∧ t.cmp.change = none ∧ t.cmp.prepared = false ∧ t.cmp.cur = r.cmp.cur ∧
           t.counter (pCmp + 0x048) = (r.counter (pCmp + 0x048) + 1) % 2 ^ 64 ∧ t.cmds = r.cmds) ∧
         (res = 0 → (∀ y ∈ g.ready, y.2 = 0) → (∃ n ∈ g.members, n ≠ m.src ∧ ∀ y ∈ g.ready, y.1 ≠ n) →
           exec (.compReady m) s = .next { r with cmp := { r.cmp with change := some { g with ready := (g.ready.filter fun y => y.1 != m.src) ++ [(m.src, 0)] } } })) ∧
       (m.ty = 0x31 → g.activated = true → ∀ e x res, m.body = .comp e x res → exec (.compReady m) s = .next r) ∧
       (m.ty = 0x33 → ∃ t g', exec (.compActive m) s = .next t ∧ t = { r with cmp := { r.cmp with change := some g' } } ∧ g' = { g with active := g'.active } ∧ ∀ n, n ∈ g'.active ↔ n = m.src ∨ n ∈ g.active) ∧
       (m.ty = 0x34 → (∃ n ∈ g.members, n ≠ m.src ∧ n ∉ g.retired) →
         ∃ t g', exec (.compRetired m) s = .next t ∧ t = { r with cmp := { r.cmp with change := some g' } } ∧ g' = { g with retired := g'.retired } ∧ ∀ n, n ∈ g'.retired ↔ n = m.src ∨ n ∈ g.retired) ∧
       (m.ty = 0x34 → g.activated = true → (∀ n ∈ g.members, n = m.src ∨ n ∈ g.retired) → r.cmp.pendingGo = false →
         exec (.compRetired m) s = .next { r with cmp := { r.cmp with change := none } })) ∧
     (∀ (s : State) (g : Change),
       (s.cmp.change = some g → g.activated = true ∨ s.time.lctr < g.since + fld (s.reg32 (pCmp + 0x108)) 15 8 * 2 ^ 17 → exec .prepTmo s = .next s) ∧
       (s.cmp.change = some g → g.activated = false → s.time.lctr ≥ g.since + fld (s.reg32 (pCmp + 0x108)) 15 8 * 2 ^ 17 → s.fab.waitEpoch = [] →
         ∃ t, exec .prepTmo s = .next t ∧ t.cmp.change = none ∧ t.cmp.prepared = false ∧ t.cmp.cur = s.cmp.cur ∧ t.cmds = s.cmds) ∧
       (s.cmp.draining = [] ∨ (∃ c ∈ s.cmds, c.epoch = mapEpoch s.cmp.draining ∧ s.onFabric c = true) → exec .epochRetire s = .next s) ∧
       (s.cmp.draining ≠ [] → (∀ c ∈ s.cmds, c.epoch ≠ mapEpoch s.cmp.draining ∨ s.onFabric c = false) → s.cmp.change = none → s.cmp.pendingGo = false →
         ∃ t, exec .epochRetire s = .next t ∧ t.cmp = { s.cmp with draining := [] } ∧ t.cmds = s.cmds) ∧
       (s.time.lctr < s.cmp.drainAt + fld (s.reg32 (pCmp + 0x108)) 31 16 * 2 ^ 14 → exec .drainTmo s = .next s) ∧
       (s.time.lctr ≥ s.cmp.drainAt + fld (s.reg32 (pCmp + 0x108)) 31 16 * 2 ^ 14 → s.cmp.finalWait = [] → s.cmp.change = none → s.cmp.pendingGo = false →
         ∃ t, exec .drainTmo s = .next t ∧ t.cmp = { s.cmp with draining := [] } ∧ t.cmds = s.cmds)))

/-- Log and shadows between nodes: an owner refuses records of a shard it does not own; a reader takes the parts of a record in turn, and nothing for a shard it does not follow; a copy at a shadow becomes a command of its partition; its result at the owner counts, moves the run of good overlaps and the readiness by the ratio of CMP_SHADOW_CFG, and ends the copy, as does a time-out without counting; READY reaches the shadow (13 R426, R428). That READY carries 1 or 0 in ARG is log entry 75. Fenced partitions: CMP_PART_FENCE takes the mask (13 R431). -/
def Obligations.LogsAndShadowsFollowTheirShard : Prop :=
  (∀ (m : Msg) (s r : State) (num : Nat), s.receive m = (r, true) →
    (∀ e c, m.ty = 0x37 → m.body = .logReq num e c → r.fabricPart m.dstPart = false ∨ r.ownsShard num m.dstPart r.epoch = false → exec (.logReq m) s = .next (r.refuseMsg m 3)) ∧
    (∀ e c, m.ty = 0x37 → m.body = .logReq num e c → r.fabricPart m.dstPart = true → r.ownsShard num m.dstPart r.epoch = true → r.area (.shard num) = none →
      (∀ x ∈ r.cmp.logReqs, x.shard ≠ num) →
      exec (.logReq m) s = .next (State.pushLog { r with cmp := { r.cmp with logReqs := r.cmp.logReqs ++
        [{ node := m.src, part := m.srcPart, txn := m.txn, shard := num, next := e, off := 0, credit := min 8 c }] } }
        { node := m.src, part := m.srcPart, txn := m.txn, shard := num, next := e, off := 0, credit := min 8 c } 8)) ∧
    (∀ e f d, m.ty = 0x38 → m.body = .logData num e f d → r.shard num = none → exec (.logData m) s = .next r) ∧
    (∀ e d x, m.ty = 0x38 → m.body = .logData num e false d → r.shard num = some x → x.shadow = true → e ≥ x.replayNext → x.logCredit ≠ 1 →
      (LogRec.size (x.logBuf ++ d) = none ∨ ∃ n, LogRec.size (x.logBuf ++ d) = some n ∧ (x.logBuf ++ d).length < n) → x.logCredit ≠ 0 →
      exec (.logData m) s = .next (r.setShard { x with logBuf := x.logBuf ++ d, logCredit := x.logCredit - 1 })) ∧
    (∀ dw q, m.ty = 0x39 → m.body = .shadowCopy num dw q →
      ((∀ x, r.shard num = some x → x.shadow = false) → exec (.shadowCopy m) s = .next r) ∧
      (∀ x, r.shard num = some x → x.shadow = true →
        let u := r.addCmd x.part 0 .pa 0 dw 0 (.shadow m.src m.txn)
        exec (.shadowCopy m) s = .next ((u.1.modCmd u.2 fun c => { c with input := q, got := if q.length > c.inLen then [(12, q.drop c.inLen)] else [] }).run u.2))) ∧
    (∀ ids x k, m.ty = 0x3A → m.body = .shadowResult num ids → r.shard num = some x →
      ((∀ k ∈ x.copies, k.1 ≠ m.txn) → exec (.shadowResult m) s = .next r) ∧
      ((x.copies.find? fun k => k.1 == m.txn) = some k →
        let cfg := r.reg32 (pCmp + 0x128)
        let good := if k.2.2.isEmpty then ids.isEmpty else decide ((k.2.2.filter ids.contains).length * 65536 ≥ fld cfg 15 0 * k.2.2.length)
        ∃ t y, exec (.shadowResult m) s = .next t ∧ t.shard num = some y ∧ y = { x with copies := y.copies, run := y.run, lastOverlap := y.lastOverlap, ready := y.ready } ∧
          (∀ c, c ∈ y.copies ↔ c ∈ x.copies ∧ c.1 ≠ m.txn) ∧ y.run = (if good then sat16 (x.run + 1) else 0) ∧
          (y.ready = true ↔ good = true ∧ (x.ready = true ∨ y.run ≥ fld cfg 31 16)) ∧
          t.counter (pCmp + 0x080) = (r.counter (pCmp + 0x080) + 1) % 2 ^ 64 ∧ t.cmds = r.cmds)) ∧
    (m.ty = 0x3B → m.body = .shadowReady num → ∃ t, exec (.shadowReady m) s = .next t ∧ t = { r with shards := t.shards } ∧
      t.shards = r.shards.map fun x => if x.num = num ∧ x.shadow = true then { x with ready := m.arg == 1 } else x)) ∧
  (∀ (num txn : Nat) (s : State), ∃ t, exec (.shadowCopyTimeout num txn) s = .next t ∧ t = { s with shards := t.shards } ∧ t.shards.length = s.shards.length ∧
    ∀ x y, (x, y) ∈ s.shards.zip t.shards → y = { x with copies := y.copies } ∧ (x.num ≠ num → y = x) ∧
      ∀ k, k ∈ y.copies ↔ k ∈ x.copies ∧ ¬(x.num = num ∧ k.1 = txn ∧ s.time.lctr ≥ k.2.1 + fld (s.reg32 (pCol + 0x140)) 31 16 * 2 ^ 14)) ∧
  (∀ (a : Agent) (mask : Nat) (s : State),
    (s.reaches a (pCmp + 0x11C) = false → exec (.partitionFenceWrite a mask) s = .next s) ∧
    (s.reaches a (pCmp + 0x11C) = true → s.sec.conf = 0 → mask < 65536 →
      ∃ t, exec (.partitionFenceWrite a mask) s = .next t ∧ t.reg32 (pCmp + 0x11C) = mask ∧ t.cmds = s.cmds ∧ t.hbm = s.hbm))

/-- Firmware: an image that fails a check is not staged, is counted in SEC_FW_REJECTS and sets CMP_ERR.FW_FAIL, and the running image stays; one that passes is staged; FW_SWITCH asks for the switch, which either makes the staged image the running one in the other bank, measured anew and unconfirmed, or leaves the old one running with the fallback shown; FW_CONFIRM raises ARB where BURN asks, revokes slots, stores the image in the slot not selected and flips the selector, and stops at an OTP write that fails (13 R432, 14 R436, R438). That a failed OTP write stops at the first one is log entry 77; that steps 3 to 6 are one command is log entry 76. -/
def Obligations.FirmwareIsCheckedSwitchedAndConfirmed : Prop :=
  (∀ (a : Agent) (s : State), s.reaches a (pCmp + 0x114) = true →
    (exec (.fwLoad a none) s = .next (s.raise pCmp 7)) ∧
    (∀ b bit, s.imgBad b = some bit → ∃ t, exec (.fwLoad a (some b)) s = .next t ∧ t.cmp.staged = [] ∧ t.cmp.switching = false ∧ t.cmp.image = s.cmp.image ∧ t.cmp.bank = s.cmp.bank ∧
      t.counter (pSec + 0x048) = (s.counter (pSec + 0x048) + 1) % 2 ^ 64 ∧ t.sec = s.sec) ∧
    (∀ b, s.imgBad b = none → ∃ t, exec (.fwLoad a (some b)) s = .next t ∧ t.cmp.staged = imgTrim b ∧ t.cmp.image = s.cmp.image ∧ t.sec = s.sec ∧
      t.counter (pSec + 0x040) = (s.counter (pSec + 0x040) + 1) % 2 ^ 64) ∧
    (s.cmp.staged = [] → exec (.fwSwitch a) s = .next s) ∧
    (s.cmp.staged ≠ [] → exec (.fwSwitch a) s = .next { s with cmp := { s.cmp with switching := true } }) ∧
    (∀ ok, s.cmp.image = [] → exec (.fwConfirm a ok) s = .next s) ∧
    (s.cmp.image ≠ [] → bitOf (byteAt s.cmp.image 3) 0 = true → s.sec.arb < byteAt s.cmp.image 2 → exec (.fwConfirm a false) s = .next (s.raise pSec 5)) ∧
    (s.cmp.image ≠ [] → ∃ t, exec (.fwConfirm a true) s = .next t ∧ t.cmp = { s.cmp with unconfirmed := false } ∧
      t.sec.arb = (if bitOf (byteAt s.cmp.image 3) 0 then max s.sec.arb (byteAt s.cmp.image 2) else s.sec.arb) ∧ t.sec.revoked = s.sec.revoked ||| byteAt s.cmp.image 6 ∧
      (s.sec.selector = 1 → t.sec.selector = 0 ∧ t.sec.slot0 = s.cmp.image ∧ t.sec.slot1 = s.sec.slot1) ∧
      (s.sec.selector ≠ 1 → t.sec.selector = 1 ∧ t.sec.slot1 = s.cmp.image ∧ t.sec.slot0 = s.sec.slot0))) ∧
  (∀ s : State,
    (s.mayCut = false → exec .fwSwitchAccept s = .next s ∧ exec .fwFallback s = .next s) ∧
    (s.mayCut = true → ∃ t, exec .fwSwitchAccept s = .next t ∧
      t.cmp = { s.cmp with image := s.cmp.staged, bank := 1 - s.cmp.bank, staged := [], switching := false, unconfirmed := true, fallback := false } ∧
      t.sec.meas = s.sec.meas.set 3 (Config.shake256 64 s.cmp.staged) ∧ t.counter (pCmp + 0x090) = (s.counter (pCmp + 0x090) + 1) % 2 ^ 64 ∧ t.cmds = s.cmds ∧ t.shards = s.shards) ∧
    (s.mayCut = true → ∃ t, exec .fwFallback s = .next t ∧ t.cmp = { s.cmp with staged := [], switching := false, fallback := true } ∧ t.sec = s.sec ∧ t.cmds = s.cmds))

/-! ## Flash (11) -/

/-- What FTE does by itself, once every die that is free has taken its next operation (`pumpDies`, 11 R351; the moments at which operations are issued are the model's choice, log entry 199). A read that is not outstanding and that nobody waits for changes nothing; a codeword that decodes reaches the command that waits for its unit, the read counted; one that does not decode is counted as lost and raises FTE_ERR bit 1 with its partition. A stream's row whose programs are outstanding on all of its dies and succeed becomes programmed and leaves the stream; a row or an erase that is not outstanding on all of its dies does not complete. Relocation starts below START and not above it; a superblock that has been erased is free. A die that does not answer is counted and starts its rebuild; one without valid pages left is excluded when that ends. The patrol scan runs once a period (11 R363 to R375). -/
def Obligations.FlashReadsProgramsAndRelocates : Prop :=
  (∀ (part lua : Nat) (dec : Decoded) (s : State),
    let u := s.pumpDies
    (u.cmds = [] → u.readsOut part lua = [] → exec (.flashReadDone part lua dec) s = .next u.pumpDies) ∧
    (∀ c, u.cmds = [c] → c.part = part → c.phase = .run (.flash lua) → (u.entryFor c lua).kind = 1 → bitOf (u.entryFor c lua).zmask (lua % 4) = false →
      (tget u.fte.phys (u.entryFor c lua).ppa).elim false (·.programmed) = true → u.dieLost ((u.entryFor c lua).ppa / 2 ^ 24) = false →
      u.readsOut part lua = [(u.entryFor c lua).ppa] → u.armed pFte 0 = false → u.fte.supers = [] →
      let v := u.endOps fun o => o.part == part && o.work.isReadOf lua
      (dec.step = 1 → dec.bits ≤ fld (u.reg32 (pFte + 0x108)) 9 0 →
        ∃ w : State, w = { v with reg := w.reg } ∧ w.counter (pFte + 0x040) = (u.counter (pFte + 0x040) + 1) % 2 ^ 64 ∧
          exec (.flashReadDone part lua dec) s = .next (w.deliver c.id (flashKey lua) ((u.unitOf (u.entryFor c lua) (lua % 4)).getD [])).pumpDies) ∧
      (dec.step = 0 → ∃ (w : State) (d : List Byte), w.cmds = u.cmds ∧ w.hbm = u.hbm ∧ w.counter (pFte + 0x080) = (u.counter (pFte + 0x080) + 1) % 2 ^ 64 ∧
          exec (.flashReadDone part lua dec) s = .next (w.deliver c.id (flashKey lua) d).pumpDies))) ∧
  (∀ (part stream : Nat) (s : State),
    let u := s.pumpDies
    (part ≥ 16 ∨ stream ≥ 3 ∨ u.allOut ⟨part, .program stream⟩ (u.rowDies part stream) = false → ∀ f, exec (.programComplete part stream f) s = .next u) ∧
    (part < 16 → stream < 3 → u.allOut ⟨part, .program stream⟩ (u.rowDies part stream) = true → u.armed pFte 1 = false → u.cmds = [] →
      ∃ t : State, exec (.programComplete part stream []) s = .next t.pumpDies ∧ t.hbm = u.hbm ∧
        (∀ a ∈ u.firstRow (u.stream part stream), ∀ x, tget u.fte.phys a = some x → tget t.fte.phys a = some { x with programmed := true }) ∧
        (∀ a, a ∉ u.firstRow (u.stream part stream) → tget t.fte.phys a = tget u.fte.phys a) ∧
        (t.stream part stream).programming = false ∧ ∀ a, a ∈ (t.stream part stream).row ↔ a ∈ (u.stream part stream).row ∧ a ∉ u.firstRow (u.stream part stream))) ∧
  (∀ (part : Nat) (s : State), part < 16 → (s.freeHist part).superCount part ≠ 0 →
    let u := s.freeHist part
    (bitOf u.fte.gc part = true → exec (.gcStart part) s = .next (u.gcStep part).pumpDies) ∧
    (bitOf u.fte.gc part = false → u.freePct part ≥ fld (u.reg32 (pFte + 0x104)) 7 0 → exec (.gcStart part) s = .next u) ∧
    (bitOf u.fte.gc part = false → u.freePct part < fld (u.reg32 (pFte + 0x104)) 7 0 →
      exec (.gcStart part) s = .next (State.gcStep { u with fte := { u.fte with gc := setBit u.fte.gc part true } } part).pumpDies)) ∧
  (∀ (part sb : Nat) (s : State) (x : Super),
    let u := s.pumpDies
    (u.super part sb = none → exec (.eraseComplete part sb) s = .next u) ∧
    (u.super part sb = some x →
      (x.erasing = false ∨ u.allOut ⟨part, .erase sb⟩ (u.eraseDies x) = false → exec (.eraseComplete part sb) s = .next u) ∧
      (x.erasing = true → u.allOut ⟨part, .erase sb⟩ (u.eraseDies x) = true →
        ∃ v : State, v.super part sb = none ∧ (∀ e, e ∈ v.fte.phys ↔ e ∈ u.fte.phys ∧ ¬(e.2.part = part ∧ u.inSuper x e.1 = true)) ∧ v.fte.map = u.fte.map ∧ v.cmds = u.cmds ∧
          exec (.eraseComplete part sb) s =
            .next (if v.freePct part ≥ fld (v.reg32 (pFte + 0x104)) 15 8 then { v with fte := { v.fte with gc := setBit v.fte.gc part false } } else (v.freeHist part).gcStep part).pumpDies))) ∧
  (∀ (s : State) (o : DieOp) (l : List Nat), s.allOut o l = true ↔ l ≠ [] ∧ ∀ d ∈ l, (s.dieRun d).cur = some o) ∧
  (∀ (die : Nat) (s : State), die < 512 →
    ((s.die die).st ≠ .good → exec (.dieTimeout die) s = .next s) ∧
    ((s.die die).st = .good → ∃ t, exec (.dieTimeout die) s = .next t ∧ (t.die die).st = .rebuilding ∧ die ∈ t.fte.rebuild ∧ t.cmds = s.cmds ∧
      t.counter (pChan (die / 16) + 0x058) = (s.counter (pChan (die / 16) + 0x058) + 1) % 2 ^ 64) ∧
    ((s.die die).st ≠ .rebuilding → exec (.rebuildComplete die) s = .next s) ∧
    ((s.die die).st = .rebuilding → (∀ e ∈ s.fte.phys, e.1 / 2 ^ 24 = die → e.2.programmed = true → s.pageValid e.2.gpage e.1 = false) →
      ∃ t, exec (.rebuildComplete die) s = .next t ∧ (t.die die).st = .excluded ∧ die ∉ t.fte.rebuild ∧ (∀ e, e ∈ t.fte.phys ↔ e ∈ s.fte.phys ∧ e.1 / 2 ^ 24 ≠ die) ∧ t.fte.map = s.fte.map ∧ t.cmds = s.cmds)) ∧
  (∀ (part : Nat) (weak : List Nat) (s : State), part < 16 →
    (s.time.lctr < tgetD s.fte.scanAt part 0 + fld (s.reg32 (pFte + 0x10C)) 7 0 * 8640000000000 → exec (.patrolScan part weak) s = .next s) ∧
    (s.time.lctr ≥ tgetD s.fte.scanAt part 0 + fld (s.reg32 (pFte + 0x10C)) 7 0 * 8640000000000 → ∃ t, exec (.patrolScan part weak) s = .next t ∧
      tgetD t.fte.scanAt part 0 = s.time.lctr ∧ t.cmds = s.cmds ∧ (s.fte.phys = [] → s.fte.supers = [] → t.hbm = s.hbm ∧ t.fte.map = s.fte.map)))

/-! ## Power, start, time (15, 17, 01) -/

/-- What ends normal operation: PWR_FAIL_N low for 2 µs, VDD_CORE at VMON_RST, HOLD_MAX, a thermal trip; each starts the flush with its cause, once, and a shorter or milder event only leaves its reading (15 R464, R468, R469, 17 R511, R512). The flush ends with every main domain off, no command left and every context OFF, waiting for the restart; the restart begins again with stage 0 and PD01, PD02 and PD29 on, after a trip only once the junctions are cool (11 R377, 15 R459, R464). -/
def Obligations.PowerFailuresFlushAndRestart : Prop :=
  (∀ (ns : Nat) (stays : Bool) (s : State),
    (ns < 1000 → exec (.pwrFailN ns stays) s = .next s) ∧
    (ns ≥ 2000 → s.pwr.flush = none → s.pwr.waitRestart = false → s.pwr.good = true → s.hasStreams = true →
      ∃ t, exec (.pwrFailN ns stays) s = .next t ∧ t.pwr = { s.pwr with flush := some 0, hold := false, holdInj := false, pwrFail := stays } ∧ t.cmds = s.cmds ∧ t.hbm = s.hbm ∧
        t.counter (pPwr + 0x050) = (s.counter (pPwr + 0x050) + 1) % 2 ^ 64)) ∧
  (∀ (mv : List Nat) (s : State),
    (s.pwr.monitors = false ∨ (s.setMv mv).vLow > 550 → exec (.vmonRst mv) s = .next (s.setMv mv)) ∧
    (s.pwr.monitors = true → (s.setMv mv).vLow ≤ 550 → s.pwr.flush = none → s.pwr.waitRestart = false → s.pwr.good = true → s.hasStreams = true →
      ∃ t, exec (.vmonRst mv) s = .next t ∧ t.pwr = { (s.setMv mv).pwr with flush := some 1, hold := false, holdInj := false } ∧ t.cmds = s.cmds ∧ t.hbm = s.hbm)) ∧
  (∀ (temps : List Nat) (s : State),
    ((∀ t ∈ temps, t < fld (s.reg32 (pPwr + 0x110)) 15 8) → exec (.thermalTrip temps) s = .next { s with pwr := { s.pwr with temps := temps } }) ∧
    ((∃ t ∈ temps, t ≥ fld (s.reg32 (pPwr + 0x110)) 15 8) → s.pwr.flush = none → s.pwr.waitRestart = false → s.pwr.good = true → s.hasStreams = true →
      ∃ t, exec (.thermalTrip temps) s = .next t ∧ t.pwr = { s.pwr with temps := temps, trip := true, tripWait := true, flush := some 3, hold := false, holdInj := false } ∧ t.cmds = s.cmds) ∧
    (s.pwr.tripWait = false ∨ (∃ t ∈ temps, t + 10 ≥ fld (s.reg32 (pPwr + 0x110)) 7 0) → exec (.thermalRecovery temps) s = .next { s with pwr := { s.pwr with temps := temps } }) ∧
    (s.pwr.tripWait = true → (∀ t ∈ temps, t + 10 < fld (s.reg32 (pPwr + 0x110)) 7 0) → s.pwr.flush = none → s.pwr.good = true →
      ∃ t, exec (.thermalRecovery temps) s = .next t ∧ t.pwr.stage = some 0 ∧ t.pwr.tripWait = false ∧ t.pwr.trip = false ∧ t.powered 1 = true ∧ t.powered 2 = true ∧ t.powered 29 = true)) ∧
  (∀ s : State,
    (s.pwr.hold = false ∨ s.time.lctr < s.pwr.holdAt + fld (s.reg32 (pPwr + 0x104)) 5 0 * 2 ^ 14 → exec .holdMaxExpiry s = .next s) ∧
    (s.pwr.hold = true → s.time.lctr ≥ s.pwr.holdAt + fld (s.reg32 (pPwr + 0x104)) 5 0 * 2 ^ 14 → s.pwr.flush = none → s.pwr.waitRestart = false → s.pwr.good = true → s.hasStreams = true →
      ∃ t, exec .holdMaxExpiry s = .next t ∧ t.pwr = { s.pwr with flush := some 2, hold := false, holdInj := false } ∧ t.cmds = s.cmds ∧ t.counter (pPwr + 0x048) = (s.counter (pPwr + 0x048) + 1) % 2 ^ 64) ∧
    (s.pwr.flush = none → exec .flushComplete s = .next s) ∧
    (∀ cause, s.pwr.flush = some cause → cause ≠ 4 →
      ∃ t, exec .flushComplete s = .next t ∧ t.pwr.waitRestart = true ∧ t.pwr.flush = none ∧ t.pwr.hold = false ∧ t.cmds = [] ∧ t.pending = s.pending ∧
        (∀ d, 1 ≤ d → d ≤ 29 → t.powered d = false) ∧ (∀ n, (t.ctx n).state = .off)) ∧
    (s.pwr.waitRestart = false ∨ s.pwr.tripWait = true ∨ s.pwr.good = false → exec .restartAfterFlush s = .next s) ∧
    (s.pwr.waitRestart = true → s.pwr.tripWait = false → s.pwr.good = true →
      ∃ t, exec .restartAfterFlush s = .next t ∧ t.pwr.stage = some 0 ∧ t.pwr.waitRestart = false ∧ t.powered 1 = true ∧ t.powered 2 = true ∧ t.powered 29 = true ∧ t.cmds = s.cmds ∧
        t.hbm = s.hbm ∧ t.regions = s.regions))

/-- HOLD begins when VDD_CORE falls below VMON_WARN, and pauses what would begin, not what is there; it ends above VMON_WARN + 20 mV, counted, and what it held goes on (15 R465 to R467). The voltage loop moves the setpoint by the limits of temperature and power, never below its floor nor above its target, and a write that AVSBus does not take leaves it; the sensors are refreshed as a whole (15 R462, R463, R476). -/
def Obligations.HoldAndTheVoltageLoopFollowTheSupply : Prop :=
  (∀ (mv : List Nat) (s : State),
    (s.pwr.monitors = false ∨ (s.setMv mv).vLow ≥ s.vWarn → exec (.holdEnter mv) s = .next (s.setMv mv)) ∧
    (s.pwr.monitors = true → s.pwr.hold = false → s.pwr.flush = none → (s.setMv mv).vLow < s.vWarn →
      ∃ t, exec (.holdEnter mv) s = .next t ∧ t.pwr.hold = true ∧ t.pwr.holdAt = s.time.lctr ∧ t.held = true ∧ t.cmds = s.cmds ∧ t.hbm = s.hbm ∧ t.ctxs = s.ctxs ∧ t.fte.phys = s.fte.phys ∧ t.fte.map = s.fte.map) ∧
    (s.pwr.hold = false ∨ (s.setMv mv).vLow ≤ s.vWarn + 20 ∨ s.time.lctr > s.pwr.holdAt + fld (s.reg32 (pPwr + 0x104)) 5 0 * 2 ^ 14 → exec (.holdExit mv) s = .next (s.setMv mv)) ∧
    (s.pwr.hold = true → (s.setMv mv).vLow > s.vWarn + 20 → s.time.lctr ≤ s.pwr.holdAt + fld (s.reg32 (pPwr + 0x104)) 5 0 * 2 ^ 14 → s.pwr.holdInj = false →
      ∃ u : State, u.pwr.hold = false ∧ u.cmds = s.cmds ∧ u.hbm = s.hbm ∧ u.pwr.holdReqs = s.pwr.holdReqs ∧ u.counter (pPwr + 0x040) = (s.counter (pPwr + 0x040) + 1) % 2 ^ 64 ∧
        exec (.holdExit mv) s = .next u.release.injectDip)) ∧
  (∀ (temp power : Nat) (ok : Bool) (s : State),
    (s.pwr.hold = true ∨ s.powered 5 = false → exec (.voltageLoopStep temp power ok) s = .next s) ∧
    (∀ n, s.pwr.hold = false → s.powered 5 = true → s.pwr.stage = some n → n ≥ 1 →
      let v := nextVset s.pwr.vset s.vFloor (fld (s.reg32 (pPwr + 0x108)) 7 0) temp power (fld (s.reg32 (pPwr + 0x110)) 7 0) (fld (s.reg32 (pPwr + 0x118)) 15 0) (fld (s.reg32 (pPwr + 0x118)) 31 16)
      ∃ t, exec (.voltageLoopStep temp power ok) s = .next t ∧ t.pwr.vset = (if ok then v else s.pwr.vset) ∧ t.pwr.power = power ∧ t.cmds = s.cmds ∧ t.hbm = s.hbm ∧
        (v < s.pwr.vset → ok = true → t.counter (pPwr + 0x058) = (s.counter (pPwr + 0x058) + 1) % 2 ^ 64))) ∧
  (∀ v floor target t p throttle cap peak : Nat,
    floor ≤ nextVset v floor target t p throttle cap peak ∧ (floor ≤ target → v ≤ target → nextVset v floor target t p throttle cap peak ≤ target) ∧
      (p > peak → nextVset v floor target t p throttle cap peak = max (v - 4) floor) ∧
      (p ≤ peak → t ≥ throttle ∨ p > cap → nextVset v floor target t p throttle cap peak = max (v - 1) floor)) ∧
  (∀ (vals : List Nat) (s : State),
    (s.powered 29 = false → exec (.sensorRefresh vals) s = .next s) ∧
    (s.powered 29 = true → ∃ t, exec (.sensorRefresh vals) s = .next t ∧ t.pwr.sensors.length = 23 ∧ t.pwr.sensors[22]? = some (5 * s.pwr.vset) ∧
      (∀ i, i < 22 → t.pwr.sensors[i]? = some (if s.sensorOn i then vals.getD i 0 else s.pwr.sensors.getD i 0)) ∧
      t.counter (pTel + 0x048) = (s.counter (pTel + 0x048) + 1) % 2 ^ 64 ∧ t.cmds = s.cmds ∧ t.hbm = s.hbm))

/-- Start: PWR_GOOD brings PD00 up with its straps and LCTR 0, its loss takes every command and domain; stage 0 begins 50 ms later and not before; the stages follow one another, in none during HOLD, and stage 2 begins once an image is accepted (15 R454, R457, R458, 17 R505, R506). A domain request that may not be granted sets PWR_ERR bit 4 and changes nothing else; one that comes on has its work done before it serves (15 R460, R461); an Array domain that still waits for its courses to leave stays on when it is asked for again (04 R129; log entry 101). LCTR runs from port A's reference, else port B's, else its own oscillator, and counts the changes (01 R32); a quadrant without its reference is marked, once (17 R508). -/
def Obligations.StartDomainsAndClocks : Prop :=
  (∀ (straps : Nat) (s : State),
    (∀ on, s.pwr.good = on → exec (.pwrGood on straps) s = .next s) ∧
    (s.pwr.good = false → ∃ t, exec (.pwrGood true straps) s = .next t ∧ t.pwr.good = true ∧ t.pwr.straps = straps ∧ t.pwr.stage = none ∧ t.time.lctr = 0 ∧ t.reg.log = [] ∧ t.pending = s.pending ∧ t.sec = s.sec ∧ t.fte = s.fte) ∧
    (s.pwr.good = true → ∃ t, exec (.pwrGood false straps) s = .next t ∧ t.pwr.good = false ∧ t.cmds = [] ∧ t.pending = s.pending ∧ (∀ d, t.powered d = false) ∧ (∀ n, (t.ctx n).state = .off))) ∧
  (∀ (mv : List Nat) (s : State),
    (s.pwr.good = false ∨ s.pwr.stage ≠ none ∨ s.time.lctr < 5000000 → exec (.stage0Entry mv) s = .next s) ∧
    (s.pwr.good = true → s.pwr.stage = none → s.pwr.waitRestart = false → s.time.lctr ≥ 5000000 →
      ∃ t, exec (.stage0Entry mv) s = .next t ∧ t.pwr.stage = some 0 ∧ t.powered 1 = true ∧ t.powered 2 = true ∧ t.powered 29 = true ∧ t.sec.life ≠ .blank ∧ t.cmds = s.cmds ∧ t.hbm = s.hbm)) ∧
  (∀ (rep : StartReport) (s : State),
    (s.held = true ∨ s.pwr.good = false ∨ s.pwr.stage = none → exec (.stageAdvance rep) s = .next s) ∧
    (s.held = false → s.pwr.good = true → s.pwr.waitRestart = false → s.pwr.stage = some 1 →
      (s.cmp.image = [] → exec (.stageAdvance rep) s = .next s) ∧
      (s.cmp.image ≠ [] → ∃ t, exec (.stageAdvance rep) s = .next t ∧ t.pwr.stage = some 2 ∧ (∀ d, 6 ≤ d → d ≤ 17 → t.powered d = true) ∧ t.powered 27 = true ∧ t.cmds = s.cmds ∧ t.hbm = s.hbm))) ∧
  (∀ (a : Agent) (d : Nat) (s : State), s.reaches a (pPwr + 0x120) = true →
    (d > 29 → exec (.pdSwitchOn a d) s = .next (s.raise pPwr 4)) ∧
    (d ≤ 29 → s.pwr.hold = false → d ∈ s.pwr.leaving → ∃ t, exec (.pdSwitchOn a d) s = .next t ∧ t.pwr = { s.pwr with leaving := s.pwr.leaving.filter (· != d) } ∧ t.arr.fenced = s.arr.fenced ∧ t.cmds = s.cmds) ∧
    (d ≤ 29 → s.pwr.hold = false → d ∉ s.pwr.leaving → s.powered d = true → exec (.pdSwitchOn a d) s = .next s) ∧
    (d ≤ 29 → s.pwr.hold = false → d ∉ s.pwr.leaving → s.powered d = false → ∃ t, exec (.pdSwitchOn a d) s = .next t ∧ t.powered d = true ∧ t.pwr.turning = s.pwr.turning ++ [d] ∧ (∀ e, e ≠ d → t.powered e = s.powered e)) ∧
    (d ≤ 2 ∨ (s.powered d = true ∧ s.mayOff d = false) → exec (.pdSwitchOff a d) s = .next (s.raise pPwr 4)) ∧
    (2 < d → d ≤ 29 → s.mayOff d = true → s.pwr.hold = true → exec (.pdSwitchOff a d) s = .next { s with pwr := { s.pwr with holdReqs := s.pwr.holdReqs ++ [(d, false)] } }) ∧
    (d = 26 ∨ d = 29 → s.mayOff d = true → s.pwr.hold = false → s.powered d = true → d ∉ s.pwr.leaving →
      ∃ t, exec (.pdSwitchOff a d) s = .next t ∧ t.powered d = false ∧ d ∉ t.pwr.turning ∧ (∀ e, e ≠ d → t.powered e = s.powered e) ∧ t.cmds = s.cmds ∧ t.hbm = s.hbm)) ∧
  (∀ (d : Nat) (rep : StartReport) (s : State),
    (d ∉ s.pwr.turning → exec (.domainOnDone d rep) s = .next s) ∧
    (d ∈ s.pwr.turning → 22 ≤ d → d ≤ 25 → ∃ t, exec (.domainOnDone d rep) s = .next t ∧ d ∉ t.pwr.turning ∧ t.cmds = s.cmds ∧ ∀ i, i < 6 → (t.link (6 * (d - 22) + i)).st = (if bitOf (s.reg32 (pLink (6 * (d - 22) + i) + 0x100)) 31 then .down else .disabled))) ∧
  (∀ (pa pb : Bool) (s : State), ∃ t, exec (.lctrSourceSwitch pa pb) s = .next t ∧ t = { s with time := t.time } ∧ t.time.src = (if pa then 0 else if pb then 1 else 2) ∧ t.time.lctr = s.time.lctr ∧
    t.time.refPa = pa ∧ t.time.refPb = pb ∧ t.time.switches = (if t.time.src = s.time.src then s.time.switches else sat16 (s.time.switches + 1))) ∧
  (∀ (q : Nat) (s : State),
    (q ≥ 4 ∨ bitOf s.pwr.quadRef q = false → exec (.quadrantReferenceLost q) s = .next s) ∧
    (q < 4 → bitOf s.pwr.quadRef q = true → s.powered (14 + q) = false → s.powered (18 + q) = false → s.powered (22 + q) = false →
      ∃ t, exec (.quadrantReferenceLost q) s = .next t ∧ t.pwr.quadRef = setBit s.pwr.quadRef q false ∧ t.cmds = s.cmds ∧ t.hbm = s.hbm ∧ t.fte = s.fte))

/-! ## Registers and rings (16, 01, 02, 09) -/

/-- A 32-bit read of GLB_LCTR_LO returns the lower half and copies the upper half into GLB_LCTR_HI, which later reads return; a 64-bit read returns both halves of one instant (01 R34). -/
def Obligations.LctrReadsLatchTheUpperHalf : Prop :=
  ∀ (a : Agent) (s : State), s.reaches a 0x100 = true →
    exec (.glbLctrLoRead a true) s = .next (s.giveRead a 0x100 (leBytes 8 s.time.lctr)) ∧
    (∃ t : State, exec (.glbLctrLoRead a false) s = .next (t.giveRead a 0x100 (leBytes 4 (s.time.lctr % 2 ^ 32))) ∧
      t = { s with reg := { s.reg with latch := t.reg.latch } } ∧ t.latchOf a 0x104 = some (s.time.lctr / 2 ^ 32 % 2 ^ 32)) ∧
    (∀ (u : State) (v : Nat), u.reaches a 0x104 = true → u.latchOf a 0x104 = some v → exec (.rcFieldRead a 0x104) u = .next (u.giveRead a 0x104 (leBytes 4 v)))

/-- A read of PEG_STAT_SSE_LO latches the selected slot's SSE_HI, CNT_LO, CNT_HI and SAT as they stand, for the agent that reads; its later reads of those registers return the latched values; a write of PEG_STAT_SEL discards the latch (02 R66). -/
def Obligations.PegStatReadsLatchTheSlot : Prop :=
  ∀ (a : Agent) (s : State), s.reaches a (pPeg + 0x118) = true →
    (let x := s.pegSlot (s.pegSel a)
     ∃ t : State, exec (.pegStatSseLoRead a) s = .next (t.giveRead a (pPeg + 0x118) (leBytes 4 (x.sse % 2 ^ 32))) ∧ t = { s with reg := { s.reg with latch := t.reg.latch } } ∧
       t.latchOf a (pPeg + 0x11C) = some (x.sse / 2 ^ 32 % 2 ^ 32) ∧ t.latchOf a (pPeg + 0x120) = some (x.cnt % 2 ^ 32) ∧
       t.latchOf a (pPeg + 0x124) = some (x.cnt / 2 ^ 32 % 2 ^ 32) ∧ t.latchOf a (pPeg + 0x128) = some (x.sat % 2 ^ 32) ∧
       ∀ b off, agentIdx b ≠ agentIdx a → off < 2 ^ 26 → t.latchOf b off = s.latchOf b off) ∧
    (∀ off ∈ pegLatches, ∀ (u : State) (v : Nat), u.reaches a off = true → u.latchOf a off = some v → exec (.rcFieldRead a off) u = .next (u.giveRead a off (leBytes 4 v))) ∧
    (∀ v, ∃ t : State, exec (.pegStatSelWrite a v) s = .next t ∧ (∀ off ∈ pegLatches, t.latchOf a off = none) ∧ t.selOf a (pPeg + 0x110) = v % 64 ∧ t.peg = s.peg ∧ t.cmds = s.cmds)

/-- Other reads. A page that does not answer the agent reads zeros, and nothing else changes; a 32-bit read of a counter's lower half returns it and latches the upper half for the agent; so do the low registers of the editions of a region, of a shard and of the retention floor, which show 0 while their target is locked; a read of an RC field restarts it from its present value (16 R477, R486, R487, R490, 14 R449). -/
def Obligations.ReadsLatchAndRestart : Prop :=
  (∀ (a : Agent) (off : Nat) (s : State), s.reaches a off = false →
    (counterLow off = true → exec (.counterLoRead a off) s = .next (s.readZero a off 4)) ∧ (off ∈ editionLows → exec (.editionLoRead a off) s = .next (s.readZero a off 4)) ∧
      (barOff a off = off → off % 4 = 0 → exec (.rcFieldRead a off) s = .next (s.readZero a off 4)) ∧ (off = 0x100 → ∀ w, exec (.glbLctrLoRead a w) s = .next (s.readZero a 0x100 (if w then 8 else 4))) ∧
      (off = pPeg + 0x118 → exec (.pegStatSseLoRead a) s = .next (s.readZero a (pPeg + 0x118) 4)) ∧
      (∀ p fn n, a = .host p fn → (s.port p).up = true → s.readZero a off n = s.emit p (.answer fn off (zeros n))) ∧ (∀ n, a = .mgmt → s.readZero a off n = s)) ∧
  (∀ (a : Agent) (off : Nat) (g : Page) (s : State), (a = .mgmt ∨ ∃ p, a = .host p 0) → s.reaches a off = true → pageOf off = some g → counterLow off = true →
    ∃ t : State, exec (.counterLoRead a off) s = .next (t.giveRead a off (leBytes 4 (s.counterOf g off % 2 ^ 32))) ∧ t = { s with reg := { s.reg with latch := t.reg.latch } } ∧
      t.latchOf a (off + 4) = some (s.counterOf g off / 2 ^ 32 % 2 ^ 32)) ∧
  (∀ (a : Agent) (s : State), (a = .mgmt ∨ ∃ p, a = .host p 0) →
    (s.reaches a (pAtt + 0x118) = true → let n := s.selOf a (pAtt + 0x110) % 4096
      let e := if s.regionLocked n then 0 else s.latest (.region n)
      ∃ t : State, exec (.editionLoRead a (pAtt + 0x118)) s = .next (t.giveRead a (pAtt + 0x118) (leBytes 4 (e % 2 ^ 32))) ∧ t.latchOf a (pAtt + 0x11C) = some (e / 2 ^ 32 % 2 ^ 32) ∧ t = { s with reg := t.reg }) ∧
    (s.reaches a (pGwe + 0x120) = true → let n := s.selOf a (pGwe + 0x110) % 4096
      let e := if s.shardLocked n then 0 else s.latest (.shard n)
      ∃ t : State, exec (.editionLoRead a (pGwe + 0x120)) s = .next (t.giveRead a (pGwe + 0x120) (leBytes 4 (e % 2 ^ 32))) ∧ t.latchOf a (pGwe + 0x124) = some (e / 2 ^ 32 % 2 ^ 32) ∧ t = { s with reg := t.reg }) ∧
    (s.reaches a (pUpd + 0x10C) = true →
      let e := if s.targetLocked (s.updSel a) then 0 else s.floorOf (s.updSel a)
      ∃ t : State, exec (.editionLoRead a (pUpd + 0x10C)) s = .next (t.giveRead a (pUpd + 0x10C) (leBytes 4 (e % 2 ^ 32))) ∧ t.latchOf a (pUpd + 0x110) = some (e / 2 ^ 32 % 2 ^ 32) ∧ t = { s with reg := t.reg }) ∧
    (s.reaches a (pPwr + 0x10C) = true → ∃ t : State, exec (.rcFieldRead a (pPwr + 0x10C)) s = .next (t.giveRead a (pPwr + 0x10C) (leBytes 4 (s.regShow a (pPwr + 0x10C)))) ∧
      t = { s with pwr := { s.pwr with vmin := s.vLow } }) ∧
    (s.reaches a (pSel + 0x104) = true → exec (.rcFieldRead a (pSel + 0x104)) s = .next (State.giveRead { s with selMax := 0 } a (pSel + 0x104) (leBytes 4 (s.regShow a (pSel + 0x104))))) ∧
    (s.reaches a (pFab + 0x11C) = true → ∃ t : State, exec (.rcFieldRead a (pFab + 0x11C)) s = .next (t.giveRead a (pFab + 0x11C) (leBytes 4 (s.regShow a (pFab + 0x11C)))) ∧
      t = { s with fab := { s.fab with peak := s.poolOut } }))

/-- Writes. A page that does not answer ignores them, as do the read-only words of its header; a 1 written to ERR clears that bit and its repeat flag, and no other word (16 R478, R483); ERR_INJ arms what it names and clears nothing, except while the device is locked (R484); GLB_EVT_SEL copies the entry of its agent (R500); PEG_STAT_BIND rebinds the selected slot, clearing it where CLR is set, and is dropped and counted for a locked one (02 R65, 14 R453); a plain register of GWE takes its writable bits; an access that R489 does not take is counted, sets GLB_ERR.ACCESS and changes nothing else, and reads zeros. -/
def Obligations.WritesActOnTheirField : Prop :=
  (∀ (a : Agent) (off v : Nat) (s : State), s.reaches a off = false → barOff a off = off →
    exec (.registerWrite a off v) s = .next s ∧ (pageBase off + 0x018 = off → exec (.errClear a off v) s = .next s) ∧
      (pageBase off + 0x020 = off → exec (.errInjWrite a off v) s = .next s)) ∧
  (∀ (a : Agent) (off v : Nat) (g : Page) (s : State), (a = .mgmt ∨ ∃ p, a = .host p 0) → s.reaches a off = true → pageOf off = some g →
    (off % 4096 ∈ [0x000, 0x004, 0x008, 0x00C, 0x014, 0x024, 0x028] → exec (.registerWrite a off v) s = .next s) ∧
    (∃ t : State, exec (.errClear a off v) s = .next t ∧ t = { s with reg := { s.reg with w := t.reg.w } } ∧
      t.reg32 (g.base + 0x018) = s.reg32 (g.base + 0x018) &&& (0xFFFFFFFF - v % 2 ^ 32) ∧ t.reg32 (g.base + 0x024) = s.reg32 (g.base + 0x024) &&& (0xFFFFFFFF - v % 2 ^ 32) ∧
      ∀ o, o ≠ g.base + 0x018 → o ≠ g.base + 0x024 → t.reg32 o = s.reg32 o) ∧
    (s.devLocked = true → exec (.errInjWrite a off v) s = .next s) ∧
    (s.devLocked = false → g.ty ≠ 0x02 → g.ty ≠ 0x32 → v < 2 ^ 32 → ∃ t : State, exec (.errInjWrite a off v) s = .next t ∧ t = { s with reg := { s.reg with w := t.reg.w } } ∧
      t.reg32 (g.base + 0x020) = (s.reg32 (g.base + 0x020) ||| (v &&& g.injMask)) % 2 ^ 32 ∧ ∀ o, o ≠ g.base + 0x020 → t.reg32 o = s.reg32 o)) ∧
  (∀ (a : Agent) (v : Nat) (s : State), (a = .mgmt ∨ ∃ p, a = .host p 0) →
    (s.reaches a 0x144 = true → ∃ t : State, exec (.glbEvtSelWrite a v) s = .next t ∧ tget t.reg.copy (agentIdx a) = some (s.eventAt (v % 2 ^ 32)) ∧ t.selOf a 0x144 = v % 2 ^ 32 ∧
      t.reg.log = s.reg.log ∧ t.reg.w = s.reg.w ∧ t = { s with reg := t.reg }) ∧
    (s.reaches a (pPeg + 0x114) = true →
      let x := s.pegSlot (s.pegSel a)
      (s.pegLocked x.bind = true → bitOf v 30 = false → ∃ t : State, exec (.pegStatBindWrite a v) s = .next t ∧ t.pegSlot (s.pegSel a) = x ∧ t.counter (pSec + 0x070) = (s.counter (pSec + 0x070) + 1) % 2 ^ 64) ∧
      (s.pegLocked x.bind = false → s.pegLocked (v &&& 0xBF000FFF) = false → ∃ t : State, exec (.pegStatBindWrite a v) s = .next t ∧ t = { s with peg := t.peg } ∧
        t.pegSlot (s.pegSel a) = (if bitOf v 30 then { PegSlot.reset with bind := v &&& 0xBF000FFF } else { x with bind := v &&& 0xBF000FFF }) ∧
        ∀ n, n ≠ s.pegSel a → t.pegSlot n = s.pegSlot n)) ∧
    (∀ o g, s.reaches a (pGwe + o) = true → 0x100 ≤ o → o < 0x110 → o % 4 = 0 → pageOf (pGwe + o) = some g → ∀ rw x, storedReg g (pGwe + o) = some (rw, 0, x) →
      ∃ t : State, exec (.registerWrite a (pGwe + o) v) s = .next t ∧ t.reg32 (pGwe + o) = stored g o rw (s.reg32 (pGwe + o)) v % 2 ^ 32 ∧ (∀ off, off ≠ pGwe + o → t.reg32 off = s.reg32 off) ∧
        t = { s with reg := { s.reg with w := t.reg.w } })) ∧
  (∀ (a : Agent) (write : Bool) (off size : Nat) (s : State),
    (accessOk write off size = true → exec (.badAccess a write off size) s = .next s) ∧
    (accessOk write off size = false → ∃ t, t = { s with reg := t.reg, pa := t.pa, pb := t.pb } ∧ t.counter 0x040 = (s.counter 0x040 + 1) % 2 ^ 64 ∧ bitOf (t.reg32 0x018) 0 = true ∧
      exec (.badAccess a write off size) s = .next (if write then t else t.giveRead a off (zeros size))))

/-- Completion rings and MSI-X: enabling a ring begins it with a grant, what was held behind it; disabling it keeps the records that are held, and voids a grant not yet written; a coalescing timer that has run out sends its one message and clears the count, another changes nothing; masking a vector keeps its message pending, unmasking sends it (09 R292, R308, R313, R319); a function has the vectors of its table only (R284). -/
def Obligations.RingsBeginWithAGrantAndSignal : Prop :=
  (∀ (a : Agent) (p : Port) (v : Nat) (s : State),
    let ctx := s.selOf a (pHif p + 0x120) % 4096
    (bitOf v 31 = false → exec (.ringEnable a p v) s = .next s) ∧ (bitOf v 31 = true → exec (.ringDisable a p v) s = .next s) ∧
    (s.reaches a (pHif p + 0x12C) = false ∨ s.ringShown a ctx = false → exec (.ringEnable a p v) s = .next s ∧ exec (.ringDisable a p v) s = .next s) ∧
    (s.reaches a (pHif p + 0x12C) = true → s.ringShown a ctx = true → bitOf v 31 = false →
      ∃ r, exec (.ringDisable a p v) s = .next (s.setRing p ctx r) ∧ r.en = false ∧ r.vector = ((s.ring p ctx).cfg v).vector ∧ r.coal = (s.ring p ctx).coal ∧
        ∀ x, x ∈ r.held ↔ x ∈ (s.ring p ctx).held ∧ x.kind ≠ 1) ∧
    (s.reaches a (pHif p + 0x12C) = true → s.ringShown a ctx = true → bitOf v 31 = true →
      (∃ t : State, exec (.ringEnable a p v) s = .next t ∧ (t.ring p ctx).en = true ∧ t.cmds = s.cmds ∧ t.hbm = s.hbm ∧ t.ctxs = s.ctxs) ∧
      ((s.ring p ctx).en = false → (s.port p).up = false → ∃ t g, exec (.ringEnable a p v) s = .next t ∧ (t.ring p ctx).held = g :: (s.ring p ctx).held ∧ g.kind = 1 ∧ g.ctx = ctx ∧
        g.sub = (s.ring p ctx).note ∧ (t.ring p ctx).tail = 0 ∧ (t.ring p ctx).phase = true ∧ (t.ring p ctx).note = 0))) ∧
  (∀ (ctx : Nat) (s : State),
    ((∀ p, (s.ring p ctx).coal = 0 ∨ (s.ring p ctx).coalUs = 0 ∨ s.time.lctr < (s.ring p ctx).coalAt) → exec (.msixCoalesceTimer ctx) s = .next s) ∧
    ((s.ring .pa ctx).coal ≠ 0 → (s.ring .pa ctx).coalUs ≠ 0 → s.time.lctr ≥ (s.ring .pa ctx).coalAt → (s.ring .pb ctx).coal = 0 →
      exec (.msixCoalesceTimer ctx) s = .next ((s.setRing .pa ctx { s.ring .pa ctx with coal := 0 }).sendMsix .pa (s.submitFn .pa (s.ctx ctx).part) (s.ring .pa ctx).vector))) ∧
  (∀ (p : Port) (fn v : Nat) (s : State), (s.msixFn p fn).en = true → (s.msixFn p fn).maskAll = false →
    ((∀ w ∈ (s.msixFn p fn).pend, w ∉ (s.msixFn p fn).open') → ∃ t : State, exec (.msixUnmask p fn (.mask v)) s = .next t ∧ v ∉ (t.msixFn p fn).open' ∧ (t.msixFn p fn).pend = (s.msixFn p fn).pend ∧ t.cmds = s.cmds) ∧
    (v ≥ (pcieFn (s.port p).bar4 fn).msix → (∀ w ∈ (s.msixFn p fn).pend, w ∉ (s.msixFn p fn).open') → exec (.msixUnmask p fn (.unmask v)) s = .next (s.modPort p fun x => { x with msix := tset x.msix fn (s.msixFn p fn) })) ∧
    (v < (pcieFn (s.port p).bar4 fn).msix → v ∉ (s.msixFn p fn).open' → (s.msixFn p fn).pend = [v] → ∃ t : State, exec (.msixUnmask p fn (.unmask v)) s = .next t ∧ v ∈ (t.msixFn p fn).open' ∧ (t.msixFn p fn).pend = [] ∧
      t.counter (pHif p + 0x050) = (s.counter (pHif p + 0x050) + 1) % 2 ^ 64 ∧ t.cmds = s.cmds))

/-! ## Host ports and ownership (09) -/

/-- A port's link: going down it is marked with its time and HIF_ERR bit 4 and keeps what the port owns; coming up it takes its speed and width and writes what its rings hold. A reset of a function that owns nothing, and of the port, clears MSI-X; of a port that owns partitions without commands, records, rings or sessions, it changes nothing else; PERST_N takes the link down as well (09 R313, R320, 17 R510). -/
def Obligations.PortsGoDownAndReset : Prop :=
  (∀ (p : Port) (s : State),
    ((s.port p).up = false → exec (.pcieLinkDown p) s = .next s) ∧
    ((s.port p).up = true → ∃ t, exec (.pcieLinkDown p) s = .next t ∧ (t.port p).up = false ∧ (t.port p).downAt = s.time.lctr ∧ (t.port p).own = (s.port p).own ∧
      t.cmds = s.cmds ∧ t.rings = s.rings ∧ t.hbm = s.hbm) ∧
    (∀ speed width flit, (s.port p).up = true ∨ s.powered (3 + p.idx) = false ∨ speed ∉ [4, 5, 6] ∨ width ∉ [1, 2, 4, 8, 16] → exec (.pcieLinkUp p speed width flit) s = .next s) ∧
    (∀ speed width flit, (s.port p).up = false → s.powered (3 + p.idx) = true → speed ∈ [4, 5, 6] → width ∈ [1, 2, 4, 8, 16] →
      ∃ t, exec (.pcieLinkUp p speed width flit) s = .next t ∧ (t.port p).up = true ∧ (t.port p).speed = speed ∧ (t.port p).width = width ∧ (t.port p.other).peerDown = false ∧
        (t.port p).own = (s.port p).own ∧ t.cmds = s.cmds ∧ t.hbm = s.hbm ∧ ∀ c, c < 4096 → (s.ring p c).en = true → (t.ring p c).held = [])) ∧
  (∀ (p : Port) (fn : Nat) (whole : Bool) (s : State), (∀ q, q < 16 → s.owns p q = false) →
    (whole = true ∨ fn = 0 → exec (.functionLevelReset p fn whole) s = .next (s.modPort p fun x => { x with msix := [] })) ∧
    (whole = false → 1 ≤ fn → fn ≤ 16 → exec (.functionLevelReset p fn whole) s = .next (s.modPort p fun x => { x with msix := tdel x.msix fn })) ∧
    ∃ t, exec (.perst p) s = .next t ∧ (t.port p).up = false ∧ (t.port p).msix = [] ∧ t.cmds = s.cmds ∧ t.rings = s.rings ∧ t.hbm = s.hbm) ∧
  (∀ (p : Port) (fn part : Nat) (s : State), fn = part + 1 → part < 16 → s.owns p part = true → (∀ c ∈ s.cmds, c.part ≠ part) →
    ∃ t, exec (.functionLevelReset p fn false) s = .next t ∧ t.cmds = s.cmds ∧ t.hbm = s.hbm ∧ (t.port p).own = (s.port p).own ∧ (t.port p).up = (s.port p).up ∧
      (∀ x ∈ t.sec.sessions, ¬(x.part = part ∧ x.port = p)) ∧ tget t.sec.ide (p.idx * 16 + part) = none ∧
      ∀ c ∈ s.ctxsOf part, ∀ r, tget s.rings (ringKey p c) = some r → (t.ring p c).en = false ∧ (t.ring p c).held = [] ∧ (t.ring p c).note = 2)

/-- Ownership of partitions moves only as R317 to R319 say. A release marks the partitions the port owns; it completes once the port has no command or record of the partition left, ends the session, and hands the partition to the port that asked for it first. A take of a partition nobody owns gets it at once, of one the other port owns waits; a forced one needs the other link down for GRACE or the authority, and else is refused with HIF_ERR bit 5; before stage 5 none is taken (09 R317 to R319, 15 R457). That a forced one of an unowned partition needs the authority is log entry 167. -/
def Obligations.OwnershipMovesByRule : Prop :=
  (∀ (a : Agent) (p : Port) (mask : Nat) (s : State),
    (s.reaches a (pHif p + 0x10C) = false → exec (.release a p mask) s = .next s) ∧
    (s.reaches a (pHif p + 0x10C) = true → ∃ t, exec (.release a p mask) s = .next t ∧ (∀ q, q < 16 → bitOf (t.port p).rel q = (bitOf (s.port p).rel q || (bitOf mask q && s.owns p q))) ∧
      (t.port p).own = (s.port p).own ∧ t.port p.other = s.port p.other ∧ t.cmds = s.cmds)) ∧
  (∀ (p : Port) (part : Nat) (s : State),
    (bitOf (s.port p).rel part = false ∨ (∃ c ∈ s.cmds, c.part = part ∧ c.port = p ∧ c.origin = .window) → exec (.releaseComplete p part) s = .next s) ∧
    (part < 16 → bitOf (s.port p).rel part = true → (s.port p).up = true → (∀ c ∈ s.cmds, c.part ≠ part ∨ c.port ≠ p ∨ c.origin ≠ .window) →
      (∀ r ∈ s.rings, r.1 / 4096 = p.idx → (s.ctx (r.1 % 4096)).part = part → ∀ x ∈ r.2.held, x.kind ≠ 0) →
      ∃ t, exec (.releaseComplete p part) s = .next t ∧ bitOf (t.port p).rel part = false ∧ t.owns p part = decide (s.nextOwner part = some p) ∧
        t.owns p.other part = (s.owns p.other part || decide (s.nextOwner part = some p.other)) ∧
        (∀ x ∈ t.sec.sessions, ¬(x.part = part ∧ x.port = p)) ∧ (∀ q, q ≠ part → t.owns p q = s.owns p q ∧ t.owns p.other q = s.owns p.other q) ∧ t.cmds = s.cmds ∧ t.hbm = s.hbm)) ∧
  (∀ (p : Port) (part : Nat) (s : State),
    (bitOf (s.port p).pend part = true → bitOf (s.port p.other).pend part = false → s.nextOwner part = some p) ∧
    (bitOf (s.port p).pend part = true → bitOf (s.port p).first part = true → bitOf (s.port p.other).first part = false → s.nextOwner part = some p) ∧
    (bitOf (s.port p).pend part = false → bitOf (s.port p.other).pend part = false → s.nextOwner part = none)) ∧
  (∀ (a : Agent) (p : Port) (mask part : Nat) (s : State),
    (s.reaches a (pHif p + 0x110) = false ∨ s.pwr.stage ≠ some 5 → exec (.take a p mask) s = .next s ∧ exec (.forcedTakeover a p mask) s = .next s) ∧
    (s.reaches a (pHif p + 0x110) = true → s.pwr.stage = some 5 → mask = 2 ^ part → part < 16 →
      (s.owns p part = false → s.owns p.other part = false → ∃ t, exec (.take a p mask) s = .next t ∧ (s.authFor p part = false → exec (.forcedTakeover a p mask) s = .next (s.raiseAt (pHif p) 5 (partAttr part))) ∧
        (s.authFor p part = true → exec (.forcedTakeover a p mask) s = .next { t with mgt := { t.mgt with auth := none } }) ∧ t.owns p part = true ∧
        bitOf (t.port p).pend part = false ∧ (∀ q, q ≠ part → t.owns p q = s.owns p q) ∧ t.port p.other = s.port p.other ∧ t.cmds = s.cmds) ∧
      (s.owns p part = false → s.owns p.other part = true → ∃ t, exec (.take a p mask) s = .next t ∧ bitOf (t.port p).pend part = true ∧ (t.port p).own = (s.port p).own ∧
        (bitOf (s.port p).pend part = false → bitOf (t.port p).first part = !bitOf (s.port p.other).pend part) ∧ t.port p.other = s.port p.other ∧ t.cmds = s.cmds) ∧
      (s.owns p.other part = true → s.mayForce p part = false → exec (.forcedTakeover a p mask) s = .next (s.raiseAt (pHif p) 5 (partAttr part))) ∧
      (s.owns p.other part = true → s.mayForce p part = true → (∀ c ∈ s.cmds, c.part ≠ part) →
        ∃ t, exec (.forcedTakeover a p mask) s = .next t ∧ t.owns p part = true ∧ t.owns p.other part = false ∧ (∀ x ∈ t.sec.sessions, ¬(x.part = part ∧ x.port = p.other)) ∧
          t.cmds = s.cmds ∧ t.hbm = s.hbm))) ∧
  (∀ (p : Port) (s : State),
    ((s.port p).up = true ∨ s.time.lctr < (s.port p).downAt + fld (s.reg32 (pHif p.other + 0x114)) 7 0 * 2 ^ 20 → exec (.takeoverGraceExpiry p) s = .next s) ∧
    ((s.port p).up = false → s.time.lctr ≥ (s.port p).downAt + fld (s.reg32 (pHif p.other + 0x114)) 7 0 * 2 ^ 20 →
      exec (.takeoverGraceExpiry p) s = .next (s.modPort p.other fun y => { y with peerDown := true })))

/-! ## Attestation, sessions, confidential mode (14) -/

/-- Attestation over any transport: nothing is answered where no request can be carried, a request before stage 1 is answered NOT_READY; GET_INFO and GET_CERT answer and change nothing but the message sent; a report is the body over the caller's nonce with its signature under the device's seed, and is counted; one without 32 bytes of nonce, or a certificate length above 1,024, is refused and counted (14 R441, R442, 15 R472). Their payload layouts and the coding of a refusal are free (log entry 83). -/
def Obligations.AttestationIsAnswered : Prop :=
  ∀ (t : Transport) (seq off len : Nat) (nonce : List Byte) (s : State),
    (s.carries t = false → exec (.getInfo t seq) s = .next s ∧ exec (.getCert t seq off len) s = .next s ∧ exec (.getReport t seq nonce) s = .next s) ∧
    (s.carries t = true → s.pwr.stage = some 0 → exec (.getInfo t seq) s = .next (s.ebReply t 0x12 0 0x01 seq 4 []) ∧
      exec (.getCert t seq off len) s = .next (s.ebReply t 0x12 0 0x02 seq 4 []) ∧ exec (.getReport t seq nonce) s = .next (s.ebReply t 0x12 0 0x03 seq 4 [])) ∧
    (∀ n, s.carries t = true → s.pwr.stage = some n → 1 ≤ n →
      (∃ u l, exec (.getInfo t seq) s = .next u ∧ u.mgt.resp = s.mgt.resp ++ [(t, l)] ∧ u.sec = s.sec ∧ u.cmds = s.cmds ∧ u.hbm = s.hbm) ∧
      (len ≤ 1024 → exec (.getCert t seq off len) s = .next (s.attest t 0x02 seq ((s.sec.chain.drop off).take len))) ∧
      (len > 1024 → ∃ u, exec (.getCert t seq off len) s = .next u ∧ u.sec = s.sec ∧ u.counter (pSec + 0x078) = (s.counter (pSec + 0x078) + 1) % 2 ^ 64) ∧
      (nonce.length = 32 → ∃ u l, exec (.getReport t seq nonce) s = .next u ∧ u.mgt.resp = s.mgt.resp ++ [(t, l)] ∧ u.sec = s.sec ∧
        u.counter (pSec + 0x050) = (s.counter (pSec + 0x050) + 1) % 2 ^ 64 ∧
        (∀ p, t = .doe p → l = leBytes 1 0x03 ++ leBytes 1 seq ++ (s.reportBody nonce ++ slice (Config.falconSign s.sec.seed (s.reportBody nonce)) 0 1280)) ∧
        (∃ a b, s.reportBody nonce = a ++ nonce ++ b ∧ a.length = 64 ∧ b.length = 512)) ∧
      (nonce.length ≠ 32 → ∃ u, exec (.getReport t seq nonce) s = .next u ∧ u.sec = s.sec ∧ u.counter (pSec + 0x078) = (s.counter (pSec + 0x078) + 1) % 2 ^ 64))

/-- Sessions: a partition has at most one, opened on the port that owns it and counted; its key comes once; a message that does not open under the session's key and next sequence number is refused with SEC_ERR bit 6 and does nothing; one that opens sets the IDE key, enters or leaves confidential mode where that is allowed, or ends the session with its stream's keys (14 R443, R444, R450). A request for a confidential partition outside its stream is counted and, when not posted, answered Unsupported (14 R447). The sequence rule is log entry 78, the ideal cipher log entry 22. -/
def Obligations.SessionsGuardConfidentialMode : Prop :=
  ∀ (p : Port) (seq part n : Nat) (msg : List Byte) (s : State), s.carries (.doe p) = true → s.pwr.stage = some n → 1 ≤ n →
    (part ≥ 16 ∨ s.owns p part = false ∨ (∃ x ∈ s.sec.sessions, x.part = part) →
      ∃ t, exec (.sessionOpen p seq part) s = .next t ∧ t.sec = s.sec ∧ t.counter (pSec + 0x078) = (s.counter (pSec + 0x078) + 1) % 2 ^ 64) ∧
    (part < 16 → s.owns p part = true → (∀ x ∈ s.sec.sessions, x.part ≠ part) →
      ∃ t x, exec (.sessionOpen p seq part) s = .next t ∧ t.sec = { s.sec with sessions := s.sec.sessions ++ [x], draws := s.sec.draws + 1 } ∧ x.part = part ∧ x.port = p ∧ x.keyed = false ∧
        x.seq = seq ∧ t.counter (pSec + 0x058) = (s.counter (pSec + 0x058) + 1) % 2 ^ 64) ∧
    (∀ ct, s.session p part = none ∨ (∃ x, s.session p part = some x ∧ x.keyed = true) ∨ ct.length ≠ 1568 → ∃ t, exec (.sessionKey p seq part ct) s = .next t ∧ t.sec = s.sec) ∧
    (∀ ct x, s.session p part = some x → x.keyed = false → ct.length = 1568 → ∃ t y, exec (.sessionKey p seq part ct) s = .next t ∧ t.session p part = some y ∧ y.keyed = true ∧ y.seq = seq ∧
      y = { x with key := y.key, keyed := true, seq := seq } ∧ t.sec = { s.sec with sessions := t.sec.sessions }) ∧
    (s.opens p part seq msg = none → ∀ c ∈ [Instr.setIdeKey p seq part msg, .sessionClose p seq part msg, .confidentialEnter p seq part msg, .confidentialExit p seq part msg],
      ∃ t, exec c s = .next t ∧ t.sec = s.sec ∧ t.fte = s.fte ∧ t.hbm = s.hbm ∧ bitOf (t.reg32 (pSec + 0x018)) 6 = true) ∧
    (∀ d u, s.opens p part seq msg = some (d, u) →
      (∃ t, exec (.setIdeKey p seq part msg) s = .next t ∧ t.sec = { u.sec with ide := tset s.sec.ide (p.idx * 16 + part) d } ∧ t.cmds = s.cmds) ∧
      (∃ t, exec (.sessionClose p seq part msg) s = .next t ∧ (∀ x ∈ t.sec.sessions, ¬(x.part = part ∧ x.port = p)) ∧ tget t.sec.ide (p.idx * 16 + part) = none ∧ t.cmds = s.cmds) ∧
      (u.mayEnter p part = false → ∃ t, exec (.confidentialEnter p seq part msg) s = .next t ∧ t.sec = u.sec ∧ t.hbm = s.hbm ∧ t.fte = s.fte) ∧
      (u.mayEnter p part = true → part < 16 → ∃ t, exec (.confidentialEnter p seq part msg) s = .next t ∧ t.confidential part = true ∧ (∀ q, q ≠ part → t.confidential q = s.confidential q) ∧
        (∀ e ∈ t.fte.map, ¬(tgetD s.fte.base part 0 * 65536 ≤ e.1 ∧ e.1 < tgetD s.fte.base part 0 * 65536 + tgetD s.fte.len part 0 * 65536)) ∧
        (tget t.sec.ctr part = none) ∧ t.cmds = s.cmds) ∧
      (u.confidential part = false → ∃ t, exec (.confidentialExit p seq part msg) s = .next t ∧ t.sec = u.sec ∧ t.hbm = s.hbm) ∧
      (u.confidential part = true → u.partIdle part = true → ∃ t, exec (.confidentialExit p seq part msg) s = .next t ∧ t.confidential part = false ∧ (∀ q, q ≠ part → t.confidential q = s.confidential q) ∧
        tget t.sec.buf part = none ∧ tget t.sec.nonce part = none ∧ t.cmds = s.cmds)) ∧
    (∀ posted, (s.confidential part = false → exec (.ideDrop p part posted) s = .next s) ∧
      (s.confidential part = true → ∃ t, exec (.ideDrop p part posted) s = .next t ∧ t.counter (pSec + 0x068) = (s.counter (pSec + 0x068) + 1) % 2 ^ 64 ∧ bitOf (t.reg32 (pSec + 0x018)) 4 = true ∧
        t.hbm = s.hbm ∧ t.cmds = s.cmds ∧ t.sec = s.sec))

/-! ## Management (15) -/

/-- Every Ebaety request but RESET is checked alike: not heard, it changes nothing; of an unsupported version, it is answered with status 1 and the versions; of a later class or code than its version has, with status 2; before its stage, with status 4; each is counted as a response and as an error, and changes nothing else (15 R470 to R474). RESET is answered and then restarts the core, through the flush from stage 3 on (15 R459). What Ebaety requests do once they are served: versions 1.0 to 1.2; status; registers read and written as the port's own agent reads and writes them; limits taken whole or, out of range, not at all; a domain requested; sensors, up to eight log entries and up to eight counters (15 R474, R476, 16 R501). The payload layouts of GET_STATUS and GET_SENSORS are free (log entry 83). -/
def Obligations.ManagementRequestsAreServed : Prop :=
  ((∀ (x : Nat → Nat) (on : Bool) (port : Port), ∀ row ∈ ebRows x on port, ∀ (t : Transport) (ver seq : Nat) (s : State),
       (s.hearsEb t = false → exec (row.1 t ver seq) s = .next s) ∧
       (s.hearsEb t = true → ebVersion ver = false → exec (row.1 t ver seq) s = .next (s.ebReply t ver row.2.1 row.2.2.1 seq 1 [0x10, 0x12])) ∧
       (s.hearsEb t = true → ebVersion ver = true → ver < row.2.2.2.1 → exec (row.1 t ver seq) s = .next (s.ebReply t ver row.2.1 row.2.2.1 seq 2 [])) ∧
       (s.hearsEb t = true → ebVersion ver = true → ver ≥ row.2.2.2.1 → s.fromStage row.2.2.2.2 = false → exec (row.1 t ver seq) s = .next (s.ebReply t ver row.2.1 row.2.2.1 seq 4 []))) ∧
     (∀ (t : Transport) (ver seq : Nat) (s : State),
       (s.hearsEb t = false → exec (.reset t ver seq) s = .next s) ∧
       (s.hearsEb t = true → ebVersion ver = true → s.pwr.good = true → s.pwr.flush = none → s.pwr.waitRestart = false →
         (s.fromStage 3 = true → ∃ u, exec (.reset t ver seq) s = .next u ∧ u.pwr = { s.pwr with flush := some 4, hold := false, holdInj := false } ∧ u.cmds = s.cmds ∧ u.hbm = s.hbm) ∧
         (s.fromStage 3 = false → ∃ u, exec (.reset t ver seq) s = .next u ∧ u.pwr.stage = some 0 ∧ u.cmds = [] ∧ u.pending = s.pending))) ∧
     (∀ (t : Transport) (ver cls code seq status : Nat) (d : List Byte) (s : State), ∃ u, s.ebReply t ver cls code seq status d = u ∧
       u.mgt.resp = s.mgt.resp ++ [(t, ebMsg ver cls code seq status d)] ∧ u.counter (pMgt + 0x040) = (s.counter (pMgt + 0x040) + 1) % 2 ^ 64 ∧
       (status ≠ 0 → u.counter (pMgt + 0x048) = (s.counter (pMgt + 0x048) + 1) % 2 ^ 64) ∧ (status = 0 → u.counter (pMgt + 0x048) = s.counter (pMgt + 0x048)) ∧
       u.cmds = s.cmds ∧ u.hbm = s.hbm ∧ u.sec = s.sec ∧ u.pwr = s.pwr)) ∧
  (∀ (t : Transport) (ver seq : Nat) (s : State),
       (s.ebServes t ver 0x10 0 = true →
         exec (.getVersion t ver seq) s = .next (s.ebReply t ver 1 0 seq 0 [0x10, 0x12]) ∧
         exec (.getStatus t ver seq) s = .next (s.ebReply t ver 1 1 seq 0 (Config.layout 0x101 s.statusFields)) ∧
         (∀ cap peak throttle trip, limitsOk cap peak throttle trip = false → exec (.setLimits t ver seq cap peak throttle trip) s = .next (s.ebReply t ver 1 5 seq 8 [])) ∧
         (∀ cap peak throttle trip, limitsOk cap peak throttle trip = true → ∃ u, exec (.setLimits t ver seq cap peak throttle trip) s = .next u ∧
           u.reg32 (pPwr + 0x118) = peak * 2 ^ 16 + cap ∧ u.reg32 (pPwr + 0x110) = trip * 2 ^ 8 + throttle ∧ u.cmds = s.cmds ∧ u.pwr = s.pwr) ∧
         exec (.getSensors t ver seq) s = .next (if s.powered 29 then s.ebReply t ver 2 0 seq 0 (Config.layout 0x200 s.pwr.sensors) else s.ebReply t ver 2 0 seq 7 []) ∧
         (∀ first n, exec (.getEvents t ver seq first n) s = .next (if s.powered 29 = false then s.ebReply t ver 2 1 seq 7 [] else if n = 0 ∨ n > 8 then s.ebReply t ver 2 1 seq 8 [] else
           s.ebReply t ver 2 1 seq 0 (s.eventsFrom first n)))) ∧
       (s.ebServes t ver 0x10 1 = true →
         (∀ off n, n = 0 ∨ n > 16 → exec (.readReg t ver seq off n) s = .next (s.ebReply t ver 1 2 seq 8 [])) ∧
         (∀ off n, 1 ≤ n → n ≤ 16 → off % 4 = 0 → exec (.readReg t ver seq off n) s =
           .next ((s.regReads (agentOf t) off n).2.ebReply t ver 1 2 seq 0 ((s.regReads (agentOf t) off n).1.map (leBytes 4)).flatten)) ∧
         (∀ off v mask, off % 4 = 0 → mask % 2 ^ 32 = 0 → exec (.writeReg t ver seq off v mask) s = .next (s.ebReply t ver 1 3 seq 0 [])) ∧
         (∀ off v, off % 4 = 0 → let u := s.regWrite (agentOf t) off (s.maskedValue (agentOf t) off v 0xFFFFFFFF)
           exec (.writeReg t ver seq off v 0xFFFFFFFF) s = .next (u.ebReply t ver 1 3 seq (if u.rwlDrops = s.rwlDrops then 0 else 6) [])) ∧
         (∀ off n v mask, off % 4 ≠ 0 → 1 ≤ n → n ≤ 16 → exec (.readReg t ver seq off n) s = .next (s.badAccess.ebReply t ver 1 2 seq 0 (zeros (4 * n))) ∧
           exec (.writeReg t ver seq off v mask) s = .next (s.badAccess.ebReply t ver 1 3 seq 0 [])) ∧
         (∀ page first n, exec (.getCounters t ver seq page first n) s = .next (if s.powered 29 = false then s.ebReply t ver 2 2 seq 7 [] else if n = 0 ∨ n > 8 then s.ebReply t ver 2 2 seq 8 [] else
           s.ebReply t ver 2 2 seq 0 ((List.range n).map fun i => leBytes 8 (s.showCounter (agentOf t) (page + first + 8 * i))).flatten))) ∧
       (s.ebServes t ver 0x12 2 = true → ∀ d on, exec (.pdControl t ver seq d on) s = .next ((s.pdRequest d on).1.ebReply t ver 1 6 seq (if (s.pdRequest d on).2 then 0 else 8) [])))

/-- The MCTP control messages work from stage 0 on: the endpoint ID is set and given, versions, message types and vendor-defined support are given, and a dynamic address takes the port out of SMBus mode; before that none is heard (15 R470). That an ID is stored as given is log entry 83. -/
def Obligations.MctpControlMessagesAreAnswered : Prop :=
  ∀ (x : Nat) (s : State),
    (s.pwr.stage = none → ∀ c ∈ [Instr.setEndpointId x, .getEndpointId, .getMctpVersionSupport x, .getMessageTypeSupport, .getVendorDefinedMsgSupport x, .dynamicAddressAssign x], exec c s = .next s) ∧
    (s.pwr.stage ≠ none →
      (∃ t l, exec (.setEndpointId x) s = .next t ∧ t.mgt = { s.mgt with eid := x % 256, resp := s.mgt.resp ++ [(.mctp, l)] } ∧ t = { s with mgt := t.mgt }) ∧
      (∃ t, exec (.getEndpointId) s = .next t ∧ t.mgt = { s.mgt with resp := s.mgt.resp ++ [(.mctp, Config.layout 0x47002 [s.mgt.eid])] } ∧ t = { s with mgt := t.mgt }) ∧
      (∃ t l, exec (.getMctpVersionSupport x) s = .next t ∧ t.mgt = { s.mgt with resp := s.mgt.resp ++ [(.mctp, l)] } ∧ t = { s with mgt := t.mgt }) ∧
      (∃ t, exec .getMessageTypeSupport s = .next t ∧ t.mgt = { s.mgt with resp := s.mgt.resp ++ [(.mctp, Config.layout 0x47005 [0x00, 0x7E])] } ∧ t = { s with mgt := t.mgt }) ∧
      (∃ t l, exec (.getVendorDefinedMsgSupport x) s = .next t ∧ t.mgt = { s.mgt with resp := s.mgt.resp ++ [(.mctp, l)] } ∧ t = { s with mgt := t.mgt }) ∧
      (∃ t, exec (.dynamicAddressAssign x) s = .next t ∧ t = { s with mgt := { s.mgt with i3c := true, dyn := x % 128 } }))

/-- TAKEOVER_AUTH for a partition and a port authorises one forced take of it through HIF_TAKE on that port: it is what allows the take there, for no other partition and no other port; the take uses it up, it lapses after 2^27 ticks and not before, and a further TAKEOVER_AUTH replaces it (15 R475). -/
def Obligations.TakeoverAuthorityIsForOneTake : Prop :=
  (∀ (ver seq part : Nat) (port : Port) (s : State), s.ebServes .mctp ver 0x12 5 = true → part < 16 →
    ∃ t, exec (.takeoverAuth .mctp ver seq part port) s = .next t ∧ t.mgt.auth = some (part, port, s.time.lctr) ∧ t.mayForce port part = true ∧
      (∀ p q, (p, q) ≠ (port, part) → (s.port p).peerDown = false → t.mayForce p q = false) ∧ t.cmds = s.cmds ∧ t.pa = s.pa ∧ t.pb = s.pb) ∧
  (∀ (a : Agent) (p : Port) (part at' : Nat) (s : State), s.mgt.auth = some (part, p, at') → part < 16 → (s.port p).peerDown = false → s.owns p.other part = true →
    s.reaches a (pHif p + 0x110) = true → s.pwr.stage = some 5 → ∃ t, exec (.forcedTakeover a p (2 ^ part)) s = .next t ∧ t.owns p part = true ∧ t.mgt.auth = none) ∧
  (∀ s : State,
    (s.mgt.auth = none → exec .takeoverAuthLapse s = .next s) ∧
    (∀ q p at', s.mgt.auth = some (q, p, at') → s.time.lctr < at' + 2 ^ 27 → exec .takeoverAuthLapse s = .next s) ∧
    (∀ q p at', s.mgt.auth = some (q, p, at') → s.time.lctr ≥ at' + 2 ^ 27 → exec .takeoverAuthLapse s = .next { s with mgt := { s.mgt with auth := none } }))

/-! ## The event log (16) -/

/-- An occurrence with the CODE, PART, CONTEXT and DETAILs of its page's newest entry within 2^20 ticks of that entry's TIME writes no new entry: that entry's COUNT goes up by 1 (it saturates at 65,535), the fold is counted in GLB_EVT_FOLDS, and TIME and SEQ keep their first values; any other occurrence writes a new entry (16 R499). -/
def Obligations.EventsFoldIntoTheNewestEntry : Prop :=
  ∀ (s : State) (base code sev d0 d1 : Nat) (at' : Attr) (pg : Page) (e : Event), pageOf base = some pg → (s.reg.log.find? fun x => x.source == pg.id) = some e →
    (∀ p, at'.part = some p → s.confidential p = false) →
    let part := at'.part.elim 0 fun p => p % 16 + 16
    let same := e.code = code ∧ e.part = part ∧ e.ctx = at'.ctx ∧ e.d0 = d0 % 2 ^ 32 ∧ e.d1 = d1 % 2 ^ 32 ∧ s.time.lctr - e.time ≤ 2 ^ 20
    (same → (s.logEvent base code sev at' d0 d1).reg.log = s.reg.log.map (fun x => if x.seq = e.seq then { x with count := min 65535 (x.count + 1) } else x) ∧
      (s.logEvent base code sev at' d0 d1).counter 0x048 = (s.counter 0x048 + 1) % 2 ^ 64 ∧ (s.logEvent base code sev at' d0 d1).reg.head = s.reg.head) ∧
    (¬same → ∃ x, (s.logEvent base code sev at' d0 d1).reg.log = (x :: s.reg.log).take 4096 ∧ x.code = code ∧ x.part = part ∧ x.ctx = at'.ctx ∧ x.d0 = d0 % 2 ^ 32 ∧ x.d1 = d1 % 2 ^ 32 ∧
      x.count = 1 ∧ x.time = s.time.lctr ∧ x.source = pg.id ∧ x.seq = nextSeq s.reg.head)

/-- An event attributed to a confidential partition is logged with PART_VALID 1 and REDACTED 1, and with CONTEXT, DETAIL0 and DETAIL1 0 (16 R500): its entry is the same whatever they were. -/
def Obligations.ConfidentialEventsAreRedacted : Prop :=
  ∀ (s : State) (base code sev p ctx d0 d1 : Nat), s.confidential p = true →
    (∀ ctx' d0' d1', s.logEvent base code sev ⟨some p, ctx⟩ d0 d1 = s.logEvent base code sev ⟨some p, ctx'⟩ d0' d1') ∧
    (∀ pg, pageOf base = some pg → (∀ x ∈ s.reg.log, x.source ≠ pg.id) → ∃ x, (s.logEvent base code sev ⟨some p, ctx⟩ d0 d1).reg.log = (x :: s.reg.log).take 4096 ∧
      bitOf x.part 4 = true ∧ bitOf x.part 5 = true ∧ x.part % 16 = p % 16 ∧ x.ctx = 0 ∧ x.d0 = 0 ∧ x.d1 = 0)
end

