-- ==== Sys2Proof/Laws/Memory.lean ====
section
/-! SUPPORT. The list of HBM cells: read after write, and its canonical form under every operation. -/

namespace Sys2Proof.Machine

/-! ## Tables -/

theorem tget_tset_same {β : Type} (t : List (Nat × β)) (k : Nat) (v : β) : tget (tset t k v) k = some v := by
  induction t with
  | nil => simp [tset, tget]
  | cons x r ih =>
    obtain ⟨j, w⟩ := x
    by_cases h : j = k
    · simp [tset, tget, h]
    · by_cases h2 : k < j
      · simp [tset, tget, h, h2]
      · simp [tset, tget, h, h2, ih]

theorem tget_tset_ne {β : Type} (t : List (Nat × β)) (k i : Nat) (v : β) (hi : i ≠ k) : tget (tset t k v) i = tget t i := by
  induction t with
  | nil =>
    simp only [tset, tget]
    have : (k == i) = false := by simpa using fun h : k = i => hi h.symm
    rw [this]; simp
  | cons x r ih =>
    obtain ⟨j, w⟩ := x
    have hk : (k == i) = false := by simpa using fun h : k = i => hi h.symm
    by_cases h : j = k
    · subst h; simp [tset, tget, hk]
    · by_cases h2 : k < j
      · simp only [tset, beq_iff_eq, h, h2, if_true, if_false, tget, hk]
        by_cases h3 : i < k
        · have h4 : i < j := Nat.lt_trans h3 h2
          have h5 : ¬j = i := by omega
          simp [h3, h4, h5]
        · simp [h3]
      · simp [tset, h, h2, tget, ih]

/-! ## The canonical form -/

theorem memWf_cons {a : Nat} {b : Byte} {m : List Host.Cell} :
    memWf ((a, b) :: m) = true ↔ b ≠ 0 ∧ (∀ c ∈ m, a < c.1) ∧ memWf m = true := by
  simp [memWf, and_assoc]

theorem memWf_filter (p : Host.Cell → Bool) : ∀ {m : List Host.Cell}, memWf m = true → memWf (m.filter p) = true
  | [], _ => by simp [memWf]
  | (a, b) :: m, h => by
    obtain ⟨h1, h2, h3⟩ := memWf_cons.1 h
    by_cases hp : p (a, b)
    · rw [List.filter_cons_of_pos hp, memWf_cons]
      exact ⟨h1, fun c hc => h2 c (List.mem_filter.1 hc).1, memWf_filter p h3⟩
    · rw [List.filter_cons_of_neg hp]; exact memWf_filter p h3

theorem mem_tset {m : List Host.Cell} {a : Nat} {b : Byte} {c : Host.Cell} (h : c ∈ tset m a b) : c = (a, b) ∨ c ∈ m := by
  induction m with
  | nil => left; simpa [tset] using h
  | cons x r ih =>
    obtain ⟨j, w⟩ := x
    unfold tset at h
    split at h
    · simp at h; rcases h with h | h <;> simp [h]
    · split at h
      · simp at h; rcases h with h | h | h <;> simp [h]
      · simp at h
        rcases h with h | h
        · simp [h]
        · rcases ih h with h | h <;> simp [h]

theorem mem_tdel {m : List Host.Cell} {a : Nat} {c : Host.Cell} (h : c ∈ tdel m a) : c ∈ m := by
  induction m with
  | nil => simp [tdel] at h
  | cons x r ih =>
    obtain ⟨j, w⟩ := x
    unfold tdel at h
    split at h
    · simp [ih h]
    · simp at h
      rcases h with h | h
      · simp [h]
      · simp [ih h]

theorem memWf_tset {a : Nat} {b : Byte} (hb : b ≠ 0) : ∀ {m : List Host.Cell}, memWf m = true → memWf (tset m a b) = true
  | [], _ => by
    rw [tset, memWf_cons]
    exact ⟨hb, by simp, rfl⟩
  | (j, w) :: m, h => by
    obtain ⟨h1, h2, h3⟩ := memWf_cons.1 h
    unfold tset
    split
    · rename_i e
      have e : j = a := by simpa using e
      rw [memWf_cons]; exact ⟨hb, e ▸ h2, h3⟩
    · rename_i e
      have e : j ≠ a := by simpa using e
      split
      · rename_i l
        rw [memWf_cons]
        refine ⟨hb, fun c hc => ?_, h⟩
        rcases List.mem_cons.1 hc with hc | hc
        · simp [hc, l]
        · exact Nat.lt_trans l (h2 c hc)
      · rw [memWf_cons]
        refine ⟨h1, fun c hc => ?_, memWf_tset hb h3⟩
        rcases mem_tset hc with hc | hc
        · simp [hc]; omega
        · exact h2 c hc

theorem memWf_tdel {a : Nat} : ∀ {m : List Host.Cell}, memWf m = true → memWf (tdel m a) = true
  | [], _ => by simp [tdel, memWf]
  | (j, w) :: m, h => by
    obtain ⟨h1, h2, h3⟩ := memWf_cons.1 h
    unfold tdel
    split
    · exact memWf_tdel h3
    · rw [memWf_cons]
      exact ⟨h1, fun c hc => h2 c (mem_tdel hc), memWf_tdel h3⟩

theorem memWf_memSet {m : List Host.Cell} (a : Nat) (b : Byte) (h : memWf m = true) : memWf (memSet m a b) = true := by
  unfold memSet
  split
  · exact memWf_tdel h
  · rename_i hb; exact memWf_tset (by simpa using hb) h

theorem memWf_memWrite (l : List Byte) : ∀ {m : List Host.Cell} (a : Nat), memWf m = true → memWf (memWrite m a l) = true := by
  induction l with
  | nil => intro m a h; simpa [memWrite] using h
  | cons b r ih => intro m a h; simpa [memWrite] using ih (a + 1) (memWf_memSet a b h)

theorem memWf_foldl_memSet (l : List Host.Cell) : ∀ {m : List Host.Cell}, memWf m = true → memWf (l.foldl (fun m c => memSet m c.1 c.2) m) = true := by
  induction l with
  | nil => intro m h; simpa using h
  | cons c r ih => intro m h; simpa using ih (memWf_memSet c.1 c.2 h)

/-! ## Read after write -/

theorem tget_tdel_ne {β : Type} (t : List (Nat × β)) (k i : Nat) (hi : i ≠ k) : tget (tdel t k) i = tget t i ∨ i < k := by
  by_cases h : i < k
  · exact .inr h
  · left
    induction t with
    | nil => simp [tdel]
    | cons x r ih =>
      obtain ⟨j, w⟩ := x
      by_cases h1 : j = k
      · subst h1
        have : (j == i) = false := by simpa using fun e : j = i => hi e.symm
        simp [tdel, tget, this, h, ih]
      · simp [tdel, tget, h1, ih]

/-- What was taken out of a table is not there, whatever the order of the list. -/
@[simp] theorem tget_tdel_same {β : Type} (t : List (Nat × β)) (k : Nat) : tget (tdel t k) k = none := by
  induction t with
  | nil => simp [tdel, tget]
  | cons x r ih =>
    obtain ⟨j, w⟩ := x
    by_cases h : j = k
    · simp [tdel, h, ih]
    · simp [tdel, tget, h, ih]

theorem tget_below {β : Type} {t : List (Nat × β)} {k : Nat} (h : ∀ c ∈ t, k < c.1) : tget t k = none := by
  cases t with
  | nil => rfl
  | cons x r =>
    have := h x (by simp)
    have e : (x.1 == k) = false := by simp; omega
    simp [tget, e, this]

/-- A byte written reads back (any list: no canonical form is needed where the byte is not 0). -/
theorem memGet_memSet_same {m : List Host.Cell} (a : Nat) (b : Byte) (h : memWf m = true) : memGet (memSet m a b) a = b := by
  unfold memSet
  split
  · rename_i hb
    have hb : b = 0 := by simpa using hb
    subst hb
    simp [memGet, tgetD]
  · simp [memGet, tgetD, tget_tset_same]

theorem memGet_memSet_ne {m : List Host.Cell} (a i : Nat) (b : Byte) (h : memWf m = true) (hi : i ≠ a) : memGet (memSet m a b) i = memGet m i := by
  unfold memSet
  split
  · unfold memGet tgetD
    congr 1
    induction m with
    | nil => simp [tdel]
    | cons x r ih =>
      obtain ⟨j, w⟩ := x
      obtain ⟨_, h2, h3⟩ := memWf_cons.1 h
      by_cases h1 : j = a
      · subst h1
        have hj : ¬j = i := fun e => hi e.symm
        by_cases hl : i < j
        · rw [tget_below (fun c hc => Nat.lt_trans hl (h2 c (mem_tdel (by simpa [tdel] using hc))))]
          simp [tget, hj, hl]
        · simp [tdel, tget, hj, hl, ih h3]
      · simp [tdel, tget, h1, ih h3]
  · unfold memGet tgetD
    rw [tget_tset_ne _ _ _ _ hi]

end Sys2Proof.Machine
end

