-- ==== Sys2Proof/Laws/State.lean ====
section
/-! SUPPORT. What each primitive update of the state leaves alone, field by field, and what reading back what it wrote gives. -/

namespace Sys2Proof.Machine

open Sys2Proof

/-! ## setRing -/

@[simp] theorem State.setRing_pending (s : State) (p : Port) (c : Nat) (r : Ring) : (s.setRing p c r).pending = s.pending := rfl
@[simp] theorem State.setRing_free (s : State) (p : Port) (c : Nat) (r : Ring) : (s.setRing p c r).free = s.free := rfl
@[simp] theorem State.setRing_nextCmd (s : State) (p : Port) (c : Nat) (r : Ring) : (s.setRing p c r).nextCmd = s.nextCmd := rfl
@[simp] theorem State.setRing_nextTxn (s : State) (p : Port) (c : Nat) (r : Ring) : (s.setRing p c r).nextTxn = s.nextTxn := rfl
@[simp] theorem State.setRing_time (s : State) (p : Port) (c : Nat) (r : Ring) : (s.setRing p c r).time = s.time := rfl
@[simp] theorem State.setRing_pwr (s : State) (p : Port) (c : Nat) (r : Ring) : (s.setRing p c r).pwr = s.pwr := rfl
@[simp] theorem State.setRing_reg (s : State) (p : Port) (c : Nat) (r : Ring) : (s.setRing p c r).reg = s.reg := rfl
@[simp] theorem State.setRing_pa (s : State) (p : Port) (c : Nat) (r : Ring) : (s.setRing p c r).pa = s.pa := rfl
@[simp] theorem State.setRing_pb (s : State) (p : Port) (c : Nat) (r : Ring) : (s.setRing p c r).pb = s.pb := rfl
@[simp] theorem State.setRing_refuse (s : State) (p : Port) (c : Nat) (r : Ring) : (s.setRing p c r).refuse = s.refuse := rfl
@[simp] theorem State.setRing_cmds (s : State) (p : Port) (c : Nat) (r : Ring) : (s.setRing p c r).cmds = s.cmds := rfl
@[simp] theorem State.setRing_ctxs (s : State) (p : Port) (c : Nat) (r : Ring) : (s.setRing p c r).ctxs = s.ctxs := rfl
@[simp] theorem State.setRing_parts (s : State) (p : Port) (c : Nat) (r : Ring) : (s.setRing p c r).parts = s.parts := rfl
@[simp] theorem State.setRing_hbm (s : State) (p : Port) (c : Nat) (r : Ring) : (s.setRing p c r).hbm = s.hbm := rfl
@[simp] theorem State.setRing_frets (s : State) (p : Port) (c : Nat) (r : Ring) : (s.setRing p c r).frets = s.frets := rfl
@[simp] theorem State.setRing_sbc (s : State) (p : Port) (c : Nat) (r : Ring) : (s.setRing p c r).sbc = s.sbc := rfl
@[simp] theorem State.setRing_arr (s : State) (p : Port) (c : Nat) (r : Ring) : (s.setRing p c r).arr = s.arr := rfl
@[simp] theorem State.setRing_peg (s : State) (p : Port) (c : Nat) (r : Ring) : (s.setRing p c r).peg = s.peg := rfl
@[simp] theorem State.setRing_selMax (s : State) (p : Port) (c : Nat) (r : Ring) : (s.setRing p c r).selMax = s.selMax := rfl
@[simp] theorem State.setRing_regions (s : State) (p : Port) (c : Nat) (r : Ring) : (s.setRing p c r).regions = s.regions := rfl
@[simp] theorem State.setRing_shards (s : State) (p : Port) (c : Nat) (r : Ring) : (s.setRing p c r).shards = s.shards := rfl
@[simp] theorem State.setRing_walks (s : State) (p : Port) (c : Nat) (r : Ring) : (s.setRing p c r).walks = s.walks := rfl
@[simp] theorem State.setRing_walkPeak (s : State) (p : Port) (c : Nat) (r : Ring) : (s.setRing p c r).walkPeak = s.walkPeak := rfl
@[simp] theorem State.setRing_pfPeak (s : State) (p : Port) (c : Nat) (r : Ring) : (s.setRing p c r).pfPeak = s.pfPeak := rfl
@[simp] theorem State.setRing_fte (s : State) (p : Port) (c : Nat) (r : Ring) : (s.setRing p c r).fte = s.fte := rfl
@[simp] theorem State.setRing_fab (s : State) (p : Port) (c : Nat) (r : Ring) : (s.setRing p c r).fab = s.fab := rfl
@[simp] theorem State.setRing_col (s : State) (p : Port) (c : Nat) (r : Ring) : (s.setRing p c r).col = s.col := rfl
@[simp] theorem State.setRing_cmp (s : State) (p : Port) (c : Nat) (r : Ring) : (s.setRing p c r).cmp = s.cmp := rfl
@[simp] theorem State.setRing_sec (s : State) (p : Port) (c : Nat) (r : Ring) : (s.setRing p c r).sec = s.sec := rfl
@[simp] theorem State.setRing_mgt (s : State) (p : Port) (c : Nat) (r : Ring) : (s.setRing p c r).mgt = s.mgt := rfl

/-! ## modCtx -/

@[simp] theorem State.modCtx_pending (s : State) (n : Nat) (f : CtxEnt → CtxEnt) : (s.modCtx n f).pending = s.pending := rfl
@[simp] theorem State.modCtx_free (s : State) (n : Nat) (f : CtxEnt → CtxEnt) : (s.modCtx n f).free = s.free := rfl
@[simp] theorem State.modCtx_nextCmd (s : State) (n : Nat) (f : CtxEnt → CtxEnt) : (s.modCtx n f).nextCmd = s.nextCmd := rfl
@[simp] theorem State.modCtx_nextTxn (s : State) (n : Nat) (f : CtxEnt → CtxEnt) : (s.modCtx n f).nextTxn = s.nextTxn := rfl
@[simp] theorem State.modCtx_time (s : State) (n : Nat) (f : CtxEnt → CtxEnt) : (s.modCtx n f).time = s.time := rfl
@[simp] theorem State.modCtx_pwr (s : State) (n : Nat) (f : CtxEnt → CtxEnt) : (s.modCtx n f).pwr = s.pwr := rfl
@[simp] theorem State.modCtx_reg (s : State) (n : Nat) (f : CtxEnt → CtxEnt) : (s.modCtx n f).reg = s.reg := rfl
@[simp] theorem State.modCtx_pa (s : State) (n : Nat) (f : CtxEnt → CtxEnt) : (s.modCtx n f).pa = s.pa := rfl
@[simp] theorem State.modCtx_pb (s : State) (n : Nat) (f : CtxEnt → CtxEnt) : (s.modCtx n f).pb = s.pb := rfl
@[simp] theorem State.modCtx_rings (s : State) (n : Nat) (f : CtxEnt → CtxEnt) : (s.modCtx n f).rings = s.rings := rfl
@[simp] theorem State.modCtx_refuse (s : State) (n : Nat) (f : CtxEnt → CtxEnt) : (s.modCtx n f).refuse = s.refuse := rfl
@[simp] theorem State.modCtx_cmds (s : State) (n : Nat) (f : CtxEnt → CtxEnt) : (s.modCtx n f).cmds = s.cmds := rfl
@[simp] theorem State.modCtx_parts (s : State) (n : Nat) (f : CtxEnt → CtxEnt) : (s.modCtx n f).parts = s.parts := rfl
@[simp] theorem State.modCtx_hbm (s : State) (n : Nat) (f : CtxEnt → CtxEnt) : (s.modCtx n f).hbm = s.hbm := rfl
@[simp] theorem State.modCtx_frets (s : State) (n : Nat) (f : CtxEnt → CtxEnt) : (s.modCtx n f).frets = s.frets := rfl
@[simp] theorem State.modCtx_sbc (s : State) (n : Nat) (f : CtxEnt → CtxEnt) : (s.modCtx n f).sbc = s.sbc := rfl
@[simp] theorem State.modCtx_arr (s : State) (n : Nat) (f : CtxEnt → CtxEnt) : (s.modCtx n f).arr = s.arr := rfl
@[simp] theorem State.modCtx_peg (s : State) (n : Nat) (f : CtxEnt → CtxEnt) : (s.modCtx n f).peg = s.peg := rfl
@[simp] theorem State.modCtx_selMax (s : State) (n : Nat) (f : CtxEnt → CtxEnt) : (s.modCtx n f).selMax = s.selMax := rfl
@[simp] theorem State.modCtx_regions (s : State) (n : Nat) (f : CtxEnt → CtxEnt) : (s.modCtx n f).regions = s.regions := rfl
@[simp] theorem State.modCtx_shards (s : State) (n : Nat) (f : CtxEnt → CtxEnt) : (s.modCtx n f).shards = s.shards := rfl
@[simp] theorem State.modCtx_walks (s : State) (n : Nat) (f : CtxEnt → CtxEnt) : (s.modCtx n f).walks = s.walks := rfl
@[simp] theorem State.modCtx_walkPeak (s : State) (n : Nat) (f : CtxEnt → CtxEnt) : (s.modCtx n f).walkPeak = s.walkPeak := rfl
@[simp] theorem State.modCtx_pfPeak (s : State) (n : Nat) (f : CtxEnt → CtxEnt) : (s.modCtx n f).pfPeak = s.pfPeak := rfl
@[simp] theorem State.modCtx_fte (s : State) (n : Nat) (f : CtxEnt → CtxEnt) : (s.modCtx n f).fte = s.fte := rfl
@[simp] theorem State.modCtx_fab (s : State) (n : Nat) (f : CtxEnt → CtxEnt) : (s.modCtx n f).fab = s.fab := rfl
@[simp] theorem State.modCtx_col (s : State) (n : Nat) (f : CtxEnt → CtxEnt) : (s.modCtx n f).col = s.col := rfl
@[simp] theorem State.modCtx_cmp (s : State) (n : Nat) (f : CtxEnt → CtxEnt) : (s.modCtx n f).cmp = s.cmp := rfl
@[simp] theorem State.modCtx_sec (s : State) (n : Nat) (f : CtxEnt → CtxEnt) : (s.modCtx n f).sec = s.sec := rfl
@[simp] theorem State.modCtx_mgt (s : State) (n : Nat) (f : CtxEnt → CtxEnt) : (s.modCtx n f).mgt = s.mgt := rfl

/-! ## modPart -/

@[simp] theorem State.modPart_pending (s : State) (p : Nat) (f : PartSt → PartSt) : (s.modPart p f).pending = s.pending := rfl
@[simp] theorem State.modPart_free (s : State) (p : Nat) (f : PartSt → PartSt) : (s.modPart p f).free = s.free := rfl
@[simp] theorem State.modPart_nextCmd (s : State) (p : Nat) (f : PartSt → PartSt) : (s.modPart p f).nextCmd = s.nextCmd := rfl
@[simp] theorem State.modPart_nextTxn (s : State) (p : Nat) (f : PartSt → PartSt) : (s.modPart p f).nextTxn = s.nextTxn := rfl
@[simp] theorem State.modPart_time (s : State) (p : Nat) (f : PartSt → PartSt) : (s.modPart p f).time = s.time := rfl
@[simp] theorem State.modPart_pwr (s : State) (p : Nat) (f : PartSt → PartSt) : (s.modPart p f).pwr = s.pwr := rfl
@[simp] theorem State.modPart_reg (s : State) (p : Nat) (f : PartSt → PartSt) : (s.modPart p f).reg = s.reg := rfl
@[simp] theorem State.modPart_pa (s : State) (p : Nat) (f : PartSt → PartSt) : (s.modPart p f).pa = s.pa := rfl
@[simp] theorem State.modPart_pb (s : State) (p : Nat) (f : PartSt → PartSt) : (s.modPart p f).pb = s.pb := rfl
@[simp] theorem State.modPart_rings (s : State) (p : Nat) (f : PartSt → PartSt) : (s.modPart p f).rings = s.rings := rfl
@[simp] theorem State.modPart_refuse (s : State) (p : Nat) (f : PartSt → PartSt) : (s.modPart p f).refuse = s.refuse := rfl
@[simp] theorem State.modPart_cmds (s : State) (p : Nat) (f : PartSt → PartSt) : (s.modPart p f).cmds = s.cmds := rfl
@[simp] theorem State.modPart_ctxs (s : State) (p : Nat) (f : PartSt → PartSt) : (s.modPart p f).ctxs = s.ctxs := rfl
@[simp] theorem State.modPart_hbm (s : State) (p : Nat) (f : PartSt → PartSt) : (s.modPart p f).hbm = s.hbm := rfl
@[simp] theorem State.modPart_frets (s : State) (p : Nat) (f : PartSt → PartSt) : (s.modPart p f).frets = s.frets := rfl
@[simp] theorem State.modPart_sbc (s : State) (p : Nat) (f : PartSt → PartSt) : (s.modPart p f).sbc = s.sbc := rfl
@[simp] theorem State.modPart_arr (s : State) (p : Nat) (f : PartSt → PartSt) : (s.modPart p f).arr = s.arr := rfl
@[simp] theorem State.modPart_peg (s : State) (p : Nat) (f : PartSt → PartSt) : (s.modPart p f).peg = s.peg := rfl
@[simp] theorem State.modPart_selMax (s : State) (p : Nat) (f : PartSt → PartSt) : (s.modPart p f).selMax = s.selMax := rfl
@[simp] theorem State.modPart_regions (s : State) (p : Nat) (f : PartSt → PartSt) : (s.modPart p f).regions = s.regions := rfl
@[simp] theorem State.modPart_shards (s : State) (p : Nat) (f : PartSt → PartSt) : (s.modPart p f).shards = s.shards := rfl
@[simp] theorem State.modPart_walks (s : State) (p : Nat) (f : PartSt → PartSt) : (s.modPart p f).walks = s.walks := rfl
@[simp] theorem State.modPart_walkPeak (s : State) (p : Nat) (f : PartSt → PartSt) : (s.modPart p f).walkPeak = s.walkPeak := rfl
@[simp] theorem State.modPart_pfPeak (s : State) (p : Nat) (f : PartSt → PartSt) : (s.modPart p f).pfPeak = s.pfPeak := rfl
@[simp] theorem State.modPart_fte (s : State) (p : Nat) (f : PartSt → PartSt) : (s.modPart p f).fte = s.fte := rfl
@[simp] theorem State.modPart_fab (s : State) (p : Nat) (f : PartSt → PartSt) : (s.modPart p f).fab = s.fab := rfl
@[simp] theorem State.modPart_col (s : State) (p : Nat) (f : PartSt → PartSt) : (s.modPart p f).col = s.col := rfl
@[simp] theorem State.modPart_cmp (s : State) (p : Nat) (f : PartSt → PartSt) : (s.modPart p f).cmp = s.cmp := rfl
@[simp] theorem State.modPart_sec (s : State) (p : Nat) (f : PartSt → PartSt) : (s.modPart p f).sec = s.sec := rfl
@[simp] theorem State.modPart_mgt (s : State) (p : Nat) (f : PartSt → PartSt) : (s.modPart p f).mgt = s.mgt := rfl

/-! ## modCapo -/

@[simp] theorem State.modCapo_pending (s : State) (p r : Nat) (f : Capo → Capo) : (s.modCapo p r f).pending = s.pending := rfl
@[simp] theorem State.modCapo_free (s : State) (p r : Nat) (f : Capo → Capo) : (s.modCapo p r f).free = s.free := rfl
@[simp] theorem State.modCapo_nextCmd (s : State) (p r : Nat) (f : Capo → Capo) : (s.modCapo p r f).nextCmd = s.nextCmd := rfl
@[simp] theorem State.modCapo_nextTxn (s : State) (p r : Nat) (f : Capo → Capo) : (s.modCapo p r f).nextTxn = s.nextTxn := rfl
@[simp] theorem State.modCapo_time (s : State) (p r : Nat) (f : Capo → Capo) : (s.modCapo p r f).time = s.time := rfl
@[simp] theorem State.modCapo_pwr (s : State) (p r : Nat) (f : Capo → Capo) : (s.modCapo p r f).pwr = s.pwr := rfl
@[simp] theorem State.modCapo_reg (s : State) (p r : Nat) (f : Capo → Capo) : (s.modCapo p r f).reg = s.reg := rfl
@[simp] theorem State.modCapo_pa (s : State) (p r : Nat) (f : Capo → Capo) : (s.modCapo p r f).pa = s.pa := rfl
@[simp] theorem State.modCapo_pb (s : State) (p r : Nat) (f : Capo → Capo) : (s.modCapo p r f).pb = s.pb := rfl
@[simp] theorem State.modCapo_rings (s : State) (p r : Nat) (f : Capo → Capo) : (s.modCapo p r f).rings = s.rings := rfl
@[simp] theorem State.modCapo_refuse (s : State) (p r : Nat) (f : Capo → Capo) : (s.modCapo p r f).refuse = s.refuse := rfl
@[simp] theorem State.modCapo_cmds (s : State) (p r : Nat) (f : Capo → Capo) : (s.modCapo p r f).cmds = s.cmds := rfl
@[simp] theorem State.modCapo_ctxs (s : State) (p r : Nat) (f : Capo → Capo) : (s.modCapo p r f).ctxs = s.ctxs := rfl
@[simp] theorem State.modCapo_hbm (s : State) (p r : Nat) (f : Capo → Capo) : (s.modCapo p r f).hbm = s.hbm := rfl
@[simp] theorem State.modCapo_frets (s : State) (p r : Nat) (f : Capo → Capo) : (s.modCapo p r f).frets = s.frets := rfl
@[simp] theorem State.modCapo_sbc (s : State) (p r : Nat) (f : Capo → Capo) : (s.modCapo p r f).sbc = s.sbc := rfl
@[simp] theorem State.modCapo_arr (s : State) (p r : Nat) (f : Capo → Capo) : (s.modCapo p r f).arr = s.arr := rfl
@[simp] theorem State.modCapo_peg (s : State) (p r : Nat) (f : Capo → Capo) : (s.modCapo p r f).peg = s.peg := rfl
@[simp] theorem State.modCapo_selMax (s : State) (p r : Nat) (f : Capo → Capo) : (s.modCapo p r f).selMax = s.selMax := rfl
@[simp] theorem State.modCapo_regions (s : State) (p r : Nat) (f : Capo → Capo) : (s.modCapo p r f).regions = s.regions := rfl
@[simp] theorem State.modCapo_shards (s : State) (p r : Nat) (f : Capo → Capo) : (s.modCapo p r f).shards = s.shards := rfl
@[simp] theorem State.modCapo_walks (s : State) (p r : Nat) (f : Capo → Capo) : (s.modCapo p r f).walks = s.walks := rfl
@[simp] theorem State.modCapo_walkPeak (s : State) (p r : Nat) (f : Capo → Capo) : (s.modCapo p r f).walkPeak = s.walkPeak := rfl
@[simp] theorem State.modCapo_pfPeak (s : State) (p r : Nat) (f : Capo → Capo) : (s.modCapo p r f).pfPeak = s.pfPeak := rfl
@[simp] theorem State.modCapo_fte (s : State) (p r : Nat) (f : Capo → Capo) : (s.modCapo p r f).fte = s.fte := rfl
@[simp] theorem State.modCapo_fab (s : State) (p r : Nat) (f : Capo → Capo) : (s.modCapo p r f).fab = s.fab := rfl
@[simp] theorem State.modCapo_col (s : State) (p r : Nat) (f : Capo → Capo) : (s.modCapo p r f).col = s.col := rfl
@[simp] theorem State.modCapo_cmp (s : State) (p r : Nat) (f : Capo → Capo) : (s.modCapo p r f).cmp = s.cmp := rfl
@[simp] theorem State.modCapo_sec (s : State) (p r : Nat) (f : Capo → Capo) : (s.modCapo p r f).sec = s.sec := rfl
@[simp] theorem State.modCapo_mgt (s : State) (p r : Nat) (f : Capo → Capo) : (s.modCapo p r f).mgt = s.mgt := rfl

/-! ## modCmd -/

@[simp] theorem State.modCmd_pending (s : State) (i : Nat) (f : Cmd → Cmd) : (s.modCmd i f).pending = s.pending := rfl
@[simp] theorem State.modCmd_free (s : State) (i : Nat) (f : Cmd → Cmd) : (s.modCmd i f).free = s.free := rfl
@[simp] theorem State.modCmd_nextCmd (s : State) (i : Nat) (f : Cmd → Cmd) : (s.modCmd i f).nextCmd = s.nextCmd := rfl
@[simp] theorem State.modCmd_nextTxn (s : State) (i : Nat) (f : Cmd → Cmd) : (s.modCmd i f).nextTxn = s.nextTxn := rfl
@[simp] theorem State.modCmd_time (s : State) (i : Nat) (f : Cmd → Cmd) : (s.modCmd i f).time = s.time := rfl
@[simp] theorem State.modCmd_pwr (s : State) (i : Nat) (f : Cmd → Cmd) : (s.modCmd i f).pwr = s.pwr := rfl
@[simp] theorem State.modCmd_reg (s : State) (i : Nat) (f : Cmd → Cmd) : (s.modCmd i f).reg = s.reg := rfl
@[simp] theorem State.modCmd_pa (s : State) (i : Nat) (f : Cmd → Cmd) : (s.modCmd i f).pa = s.pa := rfl
@[simp] theorem State.modCmd_pb (s : State) (i : Nat) (f : Cmd → Cmd) : (s.modCmd i f).pb = s.pb := rfl
@[simp] theorem State.modCmd_rings (s : State) (i : Nat) (f : Cmd → Cmd) : (s.modCmd i f).rings = s.rings := rfl
@[simp] theorem State.modCmd_refuse (s : State) (i : Nat) (f : Cmd → Cmd) : (s.modCmd i f).refuse = s.refuse := rfl
@[simp] theorem State.modCmd_ctxs (s : State) (i : Nat) (f : Cmd → Cmd) : (s.modCmd i f).ctxs = s.ctxs := rfl
@[simp] theorem State.modCmd_parts (s : State) (i : Nat) (f : Cmd → Cmd) : (s.modCmd i f).parts = s.parts := rfl
@[simp] theorem State.modCmd_hbm (s : State) (i : Nat) (f : Cmd → Cmd) : (s.modCmd i f).hbm = s.hbm := rfl
@[simp] theorem State.modCmd_frets (s : State) (i : Nat) (f : Cmd → Cmd) : (s.modCmd i f).frets = s.frets := rfl
@[simp] theorem State.modCmd_sbc (s : State) (i : Nat) (f : Cmd → Cmd) : (s.modCmd i f).sbc = s.sbc := rfl
@[simp] theorem State.modCmd_arr (s : State) (i : Nat) (f : Cmd → Cmd) : (s.modCmd i f).arr = s.arr := rfl
@[simp] theorem State.modCmd_peg (s : State) (i : Nat) (f : Cmd → Cmd) : (s.modCmd i f).peg = s.peg := rfl
@[simp] theorem State.modCmd_selMax (s : State) (i : Nat) (f : Cmd → Cmd) : (s.modCmd i f).selMax = s.selMax := rfl
@[simp] theorem State.modCmd_regions (s : State) (i : Nat) (f : Cmd → Cmd) : (s.modCmd i f).regions = s.regions := rfl
@[simp] theorem State.modCmd_shards (s : State) (i : Nat) (f : Cmd → Cmd) : (s.modCmd i f).shards = s.shards := rfl
@[simp] theorem State.modCmd_walks (s : State) (i : Nat) (f : Cmd → Cmd) : (s.modCmd i f).walks = s.walks := rfl
@[simp] theorem State.modCmd_walkPeak (s : State) (i : Nat) (f : Cmd → Cmd) : (s.modCmd i f).walkPeak = s.walkPeak := rfl
@[simp] theorem State.modCmd_pfPeak (s : State) (i : Nat) (f : Cmd → Cmd) : (s.modCmd i f).pfPeak = s.pfPeak := rfl
@[simp] theorem State.modCmd_fte (s : State) (i : Nat) (f : Cmd → Cmd) : (s.modCmd i f).fte = s.fte := rfl
@[simp] theorem State.modCmd_fab (s : State) (i : Nat) (f : Cmd → Cmd) : (s.modCmd i f).fab = s.fab := rfl
@[simp] theorem State.modCmd_col (s : State) (i : Nat) (f : Cmd → Cmd) : (s.modCmd i f).col = s.col := rfl
@[simp] theorem State.modCmd_cmp (s : State) (i : Nat) (f : Cmd → Cmd) : (s.modCmd i f).cmp = s.cmp := rfl
@[simp] theorem State.modCmd_sec (s : State) (i : Nat) (f : Cmd → Cmd) : (s.modCmd i f).sec = s.sec := rfl
@[simp] theorem State.modCmd_mgt (s : State) (i : Nat) (f : Cmd → Cmd) : (s.modCmd i f).mgt = s.mgt := rfl

/-! ## dropCmd -/

@[simp] theorem State.dropCmd_pending (s : State) (i : Nat) : (s.dropCmd i).pending = s.pending := rfl
@[simp] theorem State.dropCmd_free (s : State) (i : Nat) : (s.dropCmd i).free = s.free := rfl
@[simp] theorem State.dropCmd_nextCmd (s : State) (i : Nat) : (s.dropCmd i).nextCmd = s.nextCmd := rfl
@[simp] theorem State.dropCmd_nextTxn (s : State) (i : Nat) : (s.dropCmd i).nextTxn = s.nextTxn := rfl
@[simp] theorem State.dropCmd_time (s : State) (i : Nat) : (s.dropCmd i).time = s.time := rfl
@[simp] theorem State.dropCmd_pwr (s : State) (i : Nat) : (s.dropCmd i).pwr = s.pwr := rfl
@[simp] theorem State.dropCmd_reg (s : State) (i : Nat) : (s.dropCmd i).reg = s.reg := rfl
@[simp] theorem State.dropCmd_pa (s : State) (i : Nat) : (s.dropCmd i).pa = s.pa := rfl
@[simp] theorem State.dropCmd_pb (s : State) (i : Nat) : (s.dropCmd i).pb = s.pb := rfl
@[simp] theorem State.dropCmd_rings (s : State) (i : Nat) : (s.dropCmd i).rings = s.rings := rfl
@[simp] theorem State.dropCmd_refuse (s : State) (i : Nat) : (s.dropCmd i).refuse = s.refuse := rfl
@[simp] theorem State.dropCmd_ctxs (s : State) (i : Nat) : (s.dropCmd i).ctxs = s.ctxs := rfl
@[simp] theorem State.dropCmd_parts (s : State) (i : Nat) : (s.dropCmd i).parts = s.parts := rfl
@[simp] theorem State.dropCmd_hbm (s : State) (i : Nat) : (s.dropCmd i).hbm = s.hbm := rfl
@[simp] theorem State.dropCmd_frets (s : State) (i : Nat) : (s.dropCmd i).frets = s.frets := rfl
@[simp] theorem State.dropCmd_sbc (s : State) (i : Nat) : (s.dropCmd i).sbc = s.sbc := rfl
@[simp] theorem State.dropCmd_arr (s : State) (i : Nat) : (s.dropCmd i).arr = s.arr := rfl
@[simp] theorem State.dropCmd_peg (s : State) (i : Nat) : (s.dropCmd i).peg = s.peg := rfl
@[simp] theorem State.dropCmd_selMax (s : State) (i : Nat) : (s.dropCmd i).selMax = s.selMax := rfl
@[simp] theorem State.dropCmd_regions (s : State) (i : Nat) : (s.dropCmd i).regions = s.regions := rfl
@[simp] theorem State.dropCmd_shards (s : State) (i : Nat) : (s.dropCmd i).shards = s.shards := rfl
@[simp] theorem State.dropCmd_walks (s : State) (i : Nat) : (s.dropCmd i).walks = s.walks := rfl
@[simp] theorem State.dropCmd_walkPeak (s : State) (i : Nat) : (s.dropCmd i).walkPeak = s.walkPeak := rfl
@[simp] theorem State.dropCmd_pfPeak (s : State) (i : Nat) : (s.dropCmd i).pfPeak = s.pfPeak := rfl
@[simp] theorem State.dropCmd_fte (s : State) (i : Nat) : (s.dropCmd i).fte = s.fte := rfl
@[simp] theorem State.dropCmd_fab (s : State) (i : Nat) : (s.dropCmd i).fab = s.fab := rfl
@[simp] theorem State.dropCmd_col (s : State) (i : Nat) : (s.dropCmd i).col = s.col := rfl
@[simp] theorem State.dropCmd_cmp (s : State) (i : Nat) : (s.dropCmd i).cmp = s.cmp := rfl
@[simp] theorem State.dropCmd_sec (s : State) (i : Nat) : (s.dropCmd i).sec = s.sec := rfl
@[simp] theorem State.dropCmd_mgt (s : State) (i : Nat) : (s.dropCmd i).mgt = s.mgt := rfl

/-! ## setReg32 -/

@[simp] theorem State.setReg32_pending (s : State) (o v : Nat) : (s.setReg32 o v).pending = s.pending := rfl
@[simp] theorem State.setReg32_free (s : State) (o v : Nat) : (s.setReg32 o v).free = s.free := rfl
@[simp] theorem State.setReg32_nextCmd (s : State) (o v : Nat) : (s.setReg32 o v).nextCmd = s.nextCmd := rfl
@[simp] theorem State.setReg32_nextTxn (s : State) (o v : Nat) : (s.setReg32 o v).nextTxn = s.nextTxn := rfl
@[simp] theorem State.setReg32_time (s : State) (o v : Nat) : (s.setReg32 o v).time = s.time := rfl
@[simp] theorem State.setReg32_pwr (s : State) (o v : Nat) : (s.setReg32 o v).pwr = s.pwr := rfl
@[simp] theorem State.setReg32_pa (s : State) (o v : Nat) : (s.setReg32 o v).pa = s.pa := rfl
@[simp] theorem State.setReg32_pb (s : State) (o v : Nat) : (s.setReg32 o v).pb = s.pb := rfl
@[simp] theorem State.setReg32_rings (s : State) (o v : Nat) : (s.setReg32 o v).rings = s.rings := rfl
@[simp] theorem State.setReg32_refuse (s : State) (o v : Nat) : (s.setReg32 o v).refuse = s.refuse := rfl
@[simp] theorem State.setReg32_cmds (s : State) (o v : Nat) : (s.setReg32 o v).cmds = s.cmds := rfl
@[simp] theorem State.setReg32_ctxs (s : State) (o v : Nat) : (s.setReg32 o v).ctxs = s.ctxs := rfl
@[simp] theorem State.setReg32_parts (s : State) (o v : Nat) : (s.setReg32 o v).parts = s.parts := rfl
@[simp] theorem State.setReg32_hbm (s : State) (o v : Nat) : (s.setReg32 o v).hbm = s.hbm := rfl
@[simp] theorem State.setReg32_frets (s : State) (o v : Nat) : (s.setReg32 o v).frets = s.frets := rfl
@[simp] theorem State.setReg32_sbc (s : State) (o v : Nat) : (s.setReg32 o v).sbc = s.sbc := rfl
@[simp] theorem State.setReg32_arr (s : State) (o v : Nat) : (s.setReg32 o v).arr = s.arr := rfl
@[simp] theorem State.setReg32_peg (s : State) (o v : Nat) : (s.setReg32 o v).peg = s.peg := rfl
@[simp] theorem State.setReg32_selMax (s : State) (o v : Nat) : (s.setReg32 o v).selMax = s.selMax := rfl
@[simp] theorem State.setReg32_regions (s : State) (o v : Nat) : (s.setReg32 o v).regions = s.regions := rfl
@[simp] theorem State.setReg32_shards (s : State) (o v : Nat) : (s.setReg32 o v).shards = s.shards := rfl
@[simp] theorem State.setReg32_walks (s : State) (o v : Nat) : (s.setReg32 o v).walks = s.walks := rfl
@[simp] theorem State.setReg32_walkPeak (s : State) (o v : Nat) : (s.setReg32 o v).walkPeak = s.walkPeak := rfl
@[simp] theorem State.setReg32_pfPeak (s : State) (o v : Nat) : (s.setReg32 o v).pfPeak = s.pfPeak := rfl
@[simp] theorem State.setReg32_fte (s : State) (o v : Nat) : (s.setReg32 o v).fte = s.fte := rfl
@[simp] theorem State.setReg32_fab (s : State) (o v : Nat) : (s.setReg32 o v).fab = s.fab := rfl
@[simp] theorem State.setReg32_col (s : State) (o v : Nat) : (s.setReg32 o v).col = s.col := rfl
@[simp] theorem State.setReg32_cmp (s : State) (o v : Nat) : (s.setReg32 o v).cmp = s.cmp := rfl
@[simp] theorem State.setReg32_sec (s : State) (o v : Nat) : (s.setReg32 o v).sec = s.sec := rfl
@[simp] theorem State.setReg32_mgt (s : State) (o v : Nat) : (s.setReg32 o v).mgt = s.mgt := rfl

/-! ## setSel -/

@[simp] theorem State.setSel_pending (s : State) (a : Agent) (o v : Nat) : (s.setSel a o v).pending = s.pending := rfl
@[simp] theorem State.setSel_free (s : State) (a : Agent) (o v : Nat) : (s.setSel a o v).free = s.free := rfl
@[simp] theorem State.setSel_nextCmd (s : State) (a : Agent) (o v : Nat) : (s.setSel a o v).nextCmd = s.nextCmd := rfl
@[simp] theorem State.setSel_nextTxn (s : State) (a : Agent) (o v : Nat) : (s.setSel a o v).nextTxn = s.nextTxn := rfl
@[simp] theorem State.setSel_time (s : State) (a : Agent) (o v : Nat) : (s.setSel a o v).time = s.time := rfl
@[simp] theorem State.setSel_pwr (s : State) (a : Agent) (o v : Nat) : (s.setSel a o v).pwr = s.pwr := rfl
@[simp] theorem State.setSel_pa (s : State) (a : Agent) (o v : Nat) : (s.setSel a o v).pa = s.pa := rfl
@[simp] theorem State.setSel_pb (s : State) (a : Agent) (o v : Nat) : (s.setSel a o v).pb = s.pb := rfl
@[simp] theorem State.setSel_rings (s : State) (a : Agent) (o v : Nat) : (s.setSel a o v).rings = s.rings := rfl
@[simp] theorem State.setSel_refuse (s : State) (a : Agent) (o v : Nat) : (s.setSel a o v).refuse = s.refuse := rfl
@[simp] theorem State.setSel_cmds (s : State) (a : Agent) (o v : Nat) : (s.setSel a o v).cmds = s.cmds := rfl
@[simp] theorem State.setSel_ctxs (s : State) (a : Agent) (o v : Nat) : (s.setSel a o v).ctxs = s.ctxs := rfl
@[simp] theorem State.setSel_parts (s : State) (a : Agent) (o v : Nat) : (s.setSel a o v).parts = s.parts := rfl
@[simp] theorem State.setSel_hbm (s : State) (a : Agent) (o v : Nat) : (s.setSel a o v).hbm = s.hbm := rfl
@[simp] theorem State.setSel_frets (s : State) (a : Agent) (o v : Nat) : (s.setSel a o v).frets = s.frets := rfl
@[simp] theorem State.setSel_sbc (s : State) (a : Agent) (o v : Nat) : (s.setSel a o v).sbc = s.sbc := rfl
@[simp] theorem State.setSel_arr (s : State) (a : Agent) (o v : Nat) : (s.setSel a o v).arr = s.arr := rfl
@[simp] theorem State.setSel_peg (s : State) (a : Agent) (o v : Nat) : (s.setSel a o v).peg = s.peg := rfl
@[simp] theorem State.setSel_selMax (s : State) (a : Agent) (o v : Nat) : (s.setSel a o v).selMax = s.selMax := rfl
@[simp] theorem State.setSel_regions (s : State) (a : Agent) (o v : Nat) : (s.setSel a o v).regions = s.regions := rfl
@[simp] theorem State.setSel_shards (s : State) (a : Agent) (o v : Nat) : (s.setSel a o v).shards = s.shards := rfl
@[simp] theorem State.setSel_walks (s : State) (a : Agent) (o v : Nat) : (s.setSel a o v).walks = s.walks := rfl
@[simp] theorem State.setSel_walkPeak (s : State) (a : Agent) (o v : Nat) : (s.setSel a o v).walkPeak = s.walkPeak := rfl
@[simp] theorem State.setSel_pfPeak (s : State) (a : Agent) (o v : Nat) : (s.setSel a o v).pfPeak = s.pfPeak := rfl
@[simp] theorem State.setSel_fte (s : State) (a : Agent) (o v : Nat) : (s.setSel a o v).fte = s.fte := rfl
@[simp] theorem State.setSel_fab (s : State) (a : Agent) (o v : Nat) : (s.setSel a o v).fab = s.fab := rfl
@[simp] theorem State.setSel_col (s : State) (a : Agent) (o v : Nat) : (s.setSel a o v).col = s.col := rfl
@[simp] theorem State.setSel_cmp (s : State) (a : Agent) (o v : Nat) : (s.setSel a o v).cmp = s.cmp := rfl
@[simp] theorem State.setSel_sec (s : State) (a : Agent) (o v : Nat) : (s.setSel a o v).sec = s.sec := rfl
@[simp] theorem State.setSel_mgt (s : State) (a : Agent) (o v : Nat) : (s.setSel a o v).mgt = s.mgt := rfl

/-! ## setLatch -/

@[simp] theorem State.setLatch_pending (s : State) (a : Agent) (o v : Nat) : (s.setLatch a o v).pending = s.pending := rfl
@[simp] theorem State.setLatch_free (s : State) (a : Agent) (o v : Nat) : (s.setLatch a o v).free = s.free := rfl
@[simp] theorem State.setLatch_nextCmd (s : State) (a : Agent) (o v : Nat) : (s.setLatch a o v).nextCmd = s.nextCmd := rfl
@[simp] theorem State.setLatch_nextTxn (s : State) (a : Agent) (o v : Nat) : (s.setLatch a o v).nextTxn = s.nextTxn := rfl
@[simp] theorem State.setLatch_time (s : State) (a : Agent) (o v : Nat) : (s.setLatch a o v).time = s.time := rfl
@[simp] theorem State.setLatch_pwr (s : State) (a : Agent) (o v : Nat) : (s.setLatch a o v).pwr = s.pwr := rfl
@[simp] theorem State.setLatch_pa (s : State) (a : Agent) (o v : Nat) : (s.setLatch a o v).pa = s.pa := rfl
@[simp] theorem State.setLatch_pb (s : State) (a : Agent) (o v : Nat) : (s.setLatch a o v).pb = s.pb := rfl
@[simp] theorem State.setLatch_rings (s : State) (a : Agent) (o v : Nat) : (s.setLatch a o v).rings = s.rings := rfl
@[simp] theorem State.setLatch_refuse (s : State) (a : Agent) (o v : Nat) : (s.setLatch a o v).refuse = s.refuse := rfl
@[simp] theorem State.setLatch_cmds (s : State) (a : Agent) (o v : Nat) : (s.setLatch a o v).cmds = s.cmds := rfl
@[simp] theorem State.setLatch_ctxs (s : State) (a : Agent) (o v : Nat) : (s.setLatch a o v).ctxs = s.ctxs := rfl
@[simp] theorem State.setLatch_parts (s : State) (a : Agent) (o v : Nat) : (s.setLatch a o v).parts = s.parts := rfl
@[simp] theorem State.setLatch_hbm (s : State) (a : Agent) (o v : Nat) : (s.setLatch a o v).hbm = s.hbm := rfl
@[simp] theorem State.setLatch_frets (s : State) (a : Agent) (o v : Nat) : (s.setLatch a o v).frets = s.frets := rfl
@[simp] theorem State.setLatch_sbc (s : State) (a : Agent) (o v : Nat) : (s.setLatch a o v).sbc = s.sbc := rfl
@[simp] theorem State.setLatch_arr (s : State) (a : Agent) (o v : Nat) : (s.setLatch a o v).arr = s.arr := rfl
@[simp] theorem State.setLatch_peg (s : State) (a : Agent) (o v : Nat) : (s.setLatch a o v).peg = s.peg := rfl
@[simp] theorem State.setLatch_selMax (s : State) (a : Agent) (o v : Nat) : (s.setLatch a o v).selMax = s.selMax := rfl
@[simp] theorem State.setLatch_regions (s : State) (a : Agent) (o v : Nat) : (s.setLatch a o v).regions = s.regions := rfl
@[simp] theorem State.setLatch_shards (s : State) (a : Agent) (o v : Nat) : (s.setLatch a o v).shards = s.shards := rfl
@[simp] theorem State.setLatch_walks (s : State) (a : Agent) (o v : Nat) : (s.setLatch a o v).walks = s.walks := rfl
@[simp] theorem State.setLatch_walkPeak (s : State) (a : Agent) (o v : Nat) : (s.setLatch a o v).walkPeak = s.walkPeak := rfl
@[simp] theorem State.setLatch_pfPeak (s : State) (a : Agent) (o v : Nat) : (s.setLatch a o v).pfPeak = s.pfPeak := rfl
@[simp] theorem State.setLatch_fte (s : State) (a : Agent) (o v : Nat) : (s.setLatch a o v).fte = s.fte := rfl
@[simp] theorem State.setLatch_fab (s : State) (a : Agent) (o v : Nat) : (s.setLatch a o v).fab = s.fab := rfl
@[simp] theorem State.setLatch_col (s : State) (a : Agent) (o v : Nat) : (s.setLatch a o v).col = s.col := rfl
@[simp] theorem State.setLatch_cmp (s : State) (a : Agent) (o v : Nat) : (s.setLatch a o v).cmp = s.cmp := rfl
@[simp] theorem State.setLatch_sec (s : State) (a : Agent) (o v : Nat) : (s.setLatch a o v).sec = s.sec := rfl
@[simp] theorem State.setLatch_mgt (s : State) (a : Agent) (o v : Nat) : (s.setLatch a o v).mgt = s.mgt := rfl

/-! ## dropLatch -/

@[simp] theorem State.dropLatch_pending (s : State) (a : Agent) (o : Nat) : (s.dropLatch a o).pending = s.pending := rfl
@[simp] theorem State.dropLatch_free (s : State) (a : Agent) (o : Nat) : (s.dropLatch a o).free = s.free := rfl
@[simp] theorem State.dropLatch_nextCmd (s : State) (a : Agent) (o : Nat) : (s.dropLatch a o).nextCmd = s.nextCmd := rfl
@[simp] theorem State.dropLatch_nextTxn (s : State) (a : Agent) (o : Nat) : (s.dropLatch a o).nextTxn = s.nextTxn := rfl
@[simp] theorem State.dropLatch_time (s : State) (a : Agent) (o : Nat) : (s.dropLatch a o).time = s.time := rfl
@[simp] theorem State.dropLatch_pwr (s : State) (a : Agent) (o : Nat) : (s.dropLatch a o).pwr = s.pwr := rfl
@[simp] theorem State.dropLatch_pa (s : State) (a : Agent) (o : Nat) : (s.dropLatch a o).pa = s.pa := rfl
@[simp] theorem State.dropLatch_pb (s : State) (a : Agent) (o : Nat) : (s.dropLatch a o).pb = s.pb := rfl
@[simp] theorem State.dropLatch_rings (s : State) (a : Agent) (o : Nat) : (s.dropLatch a o).rings = s.rings := rfl
@[simp] theorem State.dropLatch_refuse (s : State) (a : Agent) (o : Nat) : (s.dropLatch a o).refuse = s.refuse := rfl
@[simp] theorem State.dropLatch_cmds (s : State) (a : Agent) (o : Nat) : (s.dropLatch a o).cmds = s.cmds := rfl
@[simp] theorem State.dropLatch_ctxs (s : State) (a : Agent) (o : Nat) : (s.dropLatch a o).ctxs = s.ctxs := rfl
@[simp] theorem State.dropLatch_parts (s : State) (a : Agent) (o : Nat) : (s.dropLatch a o).parts = s.parts := rfl
@[simp] theorem State.dropLatch_hbm (s : State) (a : Agent) (o : Nat) : (s.dropLatch a o).hbm = s.hbm := rfl
@[simp] theorem State.dropLatch_frets (s : State) (a : Agent) (o : Nat) : (s.dropLatch a o).frets = s.frets := rfl
@[simp] theorem State.dropLatch_sbc (s : State) (a : Agent) (o : Nat) : (s.dropLatch a o).sbc = s.sbc := rfl
@[simp] theorem State.dropLatch_arr (s : State) (a : Agent) (o : Nat) : (s.dropLatch a o).arr = s.arr := rfl
@[simp] theorem State.dropLatch_peg (s : State) (a : Agent) (o : Nat) : (s.dropLatch a o).peg = s.peg := rfl
@[simp] theorem State.dropLatch_selMax (s : State) (a : Agent) (o : Nat) : (s.dropLatch a o).selMax = s.selMax := rfl
@[simp] theorem State.dropLatch_regions (s : State) (a : Agent) (o : Nat) : (s.dropLatch a o).regions = s.regions := rfl
@[simp] theorem State.dropLatch_shards (s : State) (a : Agent) (o : Nat) : (s.dropLatch a o).shards = s.shards := rfl
@[simp] theorem State.dropLatch_walks (s : State) (a : Agent) (o : Nat) : (s.dropLatch a o).walks = s.walks := rfl
@[simp] theorem State.dropLatch_walkPeak (s : State) (a : Agent) (o : Nat) : (s.dropLatch a o).walkPeak = s.walkPeak := rfl
@[simp] theorem State.dropLatch_pfPeak (s : State) (a : Agent) (o : Nat) : (s.dropLatch a o).pfPeak = s.pfPeak := rfl
@[simp] theorem State.dropLatch_fte (s : State) (a : Agent) (o : Nat) : (s.dropLatch a o).fte = s.fte := rfl
@[simp] theorem State.dropLatch_fab (s : State) (a : Agent) (o : Nat) : (s.dropLatch a o).fab = s.fab := rfl
@[simp] theorem State.dropLatch_col (s : State) (a : Agent) (o : Nat) : (s.dropLatch a o).col = s.col := rfl
@[simp] theorem State.dropLatch_cmp (s : State) (a : Agent) (o : Nat) : (s.dropLatch a o).cmp = s.cmp := rfl
@[simp] theorem State.dropLatch_sec (s : State) (a : Agent) (o : Nat) : (s.dropLatch a o).sec = s.sec := rfl
@[simp] theorem State.dropLatch_mgt (s : State) (a : Agent) (o : Nat) : (s.dropLatch a o).mgt = s.mgt := rfl

/-! ## bump -/

@[simp] theorem State.bump_pending (s : State) (o n : Nat) : (s.bump o n).pending = s.pending := rfl
@[simp] theorem State.bump_free (s : State) (o n : Nat) : (s.bump o n).free = s.free := rfl
@[simp] theorem State.bump_nextCmd (s : State) (o n : Nat) : (s.bump o n).nextCmd = s.nextCmd := rfl
@[simp] theorem State.bump_nextTxn (s : State) (o n : Nat) : (s.bump o n).nextTxn = s.nextTxn := rfl
@[simp] theorem State.bump_time (s : State) (o n : Nat) : (s.bump o n).time = s.time := rfl
@[simp] theorem State.bump_pwr (s : State) (o n : Nat) : (s.bump o n).pwr = s.pwr := rfl
@[simp] theorem State.bump_pa (s : State) (o n : Nat) : (s.bump o n).pa = s.pa := rfl
@[simp] theorem State.bump_pb (s : State) (o n : Nat) : (s.bump o n).pb = s.pb := rfl
@[simp] theorem State.bump_rings (s : State) (o n : Nat) : (s.bump o n).rings = s.rings := rfl
@[simp] theorem State.bump_refuse (s : State) (o n : Nat) : (s.bump o n).refuse = s.refuse := rfl
@[simp] theorem State.bump_cmds (s : State) (o n : Nat) : (s.bump o n).cmds = s.cmds := rfl
@[simp] theorem State.bump_ctxs (s : State) (o n : Nat) : (s.bump o n).ctxs = s.ctxs := rfl
@[simp] theorem State.bump_parts (s : State) (o n : Nat) : (s.bump o n).parts = s.parts := rfl
@[simp] theorem State.bump_hbm (s : State) (o n : Nat) : (s.bump o n).hbm = s.hbm := rfl
@[simp] theorem State.bump_frets (s : State) (o n : Nat) : (s.bump o n).frets = s.frets := rfl
@[simp] theorem State.bump_sbc (s : State) (o n : Nat) : (s.bump o n).sbc = s.sbc := rfl
@[simp] theorem State.bump_arr (s : State) (o n : Nat) : (s.bump o n).arr = s.arr := rfl
@[simp] theorem State.bump_peg (s : State) (o n : Nat) : (s.bump o n).peg = s.peg := rfl
@[simp] theorem State.bump_selMax (s : State) (o n : Nat) : (s.bump o n).selMax = s.selMax := rfl
@[simp] theorem State.bump_regions (s : State) (o n : Nat) : (s.bump o n).regions = s.regions := rfl
@[simp] theorem State.bump_shards (s : State) (o n : Nat) : (s.bump o n).shards = s.shards := rfl
@[simp] theorem State.bump_walks (s : State) (o n : Nat) : (s.bump o n).walks = s.walks := rfl
@[simp] theorem State.bump_walkPeak (s : State) (o n : Nat) : (s.bump o n).walkPeak = s.walkPeak := rfl
@[simp] theorem State.bump_pfPeak (s : State) (o n : Nat) : (s.bump o n).pfPeak = s.pfPeak := rfl
@[simp] theorem State.bump_fte (s : State) (o n : Nat) : (s.bump o n).fte = s.fte := rfl
@[simp] theorem State.bump_fab (s : State) (o n : Nat) : (s.bump o n).fab = s.fab := rfl
@[simp] theorem State.bump_col (s : State) (o n : Nat) : (s.bump o n).col = s.col := rfl
@[simp] theorem State.bump_cmp (s : State) (o n : Nat) : (s.bump o n).cmp = s.cmp := rfl
@[simp] theorem State.bump_sec (s : State) (o n : Nat) : (s.bump o n).sec = s.sec := rfl
@[simp] theorem State.bump_mgt (s : State) (o n : Nat) : (s.bump o n).mgt = s.mgt := rfl

/-! ## setPort -/

@[simp] theorem State.setPort_pending (s : State) (p : Port) (x : PortSt) : (s.setPort p x).pending = s.pending := by cases p <;> rfl
@[simp] theorem State.setPort_free (s : State) (p : Port) (x : PortSt) : (s.setPort p x).free = s.free := by cases p <;> rfl
@[simp] theorem State.setPort_nextCmd (s : State) (p : Port) (x : PortSt) : (s.setPort p x).nextCmd = s.nextCmd := by cases p <;> rfl
@[simp] theorem State.setPort_nextTxn (s : State) (p : Port) (x : PortSt) : (s.setPort p x).nextTxn = s.nextTxn := by cases p <;> rfl
@[simp] theorem State.setPort_time (s : State) (p : Port) (x : PortSt) : (s.setPort p x).time = s.time := by cases p <;> rfl
@[simp] theorem State.setPort_pwr (s : State) (p : Port) (x : PortSt) : (s.setPort p x).pwr = s.pwr := by cases p <;> rfl
@[simp] theorem State.setPort_reg (s : State) (p : Port) (x : PortSt) : (s.setPort p x).reg = s.reg := by cases p <;> rfl
@[simp] theorem State.setPort_rings (s : State) (p : Port) (x : PortSt) : (s.setPort p x).rings = s.rings := by cases p <;> rfl
@[simp] theorem State.setPort_refuse (s : State) (p : Port) (x : PortSt) : (s.setPort p x).refuse = s.refuse := by cases p <;> rfl
@[simp] theorem State.setPort_cmds (s : State) (p : Port) (x : PortSt) : (s.setPort p x).cmds = s.cmds := by cases p <;> rfl
@[simp] theorem State.setPort_ctxs (s : State) (p : Port) (x : PortSt) : (s.setPort p x).ctxs = s.ctxs := by cases p <;> rfl
@[simp] theorem State.setPort_parts (s : State) (p : Port) (x : PortSt) : (s.setPort p x).parts = s.parts := by cases p <;> rfl
@[simp] theorem State.setPort_hbm (s : State) (p : Port) (x : PortSt) : (s.setPort p x).hbm = s.hbm := by cases p <;> rfl
@[simp] theorem State.setPort_frets (s : State) (p : Port) (x : PortSt) : (s.setPort p x).frets = s.frets := by cases p <;> rfl
@[simp] theorem State.setPort_sbc (s : State) (p : Port) (x : PortSt) : (s.setPort p x).sbc = s.sbc := by cases p <;> rfl
@[simp] theorem State.setPort_arr (s : State) (p : Port) (x : PortSt) : (s.setPort p x).arr = s.arr := by cases p <;> rfl
@[simp] theorem State.setPort_peg (s : State) (p : Port) (x : PortSt) : (s.setPort p x).peg = s.peg := by cases p <;> rfl
@[simp] theorem State.setPort_selMax (s : State) (p : Port) (x : PortSt) : (s.setPort p x).selMax = s.selMax := by cases p <;> rfl
@[simp] theorem State.setPort_regions (s : State) (p : Port) (x : PortSt) : (s.setPort p x).regions = s.regions := by cases p <;> rfl
@[simp] theorem State.setPort_shards (s : State) (p : Port) (x : PortSt) : (s.setPort p x).shards = s.shards := by cases p <;> rfl
@[simp] theorem State.setPort_walks (s : State) (p : Port) (x : PortSt) : (s.setPort p x).walks = s.walks := by cases p <;> rfl
@[simp] theorem State.setPort_walkPeak (s : State) (p : Port) (x : PortSt) : (s.setPort p x).walkPeak = s.walkPeak := by cases p <;> rfl
@[simp] theorem State.setPort_pfPeak (s : State) (p : Port) (x : PortSt) : (s.setPort p x).pfPeak = s.pfPeak := by cases p <;> rfl
@[simp] theorem State.setPort_fte (s : State) (p : Port) (x : PortSt) : (s.setPort p x).fte = s.fte := by cases p <;> rfl
@[simp] theorem State.setPort_fab (s : State) (p : Port) (x : PortSt) : (s.setPort p x).fab = s.fab := by cases p <;> rfl
@[simp] theorem State.setPort_col (s : State) (p : Port) (x : PortSt) : (s.setPort p x).col = s.col := by cases p <;> rfl
@[simp] theorem State.setPort_cmp (s : State) (p : Port) (x : PortSt) : (s.setPort p x).cmp = s.cmp := by cases p <;> rfl
@[simp] theorem State.setPort_sec (s : State) (p : Port) (x : PortSt) : (s.setPort p x).sec = s.sec := by cases p <;> rfl
@[simp] theorem State.setPort_mgt (s : State) (p : Port) (x : PortSt) : (s.setPort p x).mgt = s.mgt := by cases p <;> rfl

/-! ## modPort -/

@[simp] theorem State.modPort_pending (s : State) (p : Port) (f : PortSt → PortSt) : (s.modPort p f).pending = s.pending := by cases p <;> rfl
@[simp] theorem State.modPort_free (s : State) (p : Port) (f : PortSt → PortSt) : (s.modPort p f).free = s.free := by cases p <;> rfl
@[simp] theorem State.modPort_nextCmd (s : State) (p : Port) (f : PortSt → PortSt) : (s.modPort p f).nextCmd = s.nextCmd := by cases p <;> rfl
@[simp] theorem State.modPort_nextTxn (s : State) (p : Port) (f : PortSt → PortSt) : (s.modPort p f).nextTxn = s.nextTxn := by cases p <;> rfl
@[simp] theorem State.modPort_time (s : State) (p : Port) (f : PortSt → PortSt) : (s.modPort p f).time = s.time := by cases p <;> rfl
@[simp] theorem State.modPort_pwr (s : State) (p : Port) (f : PortSt → PortSt) : (s.modPort p f).pwr = s.pwr := by cases p <;> rfl
@[simp] theorem State.modPort_reg (s : State) (p : Port) (f : PortSt → PortSt) : (s.modPort p f).reg = s.reg := by cases p <;> rfl
@[simp] theorem State.modPort_rings (s : State) (p : Port) (f : PortSt → PortSt) : (s.modPort p f).rings = s.rings := by cases p <;> rfl
@[simp] theorem State.modPort_refuse (s : State) (p : Port) (f : PortSt → PortSt) : (s.modPort p f).refuse = s.refuse := by cases p <;> rfl
@[simp] theorem State.modPort_cmds (s : State) (p : Port) (f : PortSt → PortSt) : (s.modPort p f).cmds = s.cmds := by cases p <;> rfl
@[simp] theorem State.modPort_ctxs (s : State) (p : Port) (f : PortSt → PortSt) : (s.modPort p f).ctxs = s.ctxs := by cases p <;> rfl
@[simp] theorem State.modPort_parts (s : State) (p : Port) (f : PortSt → PortSt) : (s.modPort p f).parts = s.parts := by cases p <;> rfl
@[simp] theorem State.modPort_hbm (s : State) (p : Port) (f : PortSt → PortSt) : (s.modPort p f).hbm = s.hbm := by cases p <;> rfl
@[simp] theorem State.modPort_frets (s : State) (p : Port) (f : PortSt → PortSt) : (s.modPort p f).frets = s.frets := by cases p <;> rfl
@[simp] theorem State.modPort_sbc (s : State) (p : Port) (f : PortSt → PortSt) : (s.modPort p f).sbc = s.sbc := by cases p <;> rfl
@[simp] theorem State.modPort_arr (s : State) (p : Port) (f : PortSt → PortSt) : (s.modPort p f).arr = s.arr := by cases p <;> rfl
@[simp] theorem State.modPort_peg (s : State) (p : Port) (f : PortSt → PortSt) : (s.modPort p f).peg = s.peg := by cases p <;> rfl
@[simp] theorem State.modPort_selMax (s : State) (p : Port) (f : PortSt → PortSt) : (s.modPort p f).selMax = s.selMax := by cases p <;> rfl
@[simp] theorem State.modPort_regions (s : State) (p : Port) (f : PortSt → PortSt) : (s.modPort p f).regions = s.regions := by cases p <;> rfl
@[simp] theorem State.modPort_shards (s : State) (p : Port) (f : PortSt → PortSt) : (s.modPort p f).shards = s.shards := by cases p <;> rfl
@[simp] theorem State.modPort_walks (s : State) (p : Port) (f : PortSt → PortSt) : (s.modPort p f).walks = s.walks := by cases p <;> rfl
@[simp] theorem State.modPort_walkPeak (s : State) (p : Port) (f : PortSt → PortSt) : (s.modPort p f).walkPeak = s.walkPeak := by cases p <;> rfl
@[simp] theorem State.modPort_pfPeak (s : State) (p : Port) (f : PortSt → PortSt) : (s.modPort p f).pfPeak = s.pfPeak := by cases p <;> rfl
@[simp] theorem State.modPort_fte (s : State) (p : Port) (f : PortSt → PortSt) : (s.modPort p f).fte = s.fte := by cases p <;> rfl
@[simp] theorem State.modPort_fab (s : State) (p : Port) (f : PortSt → PortSt) : (s.modPort p f).fab = s.fab := by cases p <;> rfl
@[simp] theorem State.modPort_col (s : State) (p : Port) (f : PortSt → PortSt) : (s.modPort p f).col = s.col := by cases p <;> rfl
@[simp] theorem State.modPort_cmp (s : State) (p : Port) (f : PortSt → PortSt) : (s.modPort p f).cmp = s.cmp := by cases p <;> rfl
@[simp] theorem State.modPort_sec (s : State) (p : Port) (f : PortSt → PortSt) : (s.modPort p f).sec = s.sec := by cases p <;> rfl
@[simp] theorem State.modPort_mgt (s : State) (p : Port) (f : PortSt → PortSt) : (s.modPort p f).mgt = s.mgt := by cases p <;> rfl

/-! ## emit -/

@[simp] theorem State.emit_pending (s : State) (p : Port) (m : HostMsg) : (s.emit p m).pending = s.pending := by cases p <;> rfl
@[simp] theorem State.emit_free (s : State) (p : Port) (m : HostMsg) : (s.emit p m).free = s.free := by cases p <;> rfl
@[simp] theorem State.emit_nextCmd (s : State) (p : Port) (m : HostMsg) : (s.emit p m).nextCmd = s.nextCmd := by cases p <;> rfl
@[simp] theorem State.emit_nextTxn (s : State) (p : Port) (m : HostMsg) : (s.emit p m).nextTxn = s.nextTxn := by cases p <;> rfl
@[simp] theorem State.emit_time (s : State) (p : Port) (m : HostMsg) : (s.emit p m).time = s.time := by cases p <;> rfl
@[simp] theorem State.emit_pwr (s : State) (p : Port) (m : HostMsg) : (s.emit p m).pwr = s.pwr := by cases p <;> rfl
@[simp] theorem State.emit_reg (s : State) (p : Port) (m : HostMsg) : (s.emit p m).reg = s.reg := by cases p <;> rfl
@[simp] theorem State.emit_rings (s : State) (p : Port) (m : HostMsg) : (s.emit p m).rings = s.rings := by cases p <;> rfl
@[simp] theorem State.emit_refuse (s : State) (p : Port) (m : HostMsg) : (s.emit p m).refuse = s.refuse := by cases p <;> rfl
@[simp] theorem State.emit_cmds (s : State) (p : Port) (m : HostMsg) : (s.emit p m).cmds = s.cmds := by cases p <;> rfl
@[simp] theorem State.emit_ctxs (s : State) (p : Port) (m : HostMsg) : (s.emit p m).ctxs = s.ctxs := by cases p <;> rfl
@[simp] theorem State.emit_parts (s : State) (p : Port) (m : HostMsg) : (s.emit p m).parts = s.parts := by cases p <;> rfl
@[simp] theorem State.emit_hbm (s : State) (p : Port) (m : HostMsg) : (s.emit p m).hbm = s.hbm := by cases p <;> rfl
@[simp] theorem State.emit_frets (s : State) (p : Port) (m : HostMsg) : (s.emit p m).frets = s.frets := by cases p <;> rfl
@[simp] theorem State.emit_sbc (s : State) (p : Port) (m : HostMsg) : (s.emit p m).sbc = s.sbc := by cases p <;> rfl
@[simp] theorem State.emit_arr (s : State) (p : Port) (m : HostMsg) : (s.emit p m).arr = s.arr := by cases p <;> rfl
@[simp] theorem State.emit_peg (s : State) (p : Port) (m : HostMsg) : (s.emit p m).peg = s.peg := by cases p <;> rfl
@[simp] theorem State.emit_selMax (s : State) (p : Port) (m : HostMsg) : (s.emit p m).selMax = s.selMax := by cases p <;> rfl
@[simp] theorem State.emit_regions (s : State) (p : Port) (m : HostMsg) : (s.emit p m).regions = s.regions := by cases p <;> rfl
@[simp] theorem State.emit_shards (s : State) (p : Port) (m : HostMsg) : (s.emit p m).shards = s.shards := by cases p <;> rfl
@[simp] theorem State.emit_walks (s : State) (p : Port) (m : HostMsg) : (s.emit p m).walks = s.walks := by cases p <;> rfl
@[simp] theorem State.emit_walkPeak (s : State) (p : Port) (m : HostMsg) : (s.emit p m).walkPeak = s.walkPeak := by cases p <;> rfl
@[simp] theorem State.emit_pfPeak (s : State) (p : Port) (m : HostMsg) : (s.emit p m).pfPeak = s.pfPeak := by cases p <;> rfl
@[simp] theorem State.emit_fte (s : State) (p : Port) (m : HostMsg) : (s.emit p m).fte = s.fte := by cases p <;> rfl
@[simp] theorem State.emit_fab (s : State) (p : Port) (m : HostMsg) : (s.emit p m).fab = s.fab := by cases p <;> rfl
@[simp] theorem State.emit_col (s : State) (p : Port) (m : HostMsg) : (s.emit p m).col = s.col := by cases p <;> rfl
@[simp] theorem State.emit_cmp (s : State) (p : Port) (m : HostMsg) : (s.emit p m).cmp = s.cmp := by cases p <;> rfl
@[simp] theorem State.emit_sec (s : State) (p : Port) (m : HostMsg) : (s.emit p m).sec = s.sec := by cases p <;> rfl
@[simp] theorem State.emit_mgt (s : State) (p : Port) (m : HostMsg) : (s.emit p m).mgt = s.mgt := by cases p <;> rfl

/-! ## setFret -/

@[simp] theorem State.setFret_pending (s : State) (n : Nat) (x : Fret) : (s.setFret n x).pending = s.pending := rfl
@[simp] theorem State.setFret_free (s : State) (n : Nat) (x : Fret) : (s.setFret n x).free = s.free := rfl
@[simp] theorem State.setFret_nextCmd (s : State) (n : Nat) (x : Fret) : (s.setFret n x).nextCmd = s.nextCmd := rfl
@[simp] theorem State.setFret_nextTxn (s : State) (n : Nat) (x : Fret) : (s.setFret n x).nextTxn = s.nextTxn := rfl
@[simp] theorem State.setFret_time (s : State) (n : Nat) (x : Fret) : (s.setFret n x).time = s.time := rfl
@[simp] theorem State.setFret_pwr (s : State) (n : Nat) (x : Fret) : (s.setFret n x).pwr = s.pwr := rfl
@[simp] theorem State.setFret_reg (s : State) (n : Nat) (x : Fret) : (s.setFret n x).reg = s.reg := rfl
@[simp] theorem State.setFret_pa (s : State) (n : Nat) (x : Fret) : (s.setFret n x).pa = s.pa := rfl
@[simp] theorem State.setFret_pb (s : State) (n : Nat) (x : Fret) : (s.setFret n x).pb = s.pb := rfl
@[simp] theorem State.setFret_rings (s : State) (n : Nat) (x : Fret) : (s.setFret n x).rings = s.rings := rfl
@[simp] theorem State.setFret_refuse (s : State) (n : Nat) (x : Fret) : (s.setFret n x).refuse = s.refuse := rfl
@[simp] theorem State.setFret_cmds (s : State) (n : Nat) (x : Fret) : (s.setFret n x).cmds = s.cmds := rfl
@[simp] theorem State.setFret_ctxs (s : State) (n : Nat) (x : Fret) : (s.setFret n x).ctxs = s.ctxs := rfl
@[simp] theorem State.setFret_parts (s : State) (n : Nat) (x : Fret) : (s.setFret n x).parts = s.parts := rfl
@[simp] theorem State.setFret_hbm (s : State) (n : Nat) (x : Fret) : (s.setFret n x).hbm = s.hbm := rfl
@[simp] theorem State.setFret_sbc (s : State) (n : Nat) (x : Fret) : (s.setFret n x).sbc = s.sbc := rfl
@[simp] theorem State.setFret_arr (s : State) (n : Nat) (x : Fret) : (s.setFret n x).arr = s.arr := rfl
@[simp] theorem State.setFret_peg (s : State) (n : Nat) (x : Fret) : (s.setFret n x).peg = s.peg := rfl
@[simp] theorem State.setFret_selMax (s : State) (n : Nat) (x : Fret) : (s.setFret n x).selMax = s.selMax := rfl
@[simp] theorem State.setFret_regions (s : State) (n : Nat) (x : Fret) : (s.setFret n x).regions = s.regions := rfl
@[simp] theorem State.setFret_shards (s : State) (n : Nat) (x : Fret) : (s.setFret n x).shards = s.shards := rfl
@[simp] theorem State.setFret_walks (s : State) (n : Nat) (x : Fret) : (s.setFret n x).walks = s.walks := rfl
@[simp] theorem State.setFret_walkPeak (s : State) (n : Nat) (x : Fret) : (s.setFret n x).walkPeak = s.walkPeak := rfl
@[simp] theorem State.setFret_pfPeak (s : State) (n : Nat) (x : Fret) : (s.setFret n x).pfPeak = s.pfPeak := rfl
@[simp] theorem State.setFret_fte (s : State) (n : Nat) (x : Fret) : (s.setFret n x).fte = s.fte := rfl
@[simp] theorem State.setFret_fab (s : State) (n : Nat) (x : Fret) : (s.setFret n x).fab = s.fab := rfl
@[simp] theorem State.setFret_col (s : State) (n : Nat) (x : Fret) : (s.setFret n x).col = s.col := rfl
@[simp] theorem State.setFret_cmp (s : State) (n : Nat) (x : Fret) : (s.setFret n x).cmp = s.cmp := rfl
@[simp] theorem State.setFret_sec (s : State) (n : Nat) (x : Fret) : (s.setFret n x).sec = s.sec := rfl
@[simp] theorem State.setFret_mgt (s : State) (n : Nat) (x : Fret) : (s.setFret n x).mgt = s.mgt := rfl

/-! ## setLink -/

@[simp] theorem State.setLink_pending (s : State) (l : Nat) (x : LinkSt) : (s.setLink l x).pending = s.pending := rfl
@[simp] theorem State.setLink_free (s : State) (l : Nat) (x : LinkSt) : (s.setLink l x).free = s.free := rfl
@[simp] theorem State.setLink_nextCmd (s : State) (l : Nat) (x : LinkSt) : (s.setLink l x).nextCmd = s.nextCmd := rfl
@[simp] theorem State.setLink_nextTxn (s : State) (l : Nat) (x : LinkSt) : (s.setLink l x).nextTxn = s.nextTxn := rfl
@[simp] theorem State.setLink_time (s : State) (l : Nat) (x : LinkSt) : (s.setLink l x).time = s.time := rfl
@[simp] theorem State.setLink_pwr (s : State) (l : Nat) (x : LinkSt) : (s.setLink l x).pwr = s.pwr := rfl
@[simp] theorem State.setLink_reg (s : State) (l : Nat) (x : LinkSt) : (s.setLink l x).reg = s.reg := rfl
@[simp] theorem State.setLink_pa (s : State) (l : Nat) (x : LinkSt) : (s.setLink l x).pa = s.pa := rfl
@[simp] theorem State.setLink_pb (s : State) (l : Nat) (x : LinkSt) : (s.setLink l x).pb = s.pb := rfl
@[simp] theorem State.setLink_rings (s : State) (l : Nat) (x : LinkSt) : (s.setLink l x).rings = s.rings := rfl
@[simp] theorem State.setLink_refuse (s : State) (l : Nat) (x : LinkSt) : (s.setLink l x).refuse = s.refuse := rfl
@[simp] theorem State.setLink_cmds (s : State) (l : Nat) (x : LinkSt) : (s.setLink l x).cmds = s.cmds := rfl
@[simp] theorem State.setLink_ctxs (s : State) (l : Nat) (x : LinkSt) : (s.setLink l x).ctxs = s.ctxs := rfl
@[simp] theorem State.setLink_parts (s : State) (l : Nat) (x : LinkSt) : (s.setLink l x).parts = s.parts := rfl
@[simp] theorem State.setLink_hbm (s : State) (l : Nat) (x : LinkSt) : (s.setLink l x).hbm = s.hbm := rfl
@[simp] theorem State.setLink_frets (s : State) (l : Nat) (x : LinkSt) : (s.setLink l x).frets = s.frets := rfl
@[simp] theorem State.setLink_sbc (s : State) (l : Nat) (x : LinkSt) : (s.setLink l x).sbc = s.sbc := rfl
@[simp] theorem State.setLink_arr (s : State) (l : Nat) (x : LinkSt) : (s.setLink l x).arr = s.arr := rfl
@[simp] theorem State.setLink_peg (s : State) (l : Nat) (x : LinkSt) : (s.setLink l x).peg = s.peg := rfl
@[simp] theorem State.setLink_selMax (s : State) (l : Nat) (x : LinkSt) : (s.setLink l x).selMax = s.selMax := rfl
@[simp] theorem State.setLink_regions (s : State) (l : Nat) (x : LinkSt) : (s.setLink l x).regions = s.regions := rfl
@[simp] theorem State.setLink_shards (s : State) (l : Nat) (x : LinkSt) : (s.setLink l x).shards = s.shards := rfl
@[simp] theorem State.setLink_walks (s : State) (l : Nat) (x : LinkSt) : (s.setLink l x).walks = s.walks := rfl
@[simp] theorem State.setLink_walkPeak (s : State) (l : Nat) (x : LinkSt) : (s.setLink l x).walkPeak = s.walkPeak := rfl
@[simp] theorem State.setLink_pfPeak (s : State) (l : Nat) (x : LinkSt) : (s.setLink l x).pfPeak = s.pfPeak := rfl
@[simp] theorem State.setLink_fte (s : State) (l : Nat) (x : LinkSt) : (s.setLink l x).fte = s.fte := rfl
@[simp] theorem State.setLink_col (s : State) (l : Nat) (x : LinkSt) : (s.setLink l x).col = s.col := rfl
@[simp] theorem State.setLink_cmp (s : State) (l : Nat) (x : LinkSt) : (s.setLink l x).cmp = s.cmp := rfl
@[simp] theorem State.setLink_sec (s : State) (l : Nat) (x : LinkSt) : (s.setLink l x).sec = s.sec := rfl
@[simp] theorem State.setLink_mgt (s : State) (l : Nat) (x : LinkSt) : (s.setLink l x).mgt = s.mgt := rfl

/-! ## setReq -/

@[simp] theorem State.setReq_pending (s : State) (r : Req) : (s.setReq r).pending = s.pending := rfl
@[simp] theorem State.setReq_free (s : State) (r : Req) : (s.setReq r).free = s.free := rfl
@[simp] theorem State.setReq_nextCmd (s : State) (r : Req) : (s.setReq r).nextCmd = s.nextCmd := rfl
@[simp] theorem State.setReq_nextTxn (s : State) (r : Req) : (s.setReq r).nextTxn = s.nextTxn := rfl
@[simp] theorem State.setReq_time (s : State) (r : Req) : (s.setReq r).time = s.time := rfl
@[simp] theorem State.setReq_pwr (s : State) (r : Req) : (s.setReq r).pwr = s.pwr := rfl
@[simp] theorem State.setReq_reg (s : State) (r : Req) : (s.setReq r).reg = s.reg := rfl
@[simp] theorem State.setReq_pa (s : State) (r : Req) : (s.setReq r).pa = s.pa := rfl
@[simp] theorem State.setReq_pb (s : State) (r : Req) : (s.setReq r).pb = s.pb := rfl
@[simp] theorem State.setReq_rings (s : State) (r : Req) : (s.setReq r).rings = s.rings := rfl
@[simp] theorem State.setReq_refuse (s : State) (r : Req) : (s.setReq r).refuse = s.refuse := rfl
@[simp] theorem State.setReq_cmds (s : State) (r : Req) : (s.setReq r).cmds = s.cmds := rfl
@[simp] theorem State.setReq_ctxs (s : State) (r : Req) : (s.setReq r).ctxs = s.ctxs := rfl
@[simp] theorem State.setReq_parts (s : State) (r : Req) : (s.setReq r).parts = s.parts := rfl
@[simp] theorem State.setReq_hbm (s : State) (r : Req) : (s.setReq r).hbm = s.hbm := rfl
@[simp] theorem State.setReq_frets (s : State) (r : Req) : (s.setReq r).frets = s.frets := rfl
@[simp] theorem State.setReq_sbc (s : State) (r : Req) : (s.setReq r).sbc = s.sbc := rfl
@[simp] theorem State.setReq_arr (s : State) (r : Req) : (s.setReq r).arr = s.arr := rfl
@[simp] theorem State.setReq_peg (s : State) (r : Req) : (s.setReq r).peg = s.peg := rfl
@[simp] theorem State.setReq_selMax (s : State) (r : Req) : (s.setReq r).selMax = s.selMax := rfl
@[simp] theorem State.setReq_regions (s : State) (r : Req) : (s.setReq r).regions = s.regions := rfl
@[simp] theorem State.setReq_shards (s : State) (r : Req) : (s.setReq r).shards = s.shards := rfl
@[simp] theorem State.setReq_walks (s : State) (r : Req) : (s.setReq r).walks = s.walks := rfl
@[simp] theorem State.setReq_walkPeak (s : State) (r : Req) : (s.setReq r).walkPeak = s.walkPeak := rfl
@[simp] theorem State.setReq_pfPeak (s : State) (r : Req) : (s.setReq r).pfPeak = s.pfPeak := rfl
@[simp] theorem State.setReq_fte (s : State) (r : Req) : (s.setReq r).fte = s.fte := rfl
@[simp] theorem State.setReq_col (s : State) (r : Req) : (s.setReq r).col = s.col := rfl
@[simp] theorem State.setReq_cmp (s : State) (r : Req) : (s.setReq r).cmp = s.cmp := rfl
@[simp] theorem State.setReq_sec (s : State) (r : Req) : (s.setReq r).sec = s.sec := rfl
@[simp] theorem State.setReq_mgt (s : State) (r : Req) : (s.setReq r).mgt = s.mgt := rfl

/-! ## dropReq -/

@[simp] theorem State.dropReq_pending (s : State) (n : Nat) : (s.dropReq n).pending = s.pending := rfl
@[simp] theorem State.dropReq_free (s : State) (n : Nat) : (s.dropReq n).free = s.free := rfl
@[simp] theorem State.dropReq_nextCmd (s : State) (n : Nat) : (s.dropReq n).nextCmd = s.nextCmd := rfl
@[simp] theorem State.dropReq_nextTxn (s : State) (n : Nat) : (s.dropReq n).nextTxn = s.nextTxn := rfl
@[simp] theorem State.dropReq_time (s : State) (n : Nat) : (s.dropReq n).time = s.time := rfl
@[simp] theorem State.dropReq_pwr (s : State) (n : Nat) : (s.dropReq n).pwr = s.pwr := rfl
@[simp] theorem State.dropReq_reg (s : State) (n : Nat) : (s.dropReq n).reg = s.reg := rfl
@[simp] theorem State.dropReq_pa (s : State) (n : Nat) : (s.dropReq n).pa = s.pa := rfl
@[simp] theorem State.dropReq_pb (s : State) (n : Nat) : (s.dropReq n).pb = s.pb := rfl
@[simp] theorem State.dropReq_rings (s : State) (n : Nat) : (s.dropReq n).rings = s.rings := rfl
@[simp] theorem State.dropReq_refuse (s : State) (n : Nat) : (s.dropReq n).refuse = s.refuse := rfl
@[simp] theorem State.dropReq_cmds (s : State) (n : Nat) : (s.dropReq n).cmds = s.cmds := rfl
@[simp] theorem State.dropReq_ctxs (s : State) (n : Nat) : (s.dropReq n).ctxs = s.ctxs := rfl
@[simp] theorem State.dropReq_parts (s : State) (n : Nat) : (s.dropReq n).parts = s.parts := rfl
@[simp] theorem State.dropReq_hbm (s : State) (n : Nat) : (s.dropReq n).hbm = s.hbm := rfl
@[simp] theorem State.dropReq_frets (s : State) (n : Nat) : (s.dropReq n).frets = s.frets := rfl
@[simp] theorem State.dropReq_sbc (s : State) (n : Nat) : (s.dropReq n).sbc = s.sbc := rfl
@[simp] theorem State.dropReq_arr (s : State) (n : Nat) : (s.dropReq n).arr = s.arr := rfl
@[simp] theorem State.dropReq_peg (s : State) (n : Nat) : (s.dropReq n).peg = s.peg := rfl
@[simp] theorem State.dropReq_selMax (s : State) (n : Nat) : (s.dropReq n).selMax = s.selMax := rfl
@[simp] theorem State.dropReq_regions (s : State) (n : Nat) : (s.dropReq n).regions = s.regions := rfl
@[simp] theorem State.dropReq_shards (s : State) (n : Nat) : (s.dropReq n).shards = s.shards := rfl
@[simp] theorem State.dropReq_walks (s : State) (n : Nat) : (s.dropReq n).walks = s.walks := rfl
@[simp] theorem State.dropReq_walkPeak (s : State) (n : Nat) : (s.dropReq n).walkPeak = s.walkPeak := rfl
@[simp] theorem State.dropReq_pfPeak (s : State) (n : Nat) : (s.dropReq n).pfPeak = s.pfPeak := rfl
@[simp] theorem State.dropReq_fte (s : State) (n : Nat) : (s.dropReq n).fte = s.fte := rfl
@[simp] theorem State.dropReq_col (s : State) (n : Nat) : (s.dropReq n).col = s.col := rfl
@[simp] theorem State.dropReq_cmp (s : State) (n : Nat) : (s.dropReq n).cmp = s.cmp := rfl
@[simp] theorem State.dropReq_sec (s : State) (n : Nat) : (s.dropReq n).sec = s.sec := rfl
@[simp] theorem State.dropReq_mgt (s : State) (n : Nat) : (s.dropReq n).mgt = s.mgt := rfl

/-! ## setRegion -/

@[simp] theorem State.setRegion_pending (s : State) (r : Region) : (s.setRegion r).pending = s.pending := rfl
@[simp] theorem State.setRegion_free (s : State) (r : Region) : (s.setRegion r).free = s.free := rfl
@[simp] theorem State.setRegion_nextCmd (s : State) (r : Region) : (s.setRegion r).nextCmd = s.nextCmd := rfl
@[simp] theorem State.setRegion_nextTxn (s : State) (r : Region) : (s.setRegion r).nextTxn = s.nextTxn := rfl
@[simp] theorem State.setRegion_time (s : State) (r : Region) : (s.setRegion r).time = s.time := rfl
@[simp] theorem State.setRegion_pwr (s : State) (r : Region) : (s.setRegion r).pwr = s.pwr := rfl
@[simp] theorem State.setRegion_reg (s : State) (r : Region) : (s.setRegion r).reg = s.reg := rfl
@[simp] theorem State.setRegion_pa (s : State) (r : Region) : (s.setRegion r).pa = s.pa := rfl
@[simp] theorem State.setRegion_pb (s : State) (r : Region) : (s.setRegion r).pb = s.pb := rfl
@[simp] theorem State.setRegion_rings (s : State) (r : Region) : (s.setRegion r).rings = s.rings := rfl
@[simp] theorem State.setRegion_refuse (s : State) (r : Region) : (s.setRegion r).refuse = s.refuse := rfl
@[simp] theorem State.setRegion_cmds (s : State) (r : Region) : (s.setRegion r).cmds = s.cmds := rfl
@[simp] theorem State.setRegion_ctxs (s : State) (r : Region) : (s.setRegion r).ctxs = s.ctxs := rfl
@[simp] theorem State.setRegion_parts (s : State) (r : Region) : (s.setRegion r).parts = s.parts := rfl
@[simp] theorem State.setRegion_hbm (s : State) (r : Region) : (s.setRegion r).hbm = s.hbm := rfl
@[simp] theorem State.setRegion_frets (s : State) (r : Region) : (s.setRegion r).frets = s.frets := rfl
@[simp] theorem State.setRegion_sbc (s : State) (r : Region) : (s.setRegion r).sbc = s.sbc := rfl
@[simp] theorem State.setRegion_arr (s : State) (r : Region) : (s.setRegion r).arr = s.arr := rfl
@[simp] theorem State.setRegion_peg (s : State) (r : Region) : (s.setRegion r).peg = s.peg := rfl
@[simp] theorem State.setRegion_selMax (s : State) (r : Region) : (s.setRegion r).selMax = s.selMax := rfl
@[simp] theorem State.setRegion_shards (s : State) (r : Region) : (s.setRegion r).shards = s.shards := rfl
@[simp] theorem State.setRegion_walks (s : State) (r : Region) : (s.setRegion r).walks = s.walks := rfl
@[simp] theorem State.setRegion_walkPeak (s : State) (r : Region) : (s.setRegion r).walkPeak = s.walkPeak := rfl
@[simp] theorem State.setRegion_pfPeak (s : State) (r : Region) : (s.setRegion r).pfPeak = s.pfPeak := rfl
@[simp] theorem State.setRegion_fte (s : State) (r : Region) : (s.setRegion r).fte = s.fte := rfl
@[simp] theorem State.setRegion_fab (s : State) (r : Region) : (s.setRegion r).fab = s.fab := rfl
@[simp] theorem State.setRegion_col (s : State) (r : Region) : (s.setRegion r).col = s.col := rfl
@[simp] theorem State.setRegion_cmp (s : State) (r : Region) : (s.setRegion r).cmp = s.cmp := rfl
@[simp] theorem State.setRegion_sec (s : State) (r : Region) : (s.setRegion r).sec = s.sec := rfl
@[simp] theorem State.setRegion_mgt (s : State) (r : Region) : (s.setRegion r).mgt = s.mgt := rfl

/-! ## setShard -/

@[simp] theorem State.setShard_pending (s : State) (x : Shard) : (s.setShard x).pending = s.pending := rfl
@[simp] theorem State.setShard_free (s : State) (x : Shard) : (s.setShard x).free = s.free := rfl
@[simp] theorem State.setShard_nextCmd (s : State) (x : Shard) : (s.setShard x).nextCmd = s.nextCmd := rfl
@[simp] theorem State.setShard_nextTxn (s : State) (x : Shard) : (s.setShard x).nextTxn = s.nextTxn := rfl
@[simp] theorem State.setShard_time (s : State) (x : Shard) : (s.setShard x).time = s.time := rfl
@[simp] theorem State.setShard_pwr (s : State) (x : Shard) : (s.setShard x).pwr = s.pwr := rfl
@[simp] theorem State.setShard_reg (s : State) (x : Shard) : (s.setShard x).reg = s.reg := rfl
@[simp] theorem State.setShard_pa (s : State) (x : Shard) : (s.setShard x).pa = s.pa := rfl
@[simp] theorem State.setShard_pb (s : State) (x : Shard) : (s.setShard x).pb = s.pb := rfl
@[simp] theorem State.setShard_rings (s : State) (x : Shard) : (s.setShard x).rings = s.rings := rfl
@[simp] theorem State.setShard_refuse (s : State) (x : Shard) : (s.setShard x).refuse = s.refuse := rfl
@[simp] theorem State.setShard_cmds (s : State) (x : Shard) : (s.setShard x).cmds = s.cmds := rfl
@[simp] theorem State.setShard_ctxs (s : State) (x : Shard) : (s.setShard x).ctxs = s.ctxs := rfl
@[simp] theorem State.setShard_parts (s : State) (x : Shard) : (s.setShard x).parts = s.parts := rfl
@[simp] theorem State.setShard_hbm (s : State) (x : Shard) : (s.setShard x).hbm = s.hbm := rfl
@[simp] theorem State.setShard_frets (s : State) (x : Shard) : (s.setShard x).frets = s.frets := rfl
@[simp] theorem State.setShard_sbc (s : State) (x : Shard) : (s.setShard x).sbc = s.sbc := rfl
@[simp] theorem State.setShard_arr (s : State) (x : Shard) : (s.setShard x).arr = s.arr := rfl
@[simp] theorem State.setShard_peg (s : State) (x : Shard) : (s.setShard x).peg = s.peg := rfl
@[simp] theorem State.setShard_selMax (s : State) (x : Shard) : (s.setShard x).selMax = s.selMax := rfl
@[simp] theorem State.setShard_regions (s : State) (x : Shard) : (s.setShard x).regions = s.regions := rfl
@[simp] theorem State.setShard_walks (s : State) (x : Shard) : (s.setShard x).walks = s.walks := rfl
@[simp] theorem State.setShard_walkPeak (s : State) (x : Shard) : (s.setShard x).walkPeak = s.walkPeak := rfl
@[simp] theorem State.setShard_pfPeak (s : State) (x : Shard) : (s.setShard x).pfPeak = s.pfPeak := rfl
@[simp] theorem State.setShard_fte (s : State) (x : Shard) : (s.setShard x).fte = s.fte := rfl
@[simp] theorem State.setShard_fab (s : State) (x : Shard) : (s.setShard x).fab = s.fab := rfl
@[simp] theorem State.setShard_col (s : State) (x : Shard) : (s.setShard x).col = s.col := rfl
@[simp] theorem State.setShard_cmp (s : State) (x : Shard) : (s.setShard x).cmp = s.cmp := rfl
@[simp] theorem State.setShard_sec (s : State) (x : Shard) : (s.setShard x).sec = s.sec := rfl
@[simp] theorem State.setShard_mgt (s : State) (x : Shard) : (s.setShard x).mgt = s.mgt := rfl

/-! ## setWalk -/

@[simp] theorem State.setWalk_pending (s : State) (w : Walk) : (s.setWalk w).pending = s.pending := rfl
@[simp] theorem State.setWalk_free (s : State) (w : Walk) : (s.setWalk w).free = s.free := rfl
@[simp] theorem State.setWalk_nextCmd (s : State) (w : Walk) : (s.setWalk w).nextCmd = s.nextCmd := rfl
@[simp] theorem State.setWalk_nextTxn (s : State) (w : Walk) : (s.setWalk w).nextTxn = s.nextTxn := rfl
@[simp] theorem State.setWalk_time (s : State) (w : Walk) : (s.setWalk w).time = s.time := rfl
@[simp] theorem State.setWalk_pwr (s : State) (w : Walk) : (s.setWalk w).pwr = s.pwr := rfl
@[simp] theorem State.setWalk_reg (s : State) (w : Walk) : (s.setWalk w).reg = s.reg := rfl
@[simp] theorem State.setWalk_pa (s : State) (w : Walk) : (s.setWalk w).pa = s.pa := rfl
@[simp] theorem State.setWalk_pb (s : State) (w : Walk) : (s.setWalk w).pb = s.pb := rfl
@[simp] theorem State.setWalk_rings (s : State) (w : Walk) : (s.setWalk w).rings = s.rings := rfl
@[simp] theorem State.setWalk_refuse (s : State) (w : Walk) : (s.setWalk w).refuse = s.refuse := rfl
@[simp] theorem State.setWalk_cmds (s : State) (w : Walk) : (s.setWalk w).cmds = s.cmds := rfl
@[simp] theorem State.setWalk_ctxs (s : State) (w : Walk) : (s.setWalk w).ctxs = s.ctxs := rfl
@[simp] theorem State.setWalk_parts (s : State) (w : Walk) : (s.setWalk w).parts = s.parts := rfl
@[simp] theorem State.setWalk_hbm (s : State) (w : Walk) : (s.setWalk w).hbm = s.hbm := rfl
@[simp] theorem State.setWalk_frets (s : State) (w : Walk) : (s.setWalk w).frets = s.frets := rfl
@[simp] theorem State.setWalk_sbc (s : State) (w : Walk) : (s.setWalk w).sbc = s.sbc := rfl
@[simp] theorem State.setWalk_arr (s : State) (w : Walk) : (s.setWalk w).arr = s.arr := rfl
@[simp] theorem State.setWalk_peg (s : State) (w : Walk) : (s.setWalk w).peg = s.peg := rfl
@[simp] theorem State.setWalk_selMax (s : State) (w : Walk) : (s.setWalk w).selMax = s.selMax := rfl
@[simp] theorem State.setWalk_regions (s : State) (w : Walk) : (s.setWalk w).regions = s.regions := rfl
@[simp] theorem State.setWalk_shards (s : State) (w : Walk) : (s.setWalk w).shards = s.shards := rfl
@[simp] theorem State.setWalk_walkPeak (s : State) (w : Walk) : (s.setWalk w).walkPeak = s.walkPeak := rfl
@[simp] theorem State.setWalk_pfPeak (s : State) (w : Walk) : (s.setWalk w).pfPeak = s.pfPeak := rfl
@[simp] theorem State.setWalk_fte (s : State) (w : Walk) : (s.setWalk w).fte = s.fte := rfl
@[simp] theorem State.setWalk_fab (s : State) (w : Walk) : (s.setWalk w).fab = s.fab := rfl
@[simp] theorem State.setWalk_col (s : State) (w : Walk) : (s.setWalk w).col = s.col := rfl
@[simp] theorem State.setWalk_cmp (s : State) (w : Walk) : (s.setWalk w).cmp = s.cmp := rfl
@[simp] theorem State.setWalk_sec (s : State) (w : Walk) : (s.setWalk w).sec = s.sec := rfl
@[simp] theorem State.setWalk_mgt (s : State) (w : Walk) : (s.setWalk w).mgt = s.mgt := rfl

/-! ## Reading back -/

theorem tgetD_tset_same {β : Type} (t : List (Nat × β)) (k : Nat) (v d : β) : tgetD (tset t k v) k d = v := by
  simp [tgetD, tget_tset_same]

theorem tgetD_tset_ne {β : Type} (t : List (Nat × β)) (k i : Nat) (v d : β) (h : i ≠ k) : tgetD (tset t k v) i d = tgetD t i d := by
  simp [tgetD, tget_tset_ne t k i v h]

@[simp] theorem State.ctx_modCtx_same (s : State) (n : Nat) (f : CtxEnt → CtxEnt) : (s.modCtx n f).ctx n = f (s.ctx n) :=
  tgetD_tset_same _ _ _ _

theorem State.ctx_modCtx_ne (s : State) (n i : Nat) (f : CtxEnt → CtxEnt) (h : i ≠ n) : (s.modCtx n f).ctx i = s.ctx i :=
  tgetD_tset_ne _ _ _ _ _ h

@[simp] theorem State.part_modPart_same (s : State) (n : Nat) (f : PartSt → PartSt) : (s.modPart n f).part n = f (s.part n) :=
  tgetD_tset_same _ _ _ _

theorem State.part_modPart_ne (s : State) (n i : Nat) (f : PartSt → PartSt) (h : i ≠ n) : (s.modPart n f).part i = s.part i :=
  tgetD_tset_ne _ _ _ _ _ h

@[simp] theorem State.counter_bump_same (s : State) (o n : Nat) : (s.bump o n).counter o = (s.counter o + n) % 2 ^ 64 :=
  tgetD_tset_same _ _ _ _

theorem State.counter_bump_ne (s : State) (o n i : Nat) (h : i ≠ o) : (s.bump o n).counter i = s.counter i :=
  tgetD_tset_ne _ _ _ _ _ h

@[simp] theorem State.reg32_setReg32_same (s : State) (o v : Nat) : (s.setReg32 o v).reg32 o = v % 2 ^ 32 := by
  simp [State.reg32, State.setReg32, tget_tset_same]

theorem State.reg32_setReg32_ne (s : State) (o v i : Nat) (h : i ≠ o) : (s.setReg32 o v).reg32 i = s.reg32 i := by
  simp [State.reg32, State.setReg32, tget_tset_ne _ _ _ _ h]

@[simp] theorem State.reg32_bump (s : State) (o n i : Nat) : (s.bump o n).reg32 i = s.reg32 i := rfl

@[simp] theorem State.counter_setReg32 (s : State) (o v i : Nat) : (s.setReg32 o v).counter i = s.counter i := rfl

@[simp] theorem State.port_modPort_same (s : State) (p : Port) (f : PortSt → PortSt) : (s.modPort p f).port p = f (s.port p) := by
  cases p <;> rfl

@[simp] theorem State.port_modPort_other (s : State) (p : Port) (f : PortSt → PortSt) : (s.modPort p f).port p.other = s.port p.other := by
  cases p <;> rfl

@[simp] theorem State.port_setPort_same (s : State) (p : Port) (x : PortSt) : (s.setPort p x).port p = x := by
  cases p <;> rfl

@[simp] theorem State.ring_setRing_same (s : State) (p : Port) (c : Nat) (r : Ring) : (s.setRing p c r).ring p c = r :=
  tgetD_tset_same _ _ _ _

@[simp] theorem State.fret_setFret_same (s : State) (n : Nat) (x : Fret) : (s.setFret n x).fret n = x :=
  tgetD_tset_same _ _ _ _

@[simp] theorem State.link_setLink_same (s : State) (l : Nat) (x : LinkSt) : (s.setLink l x).link l = x :=
  tgetD_tset_same _ _ _ _

end Sys2Proof.Machine
end

