-- ==== Sys2Proof/Laws/Reports.lean ====
section
/-! SUPPORT. What counting, logging, raising an error bit and sending messages can change: the registers and what the ports send. -/

namespace Sys2Proof.Machine

open Sys2Proof

/-- `t` is `s` but for its registers, counters and log, and its ports. -/
def Reports (s t : State) : Prop := ∃ r a b, t = { s with reg := r, pa := a, pb := b }

theorem Reports.refl (s : State) : Reports s s := ⟨s.reg, s.pa, s.pb, rfl⟩

theorem Reports.trans {s t u : State} (h : Reports s t) (k : Reports t u) : Reports s u := by
  obtain ⟨r, a, b, rfl⟩ := h
  obtain ⟨r', a', b', rfl⟩ := k
  exact ⟨r', a', b', rfl⟩

theorem Reports.foldl {α : Type} {f : State → α → State} (h : ∀ s x, Reports s (f s x)) :
    ∀ (l : List α) (s : State), Reports s (l.foldl f s)
  | [], s => .refl s
  | x :: l, s => (h s x).trans (Reports.foldl h l (f s x))

theorem bump_reports (s : State) (o n : Nat) : Reports s (s.bump o n) := ⟨_, s.pa, s.pb, rfl⟩

theorem setReg32_reports (s : State) (o v : Nat) : Reports s (s.setReg32 o v) := ⟨_, s.pa, s.pb, rfl⟩

theorem modPort_reports (s : State) (p : Port) (f : PortSt → PortSt) : Reports s (s.modPort p f) := by
  cases p
  · exact ⟨s.reg, _, s.pb, rfl⟩
  · exact ⟨s.reg, s.pa, _, rfl⟩

theorem emit_reports (s : State) (p : Port) (m : HostMsg) : Reports s (s.emit p m) := modPort_reports s p _

theorem bumps_reports (s : State) (l : List (Nat × Nat)) : Reports s (s.bumps l) :=
  .foldl (fun s x => by
    split
    · exact .refl s
    · exact bump_reports s _ _) l s

theorem sendMsix_reports (s : State) (p : Port) (fn v : Nat) : Reports s (s.sendMsix p fn v) := by
  unfold State.sendMsix
  dsimp only
  split
  · exact .refl s
  · split
    · exact modPort_reports s p _
    · exact (emit_reports s p _).trans (bump_reports _ _ _)

theorem summaryMsg_reports (s : State) : Reports s s.summaryMsg := by
  unfold State.summaryMsg
  dsimp only
  split
  · exact .refl s
  · have one : ∀ (s : State) (p : Port) (c f v : Nat), Reports s (if bitOf c f && (s.port p).up then s.sendMsix p 0 v else s) := by
      intro s p c f v
      split
      · exact sendMsix_reports s p 0 v
      · exact .refl s
    exact (one s .pa _ _ _).trans (one _ .pb _ _ _)

theorem logEvent_reports (s : State) (base code sev : Nat) (a : Attr) (d0 d1 : Nat) : Reports s (s.logEvent base code sev a d0 d1) := by
  have new : ∀ (s : State) pg part ctx d0 d1, Reports s (State.logEvent.new base code sev s pg part ctx d0 d1) := by
    intro s pg part ctx d0 d1
    exact ⟨_, s.pa, s.pb, rfl⟩
  unfold State.logEvent
  split
  · exact .refl s
  · dsimp only
    cases a.part <;> dsimp only <;> repeat' first
      | exact new _ _ _ _ _ _
      | exact ⟨_, s.pa, s.pb, rfl⟩
      | split

theorem withSum_reports (s : State) (i : Nat) (f : State → State) (h : Reports s (f s)) : Reports s (s.withSum i f) := by
  unfold State.withSum
  dsimp only
  split
  · exact h.trans (summaryMsg_reports _)
  · exact h

theorem raiseAt_reports (s : State) (base bit : Nat) (a : Attr) : Reports s (s.raiseAt base bit a) := by
  unfold State.raiseAt
  split
  · exact .refl s
  · refine withSum_reports s _ _ ?_
    dsimp only
    split <;> split
    · exact ((setReg32_reports s _ _).trans (setReg32_reports _ _ _)).trans (logEvent_reports _ _ _ _ _ _ _)
    · exact (setReg32_reports s _ _).trans (setReg32_reports _ _ _)
    · exact (setReg32_reports s _ _).trans (logEvent_reports _ _ _ _ _ _ _)
    · exact setReg32_reports s _ _

theorem raise_reports (s : State) (base bit : Nat) : Reports s (s.raise base bit) := raiseAt_reports s base bit noAttr

theorem raises_reports (s : State) (a : Attr) (l : List (Nat × Nat)) : Reports s (s.raises a l) := by
  unfold State.raises
  exact Reports.foldl (fun s x => raiseAt_reports s x.1 x.2 a) l s

end Sys2Proof.Machine
end

