-- ==== Sys2Proof/Laws/Ends.lean ====
section
/-! SUPPORT. What the end of a command can change: its record or answer on its way out, the command's own work, capo levels. -/

namespace Sys2Proof.Machine

open Sys2Proof

/-- From `s` to `t` only what ending commands touches has changed. -/
structure Ends (s t : State) : Prop where
  pending : t.pending = s.pending
  time : t.time = s.time
  pwr : t.pwr = s.pwr
  ctxs : t.ctxs = s.ctxs
  hbm : t.hbm = s.hbm
  frets : t.frets = s.frets
  sbc : t.sbc = s.sbc
  peg : t.peg = s.peg
  regions : t.regions = s.regions
  shards : t.shards = s.shards
  cmp : t.cmp = s.cmp
  sec : t.sec = s.sec
  mgt : t.mgt = s.mgt
  cur : ∀ p, (t.part p).cur = (s.part p).cur

theorem Ends.refl (s : State) : Ends s s := ⟨rfl, rfl, rfl, rfl, rfl, rfl, rfl, rfl, rfl, rfl, rfl, rfl, rfl, fun _ => rfl⟩

theorem Ends.trans {s t u : State} (h : Ends s t) (k : Ends t u) : Ends s u :=
  ⟨k.pending.trans h.pending, k.time.trans h.time, k.pwr.trans h.pwr, k.ctxs.trans h.ctxs, k.hbm.trans h.hbm, k.frets.trans h.frets,
    k.sbc.trans h.sbc, k.peg.trans h.peg, k.regions.trans h.regions, k.shards.trans h.shards, k.cmp.trans h.cmp, k.sec.trans h.sec,
    k.mgt.trans h.mgt, fun p => (k.cur p).trans (h.cur p)⟩

theorem Ends.foldl {α : Type} {f : State → α → State} (h : ∀ s x, Ends s (f s x)) : ∀ (l : List α) (s : State), Ends s (l.foldl f s)
  | [], s => .refl s
  | x :: l, s => (h s x).trans (Ends.foldl h l (f s x))

theorem Ends.of_reports {s t : State} (h : Reports s t) : Ends s t := by
  obtain ⟨r, a, b, rfl⟩ := h
  exact ⟨rfl, rfl, rfl, rfl, rfl, rfl, rfl, rfl, rfl, rfl, rfl, rfl, rfl, fun _ => rfl⟩

/-- An update of the parts of the state that ending a command touches. -/
theorem Ends.upd (s : State) {free nextCmd nextTxn : Nat} {reg : RegSt} {pa pb : PortSt} {rings : Tab Ring}
    {refuse : Nat × Nat × Nat × Nat} {cmds : List Cmd} {arr : ArrSt} {selMax : Nat} {walks : List Walk}
    {walkPeak pfPeak : Nat} {fte : FteSt} {fab : FabSt} {col : ColSt} :
    Ends s { s with free := free, nextCmd := nextCmd, nextTxn := nextTxn, reg := reg, pa := pa, pb := pb, rings := rings, refuse := refuse, cmds := cmds, arr := arr, selMax := selMax, walks := walks, walkPeak := walkPeak, pfPeak := pfPeak, fte := fte, fab := fab, col := col } :=
  ⟨rfl, rfl, rfl, rfl, rfl, rfl, rfl, rfl, rfl, rfl, rfl, rfl, rfl, fun _ => rfl⟩

theorem bump_ends (s : State) (o n : Nat) : Ends s (s.bump o n) := .of_reports (bump_reports s o n)

theorem bumps_ends (s : State) (l : List (Nat × Nat)) : Ends s (s.bumps l) := .of_reports (bumps_reports s l)

theorem raiseAt_ends (s : State) (base bit : Nat) (a : Attr) : Ends s (s.raiseAt base bit a) := .of_reports (raiseAt_reports s base bit a)

theorem setReg32_ends (s : State) (o v : Nat) : Ends s (s.setReg32 o v) := .of_reports (setReg32_reports s o v)

theorem modCmd_ends (s : State) (i : Nat) (f : Cmd → Cmd) : Ends s (s.modCmd i f) := .upd s

theorem dropCmd_ends (s : State) (i : Nat) : Ends s (s.dropCmd i) := .upd s

theorem setRing_ends (s : State) (p : Port) (c : Nat) (r : Ring) : Ends s (s.setRing p c r) := .upd s

theorem modPart_ends (s : State) (p : Nat) (f : PartSt → PartSt) (h : ∀ x, (f x).cur = x.cur) : Ends s (s.modPart p f) := by
  refine ⟨rfl, rfl, rfl, rfl, rfl, rfl, rfl, rfl, rfl, rfl, rfl, rfl, rfl, fun q => ?_⟩
  by_cases e : q = p
  · subst e; rw [State.part_modPart_same]; exact h _
  · rw [State.part_modPart_ne _ _ _ _ e]

theorem modCapo_ends (s : State) (p r : Nat) (f : Capo → Capo) : Ends s (s.modCapo p r f) := modPart_ends s p _ fun _ => rfl

theorem setLink_ends (s : State) (l : Nat) (x : LinkSt) : Ends s (s.setLink l x) := .upd s

theorem forget_ends (s : State) (c : Cmd) : Ends s (s.forget c) := .upd s

theorem discard_ends (s : State) (c : Cmd) : Ends s (s.discard c) := by
  unfold State.discard
  dsimp only
  split
  · exact (bump_ends s _ _).trans ((forget_ends _ c).trans (modCmd_ends _ _ _))
  · exact (forget_ends s c).trans (modCmd_ends _ _ _)

theorem pump_ends (s : State) (l : Nat) : Ends s (s.pump l) := by
  unfold State.pump
  dsimp only
  split
  · exact .refl s
  · exact ((setLink_ends s _ _).trans (bump_ends _ _ _)).trans (setReg32_ends _ _ _)

theorem enqueue_ends (s : State) (l : Nat) (fs : List TxFlit) : Ends s (s.enqueue l fs) :=
  ((setLink_ends s l _).trans (pump_ends _ l)).trans (bumps_ends _ _)

theorem trySendNot_ends (s : State) (m : Msg) (low : Bool) (avoid : Nat) : Ends s (s.trySendNot m low avoid).1 := by
  unfold State.trySendNot
  split
  · exact .upd s
  · dsimp only
    split
    · exact .refl s
    · rename_i l _
      split
      · exact enqueue_ends s l _
      · exact ((enqueue_ends s l _).trans (.upd _)).trans (bump_ends _ _ _)

theorem putMsg_ends (s : State) (m : Msg) : Ends s (s.putMsg m) := by
  unfold State.putMsg
  dsimp only
  split
  · exact trySendNot_ends s m false 31
  · unfold State.noRoute State.raise
    exact (bump_ends s _ _).trans (raiseAt_ends _ _ _ _)

theorem take_ends (s : State) (p r n : Nat) (k : Class) : Ends s (s.take p r n k) := by
  unfold State.take
  dsimp only
  split
  · exact bump_ends s _ _
  · exact (bump_ends s _ _).trans (modCapo_ends _ _ _ _)

theorem charge_ends {s t : State} {p r n : Nat} (h : s.charge p r n = some t) : Ends s t := by
  unfold State.charge at h
  split at h
  · cases h; exact .refl s
  · split at h
    · cases h
    · split at h
      · cases h
      · cases h; exact take_ends s _ _ _ _
    · cases h; exact take_ends s _ _ _ _

theorem noteHeld_ends (s : State) (p r : Nat) : Ends s (s.noteHeld p r) := by
  unfold State.noteHeld
  exact (bump_ends s _ _).trans (modCapo_ends _ _ _ _)

theorem sendMsg_ends (s : State) (m : Msg) : Ends s (s.sendMsg m) := by
  unfold State.sendMsg
  split
  · rename_i t h
    exact (charge_ends h).trans (putMsg_ends t m)
  · exact (Ends.upd s).trans (noteHeld_ends _ _ _)

theorem coalesce_ends (s : State) (p : Port) (ctx part : Nat) : Ends s (s.coalesce p ctx part) := by
  unfold State.coalesce
  dsimp only
  split
  · exact (setRing_ends s _ _ _).trans (.of_reports (sendMsix_reports _ _ _ _))
  · exact setRing_ends s _ _ _

theorem writeRec_ends (s : State) (p : Port) (ctx : Nat) (x : Rec) : Ends s (s.writeRec p ctx x) := by
  unfold State.writeRec
  dsimp only
  split
  · exact (((Ends.of_reports (emit_reports s _ _)).trans (setRing_ends _ _ _ _)).trans (bump_ends _ _ _)).trans (coalesce_ends _ _ _ _)
  · exact ((Ends.of_reports (emit_reports s _ _)).trans (setRing_ends _ _ _ _)).trans (bump_ends _ _ _)

theorem putRec_ends (s : State) (p : Port) (ctx : Nat) (x : Rec) : Ends s (s.putRec p ctx x) := by
  unfold State.putRec
  dsimp only
  split
  · exact writeRec_ends s _ _ _
  · exact setRing_ends s _ _ _

theorem answer_ends (s : State) (c : Cmd) (st sub result edition counter : Nat) (out : List Byte) :
    Ends s (s.answer c st sub result edition counter out) := by
  have h : Ends s ((s.forget c).dropCmd c.id) := (forget_ends s c).trans (dropCmd_ends _ _)
  unfold State.answer
  dsimp only
  split
  · exact h.trans (putRec_ends _ _ _ _)
  · exact h.trans (sendMsg_ends _ _)
  · split
    · exact h.trans (putMsg_ends _ _)
    · exact h
  · exact h
  · exact h

theorem refuseCmd_ends (s : State) (c : Cmd) (st sub counter : Nat) : Ends s (s.refuseCmd c st sub counter) := by
  unfold State.refuseCmd
  dsimp only
  refine Ends.trans ?_ (answer_ends _ _ _ _ _ _ _ _)
  have h : Ends s (if (st == 0) = true then s.bump (pCau + 0x040) 1
      else { (if (st == stBufferShort) = true then (s.bump (pCau + 0x048) 1).bump (pCau + 0x050) 1 else s.bump (pCau + 0x048) 1) with
        refuse := (st, sub, c.opcode, c.ctx) }) := by
    split
    · exact bump_ends s _ _
    · split
      · exact ((bump_ends s _ _).trans (bump_ends _ _ _)).trans (.upd _)
      · exact (bump_ends s _ _).trans (.upd _)
  split
  · exact h.trans (bump_ends _ _ _)
  · exact h

theorem collDrop_ends (s : State) (id sub : Nat) : Ends s (s.collDrop id sub) := by
  unfold State.collDrop
  refine Ends.foldl (fun s k => ?_) _ s
  dsimp only
  split
  · exact (Ends.foldl (fun s j => putMsg_ends s _) _ s).trans (.upd _)
  · exact (putMsg_ends s _).trans (.upd _)

theorem endCmd_ends (s : State) (c : Cmd) (st sub : Nat) : Ends s (s.endCmd c st sub) :=
  ((discard_ends s c).trans (collDrop_ends _ _ _)).trans (answer_ends _ _ _ _ _ _ _ _)

end Sys2Proof.Machine
end

