-- ==== Sys2Proof/Laws/Keeps.lean ====
section
/-! SUPPORT. What every operation keeps: the queue, the canonical form of memory, one-time-programmable fields, and names that only move on. -/

namespace Sys2Proof.Machine

/-- From `s` to `t`, whatever was done. -/
structure Keeps (s t : State) : Prop where
  queue : t.pending = s.pending
  mem : memWf s.hbm.cells = true → memWf t.hbm.cells = true
  otp : OtpOnlyAdds s.sec t.sec
  free : s.free ≤ t.free
  nextCmd : s.nextCmd ≤ t.nextCmd
  nextTxn : s.nextTxn ≤ t.nextTxn

theorem OtpOnlyAdds.refl (x : SecSt) : OtpOnlyAdds x x := ⟨.inl rfl, rfl, rfl, fun _ h => h, Nat.le_refl _⟩

theorem OtpOnlyAdds.upd {x : SecSt} {seed root : List Byte} {meas : List (List Byte)} {idDigest : List Byte} {sessions : List Session}
    {ide : Tab (List Byte)} {conf busy : Nat} {nonce buf : Tab (List Byte)} {ctr : Tab Nat} {entry chunks : Tab (List Byte)}
    {slot0 slot1 : List Byte} {selector : Nat} {chain : List Byte} {noPatch bootOk : Bool} {draws : Nat} :
    OtpOnlyAdds x ⟨x.life, x.digests, x.valid, x.revoked, x.arb, seed, root, meas, idDigest, sessions, ide, conf, busy, nonce, buf, ctr, entry,
      chunks, slot0, slot1, selector, chain, noPatch, bootOk, draws⟩ :=
  ⟨.inl rfl, rfl, rfl, fun _ h => h, Nat.le_refl _⟩

theorem OtpOnlyAdds.trans {x y z : SecSt} (h : OtpOnlyAdds x y) (k : OtpOnlyAdds y z) : OtpOnlyAdds x z := by
  refine ⟨?_, k.digests.trans h.digests, k.valid.trans h.valid, fun i e => k.revoked i (h.revoked i e), Nat.le_trans h.arb k.arb⟩
  rcases h.life with h | ⟨h1, h2⟩
  · rcases k.life with k | ⟨k1, k2⟩
    · exact .inl (k.trans h)
    · exact .inr ⟨h ▸ k1, k2⟩
  · rcases k.life with k | ⟨k1, _⟩
    · exact .inr ⟨h1, k.trans h2⟩
    · rw [h2] at k1; cases k1

theorem Keeps.refl (s : State) : Keeps s s := ⟨rfl, id, .refl _, Nat.le_refl _, Nat.le_refl _, Nat.le_refl _⟩

theorem Keeps.trans {s t u : State} (h : Keeps s t) (k : Keeps t u) : Keeps s u :=
  ⟨k.queue.trans h.queue, fun e => k.mem (h.mem e), h.otp.trans k.otp, Nat.le_trans h.free k.free, Nat.le_trans h.nextCmd k.nextCmd,
    Nat.le_trans h.nextTxn k.nextTxn⟩

/-- A record update. -/
theorem Keeps.upd {s₀ s : State} {free nextCmd nextTxn : Nat} {time : TimeSt} {pwr : PwrSt} {reg : RegSt} {pa pb : PortSt} {rings : Tab Ring}
    {refuse : Nat × Nat × Nat × Nat} {cmds : List Cmd} {ctxs : Tab CtxEnt} {parts : Tab PartSt} {hbm : HbmSt} {frets : Tab Fret}
    {sbc : SbcSt} {arr : ArrSt} {peg : Tab PegSlot} {selMax : Nat} {regions : List Region} {shards : List Shard} {walks : List Walk}
    {walkPeak pfPeak : Nat} {fte : FteSt} {fab : FabSt} {col : ColSt} {cmp : CmpSt} {sec : SecSt} {mgt : MgtSt} (h : Keeps s₀ s)
    (hm : memWf s.hbm.cells = true → memWf hbm.cells = true) (ho : OtpOnlyAdds s.sec sec) (hf : s.free ≤ free) (hc : s.nextCmd ≤ nextCmd) (ht : s.nextTxn ≤ nextTxn) :
    Keeps s₀ ⟨s.pending, free, nextCmd, nextTxn, time, pwr, reg, pa, pb, rings, refuse, cmds, ctxs, parts, hbm, frets, sbc, arr, peg, selMax,
      regions, shards, walks, walkPeak, pfPeak, fte, fab, col, cmp, sec, mgt⟩ :=
  h.trans ⟨rfl, hm, ho, hf, hc, ht⟩

theorem Keeps.foldl {α : Type} {f : State → α → State} (hf : ∀ {s₀ s : State} {x : α}, Keeps s₀ s → Keeps s₀ (f s x)) (l : List α) :
    ∀ {s₀ s : State}, Keeps s₀ s → Keeps s₀ (l.foldl f s) := by
  induction l with
  | nil => intro s₀ s h; exact h
  | cons x r ih => intro s₀ s h; exact ih (hf h)

theorem Keeps.foldl_fst {α β : Type} {f : State × α → β → State × α}
    (hf : ∀ {s₀ : State} {p : State × α} {x : β}, Keeps s₀ p.1 → Keeps s₀ (f p x).1) (l : List β) :
    ∀ {s₀ : State} {p : State × α}, Keeps s₀ p.1 → Keeps s₀ (l.foldl f p).1 := by
  induction l with
  | nil => intro s₀ p h; exact h
  | cons x r ih => intro s₀ p h; exact ih (hf h)

theorem Keeps.foldl_snd {α β : Type} {f : α × State → β → α × State}
    (hf : ∀ {s₀ : State} {p : α × State} {x : β}, Keeps s₀ p.2 → Keeps s₀ (f p x).2) (l : List β) :
    ∀ {s₀ : State} {p : α × State}, Keeps s₀ p.2 → Keeps s₀ (l.foldl f p).2 := by
  induction l with
  | nil => intro s₀ p h; exact h
  | cons x r ih => intro s₀ p h; exact ih (hf h)

theorem Keeps.elim {α : Type} {s₀ s : State} {o : Option α} {f : α → State} (h : Keeps s₀ s) (hf : ∀ a, Keeps s₀ (f a)) : Keeps s₀ (o.elim s f) := by
  cases o
  · exact h
  · exact hf _

theorem Keeps.of_fst {α : Type} {s₀ s : State} {p : State × α} {a : α} (e : p = (s, a)) (h : Keeps s₀ p.1) : Keeps s₀ s := by
  subst e; exact h

theorem Keeps.of_snd {α : Type} {s₀ s : State} {p : α × State} {a : α} (e : p = (a, s)) (h : Keeps s₀ p.2) : Keeps s₀ s := by
  subst e; exact h

/-- What an answer keeps, where it is a next state. -/
def KeepsA (s : State) (a : Host.Outcome State Fault Refusal) : Prop := ∀ t, a = .next t → Keeps s t

theorem KeepsA.next {s t : State} (h : Keeps s t) : KeepsA s (.next t) := by
  intro u e; cases e; exact h

end Sys2Proof.Machine
end

