-- ==== Sys2Proof/Laws/KeepOps.lean ====
section
/-! SUPPORT. The operations of Machine/Ops.lean keep what every operation keeps. -/

namespace Sys2Proof.Machine

theorem State.setPort_keeps {s₀ s : State} {p : Port} {x : PortSt} (hK : Keeps s₀ s) : Keeps s₀ (State.setPort s p x) := by
  unfold State.setPort
  with_reducible repeat' first
    | assumption | dsimp only | split | refine Keeps.upd ?_ ?_ ?_ ?_ ?_ ?_ | exact fun e => e | exact OtpOnlyAdds.refl _ | exact Nat.le_refl _

theorem State.modPort_keeps {s₀ s : State} {p : Port} {f : PortSt → PortSt} (hK : Keeps s₀ s) : Keeps s₀ (State.modPort s p f) := by
  unfold State.modPort
  with_reducible repeat' first
    | assumption | apply State.setPort_keeps | dsimp only | split

theorem State.setRing_keeps {s₀ s : State} {p : Port} {ctx : Nat} {r : Ring} (hK : Keeps s₀ s) : Keeps s₀ (State.setRing s p ctx r) := by
  unfold State.setRing
  with_reducible repeat' first
    | assumption | dsimp only | split | refine Keeps.upd ?_ ?_ ?_ ?_ ?_ ?_ | exact fun e => e | exact OtpOnlyAdds.refl _ | exact Nat.le_refl _

theorem State.modCtx_keeps {s₀ s : State} {n : Nat} {f : CtxEnt → CtxEnt} (hK : Keeps s₀ s) : Keeps s₀ (State.modCtx s n f) := by
  unfold State.modCtx
  with_reducible repeat' first
    | assumption | dsimp only | split | refine Keeps.upd ?_ ?_ ?_ ?_ ?_ ?_ | exact fun e => e | exact OtpOnlyAdds.refl _ | exact Nat.le_refl _

theorem State.modPart_keeps {s₀ s : State} {p : Nat} {f : PartSt → PartSt} (hK : Keeps s₀ s) : Keeps s₀ (State.modPart s p f) := by
  unfold State.modPart
  with_reducible repeat' first
    | assumption | dsimp only | split | refine Keeps.upd ?_ ?_ ?_ ?_ ?_ ?_ | exact fun e => e | exact OtpOnlyAdds.refl _ | exact Nat.le_refl _

theorem State.modCapo_keeps {s₀ s : State} {p r : Nat} {f : Capo → Capo} (hK : Keeps s₀ s) : Keeps s₀ (State.modCapo s p r f) := by
  unfold State.modCapo
  with_reducible repeat' first
    | assumption | apply State.modPart_keeps | dsimp only | split

theorem State.modCmd_keeps {s₀ s : State} {id : Nat} {f : Cmd → Cmd} (hK : Keeps s₀ s) : Keeps s₀ (State.modCmd s id f) := by
  unfold State.modCmd
  with_reducible repeat' first
    | assumption | dsimp only | split | refine Keeps.upd ?_ ?_ ?_ ?_ ?_ ?_ | exact fun e => e | exact OtpOnlyAdds.refl _ | exact Nat.le_refl _

theorem State.dropCmd_keeps {s₀ s : State} {id : Nat} (hK : Keeps s₀ s) : Keeps s₀ (State.dropCmd s id) := by
  unfold State.dropCmd
  with_reducible repeat' first
    | assumption | dsimp only | split | refine Keeps.upd ?_ ?_ ?_ ?_ ?_ ?_ | exact fun e => e | exact OtpOnlyAdds.refl _ | exact Nat.le_refl _

theorem State.takeFree_keeps {s₀ s : State} {w : Nat} (hK : Keeps s₀ s) : Keeps s₀ (State.takeFree s w).2 := by
  unfold State.takeFree
  with_reducible repeat' first
    | assumption | dsimp only | split | refine Keeps.upd ?_ ?_ ?_ ?_ ?_ ?_ | exact fun e => e | exact OtpOnlyAdds.refl _ | exact Nat.le_refl _ | exact Nat.le_add_right _ _

theorem State.setReg32_keeps {s₀ s : State} {off v : Nat} (hK : Keeps s₀ s) : Keeps s₀ (State.setReg32 s off v) := by
  unfold State.setReg32
  with_reducible repeat' first
    | assumption | dsimp only | split | refine Keeps.upd ?_ ?_ ?_ ?_ ?_ ?_ | exact fun e => e | exact OtpOnlyAdds.refl _ | exact Nat.le_refl _

theorem State.setSel_keeps {s₀ s : State} {a : Agent} {off v : Nat} (hK : Keeps s₀ s) : Keeps s₀ (State.setSel s a off v) := by
  unfold State.setSel
  with_reducible repeat' first
    | assumption | dsimp only | split | refine Keeps.upd ?_ ?_ ?_ ?_ ?_ ?_ | exact fun e => e | exact OtpOnlyAdds.refl _ | exact Nat.le_refl _

theorem State.setLatch_keeps {s₀ s : State} {a : Agent} {off v : Nat} (hK : Keeps s₀ s) : Keeps s₀ (State.setLatch s a off v) := by
  unfold State.setLatch
  with_reducible repeat' first
    | assumption | dsimp only | split | refine Keeps.upd ?_ ?_ ?_ ?_ ?_ ?_ | exact fun e => e | exact OtpOnlyAdds.refl _ | exact Nat.le_refl _

theorem State.dropLatch_keeps {s₀ s : State} {a : Agent} {off : Nat} (hK : Keeps s₀ s) : Keeps s₀ (State.dropLatch s a off) := by
  unfold State.dropLatch
  with_reducible repeat' first
    | assumption | dsimp only | split | refine Keeps.upd ?_ ?_ ?_ ?_ ?_ ?_ | exact fun e => e | exact OtpOnlyAdds.refl _ | exact Nat.le_refl _

theorem State.bump_keeps {s₀ s : State} {off n : Nat} (hK : Keeps s₀ s) : Keeps s₀ (State.bump s off n) := by
  unfold State.bump
  with_reducible repeat' first
    | assumption | dsimp only | split | refine Keeps.upd ?_ ?_ ?_ ?_ ?_ ?_ | exact fun e => e | exact OtpOnlyAdds.refl _ | exact Nat.le_refl _

theorem State.bumps_keeps {s₀ s : State} {l : List (Nat × Nat)} (hK : Keeps s₀ s) : Keeps s₀ (State.bumps s l) := by
  unfold State.bumps
  with_reducible repeat' first
    | assumption | apply State.bump_keeps | (refine Keeps.foldl (fun h => ?_) _ ?_) | dsimp only | split

theorem State.emit_keeps {s₀ s : State} {p : Port} {m : HostMsg} (hK : Keeps s₀ s) : Keeps s₀ (State.emit s p m) := by
  unfold State.emit
  with_reducible repeat' first
    | assumption | apply State.modPort_keeps | dsimp only | split

theorem State.sendMsix_keeps {s₀ s : State} {p : Port} {fn vector : Nat} (hK : Keeps s₀ s) : Keeps s₀ (State.sendMsix s p fn vector) := by
  unfold State.sendMsix
  with_reducible repeat' first
    | assumption | apply State.modPort_keeps | apply State.bump_keeps | apply State.emit_keeps | dsimp only | split

theorem State.summaryMsg_keeps {s₀ s : State} (hK : Keeps s₀ s) : Keeps s₀ (State.summaryMsg s) := by
  unfold State.summaryMsg
  with_reducible repeat' first
    | assumption | apply State.sendMsix_keeps | dsimp only | split

theorem State.withSum_keeps {s₀ s : State} {i : Nat} {f : State → State} (hf : ∀ {a b : State}, Keeps a b → Keeps a (f b)) (hK : Keeps s₀ s) : Keeps s₀ (State.withSum s i f) := by
  unfold State.withSum
  with_reducible repeat' first
    | assumption | apply State.summaryMsg_keeps | apply hf | dsimp only | split

theorem State.logEvent_keeps {s₀ s : State} {base code sev : Nat} {at' : Attr} {d0 d1 : Nat} (h : Keeps s₀ s) : Keeps s₀ (State.logEvent s base code sev at' d0 d1) := by
  unfold State.logEvent State.logEvent.new
  with_reducible repeat' first
    | assumption | apply State.bump_keeps | apply State.setReg32_keeps | dsimp only | split | refine Keeps.upd ?_ ?_ ?_ ?_ ?_ ?_ | exact fun e => e | exact OtpOnlyAdds.refl _ | exact Nat.le_refl _

theorem State.raiseAt_keeps {s₀ s : State} {base bit : Nat} {at' : Attr} (hK : Keeps s₀ s) : Keeps s₀ (State.raiseAt s base bit at') := by
  unfold State.raiseAt
  with_reducible repeat' first
    | assumption | apply State.setReg32_keeps | (refine State.withSum_keeps (fun h => ?_) ?_) | apply State.logEvent_keeps | dsimp only | split

theorem State.raise_keeps {s₀ s : State} {base bit : Nat} (hK : Keeps s₀ s) : Keeps s₀ (State.raise s base bit) := by
  unfold State.raise
  with_reducible repeat' first
    | assumption | apply State.raiseAt_keeps | dsimp only | split

theorem State.raises_keeps {s₀ s : State} {at' : Attr} {l : List (Nat × Nat)} (hK : Keeps s₀ s) : Keeps s₀ (State.raises s at' l) := by
  unfold State.raises
  with_reducible repeat' first
    | assumption | apply State.raiseAt_keeps | (refine Keeps.foldl (fun h => ?_) _ ?_) | dsimp only | split

theorem State.disarm_keeps {s₀ s : State} {base bit : Nat} (hK : Keeps s₀ s) : Keeps s₀ (State.disarm s base bit) := by
  unfold State.disarm
  with_reducible repeat' first
    | assumption | apply State.setReg32_keeps | dsimp only | split

theorem State.enterStage_keeps {s₀ s : State} {n : Nat} (hK : Keeps s₀ s) : Keeps s₀ (State.enterStage s n) := by
  unfold State.enterStage
  with_reducible repeat' first
    | assumption | apply State.logEvent_keeps | dsimp only | split | refine Keeps.upd ?_ ?_ ?_ ?_ ?_ ?_ | exact fun e => e | exact OtpOnlyAdds.refl _ | exact Nat.le_refl _

theorem State.coalesce_keeps {s₀ s : State} {p : Port} {ctx part : Nat} (hK : Keeps s₀ s) : Keeps s₀ (State.coalesce s p ctx part) := by
  unfold State.coalesce
  with_reducible repeat' first
    | assumption | apply State.setRing_keeps | apply State.sendMsix_keeps | dsimp only | split

theorem State.writeRec_keeps {s₀ s : State} {p : Port} {ctx : Nat} {x : Rec} (hK : Keeps s₀ s) : Keeps s₀ (State.writeRec s p ctx x) := by
  unfold State.writeRec
  with_reducible repeat' first
    | assumption | apply State.setRing_keeps | apply State.bump_keeps | apply State.emit_keeps | apply State.coalesce_keeps | dsimp only | split

theorem State.putRec_keeps {s₀ s : State} {p : Port} {ctx : Nat} {x : Rec} (hK : Keeps s₀ s) : Keeps s₀ (State.putRec s p ctx x) := by
  unfold State.putRec
  with_reducible repeat' first
    | assumption | apply State.setRing_keeps | apply State.writeRec_keeps | dsimp only | split

theorem State.drainRing_go_keeps {p : Port} {ctx : Nat} (l : List Rec) : ∀ {s₀ s : State}, Keeps s₀ s → Keeps s₀ (State.drainRing.go p ctx l s) := by
  induction l with
  | nil => intro s₀ s h; exact h
  | cons x r ih => intro s₀ s h; exact ih (State.writeRec_keeps (State.setRing_keeps h))

theorem State.drainRing_keeps {s₀ s : State} {p : Port} {ctx : Nat} (h : Keeps s₀ s) : Keeps s₀ (State.drainRing s p ctx) := by
  unfold State.drainRing
  split
  · exact State.drainRing_go_keeps _ h
  · exact h

theorem State.idleTick_keeps {s₀ s : State} (hK : Keeps s₀ s) : Keeps s₀ (State.idleTick s) := by
  unfold State.idleTick
  with_reducible repeat' first
    | assumption | dsimp only | split | refine Keeps.upd ?_ ?_ ?_ ?_ ?_ ?_ | exact fun e => e | exact OtpOnlyAdds.refl _ | exact OtpOnlyAdds.upd | exact Nat.le_refl _ | exact Nat.le_add_right _ _

end Sys2Proof.Machine
end

