-- ==== Sys2Proof/Laws/KeepQuant.lean ====
section
/-! SUPPORT. The operations of Machine/Quant.lean keep what every operation keeps. -/

namespace Sys2Proof.Machine

theorem State.pegStat_keeps {s₀ s : State} {tag kind number part : Nat} {f : Fmt} {errs : List Dy} {sat : Nat} (hK : Keeps s₀ s) : Keeps s₀ (State.pegStat s tag kind number part f errs sat) := by
  unfold State.pegStat
  with_reducible repeat' first
    | assumption | dsimp only | split | refine Keeps.upd ?_ ?_ ?_ ?_ ?_ ?_ | exact fun e => e | exact OtpOnlyAdds.refl _ | exact Nat.le_refl _

end Sys2Proof.Machine
end

