-- ==== Sys2Proof/Laws/KeepHbm.lean ====
section
/-! SUPPORT. The operations of Machine/Hbm.lean keep what every operation keeps. -/

namespace Sys2Proof.Machine

theorem State.elog_keeps {s₀ s : State} {stack : Nat} {e : Elog} (h : Keeps s₀ s) : Keeps s₀ (State.elog s stack e) := by
  unfold State.elog State.elog.new
  with_reducible repeat' first
    | assumption | apply State.logEvent_keeps | apply State.bump_keeps | dsimp only | split | refine Keeps.upd ?_ ?_ ?_ ?_ ?_ ?_ | exact fun e => e | exact OtpOnlyAdds.refl _ | exact Nat.le_refl _

theorem State.elogSym_keeps {s₀ s : State} {f kind : Nat} {dca : Option Nat} {symbol : Nat} (hK : Keeps s₀ s) : Keeps s₀ (State.elogSym s f kind dca symbol) := by
  unfold State.elogSym
  with_reducible repeat' first
    | assumption | apply State.elog_keeps | dsimp only | split | refine Keeps.upd ?_ ?_ ?_ ?_ ?_ ?_ | exact fun e => e | exact OtpOnlyAdds.refl _ | exact OtpOnlyAdds.upd | exact Nat.le_refl _ | exact Nat.le_add_right _ _

theorem State.elogAt_keeps {s₀ s : State} {f kind : Nat} {dca : Option Nat} (hK : Keeps s₀ s) : Keeps s₀ (State.elogAt s f kind dca) := by
  unfold State.elogAt
  with_reducible repeat' first
    | assumption | apply State.elogSym_keeps | dsimp only | split

theorem State.hbmWrite_keeps {s₀ s : State} {f o tag : Nat} {d : List Byte} (hK : Keeps s₀ s) : Keeps s₀ (State.hbmWrite s f o tag d) := by
  unfold State.hbmWrite
  with_reducible repeat' first
    | assumption | dsimp only | split | refine Keeps.upd ?_ ?_ ?_ ?_ ?_ ?_ | exact fun e => e | exact OtpOnlyAdds.refl _ | exact Nat.le_refl _ | exact memWf_memWrite _ _

theorem State.devWrite_keeps {s₀ s : State} {a : Nat} {d : List Byte} (hK : Keeps s₀ s) : Keeps s₀ (State.devWrite s a d) := by
  unfold State.devWrite
  with_reducible repeat' first
    | assumption | apply State.hbmWrite_keeps | dsimp only | split

theorem State.settleRow_keeps {s₀ s : State} {r : StagedRow} {e : Nat} (hK : Keeps s₀ s) : Keeps s₀ (State.settleRow s r e) := by
  unfold State.settleRow
  with_reducible repeat' first
    | assumption | apply State.hbmWrite_keeps | dsimp only | split

theorem State.publishRow_keeps {s₀ s : State} {owner : Option Target} {r : StagedRow} {e : Nat} (hK : Keeps s₀ s) : Keeps s₀ (State.publishRow s owner r e) := by
  unfold State.publishRow
  with_reducible repeat' first
    | assumption | apply State.settleRow_keeps | dsimp only | split | refine Keeps.upd ?_ ?_ ?_ ?_ ?_ ?_ | exact fun e => e | exact OtpOnlyAdds.refl _ | exact Nat.le_refl _

theorem State.foldOverlay_keeps {s₀ s : State} {o : Overlay} (hK : Keeps s₀ s) : Keeps s₀ (State.foldOverlay s o) := by
  unfold State.foldOverlay
  with_reducible repeat' first
    | assumption | apply State.bump_keeps | apply State.hbmWrite_keeps | dsimp only | split | refine Keeps.upd ?_ ?_ ?_ ?_ ?_ ?_ | exact fun e => e | exact OtpOnlyAdds.refl _ | exact Nat.le_refl _

theorem State.fenceDie_keeps {s₀ s : State} {die : Nat} (hK : Keeps s₀ s) : Keeps s₀ (State.fenceDie s die) := by
  unfold State.fenceDie
  with_reducible repeat' first
    | assumption | apply State.logEvent_keeps | apply State.elog_keeps | dsimp only | split | refine Keeps.upd ?_ ?_ ?_ ?_ ?_ ?_ | exact fun e => e | exact OtpOnlyAdds.refl _ | exact Nat.le_refl _

theorem State.failDomain_keeps {s₀ s : State} {f : Nat} {reads : Bool} (hK : Keeps s₀ s) : Keeps s₀ (State.failDomain s f reads) := by
  unfold State.failDomain
  with_reducible repeat' first
    | assumption | apply State.logEvent_keeps | apply State.raise_keeps | apply State.elogAt_keeps | apply State.fenceDie_keeps | dsimp only | split | refine Keeps.upd ?_ ?_ ?_ ?_ ?_ ?_ | exact fun e => e | exact OtpOnlyAdds.refl _ | exact Nat.le_refl _

theorem State.spareDone_keeps {s₀ s : State} {f : Nat} (hK : Keeps s₀ s) : Keeps s₀ (State.spareDone s f) := by
  unfold State.spareDone
  with_reducible repeat' first
    | assumption | dsimp only | split | refine Keeps.upd ?_ ?_ ?_ ?_ ?_ ?_ | exact fun e => e | exact OtpOnlyAdds.refl _ | exact Nat.le_refl _ | exact memWf_filter _

theorem State.correct_keeps {s₀ s : State} {f dca kind symbol : Nat} (hK : Keeps s₀ s) : Keeps s₀ (State.correct s f dca kind symbol) := by
  unfold State.correct
  with_reducible repeat' first
    | assumption | apply State.bump_keeps | apply State.raise_keeps | apply State.elogSym_keeps | apply State.failDomain_keeps | dsimp only | split | refine Keeps.upd ?_ ?_ ?_ ?_ ?_ ?_ | exact fun e => e | exact OtpOnlyAdds.refl _ | exact OtpOnlyAdds.upd | exact Nat.le_refl _ | exact Nat.le_add_right _ _

theorem State.failOpen_keeps {s₀ s : State} {f : Nat} (hK : Keeps s₀ s) : Keeps s₀ (State.failOpen s f) := by
  unfold State.failOpen
  with_reducible repeat' first
    | assumption | apply State.takeFree_keeps | apply State.failDomain_keeps | dsimp only | split

theorem State.uncorrect_keeps {s₀ s : State} {f dca : Nat} {rows : List (Nat × Nat)} (hK : Keeps s₀ s) : Keeps s₀ (State.uncorrect s f dca rows) := by
  unfold State.uncorrect
  with_reducible repeat' first
    | assumption | apply State.bump_keeps | apply State.raise_keeps | apply State.elogAt_keeps | apply State.failDomain_keeps | dsimp only | split | refine Keeps.upd ?_ ?_ ?_ ?_ ?_ ?_ | exact fun e => e | exact OtpOnlyAdds.refl _ | exact OtpOnlyAdds.upd | exact Nat.le_refl _ | exact Nat.le_add_right _ _

theorem State.verifyMiss_keeps {s₀ s : State} {f col : Nat} (hK : Keeps s₀ s) : Keeps s₀ (State.verifyMiss s f col) := by
  unfold State.verifyMiss
  with_reducible repeat' first
    | assumption | apply State.bump_keeps | apply State.raise_keeps | apply State.elogAt_keeps | dsimp only | split

theorem State.reportErr_keeps {s₀ s : State} {a : Attr} {x : Nat × Nat} (hK : Keeps s₀ s) : Keeps s₀ (State.reportErr s a x) := by
  unfold State.reportErr
  with_reducible repeat' first
    | assumption | apply State.raiseAt_keeps | apply State.disarm_keeps | apply State.uncorrect_keeps | apply State.verifyMiss_keeps | dsimp only | split

theorem State.fretFault_keeps {s₀ s : State} {f : Nat} (hK : Keeps s₀ s) : Keeps s₀ (State.fretFault s f) := by
  unfold State.fretFault
  with_reducible repeat' first
    | assumption | apply State.raise_keeps | apply State.elogAt_keeps | apply State.failOpen_keeps | dsimp only | split

end Sys2Proof.Machine
end

