-- ==== Sys2Proof/Laws/KeepWire.lean ====
section
/-! SUPPORT. The operations of Machine/Wire.lean keep what every operation keeps. -/

namespace Sys2Proof.Machine

theorem State.setLink_keeps {s₀ s : State} {l : Nat} {x : LinkSt} (hK : Keeps s₀ s) : Keeps s₀ (State.setLink s l x) := by
  unfold State.setLink
  with_reducible repeat' first
    | assumption | dsimp only | split | refine Keeps.upd ?_ ?_ ?_ ?_ ?_ ?_ | exact fun e => e | exact OtpOnlyAdds.refl _ | exact Nat.le_refl _

theorem State.pump_keeps {s₀ s : State} {l : Nat} (hK : Keeps s₀ s) : Keeps s₀ (State.pump s l) := by
  unfold State.pump
  with_reducible repeat' first
    | assumption | apply State.bump_keeps | apply State.disarm_keeps | apply State.setLink_keeps | dsimp only | split

theorem State.enqueue_keeps {s₀ s : State} {l : Nat} {fs : List TxFlit} (hK : Keeps s₀ s) : Keeps s₀ (State.enqueue s l fs) := by
  unfold State.enqueue
  with_reducible repeat' first
    | assumption | apply State.bumps_keeps | apply State.setLink_keeps | apply State.pump_keeps | dsimp only | split | refine Keeps.upd ?_ ?_ ?_ ?_ ?_ ?_ | exact fun e => e | exact OtpOnlyAdds.refl _ | exact OtpOnlyAdds.upd | exact Nat.le_refl _ | exact Nat.le_add_right _ _

theorem State.trySendNot_keeps {s₀ s : State} {m : Msg} {low : Bool} {avoid : Nat} (hK : Keeps s₀ s) : Keeps s₀ (State.trySendNot s m low avoid).1 := by
  unfold State.trySendNot
  with_reducible repeat' first
    | assumption | apply State.bump_keeps | apply State.enqueue_keeps | dsimp only | split | refine Keeps.upd ?_ ?_ ?_ ?_ ?_ ?_ | exact fun e => e | exact OtpOnlyAdds.refl _ | exact OtpOnlyAdds.upd | exact Nat.le_refl _ | exact Nat.le_add_right _ _

theorem State.trySend_keeps {s₀ s : State} {m : Msg} {low : Bool} (hK : Keeps s₀ s) : Keeps s₀ (State.trySend s m low).1 := by
  unfold State.trySend
  with_reducible repeat' first
    | assumption | apply State.trySendNot_keeps | (refine Keeps.of_fst (by assumption) (State.trySendNot_keeps ?_)) | dsimp only | split

theorem State.noRoute_keeps {s₀ s : State} (hK : Keeps s₀ s) : Keeps s₀ (State.noRoute s) := by
  unfold State.noRoute
  with_reducible repeat' first
    | assumption | apply State.bump_keeps | apply State.raise_keeps | dsimp only | split

theorem State.putMsg_keeps {s₀ s : State} {m : Msg} (hK : Keeps s₀ s) : Keeps s₀ (State.putMsg s m) := by
  unfold State.putMsg
  with_reducible repeat' first
    | assumption | apply State.trySend_keeps | apply State.noRoute_keeps | dsimp only | split

end Sys2Proof.Machine
end

