-- ==== Sys2Proof/Laws/KeepCommands.lean ====
section
/-! SUPPORT. The operations of Machine/Commands.lean keep what every operation keeps. -/

namespace Sys2Proof.Machine

theorem State.take_keeps {s₀ s : State} {p r n : Nat} {k : Class} (hK : Keeps s₀ s) : Keeps s₀ (State.take s p r n k) := by
  unfold State.take
  with_reducible repeat' first
    | assumption | apply State.modCapo_keeps | apply State.bump_keeps | dsimp only | split

theorem State.charge_keeps {s₀ s t : State} {p r n : Nat} (e : s.charge p r n = some t) (h : Keeps s₀ s) : Keeps s₀ t := by
  unfold State.charge at e
  repeat' split at e
  all_goals first
    | (cases e; exact h)
    | (cases e; exact State.take_keeps h)
    | cases e

theorem State.chargeFree_keeps {s₀ s : State} {p r n : Nat} (hK : Keeps s₀ s) : Keeps s₀ (State.chargeFree s p r n) := by
  unfold State.chargeFree
  with_reducible repeat' first
    | assumption | apply State.take_keeps | dsimp only | split

theorem State.noteHeld_keeps {s₀ s : State} {p r : Nat} (hK : Keeps s₀ s) : Keeps s₀ (State.noteHeld s p r) := by
  unfold State.noteHeld
  with_reducible repeat' first
    | assumption | apply State.modCapo_keeps | apply State.bump_keeps | dsimp only | split

theorem State.sendMsg_keeps {s₀ s : State} {m : Msg} (hK : Keeps s₀ s) : Keeps s₀ (State.sendMsg s m) := by
  unfold State.sendMsg
  with_reducible repeat' first
    | assumption | apply State.putMsg_keeps | (refine State.charge_keeps (by assumption) ?_) | apply State.noteHeld_keeps | dsimp only | split | refine Keeps.upd ?_ ?_ ?_ ?_ ?_ ?_ | exact fun e => e | exact OtpOnlyAdds.refl _ | exact Nat.le_refl _

theorem State.hostRead_keeps {s₀ s : State} {c : Cmd} {key a n : Nat} (hK : Keeps s₀ s) : Keeps s₀ (State.hostRead s c key a n) := by
  unfold State.hostRead
  with_reducible repeat' first
    | assumption | apply State.emit_keeps | dsimp only | split

theorem State.sealChunk_keeps {s₀ s : State} {c : Cmd} {f o : Nat} {d : List Byte} (hK : Keeps s₀ s) : Keeps s₀ (State.sealChunk s c f o d) := by
  unfold State.sealChunk
  with_reducible repeat' first
    | assumption | apply State.hbmWrite_keeps | dsimp only | split | refine Keeps.upd ?_ ?_ ?_ ?_ ?_ ?_ | exact fun e => e | exact OtpOnlyAdds.upd | exact Nat.le_refl _

theorem State.writeBuf_keeps {s₀ s : State} {c : Cmd} {a : Nat} {d : List Byte} (hK : Keeps s₀ s) : Keeps s₀ (State.writeBuf s c a d) := by
  unfold State.writeBuf
  with_reducible repeat' first
    | assumption | apply State.emit_keeps | apply State.devWrite_keeps | apply State.sealChunk_keeps | (refine Keeps.foldl (fun h => ?_) _ ?_) | dsimp only | split

theorem State.forget_keeps {s₀ s : State} {c : Cmd} (hK : Keeps s₀ s) : Keeps s₀ (State.forget s c) := by
  unfold State.forget
  with_reducible repeat' first
    | assumption | dsimp only | split | refine Keeps.upd ?_ ?_ ?_ ?_ ?_ ?_ | exact fun e => e | exact OtpOnlyAdds.refl _ | exact Nat.le_refl _

theorem State.discard_keeps {s₀ s : State} {c : Cmd} (hK : Keeps s₀ s) : Keeps s₀ (State.discard s c) := by
  unfold State.discard
  with_reducible repeat' first
    | assumption | apply State.modCmd_keeps | apply State.bump_keeps | apply State.forget_keeps | dsimp only | split

theorem State.answer_keeps {s₀ s : State} {c : Cmd} {st sub result edition counter : Nat} {out : List Byte} (hK : Keeps s₀ s) : Keeps s₀ (State.answer s c st sub result edition counter out) := by
  unfold State.answer
  with_reducible repeat' first
    | assumption | apply State.dropCmd_keeps | apply State.putRec_keeps | apply State.putMsg_keeps | apply State.sendMsg_keeps | apply State.forget_keeps | dsimp only | split

theorem State.refuseCmd_keeps {s₀ s : State} {c : Cmd} {st sub counter : Nat} (hK : Keeps s₀ s) : Keeps s₀ (State.refuseCmd s c st sub counter) := by
  unfold State.refuseCmd
  with_reducible repeat' first
    | assumption | apply State.bump_keeps | apply State.answer_keeps | dsimp only | split | refine Keeps.upd ?_ ?_ ?_ ?_ ?_ ?_ | exact fun e => e | exact OtpOnlyAdds.refl _ | exact Nat.le_refl _

theorem State.pfInsert_keeps {s₀ s : State} {p : Nat} {rows : List PfRow} (hK : Keeps s₀ s) : Keeps s₀ (State.pfInsert s p rows) := by
  unfold State.pfInsert
  with_reducible repeat' first
    | assumption | apply State.modPart_keeps | apply State.bumps_keeps | (refine Keeps.foldl (fun h => ?_) _ ?_) | dsimp only | split | refine Keeps.upd ?_ ?_ ?_ ?_ ?_ ?_ | exact fun e => e | exact OtpOnlyAdds.refl _ | exact Nat.le_refl _

theorem State.finish_keeps {s₀ s : State} {c : Cmd} {f : Finish} (hK : Keeps s₀ s) : Keeps s₀ (State.finish s c f) := by
  unfold State.finish
  with_reducible repeat' first
    | assumption | apply State.modPart_keeps | apply State.bumps_keeps | apply State.devWrite_keeps | apply State.reportErr_keeps | apply State.writeBuf_keeps | apply State.answer_keeps | apply State.pfInsert_keeps | (refine Keeps.foldl (fun h => ?_) _ ?_) | dsimp only | split

theorem State.scrubDies_keeps {s₀ s : State} {l : List Nat} (hK : Keeps s₀ s) : Keeps s₀ (State.scrubDies s l) := by
  unfold State.scrubDies
  with_reducible repeat' first
    | assumption | dsimp only | split | refine Keeps.upd ?_ ?_ ?_ ?_ ?_ ?_ | exact fun e => e | exact OtpOnlyAdds.refl _ | exact OtpOnlyAdds.upd | exact Nat.le_refl _ | exact Nat.le_add_right _ _

theorem State.scrubSlice_keeps {s₀ s : State} {p : Nat} (hK : Keeps s₀ s) : Keeps s₀ (State.scrubSlice s p) := by
  unfold State.scrubSlice
  with_reducible repeat' first
    | assumption | dsimp only | split | refine Keeps.upd ?_ ?_ ?_ ?_ ?_ ?_ | exact fun e => e | exact OtpOnlyAdds.refl _ | exact Nat.le_refl _

theorem State.collDrop_keeps {s₀ s : State} {id sub : Nat} (hK : Keeps s₀ s) : Keeps s₀ (State.collDrop s id sub) := by
  unfold State.collDrop
  with_reducible repeat' first
    | assumption | apply State.putMsg_keeps | (refine Keeps.foldl (fun h => ?_) _ ?_) | dsimp only | split | refine Keeps.upd ?_ ?_ ?_ ?_ ?_ ?_ | exact fun e => e | exact OtpOnlyAdds.refl _ | exact Nat.le_refl _

theorem State.endCmd_keeps {s₀ s : State} {c : Cmd} {st sub : Nat} (hK : Keeps s₀ s) : Keeps s₀ (State.endCmd s c st sub) := by
  unfold State.endCmd
  with_reducible repeat' first
    | assumption | apply State.discard_keeps | apply State.answer_keeps | apply State.collDrop_keeps | dsimp only | split

theorem State.dropPf_keeps {s₀ s : State} {p ctx : Nat} (hK : Keeps s₀ s) : Keeps s₀ (State.dropPf s p ctx) := by
  unfold State.dropPf
  with_reducible repeat' first
    | assumption | apply State.modPart_keeps | dsimp only | split

theorem State.faultCtx_rest_keeps {s₀ s : State} {c : Cmd} (h : Keeps s₀ s) : Keeps s₀ (State.faultCtx.rest s c) := by
  unfold State.faultCtx.rest
  with_reducible repeat' first
    | assumption | apply State.endCmd_keeps | apply State.refuseCmd_keeps | apply State.discard_keeps | split

theorem State.faultCtx_keeps {s₀ s : State} {ctx cause : Nat} {met : Option (Nat × Nat × Nat)} (h : Keeps s₀ s) : Keeps s₀ (State.faultCtx s ctx cause met) := by
  unfold State.faultCtx
  with_reducible repeat' first
    | assumption | apply State.modPart_keeps | apply State.modCtx_keeps | apply State.bump_keeps | apply State.logEvent_keeps | apply State.raiseAt_keeps
    | apply State.scrubSlice_keeps | apply State.endCmd_keeps | apply State.faultCtx_rest_keeps | apply State.dropPf_keeps
    | (refine Keeps.foldl (fun h => ?_) _ ?_) | dsimp only | split

theorem State.failCmd_keeps {s₀ s : State} {c : Cmd} {st sub counter : Nat} {errs bumps : List (Nat × Nat)} (hK : Keeps s₀ s) : Keeps s₀ (State.failCmd s c st sub counter errs bumps) := by
  unfold State.failCmd
  with_reducible repeat' first
    | assumption | apply State.bump_keeps | apply State.bumps_keeps | apply State.reportErr_keeps | apply State.discard_keeps | apply State.answer_keeps | apply State.collDrop_keeps | apply State.faultCtx_keeps | (refine Keeps.foldl (fun h => ?_) _ ?_) | dsimp only | split

end Sys2Proof.Machine
end

