-- ==== Sys2Proof/Laws/KeepFrets.lean ====
section
/-! SUPPORT. The operations of Machine/Frets.lean keep what every operation keeps. -/

namespace Sys2Proof.Machine

theorem State.setFret_keeps {s₀ s : State} {f : Nat} {x : Fret} (hK : Keeps s₀ s) : Keeps s₀ (State.setFret s f x) := by
  unfold State.setFret
  with_reducible repeat' first
    | assumption | dsimp only | split | refine Keeps.upd ?_ ?_ ?_ ?_ ?_ ?_ | exact fun e => e | exact OtpOnlyAdds.refl _ | exact Nat.le_refl _

theorem State.failHost_keeps {s₀ s : State} {ctx st sub : Nat} (hK : Keeps s₀ s) : Keeps s₀ (State.failHost s ctx st sub) := by
  unfold State.failHost
  with_reducible repeat' first
    | assumption | apply State.failCmd_keeps | dsimp only | split

theorem State.refuseFrame_keeps {s₀ s : State} {f : Frame} (hK : Keeps s₀ s) : Keeps s₀ (State.refuseFrame s f) := by
  unfold State.refuseFrame
  with_reducible repeat' first
    | assumption | apply State.fretFault_keeps | apply State.failHost_keeps | (refine Keeps.foldl (fun h => ?_) _ ?_) | dsimp only | split

theorem State.refuseTag_keeps {s₀ s : State} {f : Frame} {bad : List Nat} (hK : Keeps s₀ s) : Keeps s₀ (State.refuseTag s f bad) := by
  unfold State.refuseTag
  with_reducible repeat' first
    | assumption | apply State.raiseAt_keeps | apply State.elogAt_keeps | apply State.faultCtx_keeps | (refine Keeps.foldl (fun h => ?_) _ ?_) | dsimp only | split

theorem State.stall_keeps {s₀ s : State} {i : Instr} (hK : Keeps s₀ s) : Keeps s₀ (State.stall s i) := by
  unfold State.stall
  with_reducible repeat' first
    | assumption | dsimp only | split | refine Keeps.upd ?_ ?_ ?_ ?_ ?_ ?_ | exact fun e => e | exact OtpOnlyAdds.refl _ | exact OtpOnlyAdds.upd | exact Nat.le_refl _ | exact Nat.le_add_right _ _

theorem State.frame_keeps {s₀ s : State} {i : Instr} {f : Frame} {op : Nat} {tags : TagRule} {n : Nat} {ok : Bool} {go : Frame → State → State}
    (hgo : ∀ {a b : State} {g : Frame}, Keeps a b → Keeps a (go g b)) (hK : Keeps s₀ s) : KeepsA s₀ (State.frame s i f op tags n ok go) := by
  unfold State.frame
  split
  · exact KeepsA.next hK
  · split
    · exact KeepsA.next (State.stall_keeps hK)
    · split
      · exact KeepsA.next (State.refuseFrame_keeps hK)
      · dsimp only
        split
        · exact KeepsA.next (hgo hK)
        · apply KeepsA.next
          apply State.refuseTag_keeps
          split
          · exact hK
          · exact hgo hK

theorem State.qload_keeps {s₀ s : State} {f : Frame} (hK : Keeps s₀ s) : Keeps s₀ (State.qload s f) := by
  unfold State.qload
  with_reducible repeat' first
    | assumption | apply State.setFret_keeps | (refine Keeps.foldl (fun h => ?_) _ ?_) | dsimp only | split

theorem qloadGo_keeps {s₀ s : State} {f : Frame} (hK : Keeps s₀ s) : KeepsA s₀ (qloadGo f s) := by
  unfold qloadGo
  with_reducible repeat' first
    | assumption | (refine State.frame_keeps (fun h => ?_) ?_) | apply State.qload_keeps | apply KeepsA.next | dsimp only | split

theorem qscrubGo_keeps {s₀ s : State} {f : Frame} (hK : Keeps s₀ s) : KeepsA s₀ (qscrubGo f s) := by
  unfold qscrubGo
  with_reducible repeat' first
    | assumption | apply State.setFret_keeps | (refine State.frame_keeps (fun h => ?_) ?_) | (refine Keeps.foldl (fun h => ?_) _ ?_) | apply KeepsA.next | dsimp only | split | refine Keeps.upd ?_ ?_ ?_ ?_ ?_ ?_ | exact fun e => e | exact OtpOnlyAdds.refl _ | exact OtpOnlyAdds.upd | exact Nat.le_refl _ | exact Nat.le_add_right _ _

theorem State.meetFlaw_keeps {s₀ s : State} {rows : List (Nat × Nat)} {x : Flaw} (hK : Keeps s₀ s) : Keeps s₀ (State.meetFlaw s rows x) := by
  unfold State.meetFlaw
  with_reducible repeat' first
    | assumption | apply State.correct_keeps | apply State.uncorrect_keeps | apply State.fretFault_keeps | dsimp only | split

theorem State.meetFlaws_keeps {s₀ s : State} {f : Frame} {ns : List Nat} {flaws : List Flaw} (hK : Keeps s₀ s) : Keeps s₀ (State.meetFlaws s f ns flaws) := by
  unfold State.meetFlaws
  with_reducible repeat' first
    | assumption | apply State.meetFlaw_keeps | (refine Keeps.foldl (fun h => ?_) _ ?_) | dsimp only | split

theorem State.afterRows_keeps {s₀ s : State} {f : Frame} {flaws : List Flaw} {lost : Bool} (hK : Keeps s₀ s) : Keeps s₀ (State.afterRows s f flaws lost) := by
  unfold State.afterRows
  with_reducible repeat' first
    | assumption | apply State.bump_keeps | apply State.failHost_keeps | dsimp only | split

theorem strumGo_keeps {s₀ s : State} {f : Frame} {flaws : List Flaw} (hK : Keeps s₀ s) : KeepsA s₀ (strumGo f flaws s) := by
  unfold strumGo
  with_reducible repeat' first
    | assumption | apply State.bumps_keeps | apply State.setFret_keeps | (refine State.frame_keeps (fun h => ?_) ?_) | apply State.meetFlaws_keeps | apply State.afterRows_keeps | (refine Keeps.foldl (fun h => ?_) _ ?_) | (refine Keeps.foldl_fst (fun h => ?_) _ ?_) | (refine Keeps.foldl_snd (fun h => ?_) _ ?_) | apply KeepsA.next | dsimp only | split | refine Keeps.upd ?_ ?_ ?_ ?_ ?_ ?_ | exact fun e => e | exact OtpOnlyAdds.refl _ | exact OtpOnlyAdds.upd | exact Nat.le_refl _ | exact Nat.le_add_right _ _

theorem pluckGo_keeps {s₀ s : State} {f : Frame} {flaws : List Flaw} (hK : Keeps s₀ s) : KeepsA s₀ (pluckGo f flaws s) := by
  unfold pluckGo
  with_reducible repeat' first
    | assumption | apply State.bumps_keeps | (refine State.frame_keeps (fun h => ?_) ?_) | apply State.meetFlaws_keeps | apply State.afterRows_keeps | apply KeepsA.next | dsimp only | split | refine Keeps.upd ?_ ?_ ?_ ?_ ?_ ?_ | exact fun e => e | exact OtpOnlyAdds.refl _ | exact OtpOnlyAdds.upd | exact Nat.le_refl _ | exact Nat.le_add_right _ _

theorem State.eachVec_keeps {s₀ s : State} {f : Frame} {g : VecSt → Nat → VecSt} (hK : Keeps s₀ s) : Keeps s₀ (State.eachVec s f g) := by
  unfold State.eachVec
  with_reducible repeat' first
    | assumption | apply State.setFret_keeps | (refine Keeps.foldl (fun h => ?_) _ ?_) | (refine Keeps.foldl_fst (fun h => ?_) _ ?_) | (refine Keeps.foldl_snd (fun h => ?_) _ ?_) | dsimp only | split

theorem histGo_keeps {s₀ s : State} {f : Frame} (hK : Keeps s₀ s) : KeepsA s₀ (histGo f s) := by
  unfold histGo
  with_reducible repeat' first
    | assumption | (refine State.frame_keeps (fun h => ?_) ?_) | apply State.eachVec_keeps | apply KeepsA.next | dsimp only | split

theorem listGo_keeps {s₀ s : State} {f : Frame} (hK : Keeps s₀ s) : KeepsA s₀ (listGo f s) := by
  unfold listGo
  with_reducible repeat' first
    | assumption | apply State.emit_keeps | (refine State.frame_keeps (fun h => ?_) ?_) | apply State.eachVec_keeps | apply KeepsA.next | dsimp only | split | refine Keeps.upd ?_ ?_ ?_ ?_ ?_ ?_ | exact fun e => e | exact OtpOnlyAdds.refl _ | exact OtpOnlyAdds.upd | exact Nat.le_refl _ | exact Nat.le_add_right _ _

theorem expsumGo_keeps {s₀ s : State} {f : Frame} (hK : Keeps s₀ s) : KeepsA s₀ (expsumGo f s) := by
  unfold expsumGo
  with_reducible repeat' first
    | assumption | (refine State.frame_keeps (fun h => ?_) ?_) | apply State.eachVec_keeps | apply KeepsA.next | dsimp only | split | refine Keeps.upd ?_ ?_ ?_ ?_ ?_ ?_ | exact fun e => e | exact OtpOnlyAdds.refl _ | exact OtpOnlyAdds.upd | exact Nat.le_refl _ | exact Nat.le_add_right _ _

theorem vaccGo_keeps {s₀ s : State} {f : Frame} {flaws : List Flaw} (hK : Keeps s₀ s) : KeepsA s₀ (vaccGo f flaws s) := by
  unfold vaccGo
  with_reducible repeat' first
    | assumption | apply State.bump_keeps | apply State.setFret_keeps | (refine State.frame_keeps (fun h => ?_) ?_) | apply State.meetFlaw_keeps | apply State.afterRows_keeps | (refine Keeps.foldl (fun h => ?_) _ ?_) | (refine Keeps.foldl_fst (fun h => ?_) _ ?_) | (refine Keeps.foldl_snd (fun h => ?_) _ ?_) | apply KeepsA.next | dsimp only | split

theorem stringGo_keeps {s₀ s : State} {f : Frame} (hK : Keeps s₀ s) : KeepsA s₀ (stringGo f s) := by
  unfold stringGo
  with_reducible repeat' first
    | assumption | (refine State.frame_keeps (fun h => ?_) ?_) | apply KeepsA.next | dsimp only | split | refine Keeps.upd ?_ ?_ ?_ ?_ ?_ ?_ | exact fun e => e | exact OtpOnlyAdds.refl _ | exact OtpOnlyAdds.upd | exact Nat.le_refl _ | exact Nat.le_add_right _ _

theorem stageWriteGo_keeps {s₀ s : State} {f : Frame} {flaws : List Flaw} (hK : Keeps s₀ s) : KeepsA s₀ (stageWriteGo f flaws s) := by
  unfold stageWriteGo
  with_reducible repeat' first
    | assumption | apply State.hbmWrite_keeps | (refine State.frame_keeps (fun h => ?_) ?_) | apply State.meetFlaw_keeps | apply State.afterRows_keeps | (refine Keeps.foldl (fun h => ?_) _ ?_) | apply KeepsA.next | dsimp only | split

theorem State.verifyCols_keeps {s₀ s : State} {x col n : Nat} {flaws : List Flaw} (hK : Keeps s₀ s) : Keeps s₀ (State.verifyCols s x col n flaws).1 := by
  unfold State.verifyCols
  with_reducible repeat' first
    | assumption | apply State.disarm_keeps | apply State.verifyMiss_keeps | apply State.meetFlaw_keeps | (refine Keeps.foldl (fun h => ?_) _ ?_) | dsimp only | split

theorem commitRowGo_keeps {s₀ s : State} {f : Frame} {flaws : List Flaw} (hK : Keeps s₀ s) : KeepsA s₀ (commitRowGo f flaws s) := by
  unfold commitRowGo
  with_reducible repeat' first
    | assumption | apply State.publishRow_keeps | apply State.failHost_keeps | (refine State.frame_keeps (fun h => ?_) ?_) | apply State.meetFlaw_keeps | apply State.verifyCols_keeps | (refine Keeps.foldl (fun h => ?_) _ ?_) | (refine Keeps.foldl_fst (fun h => ?_) _ ?_) | dsimp only | split

end Sys2Proof.Machine
end

