-- ==== Sys2Proof/Laws/KeepStage.lean ====
section
/-! SUPPORT. The operations of Machine/Stage.lean keep what every operation keeps. -/

namespace Sys2Proof.Machine

theorem State.setRegion_keeps {s₀ s : State} {r : Region} (hK : Keeps s₀ s) : Keeps s₀ (State.setRegion s r) := by
  unfold State.setRegion
  with_reducible repeat' first
    | assumption | dsimp only | split | refine Keeps.upd ?_ ?_ ?_ ?_ ?_ ?_ | exact fun e => e | exact OtpOnlyAdds.refl _ | exact Nat.le_refl _

theorem State.setShard_keeps {s₀ s : State} {r : Shard} (hK : Keeps s₀ s) : Keeps s₀ (State.setShard s r) := by
  unfold State.setShard
  with_reducible repeat' first
    | assumption | dsimp only | split | refine Keeps.upd ?_ ?_ ?_ ?_ ?_ ?_ | exact fun e => e | exact OtpOnlyAdds.refl _ | exact Nat.le_refl _

theorem State.setFloor_keeps {s₀ s : State} {t : Target} {e : Nat} (hK : Keeps s₀ s) : Keeps s₀ (State.setFloor s t e) := by
  unfold State.setFloor
  with_reducible repeat' first
    | assumption | dsimp only | split | refine Keeps.upd ?_ ?_ ?_ ?_ ?_ ?_ | exact fun e => e | exact OtpOnlyAdds.refl _ | exact Nat.le_refl _

theorem State.commitRegion_keeps {s₀ s : State} {part ctx e : Nat} {g : Stage} (hK : Keeps s₀ s) : Keeps s₀ (State.commitRegion s part ctx e g) := by
  unfold State.commitRegion
  with_reducible repeat' first
    | assumption | apply State.dropPf_keeps | apply State.setRegion_keeps | dsimp only | split | refine Keeps.upd ?_ ?_ ?_ ?_ ?_ ?_ | exact fun e => e | exact OtpOnlyAdds.refl _ | exact Nat.le_refl _

theorem State.commitShard_keeps {s₀ s : State} {part num e : Nat} {g : Stage} (hK : Keeps s₀ s) : Keeps s₀ (State.commitShard s part num e g) := by
  unfold State.commitShard
  with_reducible repeat' first
    | assumption | apply State.setShard_keeps | dsimp only | split | refine Keeps.upd ?_ ?_ ?_ ?_ ?_ ?_ | exact fun e => e | exact OtpOnlyAdds.refl _ | exact Nat.le_refl _

theorem State.markBlocks_keeps {s₀ s : State} {t : Target} {e : Nat} {bs : List Nat} (hK : Keeps s₀ s) : Keeps s₀ (State.markBlocks s t e bs) := by
  unfold State.markBlocks
  with_reducible repeat' first
    | assumption | dsimp only | split | refine Keeps.upd ?_ ?_ ?_ ?_ ?_ ?_ | exact fun e => e | exact OtpOnlyAdds.refl _ | exact Nat.le_refl _

theorem State.moveCounts_keeps {s₀ s : State} {l : List (Nat × Nat × Bool)} (hK : Keeps s₀ s) : Keeps s₀ (State.moveCounts s l) := by
  unfold State.moveCounts
  with_reducible repeat' first
    | assumption | apply State.devWrite_keeps | (refine Keeps.foldl (fun h => ?_) _ ?_) | (refine Keeps.foldl_fst (fun h => ?_) _ ?_) | (refine Keeps.foldl_snd (fun h => ?_) _ ?_) | dsimp only | split

theorem State.commitStage_keeps {s₀ s : State} {c : Cmd} {g : Stage} (hK : Keeps s₀ s) : Keeps s₀ (State.commitStage s c g).1 := by
  unfold State.commitStage
  with_reducible repeat' first
    | assumption | apply State.bump_keeps | apply State.hbmWrite_keeps | apply State.devWrite_keeps | apply State.publishRow_keeps | apply State.commitRegion_keeps | apply State.commitShard_keeps | apply State.markBlocks_keeps | apply State.moveCounts_keeps | (refine Keeps.foldl (fun h => ?_) _ ?_) | (refine Keeps.foldl_fst (fun h => ?_) _ ?_) | (refine Keeps.foldl_snd (fun h => ?_) _ ?_) | dsimp only | split | refine Keeps.upd ?_ ?_ ?_ ?_ ?_ ?_ | exact fun e => e | exact OtpOnlyAdds.refl _ | exact OtpOnlyAdds.upd | exact Nat.le_refl _ | exact Nat.le_add_right _ _

theorem State.yieldFloor_keeps {s₀ s : State} {f : Nat} (hK : Keeps s₀ s) : Keeps s₀ (State.yieldFloor s f) := by
  unfold State.yieldFloor
  with_reducible repeat' first
    | assumption | apply State.bump_keeps | apply State.setFloor_keeps | dsimp only | split

theorem State.yieldAll_keeps {s₀ s : State} (hK : Keeps s₀ s) : Keeps s₀ (State.yieldAll s) := by
  unfold State.yieldAll
  with_reducible repeat' first
    | assumption | apply State.yieldFloor_keeps | (refine Keeps.foldl (fun h => ?_) _ ?_) | dsimp only | split | refine Keeps.upd ?_ ?_ ?_ ?_ ?_ ?_ | exact fun e => e | exact OtpOnlyAdds.refl _ | exact OtpOnlyAdds.upd | exact Nat.le_refl _ | exact Nat.le_add_right _ _

end Sys2Proof.Machine
end

