-- ==== Sys2Proof/Laws/KeepScatter.lean ====
section
/-! SUPPORT. The operations of Machine/Scatter.lean keep what every operation keeps. -/

namespace Sys2Proof.Machine

theorem State.withStage_keeps {s₀ s : State} {c : Cmd} {g : Stage} (hK : Keeps s₀ s) : Keeps s₀ (State.withStage s c g) := by
  unfold State.withStage
  with_reducible repeat' first
    | assumption | apply State.modCmd_keeps | dsimp only | split | refine Keeps.upd ?_ ?_ ?_ ?_ ?_ ?_ | exact fun e => e | exact OtpOnlyAdds.refl _ | exact OtpOnlyAdds.upd | exact Nat.le_refl _ | exact Nat.le_add_right _ _

end Sys2Proof.Machine
end

