-- ==== Sys2Proof/Laws/KeepFlash.lean ====
section
/-! SUPPORT. The operations of Machine/Flash.lean keep what every operation keeps. -/

namespace Sys2Proof.Machine

theorem State.modDie_keeps {s₀ s : State} {d : Nat} {f : DieSt → DieSt} (hK : Keeps s₀ s) : Keeps s₀ (State.modDie s d f) := by
  unfold State.modDie
  with_reducible repeat' first
    | assumption | dsimp only | split | refine Keeps.upd ?_ ?_ ?_ ?_ ?_ ?_ | exact fun e => e | exact OtpOnlyAdds.refl _ | exact Nat.le_refl _

theorem State.setStream_keeps {s₀ s : State} {p st : Nat} {x : Stream} (hK : Keeps s₀ s) : Keeps s₀ (State.setStream s p st x) := by
  unfold State.setStream
  with_reducible repeat' first
    | assumption | dsimp only | split | refine Keeps.upd ?_ ?_ ?_ ?_ ?_ ?_ | exact fun e => e | exact OtpOnlyAdds.refl _ | exact Nat.le_refl _

theorem State.setSuper_keeps {s₀ s : State} {p i : Nat} {x : Super} (hK : Keeps s₀ s) : Keeps s₀ (State.setSuper s p i x) := by
  unfold State.setSuper
  with_reducible repeat' first
    | assumption | dsimp only | split | refine Keeps.upd ?_ ?_ ?_ ?_ ?_ ?_ | exact fun e => e | exact OtpOnlyAdds.refl _ | exact Nat.le_refl _

theorem State.openSuper_keeps {s₀ s t : State} {p st : Nat} (e : s.openSuper p st = some t) (h : Keeps s₀ s) : Keeps s₀ t := by
  unfold State.openSuper at e
  split at e
  · cases e
  · cases e; exact State.setStream_keeps (State.setSuper_keeps h)

theorem State.nextPage_keeps {p st : Nat} (n : Nat) : ∀ {s₀ s t : State} {a : Nat}, s.nextPage p st n = some (a, t) → Keeps s₀ s → Keeps s₀ t := by
  induction n with
  | zero => intro s₀ s t a e h; simp [State.nextPage] at e
  | succ n ih =>
    intro s₀ s t a e h
    unfold State.nextPage at e
    dsimp only at e
    split at e
    · obtain ⟨u, hu, e⟩ := Option.bind_eq_some_iff.1 e
      exact ih e (State.openSuper_keeps hu h)
    · split at e
      · exact ih e (State.setStream_keeps (State.setSuper_keeps h))
      · split at e
        · cases e; exact State.setStream_keeps h
        · exact ih e (State.setSuper_keeps h)

theorem State.placePage_keeps {s₀ s t : State} {p st g a : Nat} {k d : List Byte} (e : s.placePage p st g k d = some (a, t)) (h : Keeps s₀ s) : Keeps s₀ t := by
  unfold State.placePage at e
  obtain ⟨x, hx, e⟩ := Option.map_eq_some_iff.1 e
  cases e
  exact Keeps.upd (State.nextPage_keeps _ hx h) (fun e => e) (.refl _) (Nat.le_refl _) (Nat.le_refl _) (Nat.le_refl _)

theorem State.setMap_keeps {s₀ s : State} {tag g : Nat} {editioned : Bool} {m : MapEnt} (hK : Keeps s₀ s) : Keeps s₀ (State.setMap s tag g editioned m) := by
  unfold State.setMap
  with_reducible repeat' first
    | assumption | dsimp only | split | refine Keeps.upd ?_ ?_ ?_ ?_ ?_ ?_ | exact fun e => e | exact OtpOnlyAdds.refl _ | exact Nat.le_refl _

theorem State.freeHist_keeps {s₀ s : State} {p : Nat} (hK : Keeps s₀ s) : Keeps s₀ (State.freeHist s p) := by
  unfold State.freeHist
  with_reducible repeat' first
    | assumption | dsimp only | split | refine Keeps.upd ?_ ?_ ?_ ?_ ?_ ?_ | exact fun e => e | exact OtpOnlyAdds.refl _ | exact Nat.le_refl _

theorem State.yieldHist_keeps {s₀ s : State} (hK : Keeps s₀ s) : Keeps s₀ (State.yieldHist s) := by
  unfold State.yieldHist
  with_reducible repeat' first
    | assumption | apply State.bump_keeps | apply State.setFloor_keeps | apply State.freeHist_keeps | dsimp only | split | refine Keeps.upd ?_ ?_ ?_ ?_ ?_ ?_ | exact fun e => e | exact OtpOnlyAdds.refl _ | exact OtpOnlyAdds.upd | exact Nat.le_refl _ | exact Nat.le_add_right _ _

theorem State.countReads_keeps {s₀ s : State} {n : Nat} {pages : List Nat} (hK : Keeps s₀ s) : Keeps s₀ (State.countReads s n pages) := by
  unfold State.countReads
  with_reducible repeat' first
    | assumption | apply State.bump_keeps | (refine Keeps.foldl (fun h => ?_) _ ?_) | dsimp only | split

theorem State.writePage_keeps {s₀ s t : State} {c : Cmd} {p g : Nat} {ed : Bool} {l : List FlashPut} (e : s.writePage c p g ed l = .ok t) (h : Keeps s₀ s) :
    Keeps s₀ t := by
  unfold State.writePage at e
  extract_lets at e
  split at e
  · cases e
  · split at e
    · cases e
    · split at e
      · cases e
      · rename_i a u hu
        have k : Keeps s₀ u := State.placePage_keeps hu h
        cases e
        with_reducible repeat' first
          | assumption | apply State.setMap_keeps | apply State.yieldHist_keeps | apply State.countReads_keeps | apply State.chargeFree_keeps | apply State.bump_keeps | split

theorem State.writePages_fold_keeps {c : Cmd} {p : Nat} {ed : Bool} (l : List (Nat × List FlashPut)) : ∀ {s₀ s t : State},
    l.foldlM (fun s x => State.writePage s c p x.1 ed x.2) s = .ok t → Keeps s₀ s → Keeps s₀ t := by
  induction l with
  | nil => intro s₀ s t e h; simp only [List.foldlM] at e; cases e; exact h
  | cons x r ih =>
    intro s₀ s t e h
    simp only [List.foldlM] at e
    cases hx : State.writePage s c p x.1 ed x.2 with
    | error z => rw [hx] at e; cases e
    | ok u => rw [hx] at e; exact ih e (State.writePage_keeps hx h)

theorem State.writePages_keeps {s₀ s t : State} {c : Cmd} {p : Nat} {ed : Bool} {l : List FlashPut} (e : s.writePages c p ed l = .ok t) (h : Keeps s₀ s) :
    Keeps s₀ t := by
  unfold State.writePages at e
  extract_lets at e
  split at e
  · cases e
  · exact State.writePages_fold_keeps _ e h

theorem State.trimUnit_keeps {s₀ s : State} {p lua tag : Nat} {editioned : Bool} (hK : Keeps s₀ s) : Keeps s₀ (State.trimUnit s p lua tag editioned) := by
  unfold State.trimUnit
  with_reducible repeat' first
    | assumption | apply State.setMap_keeps | dsimp only | split

theorem State.trimRange_keeps {s₀ s : State} {c : Cmd} (hK : Keeps s₀ s) : Keeps s₀ (State.trimRange s c).1 := by
  unfold State.trimRange
  with_reducible repeat' first
    | assumption | apply State.trimUnit_keeps | (refine Keeps.foldl_fst (fun h => ?_) _ ?_) | dsimp only | split

end Sys2Proof.Machine
end

