-- ==== Sys2Proof/Laws/KeepDies.lean ====
section
/-! SUPPORT. The operations of Machine/Dies.lean keep what every operation keeps. -/

namespace Sys2Proof.Machine

theorem State.setRun_keeps {s₀ s : State} {d : Nat} {r : DieRun} (hK : Keeps s₀ s) : Keeps s₀ (State.setRun s d r) := by
  unfold State.setRun
  with_reducible repeat' first
    | assumption | dsimp only | split | refine Keeps.upd ?_ ?_ ?_ ?_ ?_ ?_ | exact fun e => e | exact OtpOnlyAdds.refl _ | exact OtpOnlyAdds.upd | exact Nat.le_refl _ | exact Nat.le_add_right _ _

theorem State.startRow_keeps {s₀ s : State} {p st : Nat} (hK : Keeps s₀ s) : Keeps s₀ (State.startRow s p st) := by
  unfold State.startRow
  with_reducible repeat' first
    | assumption | apply State.setStream_keeps | apply State.setSuper_keeps | dsimp only | split | refine Keeps.upd ?_ ?_ ?_ ?_ ?_ ?_ | exact fun e => e | exact OtpOnlyAdds.refl _ | exact OtpOnlyAdds.upd | exact Nat.le_refl _ | exact Nat.le_add_right _ _

theorem State.issue_keeps {s₀ s : State} {d : Nat} {o : DieOp} (hK : Keeps s₀ s) : Keeps s₀ (State.issue s d o) := by
  unfold State.issue
  with_reducible repeat' first
    | assumption | apply State.setRun_keeps | apply State.startRow_keeps | dsimp only | split | refine Keeps.upd ?_ ?_ ?_ ?_ ?_ ?_ | exact fun e => e | exact OtpOnlyAdds.refl _ | exact OtpOnlyAdds.upd | exact Nat.le_refl _ | exact Nat.le_add_right _ _

theorem State.pumpDie_keeps {s₀ s : State} {asked : List (Nat × DieOp)} {d : Nat} (hK : Keeps s₀ s) : Keeps s₀ (State.pumpDie asked s d) := by
  unfold State.pumpDie
  with_reducible repeat' first
    | assumption | apply State.bump_keeps | apply State.setRun_keeps | apply State.issue_keeps | dsimp only | split | refine Keeps.upd ?_ ?_ ?_ ?_ ?_ ?_ | exact fun e => e | exact OtpOnlyAdds.refl _ | exact OtpOnlyAdds.upd | exact Nat.le_refl _ | exact Nat.le_add_right _ _

theorem State.pumpDies_keeps {s₀ s : State} (hK : Keeps s₀ s) : Keeps s₀ (State.pumpDies s) := by
  unfold State.pumpDies
  with_reducible repeat' first
    | assumption | apply State.pumpDie_keeps | (refine Keeps.foldl (fun h => ?_) _ ?_) | (refine Keeps.foldl_fst (fun h => ?_) _ ?_) | (refine Keeps.foldl_snd (fun h => ?_) _ ?_) | dsimp only | split

theorem State.endOps_keeps {s₀ s : State} {p : DieOp → Bool} (hK : Keeps s₀ s) : Keeps s₀ (State.endOps s p) := by
  unfold State.endOps
  with_reducible repeat' first
    | assumption | apply State.setRun_keeps | (refine Keeps.foldl (fun h => ?_) _ ?_) | (refine Keeps.foldl_fst (fun h => ?_) _ ?_) | (refine Keeps.foldl_snd (fun h => ?_) _ ?_) | dsimp only | split | refine Keeps.upd ?_ ?_ ?_ ?_ ?_ ?_ | exact fun e => e | exact OtpOnlyAdds.refl _ | exact OtpOnlyAdds.upd | exact Nat.le_refl _ | exact Nat.le_add_right _ _

end Sys2Proof.Machine
end

