-- ==== Sys2Proof/Laws/KeepCkpt.lean ====
section
/-! SUPPORT. The operations of Machine/Ckpt.lean keep what every operation keeps. -/

namespace Sys2Proof.Machine

theorem State.setArea_keeps {s₀ s : State} {a : Area} (hK : Keeps s₀ s) : Keeps s₀ (State.setArea s a) := by
  unfold State.setArea
  with_reducible repeat' first
    | assumption | dsimp only | split | refine Keeps.upd ?_ ?_ ?_ ?_ ?_ ?_ | exact fun e => e | exact OtpOnlyAdds.refl _ | exact Nat.le_refl _

theorem State.ckptDone_keeps {s₀ s : State} {c : Cmd} (hK : Keeps s₀ s) : Keeps s₀ (State.ckptDone s c) := by
  unfold State.ckptDone
  with_reducible repeat' first
    | assumption | apply State.bump_keeps | apply State.setArea_keeps | dsimp only | split | refine Keeps.upd ?_ ?_ ?_ ?_ ?_ ?_ | exact fun e => e | exact OtpOnlyAdds.refl _ | exact OtpOnlyAdds.upd | exact Nat.le_refl _ | exact Nat.le_add_right _ _

theorem State.logCommit_keeps {s₀ s : State} {c : Cmd} {t : Target} {e : Nat} {out : List Byte} (hK : Keeps s₀ s) : Keeps s₀ (State.logCommit s c t e out) := by
  unfold State.logCommit
  with_reducible repeat' first
    | assumption | apply State.bump_keeps | apply State.setArea_keeps | dsimp only | split

end Sys2Proof.Machine
end

