-- ==== Sys2Proof/Laws/KeepSend.lean ====
section
/-! SUPPORT. The operations of Machine/Send.lean keep what every operation keeps. -/

namespace Sys2Proof.Machine

theorem State.newTxn_keeps {s₀ s : State} (hK : Keeps s₀ s) : Keeps s₀ (State.newTxn s).2 := by
  unfold State.newTxn
  with_reducible repeat' first
    | assumption | dsimp only | split | refine Keeps.upd ?_ ?_ ?_ ?_ ?_ ?_ | exact fun e => e | exact OtpOnlyAdds.refl _ | exact Nat.le_refl _ | exact Nat.le_add_right _ _

theorem State.track_keeps {s₀ s : State} {c : Cmd} {key len : Nat} {m : Msg} {low : Bool} (hK : Keeps s₀ s) : Keeps s₀ (State.track s c key len m low) := by
  unfold State.track
  with_reducible repeat' first
    | assumption | dsimp only | split | refine Keeps.upd ?_ ?_ ?_ ?_ ?_ ?_ | exact fun e => e | exact OtpOnlyAdds.refl _ | exact Nat.le_refl _

theorem State.sendVoid_keeps {s₀ s : State} {m : Msg} {low : Bool} (hK : Keeps s₀ s) : Keeps s₀ (State.sendVoid s m low).1 := by
  unfold State.sendVoid
  with_reducible repeat' first
    | assumption | apply State.bump_keeps | dsimp only | split | refine Keeps.upd ?_ ?_ ?_ ?_ ?_ ?_ | exact fun e => e | exact OtpOnlyAdds.refl _ | exact Nat.le_refl _

theorem State.addColl_keeps {s₀ s : State} {k : Coll} (hK : Keeps s₀ s) : Keeps s₀ (State.addColl s k) := by
  unfold State.addColl
  with_reducible repeat' first
    | assumption | dsimp only | split | refine Keeps.upd ?_ ?_ ?_ ?_ ?_ ?_ | exact fun e => e | exact OtpOnlyAdds.refl _ | exact Nat.le_refl _

theorem State.openFan_keeps {s₀ s : State} {c : Cmd} {id : Nat} (hK : Keeps s₀ s) : Keeps s₀ (State.openFan s c id) := by
  unfold State.openFan
  with_reducible repeat' first
    | assumption | apply State.addColl_keeps | dsimp only | split

theorem State.setColl_keeps {s₀ s : State} {k k' : Coll} (hK : Keeps s₀ s) : Keeps s₀ (State.setColl s k k') := by
  unfold State.setColl
  with_reducible repeat' first
    | assumption | dsimp only | split | refine Keeps.upd ?_ ?_ ?_ ?_ ?_ ?_ | exact fun e => e | exact OtpOnlyAdds.refl _ | exact Nat.le_refl _

theorem State.delColl_keeps {s₀ s : State} {k : Coll} (hK : Keeps s₀ s) : Keeps s₀ (State.delColl s k) := by
  unfold State.delColl
  with_reducible repeat' first
    | assumption | dsimp only | split | refine Keeps.upd ?_ ?_ ?_ ?_ ?_ ?_ | exact fun e => e | exact OtpOnlyAdds.refl _ | exact Nat.le_refl _

theorem State.collJoin_keeps {s₀ s : State} {c : Cmd} {id rootNode rootPart : Nat} {fanout : Bool} {own : List SelBlock} (hK : Keeps s₀ s) : Keeps s₀ (State.collJoin s c id rootNode rootPart fanout own).1 := by
  unfold State.collJoin
  with_reducible repeat' first
    | assumption | apply State.trySend_keeps | apply State.noRoute_keeps | apply State.newTxn_keeps | apply State.track_keeps | apply State.addColl_keeps | dsimp only | split

theorem State.collPush_keeps {s₀ s : State} {k : Coll} (hK : Keeps s₀ s) : Keeps s₀ (State.collPush s k) := by
  unfold State.collPush
  with_reducible repeat' first
    | assumption | apply State.sendMsg_keeps | apply State.setColl_keeps | (refine Keeps.foldl (fun h => ?_) _ ?_) | dsimp only | split

theorem State.collGrant_keeps {s₀ s : State} {k : Coll} {node n : Nat} (hK : Keeps s₀ s) : Keeps s₀ (State.collGrant s k node n) := by
  unfold State.collGrant
  with_reducible repeat' first
    | assumption | apply State.putMsg_keeps | dsimp only | split

theorem State.collTell_keeps {s₀ s : State} {k : Coll} {st sub : Nat} (hK : Keeps s₀ s) : Keeps s₀ (State.collTell s k st sub) := by
  unfold State.collTell
  with_reducible repeat' first
    | assumption | apply State.putMsg_keeps | apply State.delColl_keeps | (refine Keeps.foldl (fun h => ?_) _ ?_) | dsimp only | split

theorem State.addBar_keeps {s₀ s : State} {b : Barrier} (hK : Keeps s₀ s) : Keeps s₀ (State.addBar s b) := by
  unfold State.addBar
  with_reducible repeat' first
    | assumption | dsimp only | split | refine Keeps.upd ?_ ?_ ?_ ?_ ?_ ?_ | exact fun e => e | exact OtpOnlyAdds.refl _ | exact Nat.le_refl _

theorem State.setBar_keeps {s₀ s : State} {b b' : Barrier} (hK : Keeps s₀ s) : Keeps s₀ (State.setBar s b b') := by
  unfold State.setBar
  with_reducible repeat' first
    | assumption | dsimp only | split | refine Keeps.upd ?_ ?_ ?_ ?_ ?_ ?_ | exact fun e => e | exact OtpOnlyAdds.refl _ | exact Nat.le_refl _

theorem State.delBar_keeps {s₀ s : State} {b : Barrier} (hK : Keeps s₀ s) : Keeps s₀ (State.delBar s b) := by
  unfold State.delBar
  with_reducible repeat' first
    | assumption | dsimp only | split | refine Keeps.upd ?_ ?_ ?_ ?_ ?_ ?_ | exact fun e => e | exact OtpOnlyAdds.refl _ | exact Nat.le_refl _

end Sys2Proof.Machine
end

