-- ==== Sys2Proof/Laws/KeepPeers.lean ====
section
/-! SUPPORT. The operations of Machine/Peers.lean keep what every operation keeps. -/

namespace Sys2Proof.Machine

theorem State.refuseJoin_keeps {s₀ s : State} {k : Coll} {m : Msg} {st sub : Nat} (hK : Keeps s₀ s) : Keeps s₀ (State.refuseJoin s k m st sub) := by
  unfold State.refuseJoin
  with_reducible repeat' first
    | assumption | apply State.putMsg_keeps | dsimp only | split

theorem State.joinRoot_keeps {s₀ s : State} {k : Coll} {m : Msg} (hK : Keeps s₀ s) : Keeps s₀ (State.joinRoot s k m).1 := by
  unfold State.joinRoot
  with_reducible repeat' first
    | assumption | apply State.bump_keeps | apply State.raise_keeps | apply State.setColl_keeps | apply State.collGrant_keeps | apply State.collTell_keeps | apply State.refuseJoin_keeps | dsimp only | split

theorem State.joinEarly_keeps (l : List Msg) : ∀ {s₀ s : State} {k : Coll}, Keeps s₀ s → Keeps s₀ (s.joinEarly k l).1 := by
  induction l with
  | nil => intro s₀ s k h; exact h
  | cons m r ih =>
    intro s₀ s k h
    unfold State.joinEarly
    split
    · rename_i s1 k1 e
      exact ih (Keeps.of_fst e (State.joinRoot_keeps h))
    · rename_i s1 k1 x e
      exact Keeps.foldl (fun h => State.refuseJoin_keeps h) _ (Keeps.of_fst e (State.joinRoot_keeps h))

theorem State.collMerge_keeps {s₀ s : State} {c : Cmd} {k : Coll} (hK : Keeps s₀ s) : Keeps s₀ (State.collMerge s c k).1 := by
  unfold State.collMerge
  with_reducible repeat' first
    | assumption | apply State.bump_keeps | apply State.bumps_keeps | apply State.putMsg_keeps | apply State.delColl_keeps | (refine Keeps.foldl (fun h => ?_) _ ?_) | (refine Keeps.foldl_fst (fun h => ?_) _ ?_) | (refine Keeps.foldl_snd (fun h => ?_) _ ?_) | dsimp only | split

theorem State.valsDone_keeps {s₀ s : State} {k : Coll} {own : List (List F32)} (hK : Keeps s₀ s) : Keeps s₀ (State.valsDone s k own).1 := by
  unfold State.valsDone
  with_reducible repeat' first
    | assumption | apply State.putMsg_keeps | apply State.delColl_keeps | (refine Keeps.foldl (fun h => ?_) _ ?_) | dsimp only | split

theorem State.markSuspect_keeps {s₀ s : State} {n : Nat} {on : Bool} (hK : Keeps s₀ s) : Keeps s₀ (State.markSuspect s n on) := by
  unfold State.markSuspect
  with_reducible repeat' first
    | assumption | apply State.bump_keeps | apply State.logEvent_keeps | dsimp only | split | refine Keeps.upd ?_ ?_ ?_ ?_ ?_ ?_ | exact fun e => e | exact OtpOnlyAdds.refl _ | exact Nat.le_refl _

theorem State.noteLast_keeps {s₀ s : State} {node parts : Nat} (hK : Keeps s₀ s) : Keeps s₀ (State.noteLast s node parts) := by
  unfold State.noteLast
  with_reducible repeat' first
    | assumption | apply State.markSuspect_keeps | (refine Keeps.foldl (fun h => ?_) _ ?_) | dsimp only | split | refine Keeps.upd ?_ ?_ ?_ ?_ ?_ ?_ | exact fun e => e | exact OtpOnlyAdds.refl _ | exact Nat.le_refl _

theorem State.barTell_keeps {s₀ s : State} {b : Barrier} {last status : Nat} (hK : Keeps s₀ s) : Keeps s₀ (State.barTell s b last status) := by
  unfold State.barTell
  with_reducible repeat' first
    | assumption | apply State.putMsg_keeps | apply State.delBar_keeps | (refine Keeps.foldl (fun h => ?_) _ ?_) | dsimp only | split

theorem State.barJoin_keeps {s₀ s : State} {b : Barrier} {m : Msg} (hK : Keeps s₀ s) : Keeps s₀ (State.barJoin s b m).1 := by
  unfold State.barJoin
  with_reducible repeat' first
    | assumption | apply State.bump_keeps | apply State.setBar_keeps | apply State.noteLast_keeps | apply State.barTell_keeps | dsimp only | split

theorem State.barEarly_keeps (l : List Msg) : ∀ {s₀ s : State} {b : Barrier}, Keeps s₀ s → Keeps s₀ (s.barEarly b l).1 := by
  induction l with
  | nil => intro s₀ s b h; exact h
  | cons m r ih =>
    intro s₀ s b h
    unfold State.barEarly
    split
    · rename_i e; exact ih (Keeps.of_fst e (State.barJoin_keeps h))
    · rename_i e; exact Keeps.of_fst e (State.barJoin_keeps h)

end Sys2Proof.Machine
end

