-- ==== Sys2Proof/Laws/KeepEngine.lean ====
section
/-! SUPPORT. The operations of Machine/Engine.lean keep what every operation keeps. -/

namespace Sys2Proof.Machine

theorem State.addCmd_keeps {s₀ s : State} {part ctx : Nat} {port : Port} {fn : Nat} {dw : List Nat} {prio : Nat} {origin : Origin} (hK : Keeps s₀ s) : Keeps s₀ (State.addCmd s part ctx port fn dw prio origin).1 := by
  unfold State.addCmd
  with_reducible repeat' first
    | assumption | dsimp only | split | refine Keeps.upd ?_ ?_ ?_ ?_ ?_ ?_ | exact fun e => e | exact OtpOnlyAdds.refl _ | exact Nat.le_refl _ | exact Nat.le_add_right _ _

theorem State.replayStop_keeps {s₀ s : State} {t : Target} (hK : Keeps s₀ s) : Keeps s₀ (State.replayStop s t) := by
  unfold State.replayStop
  with_reducible repeat' first
    | assumption | apply State.dropCmd_keeps | apply State.raise_keeps | apply State.discard_keeps | (refine Keeps.foldl (fun h => ?_) _ ?_) | dsimp only | split | refine Keeps.upd ?_ ?_ ?_ ?_ ?_ ?_ | exact fun e => e | exact OtpOnlyAdds.refl _ | exact Nat.le_refl _

theorem State.restartOwn_keeps {s₀ s : State} {c : Cmd} (hK : Keeps s₀ s) : Keeps s₀ (State.restartOwn s c) := by
  unfold State.restartOwn
  with_reducible repeat' first
    | assumption | apply State.modCmd_keeps | apply State.discard_keeps | dsimp only | split | refine Keeps.upd ?_ ?_ ?_ ?_ ?_ ?_ | exact fun e => e | exact OtpOnlyAdds.refl _ | exact OtpOnlyAdds.upd | exact Nat.le_refl _ | exact Nat.le_add_right _ _

theorem State.failInternal_keeps {s₀ s : State} {c : Cmd} {st : Nat} {errs bumps : List (Nat × Nat)} (hK : Keeps s₀ s) : Keeps s₀ (State.failInternal s c st errs bumps) := by
  unfold State.failInternal
  with_reducible repeat' first
    | assumption | apply State.dropCmd_keeps | apply State.bumps_keeps | apply State.raiseAt_keeps | apply State.reportErr_keeps | apply State.discard_keeps | apply State.restartOwn_keeps | (refine Keeps.foldl (fun h => ?_) _ ?_) | (refine Keeps.foldl_fst (fun h => ?_) _ ?_) | (refine Keeps.foldl_snd (fun h => ?_) _ ?_) | dsimp only | split

theorem State.failAny_keeps {s₀ s : State} {c : Cmd} {st sub counter : Nat} {errs bumps : List (Nat × Nat)} (hK : Keeps s₀ s) : Keeps s₀ (State.failAny s c st sub counter errs bumps) := by
  unfold State.failAny
  with_reducible repeat' first
    | assumption | apply State.failCmd_keeps | apply State.replayStop_keeps | apply State.failInternal_keeps | (refine Keeps.foldl (fun h => ?_) _ ?_) | dsimp only | split

theorem State.turnAway_keeps {s₀ s : State} {c : Cmd} {st sub counter : Nat} (hK : Keeps s₀ s) : Keeps s₀ (State.turnAway s c st sub counter) := by
  unfold State.turnAway
  with_reducible repeat' first
    | assumption | apply State.raiseAt_keeps | apply State.answer_keeps | apply State.refuseCmd_keeps | apply State.replayStop_keeps | (refine Keeps.foldl (fun h => ?_) _ ?_) | dsimp only | split

theorem State.poolLost_keeps {s₀ s : State} {c : Cmd} {key : Nat} {flashToo : Bool} (hK : Keeps s₀ s) : Keeps s₀ (State.poolLost s c key flashToo).1 := by
  unfold State.poolLost
  with_reducible repeat' first
    | assumption | apply State.modCmd_keeps | apply State.bump_keeps | apply State.raiseAt_keeps | apply State.failAny_keeps | dsimp only | split | refine Keeps.upd ?_ ?_ ?_ ?_ ?_ ?_ | exact fun e => e | exact OtpOnlyAdds.refl _ | exact Nat.le_refl _

theorem State.takeSram_keeps {s₀ s t : State} {c : Cmd} {u items : Nat} (e : s.takeSram c u items = some t) (h : Keeps s₀ s) : Keeps s₀ t := by
  unfold State.takeSram at e
  extract_lets at e
  split at e
  extract_lets at e
  split at e
  · cases e
  · cases e
    apply State.modCmd_keeps
    show Keeps s₀ (if _ = true then _ else _)
    split
    · exact State.bump_keeps h
    · exact h

theorem State.waitOn_keeps {s₀ s : State} {c : Cmd} {n : Need} (hK : Keeps s₀ s) : Keeps s₀ (State.waitOn s c n) := by
  unfold State.waitOn
  with_reducible repeat' first
    | assumption | apply State.modCmd_keeps | dsimp only | split

theorem State.fill_keeps {s₀ s : State} {c : Cmd} {key : Nat} {d : List Byte} (hK : Keeps s₀ s) : Keeps s₀ (State.fill s c key d) := by
  unfold State.fill
  with_reducible repeat' first
    | assumption | apply State.modCmd_keeps | dsimp only | split

theorem State.waitCapo_keeps {s₀ s : State} {c : Cmd} {r n : Nat} (hK : Keeps s₀ s) : Keeps s₀ (State.waitCapo s c r n) := by
  unfold State.waitCapo
  with_reducible repeat' first
    | assumption | apply State.noteHeld_keeps | apply State.waitOn_keeps | dsimp only | split

/-- What a request to another node keeps. -/
def KeepsS (s₀ : State) : Sent → Prop
  | .sent s => Keeps s₀ s
  | .unreachable s => Keeps s₀ s
  | _ => True

theorem KeepsS.sent {s₀ s : State} (h : Keeps s₀ s) : KeepsS s₀ (.sent s) := h
theorem KeepsS.unreachable {s₀ s : State} (h : Keeps s₀ s) : KeepsS s₀ (.unreachable s) := h

theorem State.poolGo_keeps {s₀ s : State} {c : Cmd} {key node off len : Nat} {wr : Option (List Byte)} (h : Keeps s₀ s) :
    KeepsS s₀ (s.poolGo c key node off len wr) := by
  unfold State.poolGo
  extract_lets
  split
  · trivial
  · split
    · trivial
    · rename_i u e
      have k : Keeps s₀ u.newTxn.2 := State.newTxn_keeps (State.charge_keeps e h)
      with_reducible repeat' first
        | assumption | apply KeepsS.sent | apply KeepsS.unreachable | apply State.track_keeps | apply State.noRoute_keeps | apply State.sendVoid_keeps
        | apply State.trySend_keeps | apply State.disarm_keeps | dsimp only | split

theorem State.fwdGo_keeps {s₀ s : State} {c : Cmd} {key node part : Nat} {search : Bool} {body : Body} (h : Keeps s₀ s) :
    KeepsS s₀ (s.fwdGo c key node part search body) := by
  unfold State.fwdGo
  extract_lets
  split
  · trivial
  · rename_i u e
    have k : Keeps s₀ u.newTxn.2 := State.newTxn_keeps (State.charge_keeps e h)
    with_reducible repeat' first
      | assumption | apply KeepsS.sent | apply KeepsS.unreachable | apply State.bump_keeps | apply State.track_keeps | apply State.openFan_keeps | apply State.noRoute_keeps
      | apply State.trySend_keeps | dsimp only | split

theorem State.afterSend_keeps {s₀ s : State} {c : Cmd} {need : Need} {lost : State → State × Bool} {x : Sent}
    (hl : ∀ {a b : State}, Keeps a b → Keeps a (lost b).1) (h : Keeps s₀ s) (hx : KeepsS s₀ x) : Keeps s₀ (s.afterSend c need lost x).1 := by
  unfold State.afterSend
  split
  · exact State.waitOn_keeps hx
  · exact hl hx
  · exact State.waitOn_keeps h
  · exact State.waitCapo_keeps h

theorem State.noOwner_keeps {s₀ s : State} {c : Cmd} {key : Nat} {accepted : Bool} (hK : Keeps s₀ s) : Keeps s₀ (State.noOwner s c key accepted).1 := by
  unfold State.noOwner
  with_reducible repeat' first
    | assumption | apply State.raiseAt_keeps | apply State.failAny_keeps | apply State.fill_keeps | dsimp only | split

theorem State.again_keeps {s₀ s : State} {c : Cmd} (hK : Keeps s₀ s) : Keeps s₀ (State.again s c).1 := by
  unfold State.again
  with_reducible repeat' first
    | assumption | apply State.modCmd_keeps | apply State.bump_keeps | apply State.discard_keeps | apply State.collDrop_keeps | apply State.failAny_keeps | dsimp only | split | refine Keeps.upd ?_ ?_ ?_ ?_ ?_ ?_ | exact fun e => e | exact OtpOnlyAdds.refl _ | exact Nat.le_refl _

theorem State.stale_keeps {s₀ s : State} {c : Cmd} {sub : Nat} (hK : Keeps s₀ s) : Keeps s₀ (State.stale s c sub).1 := by
  unfold State.stale
  with_reducible repeat' first
    | assumption | apply State.failAny_keeps | apply State.again_keeps | dsimp only | split

theorem State.badPeers_keeps {s₀ s : State} {c : Cmd} {st sub : Nat} (hK : Keeps s₀ s) : Keeps s₀ (State.badPeers s c st sub).1 := by
  unfold State.badPeers
  with_reducible repeat' first
    | assumption | apply State.failAny_keeps | apply State.stale_keeps | dsimp only | split

theorem State.collCheck_keeps {s₀ s : State} {c : Cmd} {k : Coll} (hK : Keeps s₀ s) : Keeps s₀ (State.collCheck s c k).1 := by
  unfold State.collCheck
  with_reducible repeat' first
    | assumption | apply State.collMerge_keeps | apply State.fill_keeps | dsimp only | split

theorem State.openPeers_keeps {s₀ s : State} {c : Cmd} {own : List SelBlock} (h : Keeps s₀ s) : Keeps s₀ (s.openPeers c own).1 := by
  unfold State.openPeers
  extract_lets p r k early _ s1
  split
  · split
    · exact State.waitOn_keeps (State.collJoin_keeps h)
    · exact State.failAny_keeps (State.collJoin_keeps h)
  · have k1 : Keeps s₀ s1 := Keeps.upd h (fun e => e) (.refl _) (Nat.le_refl _) (Nat.le_refl _) (Nat.le_refl _)
    have k2 : Keeps s₀ (((s1.waitOn c (.coll collKey own)).addColl k).joinEarly k early).1 := State.joinEarly_keeps _ (State.addColl_keeps (State.waitOn_keeps k1))
    split
    · rename_i e; exact State.badPeers_keeps (Keeps.of_fst e k2)
    · rename_i e; exact State.collCheck_keeps (Keeps.of_fst e k2)

theorem State.giveVals_keeps {s₀ s : State} {c : Cmd} {key : Nat} {own : List (List F32)} (hK : Keeps s₀ s) : Keeps s₀ (State.giveVals s c key own).1 := by
  unfold State.giveVals
  with_reducible repeat' first
    | assumption | apply State.sendMsg_keeps | apply State.valsDone_keeps | apply State.waitOn_keeps | apply State.fill_keeps | (refine Keeps.foldl (fun h => ?_) _ ?_) | dsimp only | split

theorem State.arrive_keeps {s₀ s : State} {c : Cmd} (h : Keeps s₀ s) : Keeps s₀ (s.arrive c).1 := by
  unfold State.arrive
  extract_lets root b done early _ s1
  have kd : ∀ {a b : State} {n : Nat}, Keeps a b → Keeps a (done b n).1 := fun k => State.modCmd_keeps k
  clear_value done
  split
  · have k1 : Keeps s₀ s1 := Keeps.upd h (fun e => e) (.refl _) (Nat.le_refl _) (Nat.le_refl _) (Nat.le_refl _)
    have k2 : Keeps s₀ (((s1.waitOn c .peers).addBar b).barEarly b early).1 := State.barEarly_keeps _ (State.addBar_keeps (State.waitOn_keeps k1))
    split
    · rename_i e; exact kd (Keeps.of_fst e k2)
    · rename_i e
      have k3 := Keeps.of_fst e k2
      extract_lets
      split
      · exact kd (State.noteLast_keeps (State.bump_keeps (State.barTell_keeps (State.setBar_keeps k3))))
      · exact State.setBar_keeps k3
  · have k1 : Keeps s₀ s.newTxn.2 := State.newTxn_keeps h
    dsimp only
    split
    · exact State.track_keeps (State.addBar_keeps (State.waitOn_keeps (State.trySend_keeps k1)))
    · exact State.failAny_keeps (State.noRoute_keeps (State.trySend_keeps k1))

theorem State.fretsFor_keeps {s₀ s t : State} {c : Cmd} (e : s.fretsFor c = some t) (h : Keeps s₀ s) : Keeps s₀ t := by
  unfold State.fretsFor at e
  split at e
  · cases e; exact h
  · split at e
    · cases e; exact State.modPart_keeps h
    · cases e

theorem State.park_keeps {s₀ s : State} {c : Cmd} {n : Need} (h : Keeps s₀ s) : Keeps s₀ (s.park c n).1 := by
  have kw := @State.waitOn_keeps s₀ s c n h
  cases n with
  | host key a len =>
    unfold State.park; dsimp only; split
    · exact State.waitCapo_keeps h
    · rename_i e; exact State.waitOn_keeps (State.hostRead_keeps (State.charge_keeps e h))
  | flash lua =>
    unfold State.park; dsimp only; split
    · exact State.fill_keeps h
    · split
      · exact State.waitCapo_keeps h
      · rename_i e; exact State.pumpDies_keeps (State.waitOn_keeps (State.charge_keeps e h))
  | keep key d => unfold State.park; exact State.fill_keeps h
  | pool key node off len =>
    unfold State.park; dsimp only
    exact State.afterSend_keeps (fun h => State.poolLost_keeps h) h (State.poolGo_keeps h)
  | poolWr key node off d =>
    unfold State.park; dsimp only
    exact State.afterSend_keeps (fun h => State.poolLost_keeps h) h (State.poolGo_keeps h)
  | frets =>
    unfold State.park; dsimp only; split
    · rename_i e; exact State.fill_keeps (State.fretsFor_keeps e h)
    · exact kw
  | sram u items =>
    unfold State.park; dsimp only; split
    · rename_i e; exact State.modCmd_keeps (State.takeSram_keeps e h)
    · exact State.waitOn_keeps (State.bump_keeps h)
  | array key shape =>
    unfold State.park; dsimp only
    exact State.waitOn_keeps (Keeps.upd h (fun e => e) (.refl _) (Nat.le_refl _) (Nat.le_refl _) (Nat.le_refl _))
  | overlay f => unfold State.park; exact State.waitOn_keeps (State.bump_keeps (State.yieldFloor_keeps h))
  | slot a b l => unfold State.park; exact State.waitOn_keeps (State.bump_keeps (State.modCmd_keeps h))
  | take a l => unfold State.park; exact State.modCmd_keeps h
  | walk m => unfold State.park; exact kw
  | page g l => unfold State.park; exact State.waitOn_keeps (State.bump_keeps (State.modCmd_keeps h))
  | walks =>
    unfold State.park; dsimp only
    apply State.waitOn_keeps
    split
    · exact h
    · exact Keeps.upd h (fun e => e) (.refl _) (Nat.le_refl _) (Nat.le_refl _) (Nat.le_refl _)
  | coll key own => unfold State.park; exact State.openPeers_keeps h
  | vals key own => unfold State.park; exact State.giveVals_keeps h
  | forward key =>
    unfold State.park; dsimp only; split
    · exact kw
    · split
      · with_reducible repeat' first
          | assumption | apply State.noOwner_keeps | apply State.modCmd_keeps | split
      · apply State.modCmd_keeps
        refine State.afterSend_keeps (fun h => State.noOwner_keeps h) ?_ (State.fwdGo_keeps ?_)
        all_goals
          with_reducible repeat' first
            | assumption | apply State.modCmd_keeps | split
  | peers => unfold State.park; exact State.arrive_keeps h
  | none => unfold State.park; exact kw
  | capo r n => unfold State.park; exact kw
  | program => unfold State.park; exact kw
  | fabric => unfold State.park; exact kw
  | spare f => unfold State.park; exact kw
  | turn => unfold State.park; exact kw
  | ret f => unfold State.park; exact kw

theorem State.chargeFrom_keeps {p : Nat} (l : List (Nat × Nat)) : ∀ {s₀ s : State} {i : Nat}, Keeps s₀ s → Keeps s₀ (s.chargeFrom p l i).1 := by
  induction l with
  | nil => intro s₀ s i h; exact h
  | cons x r ih =>
    intro s₀ s i h
    obtain ⟨a, n⟩ := x
    unfold State.chargeFrom
    split
    · exact h
    · rename_i e; exact ih (State.charge_keeps e h)

theorem State.writeStage_keeps {s₀ s t : State} {c : Cmd} {d : Done} (e : s.writeStage c d = .ok t) (h : Keeps s₀ s) : Keeps s₀ t := by
  unfold State.writeStage at e
  cases hx : s.writePages c c.part (c.opcode != 0x72) d.pages with
  | error z => rw [hx] at e; cases e
  | ok u =>
    rw [hx] at e
    have k : Keeps s₀ u := State.writePages_keeps hx h
    have kk : ∀ d : Done, Keeps s₀ (d.stats.foldl (fun s x => s.pegStat c.id x.kind x.number c.part (Fmt.ofCode x.fmt) x.errs x.sat)
        (d.puts.foldl (fun s x => s.hbmWrite x.fret x.off x.tag x.data) u)) := fun d =>
      Keeps.foldl (fun h => State.pegStat_keeps h) d.stats (Keeps.foldl (fun h => State.hbmWrite_keeps h) _ k)
    cases hc : c.opcode == 0x70 <;> simp only [hc] at e <;> cases e
    · exact State.modCmd_keeps (kk _)
    · exact State.modCmd_keeps (State.trimRange_keeps (kk _))

theorem State.accept_keeps {s₀ s : State} {c : Cmd} {d : Done} (hK : Keeps s₀ s) : Keeps s₀ (State.accept s c d).1 := by
  unfold State.accept
  with_reducible repeat' first
    | assumption | apply State.modPart_keeps | apply State.modCmd_keeps | apply State.waitCapo_keeps | apply State.chargeFrom_keeps | (refine State.writeStage_keeps (by assumption) ?_) | dsimp only | split

theorem State.bindExtents_keeps {s₀ s : State} {part num : Nat} (hK : Keeps s₀ s) : Keeps s₀ (State.bindExtents s part num) := by
  unfold State.bindExtents
  with_reducible repeat' first
    | assumption | dsimp only | split | refine Keeps.upd ?_ ?_ ?_ ?_ ?_ ?_ | exact fun e => e | exact OtpOnlyAdds.refl _ | exact Nat.le_refl _

theorem State.fillCache_keeps {s₀ s : State} {num : Nat} (hK : Keeps s₀ s) : Keeps s₀ (State.fillCache s num) := by
  unfold State.fillCache
  with_reducible repeat' first
    | assumption | apply State.hbmWrite_keeps | apply State.setShard_keeps | apply State.fill_keeps | (refine Keeps.foldl (fun h => ?_) _ ?_) | (refine Keeps.foldl_fst (fun h => ?_) _ ?_) | (refine Keeps.foldl_snd (fun h => ?_) _ ?_) | dsimp only | split | refine Keeps.upd ?_ ?_ ?_ ?_ ?_ ?_ | exact fun e => e | exact OtpOnlyAdds.refl _ | exact OtpOnlyAdds.upd | exact Nat.le_refl _ | exact Nat.le_add_right _ _

theorem State.sweepDone_keeps {s₀ s : State} {c : Cmd} {num : Nat} (hK : Keeps s₀ s) : Keeps s₀ (State.sweepDone s c num) := by
  unfold State.sweepDone
  with_reducible repeat' first
    | assumption | apply State.setShard_keeps | apply State.fillCache_keeps | dsimp only | split

theorem State.autoNext_keeps {s₀ s : State} {c : Cmd} {num : Nat} (hK : Keeps s₀ s) : Keeps s₀ (State.autoNext s c num) := by
  unfold State.autoNext
  with_reducible repeat' first
    | assumption | apply State.addCmd_keeps | dsimp only | split

theorem State.afterCommit_keeps {s₀ s : State} {c : Cmd} {g : Stage} (hK : Keeps s₀ s) : Keeps s₀ (State.afterCommit s c g) := by
  unfold State.afterCommit
  with_reducible repeat' first
    | assumption | apply State.bindExtents_keeps | apply State.fillCache_keeps | apply State.sweepDone_keeps | dsimp only | split | refine Keeps.upd ?_ ?_ ?_ ?_ ?_ ?_ | exact fun e => e | exact OtpOnlyAdds.refl _ | exact Nat.le_refl _

theorem State.publish_keeps {s₀ s : State} {c : Cmd} {f : Finish} (hK : Keeps s₀ s) : Keeps s₀ (State.publish s c f).1 := by
  unfold State.publish
  with_reducible repeat' first
    | assumption | apply State.commitStage_keeps | apply State.trimUnit_keeps | apply State.logCommit_keeps | apply State.afterCommit_keeps | (refine Keeps.foldl (fun h => ?_) _ ?_) | (refine Keeps.foldl_fst (fun h => ?_) _ ?_) | dsimp only | split

theorem State.countHits_keeps {s₀ s : State} {c : Cmd} {f : Finish} (hK : Keeps s₀ s) : Keeps s₀ (State.countHits s c f) := by
  unfold State.countHits
  with_reducible repeat' first
    | assumption | apply State.bump_keeps | apply State.devWrite_keeps | (refine Keeps.foldl (fun h => ?_) _ ?_) | dsimp only | split

theorem State.countCall_keeps {s₀ s : State} {c : Cmd} {f : Finish} (hK : Keeps s₀ s) : Keeps s₀ (State.countCall s c f) := by
  unfold State.countCall
  with_reducible repeat' first
    | assumption | apply State.setRegion_keeps | dsimp only | split

theorem State.complete_keeps {s₀ s : State} {c : Cmd} {f : Finish} (hK : Keeps s₀ s) : Keeps s₀ (State.complete s c f) := by
  unfold State.complete
  with_reducible repeat' first
    | assumption | apply State.finish_keeps | apply State.collDrop_keeps | apply State.ckptDone_keeps | apply State.countHits_keeps | apply State.countCall_keeps | dsimp only | split | refine Keeps.upd ?_ ?_ ?_ ?_ ?_ ?_ | exact fun e => e | exact OtpOnlyAdds.refl _ | exact Nat.le_refl _

theorem State.copyWalk_keeps {s₀ s : State} {c : Cmd} {num node part q : Nat} {ids : List Nat} (hK : Keeps s₀ s) : Keeps s₀ (State.copyWalk s c num node part q ids) := by
  unfold State.copyWalk
  with_reducible repeat' first
    | assumption | apply State.trySend_keeps | apply State.setShard_keeps | apply State.newTxn_keeps | dsimp only | split

theorem State.copyWalks_keeps {s₀ s : State} {c : Cmd} {f : Finish} (hK : Keeps s₀ s) : Keeps s₀ (State.copyWalks s c f) := by
  unfold State.copyWalks
  with_reducible repeat' first
    | assumption | apply State.copyWalk_keeps | (refine Keeps.foldl (fun h => ?_) _ ?_) | dsimp only | split

theorem State.endWork_keeps {s₀ s : State} {c : Cmd} {f : Finish} (hK : Keeps s₀ s) : Keeps s₀ (State.endWork s c f) := by
  unfold State.endWork
  with_reducible repeat' first
    | assumption | apply State.collJoin_keeps | apply State.waitOn_keeps | apply State.complete_keeps | apply State.copyWalks_keeps | dsimp only | split

theorem State.verifyFails_keeps {s₀ s : State} {c : Cmd} {x : State × List (Nat × Nat)} (e : s.verifyFails c = some x) (h : Keeps s₀ s) : Keeps s₀ x.1 := by
  unfold State.verifyFails at e
  dsimp only at e
  repeat' split at e
  all_goals first
    | (cases e; exact h)
    | (cases e; exact State.disarm_keeps h)
    | cases e

theorem State.partFails_keeps {s₀ s : State} {c : Cmd} {f : Finish} {st sub : Nat} {errs : List (Nat × Nat)} (hK : Keeps s₀ s) : Keeps s₀ (State.partFails s c f st sub errs) := by
  unfold State.partFails
  with_reducible repeat' first
    | assumption | apply State.reportErr_keeps | apply State.discard_keeps | apply State.endWork_keeps | (refine Keeps.foldl (fun h => ?_) _ ?_) | (refine Keeps.foldl_fst (fun h => ?_) _ ?_) | (refine Keeps.foldl_snd (fun h => ?_) _ ?_) | dsimp only | split | refine Keeps.upd ?_ ?_ ?_ ?_ ?_ ?_ | exact fun e => e | exact OtpOnlyAdds.refl _ | exact OtpOnlyAdds.upd | exact Nat.le_refl _ | exact Nat.le_add_right _ _

theorem State.settle_keeps {s₀ s : State} {c : Cmd} {f : Finish} (h : Keeps s₀ s) : Keeps s₀ (s.settle c f) := by
  unfold State.settle
  split
  · apply State.pumpDies_keeps
    apply State.waitOn_keeps
    split
    · exact State.bump_keeps h
    · exact h
  · split
    · rename_i u errs e
      split
      · exact State.partFails_keeps (State.verifyFails_keeps e h)
      · exact State.failAny_keeps (State.verifyFails_keeps e h)
    · split
      · exact State.waitOn_keeps h
      · split
        · exact State.modCmd_keeps h
        · exact State.endWork_keeps h

theorem State.dropPasses_keeps {s₀ s : State} {c : Cmd} (hK : Keeps s₀ s) : Keeps s₀ (State.dropPasses s c) := by
  unfold State.dropPasses
  with_reducible repeat' first
    | assumption | apply State.dropCmd_keeps | apply State.bump_keeps | apply State.discard_keeps | (refine Keeps.foldl (fun h => ?_) _ ?_) | dsimp only | split

theorem State.hold_keeps {s₀ s : State} {c : Cmd} {h : Hold} (hK : Keeps s₀ s) : Keeps s₀ (State.hold s c h) := by
  unfold State.hold
  with_reducible repeat' first
    | assumption | apply State.modCmd_keeps | apply State.bump_keeps | dsimp only | split | refine Keeps.upd ?_ ?_ ?_ ?_ ?_ ?_ | exact fun e => e | exact OtpOnlyAdds.refl _ | exact Nat.le_refl _

theorem State.letIn_keeps {s₀ s : State} {c : Cmd} (h : Keeps s₀ s) : Keeps s₀ (s.letIn c).1 := by
  unfold State.letIn
  split
  · exact h
  · extract_lets c check
    clear_value check
    split
    · split
      · exact h
      · exact State.hold_keeps h
    · split
      · exact h
      · split
        · exact State.waitCapo_keeps h
        · rename_i u e
          have k : Keeps s₀ (u.dropPasses c) := State.dropPasses_keeps (State.charge_keeps e h)
          clear e
          generalize u.dropPasses c = v at k
          dsimp only
          apply State.modCmd_keeps
          with_reducible repeat' first
            | assumption | apply State.bump_keeps | apply State.putMsg_keeps | split

theorem State.halt_keeps {s₀ s : State} {c : Cmd} {x : Halt} (h : Keeps s₀ s) : Keeps s₀ (s.halt c x).1 := by
  unfold State.halt
  with_reducible repeat' first
    | assumption | apply State.park_keeps | apply State.failAny_keeps | apply State.turnAway_keeps | apply State.stale_keeps | dsimp only | split

theorem State.runCmd_keeps {s₀ s : State} {c : Cmd} (hK : Keeps s₀ s) : Keeps s₀ (State.runCmd s c).1 := by
  unfold State.runCmd
  with_reducible repeat' first
    | assumption | apply State.yieldAll_keeps | apply State.waitOn_keeps | apply State.accept_keeps | (refine Keeps.of_fst (by assumption) (State.accept_keeps ?_)) | apply State.settle_keeps | apply State.letIn_keeps | (refine Keeps.of_fst (by assumption) (State.letIn_keeps ?_)) | apply State.halt_keeps | dsimp only | split | refine Keeps.upd ?_ ?_ ?_ ?_ ?_ ?_ | exact fun e => e | exact OtpOnlyAdds.refl _ | exact OtpOnlyAdds.upd | exact Nat.le_refl _ | exact Nat.le_add_right _ _

theorem State.advance_keeps (n : Nat) : ∀ {s₀ s : State} {id : Nat}, Keeps s₀ s → Keeps s₀ (State.advance n s id) := by
  induction n with
  | zero => intro s₀ s id h; exact h
  | succ n ih =>
    intro s₀ s id h
    unfold State.advance
    split
    · exact h
    · dsimp only
      split
      · exact ih (State.runCmd_keeps h)
      · exact State.runCmd_keeps h

theorem State.run_keeps {s₀ s : State} {id : Nat} (h : Keeps s₀ s) : Keeps s₀ (s.run id) := by
  unfold State.run
  split
  · split
    · exact h
    · exact State.advance_keeps _ h
  · exact h

theorem State.deliver_keeps {s₀ s : State} {id key : Nat} {d : List Byte} (hK : Keeps s₀ s) : Keeps s₀ (State.deliver s id key d) := by
  unfold State.deliver
  with_reducible repeat' first
    | assumption | apply State.modCmd_keeps | apply State.run_keeps | dsimp only | split

theorem State.readmit_keeps {s₀ s : State} {c : Cmd} (hK : Keeps s₀ s) : Keeps s₀ (State.readmit s c) := by
  unfold State.readmit
  with_reducible repeat' first
    | assumption | apply State.again_keeps | apply State.run_keeps | dsimp only | split

end Sys2Proof.Machine
end

