-- ==== Sys2Proof/Laws/KeepOpcodes.lean ====
section
/-! SUPPORT. The operations of Machine/Opcodes.lean keep what every operation keeps. -/

namespace Sys2Proof.Machine

theorem State.admitHead_keeps {s₀ s : State} {ctx op : Nat} (hK : Keeps s₀ s) : Keeps s₀ (State.admitHead s ctx op) := by
  unfold State.admitHead
  with_reducible repeat' first
    | assumption | apply State.run_keeps | dsimp only | split

theorem execNop_keeps {s₀ s : State} {ctx : Nat} (hK : Keeps s₀ s) : KeepsA s₀ (execNop ctx s) := by
  unfold execNop
  with_reducible repeat' first
    | assumption | apply State.admitHead_keeps | apply KeepsA.next | dsimp only | split

theorem execFence_keeps {s₀ s : State} {ctx : Nat} (hK : Keeps s₀ s) : KeepsA s₀ (execFence ctx s) := by
  unfold execFence
  with_reducible repeat' first
    | assumption | apply State.run_keeps | apply State.admitHead_keeps | apply KeepsA.next | dsimp only | split

theorem execCorpusSearch_keeps {s₀ s : State} {ctx : Nat} (hK : Keeps s₀ s) : KeepsA s₀ (execCorpusSearch ctx s) := by
  unfold execCorpusSearch
  with_reducible repeat' first
    | assumption | apply State.admitHead_keeps | apply KeepsA.next | dsimp only | split

theorem execScan_keeps {s₀ s : State} {ctx : Nat} (hK : Keeps s₀ s) : KeepsA s₀ (execScan ctx s) := by
  unfold execScan
  with_reducible repeat' first
    | assumption | apply State.admitHead_keeps | apply KeepsA.next | dsimp only | split

theorem execRerank_keeps {s₀ s : State} {ctx : Nat} (hK : Keeps s₀ s) : KeepsA s₀ (execRerank ctx s) := by
  unfold execRerank
  with_reducible repeat' first
    | assumption | apply State.admitHead_keeps | apply KeepsA.next | dsimp only | split

theorem execAttend_keeps {s₀ s : State} {ctx : Nat} (hK : Keeps s₀ s) : KeepsA s₀ (execAttend ctx s) := by
  unfold execAttend
  with_reducible repeat' first
    | assumption | apply State.admitHead_keeps | apply KeepsA.next | dsimp only | split

theorem execKvAppend_keeps {s₀ s : State} {ctx : Nat} (hK : Keeps s₀ s) : KeepsA s₀ (execKvAppend ctx s) := by
  unfold execKvAppend
  with_reducible repeat' first
    | assumption | apply State.admitHead_keeps | apply KeepsA.next | dsimp only | split

theorem execKvTrim_keeps {s₀ s : State} {ctx : Nat} (hK : Keeps s₀ s) : KeepsA s₀ (execKvTrim ctx s) := by
  unfold execKvTrim
  with_reducible repeat' first
    | assumption | apply State.admitHead_keeps | apply KeepsA.next | dsimp only | split

theorem execGather_keeps {s₀ s : State} {ctx : Nat} (hK : Keeps s₀ s) : KeepsA s₀ (execGather ctx s) := by
  unfold execGather
  with_reducible repeat' first
    | assumption | apply State.admitHead_keeps | apply KeepsA.next | dsimp only | split

theorem execScatterUpdate_keeps {s₀ s : State} {ctx : Nat} (hK : Keeps s₀ s) : KeepsA s₀ (execScatterUpdate ctx s) := by
  unfold execScatterUpdate
  with_reducible repeat' first
    | assumption | apply State.admitHead_keeps | apply KeepsA.next | dsimp only | split

theorem execInsert_keeps {s₀ s : State} {ctx : Nat} (hK : Keeps s₀ s) : KeepsA s₀ (execInsert ctx s) := by
  unfold execInsert
  with_reducible repeat' first
    | assumption | apply State.admitHead_keeps | apply KeepsA.next | dsimp only | split

theorem execDelete_keeps {s₀ s : State} {ctx : Nat} (hK : Keeps s₀ s) : KeepsA s₀ (execDelete ctx s) := by
  unfold execDelete
  with_reducible repeat' first
    | assumption | apply State.admitHead_keeps | apply KeepsA.next | dsimp only | split

theorem execConsolidate_keeps {s₀ s : State} {ctx : Nat} (hK : Keeps s₀ s) : KeepsA s₀ (execConsolidate ctx s) := by
  unfold execConsolidate
  with_reducible repeat' first
    | assumption | apply State.admitHead_keeps | apply KeepsA.next | dsimp only | split

theorem execPrefetch_keeps {s₀ s : State} {ctx : Nat} (hK : Keeps s₀ s) : KeepsA s₀ (execPrefetch ctx s) := by
  unfold execPrefetch
  with_reducible repeat' first
    | assumption | apply State.admitHead_keeps | apply KeepsA.next | dsimp only | split

theorem execBuildGraph_keeps {s₀ s : State} {ctx : Nat} (hK : Keeps s₀ s) : KeepsA s₀ (execBuildGraph ctx s) := by
  unfold execBuildGraph
  with_reducible repeat' first
    | assumption | apply State.admitHead_keeps | apply KeepsA.next | dsimp only | split

theorem execCalibrate_keeps {s₀ s : State} {ctx : Nat} (hK : Keeps s₀ s) : KeepsA s₀ (execCalibrate ctx s) := by
  unfold execCalibrate
  with_reducible repeat' first
    | assumption | apply State.admitHead_keeps | apply KeepsA.next | dsimp only | split

theorem execRequant_keeps {s₀ s : State} {ctx : Nat} (hK : Keeps s₀ s) : KeepsA s₀ (execRequant ctx s) := by
  unfold execRequant
  with_reducible repeat' first
    | assumption | apply State.admitHead_keeps | apply KeepsA.next | dsimp only | split

theorem execTopkMerge_keeps {s₀ s : State} {ctx : Nat} (hK : Keeps s₀ s) : KeepsA s₀ (execTopkMerge ctx s) := by
  unfold execTopkMerge
  with_reducible repeat' first
    | assumption | apply State.admitHead_keeps | apply KeepsA.next | dsimp only | split

theorem execCheckpoint_keeps {s₀ s : State} {ctx : Nat} (hK : Keeps s₀ s) : KeepsA s₀ (execCheckpoint ctx s) := by
  unfold execCheckpoint
  with_reducible repeat' first
    | assumption | apply State.admitHead_keeps | apply KeepsA.next | dsimp only | split

theorem execRestore_keeps {s₀ s : State} {ctx : Nat} (hK : Keeps s₀ s) : KeepsA s₀ (execRestore ctx s) := by
  unfold execRestore
  with_reducible repeat' first
    | assumption | apply State.admitHead_keeps | apply KeepsA.next | dsimp only | split

theorem execFlashTrim_keeps {s₀ s : State} {ctx : Nat} (hK : Keeps s₀ s) : KeepsA s₀ (execFlashTrim ctx s) := by
  unfold execFlashTrim
  with_reducible repeat' first
    | assumption | apply State.admitHead_keeps | apply KeepsA.next | dsimp only | split

theorem execFlashRead_keeps {s₀ s : State} {ctx : Nat} (hK : Keeps s₀ s) : KeepsA s₀ (execFlashRead ctx s) := by
  unfold execFlashRead
  with_reducible repeat' first
    | assumption | apply State.admitHead_keeps | apply KeepsA.next | dsimp only | split

theorem execFlashWrite_keeps {s₀ s : State} {ctx : Nat} (hK : Keeps s₀ s) : KeepsA s₀ (execFlashWrite ctx s) := by
  unfold execFlashWrite
  with_reducible repeat' first
    | assumption | apply State.admitHead_keeps | apply KeepsA.next | dsimp only | split

theorem execAdmissionWaitEnd_keeps {s₀ s : State} {cmd : Nat} (hK : Keeps s₀ s) : KeepsA s₀ (execAdmissionWaitEnd cmd s) := by
  unfold execAdmissionWaitEnd
  with_reducible repeat' first
    | assumption | apply State.run_keeps | apply KeepsA.next | dsimp only | split

theorem execSideFull_keeps {s₀ s : State} {cmd : Nat} (hK : Keeps s₀ s) : KeepsA s₀ (execSideFull cmd s) := by
  unfold execSideFull
  with_reducible repeat' first
    | assumption | apply State.turnAway_keeps | apply KeepsA.next | dsimp only | split

theorem execStageResume_keeps {s₀ s : State} {cmd : Nat} (hK : Keeps s₀ s) : KeepsA s₀ (execStageResume cmd s) := by
  unfold execStageResume
  with_reducible repeat' first
    | assumption | apply State.yieldAll_keeps | apply State.run_keeps | apply KeepsA.next | dsimp only | split | refine Keeps.upd ?_ ?_ ?_ ?_ ?_ ?_ | exact fun e => e | exact OtpOnlyAdds.refl _ | exact OtpOnlyAdds.upd | exact Nat.le_refl _ | exact Nat.le_add_right _ _

theorem State.setReader_keeps {s₀ s : State} {r r' : LogReader} (hK : Keeps s₀ s) : Keeps s₀ (State.setReader s r r') := by
  unfold State.setReader
  with_reducible repeat' first
    | assumption | dsimp only | split | refine Keeps.upd ?_ ?_ ?_ ?_ ?_ ?_ | exact fun e => e | exact OtpOnlyAdds.refl _ | exact Nat.le_refl _

theorem State.pushLog_keeps (n : Nat) : ∀ {s₀ s : State} {r : LogReader}, Keeps s₀ s → Keeps s₀ (s.pushLog r n) := by
  induction n with
  | zero => intro s₀ s r h; exact h
  | succ n ih =>
    intro s₀ s r h
    unfold State.pushLog
    split
    · exact h
    · split
      · exact h
      · exact ih (State.setReader_keeps (State.sendMsg_keeps h))

theorem State.pushLogs_keeps {s₀ s : State} (hK : Keeps s₀ s) : Keeps s₀ (State.pushLogs s) := by
  unfold State.pushLogs
  with_reducible repeat' first
    | assumption | apply State.pushLog_keeps | (refine Keeps.foldl (fun h => ?_) _ ?_) | dsimp only | split

theorem State.askLog_keeps {s₀ s : State} {num first : Nat} (hK : Keeps s₀ s) : Keeps s₀ (State.askLog s num first) := by
  unfold State.askLog
  with_reducible repeat' first
    | assumption | apply State.putMsg_keeps | apply State.setShard_keeps | apply State.newTxn_keeps | dsimp only | split

theorem State.addReplay_keeps {s₀ s : State} {part ctx e : Nat} {b : List Byte} (hK : Keeps s₀ s) : Keeps s₀ (State.addReplay s part ctx e b) := by
  unfold State.addReplay
  with_reducible repeat' first
    | assumption | apply State.modCmd_keeps | apply State.addCmd_keeps | dsimp only | split

theorem State.replayGo_keeps {s₀ s : State} {t : Target} (hK : Keeps s₀ s) : Keeps s₀ (State.replayGo s t) := by
  unfold State.replayGo
  with_reducible repeat' first
    | assumption | apply State.run_keeps | dsimp only | split | refine Keeps.upd ?_ ?_ ?_ ?_ ?_ ?_ | exact fun e => e | exact OtpOnlyAdds.refl _ | exact Nat.le_refl _

theorem State.replayFor_keeps {s₀ s : State} {old : State} {c : Cmd} (hK : Keeps s₀ s) : Keeps s₀ (State.replayFor s old c) := by
  unfold State.replayFor
  with_reducible repeat' first
    | assumption | apply State.replayStop_keeps | apply State.askLog_keeps | apply State.addReplay_keeps | apply State.replayGo_keeps | (refine Keeps.foldl (fun h => ?_) _ ?_) | dsimp only | split | refine Keeps.upd ?_ ?_ ?_ ?_ ?_ ?_ | exact fun e => e | exact OtpOnlyAdds.refl _ | exact Nat.le_refl _

theorem State.afterPublish_keeps {s₀ s : State} {old : State} {c : Cmd} (hK : Keeps s₀ s) : Keeps s₀ (State.afterPublish s old c) := by
  unfold State.afterPublish
  with_reducible repeat' first
    | assumption | apply State.pushLogs_keeps | apply State.replayFor_keeps | dsimp only | split

theorem execCommitPhase_keeps {s₀ s : State} {cmd : Nat} (hK : Keeps s₀ s) : KeepsA s₀ (execCommitPhase cmd s) := by
  unfold execCommitPhase
  with_reducible repeat' first
    | assumption | apply State.bump_keeps | apply State.autoNext_keeps | apply State.publish_keeps | apply State.endWork_keeps | apply State.replayGo_keeps | apply State.afterPublish_keeps | (refine Keeps.foldl (fun h => ?_) _ ?_) | apply KeepsA.next | dsimp only | split

theorem execSubBatchStart_keeps {s₀ s : State} {cmd : Nat} (hK : Keeps s₀ s) : KeepsA s₀ (execSubBatchStart cmd s) := by
  unfold execSubBatchStart
  with_reducible repeat' first
    | assumption | apply State.run_keeps | apply KeepsA.next | dsimp only | split

theorem execCommandRerun_keeps {s₀ s : State} {cmd : Nat} (hK : Keeps s₀ s) : KeepsA s₀ (execCommandRerun cmd s) := by
  unfold execCommandRerun
  with_reducible repeat' first
    | assumption | apply State.modCmd_keeps | apply State.run_keeps | apply KeepsA.next | dsimp only | split

end Sys2Proof.Machine
end

