-- ==== Sys2Proof/Laws/KeepHostPorts.lean ====
section
/-! SUPPORT. The operations of Machine/HostPorts.lean keep what every operation keeps. -/

namespace Sys2Proof.Machine

theorem State.submit_keeps {s₀ s : State} {p : Port} {fn ctx : Nat} {dw : List Nat} {torn : Option Nat} (hK : Keeps s₀ s) : Keeps s₀ (State.submit s p fn ctx dw torn) := by
  unfold State.submit
  with_reducible repeat' first
    | assumption | apply State.bump_keeps | apply State.logEvent_keeps | apply State.raiseAt_keeps | apply State.raise_keeps | apply State.disarm_keeps | apply State.refuseCmd_keeps | apply State.faultCtx_keeps | apply State.addCmd_keeps | (refine Keeps.of_fst (by assumption) (State.addCmd_keeps ?_)) | apply State.again_keeps | (refine Keeps.of_fst (by assumption) (State.again_keeps ?_)) | dsimp only | split | refine Keeps.upd ?_ ?_ ?_ ?_ ?_ ?_ | exact fun e => e | exact OtpOnlyAdds.refl _ | exact OtpOnlyAdds.upd | exact Nat.le_refl _ | exact Nat.le_add_right _ _

theorem State.slotByte_keeps {s₀ s : State} {p : Port} {fn ctx off : Nat} {b : Byte} (hK : Keeps s₀ s) : Keeps s₀ (State.slotByte s p fn ctx off b) := by
  unfold State.slotByte
  with_reducible repeat' first
    | assumption | apply State.modPort_keeps | apply State.bump_keeps | apply State.submit_keeps | dsimp only | split

theorem State.windowBytes_keeps {p : Port} {fn ctx : Nat} (l : List Byte) : ∀ {s₀ s : State} {off : Nat}, Keeps s₀ s → Keeps s₀ (s.windowBytes p fn ctx off l) := by
  induction l with
  | nil => intro s₀ s off h; exact h
  | cons b r ih => intro s₀ s off h; exact ih (State.slotByte_keeps h)

theorem execPushWindowWrite_keeps {s₀ s : State} {port : Port} {fn off : Nat} {data : List Byte} (hK : Keeps s₀ s) : KeepsA s₀ (execPushWindowWrite port fn off data s) := by
  unfold execPushWindowWrite
  with_reducible repeat' first
    | assumption | apply State.bump_keeps | apply State.raise_keeps | apply State.windowBytes_keeps | (refine Keeps.foldl (fun h => ?_) _ ?_) | apply KeepsA.next | dsimp only | split

theorem execHostReadCompletion_keeps {s₀ s : State} {cmd key : Nat} {data : List Byte} (hK : Keeps s₀ s) : KeepsA s₀ (execHostReadCompletion cmd key data s) := by
  unfold execHostReadCompletion
  with_reducible repeat' first
    | assumption | apply State.deliver_keeps | apply KeepsA.next | dsimp only | split

theorem execHostReadError_keeps {s₀ s : State} {cmd key : Nat} (hK : Keeps s₀ s) : KeepsA s₀ (execHostReadError cmd key s) := by
  unfold execHostReadError
  with_reducible repeat' first
    | assumption | apply State.bump_keeps | apply State.raiseAt_keeps | apply State.failAny_keeps | apply State.turnAway_keeps | apply KeepsA.next | dsimp only | split

theorem State.ringOn_keeps {s₀ s : State} {p : Port} {ctx v : Nat} (hK : Keeps s₀ s) : Keeps s₀ (State.ringOn s p ctx v) := by
  unfold State.ringOn
  with_reducible repeat' first
    | assumption | apply State.setRing_keeps | apply State.drainRing_keeps | dsimp only | split

theorem State.ringOff_keeps {s₀ s : State} {p : Port} {ctx v : Nat} (hK : Keeps s₀ s) : Keeps s₀ (State.ringOff s p ctx v) := by
  unfold State.ringOff
  with_reducible repeat' first
    | assumption | apply State.setRing_keeps | dsimp only | split

theorem State.ringWrite_keeps {s₀ s : State} {a : Agent} {p : Port} {v : Nat} (hK : Keeps s₀ s) : Keeps s₀ (State.ringWrite s a p v) := by
  unfold State.ringWrite
  with_reducible repeat' first
    | assumption | apply State.ringOn_keeps | apply State.ringOff_keeps | dsimp only | split

theorem execRingEnable_keeps {s₀ s : State} {a : Agent} {port : Port} {v : Nat} (hK : Keeps s₀ s) : KeepsA s₀ (execRingEnable a port v s) := by
  unfold execRingEnable
  with_reducible repeat' first
    | assumption | apply State.ringWrite_keeps | apply KeepsA.next | dsimp only | split

theorem execRingDisable_keeps {s₀ s : State} {a : Agent} {port : Port} {v : Nat} (hK : Keeps s₀ s) : KeepsA s₀ (execRingDisable a port v s) := by
  unfold execRingDisable
  with_reducible repeat' first
    | assumption | apply State.ringWrite_keeps | apply KeepsA.next | dsimp only | split

theorem execMsixCoalesceTimer_keeps {s₀ s : State} {ctx : Nat} (hK : Keeps s₀ s) : KeepsA s₀ (execMsixCoalesceTimer ctx s) := by
  unfold execMsixCoalesceTimer
  with_reducible repeat' first
    | assumption | apply State.setRing_keeps | apply State.sendMsix_keeps | (refine Keeps.foldl (fun h => ?_) _ ?_) | apply KeepsA.next | dsimp only | split

theorem State.msixSet_keeps {s₀ s : State} {p : Port} {fn : Nat} {op : MsixOp} (hK : Keeps s₀ s) : Keeps s₀ (State.msixSet s p fn op) := by
  unfold State.msixSet
  with_reducible repeat' first
    | assumption | apply State.modPort_keeps | apply State.sendMsix_keeps | (refine Keeps.foldl (fun h => ?_) _ ?_) | dsimp only | split

theorem execMsixUnmask_keeps {s₀ s : State} {port : Port} {fn : Nat} {op : MsixOp} (hK : Keeps s₀ s) : KeepsA s₀ (execMsixUnmask port fn op s) := by
  unfold execMsixUnmask
  with_reducible repeat' first
    | assumption | apply State.msixSet_keeps | apply KeepsA.next | dsimp only | split

theorem execPcieLinkDown_keeps {s₀ s : State} {port : Port} (hK : Keeps s₀ s) : KeepsA s₀ (execPcieLinkDown port s) := by
  unfold execPcieLinkDown
  with_reducible repeat' first
    | assumption | apply State.modPort_keeps | apply State.raise_keeps | apply KeepsA.next | dsimp only | split

theorem State.drainAll_keeps {s₀ s : State} {p : Port} (hK : Keeps s₀ s) : Keeps s₀ (State.drainAll s p) := by
  unfold State.drainAll
  with_reducible repeat' first
    | assumption | apply State.drainRing_keeps | (refine Keeps.foldl (fun h => ?_) _ ?_) | dsimp only | split

theorem execPcieLinkUp_keeps {s₀ s : State} {port : Port} {speed width : Nat} {flit : Bool} (hK : Keeps s₀ s) : KeepsA s₀ (execPcieLinkUp port speed width flit s) := by
  unfold execPcieLinkUp
  with_reducible repeat' first
    | assumption | apply State.modPort_keeps | apply State.drainAll_keeps | apply KeepsA.next | dsimp only | split

theorem State.killPart_keeps {s₀ s : State} {p : Port} {part sub : Nat} {discard : Bool} (hK : Keeps s₀ s) : Keeps s₀ (State.killPart s p part sub discard) := by
  unfold State.killPart
  with_reducible repeat' first
    | assumption | apply State.setRing_keeps | apply State.bump_keeps | apply State.raiseAt_keeps | apply State.discard_keeps | apply State.endCmd_keeps | apply State.restartOwn_keeps | (refine Keeps.foldl (fun h => ?_) _ ?_) | (refine Keeps.foldl_fst (fun h => ?_) _ ?_) | (refine Keeps.foldl_snd (fun h => ?_) _ ?_) | dsimp only | split | refine Keeps.upd ?_ ?_ ?_ ?_ ?_ ?_ | exact fun e => e | exact OtpOnlyAdds.refl _ | exact OtpOnlyAdds.upd | exact Nat.le_refl _ | exact Nat.le_add_right _ _

theorem State.endSession_keeps {s₀ s : State} {p : Port} {part : Nat} (hK : Keeps s₀ s) : Keeps s₀ (State.endSession s p part) := by
  unfold State.endSession
  with_reducible repeat' first
    | assumption | dsimp only | split | refine Keeps.upd ?_ ?_ ?_ ?_ ?_ ?_ | exact fun e => e | exact OtpOnlyAdds.upd | exact Nat.le_refl _

theorem State.flrPart_keeps {s₀ s : State} {p : Port} {part : Nat} (hK : Keeps s₀ s) : Keeps s₀ (State.flrPart s p part) := by
  unfold State.flrPart
  with_reducible repeat' first
    | assumption | apply State.modPort_keeps | apply State.setRing_keeps | apply State.killPart_keeps | apply State.endSession_keeps | (refine Keeps.foldl (fun h => ?_) _ ?_) | dsimp only | split

theorem State.portReset_keeps {s₀ s : State} {p : Port} (hK : Keeps s₀ s) : Keeps s₀ (State.portReset s p) := by
  unfold State.portReset
  with_reducible repeat' first
    | assumption | apply State.modPort_keeps | apply State.flrPart_keeps | (refine Keeps.foldl (fun h => ?_) _ ?_) | dsimp only | split

theorem execFunctionLevelReset_keeps {s₀ s : State} {port : Port} {fn : Nat} {whole : Bool} (hK : Keeps s₀ s) : KeepsA s₀ (execFunctionLevelReset port fn whole s) := by
  unfold execFunctionLevelReset
  with_reducible repeat' first
    | assumption | apply State.modPort_keeps | apply State.flrPart_keeps | apply State.portReset_keeps | apply KeepsA.next | dsimp only | split

theorem execPerst_keeps {s₀ s : State} {port : Port} (hK : Keeps s₀ s) : KeepsA s₀ (execPerst port s) := by
  unfold execPerst
  with_reducible repeat' first
    | assumption | apply State.modPort_keeps | apply State.raise_keeps | apply State.portReset_keeps | apply KeepsA.next | dsimp only | split

theorem execRelease_keeps {s₀ s : State} {a : Agent} {port : Port} {mask : Nat} (hK : Keeps s₀ s) : KeepsA s₀ (execRelease a port mask s) := by
  unfold execRelease
  with_reducible repeat' first
    | assumption | apply State.modPort_keeps | apply KeepsA.next | dsimp only | split

theorem State.own_keeps {s₀ s : State} {p : Port} {part : Nat} (h : Keeps s₀ s) : Keeps s₀ (s.own p part) := State.modPort_keeps h

theorem execReleaseComplete_keeps {s₀ s : State} {port : Port} {part : Nat} (hK : Keeps s₀ s) : KeepsA s₀ (execReleaseComplete port part s) := by
  unfold execReleaseComplete
  with_reducible repeat' first
    | assumption | apply State.modPort_keeps | apply State.endSession_keeps | apply State.own_keeps | apply KeepsA.next | dsimp only | split

theorem State.take1_keeps {s₀ s : State} {p : Port} {part : Nat} (hK : Keeps s₀ s) : Keeps s₀ (State.take1 s p part) := by
  unfold State.take1
  with_reducible repeat' first
    | assumption | apply State.modPort_keeps | apply State.own_keeps | dsimp only | split

theorem execTake_keeps {s₀ s : State} {a : Agent} {port : Port} {mask : Nat} (hK : Keeps s₀ s) : KeepsA s₀ (execTake a port mask s) := by
  unfold execTake
  with_reducible repeat' first
    | assumption | apply State.take1_keeps | (refine Keeps.foldl (fun h => ?_) _ ?_) | apply KeepsA.next | dsimp only | split

theorem State.force1_keeps {s₀ s : State} {p : Port} {part : Nat} (hK : Keeps s₀ s) : Keeps s₀ (State.force1 s p part) := by
  unfold State.force1
  with_reducible repeat' first
    | assumption | apply State.modPort_keeps | apply State.setRing_keeps | apply State.raiseAt_keeps | apply State.killPart_keeps | apply State.endSession_keeps | apply State.own_keeps | apply State.take1_keeps | (refine Keeps.foldl (fun h => ?_) _ ?_) | dsimp only | split | refine Keeps.upd ?_ ?_ ?_ ?_ ?_ ?_ | exact fun e => e | exact OtpOnlyAdds.refl _ | exact Nat.le_refl _

theorem execForcedTakeover_keeps {s₀ s : State} {a : Agent} {port : Port} {mask : Nat} (hK : Keeps s₀ s) : KeepsA s₀ (execForcedTakeover a port mask s) := by
  unfold execForcedTakeover
  with_reducible repeat' first
    | assumption | apply State.force1_keeps | (refine Keeps.foldl (fun h => ?_) _ ?_) | apply KeepsA.next | dsimp only | split

theorem execTakeoverGraceExpiry_keeps {s₀ s : State} {port : Port} (hK : Keeps s₀ s) : KeepsA s₀ (execTakeoverGraceExpiry port s) := by
  unfold execTakeoverGraceExpiry
  with_reducible repeat' first
    | assumption | apply State.modPort_keeps | apply KeepsA.next | dsimp only | split

end Sys2Proof.Machine
end

