-- ==== Sys2Proof/Laws/KeepContexts.lean ====
section
/-! SUPPORT. The operations of Machine/Contexts.lean keep what every operation keeps. -/

namespace Sys2Proof.Machine

theorem State.entCtl_keeps {s₀ s : State} {a : Agent} {f : Nat → State} (hf : ∀ {a : State} {n : Nat}, Keeps a s → Keeps a (f n)) (hK : Keeps s₀ s) : Keeps s₀ (State.entCtl s a f) := by
  unfold State.entCtl
  with_reducible repeat' first
    | assumption | apply hf | dsimp only | split

theorem execEnable_keeps {s₀ s : State} {a : Agent} (hK : Keeps s₀ s) : KeepsA s₀ (execEnable a s) := by
  unfold execEnable
  with_reducible repeat' first
    | assumption | apply State.modCtx_keeps | (refine State.entCtl_keeps (fun h => ?_) ?_) | apply KeepsA.next | dsimp only | split

theorem execDisable_keeps {s₀ s : State} {a : Agent} (hK : Keeps s₀ s) : KeepsA s₀ (execDisable a s) := by
  unfold execDisable
  with_reducible repeat' first
    | assumption | apply State.modCtx_keeps | apply State.discard_keeps | apply State.refuseCmd_keeps | (refine State.entCtl_keeps (fun h => ?_) ?_) | (refine Keeps.foldl (fun h => ?_) _ ?_) | apply KeepsA.next | dsimp only | split

theorem execClear_keeps {s₀ s : State} {a : Agent} (hK : Keeps s₀ s) : KeepsA s₀ (execClear a s) := by
  unfold execClear
  with_reducible repeat' first
    | assumption | apply State.modCtx_keeps | (refine State.entCtl_keeps (fun h => ?_) ?_) | apply KeepsA.next | dsimp only | split

theorem execFault_keeps {s₀ s : State} {a : Agent} (hK : Keeps s₀ s) : KeepsA s₀ (execFault a s) := by
  unfold execFault
  with_reducible repeat' first
    | assumption | apply State.faultCtx_keeps | (refine State.entCtl_keeps (fun h => ?_) ?_) | apply KeepsA.next | dsimp only | split

theorem State.unbind_keeps {s₀ s : State} {n : Nat} (hK : Keeps s₀ s) : Keeps s₀ (State.unbind s n) := by
  unfold State.unbind
  with_reducible repeat' first
    | assumption | apply State.dropPf_keeps | dsimp only | split | refine Keeps.upd ?_ ?_ ?_ ?_ ?_ ?_ | exact fun e => e | exact OtpOnlyAdds.refl _ | exact Nat.le_refl _

theorem execUnbind_keeps {s₀ s : State} {a : Agent} (hK : Keeps s₀ s) : KeepsA s₀ (execUnbind a s) := by
  unfold execUnbind
  with_reducible repeat' first
    | assumption | (refine State.entCtl_keeps (fun h => ?_) ?_) | apply State.unbind_keeps | apply KeepsA.next | dsimp only | split

theorem execContextDrained_keeps {s₀ s : State} {ctx : Nat} (hK : Keeps s₀ s) : KeepsA s₀ (execContextDrained ctx s) := by
  unfold execContextDrained
  with_reducible repeat' first
    | assumption | apply State.modCtx_keeps | apply KeepsA.next | dsimp only | split

theorem State.setUnits_keeps {s₀ s : State} {p n : Nat} (hK : Keeps s₀ s) : Keeps s₀ (State.setUnits s p n) := by
  unfold State.setUnits
  with_reducible repeat' first
    | assumption | apply State.modPart_keeps | dsimp only | split

theorem State.setFteUnits_keeps {s₀ s : State} {p n : Nat} (hK : Keeps s₀ s) : Keeps s₀ (State.setFteUnits s p n) := by
  unfold State.setFteUnits
  with_reducible repeat' first
    | assumption | apply State.modPart_keeps | dsimp only | split

theorem execCtxPartSramWrite_keeps {s₀ s : State} {a : Agent} {v : Nat} (hK : Keeps s₀ s) : KeepsA s₀ (execCtxPartSramWrite a v s) := by
  unfold execCtxPartSramWrite
  with_reducible repeat' first
    | assumption | apply State.raiseAt_keeps | apply State.setUnits_keeps | apply State.setFteUnits_keeps | apply KeepsA.next | dsimp only | split

theorem execSramShrinkDone_keeps {s₀ s : State} {part : Nat} (hK : Keeps s₀ s) : KeepsA s₀ (execSramShrinkDone part s) := by
  unfold execSramShrinkDone
  with_reducible repeat' first
    | assumption | apply State.modPart_keeps | apply KeepsA.next | dsimp only | split

theorem execQuantumExpiry_keeps {s₀ s : State} {part : Nat} (hK : Keeps s₀ s) : KeepsA s₀ (execQuantumExpiry part s) := by
  unfold execQuantumExpiry
  with_reducible repeat' first
    | assumption | apply State.modPart_keeps | apply KeepsA.next | dsimp only | split

theorem State.runFrets_keeps {s₀ s : State} {n : Nat} (hK : Keeps s₀ s) : Keeps s₀ (State.runFrets s n) := by
  unfold State.runFrets
  with_reducible repeat' first
    | assumption | apply State.run_keeps | (refine Keeps.foldl (fun h => ?_) _ ?_) | dsimp only | split

theorem State.goOnTurn_keeps {s₀ s : State} {p n : Nat} (hK : Keeps s₀ s) : Keeps s₀ (State.goOnTurn s p n) := by
  unfold State.goOnTurn
  with_reducible repeat' first
    | assumption | apply State.modPart_keeps | apply State.runFrets_keeps | dsimp only | split | refine Keeps.upd ?_ ?_ ?_ ?_ ?_ ?_ | exact fun e => e | exact OtpOnlyAdds.refl _ | exact OtpOnlyAdds.upd | exact Nat.le_refl _ | exact Nat.le_add_right _ _

theorem State.takeTurn_keeps {s₀ s : State} {p n : Nat} (hK : Keeps s₀ s) : Keeps s₀ (State.takeTurn s p n) := by
  unfold State.takeTurn
  with_reducible repeat' first
    | assumption | apply State.modPart_keeps | apply State.runFrets_keeps | dsimp only | split | refine Keeps.upd ?_ ?_ ?_ ?_ ?_ ?_ | exact fun e => e | exact OtpOnlyAdds.refl _ | exact OtpOnlyAdds.upd | exact Nat.le_refl _ | exact Nat.le_add_right _ _

theorem State.switchTo_keeps {s₀ s : State} {p n : Nat} (hK : Keeps s₀ s) : Keeps s₀ (State.switchTo s p n) := by
  unfold State.switchTo
  with_reducible repeat' first
    | assumption | apply State.bump_keeps | apply State.scrubSlice_keeps | apply State.takeTurn_keeps | dsimp only | split

theorem execContextSwitch_keeps {s₀ s : State} {part : Nat} (hK : Keeps s₀ s) : KeepsA s₀ (execContextSwitch part s) := by
  unfold execContextSwitch
  with_reducible repeat' first
    | assumption | apply State.modPart_keeps | apply State.goOnTurn_keeps | apply State.takeTurn_keeps | apply State.switchTo_keeps | apply KeepsA.next | dsimp only | split | refine Keeps.upd ?_ ?_ ?_ ?_ ?_ ?_ | exact fun e => e | exact OtpOnlyAdds.refl _ | exact OtpOnlyAdds.upd | exact Nat.le_refl _ | exact Nat.le_add_right _ _

theorem State.kill_keeps {s₀ s : State} {c : Cmd} (hK : Keeps s₀ s) : Keeps s₀ (State.kill s c) := by
  unfold State.kill
  with_reducible repeat' first
    | assumption | apply State.modCtx_keeps | apply State.modCmd_keeps | apply State.bump_keeps | apply State.discard_keeps | apply State.failAny_keeps | dsimp only | split

theorem execPreemption_keeps {s₀ s : State} {cmd : Nat} (hK : Keeps s₀ s) : KeepsA s₀ (execPreemption cmd s) := by
  unfold execPreemption
  with_reducible repeat' first
    | assumption | apply State.modPart_keeps | apply State.kill_keeps | apply KeepsA.next | dsimp only | split

theorem State.drainTx_keeps {p : Nat} (l : List Msg) : ∀ {s₀ s : State}, Keeps s₀ s → Keeps s₀ (s.drainTx p l) := by
  induction l with
  | nil => intro s₀ s h; exact h
  | cons m r ih =>
    intro s₀ s h
    have k : Keeps s₀ { s with fab := { s.fab with txq := s.fab.txq ++ [m] } } := Keeps.upd h (fun e => e) (.refl _) (Nat.le_refl _) (Nat.le_refl _) (Nat.le_refl _)
    unfold State.drainTx
    split
    · exact ih k
    · split
      · rename_i e; exact ih (State.putMsg_keeps (State.charge_keeps e h))
      · exact ih k

theorem State.releaseCapos_keeps {s₀ s : State} {p : Nat} (hK : Keeps s₀ s) : Keeps s₀ (State.releaseCapos s p) := by
  unfold State.releaseCapos
  with_reducible repeat' first
    | assumption | apply State.run_keeps | apply State.drainTx_keeps | (refine Keeps.foldl (fun h => ?_) _ ?_) | dsimp only | split | refine Keeps.upd ?_ ?_ ?_ ?_ ?_ ?_ | exact fun e => e | exact OtpOnlyAdds.refl _ | exact Nat.le_refl _

theorem execCapoRefill_keeps {s₀ s : State} {part : Nat} (hK : Keeps s₀ s) : KeepsA s₀ (execCapoRefill part s) := by
  unfold execCapoRefill
  with_reducible repeat' first
    | assumption | apply State.modPart_keeps | apply State.releaseCapos_keeps | apply KeepsA.next | dsimp only | split

theorem execCapoDepthWrite_keeps {s₀ s : State} {a : Agent} {part r : Nat} {peak : Bool} {v : Nat} (hK : Keeps s₀ s) : KeepsA s₀ (execCapoDepthWrite a part r peak v s) := by
  unfold execCapoDepthWrite
  with_reducible repeat' first
    | assumption | apply State.modCapo_keeps | apply KeepsA.next | dsimp only | split

end Sys2Proof.Machine
end

