-- ==== Sys2Proof/Laws/KeepArray.lean ====
section
/-! SUPPORT. The operations of Machine/Array.lean keep what every operation keeps. -/

namespace Sys2Proof.Machine

theorem State.fenceCourse_keeps {s₀ s : State} {n src : Nat} (hK : Keeps s₀ s) : Keeps s₀ (State.fenceCourse s n src) := by
  unfold State.fenceCourse
  with_reducible repeat' first
    | assumption | apply State.logEvent_keeps | dsimp only | split | refine Keeps.upd ?_ ?_ ?_ ?_ ?_ ?_ | exact fun e => e | exact OtpOnlyAdds.refl _ | exact Nat.le_refl _

theorem State.joinCourse_keeps {s₀ s : State} {n : Nat} (hK : Keeps s₀ s) : Keeps s₀ (State.joinCourse s n) := by
  unfold State.joinCourse
  with_reducible repeat' first
    | assumption | dsimp only | split | refine Keeps.upd ?_ ?_ ?_ ?_ ?_ ?_ | exact fun e => e | exact OtpOnlyAdds.refl _ | exact Nat.le_refl _

theorem State.applyCourses_keeps {s₀ s : State} {l : List Nat} (hK : Keeps s₀ s) : Keeps s₀ (State.applyCourses s l) := by
  unfold State.applyCourses
  with_reducible repeat' first
    | assumption | apply State.fenceCourse_keeps | apply State.joinCourse_keeps | (refine Keeps.foldl (fun h => ?_) _ ?_) | dsimp only | split

theorem State.settleCourse_keeps {s₀ s : State} {n : Nat} (hK : Keeps s₀ s) : Keeps s₀ (State.settleCourse s n) := by
  unfold State.settleCourse
  with_reducible repeat' first
    | assumption | apply State.applyCourses_keeps | dsimp only | split

theorem State.arrayDead_keeps {s₀ s : State} {p : Nat} (hK : Keeps s₀ s) : Keeps s₀ (State.arrayDead s p) := by
  unfold State.arrayDead
  with_reducible repeat' first
    | assumption | apply State.failAny_keeps | (refine Keeps.foldl (fun h => ?_) _ ?_) | dsimp only | split | refine Keeps.upd ?_ ?_ ?_ ?_ ?_ ?_ | exact fun e => e | exact OtpOnlyAdds.refl _ | exact Nat.le_refl _

theorem State.tilesBack_keeps {s₀ s : State} {n p : Nat} {o : ArrOp} (hK : Keeps s₀ s) : Keeps s₀ (State.tilesBack s n p o) := by
  unfold State.tilesBack
  with_reducible repeat' first
    | assumption | apply State.bump_keeps | apply State.raiseAt_keeps | apply State.arrayDead_keeps | dsimp only | split | refine Keeps.upd ?_ ?_ ?_ ?_ ?_ ?_ | exact fun e => e | exact OtpOnlyAdds.refl _ | exact Nat.le_refl _

theorem State.leaveWave_keeps {s₀ s : State} {n : Nat} (hK : Keeps s₀ s) : Keeps s₀ (State.leaveWave s n) := by
  unfold State.leaveWave
  with_reducible repeat' first
    | assumption | apply State.tilesBack_keeps | dsimp only | split

theorem State.courseError_keeps {s₀ s : State} {n : Nat} (hK : Keeps s₀ s) : Keeps s₀ (State.courseError s n) := by
  unfold State.courseError
  with_reducible repeat' first
    | assumption | apply State.bump_keeps | apply State.raiseAt_keeps | apply State.fenceCourse_keeps | apply State.leaveWave_keeps | dsimp only | split

theorem execCourseParityError_keeps {s₀ s : State} {course : Nat} (hK : Keeps s₀ s) : KeepsA s₀ (execCourseParityError course s) := by
  unfold execCourseParityError
  with_reducible repeat' first
    | assumption | apply State.courseError_keeps | apply KeepsA.next | dsimp only | split

theorem State.endWave_keeps {s₀ s : State} {p : Nat} {o : ArrOp} (hK : Keeps s₀ s) : Keeps s₀ (State.endWave s p o) := by
  unfold State.endWave
  with_reducible repeat' first
    | assumption | apply State.modPart_keeps | apply State.bump_keeps | apply State.bumps_keeps | apply State.chargeFree_keeps | apply State.deliver_keeps | (refine Keeps.foldl (fun h => ?_) _ ?_) | dsimp only | split | refine Keeps.upd ?_ ?_ ?_ ?_ ?_ ?_ | exact fun e => e | exact OtpOnlyAdds.refl _ | exact Nat.le_refl _

theorem State.startWave_keeps {s₀ s : State} {p last : Nat} (hK : Keeps s₀ s) : Keeps s₀ (State.startWave s p last) := by
  unfold State.startWave
  with_reducible repeat' first
    | assumption | apply State.modPart_keeps | apply State.disarm_keeps | apply State.noteHeld_keeps | apply State.arrayDead_keeps | apply State.courseError_keeps | (refine Keeps.foldl (fun h => ?_) _ ?_) | dsimp only | split | refine Keeps.upd ?_ ?_ ?_ ?_ ?_ ?_ | exact fun e => e | exact OtpOnlyAdds.refl _ | exact Nat.le_refl _

theorem State.switchBit_keeps {s₀ s : State} {d : Nat} {on : Bool} (hK : Keeps s₀ s) : Keeps s₀ (State.switchBit s d on) := by
  unfold State.switchBit
  with_reducible repeat' first
    | assumption | apply State.bump_keeps | apply State.logEvent_keeps | dsimp only | split | refine Keeps.upd ?_ ?_ ?_ ?_ ?_ ?_ | exact fun e => e | exact OtpOnlyAdds.refl _ | exact Nat.le_refl _

theorem State.leaveDomains_keeps {s₀ s : State} (hK : Keeps s₀ s) : Keeps s₀ (State.leaveDomains s) := by
  unfold State.leaveDomains
  with_reducible repeat' first
    | assumption | apply State.switchBit_keeps | (refine Keeps.foldl (fun h => ?_) _ ?_) | dsimp only | split | refine Keeps.upd ?_ ?_ ?_ ?_ ?_ ?_ | exact fun e => e | exact OtpOnlyAdds.refl _ | exact OtpOnlyAdds.upd | exact Nat.le_refl _ | exact Nat.le_add_right _ _

theorem execWaveBoundary_keeps {s₀ s : State} {part : Nat} (hK : Keeps s₀ s) : KeepsA s₀ (execWaveBoundary part s) := by
  unfold execWaveBoundary
  with_reducible repeat' first
    | assumption | apply State.applyCourses_keeps | apply State.endWave_keeps | apply State.startWave_keeps | apply State.leaveDomains_keeps | apply KeepsA.next | dsimp only | split | refine Keeps.upd ?_ ?_ ?_ ?_ ?_ ?_ | exact fun e => e | exact OtpOnlyAdds.refl _ | exact OtpOnlyAdds.upd | exact Nat.le_refl _ | exact Nat.le_add_right _ _

theorem State.writeFence_keeps {s₀ s : State} {n : Nat} {fence : Bool} (hK : Keeps s₀ s) : Keeps s₀ (State.writeFence s n fence) := by
  unfold State.writeFence
  with_reducible repeat' first
    | assumption | apply State.settleCourse_keeps | dsimp only | split | refine Keeps.upd ?_ ?_ ?_ ?_ ?_ ?_ | exact fun e => e | exact OtpOnlyAdds.refl _ | exact Nat.le_refl _

theorem execCourseFenceWrite_keeps {s₀ s : State} {a : Agent} {course : Nat} {fence : Bool} (hK : Keeps s₀ s) : KeepsA s₀ (execCourseFenceWrite a course fence s) := by
  unfold execCourseFenceWrite
  with_reducible repeat' first
    | assumption | apply State.writeFence_keeps | apply KeepsA.next | dsimp only | split

theorem execCourseSelftestDone_keeps {s₀ s : State} {course : Nat} {pass : Bool} (hK : Keeps s₀ s) : KeepsA s₀ (execCourseSelftestDone course pass s) := by
  unfold execCourseSelftestDone
  with_reducible repeat' first
    | assumption | apply State.raiseAt_keeps | apply State.fenceCourse_keeps | apply State.settleCourse_keeps | apply KeepsA.next | dsimp only | split | refine Keeps.upd ?_ ?_ ?_ ?_ ?_ ?_ | exact fun e => e | exact OtpOnlyAdds.refl _ | exact Nat.le_refl _

end Sys2Proof.Machine
end

