-- ==== Sys2Proof/Laws/KeepRounds.lean ====
section
/-! SUPPORT. The operations of Machine/Rounds.lean keep what every operation keeps. -/

namespace Sys2Proof.Machine

theorem State.setWalk_keeps {s₀ s : State} {w : Walk} (hK : Keeps s₀ s) : Keeps s₀ (State.setWalk s w) := by
  unfold State.setWalk
  with_reducible repeat' first
    | assumption | dsimp only | split | refine Keeps.upd ?_ ?_ ?_ ?_ ?_ ?_ | exact fun e => e | exact OtpOnlyAdds.refl _ | exact Nat.le_refl _

theorem State.walksDone_keeps {s₀ s : State} {id : Nat} (hK : Keeps s₀ s) : Keeps s₀ (State.walksDone s id) := by
  unfold State.walksDone
  with_reducible repeat' first
    | assumption | apply State.run_keeps | dsimp only | split

theorem State.walkHalt_keeps {s₀ s : State} {w : Walk} {x : Halt} (h : Keeps s₀ s) : Keeps s₀ (s.walkHalt w x) := by
  unfold State.walkHalt
  with_reducible repeat' first
    | assumption | apply State.failAny_keeps | split

theorem State.walkStands_keeps {s₀ s : State} {old w : Walk} {bumps : List (Nat × Nat)} (hK : Keeps s₀ s) : Keeps s₀ (State.walkStands s old w bumps) := by
  unfold State.walkStands
  with_reducible repeat' first
    | assumption | apply State.bump_keeps | apply State.bumps_keeps | apply State.pumpDies_keeps | apply State.setWalk_keeps | apply State.walksDone_keeps | dsimp only | split | refine Keeps.upd ?_ ?_ ?_ ?_ ?_ ?_ | exact fun e => e | exact OtpOnlyAdds.refl _ | exact OtpOnlyAdds.upd | exact Nat.le_refl _ | exact Nat.le_add_right _ _

theorem execWalkStart_keeps {s₀ s : State} {walk : Nat} (hK : Keeps s₀ s) : KeepsA s₀ (execWalkStart walk s) := by
  unfold execWalkStart
  with_reducible repeat' first
    | assumption | apply State.walkHalt_keeps | apply State.walkStands_keeps | apply KeepsA.next | dsimp only | split | refine Keeps.upd ?_ ?_ ?_ ?_ ?_ ?_ | exact fun e => e | exact OtpOnlyAdds.refl _ | exact Nat.le_refl _

theorem State.expansionRec_keeps {s₀ s : State} {c : Cmd} {v : SView} {id : Nat} {t : State} {x : Option Adj × Bool} (e : s.expansionRec c v id = .ok (t, x))
    (h : Keeps s₀ s) : Keeps s₀ t := by
  unfold State.expansionRec at e
  repeat' split at e
  all_goals first
    | (cases e; exact h)
    | cases e

theorem execExpansionComplete_keeps {s₀ s : State} {walk slot : Nat} (hK : Keeps s₀ s) : KeepsA s₀ (execExpansionComplete walk slot s) := by
  unfold execExpansionComplete
  with_reducible repeat' first
    | assumption | apply State.raiseAt_keeps | apply State.walkHalt_keeps | apply State.walkStands_keeps | (refine State.expansionRec_keeps (by assumption) ?_) | apply KeepsA.next | dsimp only | split

theorem execSideStrumBatch_keeps {s₀ s : State} {shard : Nat} (hK : Keeps s₀ s) : KeepsA s₀ (execSideStrumBatch shard s) := by
  unfold execSideStrumBatch
  with_reducible repeat' first
    | assumption | apply State.modPart_keeps | apply State.bump_keeps | apply State.bumps_keeps | apply State.chargeFree_keeps | apply State.setWalk_keeps | apply State.walksDone_keeps | apply State.walkHalt_keeps | (refine Keeps.foldl (fun h => ?_) _ ?_) | apply KeepsA.next | dsimp only | split

theorem State.startOwn_keeps {s₀ s : State} {part ctx : Nat} {dw : List Nat} {old : Option Cmd} (hK : Keeps s₀ s) : Keeps s₀ (State.startOwn s part ctx dw old) := by
  unfold State.startOwn
  with_reducible repeat' first
    | assumption | apply State.addCmd_keeps | apply State.run_keeps | dsimp only | split

theorem execAutoConsolidate_keeps {s₀ s : State} {shard : Nat} (hK : Keeps s₀ s) : KeepsA s₀ (execAutoConsolidate shard s) := by
  unfold execAutoConsolidate
  with_reducible repeat' first
    | assumption | apply State.startOwn_keeps | apply KeepsA.next | dsimp only | split

theorem execSweepBatch_keeps {s₀ s : State} {shard : Nat} (hK : Keeps s₀ s) : KeepsA s₀ (execSweepBatch shard s) := by
  unfold execSweepBatch
  with_reducible repeat' first
    | assumption | apply State.setShard_keeps | apply State.startOwn_keeps | apply KeepsA.next | dsimp only | split

theorem execMigrationPass_keeps {s₀ s : State} {ctx layer : Nat} (hK : Keeps s₀ s) : KeepsA s₀ (execMigrationPass ctx layer s) := by
  unfold execMigrationPass
  with_reducible repeat' first
    | assumption | apply State.setRegion_keeps | apply State.startOwn_keeps | apply KeepsA.next | dsimp only | split

theorem execAutoFullCheckpoint_keeps {s₀ s : State} {target : Nat} (hK : Keeps s₀ s) : KeepsA s₀ (execAutoFullCheckpoint target s) := by
  unfold execAutoFullCheckpoint
  with_reducible repeat' first
    | assumption | apply State.startOwn_keeps | apply KeepsA.next | dsimp only | split

theorem execPeriodicCheckpoint_keeps {s₀ s : State} {target : Nat} (hK : Keeps s₀ s) : KeepsA s₀ (execPeriodicCheckpoint target s) := by
  unfold execPeriodicCheckpoint
  with_reducible repeat' first
    | assumption | apply State.setArea_keeps | apply State.startOwn_keeps | apply KeepsA.next | dsimp only | split

theorem execOverlayFold_keeps {s₀ s : State} {fret base : Nat} (hK : Keeps s₀ s) : KeepsA s₀ (execOverlayFold fret base s) := by
  unfold execOverlayFold
  with_reducible repeat' first
    | assumption | apply State.foldOverlay_keeps | apply State.yieldAll_keeps | apply KeepsA.next | dsimp only | split | refine Keeps.upd ?_ ?_ ?_ ?_ ?_ ?_ | exact fun e => e | exact OtpOnlyAdds.refl _ | exact OtpOnlyAdds.upd | exact Nat.le_refl _ | exact Nat.le_add_right _ _

end Sys2Proof.Machine
end

