-- ==== Sys2Proof/Laws/KeepLinks.lean ====
section
/-! SUPPORT. The operations of Machine/Links.lean keep what every operation keeps. -/

namespace Sys2Proof.Machine

theorem State.linkTo_keeps {s₀ s : State} {l : Nat} {x : LinkSt} {st : LinkState} (hK : Keeps s₀ s) : Keeps s₀ (State.linkTo s l x st) := by
  unfold State.linkTo
  with_reducible repeat' first
    | assumption | apply State.logEvent_keeps | apply State.setLink_keeps | dsimp only | split

theorem State.buildRoutes_keeps {s₀ s : State} (hK : Keeps s₀ s) : Keeps s₀ (State.buildRoutes s) := by
  unfold State.buildRoutes
  with_reducible repeat' first
    | assumption | dsimp only | split | refine Keeps.upd ?_ ?_ ?_ ?_ ?_ ?_ | exact fun e => e | exact OtpOnlyAdds.refl _ | exact Nat.le_refl _

theorem State.dropReq_keeps {s₀ s : State} {txn : Nat} (hK : Keeps s₀ s) : Keeps s₀ (State.dropReq s txn) := by
  unfold State.dropReq
  with_reducible repeat' first
    | assumption | dsimp only | split | refine Keeps.upd ?_ ?_ ?_ ?_ ?_ ?_ | exact fun e => e | exact OtpOnlyAdds.refl _ | exact Nat.le_refl _

theorem State.setReq_keeps {s₀ s : State} {r : Req} (hK : Keeps s₀ s) : Keeps s₀ (State.setReq s r) := by
  unfold State.setReq
  with_reducible repeat' first
    | assumption | dsimp only | split | refine Keeps.upd ?_ ?_ ?_ ?_ ?_ ?_ | exact fun e => e | exact OtpOnlyAdds.refl _ | exact Nat.le_refl _

theorem goOn_keeps {s₀ : State} {id : Nat} {r : State × Bool} (h : Keeps s₀ r.1) : Keeps s₀ (goOn id r) := by
  unfold goOn
  split
  · exact State.run_keeps h
  · exact h

theorem State.endColl_keeps {s₀ s : State} {k : Coll} {rootSt tellSt sub : Nat} (hK : Keeps s₀ s) : Keeps s₀ (State.endColl s k rootSt tellSt sub) := by
  unfold State.endColl
  with_reducible repeat' first
    | assumption | apply State.delColl_keeps | apply State.collTell_keeps | apply State.failAny_keeps | dsimp only | split

theorem State.lostMsg_keeps {s₀ s : State} {m : Msg} (hK : Keeps s₀ s) : Keeps s₀ (State.lostMsg s m) := by
  unfold State.lostMsg
  with_reducible repeat' first
    | assumption | apply State.bump_keeps | apply State.raise_keeps | apply State.delBar_keeps | apply State.replayStop_keeps | apply State.failAny_keeps | apply State.poolLost_keeps | apply State.noOwner_keeps | apply State.dropReq_keeps | apply goOn_keeps | apply State.endColl_keeps | dsimp only | split

theorem State.refuseMsg_keeps {s₀ s : State} {m : Msg} {reason : Nat} (hK : Keeps s₀ s) : Keeps s₀ (State.refuseMsg s m reason) := by
  unfold State.refuseMsg
  with_reducible repeat' first
    | assumption | apply State.putMsg_keeps | dsimp only | split

theorem State.unreachable_keeps {s₀ s : State} {m : Msg} (hK : Keeps s₀ s) : Keeps s₀ (State.unreachable s m) := by
  unfold State.unreachable
  with_reducible repeat' first
    | assumption | apply State.noRoute_keeps | apply State.lostMsg_keeps | apply State.refuseMsg_keeps | dsimp only | split

theorem State.resend_keeps {s₀ s : State} {m : Msg} {low : Bool} (h : Keeps s₀ s) : Keeps s₀ (s.resend m low) := by
  unfold State.resend
  with_reducible repeat' first
    | assumption | apply State.trySend_keeps | apply State.bump_keeps | apply State.unreachable_keeps | dsimp only | split

theorem State.linkLost_keeps {s₀ s : State} {l : Nat} {st : LinkState} (hK : Keeps s₀ s) : Keeps s₀ (State.linkLost s l st) := by
  unfold State.linkLost
  with_reducible repeat' first
    | assumption | apply State.linkTo_keeps | apply State.resend_keeps | (refine Keeps.foldl (fun h => ?_) _ ?_) | dsimp only | split

theorem State.quarantine_keeps {s₀ s : State} {l : Nat} (hK : Keeps s₀ s) : Keeps s₀ (State.quarantine s l) := by
  unfold State.quarantine
  with_reducible repeat' first
    | assumption | apply State.bump_keeps | apply State.raise_keeps | apply State.setLink_keeps | apply State.linkLost_keeps | dsimp only | split

theorem State.retrain_keeps {s₀ s : State} {l lanes : Nat} (hK : Keeps s₀ s) : Keeps s₀ (State.retrain s l lanes) := by
  unfold State.retrain
  with_reducible repeat' first
    | assumption | apply State.bump_keeps | apply State.setLink_keeps | apply State.linkTo_keeps | apply State.quarantine_keeps | dsimp only | split

theorem State.replayFrom_keeps {s₀ s : State} {l seq : Nat} (hK : Keeps s₀ s) : Keeps s₀ (State.replayFrom s l seq) := by
  unfold State.replayFrom
  with_reducible repeat' first
    | assumption | apply State.bump_keeps | apply State.setLink_keeps | apply State.retrain_keeps | dsimp only | split

theorem execReplayTimeout_keeps {s₀ s : State} {link : Nat} (hK : Keeps s₀ s) : KeepsA s₀ (execReplayTimeout link s) := by
  unfold execReplayTimeout
  with_reducible repeat' first
    | assumption | apply State.replayFrom_keeps | apply KeepsA.next | dsimp only | split

theorem State.linkUp_keeps {s₀ s : State} {l : Nat} {h : Hello} {ver : Nat} (hK : Keeps s₀ s) : Keeps s₀ (State.linkUp s l h ver) := by
  unfold State.linkUp
  with_reducible repeat' first
    | assumption | apply State.raise_keeps | apply State.linkTo_keeps | apply State.buildRoutes_keeps | dsimp only | split

theorem State.stayDown_keeps {s₀ s : State} {l : Nat} (hK : Keeps s₀ s) : Keeps s₀ (State.stayDown s l) := by
  unfold State.stayDown
  with_reducible repeat' first
    | assumption | apply State.linkTo_keeps | dsimp only | split

theorem execHello_keeps {s₀ s : State} {link : Nat} {h : Hello} (hK : Keeps s₀ s) : KeepsA s₀ (execHello link h s) := by
  unfold execHello
  with_reducible repeat' first
    | assumption | apply State.raise_keeps | apply State.pump_keeps | apply State.linkTo_keeps | apply State.replayFrom_keeps | apply State.linkUp_keeps | apply State.stayDown_keeps | apply KeepsA.next | dsimp only | split | refine Keeps.upd ?_ ?_ ?_ ?_ ?_ ?_ | exact fun e => e | exact OtpOnlyAdds.refl _ | exact OtpOnlyAdds.upd | exact Nat.le_refl _ | exact Nat.le_add_right _ _

theorem State.controlFlit_keeps {s₀ s : State} {l : Nat} {data : List Byte} (hK : Keeps s₀ s) : Keeps s₀ (State.controlFlit s l data) := by
  unfold State.controlFlit
  with_reducible repeat' first
    | assumption | apply State.setLink_keeps | apply State.replayFrom_keeps | dsimp only | split

theorem execFlitReceive_keeps {s₀ s : State} {link : Nat} {flit : List Byte} {fec : Fec} (hK : Keeps s₀ s) : KeepsA s₀ (execFlitReceive link flit fec s) := by
  unfold execFlitReceive
  with_reducible repeat' first
    | assumption | apply State.bump_keeps | apply State.bumps_keeps | apply State.raise_keeps | apply State.setLink_keeps | apply State.pump_keeps | apply State.controlFlit_keeps | apply KeepsA.next | dsimp only | split

theorem execLaneFail_keeps {s₀ s : State} {link lane : Nat} (hK : Keeps s₀ s) : KeepsA s₀ (execLaneFail link lane s) := by
  unfold execLaneFail
  with_reducible repeat' first
    | assumption | apply State.bump_keeps | apply State.raise_keeps | apply State.setLink_keeps | apply State.linkLost_keeps | apply State.retrain_keeps | apply KeepsA.next | dsimp only | split

theorem execRetrainTimeout_keeps {s₀ s : State} {link : Nat} (hK : Keeps s₀ s) : KeepsA s₀ (execRetrainTimeout link s) := by
  unfold execRetrainTimeout
  with_reducible repeat' first
    | assumption | apply State.raise_keeps | apply State.linkLost_keeps | apply KeepsA.next | dsimp only | split

theorem execQuarantineRetry_keeps {s₀ s : State} {link : Nat} {ok : Bool} (hK : Keeps s₀ s) : KeepsA s₀ (execQuarantineRetry link ok s) := by
  unfold execQuarantineRetry
  with_reducible repeat' first
    | assumption | apply State.bump_keeps | apply State.raise_keeps | apply State.setLink_keeps | apply State.linkTo_keeps | apply State.retrain_keeps | apply KeepsA.next | dsimp only | split

theorem execFlapWindowEnd_keeps {s₀ s : State} {link : Nat} (hK : Keeps s₀ s) : KeepsA s₀ (execFlapWindowEnd link s) := by
  unfold execFlapWindowEnd
  with_reducible repeat' first
    | assumption | apply State.setLink_keeps | apply KeepsA.next | dsimp only | split

end Sys2Proof.Machine
end

