-- ==== Sys2Proof/Laws/KeepFabric.lean ====
section
/-! SUPPORT. The operations of Machine/Fabric.lean keep what every operation keeps. -/

namespace Sys2Proof.Machine

theorem State.unbuffer_keeps {s₀ s : State} {m : Msg} (hK : Keeps s₀ s) : Keeps s₀ (State.unbuffer s m) := by
  unfold State.unbuffer
  with_reducible repeat' first
    | assumption | apply State.setLink_keeps | apply State.pump_keeps | dsimp only | split

theorem State.relay_keeps {s₀ s : State} {m : Msg} {low : Bool} (hK : Keeps s₀ s) : Keeps s₀ (State.relay s m low) := by
  unfold State.relay
  with_reducible repeat' first
    | assumption | apply State.bump_keeps | apply State.enqueue_keeps | apply State.refuseMsg_keeps | dsimp only | split | refine Keeps.upd ?_ ?_ ?_ ?_ ?_ ?_ | exact fun e => e | exact OtpOnlyAdds.refl _ | exact OtpOnlyAdds.upd | exact Nat.le_refl _ | exact Nat.le_add_right _ _

theorem State.keepPair_keeps {s₀ s : State} {m : Msg} (hK : Keeps s₀ s) : Keeps s₀ (State.keepPair s m) := by
  unfold State.keepPair
  with_reducible repeat' first
    | assumption | apply State.bump_keeps | dsimp only | split | refine Keeps.upd ?_ ?_ ?_ ?_ ?_ ?_ | exact fun e => e | exact OtpOnlyAdds.refl _ | exact Nat.le_refl _

theorem State.police_keeps {s₀ s : State} {m : Msg} {part : Nat} (hK : Keeps s₀ s) : Keeps s₀ (State.police s m part).1 := by
  unfold State.police
  with_reducible repeat' first
    | assumption | apply State.bump_keeps | apply State.raiseAt_keeps | apply State.take_keeps | apply State.refuseMsg_keeps | dsimp only | split

theorem State.receive_keeps {s₀ s : State} {m : Msg} (hK : Keeps s₀ s) : Keeps s₀ (State.receive s m).1 := by
  unfold State.receive
  with_reducible repeat' first
    | assumption | apply State.bump_keeps | apply State.putMsg_keeps | apply State.unbuffer_keeps | apply State.relay_keeps | apply State.keepPair_keeps | dsimp only | split | refine Keeps.upd ?_ ?_ ?_ ?_ ?_ ?_ | exact fun e => e | exact OtpOnlyAdds.refl _ | exact Nat.le_refl _

theorem State.onMsg_keeps {s₀ s : State} {ty : Nat} {m : Msg} {f : State → State} (hf : ∀ {a b : State}, Keeps a b → Keeps a (f b)) (hK : Keeps s₀ s) : Keeps s₀ (State.onMsg s ty m f) := by
  unfold State.onMsg
  with_reducible repeat' first
    | assumption | apply State.receive_keeps | apply hf | dsimp only | split

theorem execDupPairExpiry_keeps {s₀ s : State} {src txn : Nat} (hK : Keeps s₀ s) : KeepsA s₀ (execDupPairExpiry src txn s) := by
  unfold execDupPairExpiry
  with_reducible repeat' first
    | assumption | apply KeepsA.next | dsimp only | split | refine Keeps.upd ?_ ?_ ?_ ?_ ?_ ?_ | exact fun e => e | exact OtpOnlyAdds.refl _ | exact Nat.le_refl _

theorem State.poolAccess_keeps {s₀ s : State} {w : List Nat} {part : Nat} {m : Msg} (hK : Keeps s₀ s) : Keeps s₀ (State.poolAccess s w part m) := by
  unfold State.poolAccess
  with_reducible repeat' first
    | assumption | apply State.hbmWrite_keeps | apply State.putMsg_keeps | apply State.sendMsg_keeps | dsimp only | split | refine Keeps.upd ?_ ?_ ?_ ?_ ?_ ?_ | exact fun e => e | exact OtpOnlyAdds.refl _ | exact OtpOnlyAdds.upd | exact Nat.le_refl _ | exact Nat.le_add_right _ _

theorem State.poolAgain_keeps {s₀ s : State} (hK : Keeps s₀ s) : Keeps s₀ (State.poolAgain s) := by
  unfold State.poolAgain
  with_reducible repeat' first
    | assumption | apply State.poolAccess_keeps | (refine Keeps.foldl (fun h => ?_) _ ?_) | dsimp only | split | refine Keeps.upd ?_ ?_ ?_ ?_ ?_ ?_ | exact fun e => e | exact OtpOnlyAdds.refl _ | exact OtpOnlyAdds.upd | exact Nat.le_refl _ | exact Nat.le_add_right _ _

theorem State.servePool_keeps {s₀ s : State} {m : Msg} (hK : Keeps s₀ s) : Keeps s₀ (State.servePool s m) := by
  unfold State.servePool
  with_reducible repeat' first
    | assumption | apply State.refuseMsg_keeps | apply State.police_keeps | (refine Keeps.of_fst (by assumption) (State.police_keeps ?_)) | apply State.poolAccess_keeps | dsimp only | split | refine Keeps.upd ?_ ?_ ?_ ?_ ?_ ?_ | exact fun e => e | exact OtpOnlyAdds.refl _ | exact OtpOnlyAdds.upd | exact Nat.le_refl _ | exact Nat.le_add_right _ _

theorem execPoolRd_keeps {s₀ s : State} {m : Msg} (hK : Keeps s₀ s) : KeepsA s₀ (execPoolRd m s) := by
  unfold execPoolRd
  with_reducible repeat' first
    | assumption | (refine State.onMsg_keeps (fun h => ?_) ?_) | apply State.servePool_keeps | apply KeepsA.next | dsimp only | split

theorem execPoolWr_keeps {s₀ s : State} {m : Msg} (hK : Keeps s₀ s) : KeepsA s₀ (execPoolWr m s) := by
  unfold execPoolWr
  with_reducible repeat' first
    | assumption | (refine State.onMsg_keeps (fun h => ?_) ?_) | apply State.servePool_keeps | apply KeepsA.next | dsimp only | split

theorem State.poolNext_keeps {s₀ s : State} (hK : Keeps s₀ s) : Keeps s₀ (State.poolNext s) := by
  unfold State.poolNext
  with_reducible repeat' first
    | assumption | apply State.run_keeps | dsimp only | split

theorem execPoolData_keeps {s₀ s : State} {m : Msg} (hK : Keeps s₀ s) : KeepsA s₀ (execPoolData m s) := by
  unfold execPoolData
  with_reducible repeat' first
    | assumption | apply State.bumps_keeps | apply State.chargeFree_keeps | apply State.deliver_keeps | apply State.dropReq_keeps | (refine State.onMsg_keeps (fun h => ?_) ?_) | apply State.poolNext_keeps | apply KeepsA.next | dsimp only | split

theorem execPoolAck_keeps {s₀ s : State} {m : Msg} (hK : Keeps s₀ s) : KeepsA s₀ (execPoolAck m s) := by
  unfold execPoolAck
  with_reducible repeat' first
    | assumption | apply State.deliver_keeps | apply State.dropReq_keeps | (refine State.onMsg_keeps (fun h => ?_) ?_) | apply State.poolNext_keeps | apply KeepsA.next | dsimp only | split

theorem State.losePool_keeps {s₀ s : State} {r : Req} (hK : Keeps s₀ s) : Keeps s₀ (State.losePool s r) := by
  unfold State.losePool
  with_reducible repeat' first
    | assumption | apply State.poolLost_keeps | apply State.dropReq_keeps | apply goOn_keeps | apply State.poolNext_keeps | dsimp only | split

theorem execRefuse_keeps {s₀ s : State} {m : Msg} (hK : Keeps s₀ s) : KeepsA s₀ (execRefuse m s) := by
  unfold execRefuse
  with_reducible repeat' first
    | assumption | apply State.bump_keeps | apply State.setReq_keeps | apply State.lostMsg_keeps | apply State.unreachable_keeps | (refine State.onMsg_keeps (fun h => ?_) ?_) | apply State.losePool_keeps | apply KeepsA.next | dsimp only | split

theorem State.renew_keeps {s₀ s : State} {r : Req} (hK : Keeps s₀ s) : Keeps s₀ (State.renew s r).2 := by
  unfold State.renew
  with_reducible repeat' first
    | assumption | apply State.newTxn_keeps | (refine Keeps.of_snd (by assumption) (State.newTxn_keeps ?_)) | apply State.setReq_keeps | dsimp only | split | refine Keeps.upd ?_ ?_ ?_ ?_ ?_ ?_ | exact fun e => e | exact OtpOnlyAdds.refl _ | exact OtpOnlyAdds.upd | exact Nat.le_refl _ | exact Nat.le_add_right _ _

theorem execRefuseResend_keeps {s₀ s : State} {txn : Nat} (hK : Keeps s₀ s) : KeepsA s₀ (execRefuseResend txn s) := by
  unfold execRefuseResend
  with_reducible repeat' first
    | assumption | apply State.trySend_keeps | (refine Keeps.of_fst (by assumption) (State.trySend_keeps ?_)) | apply State.unreachable_keeps | apply State.renew_keeps | (refine Keeps.of_snd (by assumption) (State.renew_keeps ?_)) | apply KeepsA.next | dsimp only | split | refine Keeps.upd ?_ ?_ ?_ ?_ ?_ ?_ | exact fun e => e | exact OtpOnlyAdds.refl _ | exact OtpOnlyAdds.upd | exact Nat.le_refl _ | exact Nat.le_add_right _ _

theorem execPoolTimeout_keeps {s₀ s : State} {txn : Nat} (hK : Keeps s₀ s) : KeepsA s₀ (execPoolTimeout txn s) := by
  unfold execPoolTimeout
  with_reducible repeat' first
    | assumption | apply State.raise_keeps | apply State.trySendNot_keeps | apply State.setReq_keeps | apply State.losePool_keeps | apply KeepsA.next | dsimp only | split

end Sys2Proof.Machine
end

