-- ==== Sys2Proof/Laws/KeepCollective.lean ====
section
/-! SUPPORT. The operations of Machine/Collective.lean keep what every operation keeps. -/

namespace Sys2Proof.Machine

theorem State.failRoot_keeps {s₀ s : State} {k : Coll} {e : Option (Nat × Nat)} (hK : Keeps s₀ s) : Keeps s₀ (State.failRoot s k e) := by
  unfold State.failRoot
  with_reducible repeat' first
    | assumption | apply State.badPeers_keeps | apply goOn_keeps | dsimp only | split

theorem State.onCollOpen_keeps {s₀ s : State} {m : Msg} (hK : Keeps s₀ s) : Keeps s₀ (State.onCollOpen s m) := by
  unfold State.onCollOpen
  with_reducible repeat' first
    | assumption | apply State.putMsg_keeps | apply State.joinRoot_keeps | apply State.failRoot_keeps | dsimp only | split | refine Keeps.upd ?_ ?_ ?_ ?_ ?_ ?_ | exact fun e => e | exact OtpOnlyAdds.refl _ | exact Nat.le_refl _

theorem execCollOpen_keeps {s₀ s : State} {m : Msg} (hK : Keeps s₀ s) : KeepsA s₀ (execCollOpen m s) := by
  unfold execCollOpen
  with_reducible repeat' first
    | assumption | (refine State.onMsg_keeps (fun h => ?_) ?_) | apply State.onCollOpen_keeps | apply KeepsA.next | dsimp only | split

theorem State.onCollData_keeps {s₀ s : State} {m : Msg} (hK : Keeps s₀ s) : Keeps s₀ (State.onCollData s m) := by
  unfold State.onCollData
  with_reducible repeat' first
    | assumption | apply State.bump_keeps | apply State.putMsg_keeps | apply State.chargeFree_keeps | apply State.setColl_keeps | apply State.collGrant_keeps | apply State.collCheck_keeps | apply goOn_keeps | dsimp only | split

theorem execCollData_keeps {s₀ s : State} {m : Msg} (hK : Keeps s₀ s) : KeepsA s₀ (execCollData m s) := by
  unfold execCollData
  with_reducible repeat' first
    | assumption | (refine State.onMsg_keeps (fun h => ?_) ?_) | apply State.onCollData_keeps | apply KeepsA.next | dsimp only | split

theorem State.onValueSums_keeps {s₀ s : State} {m : Msg} (hK : Keeps s₀ s) : Keeps s₀ (State.onValueSums s m) := by
  unfold State.onValueSums
  with_reducible repeat' first
    | assumption | apply State.chargeFree_keeps | apply State.setColl_keeps | apply State.valsDone_keeps | apply State.deliver_keeps | dsimp only | split

theorem execPartialValueSums_keeps {s₀ s : State} {m : Msg} (hK : Keeps s₀ s) : KeepsA s₀ (execPartialValueSums m s) := by
  unfold execPartialValueSums
  with_reducible repeat' first
    | assumption | (refine State.onMsg_keeps (fun h => ?_) ?_) | apply State.onValueSums_keeps | apply KeepsA.next | dsimp only | split

theorem State.onCollGrant_keeps {s₀ s : State} {m : Msg} (hK : Keeps s₀ s) : Keeps s₀ (State.onCollGrant s m) := by
  unfold State.onCollGrant
  with_reducible repeat' first
    | assumption | apply State.setColl_keeps | apply State.collPush_keeps | dsimp only | split

theorem execCollGrant_keeps {s₀ s : State} {m : Msg} (hK : Keeps s₀ s) : KeepsA s₀ (execCollGrant m s) := by
  unfold execCollGrant
  with_reducible repeat' first
    | assumption | (refine State.onMsg_keeps (fun h => ?_) ?_) | apply State.onCollGrant_keeps | apply KeepsA.next | dsimp only | split

theorem State.onCollDone_keeps {s₀ s : State} {m : Msg} (hK : Keeps s₀ s) : Keeps s₀ (State.onCollDone s m) := by
  unfold State.onCollDone
  with_reducible repeat' first
    | assumption | apply State.delColl_keeps | apply State.deliver_keeps | dsimp only | split

theorem execCollDone_keeps {s₀ s : State} {m : Msg} (hK : Keeps s₀ s) : KeepsA s₀ (execCollDone m s) := by
  unfold execCollDone
  with_reducible repeat' first
    | assumption | (refine State.onMsg_keeps (fun h => ?_) ?_) | apply State.onCollDone_keeps | apply KeepsA.next | dsimp only | split

theorem State.onMergedM_keeps {s₀ s : State} {m : Msg} (hK : Keeps s₀ s) : Keeps s₀ (State.onMergedM s m) := by
  unfold State.onMergedM
  with_reducible repeat' first
    | assumption | apply State.modCmd_keeps | apply State.deliver_keeps | dsimp only | split

theorem execMergedMReturn_keeps {s₀ s : State} {m : Msg} (hK : Keeps s₀ s) : KeepsA s₀ (execMergedMReturn m s) := by
  unfold execMergedMReturn
  with_reducible repeat' first
    | assumption | (refine State.onMsg_keeps (fun h => ?_) ?_) | apply State.onMergedM_keeps | apply KeepsA.next | dsimp only | split

theorem State.countEnd_keeps {s₀ s : State} {st sub : Nat} (hK : Keeps s₀ s) : Keeps s₀ (State.countEnd s st sub) := by
  unfold State.countEnd
  with_reducible repeat' first
    | assumption | apply State.bump_keeps | apply State.raise_keeps | dsimp only | split

theorem State.onCollAbort_keeps {s₀ s : State} {m : Msg} (hK : Keeps s₀ s) : Keeps s₀ (State.onCollAbort s m) := by
  unfold State.onCollAbort
  with_reducible repeat' first
    | assumption | apply State.delColl_keeps | apply State.badPeers_keeps | apply goOn_keeps | apply State.endColl_keeps | apply State.countEnd_keeps | dsimp only | split

theorem execCollAbort_keeps {s₀ s : State} {m : Msg} (hK : Keeps s₀ s) : KeepsA s₀ (execCollAbort m s) := by
  unfold execCollAbort
  with_reducible repeat' first
    | assumption | (refine State.onMsg_keeps (fun h => ?_) ?_) | apply State.onCollAbort_keeps | apply KeepsA.next | dsimp only | split

theorem execCollectiveTimeout_keeps {s₀ s : State} {coll part : Nat} (hK : Keeps s₀ s) : KeepsA s₀ (execCollectiveTimeout coll part s) := by
  unfold execCollectiveTimeout
  with_reducible repeat' first
    | assumption | apply State.endColl_keeps | apply State.countEnd_keeps | apply KeepsA.next | dsimp only | split

theorem State.barDone_keeps {s₀ s : State} {b : Barrier} {code : Nat} (hK : Keeps s₀ s) : Keeps s₀ (State.barDone s b code) := by
  unfold State.barDone
  with_reducible repeat' first
    | assumption | apply State.modCmd_keeps | apply State.deliver_keeps | dsimp only | split

theorem State.barEarlyAt_keeps {s₀ s : State} {m : Msg} (hK : Keeps s₀ s) : Keeps s₀ (State.barEarlyAt s m) := by
  unfold State.barEarlyAt
  with_reducible repeat' first
    | assumption | dsimp only | split | refine Keeps.upd ?_ ?_ ?_ ?_ ?_ ?_ | exact fun e => e | exact OtpOnlyAdds.refl _ | exact OtpOnlyAdds.upd | exact Nat.le_refl _ | exact Nat.le_add_right _ _

theorem State.onBarArrive_keeps {s₀ s : State} {m : Msg} (hK : Keeps s₀ s) : Keeps s₀ (State.onBarArrive s m) := by
  unfold State.onBarArrive
  with_reducible repeat' first
    | assumption | apply State.barJoin_keeps | (refine Keeps.of_fst (by assumption) (State.barJoin_keeps ?_)) | apply State.barDone_keeps | apply State.barEarlyAt_keeps | dsimp only | split | refine Keeps.upd ?_ ?_ ?_ ?_ ?_ ?_ | exact fun e => e | exact OtpOnlyAdds.refl _ | exact OtpOnlyAdds.upd | exact Nat.le_refl _ | exact Nat.le_add_right _ _

theorem execBarArrive_keeps {s₀ s : State} {m : Msg} (hK : Keeps s₀ s) : KeepsA s₀ (execBarArrive m s) := by
  unfold execBarArrive
  with_reducible repeat' first
    | assumption | (refine State.onMsg_keeps (fun h => ?_) ?_) | apply State.onBarArrive_keeps | apply KeepsA.next | dsimp only | split

theorem State.onBarRelease_keeps {s₀ s : State} {m : Msg} (hK : Keeps s₀ s) : Keeps s₀ (State.onBarRelease s m) := by
  unfold State.onBarRelease
  with_reducible repeat' first
    | assumption | apply State.bump_keeps | apply State.delBar_keeps | apply State.noteLast_keeps | apply State.barDone_keeps | dsimp only | split

theorem execBarRelease_keeps {s₀ s : State} {m : Msg} (hK : Keeps s₀ s) : KeepsA s₀ (execBarRelease m s) := by
  unfold execBarRelease
  with_reducible repeat' first
    | assumption | (refine State.onMsg_keeps (fun h => ?_) ?_) | apply State.onBarRelease_keeps | apply KeepsA.next | dsimp only | split

theorem State.barGiveUp_keeps {s₀ s : State} {bar : Nat} (hK : Keeps s₀ s) : Keeps s₀ (State.barGiveUp s bar) := by
  unfold State.barGiveUp
  with_reducible repeat' first
    | assumption | apply State.bump_keeps | apply State.putMsg_keeps | (refine Keeps.foldl (fun h => ?_) _ ?_) | (refine Keeps.foldl_fst (fun h => ?_) _ ?_) | (refine Keeps.foldl_snd (fun h => ?_) _ ?_) | dsimp only | split | refine Keeps.upd ?_ ?_ ?_ ?_ ?_ ?_ | exact fun e => e | exact OtpOnlyAdds.refl _ | exact OtpOnlyAdds.upd | exact Nat.le_refl _ | exact Nat.le_add_right _ _

theorem execBarrierTimeout_keeps {s₀ s : State} {bar : Nat} (hK : Keeps s₀ s) : KeepsA s₀ (execBarrierTimeout bar s) := by
  unfold execBarrierTimeout
  with_reducible repeat' first
    | assumption | apply State.bump_keeps | apply State.barTell_keeps | apply State.barDone_keeps | apply State.barGiveUp_keeps | apply KeepsA.next | dsimp only | split | refine Keeps.upd ?_ ?_ ?_ ?_ ?_ ?_ | exact fun e => e | exact OtpOnlyAdds.refl _ | exact OtpOnlyAdds.upd | exact Nat.le_refl _ | exact Nat.le_add_right _ _

end Sys2Proof.Machine
end

