-- ==== Sys2Proof/Laws/KeepForward.lean ====
section
/-! SUPPORT. The operations of Machine/Forward.lean keep what every operation keeps. -/

namespace Sys2Proof.Machine

theorem State.takeForward_keeps {s₀ s : State} {m : Msg} {dw : List Nat} {input : List Byte} (hK : Keeps s₀ s) : Keeps s₀ (State.takeForward s m dw input) := by
  unfold State.takeForward
  with_reducible repeat' first
    | assumption | apply State.modCmd_keeps | apply State.addCmd_keeps | apply State.run_keeps | dsimp only | split

theorem State.onSearchReq_keeps {s₀ s : State} {m : Msg} (hK : Keeps s₀ s) : Keeps s₀ (State.onSearchReq s m) := by
  unfold State.onSearchReq
  with_reducible repeat' first
    | assumption | apply State.refuseMsg_keeps | apply State.police_keeps | (refine Keeps.of_fst (by assumption) (State.police_keeps ?_)) | apply State.takeForward_keeps | dsimp only | split

theorem execSearchReq_keeps {s₀ s : State} {m : Msg} (hK : Keeps s₀ s) : KeepsA s₀ (execSearchReq m s) := by
  unfold execSearchReq
  with_reducible repeat' first
    | assumption | (refine State.onMsg_keeps (fun h => ?_) ?_) | apply State.onSearchReq_keeps | apply KeepsA.next | dsimp only | split

theorem State.onUpdateReq_keeps {s₀ s : State} {m : Msg} (hK : Keeps s₀ s) : Keeps s₀ (State.onUpdateReq s m) := by
  unfold State.onUpdateReq
  with_reducible repeat' first
    | assumption | apply State.refuseMsg_keeps | apply State.police_keeps | (refine Keeps.of_fst (by assumption) (State.police_keeps ?_)) | apply State.takeForward_keeps | dsimp only | split

theorem execUpdateReq_keeps {s₀ s : State} {m : Msg} (hK : Keeps s₀ s) : KeepsA s₀ (execUpdateReq m s) := by
  unfold execUpdateReq
  with_reducible repeat' first
    | assumption | (refine State.onMsg_keeps (fun h => ?_) ?_) | apply State.onUpdateReq_keeps | apply KeepsA.next | dsimp only | split

theorem execFwdAccept_keeps {s₀ s : State} {m : Msg} (hK : Keeps s₀ s) : KeepsA s₀ (execFwdAccept m s) := by
  unfold execFwdAccept
  with_reducible repeat' first
    | assumption | apply State.setReq_keeps | (refine State.onMsg_keeps (fun h => ?_) ?_) | apply KeepsA.next | dsimp only | split

theorem State.onFwdResult_keeps {s₀ s : State} {m : Msg} (hK : Keeps s₀ s) : Keeps s₀ (State.onFwdResult s m) := by
  unfold State.onFwdResult
  with_reducible repeat' first
    | assumption | apply State.chargeFree_keeps | apply State.delColl_keeps | apply State.deliver_keeps | apply State.dropReq_keeps | (refine Keeps.elim ?_ (fun _ => ?_)) | dsimp only | split

theorem execFwdResult_keeps {s₀ s : State} {m : Msg} (hK : Keeps s₀ s) : KeepsA s₀ (execFwdResult m s) := by
  unfold execFwdResult
  with_reducible repeat' first
    | assumption | (refine State.onMsg_keeps (fun h => ?_) ?_) | apply State.onFwdResult_keeps | apply KeepsA.next | dsimp only | split

theorem State.restage_keeps {s₀ s : State} {c : Cmd} {key : Nat} (hK : Keeps s₀ s) : Keeps s₀ (State.restage s c key) := by
  unfold State.restage
  with_reducible repeat' first
    | assumption | apply State.modCmd_keeps | apply State.bump_keeps | apply State.failAny_keeps | apply State.run_keeps | dsimp only | split

theorem execEpochStale_keeps {s₀ s : State} {m : Msg} (hK : Keeps s₀ s) : KeepsA s₀ (execEpochStale m s) := by
  unfold execEpochStale
  with_reducible repeat' first
    | assumption | apply State.bump_keeps | apply State.badPeers_keeps | apply State.readmit_keeps | apply State.dropReq_keeps | apply goOn_keeps | (refine State.onMsg_keeps (fun h => ?_) ?_) | apply State.countEnd_keeps | apply State.restage_keeps | apply KeepsA.next | dsimp only | split

end Sys2Proof.Machine
end

