-- ==== Sys2Proof/Laws/KeepSbc.lean ====
section
/-! SUPPORT. The operations of Machine/Sbc.lean keep what every operation keeps. -/

namespace Sys2Proof.Machine

theorem State.returnRows_keeps {s₀ s : State} {f : Nat} {keep : List Host.Cell} {ovl : List Overlay} {t : Target} (hK : Keeps s₀ s) : Keeps s₀ (State.returnRows s f keep ovl t) := by
  unfold State.returnRows
  with_reducible repeat' first
    | assumption | apply State.bump_keeps | apply State.hbmWrite_keeps | (refine Keeps.foldl (fun h => ?_) _ ?_) | dsimp only | split | refine Keeps.upd ?_ ?_ ?_ ?_ ?_ ?_ | exact fun e => e | exact OtpOnlyAdds.refl _ | exact Nat.le_refl _ | exact memWf_foldl_memSet _

theorem State.restoreDomain_keeps {s₀ s : State} {old : State} {f : Nat} (hK : Keeps s₀ s) : Keeps s₀ (State.restoreDomain s old f) := by
  unfold State.restoreDomain
  with_reducible repeat' first
    | assumption | apply State.raise_keeps | apply State.returnRows_keeps | (refine Keeps.foldl (fun h => ?_) _ ?_) | dsimp only | split

theorem State.restoreDie_keeps {s₀ s : State} {die : Nat} (hK : Keeps s₀ s) : Keeps s₀ (State.restoreDie s die) := by
  unfold State.restoreDie
  with_reducible repeat' first
    | assumption | apply State.raise_keeps | apply State.startOwn_keeps | (refine Keeps.foldl (fun h => ?_) _ ?_) | dsimp only | split

theorem State.afterFence_keeps {s₀ s : State} {old : State} (hK : Keeps s₀ s) : Keeps s₀ (State.afterFence old s) := by
  unfold State.afterFence
  with_reducible repeat' first
    | assumption | (refine State.frame_keeps (fun h => ?_) ?_) | apply State.run_keeps | apply State.restoreDie_keeps | (refine Keeps.foldl (fun h => ?_) _ ?_) | dsimp only | split | refine Keeps.upd ?_ ?_ ?_ ?_ ?_ ?_ | exact fun e => e | exact OtpOnlyAdds.refl _ | exact OtpOnlyAdds.upd | exact Nat.le_refl _ | exact Nat.le_add_right _ _

theorem execStackThermal_keeps {s₀ s : State} {stack temp : Nat} (hK : Keeps s₀ s) : KeepsA s₀ (execStackThermal stack temp s) := by
  unfold execStackThermal
  with_reducible repeat' first
    | assumption | apply State.raise_keeps | apply State.elog_keeps | apply KeepsA.next | dsimp only | split | refine Keeps.upd ?_ ?_ ?_ ?_ ?_ ?_ | exact fun e => e | exact OtpOnlyAdds.refl _ | exact Nat.le_refl _

theorem State.mapPut_keeps {s₀ s : State} {f o : Nat} {d : List Byte} (hK : Keeps s₀ s) : Keeps s₀ (State.mapPut s f o d) := by
  unfold State.mapPut
  with_reducible repeat' first
    | assumption | (refine Keeps.foldl (fun h => ?_) _ ?_) | (refine Keeps.foldl_fst (fun h => ?_) _ ?_) | (refine Keeps.foldl_snd (fun h => ?_) _ ?_) | dsimp only | split | refine Keeps.upd ?_ ?_ ?_ ?_ ?_ ?_ | exact fun e => e | exact OtpOnlyAdds.refl _ | exact OtpOnlyAdds.upd | exact Nat.le_refl _ | exact Nat.le_add_right _ _

theorem State.aptRead_keeps {s₀ s : State} {f o n : Nat} (hK : Keeps s₀ s) : Keeps s₀ (State.aptRead s f o n).2 := by
  unfold State.aptRead
  with_reducible repeat' first
    | assumption | apply State.takeFree_keeps | apply State.disarm_keeps | apply State.uncorrect_keeps | dsimp only | split

theorem State.scrubFlaw_keeps {s₀ s : State} {x : Flaw} (hK : Keeps s₀ s) : Keeps s₀ (State.scrubFlaw s x) := by
  unfold State.scrubFlaw
  with_reducible repeat' first
    | assumption | apply State.correct_keeps | apply State.uncorrect_keeps | dsimp only | split

theorem State.aptFlaws_keeps {s₀ s : State} {acc : Access} {parts : List (Nat × Nat × Nat)} {flaws : List Flaw} (hK : Keeps s₀ s) : Keeps s₀ (State.aptFlaws s acc parts flaws) := by
  unfold State.aptFlaws
  with_reducible repeat' first
    | assumption | apply State.scrubFlaw_keeps | (refine Keeps.foldl (fun h => ?_) _ ?_) | (refine Keeps.foldl_fst (fun h => ?_) _ ?_) | (refine Keeps.foldl_snd (fun h => ?_) _ ?_) | dsimp only | split

theorem State.aperture_keeps {s₀ s : State} {p : Port} {off : Nat} {acc : Access} {flaws : List Flaw} (hK : Keeps s₀ s) : Keeps s₀ (State.aperture s p off acc flaws) := by
  unfold State.aperture
  with_reducible repeat' first
    | assumption | apply State.bump_keeps | apply State.emit_keeps | apply State.raise_keeps | apply State.hbmWrite_keeps | apply State.take_keeps | apply State.answer_keeps | apply State.mapPut_keeps | apply State.aptRead_keeps | (refine Keeps.of_snd (by assumption) (State.aptRead_keeps ?_)) | apply State.aptFlaws_keeps | (refine Keeps.foldl (fun h => ?_) _ ?_) | (refine Keeps.foldl_fst (fun h => ?_) _ ?_) | (refine Keeps.foldl_snd (fun h => ?_) _ ?_) | dsimp only | split | refine Keeps.upd ?_ ?_ ?_ ?_ ?_ ?_ | exact fun e => e | exact OtpOnlyAdds.refl _ | exact OtpOnlyAdds.upd | exact Nat.le_refl _ | exact Nat.le_add_right _ _

theorem execBar4Access_keeps {s₀ s : State} {port : Port} {off : Nat} {x : ApertureAccess} (hK : Keeps s₀ s) : KeepsA s₀ (execBar4Access port off x s) := by
  unfold execBar4Access
  with_reducible repeat' first
    | assumption | apply State.afterFence_keeps | apply State.aperture_keeps | apply KeepsA.next | dsimp only | split | refine Keeps.upd ?_ ?_ ?_ ?_ ?_ ?_ | exact fun e => e | exact OtpOnlyAdds.refl _ | exact OtpOnlyAdds.upd | exact Nat.le_refl _ | exact Nat.le_add_right _ _

theorem execPatrolScrub_keeps {s₀ s : State} {stack : Nat} {flaws : List Flaw} (hK : Keeps s₀ s) : KeepsA s₀ (execPatrolScrub stack flaws s) := by
  unfold execPatrolScrub
  with_reducible repeat' first
    | assumption | apply State.afterFence_keeps | apply State.scrubFlaw_keeps | (refine Keeps.foldl (fun h => ?_) _ ?_) | apply KeepsA.next | dsimp only | split

theorem withFence_keeps {s₀ s : State} {a : Answer} (ha : KeepsA s₀ a) : KeepsA s₀ (withFence s a) := by
  unfold withFence
  split
  · exact KeepsA.next (State.afterFence_keeps (ha _ rfl))
  · exact ha

theorem execQload_keeps {s₀ s : State} {f : Frame} (hK : Keeps s₀ s) : KeepsA s₀ (execQload f s) := withFence_keeps (qloadGo_keeps hK)

theorem execQscrub_keeps {s₀ s : State} {f : Frame} (hK : Keeps s₀ s) : KeepsA s₀ (execQscrub f s) := by
  unfold execQscrub
  with_reducible repeat' first
    | assumption | apply qscrubGo_keeps | apply withFence_keeps | apply KeepsA.next | dsimp only | split

theorem execStrum_keeps {s₀ s : State} {f : Frame} {flaws : List Flaw} (hK : Keeps s₀ s) : KeepsA s₀ (execStrum f flaws s) := by
  unfold execStrum
  with_reducible repeat' first
    | assumption | apply strumGo_keeps | apply withFence_keeps | apply KeepsA.next | dsimp only | split

theorem execPluck_keeps {s₀ s : State} {f : Frame} {flaws : List Flaw} (hK : Keeps s₀ s) : KeepsA s₀ (execPluck f flaws s) := by
  unfold execPluck
  with_reducible repeat' first
    | assumption | apply pluckGo_keeps | apply withFence_keeps | apply KeepsA.next | dsimp only | split

theorem execHist_keeps {s₀ s : State} {f : Frame} (hK : Keeps s₀ s) : KeepsA s₀ (execHist f s) := by
  unfold execHist
  with_reducible repeat' first
    | assumption | apply histGo_keeps | apply withFence_keeps | apply KeepsA.next | dsimp only | split

theorem execList_keeps {s₀ s : State} {f : Frame} (hK : Keeps s₀ s) : KeepsA s₀ (execList f s) := by
  unfold execList
  with_reducible repeat' first
    | assumption | apply listGo_keeps | apply withFence_keeps | apply KeepsA.next | dsimp only | split

theorem execExpsum_keeps {s₀ s : State} {f : Frame} (hK : Keeps s₀ s) : KeepsA s₀ (execExpsum f s) := by
  unfold execExpsum
  with_reducible repeat' first
    | assumption | apply expsumGo_keeps | apply withFence_keeps | apply KeepsA.next | dsimp only | split

theorem execVacc_keeps {s₀ s : State} {x : ReadFrame} (hK : Keeps s₀ s) : KeepsA s₀ (execVacc x s) := by
  unfold execVacc
  with_reducible repeat' first
    | assumption | (refine State.frame_keeps (fun h => ?_) ?_) | apply vaccGo_keeps | apply withFence_keeps | apply KeepsA.next | dsimp only | split

theorem execString_keeps {s₀ s : State} {f : Frame} (hK : Keeps s₀ s) : KeepsA s₀ (execString f s) := by
  unfold execString
  with_reducible repeat' first
    | assumption | apply stringGo_keeps | apply withFence_keeps | apply KeepsA.next | dsimp only | split

theorem execStageWrite_keeps {s₀ s : State} {x : ReadFrame} (hK : Keeps s₀ s) : KeepsA s₀ (execStageWrite x s) := by
  unfold execStageWrite
  with_reducible repeat' first
    | assumption | (refine State.frame_keeps (fun h => ?_) ?_) | apply stageWriteGo_keeps | apply withFence_keeps | apply KeepsA.next | dsimp only | split

theorem execCommitRow_keeps {s₀ s : State} {f : Frame} {flaws : List Flaw} (hK : Keeps s₀ s) : KeepsA s₀ (execCommitRow f flaws s) := by
  unfold execCommitRow
  with_reducible repeat' first
    | assumption | apply commitRowGo_keeps | apply withFence_keeps | apply KeepsA.next | dsimp only | split

theorem nextOf_keeps {s₀ s : State} {a : Answer} (ha : KeepsA s₀ a) (h : Keeps s₀ s) : Keeps s₀ (nextOf s a) := by
  unfold nextOf
  split
  · exact ha _ rfl
  · exact h

theorem State.reissue_keeps {s₀ s : State} {i : Instr} (h : Keeps s₀ s) : Keeps s₀ (s.reissue i) := by
  unfold State.reissue
  with_reducible repeat' first
    | assumption | (refine nextOf_keeps ?_ ?_) | apply execQload_keeps | apply execQscrub_keeps | apply execStrum_keeps | apply execPluck_keeps
    | apply execHist_keeps | apply execList_keeps | apply execExpsum_keeps | apply execVacc_keeps | apply execString_keeps | apply execStageWrite_keeps
    | apply execCommitRow_keeps | apply execBar4Access_keeps | split

theorem State.reissueAll_keeps {s₀ s : State} (hK : Keeps s₀ s) : Keeps s₀ (State.reissueAll s) := by
  unfold State.reissueAll
  with_reducible repeat' first
    | assumption | apply State.reissue_keeps | (refine Keeps.foldl (fun h => ?_) _ ?_) | dsimp only | split | refine Keeps.upd ?_ ?_ ?_ ?_ ?_ ?_ | exact fun e => e | exact OtpOnlyAdds.refl _ | exact OtpOnlyAdds.upd | exact Nat.le_refl _ | exact Nat.le_add_right _ _

theorem State.copyDone_keeps {s₀ s : State} {fret : Nat} (hK : Keeps s₀ s) : Keeps s₀ (State.copyDone s fret) := by
  unfold State.copyDone
  with_reducible repeat' first
    | assumption | apply State.spareDone_keeps | apply State.run_keeps | apply State.poolAgain_keeps | apply State.restoreDomain_keeps | apply State.reissueAll_keeps | (refine Keeps.foldl (fun h => ?_) _ ?_) | dsimp only | split | refine Keeps.upd ?_ ?_ ?_ ?_ ?_ ?_ | exact fun e => e | exact OtpOnlyAdds.refl _ | exact OtpOnlyAdds.upd | exact Nat.le_refl _ | exact Nat.le_add_right _ _

theorem execSpareCopyDone_keeps {s₀ s : State} {fret : Nat} (hK : Keeps s₀ s) : KeepsA s₀ (execSpareCopyDone fret s) := by
  unfold execSpareCopyDone
  with_reducible repeat' first
    | assumption | apply State.copyDone_keeps | apply KeepsA.next | dsimp only | split

theorem State.drain_keeps {s₀ s : State} (hK : Keeps s₀ s) : Keeps s₀ (State.drain s) := by
  unfold State.drain
  with_reducible repeat' first
    | assumption | apply State.run_keeps | apply State.poolAgain_keeps | apply State.reissueAll_keeps | (refine Keeps.foldl (fun h => ?_) _ ?_) | dsimp only | split | refine Keeps.upd ?_ ?_ ?_ ?_ ?_ ?_ | exact fun e => e | exact OtpOnlyAdds.refl _ | exact OtpOnlyAdds.upd | exact Nat.le_refl _ | exact Nat.le_add_right _ _

theorem State.idle_keeps {s₀ s : State} (hK : Keeps s₀ s) : Keeps s₀ (State.idle s) := by
  unfold State.idle
  with_reducible repeat' first
    | assumption | apply State.idleTick_keeps | apply State.drain_keeps | dsimp only | split

theorem State.failChannel_keeps {s₀ s : State} {stack ch : Nat} (hK : Keeps s₀ s) : Keeps s₀ (State.failChannel s stack ch) := by
  unfold State.failChannel
  with_reducible repeat' first
    | assumption | apply State.raise_keeps | apply State.elog_keeps | apply State.fenceDie_keeps | dsimp only | split | refine Keeps.upd ?_ ?_ ?_ ?_ ?_ ?_ | exact fun e => e | exact OtpOnlyAdds.refl _ | exact Nat.le_refl _

end Sys2Proof.Machine
end

