-- ==== Sys2Proof/Laws/KeepNand.lean ====
section
/-! SUPPORT. The operations of Machine/Nand.lean keep what every operation keeps. -/

namespace Sys2Proof.Machine

theorem State.rename_keeps {s₀ s : State} {g a b : Nat} (hK : Keeps s₀ s) : Keeps s₀ (State.rename s g a b) := by
  unfold State.rename
  with_reducible repeat' first
    | assumption | dsimp only | split | refine Keeps.upd ?_ ?_ ?_ ?_ ?_ ?_ | exact fun e => e | exact OtpOnlyAdds.refl _ | exact Nat.le_refl _

theorem State.movePage_keeps {s₀ s : State} {p st a : Nat} (hK : Keeps s₀ s) : Keeps s₀ (State.movePage s p st a).1 := by
  unfold State.movePage
  with_reducible repeat' first
    | assumption | (refine State.placePage_keeps (by assumption) ?_) | apply State.rename_keeps | dsimp only | split

theorem State.relocate_keeps {s₀ s : State} {p a : Nat} (hK : Keeps s₀ s) : Keeps s₀ (State.relocate s p a).1 := by
  unfold State.relocate
  with_reducible repeat' first
    | assumption | apply State.chargeFree_keeps | apply State.countReads_keeps | apply State.movePage_keeps | (refine Keeps.of_fst (by assumption) (State.movePage_keeps ?_)) | dsimp only | split

theorem State.relocateAll_keeps {p : Nat} (l : List Nat) : ∀ {s₀ s : State}, Keeps s₀ s → Keeps s₀ (s.relocateAll p l).1 := by
  induction l with
  | nil => intro s₀ s h; exact h
  | cons a r ih =>
    intro s₀ s h
    unfold State.relocateAll
    split
    · rename_i e; exact ih (State.bump_keeps (Keeps.of_fst e (State.relocate_keeps h)))
    · rename_i e; exact Keeps.of_fst e (State.relocate_keeps h)

theorem State.relocateSuper_keeps {s₀ s : State} {p i : Nat} {x : Super} (hK : Keeps s₀ s) : Keeps s₀ (State.relocateSuper s p i x) := by
  unfold State.relocateSuper
  with_reducible repeat' first
    | assumption | apply State.raiseAt_keeps | apply State.setSuper_keeps | apply State.relocateAll_keeps | dsimp only | split

theorem State.gcStep_keeps {s₀ s : State} {p : Nat} (hK : Keeps s₀ s) : Keeps s₀ (State.gcStep s p) := by
  unfold State.gcStep
  with_reducible repeat' first
    | assumption | apply State.raiseAt_keeps | apply State.noteHeld_keeps | apply State.relocateSuper_keeps | dsimp only | split

theorem execGcStart_keeps {s₀ s : State} {part : Nat} (hK : Keeps s₀ s) : KeepsA s₀ (execGcStart part s) := by
  unfold execGcStart
  with_reducible repeat' first
    | assumption | apply State.freeHist_keeps | apply State.pumpDies_keeps | apply State.gcStep_keeps | apply KeepsA.next | dsimp only | split | refine Keeps.upd ?_ ?_ ?_ ?_ ?_ ?_ | exact fun e => e | exact OtpOnlyAdds.refl _ | exact OtpOnlyAdds.upd | exact Nat.le_refl _ | exact Nat.le_add_right _ _

theorem execEraseComplete_keeps {s₀ s : State} {part sb : Nat} (hK : Keeps s₀ s) : KeepsA s₀ (execEraseComplete part sb s) := by
  unfold execEraseComplete
  with_reducible repeat' first
    | assumption | apply State.bump_keeps | apply State.freeHist_keeps | apply State.pumpDies_keeps | apply State.endOps_keeps | apply State.gcStep_keeps | apply KeepsA.next | dsimp only | split | refine Keeps.upd ?_ ?_ ?_ ?_ ?_ ?_ | exact fun e => e | exact OtpOnlyAdds.refl _ | exact OtpOnlyAdds.upd | exact Nat.le_refl _ | exact Nat.le_add_right _ _

theorem State.poisonPage_keeps {s₀ s : State} {g a : Nat} (hK : Keeps s₀ s) : Keeps s₀ (State.poisonPage s g a) := by
  unfold State.poisonPage
  with_reducible repeat' first
    | assumption | dsimp only | split | refine Keeps.upd ?_ ?_ ?_ ?_ ?_ ?_ | exact fun e => e | exact OtpOnlyAdds.refl _ | exact Nat.le_refl _

theorem State.killDie_keeps {s₀ s : State} {d : Nat} (hK : Keeps s₀ s) : Keeps s₀ (State.killDie s d) := by
  unfold State.killDie
  with_reducible repeat' first
    | assumption | apply State.bump_keeps | apply State.raise_keeps | apply State.modDie_keeps | apply State.movePage_keeps | (refine Keeps.of_fst (by assumption) (State.movePage_keeps ?_)) | apply State.poisonPage_keeps | (refine Keeps.foldl (fun h => ?_) _ ?_) | (refine Keeps.foldl_fst (fun h => ?_) _ ?_) | (refine Keeps.foldl_snd (fun h => ?_) _ ?_) | dsimp only | split | refine Keeps.upd ?_ ?_ ?_ ?_ ?_ ?_ | exact fun e => e | exact OtpOnlyAdds.refl _ | exact OtpOnlyAdds.upd | exact Nat.le_refl _ | exact Nat.le_add_right _ _

theorem execDieTimeout_keeps {s₀ s : State} {die : Nat} (hK : Keeps s₀ s) : KeepsA s₀ (execDieTimeout die s) := by
  unfold execDieTimeout
  with_reducible repeat' first
    | assumption | apply State.bump_keeps | apply State.raise_keeps | apply State.killDie_keeps | apply KeepsA.next | dsimp only | split

theorem State.rebuildPages_keeps (l : List (Nat × Phys)) : ∀ {s₀ s : State}, Keeps s₀ s → Keeps s₀ (s.rebuildPages l).1 := by
  induction l with
  | nil => intro s₀ s h; exact h
  | cons a r ih =>
    intro s₀ s h
    unfold State.rebuildPages
    dsimp only
    split
    · exact ih (State.bump_keeps (State.chargeFree_keeps (State.countReads_keeps (State.movePage_keeps h))))
    · dsimp only; exact State.raiseAt_keeps h

theorem execRebuildComplete_keeps {s₀ s : State} {die : Nat} (hK : Keeps s₀ s) : KeepsA s₀ (execRebuildComplete die s) := by
  unfold execRebuildComplete
  with_reducible repeat' first
    | assumption | apply State.modDie_keeps | apply State.rebuildPages_keeps | apply KeepsA.next | dsimp only | split | refine Keeps.upd ?_ ?_ ?_ ?_ ?_ ?_ | exact fun e => e | exact OtpOnlyAdds.refl _ | exact Nat.le_refl _

theorem State.disturb_keeps {s₀ s : State} {p a n : Nat} (hK : Keeps s₀ s) : Keeps s₀ (State.disturb s p a n) := by
  unfold State.disturb
  with_reducible repeat' first
    | assumption | apply State.setSuper_keeps | apply State.relocateSuper_keeps | dsimp only | split

theorem State.readCodeword_keeps {s₀ s : State} {p g a : Nat} {dec : Decoded} (hK : Keeps s₀ s) : Keeps s₀ (State.readCodeword s p g a dec) := by
  unfold State.readCodeword
  with_reducible repeat' first
    | assumption | apply State.bump_keeps | apply State.bumps_keeps | apply State.raiseAt_keeps | apply State.disarm_keeps | apply State.countReads_keeps | apply State.relocate_keeps | (refine Keeps.of_fst (by assumption) (State.relocate_keeps ?_)) | apply State.poisonPage_keeps | apply State.disturb_keeps | dsimp only | split

theorem State.giveUnit_keeps {s₀ s : State} {c : Cmd} {lua : Nat} (hK : Keeps s₀ s) : Keeps s₀ (State.giveUnit s c lua) := by
  unfold State.giveUnit
  with_reducible repeat' first
    | assumption | apply State.modCmd_keeps | (refine State.charge_keeps (by assumption) ?_) | apply State.noteHeld_keeps | apply State.deliver_keeps | dsimp only | split

theorem execFlashReadDone_keeps {s₀ s : State} {part lua : Nat} {dec : Decoded} (hK : Keeps s₀ s) : KeepsA s₀ (execFlashReadDone part lua dec s) := by
  unfold execFlashReadDone
  with_reducible repeat' first
    | assumption | apply State.pumpDies_keeps | apply State.endOps_keeps | apply State.run_keeps | apply State.readCodeword_keeps | apply State.giveUnit_keeps | (refine Keeps.foldl (fun h => ?_) _ ?_) | apply KeepsA.next | dsimp only | split | refine Keeps.upd ?_ ?_ ?_ ?_ ?_ ?_ | exact fun e => e | exact OtpOnlyAdds.refl _ | exact OtpOnlyAdds.upd | exact Nat.le_refl _ | exact Nat.le_add_right _ _

theorem execPatrolScan_keeps {s₀ s : State} {part : Nat} {weak : List Nat} (hK : Keeps s₀ s) : KeepsA s₀ (execPatrolScan part weak s) := by
  unfold execPatrolScan
  with_reducible repeat' first
    | assumption | apply State.bump_keeps | apply State.chargeFree_keeps | apply State.relocateSuper_keeps | apply State.disturb_keeps | (refine Keeps.foldl (fun h => ?_) _ ?_) | apply KeepsA.next | dsimp only | split | refine Keeps.upd ?_ ?_ ?_ ?_ ?_ ?_ | exact fun e => e | exact OtpOnlyAdds.refl _ | exact Nat.le_refl _

theorem State.retireBlock_keeps {s₀ s : State} {d block : Nat} (hK : Keeps s₀ s) : Keeps s₀ (State.retireBlock s d block) := by
  unfold State.retireBlock
  with_reducible repeat' first
    | assumption | apply State.bump_keeps | apply State.modDie_keeps | apply State.killDie_keeps | dsimp only | split

theorem State.wakePrograms_keeps {s₀ s : State} {p : Nat} (hK : Keeps s₀ s) : Keeps s₀ (State.wakePrograms s p) := by
  unfold State.wakePrograms
  with_reducible repeat' first
    | assumption | apply State.run_keeps | (refine Keeps.foldl (fun h => ?_) _ ?_) | dsimp only | split

theorem State.programRow_keeps {s₀ s : State} {p st : Nat} {failed : List Nat} (hK : Keeps s₀ s) : Keeps s₀ (State.programRow s p st failed) := by
  unfold State.programRow
  with_reducible repeat' first
    | assumption | apply State.bump_keeps | apply State.raise_keeps | apply State.disarm_keeps | apply State.setStream_keeps | apply State.setSuper_keeps | apply State.movePage_keeps | apply State.retireBlock_keeps | apply State.wakePrograms_keeps | (refine Keeps.foldl (fun h => ?_) _ ?_) | dsimp only | split | refine Keeps.upd ?_ ?_ ?_ ?_ ?_ ?_ | exact fun e => e | exact OtpOnlyAdds.refl _ | exact Nat.le_refl _

theorem execProgramComplete_keeps {s₀ s : State} {part stream : Nat} {failed : List Nat} (hK : Keeps s₀ s) : KeepsA s₀ (execProgramComplete part stream failed s) := by
  unfold execProgramComplete
  with_reducible repeat' first
    | assumption | apply State.pumpDies_keeps | apply State.endOps_keeps | apply State.programRow_keeps | apply KeepsA.next | dsimp only | split

theorem State.failFlashCh_keeps {s₀ s : State} {c : Nat} (hK : Keeps s₀ s) : Keeps s₀ (State.failFlashCh s c) := by
  unfold State.failFlashCh
  with_reducible repeat' first
    | assumption | apply State.raise_keeps | apply State.killDie_keeps | (refine Keeps.foldl (fun h => ?_) _ ?_) | dsimp only | split | refine Keeps.upd ?_ ?_ ?_ ?_ ?_ ?_ | exact fun e => e | exact OtpOnlyAdds.refl _ | exact Nat.le_refl _

theorem State.failLink_keeps {s₀ s : State} {l : Nat} (hK : Keeps s₀ s) : Keeps s₀ (State.failLink s l) := by
  unfold State.failLink
  with_reducible repeat' first
    | assumption | apply State.raise_keeps | apply State.linkLost_keeps | dsimp only | split

theorem execQuadrantReferenceLost_keeps {s₀ s : State} {quad : Nat} (hK : Keeps s₀ s) : KeepsA s₀ (execQuadrantReferenceLost quad s) := by
  unfold execQuadrantReferenceLost
  with_reducible repeat' first
    | assumption | apply State.afterFence_keeps | apply State.failChannel_keeps | apply State.failFlashCh_keeps | apply State.failLink_keeps | (refine Keeps.foldl (fun h => ?_) _ ?_) | apply KeepsA.next | dsimp only | split | refine Keeps.upd ?_ ?_ ?_ ?_ ?_ ?_ | exact fun e => e | exact OtpOnlyAdds.refl _ | exact Nat.le_refl _

end Sys2Proof.Machine
end

