-- ==== Sys2Proof/Laws/KeepCompose.lean ====
section
/-! SUPPORT. The operations of Machine/Compose.lean keep what every operation keeps. -/

namespace Sys2Proof.Machine

theorem execMapLoad_keeps {s₀ s : State} {a : Agent} {image : Option (List Byte)} (hK : Keeps s₀ s) : KeepsA s₀ (execMapLoad a image s) := by
  unfold execMapLoad
  with_reducible repeat' first
    | assumption | apply State.raise_keeps | apply KeepsA.next | dsimp only | split | refine Keeps.upd ?_ ?_ ?_ ?_ ?_ ?_ | exact fun e => e | exact OtpOnlyAdds.refl _ | exact Nat.le_refl _

theorem State.moveCmd_keeps {s₀ s : State} {c : Cmd} (hK : Keeps s₀ s) : Keeps s₀ (State.moveCmd s c) := by
  unfold State.moveCmd
  with_reducible repeat' first
    | assumption | apply State.modCmd_keeps | apply State.dropCmd_keeps | apply State.bump_keeps | apply State.putMsg_keeps | apply State.discard_keeps | apply State.run_keeps | dsimp only | split

theorem State.sendFinal_keeps {s₀ s : State} {num : Nat} (hK : Keeps s₀ s) : Keeps s₀ (State.sendFinal s num) := by
  unfold State.sendFinal
  with_reducible repeat' first
    | assumption | apply State.putMsg_keeps | apply State.pushLog_keeps | (refine Keeps.foldl (fun h => ?_) _ ?_) | dsimp only | split | refine Keeps.upd ?_ ?_ ?_ ?_ ?_ ?_ | exact fun e => e | exact OtpOnlyAdds.refl _ | exact Nat.le_refl _

theorem State.handOver_keeps {s₀ s : State} {old : List Byte} {x : Shard} (hK : Keeps s₀ s) : Keeps s₀ (State.handOver s old x) := by
  unfold State.handOver
  with_reducible repeat' first
    | assumption | apply State.moveCmd_keeps | apply State.sendFinal_keeps | (refine Keeps.foldl (fun h => ?_) _ ?_) | dsimp only | split | refine Keeps.upd ?_ ?_ ?_ ?_ ?_ ?_ | exact fun e => e | exact OtpOnlyAdds.refl _ | exact Nat.le_refl _

theorem State.wakeEpoch_keeps {s₀ s : State} (hK : Keeps s₀ s) : Keeps s₀ (State.wakeEpoch s) := by
  unfold State.wakeEpoch
  with_reducible repeat' first
    | assumption | apply State.bump_keeps | apply State.putMsg_keeps | apply State.onCollOpen_keeps | apply State.onBarArrive_keeps | apply State.onSearchReq_keeps | apply State.onUpdateReq_keeps | (refine Keeps.foldl (fun h => ?_) _ ?_) | dsimp only | split | refine Keeps.upd ?_ ?_ ?_ ?_ ?_ ?_ | exact fun e => e | exact OtpOnlyAdds.refl _ | exact Nat.le_refl _

theorem State.leavers_keeps {s₀ s : State} (hK : Keeps s₀ s) : Keeps s₀ (State.leavers s) := by
  unfold State.leavers
  with_reducible repeat' first
    | assumption | apply State.delBar_keeps | apply State.barTell_keeps | apply State.endColl_keeps | apply State.countEnd_keeps | apply State.barDone_keeps | (refine Keeps.foldl (fun h => ?_) _ ?_) | dsimp only | split

theorem State.noteChange_keeps {s₀ s : State} {f : Change → Change} (hK : Keeps s₀ s) : Keeps s₀ (State.noteChange s f) := by
  unfold State.noteChange
  with_reducible repeat' first
    | assumption | dsimp only | split | refine Keeps.upd ?_ ?_ ?_ ?_ ?_ ?_ | exact fun e => e | exact OtpOnlyAdds.refl _ | exact Nat.le_refl _

theorem State.activate_keeps {s₀ s : State} (hK : Keeps s₀ s) : Keeps s₀ (State.activate s) := by
  unfold State.activate
  with_reducible repeat' first
    | assumption | apply State.bump_keeps | apply State.logEvent_keeps | apply State.enterStage_keeps | apply State.scrubDies_keeps | apply State.buildRoutes_keeps | apply State.handOver_keeps | apply State.wakeEpoch_keeps | apply State.leavers_keeps | (refine Keeps.foldl (fun h => ?_) _ ?_) | dsimp only | split | refine Keeps.upd ?_ ?_ ?_ ?_ ?_ ?_ | exact fun e => e | exact OtpOnlyAdds.refl _ | exact OtpOnlyAdds.upd | exact Nat.le_refl _ | exact Nat.le_add_right _ _

theorem State.unprepare_keeps {s₀ s : State} (hK : Keeps s₀ s) : Keeps s₀ (State.unprepare s) := by
  unfold State.unprepare
  with_reducible repeat' first
    | assumption | apply State.wakeEpoch_keeps | dsimp only | split | refine Keeps.upd ?_ ?_ ?_ ?_ ?_ ?_ | exact fun e => e | exact OtpOnlyAdds.refl _ | exact Nat.le_refl _

theorem State.tellAll_keeps {s₀ s : State} {l : List Nat} {ty : Nat} {body : Body} (hK : Keeps s₀ s) : Keeps s₀ (State.tellAll s l ty body) := by
  unfold State.tellAll
  with_reducible repeat' first
    | assumption | apply State.putMsg_keeps | apply State.newTxn_keeps | (refine Keeps.foldl (fun h => ?_) _ ?_) | dsimp only | split

theorem State.abortChange_keeps {s₀ s : State} (hK : Keeps s₀ s) : Keeps s₀ (State.abortChange s) := by
  unfold State.abortChange
  with_reducible repeat' first
    | assumption | apply State.bump_keeps | apply State.unprepare_keeps | apply State.tellAll_keeps | dsimp only | split | refine Keeps.upd ?_ ?_ ?_ ?_ ?_ ?_ | exact fun e => e | exact OtpOnlyAdds.refl _ | exact Nat.le_refl _

theorem State.prepareSelf_keeps {s₀ s : State} (hK : Keeps s₀ s) : Keeps s₀ (State.prepareSelf s).1 := by
  unfold State.prepareSelf
  with_reducible repeat' first
    | assumption | apply State.raise_keeps | dsimp only | split | refine Keeps.upd ?_ ?_ ?_ ?_ ?_ ?_ | exact fun e => e | exact OtpOnlyAdds.refl _ | exact Nat.le_refl _

theorem State.decide'_keeps {s₀ s : State} (hK : Keeps s₀ s) : Keeps s₀ (State.decide' s) := by
  unfold State.decide'
  with_reducible repeat' first
    | assumption | apply State.noteChange_keeps | apply State.activate_keeps | apply State.tellAll_keeps | apply State.abortChange_keeps | dsimp only | split | refine Keeps.upd ?_ ?_ ?_ ?_ ?_ ?_ | exact fun e => e | exact OtpOnlyAdds.refl _ | exact OtpOnlyAdds.upd | exact Nat.le_refl _ | exact Nat.le_add_right _ _

theorem State.beginChange_keeps {s₀ s : State} (hK : Keeps s₀ s) : Keeps s₀ (State.beginChange s) := by
  unfold State.beginChange
  with_reducible repeat' first
    | assumption | apply State.bump_keeps | apply State.own_keeps | apply State.activate_keeps | apply State.tellAll_keeps | apply State.prepareSelf_keeps | (refine Keeps.of_fst (by assumption) (State.prepareSelf_keeps ?_)) | apply State.decide'_keeps | dsimp only | split | refine Keeps.upd ?_ ?_ ?_ ?_ ?_ ?_ | exact fun e => e | exact OtpOnlyAdds.refl _ | exact OtpOnlyAdds.upd | exact Nat.le_refl _ | exact Nat.le_add_right _ _

theorem execGo_keeps {s₀ s : State} {a : Agent} (hK : Keeps s₀ s) : KeepsA s₀ (execGo a s) := by
  unfold execGo
  with_reducible repeat' first
    | assumption | apply State.raise_keeps | apply State.beginChange_keeps | apply KeepsA.next | dsimp only | split | refine Keeps.upd ?_ ?_ ?_ ?_ ?_ ?_ | exact fun e => e | exact OtpOnlyAdds.refl _ | exact OtpOnlyAdds.upd | exact Nat.le_refl _ | exact Nat.le_add_right _ _

theorem execAbort_keeps {s₀ s : State} {a : Agent} (hK : Keeps s₀ s) : KeepsA s₀ (execAbort a s) := by
  unfold execAbort
  with_reducible repeat' first
    | assumption | apply State.unprepare_keeps | apply State.abortChange_keeps | apply KeepsA.next | dsimp only | split | refine Keeps.upd ?_ ?_ ?_ ?_ ?_ ?_ | exact fun e => e | exact OtpOnlyAdds.refl _ | exact OtpOnlyAdds.upd | exact Nat.le_refl _ | exact Nat.le_add_right _ _

theorem State.goPending_keeps {s₀ s : State} (hK : Keeps s₀ s) : Keeps s₀ (State.goPending s) := by
  unfold State.goPending
  with_reducible repeat' first
    | assumption | apply State.beginChange_keeps | dsimp only | split

theorem State.changeOver_keeps {s₀ s : State} (hK : Keeps s₀ s) : Keeps s₀ (State.changeOver s) := by
  unfold State.changeOver
  with_reducible repeat' first
    | assumption | apply State.goPending_keeps | dsimp only | split | refine Keeps.upd ?_ ?_ ?_ ?_ ?_ ?_ | exact fun e => e | exact OtpOnlyAdds.refl _ | exact Nat.le_refl _

theorem execCompPrepare_keeps {s₀ s : State} {m : Msg} (hK : Keeps s₀ s) : KeepsA s₀ (execCompPrepare m s) := by
  unfold execCompPrepare
  with_reducible repeat' first
    | assumption | apply State.putMsg_keeps | (refine State.onMsg_keeps (fun h => ?_) ?_) | apply State.prepareSelf_keeps | apply KeepsA.next | dsimp only | split

theorem execCompReady_keeps {s₀ s : State} {m : Msg} (hK : Keeps s₀ s) : KeepsA s₀ (execCompReady m s) := by
  unfold execCompReady
  with_reducible repeat' first
    | assumption | (refine State.onMsg_keeps (fun h => ?_) ?_) | apply State.noteChange_keeps | apply State.decide'_keeps | apply KeepsA.next | dsimp only | split | refine Keeps.upd ?_ ?_ ?_ ?_ ?_ ?_ | exact fun e => e | exact OtpOnlyAdds.refl _ | exact OtpOnlyAdds.upd | exact Nat.le_refl _ | exact Nat.le_add_right _ _

theorem execCompActivate_keeps {s₀ s : State} {m : Msg} (hK : Keeps s₀ s) : KeepsA s₀ (execCompActivate m s) := by
  unfold execCompActivate
  with_reducible repeat' first
    | assumption | apply State.putMsg_keeps | apply State.newTxn_keeps | (refine Keeps.of_snd (by assumption) (State.newTxn_keeps ?_)) | (refine State.onMsg_keeps (fun h => ?_) ?_) | apply State.activate_keeps | apply KeepsA.next | dsimp only | split | refine Keeps.upd ?_ ?_ ?_ ?_ ?_ ?_ | exact fun e => e | exact OtpOnlyAdds.refl _ | exact OtpOnlyAdds.upd | exact Nat.le_refl _ | exact Nat.le_add_right _ _

theorem execCompActive_keeps {s₀ s : State} {m : Msg} (hK : Keeps s₀ s) : KeepsA s₀ (execCompActive m s) := by
  unfold execCompActive
  with_reducible repeat' first
    | assumption | (refine State.onMsg_keeps (fun h => ?_) ?_) | apply State.noteChange_keeps | apply KeepsA.next | dsimp only | split

theorem execCompRetired_keeps {s₀ s : State} {m : Msg} (hK : Keeps s₀ s) : KeepsA s₀ (execCompRetired m s) := by
  unfold execCompRetired
  with_reducible repeat' first
    | assumption | (refine State.onMsg_keeps (fun h => ?_) ?_) | apply State.noteChange_keeps | apply State.changeOver_keeps | apply KeepsA.next | dsimp only | split

theorem execCompAbort_keeps {s₀ s : State} {m : Msg} (hK : Keeps s₀ s) : KeepsA s₀ (execCompAbort m s) := by
  unfold execCompAbort
  with_reducible repeat' first
    | assumption | (refine State.onMsg_keeps (fun h => ?_) ?_) | apply State.unprepare_keeps | apply KeepsA.next | dsimp only | split

theorem execCompQuery_keeps {s₀ s : State} {m : Msg} (hK : Keeps s₀ s) : KeepsA s₀ (execCompQuery m s) := by
  unfold execCompQuery
  with_reducible repeat' first
    | assumption | apply State.putMsg_keeps | (refine State.onMsg_keeps (fun h => ?_) ?_) | apply KeepsA.next | dsimp only | split

theorem execPrepTmo_keeps {s₀ s : State} (hK : Keeps s₀ s) : KeepsA s₀ (execPrepTmo s) := by
  unfold execPrepTmo
  with_reducible repeat' first
    | assumption | apply State.raise_keeps | apply State.putMsg_keeps | apply State.newTxn_keeps | apply State.abortChange_keeps | apply KeepsA.next | dsimp only | split | refine Keeps.upd ?_ ?_ ?_ ?_ ?_ ?_ | exact fun e => e | exact OtpOnlyAdds.refl _ | exact Nat.le_refl _

theorem State.retire_keeps {s₀ s : State} (hK : Keeps s₀ s) : Keeps s₀ (State.retire s) := by
  unfold State.retire
  with_reducible repeat' first
    | assumption | apply State.logEvent_keeps | apply State.putMsg_keeps | apply State.newTxn_keeps | apply State.noteChange_keeps | apply State.changeOver_keeps | dsimp only | split | refine Keeps.upd ?_ ?_ ?_ ?_ ?_ ?_ | exact fun e => e | exact OtpOnlyAdds.refl _ | exact Nat.le_refl _

theorem execEpochRetire_keeps {s₀ s : State} (hK : Keeps s₀ s) : KeepsA s₀ (execEpochRetire s) := by
  unfold execEpochRetire
  with_reducible repeat' first
    | assumption | apply State.retire_keeps | apply KeepsA.next | dsimp only | split

theorem execDrainTmo_keeps {s₀ s : State} (hK : Keeps s₀ s) : KeepsA s₀ (execDrainTmo s) := by
  unfold execDrainTmo
  with_reducible repeat' first
    | assumption | apply State.raise_keeps | apply State.replayStop_keeps | apply State.retire_keeps | (refine Keeps.foldl (fun h => ?_) _ ?_) | apply KeepsA.next | dsimp only | split

theorem execLogReq_keeps {s₀ s : State} {m : Msg} (hK : Keeps s₀ s) : KeepsA s₀ (execLogReq m s) := by
  unfold execLogReq
  with_reducible repeat' first
    | assumption | apply State.pushLog_keeps | apply State.refuseMsg_keeps | (refine State.onMsg_keeps (fun h => ?_) ?_) | apply KeepsA.next | dsimp only | split | refine Keeps.upd ?_ ?_ ?_ ?_ ?_ ?_ | exact fun e => e | exact OtpOnlyAdds.refl _ | exact Nat.le_refl _

theorem State.onLogData_keeps {s₀ s : State} {num e : Nat} {final : Bool} {part : List Byte} (hK : Keeps s₀ s) : Keeps s₀ (State.onLogData s num e final part) := by
  unfold State.onLogData
  with_reducible repeat' first
    | assumption | apply State.setShard_keeps | apply State.askLog_keeps | apply State.addReplay_keeps | apply State.replayGo_keeps | dsimp only | split | refine Keeps.upd ?_ ?_ ?_ ?_ ?_ ?_ | exact fun e => e | exact OtpOnlyAdds.refl _ | exact Nat.le_refl _

theorem execLogData_keeps {s₀ s : State} {m : Msg} (hK : Keeps s₀ s) : KeepsA s₀ (execLogData m s) := by
  unfold execLogData
  with_reducible repeat' first
    | assumption | (refine State.onMsg_keeps (fun h => ?_) ?_) | apply State.onLogData_keeps | apply KeepsA.next | dsimp only | split

theorem execShadowCopy_keeps {s₀ s : State} {m : Msg} (hK : Keeps s₀ s) : KeepsA s₀ (execShadowCopy m s) := by
  unfold execShadowCopy
  with_reducible repeat' first
    | assumption | apply State.modCmd_keeps | apply State.addCmd_keeps | apply State.run_keeps | (refine State.onMsg_keeps (fun h => ?_) ?_) | apply KeepsA.next | dsimp only | split

theorem execShadowResult_keeps {s₀ s : State} {m : Msg} (hK : Keeps s₀ s) : KeepsA s₀ (execShadowResult m s) := by
  unfold execShadowResult
  with_reducible repeat' first
    | assumption | apply State.bump_keeps | apply State.putMsg_keeps | apply State.setShard_keeps | apply State.newTxn_keeps | (refine State.onMsg_keeps (fun h => ?_) ?_) | apply KeepsA.next | dsimp only | split

theorem execShadowReady_keeps {s₀ s : State} {m : Msg} (hK : Keeps s₀ s) : KeepsA s₀ (execShadowReady m s) := by
  unfold execShadowReady
  with_reducible repeat' first
    | assumption | (refine State.onMsg_keeps (fun h => ?_) ?_) | apply KeepsA.next | dsimp only | split | refine Keeps.upd ?_ ?_ ?_ ?_ ?_ ?_ | exact fun e => e | exact OtpOnlyAdds.refl _ | exact Nat.le_refl _

theorem execShadowCopyTimeout_keeps {s₀ s : State} {shard txn : Nat} (hK : Keeps s₀ s) : KeepsA s₀ (execShadowCopyTimeout shard txn s) := by
  unfold execShadowCopyTimeout
  with_reducible repeat' first
    | assumption | apply KeepsA.next | dsimp only | split | refine Keeps.upd ?_ ?_ ?_ ?_ ?_ ?_ | exact fun e => e | exact OtpOnlyAdds.refl _ | exact Nat.le_refl _

theorem State.fenceParts_keeps {s₀ s : State} {mask : Nat} (hK : Keeps s₀ s) : Keeps s₀ (State.fenceParts s mask) := by
  unfold State.fenceParts
  with_reducible repeat' first
    | assumption | apply State.setReg32_keeps | apply State.logEvent_keeps | (refine Keeps.foldl (fun h => ?_) _ ?_) | dsimp only | split

end Sys2Proof.Machine
end

