-- ==== Sys2Proof/Laws/KeepRegRead.lean ====
section
/-! SUPPORT. The operations of Machine/RegRead.lean keep what every operation keeps. -/

namespace Sys2Proof.Machine

theorem State.setBox_keeps {s₀ s : State} {p : Port} {b : Mbox} (hK : Keeps s₀ s) : Keeps s₀ (State.setBox s p b) := by
  unfold State.setBox
  with_reducible repeat' first
    | assumption | dsimp only | split | refine Keeps.upd ?_ ?_ ?_ ?_ ?_ ?_ | exact fun e => e | exact OtpOnlyAdds.refl _ | exact Nat.le_refl _

theorem State.latchRead_keeps {s₀ s : State} {a : Agent} {g : Page} {off : Nat} (hK : Keeps s₀ s) : Keeps s₀ (State.latchRead s a g off) := by
  unfold State.latchRead
  with_reducible repeat' first
    | assumption | apply State.setLatch_keeps | dsimp only | split

theorem State.restartRc_keeps {s₀ s : State} {a : Agent} {g : Page} {off : Nat} (hK : Keeps s₀ s) : Keeps s₀ (State.restartRc s a g off) := by
  unfold State.restartRc
  with_reducible repeat' first
    | assumption | apply State.modCtx_keeps | apply State.modCapo_keeps | dsimp only | split | refine Keeps.upd ?_ ?_ ?_ ?_ ?_ ?_ | exact fun e => e | exact OtpOnlyAdds.refl _ | exact Nat.le_refl _

theorem State.afterRead_keeps {s₀ s : State} {a : Agent} {off : Nat} (hK : Keeps s₀ s) : Keeps s₀ (State.afterRead s a off) := by
  unfold State.afterRead
  with_reducible repeat' first
    | assumption | apply State.latchRead_keeps | apply State.restartRc_keeps | dsimp only | split

theorem State.regRead_keeps {s₀ s : State} {a : Agent} {off : Nat} (hK : Keeps s₀ s) : Keeps s₀ (State.regRead s a off).2 := by
  unfold State.regRead
  with_reducible repeat' first
    | assumption | apply State.afterRead_keeps | dsimp only | split

theorem State.regReads_keeps {a : Agent} (n : Nat) : ∀ {s₀ s : State} {off : Nat}, Keeps s₀ s → Keeps s₀ (s.regReads a off n).2 := by
  induction n with
  | zero => intro s₀ s off h; exact h
  | succ n ih => intro s₀ s off h; exact ih (State.regRead_keeps h)

theorem State.giveRead_keeps {s₀ s : State} {a : Agent} {off : Nat} {d : List Byte} (hK : Keeps s₀ s) : Keeps s₀ (State.giveRead s a off d) := by
  unfold State.giveRead
  with_reducible repeat' first
    | assumption | apply State.emit_keeps | dsimp only | split

theorem State.readOne_keeps {s₀ s : State} {a : Agent} {off : Nat} (hK : Keeps s₀ s) : Keeps s₀ (State.readOne s a off) := by
  unfold State.readOne
  with_reducible repeat' first
    | assumption | apply State.regRead_keeps | apply State.giveRead_keeps | dsimp only | split

theorem State.readPair_keeps {s₀ s : State} {a : Agent} {off v : Nat} (hK : Keeps s₀ s) : Keeps s₀ (State.readPair s a off v) := by
  unfold State.readPair
  with_reducible repeat' first
    | assumption | apply State.afterRead_keeps | apply State.giveRead_keeps | dsimp only | split

theorem State.readZero_keeps {s₀ s : State} {a : Agent} {off n : Nat} (hK : Keeps s₀ s) : Keeps s₀ (State.readZero s a off n) := by
  unfold State.readZero
  with_reducible repeat' first
    | assumption | apply State.giveRead_keeps | dsimp only | split | refine Keeps.upd ?_ ?_ ?_ ?_ ?_ ?_ | exact fun e => e | exact OtpOnlyAdds.refl _ | exact OtpOnlyAdds.upd | exact Nat.le_refl _ | exact Nat.le_add_right _ _

theorem execGlbLctrLoRead_keeps {s₀ s : State} {a : Agent} {wide : Bool} (hK : Keeps s₀ s) : KeepsA s₀ (execGlbLctrLoRead a wide s) := by
  unfold execGlbLctrLoRead
  with_reducible repeat' first
    | assumption | apply State.giveRead_keeps | apply State.readOne_keeps | apply State.readZero_keeps | apply KeepsA.next | dsimp only | split

theorem execPegStatSseLoRead_keeps {s₀ s : State} {a : Agent} (hK : Keeps s₀ s) : KeepsA s₀ (execPegStatSseLoRead a s) := by
  unfold execPegStatSseLoRead
  with_reducible repeat' first
    | assumption | apply State.readOne_keeps | apply State.readZero_keeps | apply KeepsA.next | dsimp only | split

theorem execCounterLoRead_keeps {s₀ s : State} {a : Agent} {off : Nat} (hK : Keeps s₀ s) : KeepsA s₀ (execCounterLoRead a off s) := by
  unfold execCounterLoRead
  with_reducible repeat' first
    | assumption | apply State.readOne_keeps | apply State.readZero_keeps | apply KeepsA.next | dsimp only | split

theorem execEditionLoRead_keeps {s₀ s : State} {a : Agent} {off : Nat} (hK : Keeps s₀ s) : KeepsA s₀ (execEditionLoRead a off s) := by
  unfold execEditionLoRead
  with_reducible repeat' first
    | assumption | apply State.readOne_keeps | apply State.readZero_keeps | apply KeepsA.next | dsimp only | split

theorem execRcFieldRead_keeps {s₀ s : State} {a : Agent} {off : Nat} (hK : Keeps s₀ s) : KeepsA s₀ (execRcFieldRead a off s) := by
  unfold execRcFieldRead
  with_reducible repeat' first
    | assumption | apply State.readOne_keeps | apply State.readZero_keeps | apply KeepsA.next | dsimp only | split

end Sys2Proof.Machine
end

