-- ==== Sys2Proof/Laws/KeepSecurity.lean ====
section
/-! SUPPORT. The operations of Machine/Security.lean keep what every operation keeps. -/

namespace Sys2Proof.Machine

theorem State.checkImg_keeps {s₀ s : State} {b : List Byte} (hK : Keeps s₀ s) : Keeps s₀ (State.checkImg s b).1 := by
  unfold State.checkImg
  with_reducible repeat' first
    | assumption | apply State.bump_keeps | apply State.raise_keeps | dsimp only | split

theorem State.measure_keeps {s₀ s : State} {i : Nat} {d : List Byte} (hK : Keeps s₀ s) : Keeps s₀ (State.measure s i d) := by
  unfold State.measure
  with_reducible repeat' first
    | assumption | dsimp only | split | refine Keeps.upd ?_ ?_ ?_ ?_ ?_ ?_ | exact fun e => e | exact OtpOnlyAdds.upd | exact Nat.le_refl _

theorem State.measureOtp_keeps {s₀ s : State} (hK : Keeps s₀ s) : Keeps s₀ (State.measureOtp s) := by
  unfold State.measureOtp
  with_reducible repeat' first
    | assumption | apply State.measure_keeps | dsimp only | split

theorem State.romStart_keeps {s₀ s : State} (h : Keeps s₀ s) : Keeps s₀ s.romStart := by
  unfold State.romStart
  dsimp only
  apply State.measureOtp_keeps
  apply State.measure_keeps
  refine Keeps.upd h (fun e => e) ?_ (Nat.le_refl _) (Nat.le_refl _) (Nat.le_refl _)
  split
  · rename_i e; exact ⟨.inr ⟨e, rfl⟩, rfl, rfl, fun _ h => h, Nat.le_refl _⟩
  · exact ⟨.inl rfl, rfl, rfl, fun _ h => h, Nat.le_refl _⟩
  · exact ⟨.inl rfl, rfl, rfl, fun _ h => h, Nat.le_refl _⟩

theorem State.trySlots_keeps (l : List (List Byte)) : ∀ {s₀ s : State}, Keeps s₀ s → Keeps s₀ (s.trySlots l).1 := by
  induction l with
  | nil => intro s₀ s h; exact h
  | cons b r ih =>
    intro s₀ s h
    unfold State.trySlots
    dsimp only
    split
    · exact State.checkImg_keeps h
    · exact ih (State.checkImg_keeps h)

theorem State.bootPatch_keeps {s₀ s : State} (hK : Keeps s₀ s) : Keeps s₀ (State.bootPatch s) := by
  unfold State.bootPatch
  with_reducible repeat' first
    | assumption | apply State.measure_keeps | apply State.trySlots_keeps | dsimp only | split | refine Keeps.upd ?_ ?_ ?_ ?_ ?_ ?_ | exact fun e => e | exact OtpOnlyAdds.upd | exact Nat.le_refl _

theorem execFwLoad_keeps {s₀ s : State} {a : Agent} {image : Option (List Byte)} (hK : Keeps s₀ s) : KeepsA s₀ (execFwLoad a image s) := by
  unfold execFwLoad
  with_reducible repeat' first
    | assumption | apply State.raise_keeps | apply State.checkImg_keeps | apply KeepsA.next | dsimp only | split | refine Keeps.upd ?_ ?_ ?_ ?_ ?_ ?_ | exact fun e => e | exact OtpOnlyAdds.refl _ | exact Nat.le_refl _

theorem execFwSwitch_keeps {s₀ s : State} {a : Agent} (hK : Keeps s₀ s) : KeepsA s₀ (execFwSwitch a s) := by
  unfold execFwSwitch
  with_reducible repeat' first
    | assumption | apply KeepsA.next | dsimp only | split | refine Keeps.upd ?_ ?_ ?_ ?_ ?_ ?_ | exact fun e => e | exact OtpOnlyAdds.refl _ | exact Nat.le_refl _

theorem execFwSwitchAccept_keeps {s₀ s : State} (hK : Keeps s₀ s) : KeepsA s₀ (execFwSwitchAccept s) := by
  unfold execFwSwitchAccept
  with_reducible repeat' first
    | assumption | apply State.bump_keeps | apply State.logEvent_keeps | apply State.measure_keeps | apply KeepsA.next | dsimp only | split | refine Keeps.upd ?_ ?_ ?_ ?_ ?_ ?_ | exact fun e => e | exact OtpOnlyAdds.upd | exact Nat.le_refl _

theorem execFwFallback_keeps {s₀ s : State} (hK : Keeps s₀ s) : KeepsA s₀ (execFwFallback s) := by
  unfold execFwFallback
  with_reducible repeat' first
    | assumption | apply State.logEvent_keeps | apply State.raise_keeps | apply KeepsA.next | dsimp only | split | refine Keeps.upd ?_ ?_ ?_ ?_ ?_ ?_ | exact fun e => e | exact OtpOnlyAdds.refl _ | exact Nat.le_refl _

theorem State.raiseArb_keeps {s₀ s : State} {b : List Byte} (hb : s.sec.arb ≤ byteAt b 2) (h : Keeps s₀ s) : Keeps s₀ (s.raiseArb b) :=
  State.measureOtp_keeps (Keeps.upd h (fun e => e) ⟨.inl rfl, rfl, rfl, fun _ h => h, hb⟩ (Nat.le_refl _) (Nat.le_refl _) (Nat.le_refl _))

theorem bitOf_or (a b i : Nat) (h : bitOf a i = true) : bitOf (a ||| b) i = true := by
  simp only [bitOf, beq_iff_eq, Nat.shiftRight_or_distrib] at h ⊢
  have : (a >>> i ||| b >>> i) % 2 = (a >>> i) % 2 ||| (b >>> i) % 2 := Nat.or_mod_two_pow (n := 1)
  rw [this, h]
  rcases Nat.mod_two_eq_zero_or_one (b >>> i) with e | e <;> rw [e] <;> rfl

theorem State.revokeSlots_keeps {s₀ s : State} {b : List Byte} (h : Keeps s₀ s) : Keeps s₀ (s.revokeSlots b) :=
  State.measureOtp_keeps (Keeps.upd h (fun e => e) ⟨.inl rfl, rfl, rfl, fun i h => bitOf_or _ _ i h, Nat.le_refl _⟩ (Nat.le_refl _) (Nat.le_refl _) (Nat.le_refl _))

theorem State.storeImage_keeps {s₀ s : State} {b : List Byte} (hK : Keeps s₀ s) : Keeps s₀ (State.storeImage s b) := by
  unfold State.storeImage
  with_reducible repeat' first
    | assumption | dsimp only | split | refine Keeps.upd ?_ ?_ ?_ ?_ ?_ ?_ | exact fun e => e | exact OtpOnlyAdds.upd | exact Nat.le_refl _

theorem execFwConfirm_keeps {s₀ s : State} {a : Agent} {otpOk : Bool} (h : Keeps s₀ s) : KeepsA s₀ (execFwConfirm a otpOk s) := by
  unfold execFwConfirm
  split
  · exact KeepsA.next h
  · dsimp only
    split
    · exact KeepsA.next (State.raise_keeps h)
    · apply KeepsA.next
      apply State.storeImage_keeps
      have k : ∀ {t : State}, Keeps s₀ t → Keeps s₀ (if (s.sec.revoked ||| byteAt s.cmp.image 6) != s.sec.revoked then t.revokeSlots s.cmp.image else t) := by
        intro t k
        split
        · exact State.revokeSlots_keeps k
        · exact k
      apply k
      split
      · rename_i e
        simp only [Bool.and_eq_true, decide_eq_true_eq] at e
        exact State.raiseArb_keeps (Nat.le_of_lt e.2) h
      · exact h

theorem State.respond_keeps {s₀ s : State} {t : Transport} {l : List Byte} (hK : Keeps s₀ s) : Keeps s₀ (State.respond s t l) := by
  unfold State.respond
  with_reducible repeat' first
    | assumption | apply State.setBox_keeps | dsimp only | split | refine Keeps.upd ?_ ?_ ?_ ?_ ?_ ?_ | exact fun e => e | exact OtpOnlyAdds.refl _ | exact Nat.le_refl _

theorem State.ebReply_keeps {s₀ s : State} {t : Transport} {ver cls code seq status : Nat} {payload : List Byte} (hK : Keeps s₀ s) : Keeps s₀ (State.ebReply s t ver cls code seq status payload) := by
  unfold State.ebReply
  with_reducible repeat' first
    | assumption | apply State.bump_keeps | apply State.respond_keeps | dsimp only | split

theorem State.attest_keeps {s₀ s : State} {t : Transport} {code seq : Nat} {payload : List Byte} (hK : Keeps s₀ s) : Keeps s₀ (State.attest s t code seq payload) := by
  unfold State.attest
  with_reducible repeat' first
    | assumption | apply State.respond_keeps | apply State.ebReply_keeps | dsimp only | split

theorem State.attestNo_keeps {s₀ s : State} {t : Transport} {code seq reason : Nat} (hK : Keeps s₀ s) : Keeps s₀ (State.attestNo s t code seq reason) := by
  unfold State.attestNo
  with_reducible repeat' first
    | assumption | apply State.bump_keeps | apply State.respond_keeps | apply State.ebReply_keeps | dsimp only | split

theorem State.onAttest_keeps {s₀ s : State} {t : Transport} {code seq : Nat} {f : State → State} (hf : ∀ {a b : State}, Keeps a b → Keeps a (f b)) (hK : Keeps s₀ s) : KeepsA s₀ (State.onAttest s t code seq f) := by
  unfold State.onAttest
  with_reducible repeat' first
    | assumption | apply State.ebReply_keeps | apply hf | apply KeepsA.next | dsimp only | split

theorem execGetInfo_keeps {s₀ s : State} {t : Transport} {seq : Nat} (hK : Keeps s₀ s) : KeepsA s₀ (execGetInfo t seq s) := by
  unfold execGetInfo
  with_reducible repeat' first
    | assumption | apply State.attest_keeps | (refine State.onAttest_keeps (fun h => ?_) ?_) | dsimp only | split

theorem execGetCert_keeps {s₀ s : State} {t : Transport} {seq off len : Nat} (hK : Keeps s₀ s) : KeepsA s₀ (execGetCert t seq off len s) := by
  unfold execGetCert
  with_reducible repeat' first
    | assumption | apply State.attest_keeps | apply State.attestNo_keeps | (refine State.onAttest_keeps (fun h => ?_) ?_) | dsimp only | split

theorem execGetReport_keeps {s₀ s : State} {t : Transport} {seq : Nat} {nonce : List Byte} (hK : Keeps s₀ s) : KeepsA s₀ (execGetReport t seq nonce s) := by
  unfold execGetReport
  with_reducible repeat' first
    | assumption | apply State.bump_keeps | apply State.attest_keeps | apply State.attestNo_keeps | (refine State.onAttest_keeps (fun h => ?_) ?_) | dsimp only | split

theorem State.setSession_keeps {s₀ s : State} {y : Session} (hK : Keeps s₀ s) : Keeps s₀ (State.setSession s y) := by
  unfold State.setSession
  with_reducible repeat' first
    | assumption | dsimp only | split | refine Keeps.upd ?_ ?_ ?_ ?_ ?_ ?_ | exact fun e => e | exact OtpOnlyAdds.upd | exact Nat.le_refl _

theorem execSessionOpen_keeps {s₀ s : State} {port : Port} {seq part : Nat} (hK : Keeps s₀ s) : KeepsA s₀ (execSessionOpen port seq part s) := by
  unfold execSessionOpen
  with_reducible repeat' first
    | assumption | apply State.bump_keeps | apply State.attest_keeps | apply State.attestNo_keeps | (refine State.onAttest_keeps (fun h => ?_) ?_) | dsimp only | split | refine Keeps.upd ?_ ?_ ?_ ?_ ?_ ?_ | exact fun e => e | exact OtpOnlyAdds.upd | exact Nat.le_refl _

theorem execSessionKey_keeps {s₀ s : State} {port : Port} {seq part : Nat} {ct : List Byte} (hK : Keeps s₀ s) : KeepsA s₀ (execSessionKey port seq part ct s) := by
  unfold execSessionKey
  with_reducible repeat' first
    | assumption | apply State.attest_keeps | apply State.attestNo_keeps | (refine State.onAttest_keeps (fun h => ?_) ?_) | apply State.setSession_keeps | dsimp only | split

theorem State.opens_keeps {s₀ s : State} {p : Port} {part seq : Nat} {msg : List Byte} {t : State} {d : List Byte} (e : s.opens p part seq msg = some (d, t))
    (h : Keeps s₀ s) : Keeps s₀ t := by
  unfold State.opens at e
  split at e
  · cases e
  · split at e
    · cases e
    · obtain ⟨d, _, e⟩ := Option.map_eq_some_iff.1 e
      cases e; exact State.setSession_keeps h

theorem State.inSession_keeps {s₀ s : State} {p : Port} {code seq part : Nat} {msg : List Byte} {f : List Byte → State → State} (hf : ∀ {a b : State} {d : List Byte}, Keeps a b → Keeps a (f d b)) (hK : Keeps s₀ s) : KeepsA s₀ (State.inSession s p code seq part msg f) := by
  unfold State.inSession
  with_reducible repeat' first
    | assumption | apply State.raise_keeps | apply State.attestNo_keeps | (refine State.onAttest_keeps (fun h => ?_) ?_) | (refine State.opens_keeps (by assumption) ?_) | apply hf | dsimp only | split

theorem execSetIdeKey_keeps {s₀ s : State} {port : Port} {seq part : Nat} {msg : List Byte} (hK : Keeps s₀ s) : KeepsA s₀ (execSetIdeKey port seq part msg s) := by
  unfold execSetIdeKey
  with_reducible repeat' first
    | assumption | apply State.attest_keeps | (refine State.inSession_keeps (fun h => ?_) ?_) | dsimp only | split | refine Keeps.upd ?_ ?_ ?_ ?_ ?_ ?_ | exact fun e => e | exact OtpOnlyAdds.upd | exact Nat.le_refl _

theorem execSessionClose_keeps {s₀ s : State} {port : Port} {seq part : Nat} {msg : List Byte} (hK : Keeps s₀ s) : KeepsA s₀ (execSessionClose port seq part msg s) := by
  unfold execSessionClose
  with_reducible repeat' first
    | assumption | apply State.endSession_keeps | apply State.attest_keeps | (refine State.inSession_keeps (fun h => ?_) ?_) | dsimp only | split

theorem State.zeroPart_keeps {s₀ s : State} {p : Nat} (hK : Keeps s₀ s) : Keeps s₀ (State.zeroPart s p) := by
  unfold State.zeroPart
  with_reducible repeat' first
    | assumption | apply State.modPart_keeps | dsimp only | split | refine Keeps.upd ?_ ?_ ?_ ?_ ?_ ?_ | exact fun e => e | exact OtpOnlyAdds.upd | exact Nat.le_refl _ | exact memWf_filter _

theorem State.trimWindow_keeps {s₀ s : State} {p : Nat} (hK : Keeps s₀ s) : Keeps s₀ (State.trimWindow s p) := by
  unfold State.trimWindow
  with_reducible repeat' first
    | assumption | dsimp only | split | refine Keeps.upd ?_ ?_ ?_ ?_ ?_ ?_ | exact fun e => e | exact OtpOnlyAdds.refl _ | exact Nat.le_refl _

theorem State.measureEntries_keeps {s₀ s : State} (hK : Keeps s₀ s) : Keeps s₀ (State.measureEntries s) := by
  unfold State.measureEntries
  with_reducible repeat' first
    | assumption | apply State.measure_keeps | dsimp only | split

theorem State.enterConf_keeps {s₀ s : State} {p : Nat} (hK : Keeps s₀ s) : Keeps s₀ (State.enterConf s p) := by
  unfold State.enterConf
  with_reducible repeat' first
    | assumption | apply State.zeroPart_keeps | apply State.trimWindow_keeps | apply State.measureEntries_keeps | dsimp only | split | refine Keeps.upd ?_ ?_ ?_ ?_ ?_ ?_ | exact fun e => e | exact OtpOnlyAdds.upd | exact Nat.le_refl _

theorem State.exitConf_keeps {s₀ s : State} {p : Nat} (hK : Keeps s₀ s) : Keeps s₀ (State.exitConf s p) := by
  unfold State.exitConf
  with_reducible repeat' first
    | assumption | apply State.zeroPart_keeps | apply State.trimWindow_keeps | apply State.measureEntries_keeps | dsimp only | split | refine Keeps.upd ?_ ?_ ?_ ?_ ?_ ?_ | exact fun e => e | exact OtpOnlyAdds.upd | exact Nat.le_refl _

theorem execConfidentialEnter_keeps {s₀ s : State} {port : Port} {seq part : Nat} {msg : List Byte} (hK : Keeps s₀ s) : KeepsA s₀ (execConfidentialEnter port seq part msg s) := by
  unfold execConfidentialEnter
  with_reducible repeat' first
    | assumption | apply State.attest_keeps | apply State.attestNo_keeps | (refine State.inSession_keeps (fun h => ?_) ?_) | apply State.enterConf_keeps | dsimp only | split

theorem execConfidentialExit_keeps {s₀ s : State} {port : Port} {seq part : Nat} {msg : List Byte} (hK : Keeps s₀ s) : KeepsA s₀ (execConfidentialExit port seq part msg s) := by
  unfold execConfidentialExit
  with_reducible repeat' first
    | assumption | apply State.attest_keeps | apply State.attestNo_keeps | (refine State.inSession_keeps (fun h => ?_) ?_) | apply State.exitConf_keeps | dsimp only | split

theorem execIdeDrop_keeps {s₀ s : State} {port : Port} {part : Nat} {posted : Bool} (hK : Keeps s₀ s) : KeepsA s₀ (execIdeDrop port part posted s) := by
  unfold execIdeDrop
  with_reducible repeat' first
    | assumption | apply State.bump_keeps | apply State.emit_keeps | apply State.raiseAt_keeps | apply KeepsA.next | dsimp only | split

end Sys2Proof.Machine
end

