-- ==== Sys2Proof/Laws/KeepPower.lean ====
section
/-! SUPPORT. The operations of Machine/Power.lean keep what every operation keeps. -/

namespace Sys2Proof.Machine

theorem State.setMv_keeps {s₀ s : State} {mv : List Nat} (hK : Keeps s₀ s) : Keeps s₀ (State.setMv s mv) := by
  unfold State.setMv
  with_reducible repeat' first
    | assumption | dsimp only | split | refine Keeps.upd ?_ ?_ ?_ ?_ ?_ ?_ | exact fun e => e | exact OtpOnlyAdds.refl _ | exact Nat.le_refl _

theorem State.resetTyped_keeps {s₀ s : State} {d : Nat} (hK : Keeps s₀ s) : Keeps s₀ (State.resetTyped s d) := by
  unfold State.resetTyped
  with_reducible repeat' first
    | assumption | dsimp only | split | refine Keeps.upd ?_ ?_ ?_ ?_ ?_ ?_ | exact fun e => e | exact OtpOnlyAdds.refl _ | exact Nat.le_refl _

theorem State.resetDomain_keeps {s₀ s : State} {d : Nat} (hK : Keeps s₀ s) : Keeps s₀ (State.resetDomain s d) := by
  unfold State.resetDomain
  with_reducible repeat' first
    | assumption | apply State.resetTyped_keeps | dsimp only | split | refine Keeps.upd ?_ ?_ ?_ ?_ ?_ ?_ | exact fun e => e | exact OtpOnlyAdds.refl _ | exact Nat.le_refl _

theorem State.stageOn_keeps {s₀ s : State} {l : List Nat} (hK : Keeps s₀ s) : Keeps s₀ (State.stageOn s l) := by
  unfold State.stageOn
  with_reducible repeat' first
    | assumption | apply State.switchBit_keeps | (refine Keeps.foldl (fun h => ?_) _ ?_) | dsimp only | split

theorem State.dropUnprogrammed_keeps {s₀ s : State} (hK : Keeps s₀ s) : Keeps s₀ (State.dropUnprogrammed s) := by
  unfold State.dropUnprogrammed
  with_reducible repeat' first
    | assumption | dsimp only | split | refine Keeps.upd ?_ ?_ ?_ ?_ ?_ ?_ | exact fun e => e | exact OtpOnlyAdds.refl _ | exact Nat.le_refl _

theorem State.dropStages_keeps {s₀ s : State} (hK : Keeps s₀ s) : Keeps s₀ (State.dropStages s) := by
  unfold State.dropStages
  with_reducible repeat' first
    | assumption | apply State.discard_keeps | (refine Keeps.foldl (fun h => ?_) _ ?_) | dsimp only | split

theorem State.keepBound_keeps {s₀ s t : State} (h : Keeps s₀ t) (h1 : s.pending = t.pending) (h2 : s.free = t.free) (h3 : s.nextCmd = t.nextCmd)
    (h4 : s.nextTxn = t.nextTxn) : Keeps s₀ (s.keepBound t) :=
  h.trans ⟨h1, fun e => e, ⟨.inl rfl, rfl, rfl, fun _ h => h, Nat.le_refl _⟩, Nat.le_of_eq h2.symm, Nat.le_of_eq h3.symm, Nat.le_of_eq h4.symm⟩

theorem State.mainOff_keeps {s₀ s : State} (h : Keeps s₀ s) : Keeps s₀ s.mainOff :=
  State.keepBound_keeps (Keeps.foldl (fun h => State.switchBit_keeps h) _ (State.dropStages_keeps (State.portReset_keeps (State.portReset_keeps h)))) rfl rfl rfl rfl

theorem State.enterHold_keeps {s₀ s : State} {inj : Bool} (hK : Keeps s₀ s) : Keeps s₀ (State.enterHold s inj) := by
  unfold State.enterHold
  with_reducible repeat' first
    | assumption | apply State.pumpDies_keeps | apply State.hold_keeps | dsimp only | split | refine Keeps.upd ?_ ?_ ?_ ?_ ?_ ?_ | exact fun e => e | exact OtpOnlyAdds.refl _ | exact OtpOnlyAdds.upd | exact Nat.le_refl _ | exact Nat.le_add_right _ _

theorem State.injectDip_keeps {s₀ s : State} (hK : Keeps s₀ s) : Keeps s₀ (State.injectDip s) := by
  unfold State.injectDip
  with_reducible repeat' first
    | assumption | apply State.disarm_keeps | apply State.enterHold_keeps | dsimp only | split

theorem execHoldEnter_keeps {s₀ s : State} {mv : List Nat} (hK : Keeps s₀ s) : KeepsA s₀ (execHoldEnter mv s) := by
  unfold execHoldEnter
  with_reducible repeat' first
    | assumption | apply State.setMv_keeps | apply State.enterHold_keeps | apply KeepsA.next | dsimp only | split

theorem State.closeRows_keeps {p st : Nat} (n : Nat) : ∀ {s₀ s : State}, Keeps s₀ s → Keeps s₀ (s.closeRows p st n) := by
  induction n with
  | zero => intro s₀ s h; exact h
  | succ n ih =>
    intro s₀ s h
    unfold State.closeRows
    split
    · exact h
    · exact ih (State.programRow_keeps h)

theorem State.flushAll_keeps {s₀ s : State} (hK : Keeps s₀ s) : Keeps s₀ (State.flushAll s) := by
  unfold State.flushAll
  with_reducible repeat' first
    | assumption | apply State.closeRows_keeps | (refine Keeps.foldl (fun h => ?_) _ ?_) | dsimp only | split | refine Keeps.upd ?_ ?_ ?_ ?_ ?_ ?_ | exact fun e => e | exact OtpOnlyAdds.refl _ | exact Nat.le_refl _

theorem State.startAgain_keeps {s₀ s : State} (hK : Keeps s₀ s) : Keeps s₀ (State.startAgain s) := by
  unfold State.startAgain
  with_reducible repeat' first
    | assumption | apply State.bump_keeps | apply State.enterStage_keeps | apply State.romStart_keeps | apply State.stageOn_keeps | dsimp only | split | refine Keeps.upd ?_ ?_ ?_ ?_ ?_ ?_ | exact fun e => e | exact OtpOnlyAdds.refl _ | exact Nat.le_refl _

theorem State.flushEnd_keeps {s₀ s : State} (hK : Keeps s₀ s) : Keeps s₀ (State.flushEnd s) := by
  unfold State.flushEnd
  with_reducible repeat' first
    | assumption | apply State.mainOff_keeps | apply State.flushAll_keeps | apply State.startAgain_keeps | dsimp only | split | refine Keeps.upd ?_ ?_ ?_ ?_ ?_ ?_ | exact fun e => e | exact OtpOnlyAdds.refl _ | exact Nat.le_refl _

theorem State.startFlush_keeps {s₀ s : State} {cause : Nat} (hK : Keeps s₀ s) : Keeps s₀ (State.startFlush s cause) := by
  unfold State.startFlush
  with_reducible repeat' first
    | assumption | apply State.bump_keeps | apply State.logEvent_keeps | apply State.flushEnd_keeps | dsimp only | split | refine Keeps.upd ?_ ?_ ?_ ?_ ?_ ?_ | exact fun e => e | exact OtpOnlyAdds.refl _ | exact Nat.le_refl _

theorem execFlushComplete_keeps {s₀ s : State} (hK : Keeps s₀ s) : KeepsA s₀ (execFlushComplete s) := by
  unfold execFlushComplete
  with_reducible repeat' first
    | assumption | apply State.flushEnd_keeps | apply KeepsA.next | dsimp only | split

theorem execPwrFailN_keeps {s₀ s : State} {ns : Nat} {stays : Bool} (hK : Keeps s₀ s) : KeepsA s₀ (execPwrFailN ns stays s) := by
  unfold execPwrFailN
  with_reducible repeat' first
    | assumption | apply State.takeFree_keeps | apply State.raise_keeps | apply State.startFlush_keeps | apply KeepsA.next | dsimp only | split | refine Keeps.upd ?_ ?_ ?_ ?_ ?_ ?_ | exact fun e => e | exact OtpOnlyAdds.refl _ | exact Nat.le_refl _

theorem execVmonRst_keeps {s₀ s : State} {mv : List Nat} (hK : Keeps s₀ s) : KeepsA s₀ (execVmonRst mv s) := by
  unfold execVmonRst
  with_reducible repeat' first
    | assumption | apply State.raise_keeps | apply State.setMv_keeps | apply State.startFlush_keeps | apply KeepsA.next | dsimp only | split

theorem execHoldMaxExpiry_keeps {s₀ s : State} (hK : Keeps s₀ s) : KeepsA s₀ (execHoldMaxExpiry s) := by
  unfold execHoldMaxExpiry
  with_reducible repeat' first
    | assumption | apply State.bump_keeps | apply State.raise_keeps | apply State.startFlush_keeps | apply KeepsA.next | dsimp only | split

theorem execRestartAfterFlush_keeps {s₀ s : State} (hK : Keeps s₀ s) : KeepsA s₀ (execRestartAfterFlush s) := by
  unfold execRestartAfterFlush
  with_reducible repeat' first
    | assumption | apply State.startAgain_keeps | apply KeepsA.next | dsimp only | split | refine Keeps.upd ?_ ?_ ?_ ?_ ?_ ?_ | exact fun e => e | exact OtpOnlyAdds.refl _ | exact Nat.le_refl _

theorem execThermalTrip_keeps {s₀ s : State} {temps : List Nat} (hK : Keeps s₀ s) : KeepsA s₀ (execThermalTrip temps s) := by
  unfold execThermalTrip
  with_reducible repeat' first
    | assumption | apply State.raise_keeps | apply State.startFlush_keeps | apply KeepsA.next | dsimp only | split | refine Keeps.upd ?_ ?_ ?_ ?_ ?_ ?_ | exact fun e => e | exact OtpOnlyAdds.refl _ | exact Nat.le_refl _

theorem execThermalRecovery_keeps {s₀ s : State} {temps : List Nat} (hK : Keeps s₀ s) : KeepsA s₀ (execThermalRecovery temps s) := by
  unfold execThermalRecovery
  with_reducible repeat' first
    | assumption | apply State.startAgain_keeps | apply KeepsA.next | dsimp only | split | refine Keeps.upd ?_ ?_ ?_ ?_ ?_ ?_ | exact fun e => e | exact OtpOnlyAdds.refl _ | exact Nat.le_refl _

theorem State.avsWrite_keeps {s₀ s : State} {v : Nat} {ok : Bool} (hK : Keeps s₀ s) : Keeps s₀ (State.avsWrite s v ok) := by
  unfold State.avsWrite
  with_reducible repeat' first
    | assumption | apply State.raise_keeps | dsimp only | split | refine Keeps.upd ?_ ?_ ?_ ?_ ?_ ?_ | exact fun e => e | exact OtpOnlyAdds.refl _ | exact Nat.le_refl _

theorem execVoltageLoopStep_keeps {s₀ s : State} {temp power : Nat} {avsOk : Bool} (hK : Keeps s₀ s) : KeepsA s₀ (execVoltageLoopStep temp power avsOk s) := by
  unfold execVoltageLoopStep
  with_reducible repeat' first
    | assumption | apply State.bump_keeps | apply State.avsWrite_keeps | apply KeepsA.next | dsimp only | split | refine Keeps.upd ?_ ?_ ?_ ?_ ?_ ?_ | exact fun e => e | exact OtpOnlyAdds.refl _ | exact Nat.le_refl _

theorem execSensorRefresh_keeps {s₀ s : State} {vals : List Nat} (hK : Keeps s₀ s) : KeepsA s₀ (execSensorRefresh vals s) := by
  unfold execSensorRefresh
  with_reducible repeat' first
    | assumption | apply State.bump_keeps | apply State.setMv_keeps | apply KeepsA.next | dsimp only | split | refine Keeps.upd ?_ ?_ ?_ ?_ ?_ ?_ | exact fun e => e | exact OtpOnlyAdds.refl _ | exact Nat.le_refl _

theorem State.spareBad_keeps {s₀ s : State} {f : Nat} (hK : Keeps s₀ s) : Keeps s₀ (State.spareBad s f) := by
  unfold State.spareBad
  with_reducible repeat' first
    | assumption | apply State.elogAt_keeps | apply State.failDomain_keeps | dsimp only | split | refine Keeps.upd ?_ ?_ ?_ ?_ ?_ ?_ | exact fun e => e | exact OtpOnlyAdds.refl _ | exact OtpOnlyAdds.upd | exact Nat.le_refl _ | exact Nat.le_add_right _ _ | exact memWf_filter _ | exact memWf_memWrite _ _ | exact memWf_foldl_memSet _

theorem State.trainStacks_keeps {s₀ s : State} {q : Nat} {rep : StartReport} (hK : Keeps s₀ s) : Keeps s₀ (State.trainStacks s q rep) := by
  unfold State.trainStacks
  with_reducible repeat' first
    | assumption | apply State.failChannel_keeps | apply State.spareBad_keeps | (refine Keeps.foldl (fun h => ?_) _ ?_) | dsimp only | split

theorem State.testCourses_keeps {s₀ s : State} {d : Nat} {rep : StartReport} (hK : Keeps s₀ s) : Keeps s₀ (State.testCourses s d rep) := by
  unfold State.testCourses
  with_reducible repeat' first
    | assumption | apply State.raiseAt_keeps | apply State.fenceCourse_keeps | apply State.settleCourse_keeps | (refine Keeps.foldl (fun h => ?_) _ ?_) | dsimp only | split | refine Keeps.upd ?_ ?_ ?_ ?_ ?_ ?_ | exact fun e => e | exact OtpOnlyAdds.refl _ | exact Nat.le_refl _

theorem State.findNand_keeps {s₀ s : State} {chs : List Nat} {rep : StartReport} (hK : Keeps s₀ s) : Keeps s₀ (State.findNand s chs rep) := by
  unfold State.findNand
  with_reducible repeat' first
    | assumption | apply State.raise_keeps | apply State.modDie_keeps | (refine Keeps.foldl (fun h => ?_) _ ?_) | dsimp only | split | refine Keeps.upd ?_ ?_ ?_ ?_ ?_ ?_ | exact fun e => e | exact OtpOnlyAdds.refl _ | exact Nat.le_refl _

theorem State.confAgain_keeps {s₀ s : State} (hK : Keeps s₀ s) : Keeps s₀ (State.confAgain s) := by
  unfold State.confAgain
  with_reducible repeat' first
    | assumption | (refine Keeps.foldl (fun h => ?_) _ ?_) | dsimp only | split | refine Keeps.upd ?_ ?_ ?_ ?_ ?_ ?_ | exact fun e => e | exact OtpOnlyAdds.upd | exact Nat.le_refl _

theorem State.loadMaps_keeps {s₀ s : State} (hK : Keeps s₀ s) : Keeps s₀ (State.loadMaps s) := by
  unfold State.loadMaps
  with_reducible repeat' first
    | assumption | apply State.bump_keeps | apply State.raise_keeps | apply State.measureEntries_keeps | apply State.confAgain_keeps | dsimp only | split | refine Keeps.upd ?_ ?_ ?_ ?_ ?_ ?_ | exact fun e => e | exact OtpOnlyAdds.refl _ | exact Nat.le_refl _

theorem State.wakeLinks_keeps {s₀ s : State} {q : Nat} (hK : Keeps s₀ s) : Keeps s₀ (State.wakeLinks s q) := by
  unfold State.wakeLinks
  with_reducible repeat' first
    | assumption | apply State.setLink_keeps | (refine Keeps.foldl (fun h => ?_) _ ?_) | dsimp only | split

theorem execStage0Entry_keeps {s₀ s : State} {mv : List Nat} (hK : Keeps s₀ s) : KeepsA s₀ (execStage0Entry mv s) := by
  unfold execStage0Entry
  with_reducible repeat' first
    | assumption | apply State.enterStage_keeps | apply State.romStart_keeps | apply State.setMv_keeps | apply State.stageOn_keeps | apply KeepsA.next | dsimp only | split

theorem State.toStage1_keeps {s₀ s : State} {rep : StartReport} (hK : Keeps s₀ s) : Keeps s₀ (State.toStage1 s rep) := by
  unfold State.toStage1
  with_reducible repeat' first
    | assumption | apply State.enterStage_keeps | apply State.bootPatch_keeps | apply State.setMv_keeps | apply State.stageOn_keeps | apply State.injectDip_keeps | apply State.avsWrite_keeps | dsimp only | split | refine Keeps.upd ?_ ?_ ?_ ?_ ?_ ?_ | exact fun e => e | exact OtpOnlyAdds.refl _ | exact Nat.le_refl _

theorem State.toStage2_keeps {s₀ s : State} (hK : Keeps s₀ s) : Keeps s₀ (State.toStage2 s) := by
  unfold State.toStage2
  with_reducible repeat' first
    | assumption | apply State.enterStage_keeps | apply State.stageOn_keeps | dsimp only | split | refine Keeps.upd ?_ ?_ ?_ ?_ ?_ ?_ | exact fun e => e | exact OtpOnlyAdds.refl _ | exact OtpOnlyAdds.upd | exact Nat.le_refl _ | exact Nat.le_add_right _ _

theorem State.takeStageSize_keeps {s₀ s : State} (hK : Keeps s₀ s) : Keeps s₀ (State.takeStageSize s) := by
  unfold State.takeStageSize
  with_reducible repeat' first
    | assumption | apply State.setReg32_keeps | (refine Keeps.foldl (fun h => ?_) _ ?_) | dsimp only | split

theorem State.toStage3_keeps {s₀ s : State} {rep : StartReport} (hK : Keeps s₀ s) : Keeps s₀ (State.toStage3 s rep) := by
  unfold State.toStage3
  with_reducible repeat' first
    | assumption | apply State.raise_keeps | apply State.enterStage_keeps | apply State.stageOn_keeps | apply State.trainStacks_keeps | apply State.testCourses_keeps | apply State.takeStageSize_keeps | (refine Keeps.foldl (fun h => ?_) _ ?_) | dsimp only | split

theorem State.toStage4_keeps {s₀ s : State} {rep : StartReport} (hK : Keeps s₀ s) : Keeps s₀ (State.toStage4 s rep) := by
  unfold State.toStage4
  with_reducible repeat' first
    | assumption | apply State.enterStage_keeps | apply State.stageOn_keeps | apply State.findNand_keeps | apply State.loadMaps_keeps | apply State.wakeLinks_keeps | (refine Keeps.foldl (fun h => ?_) _ ?_) | dsimp only | split

theorem execStageAdvance_keeps {s₀ s : State} {rep : StartReport} (hK : Keeps s₀ s) : KeepsA s₀ (execStageAdvance rep s) := by
  unfold execStageAdvance
  with_reducible repeat' first
    | assumption | apply State.toStage1_keeps | apply State.toStage2_keeps | apply State.toStage3_keeps | apply State.toStage4_keeps | apply KeepsA.next | dsimp only | split

theorem execPwrGood_keeps {s₀ s : State} {on : Bool} {straps : Nat} (h : Keeps s₀ s) : KeepsA s₀ (execPwrGood on straps s) := by
  unfold execPwrGood
  split
  · exact KeepsA.next h
  · dsimp only
    split
    · exact KeepsA.next (Keeps.upd h (fun e => e) (.refl _) (Nat.le_refl _) (Nat.le_refl _) (Nat.le_refl _))
    · exact KeepsA.next (State.keepBound_keeps (State.dropUnprogrammed_keeps (State.dropStages_keeps h)) rfl rfl rfl rfl)

theorem State.domainGone_keeps {s₀ s : State} {d : Nat} (hK : Keeps s₀ s) : Keeps s₀ (State.domainGone s d) := by
  unfold State.domainGone
  with_reducible repeat' first
    | assumption | apply State.modPort_keeps | apply State.settleCourse_keeps | apply State.linkLost_keeps | (refine Keeps.foldl (fun h => ?_) _ ?_) | dsimp only | split | refine Keeps.upd ?_ ?_ ?_ ?_ ?_ ?_ | exact fun e => e | exact OtpOnlyAdds.refl _ | exact Nat.le_refl _

theorem State.pdApply_keeps {s₀ s : State} {d : Nat} {on : Bool} (hK : Keeps s₀ s) : Keeps s₀ (State.pdApply s d on) := by
  unfold State.pdApply
  with_reducible repeat' first
    | assumption | apply State.setLink_keeps | apply State.switchBit_keeps | apply State.leaveDomains_keeps | apply State.resetDomain_keeps | apply State.domainGone_keeps | (refine Keeps.foldl (fun h => ?_) _ ?_) | (refine Keeps.foldl_fst (fun h => ?_) _ ?_) | (refine Keeps.foldl_snd (fun h => ?_) _ ?_) | dsimp only | split | refine Keeps.upd ?_ ?_ ?_ ?_ ?_ ?_ | exact fun e => e | exact OtpOnlyAdds.refl _ | exact OtpOnlyAdds.upd | exact Nat.le_refl _ | exact Nat.le_add_right _ _

theorem State.pdRequest_keeps {s₀ s : State} {d : Nat} {on : Bool} (hK : Keeps s₀ s) : Keeps s₀ (State.pdRequest s d on).1 := by
  unfold State.pdRequest
  with_reducible repeat' first
    | assumption | apply State.raise_keeps | apply State.hold_keeps | apply State.pdApply_keeps | dsimp only | split | refine Keeps.upd ?_ ?_ ?_ ?_ ?_ ?_ | exact fun e => e | exact OtpOnlyAdds.refl _ | exact OtpOnlyAdds.upd | exact Nat.le_refl _ | exact Nat.le_add_right _ _

theorem execPdSwitchOn_keeps {s₀ s : State} {a : Agent} {domain : Nat} (hK : Keeps s₀ s) : KeepsA s₀ (execPdSwitchOn a domain s) := by
  unfold execPdSwitchOn
  with_reducible repeat' first
    | assumption | apply State.pdRequest_keeps | apply KeepsA.next | dsimp only | split

theorem execPdSwitchOff_keeps {s₀ s : State} {a : Agent} {domain : Nat} (hK : Keeps s₀ s) : KeepsA s₀ (execPdSwitchOff a domain s) := by
  unfold execPdSwitchOff
  with_reducible repeat' first
    | assumption | apply State.pdRequest_keeps | apply KeepsA.next | dsimp only | split

theorem execDomainOnDone_keeps {s₀ s : State} {domain : Nat} {rep : StartReport} (hK : Keeps s₀ s) : KeepsA s₀ (execDomainOnDone domain rep s) := by
  unfold execDomainOnDone
  with_reducible repeat' first
    | assumption | apply State.trainStacks_keeps | apply State.testCourses_keeps | apply State.findNand_keeps | apply State.wakeLinks_keeps | apply KeepsA.next | dsimp only | split | refine Keeps.upd ?_ ?_ ?_ ?_ ?_ ?_ | exact fun e => e | exact OtpOnlyAdds.refl _ | exact Nat.le_refl _

theorem State.release_keeps {s₀ s : State} (h : Keeps s₀ s) : Keeps s₀ s.release := by
  unfold State.release
  dsimp only
  refine State.pumpDies_keeps ?_
  refine Keeps.foldl (fun h => State.pdApply_keeps h) _ ?_
  refine Keeps.upd ?_ (fun e => e) (.refl _) (Nat.le_refl _) (Nat.le_refl _) (Nat.le_refl _)
  refine Keeps.foldl (fun h => State.run_keeps h) _ ?_
  refine Keeps.foldl (fun h => State.releaseCapos_keeps h) _ ?_
  refine Keeps.foldl (fun h => ?_) _ h
  split
  · rename_i e; exact execCommitPhase_keeps h _ e
  · exact h

theorem execHoldExit_keeps {s₀ s : State} {mv : List Nat} (hK : Keeps s₀ s) : KeepsA s₀ (execHoldExit mv s) := by
  unfold execHoldExit
  with_reducible repeat' first
    | assumption | apply State.bump_keeps | apply State.logEvent_keeps | apply State.setMv_keeps | apply State.injectDip_keeps | apply State.release_keeps | apply KeepsA.next | dsimp only | split | refine Keeps.upd ?_ ?_ ?_ ?_ ?_ ?_ | exact fun e => e | exact OtpOnlyAdds.refl _ | exact Nat.le_refl _

theorem execLctrSourceSwitch_keeps {s₀ s : State} {pa pb : Bool} (hK : Keeps s₀ s) : KeepsA s₀ (execLctrSourceSwitch pa pb s) := by
  unfold execLctrSourceSwitch
  with_reducible repeat' first
    | assumption | apply KeepsA.next | dsimp only | split | refine Keeps.upd ?_ ?_ ?_ ?_ ?_ ?_ | exact fun e => e | exact OtpOnlyAdds.refl _ | exact Nat.le_refl _

end Sys2Proof.Machine
end

