-- ==== Sys2Proof/Laws/KeepRegisters.lean ====
section
/-! SUPPORT. The operations of Machine/Registers.lean keep what every operation keeps. -/

namespace Sys2Proof.Machine

theorem Answer.state_keeps {s₀ s : State} {a : Answer} (ha : KeepsA s₀ a) (h : Keeps s₀ s) : Keeps s₀ (Answer.state s a) := by
  unfold Answer.state
  split
  · exact ha _ rfl
  · exact h

theorem State.rwlDrop_keeps {s₀ s : State} (hK : Keeps s₀ s) : Keeps s₀ (State.rwlDrop s) := by
  unfold State.rwlDrop
  with_reducible repeat' first
    | assumption | apply State.bump_keeps | dsimp only | split

theorem State.unlessLocked_keeps {s₀ s : State} {lock : Bool} {f : State → State} (hf : ∀ {a b : State}, Keeps a b → Keeps a (f b)) (hK : Keeps s₀ s) : Keeps s₀ (State.unlessLocked s lock f) := by
  unfold State.unlessLocked
  with_reducible repeat' first
    | assumption | apply State.rwlDrop_keeps | apply hf | dsimp only | split

theorem State.writeStored_keeps {s₀ s : State} {g : Page} {off v : Nat} (hK : Keeps s₀ s) : Keeps s₀ (State.writeStored s g off v) := by
  unfold State.writeStored
  with_reducible repeat' first
    | assumption | apply State.setReg32_keeps | apply State.rwlDrop_keeps | dsimp only | split

theorem State.clearErr_keeps {s₀ s : State} {base mask : Nat} (hK : Keeps s₀ s) : Keeps s₀ (State.clearErr s base mask) := by
  unfold State.clearErr
  with_reducible repeat' first
    | assumption | apply State.setReg32_keeps | dsimp only | split

theorem State.writeErrEn_keeps {s₀ s : State} {g : Page} {v : Nat} (hK : Keeps s₀ s) : Keeps s₀ (State.writeErrEn s g v) := by
  unfold State.writeErrEn
  with_reducible repeat' first
    | assumption | apply State.setReg32_keeps | (refine State.withSum_keeps (fun h => ?_) ?_) | dsimp only | split

theorem State.writeInj_keeps {s₀ s : State} {g : Page} {v : Nat} (hK : Keeps s₀ s) : Keeps s₀ (State.writeInj s g v) := by
  unfold State.writeInj
  with_reducible repeat' first
    | assumption | apply State.setReg32_keeps | apply State.disarm_keeps | apply State.retrain_keeps | apply State.injectDip_keeps | dsimp only | split

theorem State.writeHeader_keeps {s₀ s : State} {g : Page} {o v : Nat} (hK : Keeps s₀ s) : Keeps s₀ (State.writeHeader s g o v) := by
  unfold State.writeHeader
  with_reducible repeat' first
    | assumption | apply State.writeFence_keeps | apply State.clearErr_keeps | apply State.writeErrEn_keeps | apply State.writeInj_keeps | dsimp only | split

theorem State.copyEvent_keeps {s₀ s : State} {a : Agent} {seq : Nat} (hK : Keeps s₀ s) : Keeps s₀ (State.copyEvent s a seq) := by
  unfold State.copyEvent
  with_reducible repeat' first
    | assumption | apply State.setSel_keeps | dsimp only | split | refine Keeps.upd ?_ ?_ ?_ ?_ ?_ ?_ | exact fun e => e | exact OtpOnlyAdds.refl _ | exact Nat.le_refl _

theorem State.writePegSel_keeps {s₀ s : State} {a : Agent} {v : Nat} (hK : Keeps s₀ s) : Keeps s₀ (State.writePegSel s a v) := by
  unfold State.writePegSel
  with_reducible repeat' first
    | assumption | apply State.setSel_keeps | apply State.dropLatch_keeps | (refine Keeps.foldl (fun h => ?_) _ ?_) | dsimp only | split

theorem State.writeSel_keeps {s₀ s : State} {a : Agent} {g : Page} {off v : Nat} (hK : Keeps s₀ s) : Keeps s₀ (State.writeSel s a g off v) := by
  unfold State.writeSel
  with_reducible repeat' first
    | assumption | apply State.setSel_keeps | apply State.copyEvent_keeps | apply State.writePegSel_keeps | dsimp only | split

theorem State.writePegBind_keeps {s₀ s : State} {a : Agent} {v : Nat} (hK : Keeps s₀ s) : Keeps s₀ (State.writePegBind s a v) := by
  unfold State.writePegBind
  with_reducible repeat' first
    | assumption | apply State.rwlDrop_keeps | dsimp only | split | refine Keeps.upd ?_ ?_ ?_ ?_ ?_ ?_ | exact fun e => e | exact OtpOnlyAdds.refl _ | exact Nat.le_refl _

theorem State.writeHif_keeps {s₀ s : State} {a : Agent} {p : Port} {o v : Nat} (hK : Keeps s₀ s) : Keeps s₀ (State.writeHif s a p o v) := by
  unfold State.writeHif
  with_reducible repeat' first
    | assumption | apply State.setRing_keeps | apply State.setReg32_keeps | apply State.ringWrite_keeps | apply execRelease_keeps | apply execTake_keeps | apply execForcedTakeover_keeps | apply Answer.state_keeps | dsimp only | split

theorem State.writePerm_keeps {s₀ s : State} {a : Agent} {v : Nat} (hK : Keeps s₀ s) : Keeps s₀ (State.writePerm s a v) := by
  unfold State.writePerm
  with_reducible repeat' first
    | assumption | apply State.setReg32_keeps | (refine State.unlessLocked_keeps (fun h => ?_) ?_) | dsimp only | split

theorem State.writeEntCfg_keeps {s₀ s : State} {a : Agent} {v : Nat} (hK : Keeps s₀ s) : Keeps s₀ (State.writeEntCfg s a v) := by
  unfold State.writeEntCfg
  with_reducible repeat' first
    | assumption | apply State.modCtx_keeps | apply State.raiseAt_keeps | (refine State.unlessLocked_keeps (fun h => ?_) ?_) | dsimp only | split

theorem State.writeEntCtl_keeps {s₀ s : State} {a : Agent} {v : Nat} (hK : Keeps s₀ s) : Keeps s₀ (State.writeEntCtl s a v) := by
  unfold State.writeEntCtl
  with_reducible repeat' first
    | assumption | apply execEnable_keeps | apply execDisable_keeps | apply execClear_keeps | apply execFault_keeps | apply execUnbind_keeps | apply Answer.state_keeps | dsimp only | split

theorem State.writeCtx_keeps {s₀ s : State} {a : Agent} {o v : Nat} (hK : Keeps s₀ s) : Keeps s₀ (State.writeCtx s a o v) := by
  unfold State.writeCtx
  with_reducible repeat' first
    | assumption | apply State.modPart_keeps | apply execCtxPartSramWrite_keeps | apply Answer.state_keeps | apply State.writeEntCfg_keeps | apply State.writeEntCtl_keeps | dsimp only | split

theorem State.writeCapo_keeps {s₀ s : State} {a : Agent} {p o v : Nat} (hK : Keeps s₀ s) : Keeps s₀ (State.writeCapo s a p o v) := by
  unfold State.writeCapo
  with_reducible repeat' first
    | assumption | apply State.modCapo_keeps | apply State.raiseAt_keeps | apply execCapoDepthWrite_keeps | apply Answer.state_keeps | dsimp only | split

theorem State.writePf_keeps {s₀ s : State} {a : Agent} {v : Nat} (hK : Keeps s₀ s) : Keeps s₀ (State.writePf s a v) := by
  unfold State.writePf
  with_reducible repeat' first
    | assumption | apply State.modPart_keeps | dsimp only | split

theorem State.writeWindow_keeps {s₀ s : State} {p base len : Nat} (hK : Keeps s₀ s) : Keeps s₀ (State.writeWindow s p base len) := by
  unfold State.writeWindow
  with_reducible repeat' first
    | assumption | apply State.raiseAt_keeps | (refine State.unlessLocked_keeps (fun h => ?_) ?_) | dsimp only | split | refine Keeps.upd ?_ ?_ ?_ ?_ ?_ ?_ | exact fun e => e | exact OtpOnlyAdds.refl _ | exact Nat.le_refl _

theorem State.writeFte_keeps {s₀ s : State} {a : Agent} {o v : Nat} (hK : Keeps s₀ s) : Keeps s₀ (State.writeFte s a o v) := by
  unfold State.writeFte
  with_reducible repeat' first
    | assumption | apply State.writeWindow_keeps | dsimp only | split

theorem State.writeExp_keeps {s₀ s : State} {a : Agent} {o v : Nat} (hK : Keeps s₀ s) : Keeps s₀ (State.writeExp s a o v) := by
  unfold State.writeExp
  with_reducible repeat' first
    | assumption | apply State.raiseAt_keeps | apply State.rwlDrop_keeps | dsimp only | split | refine Keeps.upd ?_ ?_ ?_ ?_ ?_ ?_ | exact fun e => e | exact OtpOnlyAdds.refl _ | exact Nat.le_refl _

theorem State.writeFab_keeps {s₀ s : State} {a : Agent} {o v : Nat} (hK : Keeps s₀ s) : Keeps s₀ (State.writeFab s a o v) := by
  unfold State.writeFab
  with_reducible repeat' first
    | assumption | (refine State.unlessLocked_keeps (fun h => ?_) ?_) | apply State.writeExp_keeps | dsimp only | split | refine Keeps.upd ?_ ?_ ?_ ?_ ?_ ?_ | exact fun e => e | exact OtpOnlyAdds.refl _ | exact Nat.le_refl _

theorem State.writeLink_keeps {s₀ s : State} {g : Page} {off v : Nat} (hK : Keeps s₀ s) : Keeps s₀ (State.writeLink s g off v) := by
  unfold State.writeLink
  with_reducible repeat' first
    | assumption | apply State.linkTo_keeps | apply State.linkLost_keeps | apply State.writeStored_keeps | dsimp only | split

theorem State.freeBytes_keeps {s₀ s : State} {n : Nat} (hK : Keeps s₀ s) : Keeps s₀ (State.freeBytes s n).2 := by
  unfold State.freeBytes
  with_reducible repeat' first
    | assumption | apply State.takeFree_keeps | dsimp only | split

theorem State.writeChange_keeps {s₀ s : State} {a : Agent} {v : Nat} (hK : Keeps s₀ s) : Keeps s₀ (State.writeChange s a v) := by
  unfold State.writeChange
  with_reducible repeat' first
    | assumption | apply State.takeFree_keeps | apply execMapLoad_keeps | apply execGo_keeps | apply execAbort_keeps | apply execFwLoad_keeps | apply execFwSwitch_keeps | apply execFwConfirm_keeps | apply Answer.state_keeps | apply State.freeBytes_keeps | dsimp only | split

theorem State.writePartFence_keeps {s₀ s : State} {mask : Nat} (hK : Keeps s₀ s) : Keeps s₀ (State.writePartFence s mask) := by
  unfold State.writePartFence
  with_reducible repeat' first
    | assumption | apply State.fenceParts_keeps | apply State.rwlDrop_keeps | dsimp only | split

theorem State.writeMbox_keeps {s₀ s : State} {a : Agent} {o v : Nat} (hK : Keeps s₀ s) : Keeps s₀ (State.writeMbox s a o v) := by
  unfold State.writeMbox
  with_reducible repeat' first
    | assumption | apply State.setBox_keeps | dsimp only | split

theorem State.writeBlock_keeps {s₀ s : State} {a : Agent} {g : Page} {off v : Nat} (hK : Keeps s₀ s) : Keeps s₀ (State.writeBlock s a g off v) := by
  unfold State.writeBlock
  with_reducible repeat' first
    | assumption | apply State.pdRequest_keeps | apply State.writeStored_keeps | apply State.writePegBind_keeps | apply State.writeHif_keeps | apply State.writePerm_keeps | apply State.writeCtx_keeps | apply State.writeCapo_keeps | apply State.writePf_keeps | apply State.writeFte_keeps | apply State.writeFab_keeps | apply State.writeLink_keeps | apply State.writeChange_keeps | apply State.writePartFence_keeps | apply State.writeMbox_keeps | dsimp only | split

theorem State.regWrite_keeps {s₀ s : State} {a : Agent} {bar v : Nat} (hK : Keeps s₀ s) : Keeps s₀ (State.regWrite s a bar v) := by
  unfold State.regWrite
  with_reducible repeat' first
    | assumption | apply State.setSel_keeps | apply State.writeHeader_keeps | apply State.writeSel_keeps | apply State.writeHif_keeps | apply State.writeBlock_keeps | dsimp only | split

theorem execRegisterWrite_keeps {s₀ s : State} {a : Agent} {off v : Nat} (hK : Keeps s₀ s) : KeepsA s₀ (execRegisterWrite a off v s) := by
  unfold execRegisterWrite
  with_reducible repeat' first
    | assumption | apply State.regWrite_keeps | apply KeepsA.next | dsimp only | split

theorem State.headerWrite_keeps {s₀ s : State} {a : Agent} {page o v : Nat} (hK : Keeps s₀ s) : Keeps s₀ (State.headerWrite s a page o v) := by
  unfold State.headerWrite
  with_reducible repeat' first
    | assumption | apply State.regWrite_keeps | dsimp only | split

theorem execErrClear_keeps {s₀ s : State} {a : Agent} {page mask : Nat} (hK : Keeps s₀ s) : KeepsA s₀ (execErrClear a page mask s) := by
  unfold execErrClear
  with_reducible repeat' first
    | assumption | apply State.headerWrite_keeps | apply KeepsA.next | dsimp only | split

theorem execErrInjWrite_keeps {s₀ s : State} {a : Agent} {page mask : Nat} (hK : Keeps s₀ s) : KeepsA s₀ (execErrInjWrite a page mask s) := by
  unfold execErrInjWrite
  with_reducible repeat' first
    | assumption | apply State.headerWrite_keeps | apply KeepsA.next | dsimp only | split

theorem execGlbEvtSelWrite_keeps {s₀ s : State} {a : Agent} {seq : Nat} (hK : Keeps s₀ s) : KeepsA s₀ (execGlbEvtSelWrite a seq s) := by
  unfold execGlbEvtSelWrite
  with_reducible repeat' first
    | assumption | apply State.regWrite_keeps | apply KeepsA.next | dsimp only | split

theorem execPegStatBindWrite_keeps {s₀ s : State} {a : Agent} {v : Nat} (hK : Keeps s₀ s) : KeepsA s₀ (execPegStatBindWrite a v s) := by
  unfold execPegStatBindWrite
  with_reducible repeat' first
    | assumption | apply State.regWrite_keeps | apply KeepsA.next | dsimp only | split

theorem execPegStatSelWrite_keeps {s₀ s : State} {a : Agent} {v : Nat} (hK : Keeps s₀ s) : KeepsA s₀ (execPegStatSelWrite a v s) := by
  unfold execPegStatSelWrite
  with_reducible repeat' first
    | assumption | apply State.regWrite_keeps | apply KeepsA.next | dsimp only | split

theorem execPartitionFenceWrite_keeps {s₀ s : State} {a : Agent} {mask : Nat} (hK : Keeps s₀ s) : KeepsA s₀ (execPartitionFenceWrite a mask s) := by
  unfold execPartitionFenceWrite
  with_reducible repeat' first
    | assumption | apply State.regWrite_keeps | apply KeepsA.next | dsimp only | split

theorem State.badAccess_keeps {s₀ s : State} (hK : Keeps s₀ s) : Keeps s₀ (State.badAccess s) := by
  unfold State.badAccess
  with_reducible repeat' first
    | assumption | apply State.bump_keeps | apply State.raise_keeps | dsimp only | split

theorem execBadAccess_keeps {s₀ s : State} {a : Agent} {write : Bool} {off size : Nat} (hK : Keeps s₀ s) : KeepsA s₀ (execBadAccess a write off size s) := by
  unfold execBadAccess
  with_reducible repeat' first
    | assumption | apply State.giveRead_keeps | apply State.badAccess_keeps | apply KeepsA.next | dsimp only | split

end Sys2Proof.Machine
end

