-- ==== Sys2Proof/Laws/KeepManage.lean ====
section
/-! SUPPORT. The operations of Machine/Manage.lean keep what every operation keeps. -/

namespace Sys2Proof.Machine

theorem State.onEb_keeps {s₀ s : State} {t : Transport} {ver cls code seq since stage : Nat} {f : State → Nat × List Byte × State} (hf : ∀ {a b : State}, Keeps a b → Keeps a (f b).2.2) (hK : Keeps s₀ s) : KeepsA s₀ (State.onEb s t ver cls code seq since stage f) := by
  unfold State.onEb
  with_reducible repeat' first
    | assumption | apply State.ebReply_keeps | apply hf | apply KeepsA.next | dsimp only | split

theorem execGetVersion_keeps {s₀ s : State} {t : Transport} {ver seq : Nat} (hK : Keeps s₀ s) : KeepsA s₀ (execGetVersion t ver seq s) := by
  unfold execGetVersion
  with_reducible repeat' first
    | assumption | (refine State.onEb_keeps (fun h => ?_) ?_) | dsimp only | split

theorem execGetStatus_keeps {s₀ s : State} {t : Transport} {ver seq : Nat} (hK : Keeps s₀ s) : KeepsA s₀ (execGetStatus t ver seq s) := by
  unfold execGetStatus
  with_reducible repeat' first
    | assumption | (refine State.onEb_keeps (fun h => ?_) ?_) | dsimp only | split

theorem execReadReg_keeps {s₀ s : State} {t : Transport} {ver seq off n : Nat} (hK : Keeps s₀ s) : KeepsA s₀ (execReadReg t ver seq off n s) := by
  unfold execReadReg
  with_reducible repeat' first
    | assumption | apply State.regReads_keeps | apply State.badAccess_keeps | (refine State.onEb_keeps (fun h => ?_) ?_) | dsimp only | split

theorem execWriteReg_keeps {s₀ s : State} {t : Transport} {ver seq off v mask : Nat} (hK : Keeps s₀ s) : KeepsA s₀ (execWriteReg t ver seq off v mask s) := by
  unfold execWriteReg
  with_reducible repeat' first
    | assumption | apply State.regWrite_keeps | apply State.badAccess_keeps | (refine State.onEb_keeps (fun h => ?_) ?_) | dsimp only | split

theorem State.restartCore_keeps {s₀ s : State} (hK : Keeps s₀ s) : Keeps s₀ (State.restartCore s) := by
  unfold State.restartCore
  with_reducible repeat' first
    | assumption | apply State.mainOff_keeps | apply State.startAgain_keeps | apply State.startFlush_keeps | dsimp only | split

theorem execReset_keeps {s₀ s : State} {t : Transport} {ver seq : Nat} (hK : Keeps s₀ s) : KeepsA s₀ (execReset t ver seq s) := by
  unfold execReset
  with_reducible repeat' first
    | assumption | apply State.ebReply_keeps | (refine State.onEb_keeps (fun h => ?_) ?_) | apply State.restartCore_keeps | apply KeepsA.next | dsimp only | split

theorem execSetLimits_keeps {s₀ s : State} {t : Transport} {ver seq cap peak throttle trip : Nat} (hK : Keeps s₀ s) : KeepsA s₀ (execSetLimits t ver seq cap peak throttle trip s) := by
  unfold execSetLimits
  with_reducible repeat' first
    | assumption | apply State.setReg32_keeps | (refine State.onEb_keeps (fun h => ?_) ?_) | dsimp only | split

theorem execPdControl_keeps {s₀ s : State} {t : Transport} {ver seq domain : Nat} {on : Bool} (hK : Keeps s₀ s) : KeepsA s₀ (execPdControl t ver seq domain on s) := by
  unfold execPdControl
  with_reducible repeat' first
    | assumption | apply State.pdRequest_keeps | (refine State.onEb_keeps (fun h => ?_) ?_) | dsimp only | split

theorem execTakeoverAuth_keeps {s₀ s : State} {t : Transport} {ver seq part : Nat} {port : Port} (hK : Keeps s₀ s) : KeepsA s₀ (execTakeoverAuth t ver seq part port s) := by
  unfold execTakeoverAuth
  with_reducible repeat' first
    | assumption | (refine State.onEb_keeps (fun h => ?_) ?_) | dsimp only | split | refine Keeps.upd ?_ ?_ ?_ ?_ ?_ ?_ | exact fun e => e | exact OtpOnlyAdds.refl _ | exact Nat.le_refl _

theorem execTakeoverAuthLapse_keeps {s₀ s : State} (hK : Keeps s₀ s) : KeepsA s₀ (execTakeoverAuthLapse s) := by
  unfold execTakeoverAuthLapse
  with_reducible repeat' first
    | assumption | apply KeepsA.next | dsimp only | split | refine Keeps.upd ?_ ?_ ?_ ?_ ?_ ?_ | exact fun e => e | exact OtpOnlyAdds.refl _ | exact Nat.le_refl _

theorem State.telemetry_keeps {s₀ s : State} {f : State → Nat × List Byte × State} (hf : ∀ {a b : State}, Keeps a b → Keeps a (f b).2.2) (h : Keeps s₀ s) :
    Keeps s₀ (s.telemetry f).2.2 := by
  unfold State.telemetry
  split
  · exact hf h
  · exact h

theorem execGetSensors_keeps {s₀ s : State} {t : Transport} {ver seq : Nat} (hK : Keeps s₀ s) : KeepsA s₀ (execGetSensors t ver seq s) := by
  unfold execGetSensors
  with_reducible repeat' first
    | assumption | (refine State.onEb_keeps (fun h => ?_) ?_) | (refine State.telemetry_keeps (fun h => ?_) ?_) | dsimp only | split

theorem execGetEvents_keeps {s₀ s : State} {t : Transport} {ver seq first n : Nat} (hK : Keeps s₀ s) : KeepsA s₀ (execGetEvents t ver seq first n s) := by
  unfold execGetEvents
  with_reducible repeat' first
    | assumption | (refine State.onEb_keeps (fun h => ?_) ?_) | (refine State.telemetry_keeps (fun h => ?_) ?_) | dsimp only | split

theorem execGetCounters_keeps {s₀ s : State} {t : Transport} {ver seq page first n : Nat} (hK : Keeps s₀ s) : KeepsA s₀ (execGetCounters t ver seq page first n s) := by
  unfold execGetCounters
  with_reducible repeat' first
    | assumption | (refine State.onEb_keeps (fun h => ?_) ?_) | (refine State.telemetry_keeps (fun h => ?_) ?_) | dsimp only | split

theorem State.onControl_keeps {s₀ s : State} {f : State → State} (hf : ∀ {a b : State}, Keeps a b → Keeps a (f b)) (hK : Keeps s₀ s) : KeepsA s₀ (State.onControl s f) := by
  unfold State.onControl
  with_reducible repeat' first
    | assumption | apply hf | apply KeepsA.next | dsimp only | split

theorem State.controlReply_keeps {s₀ s : State} {code : Nat} {l : List Nat} (hK : Keeps s₀ s) : Keeps s₀ (State.controlReply s code l) := by
  unfold State.controlReply
  with_reducible repeat' first
    | assumption | apply State.respond_keeps | dsimp only | split

theorem execSetEndpointId_keeps {s₀ s : State} {eid : Nat} (hK : Keeps s₀ s) : KeepsA s₀ (execSetEndpointId eid s) := by
  unfold execSetEndpointId
  with_reducible repeat' first
    | assumption | (refine State.onControl_keeps (fun h => ?_) ?_) | apply State.controlReply_keeps | dsimp only | split | refine Keeps.upd ?_ ?_ ?_ ?_ ?_ ?_ | exact fun e => e | exact OtpOnlyAdds.refl _ | exact Nat.le_refl _

theorem execGetEndpointId_keeps {s₀ s : State} (hK : Keeps s₀ s) : KeepsA s₀ (execGetEndpointId s) := by
  unfold execGetEndpointId
  with_reducible repeat' first
    | assumption | (refine State.onControl_keeps (fun h => ?_) ?_) | apply State.controlReply_keeps | dsimp only | split

theorem execGetMctpVersionSupport_keeps {s₀ s : State} {ty : Nat} (hK : Keeps s₀ s) : KeepsA s₀ (execGetMctpVersionSupport ty s) := by
  unfold execGetMctpVersionSupport
  with_reducible repeat' first
    | assumption | (refine State.onControl_keeps (fun h => ?_) ?_) | apply State.controlReply_keeps | dsimp only | split

theorem execGetMessageTypeSupport_keeps {s₀ s : State} (hK : Keeps s₀ s) : KeepsA s₀ (execGetMessageTypeSupport s) := by
  unfold execGetMessageTypeSupport
  with_reducible repeat' first
    | assumption | (refine State.onControl_keeps (fun h => ?_) ?_) | apply State.controlReply_keeps | dsimp only | split

theorem execGetVendorDefinedMsgSupport_keeps {s₀ s : State} {sel : Nat} (hK : Keeps s₀ s) : KeepsA s₀ (execGetVendorDefinedMsgSupport sel s) := by
  unfold execGetVendorDefinedMsgSupport
  with_reducible repeat' first
    | assumption | (refine State.onControl_keeps (fun h => ?_) ?_) | apply State.controlReply_keeps | dsimp only | split

theorem execDynamicAddressAssign_keeps {s₀ s : State} {addr : Nat} (hK : Keeps s₀ s) : KeepsA s₀ (execDynamicAddressAssign addr s) := by
  unfold execDynamicAddressAssign
  with_reducible repeat' first
    | assumption | (refine State.onControl_keeps (fun h => ?_) ?_) | dsimp only | split | refine Keeps.upd ?_ ?_ ?_ ?_ ?_ ?_ | exact fun e => e | exact OtpOnlyAdds.refl _ | exact Nat.le_refl _

end Sys2Proof.Machine
end

