-- ==== Sys2Proof/WellFormed.lean ====
section
/-! DEFINITION. Well-formed commands: each operand within the range its field or bus has in the manual. Nothing the machine does rests on it: every command has its effect with any operands. -/

namespace Sys2Proof

def isByte (n : Nat) : Bool := decide (n < 256)
def isWord (n : Nat) : Bool := decide (n < 2 ^ 32)
/-- The PF or one of 16 VFs (09 R282). -/
def isFn (n : Nat) : Bool := decide (n ≤ 16)
/-- 12-bit contexts (09), 16 partitions (13), 12-bit shard numbers (07), 12-bit node IDs (12 R398). -/
def isCtx (n : Nat) : Bool := decide (n < 4096)
def isPart (n : Nat) : Bool := decide (n < 16)
def isShard (n : Nat) : Bool := decide (n < 4096)
def isNode (n : Nat) : Bool := decide (n < 4096)
/-- 16 courses, 12 stacks, 12,288 fret domains, 24 links of 4 lanes and 512 NAND dies (00 scope), 4 quadrants (17 R508), 30 power domains (15). -/
def isCourse (n : Nat) : Bool := decide (n < 16)
def isStack (n : Nat) : Bool := decide (n < 12)
def isFret (n : Nat) : Bool := decide (n < 12288)
def isLink (n : Nat) : Bool := decide (n < 24)
def isLane (n : Nat) : Bool := decide (n < 4)
def isNandDie (n : Nat) : Bool := decide (n < 512)
def isQuad (n : Nat) : Bool := decide (n < 4)
def isDomain (n : Nat) : Bool := decide (n < 30)
/-- An offset of a register in BAR0: 64 MiB, whole words (16 R477, R489). -/
def isOff (n : Nat) : Bool := decide (n < 2 ^ 26) && n % 4 == 0

def Agent.wf : Agent → Bool
  | .host _ fn => isFn fn
  | .mgmt => true

def Access.wf : Access → Bool
  | .rd n => decide (1 ≤ n) && decide (n ≤ 4096)
  | .wr d => decide (1 ≤ d.length) && decide (d.length ≤ 4096)

/-- 2,048 vectors on the PF, 256 on a VF (09 R282). -/
def MsixOp.wf : MsixOp → Bool
  | .enable _ | .maskAll _ => true
  | .mask n | .unmask n => decide (n < 2048)

/-- Sixteen words to a core die (03 R79). -/
def Frame.wf (f : Frame) : Bool := isStack f.stack && decide (f.die < 16) && f.dw.length == 16 && f.dw.all isWord

def Flaw.wf (x : Flaw) : Bool := isFret x.fret && decide (x.col < 1572864)

def Msg.wf (m : Msg) : Bool := isByte m.ty && isLink m.link && isNode m.src && isNode m.dst && isPart m.srcPart && isPart m.dstPart && isWord m.txn

def Hello.wf (h : Hello) : Bool := isNode h.node && decide (h.lanes ≤ 4)

def Fec.wf (x : Fec) : Bool := decide (x.syms.length ≤ 4)

def Decoded.wf (d : Decoded) : Bool := decide (d.step ≤ 4)

def StartReport.wf (r : StartReport) : Bool := isWord r.badCourses && r.badDomains.all isFret && r.nand.all fun d => isNandDie d.die

def Instr.wf (i : Instr) : Bool :=
  match i with
  | .pushWindowWrite _ fn off _ => isFn fn && decide (off < 2 ^ 24)
  | .nop ctx => isCtx ctx
  | .fence ctx => isCtx ctx
  | .corpusSearch ctx => isCtx ctx
  | .scan ctx => isCtx ctx
  | .rerank ctx => isCtx ctx
  | .attend ctx => isCtx ctx
  | .kvAppend ctx => isCtx ctx
  | .kvTrim ctx => isCtx ctx
  | .gather ctx => isCtx ctx
  | .scatterUpdate ctx => isCtx ctx
  | .insert ctx => isCtx ctx
  | .delete ctx => isCtx ctx
  | .consolidate ctx => isCtx ctx
  | .prefetch ctx => isCtx ctx
  | .buildGraph ctx => isCtx ctx
  | .calibrate ctx => isCtx ctx
  | .requant ctx => isCtx ctx
  | .topkMerge ctx => isCtx ctx
  | .checkpoint ctx => isCtx ctx
  | .restore ctx => isCtx ctx
  | .flashTrim ctx => isCtx ctx
  | .flashRead ctx => isCtx ctx
  | .flashWrite ctx => isCtx ctx
  | .admissionWaitEnd _ => true
  | .sideFull _ => true
  | .stageResume _ => true
  | .commitPhase _ => true
  | .subBatchStart _ => true
  | .walkStart _ => true
  | .expansionComplete _ slot => isWord slot
  | .sideStrumBatch shard => isShard shard
  | .autoConsolidate shard => isShard shard
  | .sweepBatch shard => isShard shard
  | .migrationPass ctx layer => isCtx ctx && isByte layer
  | .autoFullCheckpoint target => decide (target < 8192)
  | .periodicCheckpoint target => decide (target < 8192)
  | .commandRerun _ => true
  | .qload f => f.wf
  | .qscrub f => f.wf
  | .strum f flaws => f.wf && flaws.all Flaw.wf
  | .pluck f flaws => f.wf && flaws.all Flaw.wf
  | .hist f => f.wf
  | .list f => f.wf
  | .expsum f => f.wf
  | .vacc x => x.frame.wf && x.flaws.all Flaw.wf
  | .string f => f.wf
  | .stageWrite x => x.frame.wf && x.flaws.all Flaw.wf
  | .commitRow f flaws => f.wf && flaws.all Flaw.wf
  | .overlayFold fret base => isFret fret && decide (base < 1572864)
  | .spareCopyDone fret => isFret fret
  | .stackThermal stack _ => isStack stack
  | .bar4Access _ _ x => x.acc.wf && x.flaws.all Flaw.wf
  | .waveBoundary part => isPart part
  | .courseParityError course => isCourse course
  | .courseFenceWrite a course _ => a.wf && isCourse course
  | .courseSelftestDone course _ => isCourse course
  | .collOpen m => m.wf
  | .collGrant m => m.wf
  | .collData m => m.wf
  | .collDone m => m.wf
  | .collAbort m => m.wf
  | .collectiveTimeout coll part => decide (coll < 65536) && isPart part
  | .barArrive m => m.wf
  | .barRelease m => m.wf
  | .barrierTimeout bar => decide (bar < 65536)
  | .hello link h => isLink link && h.wf
  | .flitReceive link flit fec => isLink link && flit.length == 256 && fec.wf
  | .replayTimeout link => isLink link
  | .laneFail link lane => isLink link && isLane lane
  | .retrainTimeout link => isLink link
  | .quarantineRetry link _ => isLink link
  | .dupPairExpiry src _ => isNode src
  | .poolRd m => m.wf
  | .poolData m => m.wf
  | .poolWr m => m.wf
  | .poolAck m => m.wf
  | .refuse m => m.wf
  | .refuseResend _ => true
  | .poolTimeout _ => true
  | .searchReq m => m.wf
  | .updateReq m => m.wf
  | .fwdAccept m => m.wf
  | .fwdResult m => m.wf
  | .epochStale m => m.wf
  | .mapLoad a _ => a.wf
  | .go a => a.wf
  | .abort a => a.wf
  | .compPrepare m => m.wf
  | .compReady m => m.wf
  | .compActivate m => m.wf
  | .compActive m => m.wf
  | .compRetired m => m.wf
  | .compAbort m => m.wf
  | .compQuery m => m.wf
  | .prepTmo => true
  | .epochRetire => true
  | .drainTmo => true
  | .logReq m => m.wf
  | .logData m => m.wf
  | .shadowCopy m => m.wf
  | .shadowResult m => m.wf
  | .shadowReady m => m.wf
  | .shadowCopyTimeout shard _ => isShard shard
  | .partitionFenceWrite a mask => a.wf && isWord mask
  | .fwLoad a _ => a.wf
  | .fwSwitch a => a.wf
  | .fwSwitchAccept => true
  | .fwFallback => true
  | .fwConfirm a _ => a.wf
  | .flashReadDone part _ dec => isPart part && dec.wf
  | .programComplete part stream failed => isPart part && decide (stream < 4) && failed.all isNandDie
  | .gcStart part => isPart part
  | .patrolScan part _ => isPart part
  | .dieTimeout die => isNandDie die
  | .rebuildComplete die => isNandDie die
  | .pwrFailN _ _ => true
  | .flushComplete => true
  | .restartAfterFlush => true
  | .holdEnter mv => mv.length == 4
  | .holdExit mv => mv.length == 4
  | .holdMaxExpiry => true
  | .vmonRst mv => mv.length == 4
  | .thermalTrip temps => temps.length == 4
  | .thermalRecovery temps => temps.length == 4
  | .voltageLoopStep _ _ _ => true
  | .sensorRefresh vals => vals.length == 23
  | .pwrGood _ _ => true
  | .stage0Entry mv => mv.length == 4
  | .stageAdvance rep => rep.wf
  | .pdSwitchOn a domain => a.wf && isDomain domain
  | .pdSwitchOff a domain => a.wf && isDomain domain
  | .domainOnDone domain rep => isDomain domain && rep.wf
  | .lctrSourceSwitch _ _ => true
  | .glbLctrLoRead a _ => a.wf
  | .pegStatBindWrite a v => a.wf && isWord v
  | .pegStatSseLoRead a => a.wf
  | .pegStatSelWrite a v => a.wf && isWord v
  | .counterLoRead a off => a.wf && isOff off
  | .editionLoRead a off => a.wf && isOff off
  | .rcFieldRead a off => a.wf && isOff off
  | .errClear a page mask => a.wf && isOff page && isWord mask
  | .errInjWrite a page mask => a.wf && isOff page && isWord mask
  | .glbEvtSelWrite a seq => a.wf && isWord seq
  | .badAccess a _ off size => a.wf && decide (off < 2 ^ 26) && decide (size ≤ 4096)
  | .registerWrite a off v => a.wf && isOff off && isWord v
  | .ringEnable a _ v => a.wf && isWord v
  | .ringDisable a _ v => a.wf && isWord v
  | .msixCoalesceTimer ctx => isCtx ctx
  | .msixUnmask _ fn op => isFn fn && op.wf
  | .hostReadError _ _ => true
  | .pcieLinkDown _ => true
  | .pcieLinkUp _ _ _ _ => true
  | .functionLevelReset _ fn _ => isFn fn
  | .perst _ => true
  | .release a _ mask => a.wf && isWord mask
  | .releaseComplete _ part => isPart part
  | .take a _ mask => a.wf && isWord mask
  | .forcedTakeover a _ mask => a.wf && isWord mask
  | .enable a => a.wf
  | .disable a => a.wf
  | .clear a => a.wf
  | .fault a => a.wf
  | .unbind a => a.wf
  | .contextDrained ctx => isCtx ctx
  | .ctxPartSramWrite a v => a.wf && isWord v
  | .sramShrinkDone part => isPart part
  | .quantumExpiry part => isPart part
  | .contextSwitch part => isPart part
  | .preemption _ => true
  | .capoRefill part => isPart part
  | .capoDepthWrite a part r _ v => a.wf && isPart part && decide (r ≤ 10) && isWord v
  | .getInfo _ seq => isByte seq
  | .getCert _ seq _ _ => isByte seq
  | .getReport _ seq _ => isByte seq
  | .sessionOpen _ seq part => isByte seq && isPart part
  | .sessionKey _ seq part _ => isByte seq && isPart part
  | .setIdeKey _ seq part _ => isByte seq && isPart part
  | .confidentialEnter _ seq part _ => isByte seq && isPart part
  | .confidentialExit _ seq part _ => isByte seq && isPart part
  | .sessionClose _ seq part _ => isByte seq && isPart part
  | .ideDrop _ part _ => isPart part
  | .getVersion _ ver seq => isByte ver && isByte seq
  | .getStatus _ ver seq => isByte ver && isByte seq
  | .readReg _ ver seq off _ => isByte ver && isByte seq && isWord off
  | .writeReg _ ver seq off v mask => isByte ver && isByte seq && isWord off && isWord v && isWord mask
  | .reset _ ver seq => isByte ver && isByte seq
  | .setLimits _ ver seq _ _ _ _ => isByte ver && isByte seq
  | .pdControl _ ver seq domain _ => isByte ver && isByte seq && isDomain domain
  | .takeoverAuth _ ver seq part _ => isByte ver && isByte seq && isPart part
  | .takeoverAuthLapse => true
  | .getSensors _ ver seq => isByte ver && isByte seq
  | .getEvents _ ver seq _ _ => isByte ver && isByte seq
  | .getCounters _ ver seq page _ _ => isByte ver && isByte seq && isOff page
  | .setEndpointId eid => isByte eid
  | .getEndpointId => true
  | .getMctpVersionSupport _ => true
  | .getMessageTypeSupport => true
  | .getVendorDefinedMsgSupport _ => true
  | .dynamicAddressAssign addr => decide (addr < 128)
  | .patrolScrub stack flaws => isStack stack && flaws.all Flaw.wf
  | .eraseComplete part _ => isPart part
  | .quadrantReferenceLost quad => isQuad quad
  | .hostReadCompletion _ _ _ => true
  | .mergedMReturn m => m.wf
  | .partialValueSums m => m.wf
  | .flapWindowEnd link => isLink link
  | .takeoverGraceExpiry _ => true

end Sys2Proof
end

