-- ==== Sys2Proof/Tests/Slice0.lean ====
section
/-! SUPPORT. The model's own tests: small states that meet the hypotheses of each statement, one step on them, and ill-formed commands that `Instr.wf` refuses. -/

namespace Sys2Proof.Tests

set_option Elab.async false

open Sys2Proof Sys2Proof.Machine

/-- A composition map of epoch 1: node 0 alone, its whole device in the slice of partition 0. -/
def theMap : List Byte :=
  (zeros 64).set 2 1 ++ [0xFF, 0xFF, 0, 0] ++ List.replicate 7 0xFF ++ zeros 5 ++ List.replicate 24 0xFF ++ zeros 24 ++ zeros 960 ++ [1, 0, 0, 0]

/-- A device in stage 5, node 0, with every domain on, port A up and owning partition 0, context 1 of it READY, under `theMap`. -/
def up : State :=
  { State.reset with
    time := { TimeSt.reset with lctr := 2 ^ 40 }
    pwr := { PwrSt.reset with stage := some 5, on := 2 ^ 30 - 1, monitors := true, vset := 160, mv := [800, 800, 800, 800] }
    reg := { RegSt.reset with w := [(pFab + 0x104, 0)] }
    pa := { Port.reset with up := true, speed := 5, width := 16, own := 1 }
    ctxs := [(1, { CtxEnt.reset with state := .ready })]
    cmp := { CmpSt.reset with cur := theMap } }

/-- The physical function of port A. -/
def pf : Agent := .host .pa 0

/-- A descriptor of format 1 with an opcode, for context 1. -/
def words (op : Nat) : List Nat := ((List.replicate 32 0).set 0 (op + 0x100)).set 1 (2 ^ 16)

/-- A command of a window of port A, for context 1. -/
def cmd (id op : Nat) : Cmd := Cmd.start id 0 1 .pa 0 (words op) 0 1 0 .window

/-- What holds of the state a command leads to. -/
def after (c : Instr) (s : State) (p : State → Bool) : Bool :=
  match exec c s with
  | .next t => p t
  | _ => false
/-! ## The machine, contexts, partitions -/

theorem test_step_takes_the_front :
    (match step { up with pending := [.enable pf, .go pf] } with
      | .next t => t.pending == [.go pf] && (t.ctx 0).state == .ready
      | _ => false) = true := by decide +kernel

theorem test_idle_ticks :
    up.sbc.ends = [] ∧ up.sbc.rets = [] ∧ up.sbc.queue = [] ∧ up.sbc.stalled = [] ∧ up.fab.waitHbm = [] ∧ up.cmds = [] ∧
    (match step up with | .next t => t.time.lctr == 2 ^ 40 + 1 | _ => false) = true := by decide +kernel

theorem test_invariant_holds_and_steps : memWf up.hbm.cells = true ∧ (match step up with | .next t => memWf t.hbm.cells | _ => false) = true := by decide +kernel

/-- `up` with context 0 in state `x` of partition 0; selection 0. -/
def ctx0 (x : CtxState) : State := { up with ctxs := tset up.ctxs 0 { CtxEnt.reset with state := x } }

theorem test_context_control :
    up.reaches pf (pCtx + 0x10C) = true ∧ up.selCtx pf = 0 ∧ (up.ctx 0).state = .off ∧ (up.part 0).units ≠ 0 ∧
    ((ctx0 .faulted).ctx 0).state = .faulted ∧ after (.clear pf) (ctx0 .faulted) (fun t => (t.ctx 0).state == .ready) ∧
    after (.disable pf) (ctx0 .faulted) (fun t => (t.ctx 0).state == .off) ∧
    after (.enable pf) (ctx0 .faulted) (fun t => t == ctx0 .faulted) ∧ after (.fault pf) (ctx0 .faulted) (fun t => t == ctx0 .faulted) ∧
    after (.clear pf) (ctx0 .ready) (fun t => t == ctx0 .ready) ∧ after (.unbind pf) (ctx0 .ready) (fun t => t == ctx0 .ready) ∧
    after (.disable pf) (ctx0 .draining) (fun t => t == ctx0 .draining) := by decide +kernel

def region0 : Region :=
  { ctx := 0, part := 0, dies := [0], calls := [], due := [], migEd := [], floor := 0, recs := [], images := [], blocks := [], lastCkpt := 0 }

theorem test_unbind_releases_a_region :
    ({ up with regions := [region0] } : State).region 0 = some region0 ∧
    after (.unbind pf) { up with regions := [region0] } (fun t => t.regions.isEmpty) := by decide +kernel

theorem test_no_units_no_enable :
    (({ up with parts := [(0, { PartSt.reset with units := 0 })] } : State).part 0).units = 0 ∧
    after (.enable pf) { up with parts := [(0, { PartSt.reset with units := 0 })] } (fun t => (t.ctx 0).state == .off) := by decide +kernel

theorem test_disable_drains :
    (({ ctx0 .ready with cmds := [{ cmd 7 1 with ctx := 0 }] } : State).ctx 0).state = .ready ∧
    after (.disable pf) { ctx0 .ready with cmds := [{ cmd 7 1 with ctx := 0 }] } (fun t => (t.ctx 0).state == .draining && t.cmds.isEmpty) ∧
    after (.contextDrained 0) (ctx0 .draining) (fun t => t == ctx0 .off) := by decide +kernel

/-- Context 0 holds the frets of slice 0, which hold a vector of it. -/
def fretting : State :=
  { ctx0 .ready with
    parts := [(0, { PartSt.reset with cur := some 0 })]
    frets := [(0, { Fret.reset with v := [(0, VecSt.reset)] })]
    cmds := [{ cmd 7 0x20 with ctx := 0, phase := .run .frets }, { cmd 8 0x20 with phase := .run .frets }] }

theorem test_fault_tears_down :
    fretting.reaches pf (pCtx + 0x10C) = true ∧ (fretting.ctx 0).state = .ready ∧ (fretting.part 0).cur = some 0 ∧
    after (.fault pf) fretting (fun t => (t.ctx 0).state == .faulted && (t.ctx 0).cause == 3 && (t.part 0).cur.isNone && t.frets.isEmpty && (t.ctx 1).state == .ready) := by
  decide +kernel

theorem test_sram_grows_shrinks_and_refuses :
    up.reaches pf (pCtx + 0x118) = true ∧ up.selOf pf (pCtx + 0x114) = 0 ∧ up.unitsBad 0 769 = true ∧ State.unitsBad { up with parts := [(1, { PartSt.reset with units := 8 })] } 0 64 = false ∧ up.unitsBad 0 8 = false ∧
    after (.ctxPartSramWrite pf 64) { up with parts := [(1, { PartSt.reset with units := 8 })] } (fun t => (t.part 0).units == 64) ∧ after (.ctxPartSramWrite pf 769) up (fun t => (t.part 0).units == 48 && bitOf (t.reg32 (pCtx + 0x18)) 2) ∧
    ({ up with cmds := [{ cmd 7 1 with claim := 2 ^ 22 }] } : State).freePool 0 = (10485760, 2 ^ 22) ∧
    after (.ctxPartSramWrite pf 8) { up with cmds := [{ cmd 7 1 with claim := 2 ^ 22 }] } (fun t => (t.part 0).units == 48 && (t.part 0).shrink == some 8) ∧
    after (.sramShrinkDone 0) { up with parts := [(0, { PartSt.reset with shrink := some 8 })] } (fun t => (t.part 0).units == 8 && (t.part 0).shrink.isNone) := by
  decide +kernel

theorem test_frets_change_hands :
    (fretting.part 0).cur.isSome = true ∧ fretting.fretWaiters 0 ≠ [] ∧ fretting.time.lctr ≥ (fretting.part 0).turnAt + 100 * fld (fretting.reg32 (pCtx + 0x100)) 31 16 ∧
    after (.quantumExpiry 0) fretting (fun t => (t.part 0).due) ∧
    arbitrate [] 0 [(1, 1)] = some (1, [(1, 64)]) ∧
    after (.contextSwitch 0) { fretting with parts := [(0, { PartSt.reset with cur := some 0, due := true })] }
      (fun t => (t.part 0).cur == some 1 && t.counter (pCtx + 0x040) == 1 && t.frets.isEmpty) := by decide +kernel

/-- The switch waits for the string ends of the slice; where nobody waits for the frets, the current context keeps them. -/
theorem test_a_switch_is_held_or_not_needed :
    let held : State := { fretting with parts := [(0, { PartSt.reset with cur := some 0, due := true })], sbc := { SbcSt.reset with ends := [(0, { buf := [], rest := [] })] } }
    let alone : State := { held with sbc := SbcSt.reset, cmds := [] }
    (held.part 0).due = true ∧ held.fretWaiters 0 ≠ [] ∧ held.dieIn 0 0 = true ∧ after (.contextSwitch 0) held (fun t => t == held) ∧
    alone.fretWaiters 0 = [] ∧ (alone.part 0).due = true ∧ after (.contextSwitch 0) alone (fun t => (t.part 0).cur == some 0 && !(t.part 0).due) := by decide +kernel

/-- Command 8 with priority 1 waits for the frets that command 7 of priority 0 has in use. -/
def contest : State :=
  { fretting with cmds := [{ cmd 7 0x20 with ctx := 0, admitted := true, phase := .run .frets, got := [(fretKey, [])] },
                           { cmd 8 0x20 with prio := 1, admitted := true, phase := .run .frets }] }

theorem test_preemption_kills :
    (contest.cmd 8).isSome = true ∧ ((contest.cmd 8).bind fun b => (victim (contest.holders b)).map (·.id)) = some 7 ∧
    contest.time.lctr ≥ 0 + 100 * fld (contest.reg32 (pCtx + 0x100)) 15 8 ∧ 0 + 1 ≤ fld (contest.reg32 (pCtx + 0x100)) 7 0 ∧
    after (.preemption 8) contest (fun t => t.cmds.any fun c => c.id == 7 && c.phase == .killed && c.reruns == 1) ∧
    after (.preemption 8) { contest with cmds := contest.cmds.map fun c => { c with reruns := 200 } } (fun t => (t.cmd 7).isNone) := by decide +kernel

theorem test_capo_refill_and_depth :
    up.time.lctr ≥ (up.part 0).refillAt ∧
    after (.capoRefill 0) { up with parts := [(0, { PartSt.reset with capos := [(3, { Capo.reset with newCir := 5, newPir := 6, cbs := 100, pbs := 100, clvl := 10, plvl := -9 })] })] }
      (fun t => (t.capo 0 3).clvl == 15 && (t.capo 0 3).plvl == -3) ∧
    up.reaches pf (pCapo 0) = true ∧ (10 : Nat) ≤ 10 ∧ after (.capoDepthWrite pf 0 10 true 77) up (fun t => (t.capo 0 10).pbs == 77 && (t.capo 0 10).plvl == (if bitOf (up.reg32 (pCapo 0 + 0x100)) 8 then 77 else 0)) := by
  decide +kernel

/-! ## Push windows and commands -/

/-- The ring of context 1 on port A is enabled. -/
def ringed : State := { up with rings := [(1, { Ring.reset with en := true })] }

theorem test_window_live_and_dead :
    ringed.windowLive .pa 0 1 = true ∧ (up.ring .pa 1).en = false ∧
    after (.pushWindowWrite .pa 0 4096 [1]) up (fun t => t.counter (pHif .pa + 0x058) == 1 && bitOf (t.reg32 (pHif .pa + 0x18)) 1) ∧
    after (.pushWindowWrite .pa 0 4096 [7]) ringed (fun t => (tget (t.port .pa).slots 32).map (·.mask) == some 1) := by decide +kernel

/-- All bytes of slot 0 but the first have come, as those of a NOP. -/
def almost : State := { ringed with pa := { ringed.pa with slots := [(32, { data := ((words 1).map (leBytes 4)).flatten, mask := 2 ^ 128 - 2 })] } }

theorem test_slot_completes_and_tears :
    almost.windowLive .pa 0 1 = true ∧ (tget almost.pa.slots 32).map (fun x => (bitOf x.mask 0, bitOf x.mask 1)) = some (false, true) ∧
    after (.pushWindowWrite .pa 0 4096 [1]) almost (fun t => t.pa.slots.isEmpty && t.cmds.map (fun c => (c.id, c.opcode)) == [(0, 1)]) ∧
    after (.pushWindowWrite .pa 0 4097 [1]) almost (fun t => t.counter (pHif .pa + 0x060) == 1 && t.cmds.isEmpty && (tget t.pa.slots 32).map (·.mask) == some 2) := by decide +kernel

theorem test_submission_queues_or_overruns :
    ringed.inflight .pa 1 < 64 ∧ ringed.armed pCau 0 = false ∧ ringed.armed pCtx 0 = false ∧ ringed.generalCheck (cmd 0 1) = none ∧
    ({ ringed with cmds := List.replicate 64 (cmd 7 1) } : State).inflight .pa 1 ≥ 64 ∧
    (({ ringed with cmds := List.replicate 64 (cmd 7 1) } : State).submit .pa 0 1 (words 1) none).counter (pHif .pa + 0x068) = 1 := by decide +kernel

theorem test_nop_completes :
    let s : State := { ringed with cmds := [cmd 7 1] }
    s.headOf 1 = some (cmd 7 1) ∧ s.cmd 7 = some (cmd 7 1) ∧ (cmd 7 1).opcode = 1 ∧ s.holdWhy (cmd 7 1) = none ∧ (s.charge 0 0 1).isSome = true ∧
    after (.nop 1) s (fun t => t.cmds.isEmpty && t.pa.out.length == 1) := by decide +kernel

theorem test_fence_waits_and_completes :
    let f : Cmd := { cmd 9 0x7F with admitted := true, phase := .run .none, covers := [7] }
    let s : State := { ringed with cmds := [cmd 7 1, f] }
    let t : State := { ringed with cmds := [f] }
    (s.cmds.find? fun c => c.ctx == 1 && c.opcode == 0x7F && c.admitted) = some f ∧ s.cmd 9 = some f ∧
    (t.cmds.find? fun c => c.ctx == 1 && c.opcode == 0x7F && c.admitted) = some f ∧
    after (.fence 1) s (fun u => u.cmds.length == 2) ∧ after (.fence 1) t (fun u => u.cmds.isEmpty) := by decide +kernel

theorem test_every_opcode_row_finds_its_head :
    opcodeRows.all (fun row =>
      let s : State := { ringed with cmds := [cmd 7 row.2] }
      s.headOf 1 == some (cmd 7 row.2) && (cmd 7 row.2).opcode == row.2 && after (row.1 1) s fun t => t.hbm == s.hbm) = true := by decide +kernel

theorem test_a_bad_field_turns_away :
    let c : Cmd := { cmd 7 1 with dw := (words 1).set 12 1 }
    let s : State := { ringed with cmds := [c] }
    (match (s.letIn c).2 with | .error (.refuse st sub n) => st == stField && sub == 0x0902 && n == 0 | _ => false) = true ∧ after (.nop 1) s (fun t => t.cmds.isEmpty && t.pa.out.length == 1) := by decide +kernel

/-- A command staged and ready for its commit phase. -/
def ready : Cmd := { cmd 7 0x21 with admitted := true, phase := .staged, fin := some Finish.ok }

theorem test_accepted_commands_stage_or_end :
    let c : Cmd := { cmd 7 0x21 with admitted := true, fin := some Finish.ok }
    let d : Cmd := { cmd 7 0x30 with admitted := true, fin := some Finish.ok }
    let s : State := { ringed with cmds := [c] }
    let t : State := { ringed with cmds := [d] }
    s.programmed c.done = true ∧ s.verifyFails c = none ∧ (s.outFrets c Finish.ok).find? s.sparingAt = none ∧ s.away c = false ∧ isMutating c.opcode = true ∧ ((s.settle c Finish.ok).cmd 7).map (·.phase) = some .staged ∧
    isMutating d.opcode = false ∧ t.verifyFails d = none ∧ (t.settle d Finish.ok).cmds = [] ∧
    (let f : Finish := { Finish.ok with late := [(2 ^ 63, [1])] }
     let w : State := { t with hbm := { HbmSt.reset with sparing := [⟨0, true⟩] } }
     (w.outFrets d f).find? w.sparingAt = some 0 ∧ ((w.settle d f).cmd 7).map (·.phase) = some (.run (.spare 0))) := by decide +kernel

theorem test_waiting_commands_go_on :
    let h : Cmd := { cmd 7 1 with phase := .held .fence }
    let i : Cmd := { cmd 7 0x32 with phase := .held .side }
    let k : Cmd := { cmd 7 1 with phase := .killed }
    let s : State := { ringed with cmds := [h] }
    let t : State := { ringed with cmds := [i] }
    let u : State := { ringed with cmds := [k] }
    after (.admissionWaitEnd 7) s (fun t => t.cmds.isEmpty) ∧ t.time.lctr ≥ i.since + fld (t.reg32 (pGwe + 0x10C)) 31 16 * 2 ^ 14 ∧
    after (.sideFull 7) t (fun u => u.cmds.isEmpty && u.pa.out.length == 1) ∧ u.mayRerun k = true ∧ after (.commandRerun 7) u (fun v => v.cmds.isEmpty) ∧
    after (.sideFull 7) { t with time := TimeSt.reset } (fun u => u == { t with time := TimeSt.reset }) ∧ s.mayRerun h = false := by decide +kernel

theorem test_sub_batches_and_stages_wait :
    let c : Cmd := { cmd 7 0x10 with admitted := true, phase := .run (.sram 64 1) }
    let s : State := { ringed with cmds := [c] }
    let t : State := { ringed with cmds := [c, { cmd 8 0x10 with area := true, claim := 10485760 }] }
    (s.takeSram c 64 1).isSome = true ∧ (t.takeSram c 64 1).isNone = true ∧ after (.subBatchStart 7) t (fun u => u == t) ∧
    s.stageFree { c with phase := .run .program } = false ∧ ringed.stageFree { c with phase := .run (.overlay 0) } = true ∧
    (let k : Cmd := { c with phase := .run (.overlay 0) }
     let v : State := { ringed with cmds := [k] }
     v.yieldAll.stageFree k = true ∧ after (.stageResume 7) v (fun x => (x.cmd 7).all fun d => d.phase != k.phase)) ∧
    s.yieldAll.stageFree c = false ∧ after (.stageResume 7) s (fun x => x == s) := by decide +kernel

theorem test_commit_phase :
    let s : State := { ringed with cmds := [ready] }
    s.commitTurn ready Finish.ok = true ∧ s.held = false ∧ after (.commitPhase 7) s (fun t => t.cmds.isEmpty && t.pa.out.length == 1) ∧
    after (.commitPhase 7) { s with pwr := { s.pwr with hold := true } } (fun t => t.cmds.length == 1) := by decide +kernel

/-- Shard 5 of partition 0 at edition 1: one slot on die 0, live, its only entry point. -/
def shard5 : Shard :=
  { num := 5, part := 0, dies := [0], floor := 0, sweep := none, shadow := false, replaying := false, replayNext := 0, ready := false, run := 0,
    recs := [{ edition := 1, desc := (zeros 32).set 24 1, hwm := 1, head := 0, tail := 0, entries := [makeId 5 0 0], cache := [] }],
    lastOverlap := 0, copies := [], blocks := [], lastCkpt := 0, forcing := false, logBuf := [], logCredit := 0 }

def sharded : State :=
  { ringed with
    shards := [shard5]
    hbm := { HbmSt.reset with cells := [(65, 2)] }
    parts := [(0, { PartSt.reset with cur := some 1 })] }

theorem test_commits_move_the_edition :
    let c : Cmd := cmd 7 0x33
    let g : Stage := { Stage.empty (.shard 5) with changed := true }
    sharded.latest (.shard 5) = 1 ∧ (sharded.commitStage c g).2 = 2 ∧ (sharded.commitStage c g).1.latest (.shard 5) = 2 ∧
    (sharded.commitStage c { g with changed := false }).2 = 0 ∧
    (ringed.commitStage c { g with bind := true }).2 = 1 ∧ (ringed.commitStage c { g with bind := true }).1.latest (.shard 5) = 1 := by decide +kernel

theorem test_host_reads :
    let c : Cmd := { cmd 7 0x10 with admitted := true, phase := .run (.host 3 0 4) }
    let s : State := { ringed with cmds := [c] }
    s.cmd 7 = some c ∧ after (.hostReadCompletion 7 4 [1]) s (fun t => t == s) ∧ after (.hostReadError 7 4) s (fun t => t == s) ∧
    after (.hostReadError 7 3) s (fun t => t.cmds.isEmpty && t.pa.out.length == 1) := by decide +kernel

/-! ## Walks -/

def search : Cmd := { cmd 7 0x10 with admitted := true, phase := .run .walks, dw := ((words 0x10).set 3 1).set 12 (5 + 4096) }
def walk : Walk := { Walk.new 9 7 5 0 1 2 2 2 5 1 with mem := 4096 }
def walking : State := { sharded with cmds := [search], walks := [walk] }

theorem test_walk_starts :
    (walking.walkCtx walk).isOk = true ∧ walking.turnOf search = true ∧ walking.walksActive < 16384 ∧ (walking.freePool 0).2 + walk.mem ≤ (walking.freePool 0).1 ∧
    after (.walkStart 9) walking (fun t => t.walksActive == 1 && (t.walk 9).any fun w => w.flying == [makeId 5 0 0]) ∧
    after (.walkStart 9) { walking with parts := [] } (fun t => t.walksActive == 0) := by decide +kernel

theorem test_expansion_returns :
    let w : Walk := { walk with phase := .walking, flying := [makeId 5 0 0, makeId 5 0 1] }
    let s : State := { walking with walks := [w] }
    (w.flying.find? fun i => idSlot i == 0) = some (makeId 5 0 0) ∧ (s.walkCtx w).isOk = true ∧
    after (.expansionComplete 9 0) s (fun t => (t.walk 9).any fun w => w.flying == [makeId 5 0 1] && !w.ended) := by decide +kernel

theorem test_side_batches :
    let s : State := walking
    s.sideBatchOf 5 = [walk] ∧ (s.sideFor [walk]).isOk = true ∧ s.time.lctr ≥ walk.sideAt + 100 * fld (s.reg32 (pGwe + 0x10C)) 7 0 ∧
    after (.sideStrumBatch 5) s (fun t => (t.walk 9).any (·.side.isSome)) ∧ after (.sideStrumBatch 5) { s with time := TimeSt.reset } (fun t => (t.walk 9).any (·.side.isNone)) := by
  decide +kernel

/-! ## The device's own work -/

theorem test_own_work_starts :
    let on : State := (sharded.setReg32 (pGwe + 0x104) 0x80000000).setReg32 (pGwe + 0x108) 0x80000000
    let full : Shard := { shard5 with recs := shard5.recs.map fun r => { r with desc := (shard5.recs.head?.elim [] (·.desc)).set 12 1, tail := 1 } }
    let s : State := { on with shards := [full] }
    s.sideAtLeast 5 75 = true ∧ (s.ownWork 0x34 fun c => c.f 12 11 0 == 5 && c.f 12 13 12 == 0) = none ∧
    after (.autoConsolidate 5) s (fun t => t.nextCmd == 1) ∧ after (.sweepBatch 5) s (fun t => t.nextCmd == 1 && (t.shard 5).any (·.sweep.isSome)) := by decide +kernel

def area5 : Area := { target := .shard 5, part := 0, lua := 0, units := 64, period := 1, dueAt := 0, images := [], log := [] }

theorem test_checkpoints_start_when_due :
    let s : State := { sharded with cmp := { sharded.cmp with areas := [area5] } }
    s.area (Target.ofNum 5) = some area5 ∧ s.ownCkpt (.shard 5) = none ∧ 4 * area5.free ≥ area5.units ∧
    after (.periodicCheckpoint 5) s (fun t => t.nextCmd == 1 && (t.area (.shard 5)).any fun a => a.dueAt == 2 ^ 30) ∧ after (.autoFullCheckpoint 5) s (fun t => t == s) := by
  decide +kernel

theorem test_migration_pass_starts :
    let r : Region := { region0 with ctx := 1, due := [2] }
    let s : State := { ringed with regions := [r] }
    s.region 1 = some r ∧ (2 ∈ r.due) ∧ (s.ownWork opPass fun c => c.ctx == 1 && c.f 12 7 0 == 2) = none ∧
    after (.migrationPass 1 2) s (fun t => t.nextCmd == 1 && (t.region 1).all fun r => r.due.isEmpty) := by decide +kernel
/-! ## Frets and HBM -/

/-- A frame of context 1 to fret 0, naming the vectors of a mask, with words 4 to 7. -/
def frame (op vmask w4 w5 w6 w7 : Nat) : Frame :=
  { stack := 0, die := 0, dw := [op + vmask * 2 ^ 24, 1, 0, 0, w4, w5, w6, w7, 0, 0, 0, 0, 0, 0, 0, 0], payload := List.replicate 64 7 }

/-- Context 1 has the frets of slice 0. -/
def turned : State := { up with parts := [(0, { PartSt.reset with cur := some 1 })] }

/-- Vector 0 of fret 0 is loaded for context 1. -/
def loaded : State :=
  { turned with frets := [(0, { Fret.reset with q := [(0, { ctx := 1, fmt := 9, vlen := 4, group := 0, fp16 := false, elems := [1, 2, 3, 4], side := [] })] })] }

theorem test_frames_are_refused_and_wait :
    let f : Frame := frame 0x12 1 0 0 0 0
    loaded.serves f 0x12 0 = true ∧ (frame 0x12 1 1 0 0 0).formed 0x12 = false ∧ loaded.frameWaits (frame 0x12 1 1 0 0 0) 0 = false ∧
    after (.hist f) { loaded with hbm := { HbmSt.reset with deadDies := [0] } } (fun t => t.frets == loaded.frets && t.sbc.stalled.isEmpty) ∧
    after (.hist f) up (fun t => t.sbc.stalled == [.hist f]) ∧
    after (.hist f) { loaded with hbm := { HbmSt.reset with sparing := [⟨0, true⟩] } } (fun t => t.sbc.stalled == [.hist f]) ∧
    after (.hist (frame 0x12 1 1 0 0 0)) loaded (fun t => !t.hbm.elog.isEmpty) := by decide +kernel

theorem test_tags_are_refused_fret_by_fret :
    let f : Frame := frame 0x12 1 0 0 0 0
    let g : Frame := { f with dw := (f.dw.set 0 (0x212 + 2 ^ 24)).set 2 3 }
    turned.serves f 0x12 0 = true ∧ turned.tagBad f .loaded = [0] ∧ after (.hist f) turned (fun t => (t.ctx 1).state == .faulted && (t.ctx 1).cause == 1) ∧
    g.frets = [0, 1] ∧ loaded.serves g 0x12 0 = true ∧ loaded.tagBad g .loaded = [1] ∧ (g.only [0]).frets = [0] ∧ loaded.tagBad (g.only [0]) .loaded = [] ∧
    after (.hist g) loaded (fun t => (t.ctx 1).state == .faulted) := by decide +kernel

theorem test_qload_and_qscrub :
    let f : Frame := frame 0x01 0 (0x90 + 4 * 2 ^ 8) 0 0 0
    turned.serves f 0x01 0 = true ∧ f.frets = [0] ∧ (Fmt.ofCode (f.g 4 7 4)).fretQuery = true ∧ (Fmt.ofCode (f.g 4 7 4)).rowBytes (f.g 4 20 8) ≤ 8192 ∧
    after (.qload f) turned (fun t => (tget (t.fret 0).q 0).any fun q => q.ctx == 1 && q.elems == [7, 7, 7, 7]) ∧
    loaded.serves (frame 0x02 1 0 0 0 0) 0x02 0 = true ∧ loaded.tagBad (frame 0x02 1 0 0 0 0) .notOther = [] ∧ bitOf ((frame 0x02 1 1 0 0 0).w 4) 0 = true ∧
    after (.qscrub (frame 0x02 1 0 0 0 0)) loaded (fun t => (t.fret 0).q.isEmpty) ∧ after (.qscrub (frame 0x02 1 1 0 0 0)) loaded (fun t => t.frets.isEmpty) := by decide +kernel

/-- A frame over an extent of one row of 4 INT8 elements from column 8. -/
def one (op : Nat) : Frame := let f := frame op 1 8 1 (1 + 9 * 2 ^ 12) (4 + 2 ^ 16); { f with dw := (f.dw.set 8 0x3F800000).set 10 1 }

theorem test_strum :
    (one 0x10).extent.fits = true ∧ loaded.serves (one 0x10) 0x10 0 = true ∧ loaded.tagBad (one 0x10) .loaded = [] ∧ (one 0x10).frets = [0] ∧
    (one 0x10).extent.rows = 1 ∧ loaded.extBad 0 (one 0x10).extent 0 = false ∧ (one 0x10).g 7 22 16 = 1 ∧
    after (.strum (one 0x10) []) loaded (fun t => t.hbm == loaded.hbm && t.free == 1 && t.sbc == loaded.sbc) := by decide +kernel

/-- A pluck of row 0, with one beat of payload. -/
def pluck1 : Frame := { one 0x11 with dw := ((one 0x11).dw.set 1 (1 + 2 ^ 16)), payload := zeros 32 }

theorem test_pluck :
    pluck1.extent.fits = true ∧ pluck1.pluckRows = List.replicate 8 0 ∧ loaded.serves pluck1 0x11 (8 * pluck1.pluckRows.length * pluck1.vecs.length) = true ∧
    loaded.tagBad pluck1 .loaded = [] ∧ loaded.extBad 0 pluck1.extent 0 = false ∧
    after (.pluck pluck1 []) loaded (fun t => t.frets == loaded.frets && t.sbc != loaded.sbc) := by decide +kernel

theorem test_local_frames :
    let v : Frame := frame 0x18 1 8 (1 + 9 * 2 ^ 12 + 32 * 2 ^ 16) 4 0
    loaded.tagBad v .loaded = [] ∧ loaded.serves (frame 0x13 1 0 0 0 0) 0x13 0 = true ∧ loaded.serves (frame 0x14 1 0 0 0 0) 0x14 0 = true ∧ loaded.serves v 0x18 0 = true ∧
    (Fmt.ofCode (v.g 5 15 12)).fretRow = true ∧ (Fmt.ofCode (v.g 5 15 12)).zp = false ∧ v.vecs.length * v.g 6 12 0 ≤ 2048 ∧ v.g 5 23 16 ≠ 0 ∧
    (loaded.fret 0).accOthers v = 0 ∧ v.vaccRows = [] ∧ v.frets = [0] ∧ ((loaded.fret 0).vec 0).sums.overflow = false ∧
    after (.expsum (frame 0x14 1 0 0 0 0)) loaded (fun t => ((t.fret 0).vec 0).record.isSome) ∧ after (.list (frame 0x13 1 0 0 0 0)) loaded (fun t => ((t.fret 0).vec 0).listed.isSome) ∧
    after (.vacc ⟨v, []⟩) loaded (fun t => ((t.fret 0).vec 0).acc == [0, 0, 0, 0]) := by decide +kernel

theorem test_string :
    loaded.tagBad (frame 0x20 1 4 0 0 0) .notOther = [] ∧ loaded.serves (frame 0x20 1 4 0 0 0) 0x20 0 = true ∧ (frame 0x20 1 4 0 0 0).g 4 2 0 = 4 ∧
    after (.string (frame 0x20 1 0 0 0 0)) loaded (fun t => t.sbc != loaded.sbc && (t.fret 0).q == (loaded.fret 0).q) := by decide +kernel

theorem test_stage_write :
    let f : Frame := frame 0x30 0 (fretCols - 2) 2 0 0
    up.serves f 0x30 0 = true ∧ f.frets = [0] ∧ up.stageBase 0 ≤ f.g 4 20 0 ∧ f.g 4 20 0 + f.g 5 8 0 = fretCols ∧
    after (.stageWrite ⟨f, []⟩) up (fun t => t.hbmRead 0 (f.g 4 20 0 * 32) 64 == List.replicate 64 7 && t.writerOf 0 (fretCols - 2) == 1) ∧
    (let g : Frame := frame 0x30 0 (fretCols - 2) (2 + 2 ^ 17) 8 0
     up.serves g 0x30 0 = true ∧ bitOf (g.w 5) 17 = true ∧ up.poisonedRow 0 256 64 = false ∧ after (.stageWrite ⟨g, []⟩) { up with hbm := { HbmSt.reset with cells := [(257, 3)] } } (fun t => t.hbmRead 0 (fretCols * 32 - 64) 2 == [0, 3])) ∧
    after (.stageWrite ⟨frame 0x30 0 0 2 0 0, []⟩) up (fun t => memGet t.hbm.cells 0 == 0 && t.hbm.sparing.length + t.hbm.deadDies.length == 0 || t.hbm.sparing.length == 1) := by decide +kernel

theorem test_commit_row :
    let f : Frame := frame 0x31 0 (fretCols - 2) 8 (2 + 2 ^ 12) 0
    up.serves f 0x31 0 = true ∧ f.frets = [0] ∧ up.ovlCount 0 < 256 ∧ up.armed (pSbc (stackOf 0)) 2 = false ∧ up.poisonedRow 0 ((fretCols - 2) * 32) 64 = false ∧
    after (.commitRow f []) up (fun t => t.hbm.overlays.map (fun o => (o.base, o.stage, o.cols)) == [(8, fretCols - 2, 2)]) ∧
    after (.commitRow (frame 0x31 0 (fretCols - 2) 8 2 0) []) up (fun t => t == up) := by decide +kernel

def ovl : Overlay := { fret := 0, base := 8, stage := 100, cols := 1, first := 0, len := 2, edition := 3, owner := none }

theorem test_overlays_resolve_and_fold :
    let s : State := { up with hbm := { HbmSt.reset with overlays := [ovl], cells := [(256, 9), (3200, 5)] } }
    findOverlay [ovl] 0 8 3 = some ovl ∧ findOverlay [ovl] 0 8 2 = none ∧ s.yieldAll.foldable 0 8 = some ovl ∧ s.yieldAll.foldable 0 9 = none ∧
    after (.overlayFold 0 8) s (fun t => t.hbm.overlays.isEmpty && memGet t.hbm.cells 256 == 5) := by decide +kernel

/-- 11 R357's entry of page 12,288 + 1 stands at byte 5 of domain 1's FTE area. -/
theorem test_map_entries_stand_in_hbm :
    let s : State := { up with fte := { FteSt.reset with area := 2, map := [(12289, ⟨1, 2, 5⟩)] } }
    s.mapView 1 (s.stageBase 1 * 32 - 131072 + 5) [7, 7, 7, 7, 7] = [5, 0, 0, 0, 0x48] ∧
    (s.mapPut 1 (s.stageBase 1 * 32 - 131072 + 5) [6, 0]).mapNow 12289 = ⟨1, 2, 6⟩ ∧
    s.mapView 1 (s.stageBase 1 * 32 - 65536) [7] = [7] := by decide +kernel

theorem test_aperture :
    up.aptDrop 100 = false ∧ 104 ≤ (up.port .pa).bar4 * 2 ^ 30 ∧ up.aptWaits .pa = false ∧ (domainParts 2 100 4).all (fun q => !up.sparingAt q.1) ∧ up.armed (pSbc 0) 1 = false ∧ up.poisonedRow 0 100 4 = false ∧ up.powered 3 = true ∧
    after (.bar4Access .pa 100 ⟨.wr [1, 2], []⟩) up (fun t => memRead t.hbm.cells 100 2 == [1, 2]) ∧
    after (.bar4Access .pa 100 ⟨.rd 4, []⟩) up (fun t => t.pa.out == [.answer 0 100 [0, 0, 0, 0]]) ∧
    ({ up with hbm := { HbmSt.reset with deadDies := [0] } } : State).aptDrop 100 = true ∧
    after (.bar4Access .pa 100 ⟨.rd 2, []⟩) { up with hbm := { HbmSt.reset with deadDies := [0] } } (fun t => t.pa.out == [.answer 0 100 [255, 255]]) ∧
    after (.bar4Access .pa (2 ^ 36 - 1) ⟨.rd 2, []⟩) up (fun t => t == up) ∧
    after (.bar4Access .pa 100 ⟨.rd 2, []⟩) { up with hbm := { HbmSt.reset with sparing := [⟨0, true⟩] } } (fun t => t.sbc.stalled.length == 1) := by decide +kernel

theorem test_stacks :
    let s : State := { up with hbm := { HbmSt.reset with sparing := [⟨3, true⟩] } }
    after (.stackThermal 11 94) up (fun t => tgetD t.hbm.thermal 11 0 == 1) ∧ after (.patrolScrub 0 []) up (fun t => t == up) ∧
    bitOf ((up.setReg32 (pSbc 0 + 0x100) 0x2000).reg32 (pSbc 0 + 0x100)) 13 = true ∧
    after (.patrolScrub 0 [⟨5, 6, .single, 4⟩]) (up.setReg32 (pSbc 0 + 0x100) 0x2000) (fun t => t.counter (pSbc 0 + 0x048) == 1) ∧
    after (.spareCopyDone 3) s (fun t => t.hbm.sparing.isEmpty) := by decide +kernel

/-! ## The Scoring Array -/

theorem test_courses :
    let s : State := { up with arr := { ArrSt.reset with testing := 1, fenced := 1 } }
    up.reaches pf (pCourse 15) = true ∧ up.courseSlice 15 = some 0 ∧ after (.courseFenceWrite pf 15 true) up (fun t => t.arr.fenced == 2 ^ 15) ∧
    after (.courseParityError 0) up (fun t => t.arr.fenced == 1 && tget t.arr.src 0 == some 2) ∧
    after (.courseSelftestDone 0 true) s (fun t => t.arr.fenced == 0) ∧ after (.courseSelftestDone 0 false) s (fun t => t.arr.fenced == 1 && t.arr.testing == 0) := by decide +kernel

def op1 : ArrOp :=
  { cmd := 7, key := 0, piece := 0, part := 0, prio := 0, left := 2, deals := [], courses := [],
    shape := { group := 64, queries := 1, rows := 512, dim := 64, rate := 1680, rowBytes := 64, queryBytes := 64, desc := false } }

theorem test_wave_starts :
    let s : State := { up with arr := { ArrSt.reset with queue := [op1] }, cmds := [cmd 7 0x11] }
    s.applyCourses (bitsOf 16 (s.courses 0)) = s ∧ s.leaveDomains = s ∧ (s.nextOp 0 4096).isSome = true ∧ s.courseList 0 ≠ [] ∧ s.classOf 0 6 ≠ .held ∧
    ((s.courseList 0).filter fun n => s.armed (pCourse n) 0) = [] ∧ after (.waveBoundary 0) s (fun t => (tget t.arr.wave 0).isSome) ∧ after (.waveBoundary 0) up (fun t => t == up) := by
  decide +kernel
/-! ## Messages, collectives, barriers -/

/-- A message of node 2, partition 0, for this node. -/
def msg (ty : Nat) (body : Body) : Msg :=
  { ty := ty, link := 0, ver := 0x21, src := 2, srcPart := 0, dst := 0, dstPart := 0, epoch := 1, fanout := false, ni := false, resend := false, hops := 0,
    txn := 5, addr := 0, arg := 0, e2eOk := true, body := body }

theorem test_messages_are_received :
    (up.receive (msg 0x10 (.collOpen 3 0 1 4 false))).2 = true ∧ msgTypes.contains 0x11 = true ∧ up.node = 0 ∧
    ({ up with fab := { FabSt.reset with dup := [(2, 5, 2 ^ 40)] } } : State).seen { msg 0x10 .empty with ni := true } = true ∧
    up.epochIs { msg 0x10 .empty with epoch := 9 } = .stale ∧
    messageRows.all (fun row => after (row.1 { msg row.2 .empty with e2eOk := false }) up (fun t => t.counter (pFab + 0x070) == 1 && t.cmds == up.cmds)) = true ∧
    messageRows.all (fun row => after (row.1 { msg row.2 .empty with epoch := 9 }) up (fun t => t.counter (pFab + 0x090) == 1 || row.2 == 0x12 || up.epochIs { msg row.2 .empty with epoch := 9 } != .stale)) = true ∧
    after (.collGrant (msg 0x18 .empty)) up (fun t => t == up) := by decide +kernel

def blk : SelBlock := { m := 0, sSel := 0, sOut := 0, ties := 0, scanned := 0, flags := 0, disagree := 0, dedup := 0, entries := [] }

/-- A collective of partition 0 whose root is this node, with one further contributor still to come. -/
def coll : Coll :=
  { id := 3, part := 0, fanout := false, root := true, rootNode := 0, cmd := none, count := 1, k := 4, ties := false, parts := 2, epoch := 1, own := [blk], joins := true,
    joiners := [], unsent := [], credit := 0, granted := true, since := 0, vals := [] }
def joiner : Joiner := { node := 2, txn := 5, granted := 1, nextSeq := 0, blocks := [], complete := false, epoch := 1, since := 0 }
def rooting (k : Coll) : State := { up with col := { ColSt.reset with open' := [k] } }
def member : Coll := { coll with root := false, rootNode := 2, cmd := some 7 }

theorem test_contributors_join :
    let s : State := rooting coll
    let m : Msg := msg 0x10 (.collOpen 3 0 1 4 false)
    (s.receive m).2 = true ∧ (s.receive m).1.rootColl m = some coll ∧ coll.find 2 = none ∧ coll.joiners.length < coll.expected ∧
    after (.collOpen m) s (fun t => t.col.open'.map (fun k => k.joiners.length) == [1]) ∧
    after (.collOpen (msg 0x10 (.collOpen 3 0 2 4 false))) s (fun t => t.counter (pCol + 0x058) == 1) ∧
    after (.collOpen { m with epoch := 2, dst := 0 }) { s with cmp := { s.cmp with cur := [] } } (fun t => t.col == s.col || t.col.open'.isEmpty) ∧
    (up.receive m).1.rootColl m = none ∧ after (.collOpen m) up (fun t => t.col.early == [m]) := by decide +kernel

theorem test_streams_join_their_block :
    let k : Coll := { coll with joiners := [joiner] }
    let s : State := rooting k
    let e : Entry := { id := 1, score := 0, ef := 0 }
    let m : Msg := msg 0x12 (.collData 3 0 0 (some (2, blk)) [e])
    (s.receive m).1.findColl 3 0 false true 0 = some k ∧ k.find 2 = some joiner ∧ (joiner.take k.queries 0 (some (2, blk)) [e]).complete = false ∧
    after (.collData m) s (fun t => t.counter (pCol + 0x048) == 1 && t.col.open'.all fun k => k.joiners.all fun j => j.nextSeq == 1) ∧
    after (.collData (msg 0x12 (.collData 3 0 1 none [e]))) s (fun t => t.col == s.col) := by decide +kernel

theorem test_members_go_on :
    let c : Cmd := { cmd 7 0x50 with admitted := true, phase := .run (.coll 4 []) }
    let s : State := { rooting member with cmds := [c] }
    let g : Msg := msg 0x11 (.collGrant 3 2)
    member.cmd.bind s.cmd = some c ∧ (s.receive g).1.memberColl g 3 = some member ∧ c.collWait = some 4 ∧ c.vout = 0 ∧
    { member with credit := 2, granted := true } ∉ (s.receive g).1.col.open' ∧
    after (.collGrant g) s (fun t => t.col.open'.map (·.credit) == [2]) ∧ after (.collDone (msg 0x13 (.collDone 3))) s (fun t => t.col.open'.isEmpty) ∧
    after (.mergedMReturn (msg 0x13 (.mergedM 3 0 0 [8]))) s (fun t => t.cmds.all fun c => (tget c.got (mergedKey 0)).isSome) ∧
    after (.collAbort (msg 0x14 (.collAbort 3 stCancelled 0x0101))) s (fun t => t.col.open'.isEmpty && t.counter (pCol + 0x050) == 1) := by decide +kernel

theorem test_value_sums_and_lost_members :
    let c : Cmd := { cmd 7 0x20 with admitted := true, phase := .run (.vals 4 [[0]]) }
    let k : Coll := { coll with cmd := some 7, joiners := [joiner] }
    let s : State := { rooting k with cmds := [c] }
    let m : Msg := msg 0x12 (.valueSums 3 0 [0])
    k.cmd.bind s.cmd = some c ∧ (s.receive m).1.findColl 3 0 false true 0 = some k ∧ { k with vals := tset k.vals (2 * 2 ^ 20) [0] }.valsIn 1 = true ∧
    k.valsIn 1 = false ∧ after (.partialValueSums m) s (fun t => t.cmds.all fun c => c.phase != .run (.vals 4 [[0]])) ∧ (k.find 2).isSome = true ∧
    after (.collAbort (msg 0x14 (.collAbort 3 stCancelled 0x0102))) s (fun t => t.counter (pCol + 0x060) == 1) := by decide +kernel

theorem test_collectives_time_out :
    let s : State := rooting coll
    let tmo := fld (s.reg32 (pCol + 0x100)) 31 16 * 2 ^ 14
    coll.late (s.awaitsVals coll) s.time.lctr tmo = true ∧ coll.joiners.length < coll.expected ∧ { coll with joiners := [joiner, joiner] }.late none 5 5 = true ∧
    { coll with joiners := [joiner] }.late none 5 6 = false ∧ { member with granted := false }.late none 5 5 = true ∧
    after (.collectiveTimeout 3 0) s (fun t => t.col.open'.isEmpty && t.counter (pCol + 0x050) == 1) ∧
    after (.collectiveTimeout 3 0) { s with time := TimeSt.reset } (fun t => t.col == s.col) := by decide +kernel

def bar (arrived : List (Nat × Nat)) : Barrier := { id := 6, root := true, rootNode := 0, cmd := none, parts := 2, epoch := 1, arrived := arrived, since := 0 }
def barred (b : Barrier) : State := { up with col := { ColSt.reset with bars := [b] } }

theorem test_barriers :
    let m : Msg := msg 0x18 (.barArrive 6 2)
    let r : Barrier := { bar [] with root := false, rootNode := 2 }
    ((barred (bar [])).col.bars.find? fun b => b.root && b.wants m) = some (bar []) ∧
    after (.barArrive m) (barred (bar [])) (fun t => t.col.bars.map (·.arrived.length) == [1]) ∧
    after (.barArrive m) (barred (bar [(0, 1)])) (fun t => t.col.bars.isEmpty && t.counter (pCol + 0x070) == 1) ∧
    after (.barArrive (msg 0x18 (.barArrive 6 3))) (barred (bar [])) (fun t => t.col.bars.isEmpty) ∧
    after (.barArrive m) up (fun t => t.col.early == [m] && t.col.barFirst == [(6, up.time.lctr)]) ∧
    after (.barrierTimeout 6) { up with col := { ColSt.reset with early := [m], barFirst := [(6, 0)] } } (fun t => t.col.early.isEmpty && t.col.barFirst.isEmpty && t.counter (pCol + 0x078) == 1) ∧
    after (.barRelease (msg 0x19 (.barRelease 6 2 0))) (barred r) (fun t => t.col.bars.isEmpty && t.counter (pCol + 0x068) == 1) ∧
    after (.barRelease (msg 0x19 (.barRelease 6 2 1))) (barred r) (fun t => t.col.bars.isEmpty && t.counter (pCol + 0x078) == 1) ∧
    after (.barrierTimeout 6) (barred (bar [])) (fun t => t.col.bars.isEmpty && t.counter (pCol + 0x078) == 1) ∧
    after (.barrierTimeout 6) { barred (bar []) with time := TimeSt.reset } (fun t => t.col.bars == [bar []]) := by decide +kernel

/-! ## Links -/

def linked (x : LinkSt) : State := { up with fab := { FabSt.reset with links := [(0, x)] } }
def alive : LinkSt := { LinkSt.reset with st := .up, kind := 0, lanes := 4, laneMask := 15, ver := 0x21, peer := 2 }
def flit0 : TxFlit := { vc := 2, som := true, eom := true, data := zeros 248, msg := none }

theorem test_hello_brings_a_link_up :
    let h : Hello := { node := 2, kind := 0, lo := 0x13, hi := 0x21, lanes := 4 }
    let x : LinkSt := { LinkSt.reset with retrainAt := some 0, st := .training, nextLanes := 3 }
    up.linkOn 0 = true ∧ (up.link 0).st = .down ∧ agreed h = some 0x21 ∧ agreed { h with lo := 0x30, hi := 0x31 } = none ∧
    after (.hello 0 h) up (fun t => (t.link 0).st == .up && (t.link 0).peer == 2) ∧ after (.hello 0 { h with node := 0 }) up (fun t => bitOf (t.reg32 (pFab + 0x18)) 0) ∧
    after (.hello 0 { h with lo := 0x30, hi := 0x31 }) up (fun t => bitOf (t.reg32 (pFab + 0x18)) 1) ∧
    after (.hello 0 h) (linked x) (fun t => (t.link 0).st == .up && (t.link 0).laneMask == 3) := by decide +kernel

theorem test_replay_and_lanes :
    let x : LinkSt := { alive with replay := [(0, flit0)] }
    (linked x).time.lctr ≥ x.lastAck + 1000 ∧ after (.replayTimeout 0) (linked x) (fun t => (t.link 0).tries == 1 && (t.link 0).wire.length == 1) ∧
    after (.replayTimeout 0) (linked { x with tries := 3 }) (fun t => (t.link 0).st == .training) ∧ after (.replayTimeout 0) (linked alive) (fun t => t == linked alive) ∧
    bitOf alive.laneMask 3 = true ∧ narrower 15 3 ≠ 0 ∧ popCount 4 (narrower 15 3) ≥ (linked alive).minLanes 0 ∧ fld ((linked alive).reg32 (pFab + 0x10C)) 7 0 ≠ 0 ∧
    fld (((linked alive).setReg32 (pFab + 0x10C) 0).reg32 (pFab + 0x10C)) 7 0 = 0 ∧
    after (.laneFail 0 3) ((linked alive).setReg32 (pFab + 0x10C) 0) (fun t => (t.link 0).st == .training && (t.link 0).nextLanes == narrower 15 3) ∧
    popCount 4 (narrower 1 0) < (linked { alive with laneMask := 1 }).minLanes 0 ∧ after (.laneFail 0 0) (linked { alive with laneMask := 1 }) (fun t => (t.link 0).st == .down) := by
  decide +kernel

theorem test_retrain_and_back_off :
    let x : LinkSt := { alive with st := .training, retrainAt := some 0 }
    let q : LinkSt := { alive with st := .quarantined, quarEnd := 5, shift := 2 }
    let w : LinkSt := { alive with quarAt := 1, shift := 3 }
    after (.retrainTimeout 0) (linked x) (fun t => (t.link 0).st == .down) ∧ after (.retrainTimeout 0) { linked x with time := TimeSt.reset } (fun t => (t.link 0) == x) ∧
    after (.quarantineRetry 0 true) (linked q) (fun t => (t.link 0).st == .training && (t.link 0).shift == 2) ∧
    after (.quarantineRetry 0 true) { linked q with time := TimeSt.reset } (fun t => t.link 0 == q) ∧
    (linked w).time.lctr ≥ max (maxList w.retrains) w.quarAt + (linked w).reg32 (pFab + 0x110) * 2 ^ 10 ∧
    after (.flapWindowEnd 0) (linked w) (fun t => (t.link 0).shift == 0 && (t.link 0).quarAt == 0) ∧ after (.flapWindowEnd 0) { linked w with time := TimeSt.reset } (fun t => t.link 0 == w) := by
  decide +kernel

set_option maxRecDepth 100000 in
theorem test_flits_in_order :
    let f : List Byte := flitBytes flit0 0 0 0 0
    let fec : Fec := { uncorr := false, syms := [] }
    f.length = 256 ∧ crc32c (slice f 0 252) = le32 f 252 ∧ bitOf (le32 f 0) 5 = false ∧ fld (le32 f 0) 15 6 = 0 ∧ bitOf (le32 f 0) 4 = true ∧
    after (.flitReceive 0 f fec) (linked alive) (fun t => (t.link 0).rxNext == 1 && (t.link 0).inbox.length == 1) ∧
    after (.flitReceive 0 (f.set 255 1) fec) (linked alive) (fun t => (t.link 0).asked && (t.link 0).rxNext == 0) ∧
    after (.flitReceive 0 f fec) (linked { alive with rxNext := 5 }) (fun t => (t.link 0).rxNext == 5 && (t.link 0).inbox.isEmpty) ∧
    after (.flitReceive 0 f fec) up (fun t => t == up) := by decide +kernel
/-! ## Pool memory and forwarded work -/

/-- Window 0 exports the first 2 units of 64 KiB of domain 0 for partition 0. -/
def exporting : State := { up with fab := { FabSt.reset with exp := [(0, [0, 0, 1, 0, 2, 0, 1])] } }

theorem test_pool_requests_are_served :
    let r : Msg := { msg 0x01 .empty with addr := 64, arg := 8 }
    let w : Msg := { msg 0x03 (.bytes [3, 4]) with addr := 64, arg := 2 }
    (exporting.receive r).2 = true ∧ (exporting.receive r).1.windowFor r = some [0, 0, 1, 0, 2, 0, 1] ∧ (up.receive r).1.windowFor r = none ∧
    (exporting.receive w).1.windowFor w = some [0, 0, 1, 0, 2, 0, 1] ∧ exporting.fabricPart 0 = true ∧ (exporting.police r 0).2 = true ∧
    windowPlace [0, 0, 1, 0, 2, 0, 1] 64 = (0, 64) ∧ (match (exporting.receive r).1.plainRow 0 64 8 with | .ok d => d == zeros 8 | _ => false) = true ∧
    exporting.sparingAt 0 = false ∧ after (.poolRd r) { exporting with hbm := { HbmSt.reset with sparing := [⟨0, true⟩] } } (fun t => t.fab.waitHbm == [r]) ∧
    after (.poolRd r) { exporting with hbm := { HbmSt.reset with poison := [lostDomain 0] } } (fun t => t.fab.waitHbm.isEmpty && t.fab.sent.isEmpty) ∧
    after (.poolWr w) exporting (fun t => memRead t.hbm.cells 64 2 == [3, 4]) ∧ after (.poolRd r) exporting (fun t => t.hbm == exporting.hbm) ∧
    ({ exporting with parts := [(0, { PartSt.reset with units := 0 })] } : State).fabricPart 0 = false := by decide +kernel

theorem test_a_capo_holds_a_pool_request :
    let s : State := { exporting with parts := [(0, { PartSt.reset with capos := [(10, { Capo.reset with cir := 1, pir := 1, clvl := -1, plvl := -1 })] })] }
    (s.police (msg 0x01 .empty) 0).2 = false ∧ s.classOf 0 10 = .held ∧ after (.poolRd { msg 0x01 .empty with arg := 8 }) s (fun t => t.hbm == s.hbm && t.counter (pCapo 0 + 0x0B0) == 1) := by decide +kernel

def req (ty : Nat) : Req :=
  { txn := 5, cmd := 7, key := 9, msg := { msg ty .empty with src := 0, dst := 2 }, len := 4, at' := 0, refusals := 0, resent := false, waitTo := none,
    accepted := false, part := 0, low := false }
def asking (q : Req) (n : Need) : State :=
  { up with cmds := [{ cmd 7 0x30 with admitted := true, phase := .run n }], fab := { FabSt.reset with reqs := [q] } }

theorem test_pool_answers :
    let s : State := asking (req 1) (.pool 9 2 0 4)
    let w : State := asking (req 3) (.poolWr 9 2 0 [1])
    (s.receive (msg 0x02 (.bytes [1, 2, 3, 4]))).1.answered (msg 0x02 (.bytes [1, 2, 3, 4])) 0x01 = some (req 1) ∧
    (w.receive (msg 0x04 .empty)).1.answered (msg 0x04 .empty) 0x03 = some (req 3) ∧
    after (.poolData (msg 0x02 (.bytes [1, 2, 3, 4]))) s (fun t => t.fab.reqs.isEmpty) ∧ after (.poolAck (msg 0x04 .empty)) w (fun t => t.fab.reqs.isEmpty) ∧
    after (.refuse { msg 0x05 .empty with arg := 1 }) s (fun t => t.fab.reqs.map (·.refusals) == [1] && t.counter (pFab + 0x080) == 1) ∧
    1 ≤ fld (s.reg32 (pFab + 0x100)) 19 16 ∧ 99 + 1 > fld (s.reg32 (pFab + 0x100)) 19 16 ∧ (s.receive { msg 0x05 .empty with arg := 1 }).1.req 5 = some (req 1) ∧
    after (.refuse { msg 0x05 .empty with arg := 1 }) (asking { req 1 with refusals := 99 } (.pool 9 2 0 4)) (fun t => t.fab.reqs.isEmpty) ∧
    poolTypes (req 1).msg = true ∧ after (.refuse { msg 0x05 .empty with arg := 2 }) s (fun t => t.fab.reqs.isEmpty) ∧
    after (.refuse { msg 0x05 .empty with arg := 2 }) up (fun t => t.counter (pFab + 0x080) == 1 && t.cmds == up.cmds) ∧ after (.poolData (msg 0x02 (.bytes []))) up (fun t => t.cmds == up.cmds) ∧
    after (.refuse { msg 0x05 .empty with arg := 3 }) s (fun t => t.fab.reqs.isEmpty) := by decide +kernel

theorem test_requests_wait_and_time_out :
    let q : Req := { req 1 with waitTo := some 9 }
    let r : Req := { req 1 with resent := true }
    up.req 5 = none ∧ (asking q (.pool 9 2 0 4)).req 5 = some q ∧ after (.refuseResend 5) up (fun t => t == up) ∧ after (.poolTimeout 5) up (fun t => t == up) ∧
    (asking r (.pool 9 2 0 4)).otherRoute r.msg r.low 31 = false ∧
    (let s : State := { asking (req 1) (.pool 9 2 0 4) with fab := { FabSt.reset with reqs := [req 1], links := [(0, { LinkSt.reset with st := .up, kind := 0, lanes := 4, laneMask := 15, ver := 0x21, peer := 2 })] } }
     s.otherRoute (req 1).msg false 31 = true ∧ after (.poolTimeout 5) s (fun t => t.fab.reqs.map (·.resent) == [true])) ∧
    after (.refuseResend 5) (asking q (.pool 9 2 0 4)) (fun t => t.fab.reqs.isEmpty) ∧
    after (.refuseResend 5) { asking q (.pool 9 2 0 4) with time := TimeSt.reset } (fun t => t.fab.reqs == [q]) ∧
    after (.poolTimeout 5) (asking r (.pool 9 2 0 4)) (fun t => t.fab.reqs.isEmpty && bitOf (t.reg32 (pFab + 0x18)) 3) ∧
    after (.poolTimeout 5) { asking r (.pool 9 2 0 4) with time := TimeSt.reset } (fun t => t.fab.reqs == [r]) ∧
    after (.dupPairExpiry 2 5) { up with fab := { FabSt.reset with dup := [(2, 5, 0), (2, 6, 0)] } } (fun t => t.fab.dup == [(2, 6, 0)]) := by decide +kernel

theorem test_forwarded_requests :
    let m : Msg := msg 0x20 (.search 5 (words 0x10) [])
    let d : Msg := msg 0x21 (.update 5 ((words 0x33).set 12 5) [])
    (sharded.receive m).2 = true ∧ sharded.fabricPart 0 = true ∧ sharded.ownsShard 5 0 1 = true ∧ sharded.ownsShard 6 0 1 = false ∧ (sharded.police m 0).2 = true ∧
    updateShards ((words 0x33).set 12 5) [] = [5] ∧ after (.searchReq m) sharded (fun t => t.nextCmd == 1) ∧ after (.updateReq d) sharded (fun t => t.nextCmd == 1) ∧
    after (.searchReq (msg 0x20 (.search 6 [] []))) sharded (fun t => t.cmds.isEmpty) ∧ after (.updateReq (msg 0x21 (.update 6 ((words 0x33).set 12 6) []))) sharded (fun t => t.cmds.isEmpty) := by
  decide +kernel

theorem test_forwarded_results :
    let s : State := asking (req 0x21) (.forward 9)
    (s.receive (msg 0x22 .empty)).1.answered (msg 0x22 .empty) 0x21 = some (req 0x21) ∧ after (.fwdAccept (msg 0x22 .empty)) s (fun t => t.fab.reqs.all (·.accepted)) ∧
    after (.fwdResult (msg 0x23 (.fwdResult 0 0 0 0 1 []))) s (fun t => t.fab.reqs.isEmpty) ∧
    (let q : State := asking (req 0x20) (.forward 9)
     let m : Msg := msg 0x23 (.fwdResult 0 0 0 0 1 [1])
     (q.receive m).1.answered m 0x21 = none ∧ (q.receive m).1.answered m 0x20 = some (req 0x20) ∧ after (.fwdResult m) q (fun t => t.fab.reqs.isEmpty)) ∧
    ((s.receive (msg 0x28 .empty)).1.req 5 = some (req 0x21)) ∧ (((s.receive (msg 0x28 .empty)).1.dropReq 5).cmd 7).isSome = true ∧
    after (.epochStale (msg 0x28 .empty)) s (fun t => t.fab.reqs.isEmpty) ∧ after (.epochStale (msg 0x28 .empty)) (asking (req 0x20) (.forward 9)) (fun t => t.counter (pGwe + 0x0A0) == 1) ∧
    after (.epochStale (msg 0x28 .empty)) (asking (req 0x10) (.coll 9 [])) (fun t => t.counter (pCol + 0x058) == 1) ∧
    after (.fwdAccept (msg 0x22 .empty)) up (fun t => t.counter (pFab + 0x048) == 1 && t.cmds == up.cmds) := by decide +kernel

/-! ## Composition and resilience -/

/-- An image of epoch 2 whose coordinator and only member is this node. -/
def map2 : List Byte := theMap.set 2 2
def preparedMap : State := { up with cmp := { up.cmp with loaded := map2, prepared := true } }
def loadedMap : State := { up with cmp := { up.cmp with loaded := map2 } }

theorem test_maps_load_and_prepare :
    let m : Msg := msg 0x30 (.comp 2 0 0)
    up.reaches pf (pCmp + 0x114) = true ∧ after (.mapLoad pf none) up (fun t => t.cmp.result == 2 && t.cmp.loaded.isEmpty) ∧
    after (.mapLoad pf (some [1])) up (fun t => t.cmp.result == 3) ∧ after (.mapLoad pf none) preparedMap (fun t => t == preparedMap) ∧
    (loadedMap.receive m).2 = true ∧ mapEpoch map2 = 2 ∧ le32 map2 8 = 0 ∧ loadedMap.mapRefused map2 = false ∧ after (.compPrepare m) loadedMap (fun t => t.cmp.prepared) ∧
    after (.compPrepare (msg 0x30 (.comp 3 0 0))) loadedMap (fun t => !t.cmp.prepared) ∧
    ({ loadedMap with hbm := HbmSt.reset, pwr := { up.pwr with on := 1 } } : State).mapRefused map2 = true := by decide +kernel

theorem test_maps_activate_and_abort :
    after (.compActivate (msg 0x32 (.comp 2 0 0))) preparedMap (fun t => t.cmp.cur == map2 && t.cmp.draining == theMap && t.counter (pCmp + 0x040) == 1) ∧
    after (.compActivate (msg 0x32 (.comp 3 0 0))) preparedMap (fun t => t.cmp == preparedMap.cmp) ∧ after (.compAbort (msg 0x35 (.comp 2 0 0))) preparedMap (fun t => !t.cmp.prepared) ∧
    after (.compAbort (msg 0x35 (.comp 3 0 0))) preparedMap (fun t => t.cmp == preparedMap.cmp) ∧ after (.compQuery (msg 0x36 (.comp 1 0 0))) up (fun t => t.cmp == up.cmp) ∧
    after (.abort pf) preparedMap (fun t => !t.cmp.prepared && t.cmp.dropped == 2) ∧ after (.abort pf) up (fun t => t == up) := by decide +kernel

def change (n : Nat) : Change := { epoch := 2, members := [0, 2], ready := [(0, 0)], activated := n == 1, active := [], retired := [0], since := 0 }
def changing (n : Nat) : State := { preparedMap with cmp := { preparedMap.cmp with change := some (change n) } }

theorem test_the_coordinator_decides :
    mapCoord map2 = 0 ∧ after (.go pf) up (fun t => bitOf (t.reg32 (pCmp + 0x18)) 8) ∧
    after (.go pf) { loadedMap with cmp := { loadedMap.cmp with draining := theMap } } (fun t => t.cmp.pendingGo) ∧
    ({ loadedMap with pwr := { up.pwr with on := 2 ^ 30 - 1 - 2 ^ 6 } } : State).mapRefused map2 = true ∧
    after (.compReady (msg 0x31 (.comp 2 0 1))) (changing 0) (fun t => t.cmp.change.isNone && t.counter (pCmp + 0x048) == 1) ∧
    after (.abort pf) (changing 0) (fun t => t.cmp.change.isNone && !t.cmp.prepared && t.counter (pCmp + 0x048) == 1) ∧
    after (.compReady (msg 0x31 (.comp 2 0 1))) (changing 1) (fun t => t.cmp == (changing 1).cmp) ∧
    after (.compReady (msg 0x31 (.comp 2 0 0))) { changing 0 with cmp := { (changing 0).cmp with change := some { change 0 with members := [0, 2, 3] } } } (fun t => t.cmp.change.any fun g => g.ready == [(0, 0), (2, 0)]) ∧
    after (.compActive (msg 0x33 (.comp 2 0 0))) (changing 1) (fun t => t.cmp.change.any fun g => g.active == [2]) ∧
    after (.compRetired (msg 0x34 (.comp 2 0 0))) (changing 1) (fun t => t.cmp.change.isNone) ∧
    after (.compRetired (msg 0x34 (.comp 2 0 0))) { changing 1 with cmp := { (changing 1).cmp with change := some { change 1 with retired := [] } } } (fun t => t.cmp.change.any fun g => g.retired == [2]) := by
  decide +kernel

/-- A map of 1,092 bytes names no member but node 0. -/
theorem test_change_members : loadedMap.changeMembers = [0] := by
  have len : ∀ m : List Byte, m.length = 1092 → bitOf (byteAt m 1088) 0 = true → mapMembers m = [0] := by
    intro m h h0
    have h1 : ∀ n, 0 < n → mapMember m n = false := by
      intro n hn
      have : byteAt m (1088 + 4 * n) = 0 := by rw [byteAt, slice, List.drop_eq_nil_of_le (by omega)]; rfl
      simp [mapMember, this, bitOf]
    have h2 : mapMember m 0 = true := by
      have : m.isEmpty = false := by cases m <;> simp_all
      simp [mapMember, this, h0]
    have h3 : m.isEmpty = false := by cases m <;> simp_all
    have h4 : List.range 4096 = 0 :: (List.range 4095).map (· + 1) := by rw [show (4096 : Nat) = 4095 + 1 from rfl, List.range_succ_eq_map]
    rw [mapMembers, h3, if_neg (by simp), h4, List.filter_cons_of_pos h2, List.filter_eq_nil_iff.2]
    intro x hx
    obtain ⟨y, _, rfl⟩ := List.mem_map.1 hx
    simp [h1 (y + 1) (by omega)]
  have a : mapMembers theMap = [0] := len theMap (by decide +kernel) (by decide +kernel)
  have b : mapMembers map2 = [0] := len map2 (by decide +kernel) (by decide +kernel)
  simp only [State.changeMembers, loadedMap, up, a, b]
  decide +kernel

theorem test_prepared_and_draining_epochs_end :
    let d : State := { up with cmp := { up.cmp with draining := map2 } }
    let busy : State := { d with cmds := [{ cmd 7 0x10 with epoch := 2, peer := true }] }
    after .prepTmo (changing 0) (fun t => t.cmp.change.isNone && !t.cmp.prepared) ∧ after .prepTmo (changing 1) (fun t => t == changing 1) ∧
    after .prepTmo { changing 0 with time := TimeSt.reset } (fun t => t.cmp == (changing 0).cmp) ∧ after .epochRetire d (fun t => t.cmp.draining.isEmpty) ∧
    after .epochRetire up (fun t => t == up) ∧ busy.onFabric { cmd 7 0x10 with epoch := 2, peer := true } = true ∧ after .epochRetire busy (fun t => t == busy) ∧
    after .drainTmo d (fun t => t.cmp.draining.isEmpty) ∧ after .drainTmo { d with time := TimeSt.reset } (fun t => t.cmp == d.cmp) := by decide +kernel

theorem test_logs_and_shadows :
    let sh : Shard := { shard5 with shadow := true, logCredit := 3, copies := [(5, 0, [1, 2])] }
    let s : State := { sharded with shards := [sh] }
    after (.logReq (msg 0x37 (.logReq 6 0 8))) sharded (fun t => t.cmp == sharded.cmp) ∧ after (.logReq (msg 0x37 (.logReq 5 1 4))) sharded (fun t => t.cmp.logReqs.map (·.credit) == [4]) ∧
    after (.logData (msg 0x38 (.logData 6 1 false []))) sharded (fun t => t.shards == sharded.shards) ∧ LogRec.size [1] = none ∧
    after (.logData (msg 0x38 (.logData 5 1 false [1]))) s (fun t => (t.shard 5).any fun x => x.logBuf == [1] && x.logCredit == 2) ∧
    after (.shadowCopy (msg 0x39 (.shadowCopy 5 (words 0x10) []))) s (fun t => t.nextCmd == 1) ∧ after (.shadowCopy (msg 0x39 (.shadowCopy 5 (words 0x10) []))) sharded (fun t => t.nextCmd == 0) ∧
    after (.shadowResult (msg 0x3A (.shadowResult 5 [1, 2]))) s (fun t => (t.shard 5).any (fun x => x.copies.isEmpty && x.run == 1) && t.counter (pCmp + 0x080) == 1) ∧
    after (.shadowResult { msg 0x3A (.shadowResult 5 [1, 2]) with txn := 6 }) s (fun t => t.shards == s.shards) ∧
    after (.shadowReady { msg 0x3B (.shadowReady 5) with arg := 1 }) s (fun t => t.shards.all (·.ready)) ∧ after (.shadowCopyTimeout 5 5) s (fun t => t.shards.all (·.copies.isEmpty)) := by decide +kernel

theorem test_partitions_are_fenced :
    up.sec.conf = 0 ∧ after (.partitionFenceWrite pf 0x8001) up (fun t => t.reg32 (pCmp + 0x11C) == 0x8001) ∧ up.reaches (.host .pa 1) (pCmp + 0x11C) = false := by decide +kernel

/-! ## Firmware -/

/-- An image of slot 0 with a body of one byte. -/
def img : List Byte := (((zeros 4097).set 0 1).set 8 1).set 2 3

theorem test_firmware_load_and_switch :
    let s : State := { up with cmp := { up.cmp with staged := img } }
    up.imgBad [] = some 0 ∧ after (.fwLoad pf (some [])) up (fun t => t.counter (pSec + 0x048) == 1) ∧ after (.fwLoad pf none) up (fun t => bitOf (t.reg32 (pCmp + 0x18)) 7) ∧
    after (.fwSwitch pf) s (fun t => t.cmp.switching) ∧ after (.fwSwitch pf) up (fun t => t == up) ∧
    ({ s with cmp := { s.cmp with switching := true } } : State).mayCut = true ∧
    after .fwSwitchAccept { s with cmp := { s.cmp with switching := true } } (fun t => t.cmp.image.length == 4097 && t.cmp.bank == 1 && t.cmp.unconfirmed) ∧
    after .fwFallback { s with cmp := { s.cmp with switching := true } } (fun t => t.cmp.fallback && t.cmp.staged.isEmpty) := by decide +kernel

/-- Where the key and the signature are those of the device, the image passes its checks. -/
theorem test_an_image_can_pass (h : Config.falconVerify (slice img 64 1793) (slice img 0 64 ++ slice img 4096 (imgBody img)) (slice img 2048 1280) = true) :
    ({ up with sec := { SecSt.reset with valid := 1, digests := [Config.shake256 32 (slice img 64 1793), [], [], []] } } : State).imgBad img = none := by
  have a : imgFormatBad img = false := by decide +kernel
  have b : byteAt img 1 = 0 := by decide +kernel
  have c : bitOf (byteAt img 6) 0 = false := by decide +kernel
  have d : ¬ byteAt img 2 < 0 := by omega
  have e : bitOf 1 0 = true := by decide +kernel
  have f : bitOf 0 0 = false := by decide +kernel
  simp only [State.imgBad, a, b, c, e, f, SecSt.reset]
  simp [h]

theorem test_firmware_confirm :
    let i : List Byte := (img.set 3 1).set 6 8
    let s : State := { up with cmp := { up.cmp with image := i } }
    bitOf (byteAt i 3) 0 = true ∧ s.sec.arb < byteAt i 2 ∧ s.sec.selector ≠ 1 ∧
    after (.fwConfirm pf true) s (fun t => t.sec.arb == 3 && t.sec.revoked == 8 && t.sec.selector == 1 && t.sec.slot1.length == 4097) ∧
    after (.fwConfirm pf false) s (fun t => bitOf (t.reg32 (pSec + 0x18)) 5) ∧ after (.fwConfirm pf true) up (fun t => t == up) ∧
    after (.fwConfirm pf true) { s with sec := { s.sec with selector := 1 } } (fun t => t.sec.selector == 0 && t.sec.slot0.length == 4097) := by decide +kernel
/-! ## Flash -/

def goodDie : DieSt := { st := .good, retired := [], planes := 1, ppb := 4, pages := 16, retry := false, suspend := false }
/-- A partition with one page of a window, mapped to page 0 of die 0. -/
def page0 (programmed : Bool) : Phys := { gpage := 0, part := 0, seq := 1, key := [], data := [5], programmed := programmed }
def flashed : State :=
  { ringed with
    fte := { FteSt.reset with dies := [(0, goodDie)], len := [(0, 1)], phys := [(0, page0 true)], map := [(0, { kind := 1, zmask := 0, ppa := 0 })] } }

theorem test_flash_read :
    let c : Cmd := { cmd 7 0x71 with admitted := true, phase := .run (.flash 0) }
    let s : State := { flashed with cmds := [c] }
    let u := s.pumpDies
    u.cmds = [c] ∧ (u.entryFor c 0).kind = 1 ∧ (tget u.fte.phys 0).elim false (·.programmed) = true ∧ u.dieLost 0 = false ∧ u.readsOut 0 0 = [0] ∧ u.armed pFte 0 = false ∧ u.fte.supers = [] ∧
    (u.dieRun 0).cur = some ⟨0, .read 0 0⟩ ∧ 0 ≤ fld (u.reg32 (pFte + 0x108)) 9 0 ∧
    after (.flashReadDone 0 0 { step := 1, bits := 0 }) s (fun t => t.counter (pFte + 0x040) == 1) ∧
    after (.flashReadDone 0 0 { step := 0, bits := 0 }) s (fun t => t.counter (pFte + 0x080) == 1) ∧
    flashed.pumpDies.readsOut 0 0 = [] ∧ after (.flashReadDone 0 0 { step := 1, bits := 0 }) flashed (fun t => t.cmds.isEmpty && t.counter (pFte + 0x040) == 0) := by decide +kernel

theorem test_program_completes :
    let x : Super := { dies := [0], block := 0, nextRow := 0, closed := false, reads := 0, erasing := false }
    let s : State := { flashed with fte := { flashed.fte with phys := [(0, page0 false)], supers := [(0, x)], streams := [(0, { sb := some 0, row := [0], programming := true })] } }
    let u := s.pumpDies
    u.allOut ⟨0, .program 0⟩ (u.rowDies 0 0) = true ∧ u.firstRow (u.stream 0 0) = [0] ∧ u.armed pFte 1 = false ∧ u.cmds = [] ∧
    after (.programComplete 0 0 []) s (fun t => (tget t.fte.phys 0).any (·.programmed) && !(t.stream 0 0).programming) ∧ after (.programComplete 16 0 []) s (fun t => t == u) := by decide +kernel

/-- A die whose read asks while a program is on it: the program is suspended where the die can, and waits where it cannot (11 R351). -/
theorem test_a_read_suspends_a_program :
    let c : Cmd := { cmd 7 0x71 with admitted := true, phase := .run (.flash 0) }
    let s (can : Bool) : State := { flashed with cmds := [c], fte := { flashed.fte with dies := [(0, { goodDie with suspend := can })], runs := [(0, { cur := some ⟨0, .program 0⟩, paused := none, served := 0 })] } }
    (s true).pumpDies.dieRun 0 = { cur := some ⟨0, .read 0 0⟩, paused := some ⟨0, .program 0⟩, served := 1 } ∧ (s true).pumpDies.counter (pChan 0 + 0x050) = 1 ∧
    ((s false).pumpDies.dieRun 0).cur = some ⟨0, .program 0⟩ := by decide +kernel

theorem test_relocation_and_erase :
    let x : Super := { dies := [0], block := 0, nextRow := 0, closed := true, reads := 0, erasing := true }
    let s : State := { flashed with fte := { flashed.fte with supers := [(0, x)] } }
    let low : State := { flashed with fte := { flashed.fte with supers := [(0, x), (1, { x with block := 1 }), (2, { x with block := 2 }), (3, { x with block := 3 })] } }
    s.pumpDies.super 0 0 = some x ∧ x.erasing = true ∧ s.pumpDies.allOut ⟨0, .erase 0⟩ (s.pumpDies.eraseDies x) = true ∧ after (.eraseComplete 0 0) s (fun t => t.fte.supers.isEmpty && t.fte.phys.isEmpty) ∧
    (s.freeHist 0).superCount 0 ≠ 0 ∧ (s.freeHist 0).freePct 0 ≥ fld ((s.freeHist 0).reg32 (pFte + 0x104)) 7 0 ∧ after (.gcStart 0) s (fun t => t.fte.gc == 0) ∧
    (low.freeHist 0).freePct 0 < fld ((low.freeHist 0).reg32 (pFte + 0x104)) 7 0 ∧ after (.gcStart 0) low (fun t => t.fte.gc == 1) ∧
    after (.eraseComplete 0 0) { s with fte := { s.fte with supers := [(0, { x with erasing := false })] } } (fun t => t.fte.supers.length == 1) := by decide +kernel

theorem test_dies_and_scans :
    let lost : State := { flashed with fte := { flashed.fte with dies := [(511, { goodDie with st := .rebuilding })], rebuild := [511] } }
    (flashed.die 0).st = .good ∧ after (.dieTimeout 0) flashed (fun t => (t.die 0).st == .rebuilding && t.counter (pChan 0 + 0x058) == 1) ∧
    after (.dieTimeout 511) flashed (fun t => t == flashed) ∧ (lost.die 511).st = .rebuilding ∧ after (.rebuildComplete 511) lost (fun t => (t.die 511).st == .excluded) ∧
    after (.rebuildComplete 0) flashed (fun t => t == flashed) ∧
    ({ up with time := { TimeSt.reset with lctr := 2 ^ 60 } } : State).time.lctr ≥ 0 + fld (up.reg32 (pFte + 0x10C)) 7 0 * 8640000000000 ∧
    after (.patrolScan 15 []) { up with time := { TimeSt.reset with lctr := 2 ^ 60 } } (fun t => tgetD t.fte.scanAt 15 0 == 2 ^ 60) ∧
    after (.patrolScan 15 []) { up with time := TimeSt.reset } (fun t => t.fte == up.fte) := by decide +kernel

/-! ## Power, start, time -/

theorem test_what_ends_operation :
    up.hasStreams = true ∧ after (.pwrFailN 2000 true) up (fun t => t.pwr.flush == some 0 && t.pwr.pwrFail) ∧ after (.pwrFailN 999 true) up (fun t => t == up) ∧
    (up.setMv [550, 800, 800, 800]).vLow = 550 ∧ after (.vmonRst [550, 800, 800, 800]) up (fun t => t.pwr.flush == some 1) ∧ after (.vmonRst [551, 800, 800, 800]) up (fun t => t.pwr.flush.isNone) ∧
    fld (up.reg32 (pPwr + 0x110)) 15 8 = 115 ∧ after (.thermalTrip [115, 0, 0, 0]) up (fun t => t.pwr.flush == some 3 && t.pwr.tripWait) ∧
    after (.thermalTrip [114, 0, 0, 0]) up (fun t => t.pwr.flush.isNone) := by decide +kernel

theorem test_recovery_and_hold_max :
    let w : State := { up with pwr := { up.pwr with tripWait := true, waitRestart := true, stage := none } }
    let h : State := { up with pwr := { up.pwr with hold := true } }
    fld (w.reg32 (pPwr + 0x110)) 7 0 = 95 ∧ after (.thermalRecovery [84, 0, 0, 0]) w (fun t => t.pwr.stage == some 0 && !t.pwr.tripWait) ∧
    after (.thermalRecovery [85, 0, 0, 0]) w (fun t => t.pwr.tripWait) ∧ after .holdMaxExpiry h (fun t => t.pwr.flush == some 2) ∧ after .holdMaxExpiry up (fun t => t == up) := by decide +kernel

/-- `ringed` with its context, and the ownership of port A, in partition 1. -/
def part1 : State := { ringed with ctxs := [(1, { CtxEnt.reset with state := .ready, part := 1 })], pa := { ringed.pa with own := 2 } }

theorem test_flush_and_restart :
    let f : State := { part1 with pwr := { up.pwr with flush := some 0 } }
    let w : State := { up with pwr := { up.pwr with waitRestart := true, stage := none } }
    after .flushComplete f (fun t => t.pwr.waitRestart && t.cmds.isEmpty && (t.ctx 1).state == .off && !t.powered 29) ∧ after .flushComplete up (fun t => t == up) ∧
    after .restartAfterFlush w (fun t => t.pwr.stage == some 0 && t.powered 29 && t.pwr.waitRestart == false) ∧ after .restartAfterFlush up (fun t => t == up) := by decide +kernel

theorem test_hold_begins_and_ends :
    let h : State := { up with pwr := { up.pwr with hold := true, holdAt := 2 ^ 40 } }
    up.vWarn = 600 ∧ after (.holdEnter [599, 800, 800, 800]) up (fun t => t.pwr.hold && t.pwr.holdAt == 2 ^ 40) ∧ after (.holdEnter [600, 800, 800, 800]) up (fun t => !t.pwr.hold) ∧
    after (.holdExit [621, 800, 800, 800]) h (fun t => !t.pwr.hold && t.counter (pPwr + 0x040) == 1) ∧ after (.holdExit [620, 800, 800, 800]) h (fun t => t.pwr.hold) := by decide +kernel

theorem test_voltage_loop_and_sensors :
    nextVset 160 130 170 40 1051 95 950 1050 = 156 ∧ nextVset 160 130 170 40 1050 95 950 1050 = 159 ∧ nextVset 160 130 170 95 100 95 950 1050 = 159 ∧
    up.powered 5 = true ∧ after (.voltageLoopStep 40 1051 true) up (fun t => t.pwr.vset == 156 && t.counter (pPwr + 0x058) == 1) ∧ after (.voltageLoopStep 40 1051 false) up (fun t => t.pwr.vset == 160) ∧
    after (.sensorRefresh (List.replicate 23 9)) up (fun t => t.pwr.sensors.length == 23 && t.pwr.sensors.getD 22 0 == 800 && t.counter (pTel + 0x048) == 1) ∧
    ({ up with pwr := { up.pwr with on := 1 } } : State).powered 29 = false := by decide +kernel

theorem test_power_comes_and_goes :
    let off : State := { up with pwr := { PwrSt.reset with good := false } }
    let early : State := { State.reset with time := { TimeSt.reset with lctr := 5000000 } }
    after (.pwrGood true 3) off (fun t => t.pwr.good && t.pwr.straps == 3 && t.time.lctr == 0) ∧ after (.pwrGood false 0) up (fun t => t.cmds.isEmpty && t.pwr.on == 0) ∧
    after (.stage0Entry [800, 800, 800, 800]) early (fun t => t.pwr.stage == some 0 && t.powered 29) ∧
    after (.stage0Entry [800, 800, 800, 800]) { early with time := { TimeSt.reset with lctr := 4999999 } } (fun t => t.pwr.stage.isNone) := by decide +kernel

def rep0 : StartReport := { badChannels := [], badDomains := [], badCourses := 0, nand := [], rates := [], badNand := 0, avsOk := true, mv := [800, 800, 800, 800] }

theorem test_stages_advance :
    let s : State := { up with pwr := { up.pwr with stage := some 1, on := 2 ^ 0 + 2 ^ 1 + 2 ^ 2 + 2 ^ 29 }, cmp := { up.cmp with image := [1] } }
    s.held = false ∧ after (.stageAdvance rep0) s (fun t => t.pwr.stage == some 2 && t.powered 6 && t.powered 27) ∧
    after (.stageAdvance rep0) { s with cmp := { s.cmp with image := [] } } (fun t => t.pwr.stage == some 1) ∧ after (.stageAdvance rep0) { s with pwr := { s.pwr with hold := true } } (fun t => t.pwr.stage == some 1) := by
  decide +kernel

theorem test_domains_switch :
    let off : State := { up with pwr := { up.pwr with on := 2 ^ 29 - 1 } }
    up.mayOff 29 = true ∧ after (.pdSwitchOff pf 29) up (fun t => !t.powered 29) ∧ after (.pdSwitchOff pf 2) up (fun t => t.powered 2 && bitOf (t.reg32 (pPwr + 0x18)) 4) ∧
    after (.pdSwitchOn pf 30) up (fun t => bitOf (t.reg32 (pPwr + 0x18)) 4) ∧ off.powered 29 = false ∧ after (.pdSwitchOn pf 29) off (fun t => t.powered 29 && t.pwr.turning == [29]) ∧
    (let l : State := { up with pwr := { up.pwr with leaving := [18] } }
     18 ∈ l.pwr.leaving ∧ l.powered 18 = true ∧ after (.pdSwitchOn pf 18) l (fun t => t.pwr.leaving.isEmpty && t.arr.fenced == l.arr.fenced)) ∧
    up.mayOff 3 = false ∧ after (.pdSwitchOff pf 29) { up with pwr := { up.pwr with hold := true } } (fun t => t.pwr.holdReqs == [(29, false)]) ∧
    after (.domainOnDone 22 rep0) { up with pwr := { up.pwr with turning := [22] } } (fun t => t.pwr.turning.isEmpty) ∧ after (.domainOnDone 22 rep0) up (fun t => t == up) := by decide +kernel

theorem test_references :
    after (.lctrSourceSwitch true false) up (fun t => t.time.src == 0 && t.time.switches == 1) ∧ after (.lctrSourceSwitch false false) up (fun t => t.time.src == 2 && t.time.switches == 0) ∧
    (let s : State := { up with pwr := { up.pwr with on := 2 ^ 14 - 1 } }
     bitOf s.pwr.quadRef 3 = true ∧ s.powered 17 = false ∧ s.powered 21 = false ∧ s.powered 25 = false ∧ after (.quadrantReferenceLost 3) s (fun t => t.pwr.quadRef == 7)) := by decide +kernel

/-! ## Registers and rings -/

theorem test_latches :
    let s : State := { up with time := { TimeSt.reset with lctr := 2 ^ 33 + 5 } }
    s.reaches pf 0x100 = true ∧ s.reaches pf 0x104 = true ∧ after (.glbLctrLoRead pf false) s (fun t => t.pa.out == [.answer 0 0x100 [5, 0, 0, 0]] && t.latchOf pf 0x104 == some 2) ∧
    after (.rcFieldRead pf 0x104) (s.setLatch pf 0x104 7) (fun t => t.pa.out == [.answer 0 0x104 [7, 0, 0, 0]]) ∧
    up.reaches pf (pPeg + 0x118) = true ∧ after (.pegStatSseLoRead pf) up (fun t => t.latchOf pf (pPeg + 0x128) == some 0) ∧ pegLatches.all (fun o => up.reaches pf o) = true ∧
    after (.pegStatSelWrite pf 63) (up.setLatch pf (pPeg + 0x128) 7) (fun t => (t.latchOf pf (pPeg + 0x128)).isNone && t.selOf pf (pPeg + 0x110) == 63) := by decide +kernel

theorem test_other_reads :
    let s : State := (sharded.setSel pf (pGwe + 0x110) 5).bump (pHif .pa + 0x048) (2 ^ 32 + 1)
    s.reaches pf (pHif .pa + 0x048) = true ∧ (pageOf (pHif .pa + 0x048)).isSome = true ∧ counterLow (pHif .pa + 0x048) = true ∧
    after (.counterLoRead pf (pHif .pa + 0x048)) s (fun t => t.latchOf pf (pHif .pa + 0x04C) == some 1) ∧ s.reaches pf (pGwe + 0x120) = true ∧
    after (.editionLoRead pf (pGwe + 0x120)) s (fun t => t.pa.out == [.answer 0 (pGwe + 0x120) [1, 0, 0, 0]]) ∧ s.reaches pf (pAtt + 0x118) = true ∧ s.reaches pf (pUpd + 0x10C) = true ∧
    s.reaches pf (pPwr + 0x10C) = true ∧ after (.rcFieldRead pf (pSel + 0x104)) { s with selMax := 9 } (fun t => t.selMax == 0) ∧ s.reaches pf (pFab + 0x11C) = true ∧
    State.reset.reaches pf 0x100 = false ∧ after (.counterLoRead pf 0x040) State.reset (fun t => t == State.reset) ∧ barOff pf 0x040 = 0x040 := by decide +kernel

theorem test_writes :
    let s : State := up.raise pGwe 0
    s.reaches pf (pGwe + 0x18) = true ∧ after (.errClear pf (pGwe + 0x18) 1) s (fun t => t.reg32 (pGwe + 0x18) == 0) ∧ s.devLocked = false ∧ (pageOf (pGwe + 0x20)).isSome = true ∧
    after (.errInjWrite pf (pGwe + 0x20) 7) s (fun t => t.reg32 (pGwe + 0x20) == 4) ∧ after (.registerWrite pf (pGwe + 0x14) 1) s (fun t => t == s) ∧
    after (.glbEvtSelWrite pf 1) s (fun t => (tget t.reg.copy 1).isSome) ∧ after (.pegStatBindWrite pf 0x80000001) up (fun t => (t.pegSlot 0).bind == 0x80000001) ∧
    ((pageOf (pGwe + 0x10C)).bind fun g => storedReg g (pGwe + 0x10C)).map (·.2.1) = some 0 ∧ after (.registerWrite pf (pGwe + 0x10C) 0x10002) up (fun t => t.reg32 (pGwe + 0x10C) == 0x10002) := by
  decide +kernel

theorem test_locked_writes_and_bad_accesses :
    let s : State := { up with sec := { SecSt.reset with conf := 65535 }, regions := [region0], peg := [(0, { PegSlot.reset with bind := 0x80000000 })] }
    s.devLocked = true ∧ s.pegLocked 0x80000000 = true ∧ after (.pegStatBindWrite pf 0) s (fun t => (t.pegSlot 0).bind == 0x80000000 && t.counter (pSec + 0x070) == 1) ∧
    after (.errInjWrite pf (pGwe + 0x20) 7) s (fun t => t.reg32 (pGwe + 0x20) == 0) ∧ accessOk true 2 4 = false ∧ accessOk false 2 2 = true ∧ after (.badAccess pf true 2 4) up (fun t => t.counter 0x040 == 1 && bitOf (t.reg32 0x18) 0) ∧
    after (.badAccess pf false 2 2) up (fun t => t == up) := by decide +kernel

theorem test_rings_and_msix :
    let m : State := { ringed with pa := { ringed.pa with msix := [(0, { MsixFn.reset with en := true, pend := [3] })] } }
    let c : State := { ringed with rings := [(1, { Ring.reset with en := true, coal := 1, coalUs := 1 })] }
    let d : State := { up with rings := [(0, { Ring.reset with note := 2 })], pa := { up.pa with up := false } }
    up.reaches pf (pHif .pa + 0x12C) = true ∧ up.ringShown pf 0 = true ∧ after (.ringEnable pf .pa 0x80000000) up (fun t => (t.ring .pa 0).en) ∧ after (.ringDisable pf .pa 0) ringed (fun t => !(t.ring .pa 0).en) ∧
    d.reaches .mgmt (pHif .pa + 0x12C) = true ∧ after (.ringEnable .mgmt .pa 0x80000000) d (fun t => (t.ring .pa 0).held.map (fun r => (r.kind, r.sub)) == [(1, 2)]) ∧
    after (.msixCoalesceTimer 1) c (fun t => (t.ring .pa 1).coal == 0) ∧ after (.msixCoalesceTimer 1) { c with time := TimeSt.reset, rings := c.rings.map fun r => (r.1, { r.2 with coalAt := 1 }) } (fun t => (t.ring .pa 1).coal == 1) ∧
    (m.msixFn .pa 0).en = true ∧ 3 < (pcieFn m.pa.bar4 0).msix ∧ (pcieFn m.pa.bar4 0).msix ≤ 2048 ∧ after (.msixUnmask .pa 0 (.unmask 2048)) m (fun t => (t.msixFn .pa 0).open'.isEmpty) ∧ after (.msixUnmask .pa 0 (.unmask 3)) m (fun t => (t.msixFn .pa 0).pend.isEmpty && t.counter (pHif .pa + 0x050) == 1) ∧ after (.msixUnmask .pa 0 (.mask 3)) m (fun t => (t.msixFn .pa 0).pend == [3]) := by
  decide +kernel

/-! ## Host ports and ownership -/

theorem test_ports :
    after (.pcieLinkDown .pa) up (fun t => !t.pa.up && t.pa.downAt == 2 ^ 40 && t.pa.own == 1) ∧ after (.pcieLinkDown .pb) up (fun t => t == up) ∧
    after (.pcieLinkUp .pb 6 16 false) up (fun t => t.pb.up && t.pb.width == 16) ∧ after (.pcieLinkUp .pa 5 16 false) up (fun t => t == up) ∧
    after (.functionLevelReset .pb 16 false) up (fun t => t == up) ∧ after (.perst .pb) up (fun t => !t.pb.up) ∧ up.owns .pa 0 = true ∧
    after (.functionLevelReset .pa 2 false) part1 (fun t => !(t.ring .pa 1).en && (t.ring .pa 1).note == 2 && t.pa.own == 2) := by decide +kernel

theorem test_ownership :
    let r : State := { up with pa := { up.pa with rel := 1 } }
    let g : State := { part1 with pb := { up.pb with up := true, peerDown := true } }
    let d : State := { up with pa := { up.pa with up := false } }
    up.reaches pf (pHif .pa + 0x10C) = true ∧ after (.release pf .pa 1) up (fun t => bitOf t.pa.rel 0 && t.pa.own == 1) ∧ after (.releaseComplete .pa 0) r (fun t => !t.owns .pa 0 && t.pa.rel == 0) ∧
    after (.releaseComplete .pa 15) r (fun t => t == r) ∧ up.reaches pf (pHif .pb + 0x110) = true ∧ after (.take pf .pb (2 ^ 15)) up (fun t => t.owns .pb 15) ∧
    after (.take pf .pb 1) up (fun t => bitOf t.pb.pend 0 && !t.owns .pb 0) ∧ up.mayForce .pb 0 = false ∧ after (.forcedTakeover pf .pb 1) up (fun t => !t.owns .pb 0 && bitOf (t.reg32 (pHif .pb + 0x18)) 5) ∧
    (let b : State := { r with pa := { r.pa with pend := 1 }, pb := { r.pb with up := true, pend := 1, first := 1 } }
     b.nextOwner 0 = some .pb ∧ after (.releaseComplete .pa 0) b (fun t => t.owns .pb 0 && !t.owns .pa 0)) ∧ r.nextOwner 0 = none ∧
    g.mayForce .pb 1 = true ∧ g.cmds = [] ∧ after (.forcedTakeover pf .pb 2) g (fun t => t.owns .pb 1 && !t.owns .pa 1) ∧ after (.takeoverGraceExpiry .pa) d (fun t => t.pb.peerDown) ∧
    after (.takeoverGraceExpiry .pa) up (fun t => t == up) ∧ after (.take pf .pb (2 ^ 15)) { up with pwr := { up.pwr with stage := some 4 } } (fun t => !t.owns .pb 15) := by decide +kernel

/-! ## Attestation, sessions, management -/

theorem test_attestation_is_carried :
    up.carries .mctp = true ∧ up.carries (.doe .pb) = false ∧ up.carries (.doe .pa) = true ∧ ({ up with pwr := { up.pwr with stage := some 0 } } : State).carries .mctp = true ∧
    after (.getCert .mctp 1 0 1024) up (fun t => t.mgt.resp.length == 1) ∧ after (.getCert .mctp 1 0 1025) up (fun t => t.counter (pSec + 0x078) == 1) ∧
    after (.getReport (.doe .pa) 1 (zeros 32)) up (fun t => t.counter (pSec + 0x050) == 1) ∧ after (.getReport (.doe .pa) 1 []) up (fun t => t.counter (pSec + 0x078) == 1) ∧
    after (.getInfo (.doe .pb) 1) up (fun t => t == up) := by decide +kernel

def sess (keyed : Bool) : Session := { part := 0, port := .pa, priv := [], key := [], keyed := keyed, seq := 4, opening := [] }
def insession (x : Session) : State := { up with sec := { SecSt.reset with sessions := [x], life := .provisioned } }

theorem test_sessions :
    after (.sessionOpen .pa 4 0) up (fun t => t.sec.sessions.length == 1 && t.counter (pSec + 0x058) == 1) ∧ after (.sessionOpen .pa 4 1) up (fun t => t.counter (pSec + 0x078) == 1) ∧
    (insession (sess false)).session .pa 0 = some (sess false) ∧ after (.sessionKey .pa 5 0 (zeros 1568)) (insession (sess false)) (fun t => (t.session .pa 0).any (·.keyed)) ∧
    after (.sessionKey .pa 5 0 [1]) (insession (sess false)) (fun t => t.sec == (insession (sess false)).sec) ∧ ((insession (sess true)).opens .pa 0 4 []).isNone = true ∧
    after (.setIdeKey .pa 4 0 []) (insession (sess true)) (fun t => bitOf (t.reg32 (pSec + 0x18)) 6) ∧ (insession (sess true)).mayEnter .pa 0 = false ∧
    (({ insession (sess true) with ctxs := [], sec := { (insession (sess true)).sec with ide := [(0, [1])] } } : State).setReg32 (pHif .pa + 0x11C) 1).mayEnter .pa 0 = true ∧
    after (.ideDrop .pa 0 true) { up with sec := { SecSt.reset with conf := 1 } } (fun t => t.counter (pSec + 0x068) == 1) ∧ after (.ideDrop .pa 1 true) up (fun t => t == up) := by decide +kernel

/-- Where the cipher accepts a message under the session's key, it opens. -/
theorem test_a_session_message_can_open (d : List Byte) (h : Config.gcmOpen [] (Config.layout 0x443 [5]) [1] = some d) :
    (insession (sess true)).opens .pa 0 5 [1] = some (d, (insession (sess true)).setSession { sess true with seq := 5 }) := by
  have h' : Config.gcmOpen [] (Config.layout 0x443 [5]) [1#8] = some d := h
  simp [State.opens, State.session, insession, sess, h']

theorem test_management_requests_are_served :
    up.hearsEb .mctp = true ∧ up.hearsEb (.doe .pa) = false ∧ ebVersion 0x12 = true ∧ ebVersion 0x13 = false ∧ up.ebServes .mctp 0x12 0x12 5 = true ∧ up.ebServes .mctp 0x10 0x10 1 = true ∧
    up.fromStage 3 = true ∧ after (.reset .mctp 0x10 1) up (fun t => t.pwr.flush == some 4) ∧ limitsOk 100 100 80 106 = true ∧ limitsOk 951 1000 80 106 = false ∧
    after (.setLimits .mctp 0x10 1 100 1050 105 120) up (fun t => t.reg32 (pPwr + 0x118) == 1050 * 2 ^ 16 + 100) ∧
    after (.writeReg .mctp 0x10 1 (pGwe + 0x10C) 0x10002 0xFFFFFFFF) up (fun t => t.reg32 (pGwe + 0x10C) == 0x10002) ∧ after (.readReg .mctp 0x10 1 0x100 17) up (fun t => t.counter (pMgt + 0x048) == 1) ∧
    after (.readReg .mctp 0x10 1 0x102 1) up (fun t => t.counter 0x040 == 1) ∧ after (.getEvents .mctp 0x10 1 0 9) up (fun t => t.counter (pMgt + 0x048) == 1) ∧
    after (.getCounters .mctp 0x10 1 (pHif .pa) 0x040 8) up (fun t => t.counter (pMgt + 0x048) == 0 && t.counter (pMgt + 0x040) == 1) ∧ after (.pdControl .mctp 0x12 1 29 false) up (fun t => !t.powered 29) := by
  decide +kernel

theorem test_early_management :
    let s : State := { part1 with pwr := { up.pwr with stage := some 0 } }
    s.fromStage 1 = false ∧ s.fromStage 3 = false ∧ after (.readReg .mctp 0x10 1 0x100 1) s (fun t => t.counter (pMgt + 0x048) == 1) ∧ after (.reset .mctp 0x10 1) s (fun t => t.pwr.stage == some 0 && t.cmds.isEmpty) ∧
    ((ebRows (fun _ => 0) false .pa).all fun row => after (row.1 .mctp 0x13 1) s (fun t => t.counter (pMgt + 0x048) == 1)) := by decide +kernel

theorem test_mctp_control :
    State.reset.pwr.stage = none ∧ up.pwr.stage ≠ none ∧ after (.setEndpointId 9) up (fun t => t.mgt.eid == 9) ∧ after (.setEndpointId 9) State.reset (fun t => t == State.reset) ∧
    after (.dynamicAddressAssign 127) up (fun t => t.mgt.i3c && t.mgt.dyn == 127) := by decide +kernel

theorem test_takeover_authority :
    let s : State := { part1 with mgt := { MgtSt.reset with auth := some (1, .pb, 0) } }
    after (.takeoverAuth .mctp 0x12 1 15 .pb) up (fun t => t.mayForce .pb 15 && !t.mayForce .pb 0 && !t.mayForce .pa 15) ∧ s.owns .pa 1 = true ∧ s.pb.peerDown = false ∧
    after (.forcedTakeover pf .pb 2) s (fun t => t.owns .pb 1 && t.mgt.auth.isNone) ∧ after .takeoverAuthLapse { s with time := { TimeSt.reset with lctr := 2 ^ 27 } } (fun t => t.mgt.auth.isNone) ∧
    after .takeoverAuthLapse { s with time := { TimeSt.reset with lctr := 2 ^ 27 - 1 } } (fun t => t.mgt.auth.isSome) := by decide +kernel

/-! ## The event log -/

theorem test_events_fold_and_are_redacted :
    let e : Event := { time := 2 ^ 40 - 2 ^ 20, seq := 3, source := (pageOf pGwe).elim 0 (·.id), code := 1, sev := 3, part := 17, ctx := 4, count := 65535, d0 := 5, d1 := 6 }
    let s : State := { up with reg := { up.reg with log := [e], head := 3 } }
    let c : State := { up with sec := { SecSt.reset with conf := 2 } }
    (s.reg.log.find? fun x => x.source == (pageOf pGwe).elim 0 (·.id)) = some e ∧ (s.logEvent pGwe 1 3 ⟨some 1, 4⟩ 5 6).counter 0x048 = 1 ∧
    (s.logEvent pGwe 1 3 ⟨some 1, 4⟩ 5 6).reg.log = [e] ∧ (s.logEvent pGwe 1 3 ⟨some 1, 4⟩ 5 7).reg.head = 4 ∧ c.confidential 1 = true ∧
    (c.logEvent pGwe 1 3 ⟨some 1, 4⟩ 5 6).reg.log.map (fun x => (x.part, x.ctx, x.d0, x.d1)) = [(49, 0, 0, 0)] := by decide +kernel

/-! ## Ill-formed commands: one term for each check of `Instr.wf` -/

def msg0 : Msg := { ty := 0, link := 0, ver := 1, src := 0, srcPart := 0, dst := 0, dstPart := 0, epoch := 0, fanout := false, ni := false, resend := false, hops := 0, txn := 0, addr := 0, arg := 0, e2eOk := true, body := .empty }
def frame0 : Frame := { stack := 0, die := 0, dw := List.replicate 16 0, payload := [] }

theorem test_wf_refuses_numbers :
    Instr.wf (.getInfo .mctp 255) = true ∧ Instr.wf (.getInfo .mctp 256) = false ∧ Instr.wf (.registerWrite pf 0x100 (2 ^ 32 - 1)) = true ∧ Instr.wf (.registerWrite pf 0x100 (2 ^ 32)) = false ∧
    Instr.wf (.functionLevelReset .pa 16 false) = true ∧ Instr.wf (.functionLevelReset .pa 17 false) = false ∧ Instr.wf (.nop 4095) = true ∧ Instr.wf (.nop 4096) = false ∧
    Instr.wf (.quantumExpiry 15) = true ∧ Instr.wf (.quantumExpiry 16) = false ∧ Instr.wf (.sweepBatch 4095) = true ∧ Instr.wf (.sweepBatch 4096) = false ∧
    Instr.wf (.dupPairExpiry 4095 0) = true ∧ Instr.wf (.dupPairExpiry 4096 0) = false := by decide +kernel

theorem test_wf_refuses_places :
    Instr.wf (.courseParityError 15) = true ∧ Instr.wf (.courseParityError 16) = false ∧ Instr.wf (.stackThermal 11 0) = true ∧ Instr.wf (.stackThermal 12 0) = false ∧
    Instr.wf (.spareCopyDone 12287) = true ∧ Instr.wf (.spareCopyDone 12288) = false ∧ Instr.wf (.replayTimeout 23) = true ∧ Instr.wf (.replayTimeout 24) = false ∧
    Instr.wf (.laneFail 0 3) = true ∧ Instr.wf (.laneFail 0 4) = false ∧ Instr.wf (.dieTimeout 511) = true ∧ Instr.wf (.dieTimeout 512) = false ∧
    Instr.wf (.quadrantReferenceLost 3) = true ∧ Instr.wf (.quadrantReferenceLost 4) = false ∧ Instr.wf (.pdSwitchOn pf 29) = true ∧ Instr.wf (.pdSwitchOn pf 30) = false ∧
    Instr.wf (.counterLoRead pf 0x044) = true ∧ Instr.wf (.counterLoRead pf 0x042) = false ∧ Instr.wf (.counterLoRead pf (2 ^ 26)) = false := by decide +kernel

theorem test_wf_refuses_structures :
    Instr.wf (.go (.host .pa 17)) = false ∧ Instr.wf (.bar4Access .pa 0 ⟨.rd 0, []⟩) = false ∧ Instr.wf (.bar4Access .pa 0 ⟨.rd 4096, []⟩) = true ∧ Instr.wf (.bar4Access .pa 0 ⟨.wr [], []⟩) = false ∧
    Instr.wf (.msixUnmask .pa 0 (.mask 2047)) = true ∧ Instr.wf (.msixUnmask .pa 0 (.mask 2048)) = false ∧
    Instr.wf (.list frame0) = true ∧ Instr.wf (.list { frame0 with die := 16 }) = false ∧ Instr.wf (.list { frame0 with dw := [0] }) = false ∧
    Instr.wf (.strum frame0 [{ fret := 0, col := 1572864, kind := .tag, symbol := 0 }]) = false ∧ Instr.wf (.poolRd msg0) = true ∧ Instr.wf (.poolRd { msg0 with dst := 4096 }) = false := by decide +kernel

theorem test_wf_refuses_reports :
    Instr.wf (.hello 0 { node := 1, kind := 0, lo := 1, hi := 1, lanes := 4 }) = true ∧ Instr.wf (.hello 0 { node := 1, kind := 0, lo := 1, hi := 1, lanes := 5 }) = false ∧
    Instr.wf (.flitReceive 0 (zeros 256) { uncorr := false, syms := [0, 0, 0, 0] }) = true ∧ Instr.wf (.flitReceive 0 (zeros 256) { uncorr := false, syms := [0, 0, 0, 0, 0] }) = false ∧
    Instr.wf (.flitReceive 0 [] { uncorr := false, syms := [] }) = false ∧ Instr.wf (.flashReadDone 0 0 { step := 5, bits := 0 }) = false ∧ Instr.wf (.flashReadDone 0 0 { step := 4, bits := 0 }) = true ∧
    Instr.wf (.stageAdvance rep0) = true ∧ Instr.wf (.stageAdvance { rep0 with badCourses := 2 ^ 32 }) = false ∧ Instr.wf (.stageAdvance { rep0 with badDomains := [12288] }) = false ∧
    Instr.wf (.vmonRst [800]) = false ∧ Instr.wf (.dynamicAddressAssign 127) = true ∧ Instr.wf (.dynamicAddressAssign 128) = false := by decide +kernel

end Sys2Proof.Tests
end

section
/-! SUPPORT. The machine as a whole: one step, and the local counter with the reads that show it (spec 01 R32, R34). -/

namespace Sys2Proof.Machine

/-! ## An empty queue where nothing waits -/

theorem SbcSt.pullEnd_of_ends_nil {x : SbcSt} (h : x.ends = []) (die : Nat) : x.pullEnd die = x := by
  simp [SbcSt.pullEnd, SbcSt.endOf, h, tgetD, tget]

theorem SbcSt.pullEnds_of_ends_nil {x : SbcSt} (h : x.ends = []) (base : Nat) (dies : List Nat) :
    dies.foldl (fun x d => x.pullEnd (base + d)) x = x := by
  induction dies with
  | nil => rfl
  | cons d r ih => rw [List.foldl_cons, SbcSt.pullEnd_of_ends_nil h, ih]

theorem SbcSt.feed_of_rets_nil {x : SbcSt} (h : x.rets = []) (stack n : Nat) : x.feed stack n = x := by
  cases n with
  | zero => rfl
  | succ n => simp [SbcSt.feed, h]

theorem SbcSt.flow_of_empty {x : SbcSt} (hends : x.ends = []) (hrets : x.rets = []) (stack n : Nat) : x.flow stack n = x := by
  cases n with
  | zero => rfl
  | succ n =>
    simp only [SbcSt.flow, SbcSt.pullEnds_of_ends_nil hends, SbcSt.feed_of_rets_nil hrets, beq_self_eq_true, if_true]

theorem SbcSt.flows_of_empty {x : SbcSt} (hends : x.ends = []) (hrets : x.rets = []) (n : Nat) (sts : List Nat) :
    sts.foldl (fun x st => x.flow st n) x = x := by
  induction sts with
  | nil => rfl
  | cons st r ih => rw [List.foldl_cons, SbcSt.flow_of_empty hends hrets, ih]

/-- Empty buffers stay empty: there is nothing to take and nothing behind it. -/
theorem SbcSt.consume_of_empty {x : SbcSt} (hends : x.ends = []) (hrets : x.rets = []) (hqueue : x.queue = []) : x.consume = x := by
  have hx : ({ x with queue := [] } : SbcSt) = x := by rw [← hqueue]
  rw [SbcSt.consume, hx, SbcSt.flows_of_empty hends hrets]

theorem State.poolAgain_of_waitHbm_nil {s : State} (h : s.fab.waitHbm = []) : s.poolAgain = s := by
  have hs : ({ s with fab := { s.fab with waitHbm := [] } } : State) = s := by rw [← h]
  simp only [State.poolAgain, hs, h, List.foldl_nil]

theorem State.reissueAll_of_stalled_nil {s : State} (h : s.sbc.stalled = []) : s.reissueAll = s := by
  have hs : ({ s with sbc := { s.sbc with stalled := [] } } : State) = s := by rw [← h]
  simp only [State.reissueAll, hs, h, List.foldl_nil]

/-- The stack controllers' buffers are empty, and no frame, access, pool request or command waits for them. -/
structure State.Settled (s : State) : Prop where
  ends : s.sbc.ends = []
  rets : s.sbc.rets = []
  queue : s.sbc.queue = []
  stalled : s.sbc.stalled = []
  waitHbm : s.fab.waitHbm = []
  noneForSpace : ∀ c ∈ s.cmds, ∀ f, c.phase ≠ .run (.ret f)

theorem State.drain_of_settled {s : State} (h : s.Settled) : s.drain = s := by
  have hs : ({ s with sbc := s.sbc.consume } : State) = s := by rw [SbcSt.consume_of_empty h.ends h.rets h.queue]
  simp only [State.drain, hs, State.poolAgain_of_waitHbm_nil h.waitHbm, State.reissueAll_of_stalled_nil h.stalled]
  rw [List.filter_eq_nil_iff.mpr]
  · rfl
  · intro c hc
    split
    · next f hf => exact absurd hf (h.noneForSpace c hc f)
    · exact Bool.false_ne_true

theorem step_of_pending_cons {s : State} {c : Instr} {rest : List Instr} (h : s.pending = c :: rest) : step s = exec c { s with pending := rest } := by
  simp only [step, h]

theorem step_of_pending_nil {s : State} (h : s.pending = []) : step s = .next s.drain.idleTick := by
  simp only [step, h, State.idle]

/-- Settles O1: a step is `exec` of the front command; where nothing waits, draining is the identity and only the tick is left. -/
theorem stepRunsFrontCommand : Obligations.StepRunsFrontCommand := by
  unfold Obligations.StepRunsFrontCommand
  refine ⟨fun c rest s h => step_of_pending_cons h, fun s h => ⟨step_of_pending_nil h, ?_⟩⟩
  intro hends hrets hqueue hstalled hwait hcmds
  rw [step_of_pending_nil h, State.drain_of_settled ⟨hends, hrets, hqueue, hstalled, hwait, hcmds⟩, State.idleTick]

/-! ## Reads of registers by an agent that sees the whole map -/

@[simp] theorem State.latchOf_setLatch_same (s : State) (a : Agent) (off v : Nat) : (s.setLatch a off v).latchOf a off = some (v % 2 ^ 32) := by
  simp [State.latchOf, State.setLatch, tget_tset_same, BitVec.toNat_ofNat]

theorem page_of_reaches {s : State} {a : Agent} {off : Nat} (h : s.reaches a off = true) : ∃ g, pageOf off = some g := by
  cases hg : pageOf off with
  | none => simp [State.reaches, hg] at h
  | some g => exact ⟨g, rfl⟩

/-- A virtual function reaches nothing but its port's HIF page (16 R477). -/
theorem ty_of_vf_reaches {s : State} {p : Port} {n off : Nat} {g : Page} (h : s.reaches (.host p (n + 1)) off = true) (hg : pageOf off = some g) : g.ty = 0x10 := by
  simp only [State.reaches, hg, Bool.and_eq_true, beq_iff_eq] at h
  obtain ⟨-, ⟨⟨-, hty⟩, -⟩, -⟩ := h
  exact hty

theorem not_vf_of_reaches {s : State} {a : Agent} {off : Nat} {g : Page} (h : s.reaches a off = true) (hg : pageOf off = some g) (hty : g.ty ≠ 0x10) :
    a = .mgmt ∨ ∃ p, a = .host p 0 := by
  match a with
  | .mgmt => exact .inl rfl
  | .host p 0 => exact .inr ⟨p, rfl⟩
  | .host p (n + 1) => exact absurd (ty_of_vf_reaches h hg) hty

section
variable {s : State} {a : Agent} {off : Nat} {g : Page} (ha : a = .mgmt ∨ ∃ p, a = .host p 0)
include ha

theorem barOff_of_not_vf : barOff a off = off := by
  obtain rfl | ⟨p, rfl⟩ := ha <;> rfl

variable (hr : s.reaches a off = true) (halign : off % 4 = 0) (hg : pageOf off = some g)
include hr halign hg

theorem State.regShow_of_not_vf : s.regShow a off = s.viewPage a g off := by
  simp only [State.regShow, barOff_of_not_vf ha, hr, halign]
  obtain rfl | ⟨p, rfl⟩ := ha <;> simp [hg]

theorem State.afterRead_of_not_vf : s.afterRead a off = (s.latchRead a g off).restartRc a g off := by
  simp only [State.afterRead, hr, halign]
  obtain rfl | ⟨p, rfl⟩ := ha <;> simp [hg]

theorem State.readOne_of_not_vf :
    s.readOne a off = ((s.latchRead a g off).restartRc a g off).giveRead a off (leBytes 4 (s.viewPage a g off)) := by
  simp only [State.readOne, State.regRead, State.regShow_of_not_vf ha hr halign hg, State.afterRead_of_not_vf ha hr halign hg]

end

/-! ## The two halves of LCTR (01 R34) -/

/-- The page that holds GLB_LCTR_LO and GLB_LCTR_HI. -/
def glbPage : Page := ⟨1, 0, 0, 0⟩

theorem pageOf_lctrLo : pageOf 0x100 = some glbPage := by decide
theorem pageOf_lctrHi : pageOf 0x104 = some glbPage := by decide

@[simp] theorem State.restartRc_glbPage (s : State) (a : Agent) (off : Nat) : s.restartRc a glbPage off = s := rfl

@[simp] theorem State.viewPage_lctrLo (s : State) (a : Agent) : s.viewPage a glbPage 0x100 = s.time.lctr % 2 ^ 32 := rfl
@[simp] theorem State.viewPage_lctrHi (s : State) (a : Agent) : s.viewPage a glbPage 0x104 = (s.latchOf a 0x104).getD 0 := rfl
@[simp] theorem State.latchRead_lctrLo (s : State) (a : Agent) : s.latchRead a glbPage 0x100 = s.setLatch a 0x104 (s.time.lctr / 2 ^ 32) := rfl
@[simp] theorem State.latchRead_lctrHi (s : State) (a : Agent) : s.latchRead a glbPage 0x104 = s := rfl

theorem exec_glbLctrLoRead_wide {s : State} {a : Agent} (h : s.reaches a 0x100 = true) :
    exec (.glbLctrLoRead a true) s = .next (s.giveRead a 0x100 (leBytes 8 s.time.lctr)) := by
  simp [exec, execGlbLctrLoRead, h]

theorem exec_glbLctrLoRead_narrow {s : State} {a : Agent} (h : s.reaches a 0x100 = true) :
    exec (.glbLctrLoRead a false) s =
      .next ((s.setLatch a 0x104 (s.time.lctr / 2 ^ 32)).giveRead a 0x100 (leBytes 4 (s.time.lctr % 2 ^ 32))) := by
  have ha := not_vf_of_reaches h pageOf_lctrLo (by decide)
  simp [exec, execGlbLctrLoRead, h, State.readOne_of_not_vf ha h rfl pageOf_lctrLo]

theorem exec_rcFieldRead_lctrHi {s : State} {a : Agent} (h : s.reaches a 0x104 = true) :
    exec (.rcFieldRead a 0x104) s = .next (s.giveRead a 0x104 (leBytes 4 ((s.latchOf a 0x104).getD 0))) := by
  have ha := not_vf_of_reaches h pageOf_lctrHi (by decide)
  simp [exec, execRcFieldRead, barOff_of_not_vf ha, h, State.readOne_of_not_vf ha h rfl pageOf_lctrHi]

/-- Settles O47: the 32-bit read sets the latch of GLB_LCTR_HI and nothing else, a read of GLB_LCTR_HI shows the latch, and the 64-bit read goes past it. -/
theorem lctrReadsLatchTheUpperHalf : Obligations.LctrReadsLatchTheUpperHalf := by
  unfold Obligations.LctrReadsLatchTheUpperHalf
  intro a s h
  refine ⟨exec_glbLctrLoRead_wide h, ⟨_, exec_glbLctrLoRead_narrow h, rfl, State.latchOf_setLatch_same s a 0x104 _⟩, ?_⟩
  intro u v hu hv
  rw [exec_rcFieldRead_lctrHi hu, hv, Option.getD_some]

end Sys2Proof.Machine
end

section
/-! SUPPORT. Registers as an agent that sees the whole map reads and writes them: where a write lands (spec 16 R477, R490), and the latches of the Peg statistics (02 R66). -/

namespace Sys2Proof.Machine

/-! ## An agent's latches and selectors -/

theorem regKey_ne_of_off_ne {o o' : Nat} (i : Nat) (h : o' ≠ o) : regKey o' i ≠ regKey o i := by
  simp only [regKey]; omega

/-- Below 2^26 a key tells its index. -/
theorem regKey_ne_of_index_ne {o o' i j : Nat} (ho : o < 2 ^ 26) (ho' : o' < 2 ^ 26) (h : j ≠ i) : regKey o' j ≠ regKey o i := by
  simp only [regKey]; omega

theorem State.latchOf_setLatch_ne (s : State) (a : Agent) {off off' : Nat} (v : Nat) (h : off' ≠ off) :
    (s.setLatch a off v).latchOf a off' = s.latchOf a off' := by
  simp only [State.latchOf, State.setLatch, tget_tset_ne _ _ _ _ (regKey_ne_of_off_ne _ h)]

theorem State.latchOf_setLatch_other (s : State) {a b : Agent} {off off' : Nat} (v : Nat) (ho : off < 2 ^ 26) (ho' : off' < 2 ^ 26)
    (h : agentIdx b ≠ agentIdx a) : (s.setLatch a off v).latchOf b off' = s.latchOf b off' := by
  simp only [State.latchOf, State.setLatch, tget_tset_ne _ _ _ _ (regKey_ne_of_index_ne ho ho' h)]

@[simp] theorem State.selOf_setSel_same (s : State) (a : Agent) (off v : Nat) : (s.setSel a off v).selOf a off = v % 2 ^ 32 := by
  simp [State.selOf, State.setSel, tget_tset_same, BitVec.toNat_ofNat]

theorem tdel_eq_filter {β : Type} (t : List (Nat × β)) (k : Nat) : tdel t k = t.filter fun c => c.1 != k := by
  induction t with
  | nil => rfl
  | cons x r ih =>
    obtain ⟨j, w⟩ := x
    by_cases h : j = k <;> simp [tdel, h, ih]

theorem tget_of_notMem {β : Type} {t : List (Nat × β)} {k : Nat} (h : ∀ c ∈ t, c.1 ≠ k) : tget t k = none := by
  induction t with
  | nil => rfl
  | cons x r ih =>
    obtain ⟨hx, hr⟩ := List.forall_mem_cons.1 h
    simp [tget, hx, ih hr]

theorem notMem_keys_of_mem_foldl_tdel {β : Type} {c : Nat × β} (ks : List Nat) :
    ∀ {t : List (Nat × β)}, c ∈ ks.foldl tdel t → c ∈ t ∧ c.1 ∉ ks := by
  induction ks with
  | nil => intro t h; exact ⟨h, List.not_mem_nil⟩
  | cons k r ih =>
    intro t h
    obtain ⟨hc, hr⟩ := ih h
    rw [tdel_eq_filter, List.mem_filter, bne_iff_ne] at hc
    exact ⟨hc.1, by simp [hc.2, hr]⟩

/-- Whatever the order of the list, none of the keys deleted in turn is there at the end. -/
theorem tget_foldl_tdel {β : Type} {ks : List Nat} {k : Nat} (hk : k ∈ ks) (t : List (Nat × β)) : tget (ks.foldl tdel t) k = none :=
  tget_of_notMem fun _ hc e => (notMem_keys_of_mem_foldl_tdel ks hc).2 (e ▸ hk)

/-! ## Pages -/

theorem pageBase_add_div (off : Nat) {o : Nat} (ho : o < 4096) : (pageBase off + o) / 4096 = off / 4096 := by
  simp only [pageBase]; omega

theorem pageBase_add_mod (off : Nat) {o : Nat} (ho : o < 4096) : (pageBase off + o) % 4096 = o := by
  simp only [pageBase]; omega

theorem pageBase_add_aligned (off : Nat) {o : Nat} (ho : o % 4 = 0) : (pageBase off + o) % 4 = 0 := by
  simp only [pageBase]; omega

theorem pageOf_congr {off off' : Nat} (h : off' / 4096 = off / 4096) : pageOf off' = pageOf off := by
  simp only [pageOf, h]

/-! ## Writes by an agent that sees the whole map -/

theorem State.regWrite_of_not_reaches {s : State} {a : Agent} {off : Nat} (v : Nat) (hb : barOff a off = off) (h : s.reaches a off = false) :
    s.regWrite a off v = s := by
  simp [State.regWrite, hb, h]

section
variable {s : State} {a : Agent} {off : Nat} {g : Page} (ha : a = .mgmt ∨ ∃ p, a = .host p 0)
include ha

/-- Such an agent reaches all of a page or nothing of it. -/
theorem State.reaches_congr_page {off' : Nat} (h : off' / 4096 = off / 4096) : s.reaches a off' = s.reaches a off := by
  obtain rfl | ⟨p, rfl⟩ := ha <;> simp only [State.reaches, pageOf_congr h, h]

variable (hr : s.reaches a off = true) (hg : pageOf off = some g)
include hr hg

theorem State.regWrite_of_not_vf (halign : off % 4 = 0) (v : Nat) :
    s.regWrite a off v =
      if off % 4096 < 0x100 then s.writeHeader g (off % 4096) v
      else if selectors.contains (g.ty, off % 4096) && g.kind != 1 then s.writeSel a g off v
      else s.writeBlock a g off v := by
  simp only [State.regWrite, barOff_of_not_vf ha, hr, halign, hg]
  obtain rfl | ⟨p, rfl⟩ := ha <;> rfl

theorem State.headerWrite_of_not_vf {o : Nat} (ho : o < 0x100) (halign : o % 4 = 0) (v : Nat) : s.headerWrite a off o v = s.writeHeader g o v := by
  have ho' : o < 4096 := by omega
  have hdiv := pageBase_add_div off ho'
  rw [State.headerWrite, State.regWrite_of_not_vf ha ((State.reaches_congr_page ha hdiv).trans hr) ((pageOf_congr hdiv).trans hg)
    (pageBase_add_aligned off halign), pageBase_add_mod off ho', if_pos ho]

end

/-! ## The latches of a Peg statistics slot (02 R66) -/

/-- The page that holds the statistics of Peg. -/
def pegPage : Page := ⟨0x22, 0, 0, 0x70000⟩

theorem pageOf_peg {o : Nat} (ho : o < 4096) : pageOf (pPeg + o) = some pegPage := pageOf_congr (pageBase_add_div pPeg ho)

theorem pageOf_of_mem_pegLatches {off : Nat} (h : off ∈ pegLatches) : pageOf off = some pegPage := by
  revert off; decide

theorem aligned_of_mem_pegLatches {off : Nat} (h : off ∈ pegLatches) : off % 4 = 0 := by
  revert off; decide

theorem State.viewPage_pegSseLo (s : State) (a : Agent) : s.viewPage a pegPage (pPeg + 0x118) = (s.pegSlot (s.pegSel a)).sse % 2 ^ 32 := rfl

/-- The registers behind SSE_LO show their latch where the agent has one. -/
theorem State.viewPage_pegLatch {s : State} {a : Agent} {off v : Nat} (h : off ∈ pegLatches) (hv : s.latchOf a off = some v) :
    s.viewPage a pegPage off = v := by
  have shown : ∃ now, s.viewPage a pegPage off = (s.latchOf a off).getD now := by
    simp only [pegLatches, List.mem_cons, List.not_mem_nil, or_false] at h
    obtain rfl | rfl | rfl | rfl := h <;> exact ⟨_, rfl⟩
  obtain ⟨now, hnow⟩ := shown
  rw [hnow, hv, Option.getD_some]

theorem State.latchRead_of_mem_pegLatches {off : Nat} (s : State) (a : Agent) (h : off ∈ pegLatches) : s.latchRead a pegPage off = s := by
  simp only [pegLatches, List.mem_cons, List.not_mem_nil, or_false] at h
  obtain rfl | rfl | rfl | rfl := h <;> rfl

@[simp] theorem State.restartRc_pegPage (s : State) (a : Agent) (off : Nat) : s.restartRc a pegPage off = s := rfl

/-- A read of SSE_LO latches the four registers behind it and sets nothing else. -/
theorem State.latchRead_pegSseLo (s : State) (a : Agent) :
    let x := s.pegSlot (s.pegSel a)
    let t := s.latchRead a pegPage (pPeg + 0x118)
    t = { s with reg := { s.reg with latch := t.reg.latch } } ∧
      t.latchOf a (pPeg + 0x11C) = some (x.sse / 2 ^ 32 % 2 ^ 32) ∧ t.latchOf a (pPeg + 0x120) = some (x.cnt % 2 ^ 32) ∧
      t.latchOf a (pPeg + 0x124) = some (x.cnt / 2 ^ 32 % 2 ^ 32) ∧ t.latchOf a (pPeg + 0x128) = some (x.sat % 2 ^ 32) ∧
      ∀ b off, agentIdx b ≠ agentIdx a → off < 2 ^ 26 → t.latchOf b off = s.latchOf b off := by
  intro x t
  have ht : t = (((s.setLatch a (pPeg + 0x11C) (x.sse / 2 ^ 32)).setLatch a (pPeg + 0x120) (x.cnt % 2 ^ 32)).setLatch a (pPeg + 0x124)
    (x.cnt / 2 ^ 32)).setLatch a (pPeg + 0x128) x.sat := rfl
  have below : ∀ off ∈ pegLatches, off < 2 ^ 26 := by decide
  have apart : pegLatches.Pairwise (· ≠ ·) := by decide
  simp only [pegLatches, List.forall_mem_cons] at below
  obtain ⟨h1, h2, h3, h4, -⟩ := below
  simp only [pegLatches, List.pairwise_cons, List.forall_mem_cons] at apart
  obtain ⟨⟨h12, h13, h14, -⟩, ⟨h23, h24, -⟩, ⟨h34, -⟩, -⟩ := apart
  refine ⟨rfl, ?_, ?_, ?_, ?_, ?_⟩
  · rw [ht, State.latchOf_setLatch_ne _ _ _ h14, State.latchOf_setLatch_ne _ _ _ h13, State.latchOf_setLatch_ne _ _ _ h12, State.latchOf_setLatch_same]
  · rw [ht, State.latchOf_setLatch_ne _ _ _ h24, State.latchOf_setLatch_ne _ _ _ h23, State.latchOf_setLatch_same, Nat.mod_mod]
  · rw [ht, State.latchOf_setLatch_ne _ _ _ h34, State.latchOf_setLatch_same]
  · rw [ht, State.latchOf_setLatch_same]
  · intro b off hb hoff
    rw [ht, State.latchOf_setLatch_other _ _ h4 hoff hb, State.latchOf_setLatch_other _ _ h3 hoff hb, State.latchOf_setLatch_other _ _ h2 hoff hb,
      State.latchOf_setLatch_other _ _ h1 hoff hb]

theorem State.writePegSel_latchOf {off : Nat} (s : State) (a : Agent) (v : Nat) (h : off ∈ pegLatches) : (s.writePegSel a v).latchOf a off = none := by
  have hlatch : (s.writePegSel a v).reg.latch = (pegLatches.map fun o => regKey o (agentIdx a)).foldl tdel s.reg.latch := rfl
  rw [State.latchOf, hlatch, tget_foldl_tdel (List.mem_map_of_mem h), Option.map_none]

theorem State.writePegSel_selOf (s : State) (a : Agent) (v : Nat) : (s.writePegSel a v).selOf a (pPeg + 0x110) = v % 64 := by
  have hsel : (s.writePegSel a v).selOf a (pPeg + 0x110) = (s.setSel a (pPeg + 0x110) (v % 64)).selOf a (pPeg + 0x110) := rfl
  rw [hsel, State.selOf_setSel_same]
  omega

theorem exec_pegStatSseLoRead {s : State} {a : Agent} (h : s.reaches a (pPeg + 0x118) = true) :
    exec (.pegStatSseLoRead a) s =
      .next ((s.latchRead a pegPage (pPeg + 0x118)).giveRead a (pPeg + 0x118) (leBytes 4 ((s.pegSlot (s.pegSel a)).sse % 2 ^ 32))) := by
  have hg : pageOf (pPeg + 0x118) = some pegPage := pageOf_peg (by decide)
  have ha := not_vf_of_reaches h hg (by decide)
  simp only [exec, execPegStatSseLoRead, h, if_true, State.readOne_of_not_vf ha h rfl hg, State.restartRc_pegPage, State.viewPage_pegSseLo]

theorem exec_rcFieldRead_pegLatch {s : State} {a : Agent} {off v : Nat} (hoff : off ∈ pegLatches) (h : s.reaches a off = true) (hv : s.latchOf a off = some v) :
    exec (.rcFieldRead a off) s = .next (s.giveRead a off (leBytes 4 v)) := by
  have hg := pageOf_of_mem_pegLatches hoff
  have halign := aligned_of_mem_pegLatches hoff
  have ha := not_vf_of_reaches h hg (by decide)
  simp [exec, execRcFieldRead, barOff_of_not_vf ha, h, halign, State.readOne_of_not_vf ha h halign hg, State.latchRead_of_mem_pegLatches s a hoff,
    State.viewPage_pegLatch hoff hv]

theorem exec_pegStatSelWrite {s : State} {a : Agent} (h : s.reaches a (pPeg + 0x110) = true) (v : Nat) :
    exec (.pegStatSelWrite a v) s = .next (s.writePegSel a v) := by
  have hg : pageOf (pPeg + 0x110) = some pegPage := pageOf_peg (by decide)
  have ha := not_vf_of_reaches h hg (by decide)
  simp only [exec, execPegStatSelWrite, State.regWrite_of_not_vf ha h hg rfl]
  rfl

/-- Settles O48: the read sets the four latches of its agent from the slot, the reads behind it show the latch, and the write of the selector drops all four. -/
theorem pegStatReadsLatchTheSlot : Obligations.PegStatReadsLatchTheSlot := by
  unfold Obligations.PegStatReadsLatchTheSlot
  intro a s h
  have ha := not_vf_of_reaches h (pageOf_peg (by decide)) (by decide)
  have hsel : s.reaches a (pPeg + 0x110) = true := (State.reaches_congr_page ha rfl).trans h
  refine ⟨⟨_, exec_pegStatSseLoRead h, State.latchRead_pegSseLo s a⟩, fun off hoff u v hu hv => exec_rcFieldRead_pegLatch hoff hu hv, fun v => ?_⟩
  exact ⟨_, exec_pegStatSelWrite hsel v, fun off hoff => State.writePegSel_latchOf s a v hoff, State.writePegSel_selOf s a v, rfl, rfl⟩

end Sys2Proof.Machine
end

section
/-! SUPPORT. What a report leaves alone: raising an ERR bit sets it, and counts only its log entry and its messages (spec 16 R483, R495, R496). -/

namespace Sys2Proof.Machine

/-! ## Bits -/

theorem bitOf_eq_testBit (w i : Nat) : bitOf w i = w.testBit i := by
  rw [bitOf, Nat.testBit_eq_decide_div_mod_eq, Nat.shiftRight_eq_div_pow, Bool.eq_iff_iff, beq_iff_eq, decide_eq_true_iff]

theorem bitOf_setBit_true (w i : Nat) : bitOf (setBit w i true) i = true := by
  have hlow : w % 2 ^ i < 2 ^ i := Nat.mod_lt _ (Nat.two_pow_pos i)
  have hhigh : w >>> (i + 1) * 2 ^ (i + 1) = 2 ^ i * (2 * (w >>> (i + 1))) := by
    rw [Nat.pow_succ, Nat.mul_comm, Nat.mul_assoc]
  have hone : 1 % 2 ^ (0 + 1) * 2 ^ i = 2 ^ i * 1 := Nat.mul_comm _ _
  have hword : setBit w i true = 2 ^ i * (2 * (w >>> (i + 1)) + 1) + w % 2 ^ i := by
    simp only [setBit, setFld, if_true, Nat.sub_self, Nat.shiftLeft_eq]
    rw [hhigh, hone, ← Nat.mul_add]
  rw [hword, bitOf, Nat.shiftRight_eq_div_pow, Nat.mul_add_div (Nat.two_pow_pos i), Nat.div_eq_of_lt hlow, Nat.add_zero, Nat.mul_add_mod_self_left]
  rfl

theorem bitOf_mod_two_pow (w : Nat) {i n : Nat} (h : i < n) : bitOf (w % 2 ^ n) i = bitOf w i := by
  simp [bitOf_eq_testBit, Nat.testBit_mod_two_pow, h]

/-! ## What a report counts -/

/-- Counters of what is reported: folded and written log entries, MSI-X messages of each port. -/
def reportCounters : List Nat := [0x048, pTel + 0x040, pHif .pa + 0x050, pHif .pb + 0x050]

theorem State.counter_bump_of_report {o i : Nat} (s : State) (n : Nat) (ho : o ∈ reportCounters) (hi : i ∉ reportCounters) :
    (s.bump o n).counter i = s.counter i :=
  State.counter_bump_ne s o n i fun e => hi (e ▸ ho)

theorem State.counter_congr {s t : State} (h : t.reg = s.reg) (i : Nat) : t.counter i = s.counter i := by
  simp only [State.counter, h]

theorem State.counter_sendMsix {i : Nat} (s : State) (p : Port) (fn v : Nat) (hi : i ∉ reportCounters) : (s.sendMsix p fn v).counter i = s.counter i := by
  unfold State.sendMsix
  dsimp only
  split
  · rfl
  · split
    · exact State.counter_congr (State.modPort_reg s p _) i
    · rw [State.counter_bump_of_report _ _ (by cases p <;> decide) hi]
      exact State.counter_congr (State.emit_reg s p _) i

theorem State.w_sendMsix (s : State) (p : Port) (fn v : Nat) : (s.sendMsix p fn v).reg.w = s.reg.w := by
  unfold State.sendMsix
  dsimp only
  split
  · rfl
  · split
    · rw [State.modPort_reg]
    · show (s.emit p _).reg.w = s.reg.w
      rw [State.emit_reg]

/-- A summary message is sent by each port, or by one, or by none: what `sendMsix` keeps it keeps. -/
theorem State.summaryMsg_keeps_of_sendMsix {P : State → Prop} (hP : ∀ (t : State) (p : Port) (v : Nat), P t → P (t.sendMsix p 0 v)) {s : State} (h : P s) :
    P s.summaryMsg := by
  have one : ∀ (t : State) (p : Port) (c : Bool) (v : Nat), P t → P (if c then t.sendMsix p 0 v else t) := by
    intro t p c v ht
    split
    · exact hP t p v ht
    · exact ht
  unfold State.summaryMsg
  dsimp only
  split
  · exact h
  · exact one _ .pb _ _ (one s .pa _ _ h)

theorem State.withSum_keeps_of_summaryMsg {P : State → Prop} (hP : ∀ t : State, P t → P t.summaryMsg) {s : State} (i : Nat) {f : State → State} (h : P (f s)) :
    P (s.withSum i f) := by
  unfold State.withSum
  dsimp only
  split
  · exact hP _ h
  · exact h

theorem State.counter_withSum {i : Nat} (s : State) (b : Nat) (f : State → State) (hi : i ∉ reportCounters) :
    (s.withSum b f).counter i = (f s).counter i :=
  State.withSum_keeps_of_summaryMsg (P := fun t => t.counter i = (f s).counter i)
    (fun _ => State.summaryMsg_keeps_of_sendMsix fun t p v ht => (State.counter_sendMsix t p 0 v hi).trans ht) b rfl

theorem State.w_withSum (s : State) (b : Nat) (f : State → State) : (s.withSum b f).reg.w = (f s).reg.w :=
  State.withSum_keeps_of_summaryMsg (P := fun t => t.reg.w = (f s).reg.w)
    (fun _ => State.summaryMsg_keeps_of_sendMsix fun t p v ht => (State.w_sendMsix t p 0 v).trans ht) b rfl

theorem State.reg32_withSum (s : State) (b : Nat) (f : State → State) (o : Nat) : (s.withSum b f).reg32 o = (f s).reg32 o := by
  simp only [State.reg32, State.w_withSum]

/-- An occurrence is folded into an entry and counted, or takes a new one, or its page does not exist. -/
theorem State.logEvent_cases (s : State) (base code sev : Nat) (at' : Attr) (d0 d1 : Nat) :
    s.logEvent base code sev at' d0 d1 = s ∨ (∃ l, s.logEvent base code sev at' d0 d1 = State.bump { s with reg := { s.reg with log := l } } 0x048 1) ∨
      ∃ pg part ctx d0' d1', s.logEvent base code sev at' d0 d1 = State.logEvent.new base code sev s pg part ctx d0' d1' := by
  unfold State.logEvent
  split
  · exact .inl rfl
  · cases at'.part <;> dsimp only
    all_goals
      split
      · exact (Classical.em _).elim (fun h => .inr (.inl ⟨_, if_pos h⟩)) fun h => .inr (.inr ⟨_, _, _, _, _, if_neg h⟩)
      · exact .inr (.inr ⟨_, _, _, _, _, rfl⟩)

theorem State.counter_logEvent {i : Nat} (s : State) (base code sev : Nat) (at' : Attr) (d0 d1 : Nat) (hi : i ∉ reportCounters) :
    (s.logEvent base code sev at' d0 d1).counter i = s.counter i := by
  obtain h | ⟨l, h⟩ | ⟨pg, part, ctx, d0', d1', h⟩ := s.logEvent_cases base code sev at' d0 d1 <;> rw [h]
  · exact State.counter_bump_of_report _ _ (by decide) hi
  · exact State.counter_bump_of_report _ _ (by decide) hi

theorem State.reg32_logEvent {o : Nat} (s : State) (base code sev : Nat) (at' : Attr) (d0 d1 : Nat) (ho : o ≠ base + 0x028) :
    (s.logEvent base code sev at' d0 d1).reg32 o = s.reg32 o := by
  obtain h | ⟨l, h⟩ | ⟨pg, part, ctx, d0', d1', h⟩ := s.logEvent_cases base code sev at' d0 d1 <;> rw [h]
  · rfl
  · exact State.reg32_setReg32_ne _ _ _ _ ho

theorem State.counter_raiseAt {i : Nat} (s : State) (base bit : Nat) (at' : Attr) (hi : i ∉ reportCounters) :
    (s.raiseAt base bit at').counter i = s.counter i := by
  cases hg : pageOf base with
  | none => simp only [State.raiseAt, hg]
  | some g =>
    simp only [State.raiseAt, hg, State.counter_withSum _ _ _ hi, apply_ite (fun t : State => t.counter i),
      State.counter_logEvent _ _ _ _ _ _ _ hi, State.counter_setReg32, ite_self]

/-- The condition of an ERR bit sets it (16 R483). -/
theorem State.bitOf_err_raiseAt {base bit : Nat} {g : Page} (s : State) (at' : Attr) (hg : pageOf base = some g) (hbit : bit < 32) :
    bitOf ((s.raiseAt base bit at').reg32 (base + 0x018)) bit = true := by
  have ho : base + 0x018 ≠ base + 0x028 := by omega
  simp only [State.raiseAt, hg, State.reg32_withSum, apply_ite (fun t : State => t.reg32 (base + 0x018)), State.reg32_logEvent _ _ _ _ _ _ _ ho,
    State.reg32_setReg32_same, ite_self, bitOf_mod_two_pow _ hbit, bitOf_setBit_true]

/-- An access that R489 does not take is counted and sets GLB_ERR.ACCESS; beyond that only what reports it changes. -/
theorem State.badAccess_counts (s : State) :
    s.badAccess = { s with reg := s.badAccess.reg, pa := s.badAccess.pa, pb := s.badAccess.pb } ∧
      s.badAccess.counter 0x040 = (s.counter 0x040 + 1) % 2 ^ 64 ∧ bitOf (s.badAccess.reg32 0x018) 0 = true := by
  refine ⟨?_, ?_, ?_⟩
  · obtain ⟨r, x, y, h⟩ := (bump_reports s 0x040 1).trans (raise_reports (s.bump 0x040 1) 0 0)
    rw [State.badAccess, h]
  · rw [State.badAccess, State.raise, State.counter_raiseAt _ _ _ _ (by decide), State.counter_bump_same]
  · exact State.bitOf_err_raiseAt (base := 0) (bit := 0) _ noAttr (g := glbPage) (by decide) (by decide)

end Sys2Proof.Machine
end

section
/-! SUPPORT. Register writes by an agent that sees the whole map (spec 16 R478, R482 to R490, R501, 14 R453, 02 R65). -/

namespace Sys2Proof.Machine

/-! ## The common header -/

theorem State.writeHeader_readOnly {o : Nat} (s : State) (g : Page) (v : Nat) (h : o ∈ [0x000, 0x004, 0x008, 0x00C, 0x014, 0x024, 0x028]) :
    s.writeHeader g o v = s := by
  simp only [List.mem_cons, List.not_mem_nil, or_false] at h
  obtain rfl | rfl | rfl | rfl | rfl | rfl | rfl := h <;> rfl

/-- What clearing keeps of a word fits in 32 bits. -/
theorem and_keep_mod (w m : Nat) : (w &&& (0xFFFFFFFF - m)) % 2 ^ 32 = w &&& (0xFFFFFFFF - m) :=
  Nat.mod_eq_of_lt (Nat.and_lt_two_pow _ (by omega))

theorem State.reg32_clearErr_err (s : State) (base m : Nat) :
    (s.clearErr base m).reg32 (base + 0x018) = s.reg32 (base + 0x018) &&& (0xFFFFFFFF - m % 2 ^ 32) := by
  rw [State.clearErr, State.reg32_setReg32_ne _ _ _ _ (by omega), State.reg32_setReg32_same, and_keep_mod]

theorem State.reg32_clearErr_repeat (s : State) (base m : Nat) :
    (s.clearErr base m).reg32 (base + 0x024) = s.reg32 (base + 0x024) &&& (0xFFFFFFFF - m % 2 ^ 32) := by
  rw [State.clearErr, State.reg32_setReg32_same, and_keep_mod]

theorem State.reg32_clearErr_ne {base o : Nat} (s : State) (m : Nat) (h1 : o ≠ base + 0x018) (h2 : o ≠ base + 0x024) :
    (s.clearErr base m).reg32 o = s.reg32 o := by
  rw [State.clearErr, State.reg32_setReg32_ne _ _ _ _ h2, State.reg32_setReg32_ne _ _ _ _ h1]

theorem State.writeInj_of_locked {s : State} (h : s.devLocked = true) (g : Page) (v : Nat) : s.writeInj g v = s := by
  simp [State.writeInj, h]

/-- Pages other than PWR and the links arm a fault and wait for its event. -/
theorem State.writeInj_of_unlocked {s : State} {g : Page} (h : s.devLocked = false) (hpwr : g.ty ≠ 0x02) (hlink : g.ty ≠ 0x32) (v : Nat) :
    s.writeInj g v = s.setReg32 (g.base + 0x020) (s.reg32 (g.base + 0x020) ||| (v &&& g.injMask)) := by
  simp [State.writeInj, h, hpwr, hlink]

section
variable {s : State} {a : Agent} {off : Nat} {g : Page} (ha : a = .mgmt ∨ ∃ p, a = .host p 0) (hr : s.reaches a off = true) (hg : pageOf off = some g)
include ha hr hg

theorem exec_registerWrite_readOnly (h : off % 4096 ∈ [0x000, 0x004, 0x008, 0x00C, 0x014, 0x024, 0x028]) (v : Nat) :
    exec (.registerWrite a off v) s = .next s := by
  have header : ∀ o ∈ [0x000, 0x004, 0x008, 0x00C, 0x014, 0x024, 0x028], o < 0x100 ∧ o % 4 = 0 := by decide
  obtain ⟨hlt, halign⟩ := header _ h
  have halign' : off % 4 = 0 := by omega
  simp only [exec, execRegisterWrite, State.regWrite_of_not_vf ha hr hg halign', hlt, if_true, State.writeHeader_readOnly s g v h]

theorem exec_errClear (v : Nat) : exec (.errClear a off v) s = .next (s.clearErr g.base v) := by
  simp only [exec, execErrClear, State.headerWrite_of_not_vf ha hr hg (o := 0x018) (by decide) rfl, State.writeHeader]

theorem exec_errInjWrite (v : Nat) : exec (.errInjWrite a off v) s = .next (s.writeInj g v) := by
  simp only [exec, execErrInjWrite, State.headerWrite_of_not_vf ha hr hg (o := 0x020) (by decide) rfl, State.writeHeader]

end

/-! ## An event is selected (16 R501) -/

theorem exec_glbEvtSelWrite {s : State} {a : Agent} (h : s.reaches a 0x144 = true) (v : Nat) :
    exec (.glbEvtSelWrite a v) s = .next (s.copyEvent a (v % 2 ^ 32)) := by
  have hg : pageOf 0x144 = some glbPage := by decide
  have ha := not_vf_of_reaches h hg (by decide)
  simp only [exec, execGlbEvtSelWrite, State.regWrite_of_not_vf ha h hg rfl]
  rfl

theorem State.copy_copyEvent (s : State) (a : Agent) (seq : Nat) : tget (s.copyEvent a seq).reg.copy (agentIdx a) = some (s.eventAt seq) :=
  tget_tset_same _ _ _

theorem State.selOf_copyEvent (s : State) (a : Agent) (seq : Nat) : (s.copyEvent a seq).selOf a 0x144 = seq % 2 ^ 32 :=
  State.selOf_setSel_same s a 0x144 seq

/-! ## A statistics slot is bound (02 R65, 14 R453) -/

theorem exec_pegStatBindWrite {s : State} {a : Agent} (h : s.reaches a (pPeg + 0x114) = true) (v : Nat) :
    exec (.pegStatBindWrite a v) s = .next (s.writePegBind a v) := by
  have hg : pageOf (pPeg + 0x114) = some pegPage := pageOf_peg (by decide)
  have ha := not_vf_of_reaches h hg (by decide)
  simp only [exec, execPegStatBindWrite, State.regWrite_of_not_vf ha h hg rfl]
  rfl

/-- A write to a locked slot that does not clear it is dropped and counted. -/
theorem State.writePegBind_of_locked {s : State} {a : Agent} {v : Nat} (h : s.pegLocked (s.pegSlot (s.pegSel a)).bind = true) (hv : bitOf v 30 = false) :
    s.writePegBind a v = { s.rwlDrop with peg := tset s.peg (s.pegSel a) (s.pegSlot (s.pegSel a)) } := by
  simp only [State.writePegBind, h, hv, Bool.true_or, if_true, Bool.false_eq_true, if_false]
  rfl

theorem State.writePegBind_of_unlocked {s : State} {a : Agent} {v : Nat} (h : s.pegLocked (s.pegSlot (s.pegSel a)).bind = false)
    (hv : s.pegLocked (v &&& 0xBF000FFF) = false) :
    s.writePegBind a v =
      { s with
        peg := tset s.peg (s.pegSel a)
          (if bitOf v 30 then { PegSlot.reset with bind := v &&& 0xBF000FFF } else { s.pegSlot (s.pegSel a) with bind := v &&& 0xBF000FFF }) } := by
  simp only [State.writePegBind, h, hv, Bool.or_self, Bool.false_eq_true, if_false]

/-! ## A plain register (16 R487, R488) -/

/-- The page that holds the registers of GWE. -/
def gwePage : Page := ⟨0x23, 0, 0, 0x80000⟩

theorem pageOf_gwe {o : Nat} (ho : o < 4096) : pageOf (pGwe + o) = some gwePage := pageOf_congr (pageBase_add_div pGwe ho)

/-- A register of plain RW fields takes a write whether or not the device is locked. -/
theorem State.writeStored_of_rw {s : State} {g : Page} {off rw x : Nat} (h : storedReg g off = some (rw, 0, x)) (v : Nat) :
    s.writeStored g off v = s.setReg32 off (stored g (off % 4096) rw (s.reg32 off) v) := by
  simp [State.writeStored, h]

theorem exec_registerWrite_gwe {s : State} {a : Agent} {o rw x : Nat} (hr : s.reaches a (pGwe + o) = true) (hlo : 0x100 ≤ o) (hhi : o < 0x110)
    (halign : o % 4 = 0) (hst : storedReg gwePage (pGwe + o) = some (rw, 0, x)) (v : Nat) :
    exec (.registerWrite a (pGwe + o) v) s = .next (s.setReg32 (pGwe + o) (stored gwePage o rw (s.reg32 (pGwe + o)) v)) := by
  have ho : o < 4096 := by omega
  have hg := pageOf_gwe ho
  have ha := not_vf_of_reaches hr hg (by decide)
  have hmod : (pGwe + o) % 4096 = o := pageBase_add_mod pGwe ho
  have hsel : (selectors.contains (gwePage.ty, o) && gwePage.kind != 1) = false := by
    have : o ≠ 0x110 := by omega
    simp [selectors, gwePage, this]
  have hblock : s.writeBlock a gwePage (pGwe + o) v = s.writeStored gwePage (pGwe + o) v := rfl
  rw [exec, execRegisterWrite, State.regWrite_of_not_vf ha hr hg (pageBase_add_aligned pGwe halign), hmod, hsel, if_neg (by omega), if_neg Bool.false_ne_true,
    hblock, State.writeStored_of_rw hst, hmod]

/-! ## Accesses that are not taken (16 R489) -/

theorem exec_badAccess_of_ok {write : Bool} {off size : Nat} (h : accessOk write off size = true) (a : Agent) (s : State) :
    exec (.badAccess a write off size) s = .next s := by
  simp only [exec, execBadAccess, h, if_true]

theorem exec_badAccess_of_not_ok {write : Bool} {off size : Nat} (h : accessOk write off size = false) (a : Agent) (s : State) :
    exec (.badAccess a write off size) s = .next (if write then s.badAccess else s.badAccess.giveRead a off (zeros size)) := by
  simp only [exec, execBadAccess, h, Bool.false_eq_true, if_false]

/-! ## Writes act on their field -/

/-- A page that does not answer ignores the write of a register, of ERR and of ERR_INJ. -/
theorem exec_writes_of_not_reaches {s : State} {a : Agent} {off : Nat} (h : s.reaches a off = false) (hb : barOff a off = off) (v : Nat) :
    exec (.registerWrite a off v) s = .next s ∧ (pageBase off + 0x018 = off → exec (.errClear a off v) s = .next s) ∧
      (pageBase off + 0x020 = off → exec (.errInjWrite a off v) s = .next s) := by
  have hw := State.regWrite_of_not_reaches v hb h
  refine ⟨?_, fun ho => ?_, fun ho => ?_⟩
  · rw [exec, execRegisterWrite, hw]
  · rw [exec, execErrClear, State.headerWrite, ho, hw]
  · rw [exec, execErrInjWrite, State.headerWrite, ho, hw]

/-- Settles O50: each write is one update of the register map, of the selected slot or of the agent's copy, and the reading rules of these say the rest. -/
theorem writesActOnTheirField : Obligations.WritesActOnTheirField := by
  unfold Obligations.WritesActOnTheirField
  refine ⟨fun a off v s h hb => exec_writes_of_not_reaches h hb v,
    fun a off v g s ha hr hg => ⟨fun h => exec_registerWrite_readOnly ha hr hg h v, ⟨_, exec_errClear ha hr hg v, rfl, ?_⟩, fun hlock => ?_, fun hlock hpwr hlink _ => ?_⟩,
    fun a v s _ => ⟨fun h => ?_, fun h => ⟨fun hlock hv => ?_, fun hlock hlock' => ?_⟩, fun o g hr hlo hhi halign hg rw x hst => ?_⟩,
    fun a write off size s => ⟨fun h => exec_badAccess_of_ok h a s, fun h => ?_⟩⟩
  · exact ⟨s.reg32_clearErr_err g.base v, s.reg32_clearErr_repeat g.base v, fun o h1 h2 => s.reg32_clearErr_ne v h1 h2⟩
  · rw [exec_errInjWrite ha hr hg, State.writeInj_of_locked hlock]
  · rw [exec_errInjWrite ha hr hg, State.writeInj_of_unlocked hlock hpwr hlink]
    exact ⟨_, rfl, rfl, State.reg32_setReg32_same _ _ _, fun o ho => State.reg32_setReg32_ne _ _ _ _ ho⟩
  · refine ⟨_, exec_glbEvtSelWrite h v, s.copy_copyEvent a _, ?_, rfl, rfl, rfl⟩
    rw [State.selOf_copyEvent, Nat.mod_mod]
  · rw [exec_pegStatBindWrite h, State.writePegBind_of_locked hlock hv]
    exact ⟨_, rfl, tgetD_tset_same _ _ _ _, State.counter_bump_same _ _ _⟩
  · rw [exec_pegStatBindWrite h, State.writePegBind_of_unlocked hlock hlock']
    exact ⟨_, rfl, rfl, tgetD_tset_same _ _ _ _, fun n hn => tgetD_tset_ne _ _ _ _ _ hn⟩
  · obtain rfl : gwePage = g := Option.some.inj ((pageOf_gwe (by omega)).symm.trans hg)
    exact ⟨_, exec_registerWrite_gwe hr hlo hhi halign hst v, State.reg32_setReg32_same _ _ _, fun off hoff => State.reg32_setReg32_ne _ _ _ _ hoff, rfl⟩
  · obtain ⟨hframe, hcount, hbit⟩ := s.badAccess_counts
    exact ⟨_, hframe, hcount, hbit, exec_badAccess_of_not_ok h a s⟩

end Sys2Proof.Machine
end

section
/-! SUPPORT. HBM after a write: what reads back, which columns carry the tag, and what a write leaves alone (spec 03 R72, R93). -/

namespace Sys2Proof.Machine

/-! ## Runs of bytes -/

@[simp] theorem length_memRead (m : List Host.Cell) (n : Nat) : ∀ a, (memRead m a n).length = n := by
  induction n with
  | zero => intro a; rfl
  | succ n ih => intro a; rw [memRead, List.length_cons, ih]

theorem getElem_memRead (m : List Host.Cell) (n : Nat) : ∀ (a j : Nat) (h : j < (memRead m a n).length), (memRead m a n)[j] = memGet m (a + j) := by
  induction n with
  | zero => intro a j h; exact absurd h (Nat.not_lt_zero j)
  | succ n ih =>
    intro a j h
    cases j with
    | zero => rfl
    | succ j => simp only [memRead, List.getElem_cons_succ, ih, Nat.add_assoc, Nat.add_comm 1 j]

theorem memGet_memWrite_outside (l : List Byte) : ∀ {m : List Host.Cell} {a i : Nat}, memWf m = true → i < a ∨ a + l.length ≤ i →
    memGet (memWrite m a l) i = memGet m i := by
  induction l with
  | nil => intro m a i _ _; rfl
  | cons b r ih =>
    intro m a i hm hi
    rw [List.length_cons] at hi
    rw [memWrite, ih (memWf_memSet a b hm) (by omega), memGet_memSet_ne a i b hm (by omega)]

theorem memGet_memWrite_inside (l : List Byte) : ∀ {m : List Host.Cell} {a j : Nat}, memWf m = true → (h : j < l.length) →
    memGet (memWrite m a l) (a + j) = l[j] := by
  induction l with
  | nil => intro m a j _ h; exact absurd h (Nat.not_lt_zero j)
  | cons b r ih =>
    intro m a j hm h
    have hm' := memWf_memSet a b hm
    cases j with
    | zero => rw [memWrite, memGet_memWrite_outside r hm' (by omega), Nat.add_zero, memGet_memSet_same a b hm, List.getElem_cons_zero]
    | succ j =>
      rw [List.length_cons] at h
      have hj : a + (j + 1) = a + 1 + j := by omega
      rw [memWrite, hj, ih hm' (by omega), List.getElem_cons_succ]

theorem memRead_memWrite_same {m : List Host.Cell} (hm : memWf m = true) (a : Nat) (l : List Byte) : memRead (memWrite m a l) a l.length = l :=
  List.ext_getElem (length_memRead _ _ _) fun j hj hl => by rw [getElem_memRead, memGet_memWrite_inside l hm hl]

@[simp] theorem length_slice (l : List Byte) (o n : Nat) : (slice l o n).length = n := by
  simp only [slice, zeros, List.length_append, List.length_replicate, List.length_take]
  omega

/-- Every byte has a domain and an offset in it (03 R72). -/
theorem linOf_div_mod (a : Nat) : linOf (a / fretBytes) (a % fretBytes) = a := Nat.div_add_mod' a fretBytes

/-! ## WRITER tags -/

theorem tget_tagCols_of_lt (tag n : Nat) : ∀ {w : Tab Nat} {first k : Nat}, k < first → tget (tagCols w first tag n) k = tget w k := by
  induction n with
  | zero => intro w first k _; rfl
  | succ n ih => intro w first k h; rw [tagCols, ih (by omega), tget_tset_ne _ _ _ _ (by omega)]

theorem tget_tagCols_first (w : Tab Nat) (first tag n : Nat) : tget (tagCols w first tag (n + 1)) first = some tag := by
  rw [tagCols, tget_tagCols_of_lt _ _ (Nat.lt_succ_self first), tget_tset_same]

/-! ## hbmWrite -/

@[simp] theorem State.hbmWrite_reg (s : State) (f o tag : Nat) (d : List Byte) : (s.hbmWrite f o tag d).reg = s.reg := by
  unfold State.hbmWrite; split <;> rfl
@[simp] theorem State.hbmWrite_cmds (s : State) (f o tag : Nat) (d : List Byte) : (s.hbmWrite f o tag d).cmds = s.cmds := by
  unfold State.hbmWrite; split <;> rfl
@[simp] theorem State.hbmWrite_frets (s : State) (f o tag : Nat) (d : List Byte) : (s.hbmWrite f o tag d).frets = s.frets := by
  unfold State.hbmWrite; split <;> rfl
@[simp] theorem State.hbmWrite_regions (s : State) (f o tag : Nat) (d : List Byte) : (s.hbmWrite f o tag d).regions = s.regions := by
  unfold State.hbmWrite; split <;> rfl
@[simp] theorem State.hbmWrite_shards (s : State) (f o tag : Nat) (d : List Byte) : (s.hbmWrite f o tag d).shards = s.shards := by
  unfold State.hbmWrite; split <;> rfl
@[simp] theorem State.hbmWrite_overlays (s : State) (f o tag : Nat) (d : List Byte) : (s.hbmWrite f o tag d).hbm.overlays = s.hbm.overlays := by
  unfold State.hbmWrite; split <;> rfl
@[simp] theorem State.hbmWrite_deadDies (s : State) (f o tag : Nat) (d : List Byte) : (s.hbmWrite f o tag d).hbm.deadDies = s.hbm.deadDies := by
  unfold State.hbmWrite; split <;> rfl

@[simp] theorem State.hbmWrite_cells (s : State) (f o tag : Nat) (d : List Byte) :
    (s.hbmWrite f o tag d).hbm.cells = memWrite s.hbm.cells (linOf f o) d := by
  cases d <;> rfl

/-- A write at a column's start tags the column (03 R93). -/
theorem State.writerOf_hbmWrite (s : State) (f dca tag : Nat) {d : List Byte} (hd : d ≠ []) : (s.hbmWrite f (dca * 32) tag d).writerOf f dca = tag := by
  have hcol : dca * 32 / 32 = dca := Nat.mul_div_cancel _ (by omega)
  have hcount : (dca * 32 + d.length - 1) / 32 + 1 - dca = (dca * 32 + d.length - 1) / 32 - dca + 1 := by
    have := List.length_pos_iff.mpr hd
    omega
  have hne : d.isEmpty = false := List.isEmpty_eq_false_iff.mpr hd
  simp only [State.writerOf, State.hbmWrite, hne, Bool.false_eq_true, if_false, hcol, hcount, tget_tagCols_first, Option.getD_some]

end Sys2Proof.Machine
end

section
/-! SUPPORT. Frames that are performed: what the stack controllers ask of them, and the local state of several frets (spec 03 R75, R78, R79, R81, 13 R427). -/

namespace Sys2Proof.Machine

open Sys2Proof

/-! ## A report -/

theorem Reports.cmds {s t : State} (h : Reports s t) : t.cmds = s.cmds := by
  obtain ⟨r, a, b, rfl⟩ := h
  rfl

theorem Reports.free {s t : State} (h : Reports s t) : t.free = s.free := by
  obtain ⟨r, a, b, rfl⟩ := h
  rfl

theorem Reports.fret {s t : State} (h : Reports s t) (x : Nat) : t.fret x = s.fret x := by
  obtain ⟨r, a, b, rfl⟩ := h
  rfl

/-! ## No die is lost -/

/-- Where no further die is fenced nothing has to be restored (13 R427). -/
theorem State.afterFence_of_deadDies {s t : State} (h : t.hbm.deadDies = s.hbm.deadDies) : State.afterFence s t = t := by
  have hnew : t.hbm.deadDies.filter (fun d => !s.hbm.deadDies.contains d) = [] := by
    rw [h, List.filter_eq_nil_iff]
    intro d hd
    simpa using hd
  simp only [State.afterFence, hnew, List.isEmpty_nil, if_true]

theorem withFence_of_deadDies {s t : State} (h : t.hbm.deadDies = s.hbm.deadDies) : withFence s (.next t) = .next t := by
  rw [withFence, State.afterFence_of_deadDies h]

/-! ## A frame that runs at once -/

theorem State.serves_iff {s : State} {f : Frame} {op n : Nat} :
    s.serves f op n = true ↔ s.hbm.deadDies.contains f.dieKey = false ∧ s.frameWaits f n = false ∧ f.formed op = true := by
  simp only [State.serves, Bool.and_eq_true, Bool.not_eq_true', and_assoc]

section
variable {s : State} {f : Frame} {op n : Nat} (h : s.serves f op n = true) (i : Instr) (tags : TagRule) (ok : Bool) (go : Frame → State → State)
include h

theorem State.frame_of_serves (hok : ok = true) (htag : s.tagBad f tags = []) : s.frame i f op tags n ok go = .next (go f s) := by
  obtain ⟨hdead, hwait, hform⟩ := State.serves_iff.1 h
  simp only [State.frame, hdead, hwait, hform, hok, htag, Bool.false_eq_true, if_false, Bool.not_true, Bool.or_self, List.isEmpty_nil, if_true]

theorem State.frame_of_not_ok (hok : ok = false) : s.frame i f op tags n ok go = .next (s.refuseFrame f) := by
  obtain ⟨hdead, hwait, hform⟩ := State.serves_iff.1 h
  simp only [State.frame, hdead, hwait, hform, hok, Bool.false_eq_true, if_false, Bool.not_true, Bool.not_false, Bool.or_true, if_true]

end

theorem nodup_map_add (b : Nat) {l : List Nat} (h : l.Nodup) : (l.map (b + ·)).Nodup :=
  List.Pairwise.map _ (fun _ _ hne e => hne (Nat.add_left_cancel e)) h

theorem nodup_frets (f : Frame) : f.frets.Nodup := by
  unfold Frame.frets
  dsimp only
  split
  · exact List.pairwise_singleton _ _
  · exact nodup_map_add _ List.nodup_range
  · exact nodup_map_add _ (List.nodup_range.filter _)

/-! ## The local state of several frets -/

/-- Each fret of the list takes what `g` makes of its own state. -/
def State.modFrets (s : State) (l : List Nat) (g : Nat → Fret → Fret) : State := l.foldl (fun s x => s.setFret x (g x (s.fret x))) s

theorem State.fret_setFret_ne (s : State) {n m : Nat} (x : Fret) (h : m ≠ n) : (s.setFret n x).fret m = s.fret m := tgetD_tset_ne _ _ _ _ _ h

/-- Only the table of frets changes. -/
theorem State.modFrets_eq (l : List Nat) (g : Nat → Fret → Fret) : ∀ s : State, s.modFrets l g = { s with frets := (s.modFrets l g).frets } := by
  induction l with
  | nil => intro s; rfl
  | cons x r ih => intro s; exact ih (s.setFret x (g x (s.fret x)))

@[simp] theorem State.modFrets_hbm (s : State) (l : List Nat) (g : Nat → Fret → Fret) : (s.modFrets l g).hbm = s.hbm := by rw [State.modFrets_eq]
@[simp] theorem State.modFrets_free (s : State) (l : List Nat) (g : Nat → Fret → Fret) : (s.modFrets l g).free = s.free := by rw [State.modFrets_eq]
@[simp] theorem State.modFrets_cmds (s : State) (l : List Nat) (g : Nat → Fret → Fret) : (s.modFrets l g).cmds = s.cmds := by rw [State.modFrets_eq]
@[simp] theorem State.modFrets_ctxs (s : State) (l : List Nat) (g : Nat → Fret → Fret) : (s.modFrets l g).ctxs = s.ctxs := by rw [State.modFrets_eq]
@[simp] theorem State.modFrets_sbc (s : State) (l : List Nat) (g : Nat → Fret → Fret) : (s.modFrets l g).sbc = s.sbc := by rw [State.modFrets_eq]

theorem State.fret_modFrets_of_notMem {l : List Nat} (g : Nat → Fret → Fret) {x : Nat} (hx : x ∉ l) (s : State) : (s.modFrets l g).fret x = s.fret x := by
  induction l generalizing s with
  | nil => rfl
  | cons y r ih =>
    rw [List.mem_cons, not_or] at hx
    exact (ih hx.2 _).trans (s.fret_setFret_ne _ hx.1)

theorem State.fret_modFrets_of_mem {l : List Nat} (g : Nat → Fret → Fret) {x : Nat} (hl : l.Nodup) (hx : x ∈ l) (s : State) :
    (s.modFrets l g).fret x = g x (s.fret x) := by
  induction l generalizing s with
  | nil => exact absurd hx List.not_mem_nil
  | cons y r ih =>
    obtain ⟨hy, hr⟩ := List.nodup_cons.1 hl
    obtain rfl | hxr := List.mem_cons.1 hx
    · exact (State.fret_modFrets_of_notMem g hy _).trans (State.fret_setFret_same s x _)
    · have hne : x ≠ y := fun e => hy (e ▸ hxr)
      refine (ih hr hxr _).trans ?_
      rw [State.fret_setFret_ne s _ hne]

end Sys2Proof.Machine
end

section
/-! SUPPORT. Scoring frames: a strum and a pluck over rows that can be read (spec 03 R77, R80, R83, R89). -/

namespace Sys2Proof.Machine

open Sys2Proof

@[simp] theorem State.meetFlaws_nil (s : State) (f : Frame) (ns : List Nat) : s.meetFlaws f ns [] = s := rfl

/-- A frame that met no parity error and lost no row leaves its host command alone. -/
theorem State.afterRows_of_intact (s : State) (f : Frame) : s.afterRows f [] false = s := rfl

/-! ## Rows that can be read -/

theorem State.extRead_ne_lost {s : State} {x n : Nat} {e : Extent'} (h : s.extBad x e n = false) : s.extRead x e n ≠ .lost := by
  rw [State.extRead, h, if_neg Bool.false_ne_true]
  dsimp only
  split <;> exact RowRead.noConfusion

theorem lostRows_eq_zero {l : List (Nat × RowRead)} (h : ∀ y ∈ l, y.2 ≠ .lost) : lostRows l = 0 := by
  rw [lostRows, List.length_eq_zero_iff, List.filter_eq_nil_iff]
  intro y hy
  simpa using h y hy

theorem State.lostRows_extReads {s : State} {f : Frame} {x : Nat} (h : ∀ n, n < f.extent.rows → s.extBad x f.extent n = false) :
    lostRows (s.extReads f x) = 0 := by
  refine lostRows_eq_zero fun y hy => ?_
  obtain ⟨n, hn, rfl⟩ := List.mem_map.1 hy
  exact State.extRead_ne_lost (h n (List.mem_range.1 hn))

/-- The rows of a pluck that lie in its extent, as read. -/
def pluckGot (l : List (Nat × Option RowRead)) : List (Nat × RowRead) := l.filterMap fun y => y.2.map fun z => (y.1, z)

theorem State.lostRows_pluckGot {s : State} {f : Frame} {x : Nat} (h : ∀ n ∈ f.pluckRows, n < f.extent.rows → s.extBad x f.extent n = false) :
    lostRows (pluckGot (s.pluckReads f x)) = 0 := by
  refine lostRows_eq_zero fun z hz => ?_
  obtain ⟨y, hy, hyz⟩ := List.mem_filterMap.1 hz
  obtain ⟨n, hn, rfl⟩ := List.mem_map.1 hy
  by_cases hlt : n < f.extent.rows
  · simp only [hlt, if_true, Option.map_some, Option.some.injEq] at hyz
    subst hyz
    exact State.extRead_ne_lost (h n hn hlt)
  · simp [hlt] at hyz

/-! ## The two frames -/

/-- The state a strum leaves, before it counts its strokes. -/
def State.strummed (s : State) (f : Frame) : State :=
  let t := s.modFrets f.frets fun x fr => strumFret fr (2 ^ 40 + s.free) f x (s.extReads f x)
  { t with free := t.free + 1 }

@[simp] theorem State.strummed_hbm (s : State) (f : Frame) : (s.strummed f).hbm = s.hbm := s.modFrets_hbm _ _

theorem State.fret_strummed_of_mem (s : State) {f : Frame} {x : Nat} (hx : x ∈ f.frets) :
    (s.strummed f).fret x = strumFret (s.fret x) (2 ^ 40 + s.free) f x (s.extReads f x) :=
  State.fret_modFrets_of_mem _ (nodup_frets f) hx s

theorem State.fret_strummed_of_notMem (s : State) {f : Frame} {x : Nat} (hx : x ∉ f.frets) : (s.strummed f).fret x = s.fret x :=
  State.fret_modFrets_of_notMem _ hx s

/-- The state a pluck leaves, before it counts its strokes. -/
def State.plucked (s : State) (f : Frame) : State :=
  { s with
    free := s.free + 1
    sbc := s.sbc.putReads (f.stack % 12)
      (f.frets.map fun x => { seq := f.seq, chan := chanOf x, data := pluckFret (s.fret x) (2 ^ 40 + s.free) f x (s.pluckReads f x) }) }

theorem State.plucked_sbc (s : State) (f : Frame) :
    (s.plucked f).sbc = s.sbc.putReads (f.stack % 12)
      (f.frets.map fun x => { seq := f.seq, chan := chanOf x, data := pluckFret (s.fret x) (2 ^ 40 + s.free) f x (s.pluckReads f x) }) := by
  rw [State.plucked]

theorem exec_strum {s : State} {f : Frame} (hserves : s.serves f 0x10 0 = true) (hfits : f.extent.fits = true)
    (hlen : f.g 6 27 26 = 0 → 1 ≤ f.g 7 22 16 ∧ f.g 7 22 16 ≤ 64) (htag : s.tagBad f .loaded = [])
    (hread : ∀ x ∈ f.frets, ∀ n, n < f.extent.rows → s.extBad x f.extent n = false) :
    ∃ t, exec (.strum f []) s = .next t ∧ Reports (s.strummed f) t := by
  have hok : (f.extent.fits && (f.g 6 27 26 != 0 || decide (1 ≤ f.g 7 22 16 ∧ f.g 7 22 16 ≤ 64))) = true := by
    by_cases hmode : f.g 6 27 26 = 0
    · simp [hfits, hmode, hlen hmode]
    · simp [hfits, hmode]
  have hlost : (f.frets.map fun x => (x, s.extReads f x)).any (fun r => lostRows r.2 != 0) = false := by
    rw [List.any_map, List.any_eq_false]
    intro x hx
    simp [State.lostRows_extReads (hread x hx)]
  have hgo : ∃ l, exec (.strum f []) s = withFence s (.next ((s.strummed f).bumps l)) := by
    rw [exec, execStrum, strumGo, State.frame_of_serves hserves _ _ _ _ hok htag]
    simp only [State.meetFlaws_nil, hlost, State.afterRows_of_intact, List.foldl_map]
    exact ⟨_, rfl⟩
  obtain ⟨l, hgo⟩ := hgo
  have hreports := bumps_reports (s.strummed f) l
  exact ⟨_, hgo.trans (withFence_of_deadDies (congrArg HbmSt.deadDies ((Ends.of_reports hreports).hbm.trans (s.strummed_hbm f)))), hreports⟩

theorem exec_pluck {s : State} {f : Frame} (hserves : s.serves f 0x11 (8 * f.pluckRows.length * f.vecs.length) = true) (hfits : f.extent.fits = true)
    (htag : s.tagBad f .loaded = []) (hread : ∀ x ∈ f.frets, ∀ n ∈ f.pluckRows, n < f.extent.rows → s.extBad x f.extent n = false) :
    ∃ t, exec (.pluck f []) s = .next t ∧ Reports (s.plucked f) t := by
  have hlost : ((f.frets.map fun x => (x, s.pluckReads f x)).map fun r => (r.1, pluckGot r.2)).any (fun r => lostRows r.2 != 0) = false := by
    rw [List.map_map, List.any_map, List.any_eq_false]
    intro x hx
    simp [State.lostRows_pluckGot (hread x hx)]
  have hgo : ∃ l, exec (.pluck f []) s = withFence s (.next ((s.plucked f).bumps l)) := by
    rw [exec, execPluck, pluckGo, State.frame_of_serves hserves _ _ _ _ hfits htag]
    unfold pluckGot at hlost
    simp only [State.meetFlaws_nil, hlost, State.afterRows_of_intact]
    simp only [List.map_map]
    exact ⟨_, rfl⟩
  obtain ⟨l, hgo⟩ := hgo
  have hreports := bumps_reports (s.plucked f) l
  exact ⟨_, hgo.trans (withFence_of_deadDies (congrArg HbmSt.deadDies (Ends.of_reports hreports).hbm)), hreports⟩

/-- Settles O24: without a flaw both frames come down to their working state or their return buffers; no row is lost, so no command ends. -/
theorem strumsAndPlucksReadOnly : Obligations.StrumsAndPlucksReadOnly := by
  unfold Obligations.StrumsAndPlucksReadOnly
  intro f s hfits htag
  refine ⟨fun hserves hlen hread => ?_, fun hserves hread => ?_⟩
  · obtain ⟨t, hexec, hreports⟩ := exec_strum hserves hfits hlen htag hread
    have hends := Ends.of_reports hreports
    exact ⟨t, hexec, hends.hbm.trans (s.strummed_hbm f), hreports.cmds.trans (s.modFrets_cmds _ _), hends.ctxs.trans (s.modFrets_ctxs _ _),
      hends.sbc.trans (s.modFrets_sbc _ _), hreports.free.trans (congrArg (· + 1) (s.modFrets_free _ _)),
      fun x hx => (hreports.fret x).trans (s.fret_strummed_of_mem hx), fun x hx => (hreports.fret x).trans (s.fret_strummed_of_notMem hx)⟩
  · obtain ⟨t, hexec, hreports⟩ := exec_pluck hserves hfits htag hread
    have hends := Ends.of_reports hreports
    exact ⟨t, hexec, hends.hbm, hreports.cmds, hends.frets, hends.sbc.trans (s.plucked_sbc f)⟩

end Sys2Proof.Machine
end

section
/-! SUPPORT. Frames that stage and publish, and the fold of an overlay (spec 03 R95 to R97, R99, 08 R255). -/

namespace Sys2Proof.Machine

open Sys2Proof

/-! ## STAGE_WRITE (03 R95) -/

theorem exec_stageWrite_of_below {s : State} {f : Frame} {x : Nat} (hserves : s.serves f 0x30 0 = true) (hx : f.frets = [x])
    (harea : f.g 4 20 0 < s.stageBase x) : exec (.stageWrite ⟨f, []⟩) s = .next (State.afterFence s (s.refuseFrame f)) := by
  have hout : decide (s.stageBase x ≤ f.g 4 20 0) = false := decide_eq_false (Nat.not_le.2 harea)
  rw [exec, execStageWrite, stageWriteGo, State.frame_of_not_ok hserves, withFence]
  simp [hx, hout]

/-- Inside the area the frame is one tagged write of the payload, or with COPY of the source columns. -/
theorem exec_stageWrite_of_inside {s : State} {f : Frame} {x : Nat} (hserves : s.serves f 0x30 0 = true) (hx : f.frets = [x]) (h1 : 1 ≤ f.g 5 8 0)
    (h256 : f.g 5 8 0 ≤ 256) (hend : f.g 4 20 0 + f.g 5 8 0 ≤ fretCols) (harea : s.stageBase x ≤ f.g 4 20 0) {d : List Byte}
    (hd : (bitOf (f.w 5) 17 = false ∧ d = slice f.payload 0 (32 * f.g 5 8 0)) ∨
      (bitOf (f.w 5) 17 = true ∧ f.g 6 20 0 + f.g 5 8 0 ≤ fretCols ∧ s.poisonedRow x (f.g 6 20 0 * 32) (32 * f.g 5 8 0) = false ∧
        d = s.hbmRead x (f.g 6 20 0 * 32) (32 * f.g 5 8 0))) :
    exec (.stageWrite ⟨f, []⟩) s = .next (s.hbmWrite x (f.g 4 20 0 * 32) (if bitOf (f.w 5) 16 then 2 else 1) d) := by
  rw [exec, execStageWrite, stageWriteGo]
  obtain ⟨hcopy, rfl⟩ | ⟨hcopy, hsrc, hpoison, rfl⟩ := hd
  · rw [State.frame_of_serves hserves _ _ _ _ (by simp [hx, hcopy, h1, h256, hend, harea]) rfl]
    simp only [hcopy, hx]
    exact withFence_of_deadDies (State.hbmWrite_deadDies _ _ _ _ _)
  · rw [State.frame_of_serves hserves _ _ _ _ (by simp [hx, h1, h256, hend, harea, hsrc]) rfl]
    simp only [hcopy, hx, hpoison, List.filter_nil, List.foldl_nil, List.any_cons, List.any_nil, ite_self, Bool.or_self, Bool.and_false]
    exact withFence_of_deadDies (State.hbmWrite_deadDies _ _ _ _ _)

/-- Settles O26: inside the area the frame is one write of the named columns, outside it is refused. -/
theorem stageWriteStaysInTheStagingArea : Obligations.StageWriteStaysInTheStagingArea := by
  unfold Obligations.StageWriteStaysInTheStagingArea
  intro f s x hserves hx hinv h1 h256 hend
  refine ⟨fun harea => exec_stageWrite_of_below hserves hx harea, fun d harea hd => ?_⟩
  have hlen : d.length = 32 * f.g 5 8 0 := by
    obtain ⟨-, rfl⟩ | ⟨-, -, -, rfl⟩ := hd
    · exact length_slice _ _ _
    · exact length_memRead _ _ _
  have hne : d ≠ [] := List.ne_nil_of_length_pos (by omega)
  refine ⟨_, exec_stageWrite_of_inside hserves hx h1 h256 hend harea hd, State.hbmWrite_overlays _ _ _ _ _, State.hbmWrite_frets _ _ _ _ _,
    State.hbmWrite_cmds _ _ _ _ _, ?_, fun a ha => ?_, State.writerOf_hbmWrite _ _ _ _ hne⟩
  · rw [State.hbmRead, State.hbmWrite_cells, ← hlen, memRead_memWrite_same hinv]
  · rw [State.hbmWrite_cells, memGet_memWrite_outside _ hinv (hlen ▸ ha)]

/-! ## COMMIT_ROW (03 R96, R97) -/

/-- The entry that COMMIT_ROW publishes: all the bytes of its columns, owned by no target. -/
def frameOverlay (f : Frame) (x : Nat) : Overlay :=
  { fret := x, base := f.g 5 20 0, stage := f.g 4 20 0, cols := f.g 6 8 0, first := 0, len := 32 * f.g 6 8 0, edition := f.w 10 + f.w 11 * 2 ^ 32, owner := none }

/-- A row staged whole takes nothing from the edition before: it is published as it stands. -/
theorem State.publishRow_of_whole (s : State) (owner : Option Target) {r : StagedRow} (e : Nat) (h : r.parts = [(0, r.len)]) :
    ∃ peak, s.publishRow owner r e =
      { s with hbm := { s.hbm with
          overlays := s.hbm.overlays ++
            [{ fret := r.fret, base := r.base, stage := r.stage, cols := r.cols, first := r.first, len := r.len, edition := e, owner := owner }]
          ovlPeak := peak } } := by
  have hsettle : s.settleRow r e = s := by simp [State.settleRow, h]
  simp only [State.publishRow, hsettle]
  split
  · exact ⟨_, rfl⟩
  · exact ⟨s.hbm.ovlPeak, rfl⟩

theorem State.verifyCols_of_good {s : State} {x col n : Nat} (harmed : s.armed (pSbc (stackOf x)) 2 = false) (hpoison : s.poisonedRow x (col * 32) (n * 32) = false) :
    s.verifyCols x col n [] = (s, false) := by
  simp [State.verifyCols, harmed, hpoison]

section
variable {s : State} {f : Frame} {x : Nat} (hserves : s.serves f 0x31 0 = true) (hx : f.frets = [x]) (h1 : 1 ≤ f.g 6 8 0)
  (hstage : f.g 4 20 0 + f.g 6 8 0 ≤ fretCols) (hbase : f.g 5 20 0 + f.g 6 8 0 ≤ fretCols)
include hserves hx h1 hstage hbase

theorem exec_commitRow_publish (hphase : bitOf (f.w 6) 12 = true) (hroom : s.ovlCount x < 256) :
    ∃ peak, exec (.commitRow f []) s = .next { s with hbm := { s.hbm with overlays := s.hbm.overlays ++ [frameOverlay f x], ovlPeak := peak } } := by
  rw [exec, execCommitRow, commitRowGo, State.frame_of_serves hserves _ _ _ _ (by simp [hx, h1, hstage, hbase, hroom]) rfl]
  simp only [hphase, hx, if_true, List.foldl_cons, List.foldl_nil]
  obtain ⟨peak, hpublish⟩ := s.publishRow_of_whole none (f.w 10 + f.w 11 * 2 ^ 32)
    (r := { fret := x, base := f.g 5 20 0, stage := f.g 4 20 0, cols := f.g 6 8 0, first := 0, len := 32 * f.g 6 8 0, parts := [(0, 32 * f.g 6 8 0)] }) rfl
  rw [hpublish]
  exact ⟨peak, withFence_of_deadDies rfl⟩

theorem exec_commitRow_verify (hphase : bitOf (f.w 6) 12 = false) (harmed : s.armed (pSbc (stackOf x)) 2 = false)
    (hpoison : s.poisonedRow x (f.g 4 20 0 * 32) (f.g 6 8 0 * 32) = false) : exec (.commitRow f []) s = .next s := by
  rw [exec, execCommitRow, commitRowGo, State.frame_of_serves hserves _ _ _ _ (by simp [hx, h1, hstage, hbase, hphase]) rfl]
  simp only [hphase, hx, List.foldl_cons, List.foldl_nil, State.verifyCols_of_good harmed hpoison]
  exact withFence_of_deadDies rfl

end

/-! ## Where a row is read (03 R97) -/

/-- The entries of a row of a domain that a read at edition `e` may take. -/
def Overlay.serves (o : Overlay) (f base e : Nat) : Prop := o.fret = f ∧ o.base = base ∧ o.edition ≤ e

/-- The answer is the newest among the entries that serve the read, or there is none. -/
def NewestOverlay (l : List Overlay) (f base e : Nat) : Option Overlay → Prop
  | some o => o ∈ l ∧ o.serves f base e ∧ ∀ p ∈ l, p.serves f base e → p.edition ≤ o.edition
  | none => ∀ p ∈ l, ¬p.serves f base e

/-- What a search holds after one more entry (03 R97). -/
def newerOverlay (f base e : Nat) (best : Option Overlay) (o : Overlay) : Option Overlay :=
  if o.fret == f && o.base == base && o.edition ≤ e then
    match best with
    | some b => if b.edition < o.edition then some o else best
    | none => some o
  else best

theorem findOverlay_eq_foldl (l : List Overlay) (f base e : Nat) : findOverlay l f base e = l.foldl (newerOverlay f base e) none := rfl

section
variable {f base e : Nat} {o : Overlay}

theorem newerOverlay_of_not_serves (h : ¬o.serves f base e) (best : Option Overlay) : newerOverlay f base e best o = best := by
  refine if_neg fun hb => h ?_
  simpa only [Overlay.serves, Bool.and_eq_true, beq_iff_eq, decide_eq_true_eq, and_assoc] using hb

theorem newerOverlay_of_serves (h : o.serves f base e) (best : Option Overlay) :
    newerOverlay f base e best o = if best.any fun b => decide (o.edition ≤ b.edition) then best else some o := by
  obtain ⟨hf, hb, he⟩ := h
  have hserves : (o.fret == f && o.base == base && decide (o.edition ≤ e)) = true := by
    simp only [hf, hb, he, beq_self_eq_true, decide_true, Bool.and_self]
  refine (if_pos hserves).trans ?_
  cases best with
  | none => rfl
  | some b =>
    by_cases hnew : b.edition < o.edition
    · simp only [Option.any_some, hnew, decide_eq_false (Nat.not_le.2 hnew), Bool.false_eq_true, if_true, if_false]
    · simp only [Option.any_some, hnew, decide_eq_true (Nat.le_of_not_lt hnew), if_true, if_false]

theorem newestOverlay_newerOverlay {r : List Overlay} {best : Option Overlay} (h : NewestOverlay r f base e best) (o : Overlay) :
    NewestOverlay (r ++ [o]) f base e (newerOverlay f base e best o) := by
  have hmem : ∀ {P : Overlay → Prop}, (∀ p ∈ r, P p) → P o → ∀ p ∈ r ++ [o], P p := fun hr ho =>
    List.forall_mem_append.2 ⟨hr, List.forall_mem_singleton.2 ho⟩
  have hlast : o ∈ r ++ [o] := List.mem_append_right r (List.mem_singleton_self o)
  by_cases ho : o.serves f base e
  · rw [newerOverlay_of_serves ho]
    cases best with
    | none => exact ⟨hlast, ho, hmem (fun p hp hs => absurd hs (h p hp)) fun _ => Nat.le_refl _⟩
    | some b =>
      obtain ⟨hb, hbs, hmax⟩ := h
      by_cases hold : o.edition ≤ b.edition
      · rw [Option.any_some, if_pos (decide_eq_true hold)]
        exact ⟨List.mem_append_left _ hb, hbs, hmem hmax fun _ => hold⟩
      · rw [Option.any_some, if_neg (mt of_decide_eq_true hold)]
        exact ⟨hlast, ho, hmem (fun p hp hs => Nat.le_trans (hmax p hp hs) (Nat.le_of_not_le hold)) fun _ => Nat.le_refl _⟩
  · rw [newerOverlay_of_not_serves ho]
    cases best with
    | none => exact hmem h ho
    | some b =>
      obtain ⟨hb, hbs, hmax⟩ := h
      exact ⟨List.mem_append_left _ hb, hbs, hmem hmax fun hs => absurd hs ho⟩

theorem newestOverlay_foldl (l : List Overlay) : ∀ {r : List Overlay} {best : Option Overlay}, NewestOverlay r f base e best →
    NewestOverlay (r ++ l) f base e (l.foldl (newerOverlay f base e) best) := by
  induction l with
  | nil => intro r best h; rwa [List.append_nil]
  | cons o l ih =>
    intro r best h
    rw [List.append_cons, List.foldl_cons]
    exact ih (newestOverlay_newerOverlay h o)

end

theorem newestOverlay_findOverlay (l : List Overlay) (f base e : Nat) : NewestOverlay l f base e (findOverlay l f base e) :=
  findOverlay_eq_foldl l f base e ▸ newestOverlay_foldl l (r := []) (best := none) fun _ hp => absurd hp List.not_mem_nil

/-- Settles O27: PHASE 1 appends the entry, PHASE 0 finds nothing amiss, and a read takes the newest entry that serves it. -/
theorem commitRowPublishesThroughAnOverlay : Obligations.CommitRowPublishesThroughAnOverlay := by
  unfold Obligations.CommitRowPublishesThroughAnOverlay
  refine ⟨fun f s x hserves hx h1 hstage hbase => ⟨fun hphase hroom => ?_, fun hphase harmed hpoison => ?_⟩, fun l f base e => ⟨fun o ho => ?_, fun hnone p hp hf hb => ?_⟩⟩
  · obtain ⟨peak, hexec⟩ := exec_commitRow_publish hserves hx h1 hstage hbase hphase hroom
    exact ⟨_, hexec, rfl, rfl, rfl, rfl⟩
  · exact exec_commitRow_verify hserves hx h1 hstage hbase hphase harmed hpoison
  · have hnewest := newestOverlay_findOverlay l f base e
    rw [ho] at hnewest
    obtain ⟨hmem, ⟨hf, hb, he⟩, hmax⟩ := hnewest
    exact ⟨hmem, hf, hb, he, fun p hp hpf hpb hpe => hmax p hp ⟨hpf, hpb, hpe⟩⟩
  · have hnewest := newestOverlay_findOverlay l f base e
    rw [hnone] at hnewest
    exact Nat.lt_of_not_le fun he => hnewest p hp ⟨hf, hb, he⟩

/-! ## OVERLAY_FOLD (03 R99, 08 R255) -/

/-- What retention gives up for a waiting stage: floors of regions and shards, and the count of the raises. -/
structure YieldsFloors (s t : State) : Prop where
  hbm : t.hbm = s.hbm
  cmds : t.cmds = s.cmds
  counter : ∀ o, o ≠ pUpd + 0x080 → t.counter o = s.counter o

theorem YieldsFloors.refl (s : State) : YieldsFloors s s := ⟨rfl, rfl, fun _ _ => rfl⟩

theorem YieldsFloors.trans {s t u : State} (h : YieldsFloors s t) (k : YieldsFloors t u) : YieldsFloors s u :=
  ⟨k.hbm.trans h.hbm, k.cmds.trans h.cmds, fun o ho => (k.counter o ho).trans (h.counter o ho)⟩

theorem YieldsFloors.foldl {α : Type} {f : State → α → State} (h : ∀ s x, YieldsFloors s (f s x)) : ∀ (l : List α) (s : State), YieldsFloors s (l.foldl f s)
  | [], s => .refl s
  | x :: l, s => (h s x).trans (YieldsFloors.foldl h l (f s x))

theorem setFloor_yieldsFloors (s : State) (t : Target) (e : Nat) : YieldsFloors s (s.setFloor t e) := by
  cases t <;> exact ⟨rfl, rfl, fun _ _ => rfl⟩

theorem yieldFloor_yieldsFloors (s : State) (f : Nat) : YieldsFloors s (s.yieldFloor f) := by
  unfold State.yieldFloor
  dsimp only
  split
  · exact .refl s
  · split
    · exact .refl s
    · split
      · exact .refl s
      · exact (setFloor_yieldsFloors s _ _).trans ⟨rfl, rfl, fun o ho => State.counter_bump_ne _ _ _ _ ho⟩

theorem yieldAll_yieldsFloors (s : State) : YieldsFloors s s.yieldAll := by
  unfold State.yieldAll
  refine YieldsFloors.foldl (fun t c => ?_) s.cmds s
  split
  · exact yieldFloor_yieldsFloors t _
  · exact .refl t

/-- A fold copies the entry's bytes over its base row, takes the entry out and counts (03 R99). -/
theorem State.foldOverlay_cells (s : State) (o : Overlay) :
    (s.foldOverlay o).hbm.cells =
      memWrite s.hbm.cells (linOf o.fret (o.base * 32 + o.first)) (memRead s.hbm.cells (linOf o.fret (o.stage * 32 + o.first)) o.len) :=
  State.hbmWrite_cells _ _ _ _ _

theorem State.foldOverlay_overlays (s : State) (o : Overlay) : (s.foldOverlay o).hbm.overlays = s.hbm.overlays.filter (· != o) :=
  congrArg (List.filter (· != o)) (State.hbmWrite_overlays _ _ _ _ _)

theorem State.foldOverlay_counter (s : State) (o : Overlay) : (s.foldOverlay o).counter (pUpd + 0x070) = (s.counter (pUpd + 0x070) + 1) % 2 ^ 64 := by
  rw [State.foldOverlay, State.counter_bump_same]
  exact congrArg (fun n => (n + 1) % 2 ^ 64) (State.counter_congr (State.hbmWrite_reg _ _ _ _ _) _)

/-- Settles O28: retention moves floors only, and the fold is one write of the staged bytes over the base row. -/
theorem foldsMoveTheOverlayIntoItsBase : Obligations.FoldsMoveTheOverlayIntoItsBase := by
  unfold Obligations.FoldsMoveTheOverlayIntoItsBase
  intro fret base s hinv
  obtain ⟨hhbm, hcmds, hcounter⟩ := yieldAll_yieldsFloors s
  refine ⟨fun hnone => by simp only [exec, execOverlayFold, hnone], fun o ho => ?_⟩
  refine ⟨s.yieldAll.foldOverlay o, by simp only [exec, execOverlayFold, ho], ?_, fun i hi => ?_, fun a ha => ?_, ?_, ?_, ?_, ?_⟩
  · rw [State.foldOverlay_overlays, hhbm]
  · have hlen : i < (memRead s.hbm.cells (linOf o.fret (o.stage * 32 + o.first)) o.len).length := by rwa [length_memRead]
    rw [State.foldOverlay_cells, hhbm, memGet_memWrite_inside _ hinv hlen, getElem_memRead]
  · rw [State.foldOverlay_cells, hhbm, memGet_memWrite_outside _ hinv (by rwa [length_memRead])]
  · rw [State.foldOverlay_counter, hcounter _ (by decide)]
  · exact (State.hbmWrite_cmds _ _ _ _ _).trans hcmds
  · exact State.hbmWrite_shards _ _ _ _ _
  · exact State.hbmWrite_regions _ _ _ _ _

end Sys2Proof.Machine
end

section
/-! SUPPORT. The BAR4 aperture, and what the stack controllers do by themselves (spec 03 R104 to R109, 10 R344, 11 R357). -/

namespace Sys2Proof.Machine

open Sys2Proof

/-! ## Accesses in one domain (03 R72) -/

theorem domainParts_of_within {lin n : Nat} (k : Nat) (hn : n ≠ 0) (h : lin % fretBytes + n ≤ fretBytes) :
    domainParts (k + 2) lin n = [(lin / fretBytes, lin % fretBytes, n)] := by
  have hmin : min n (fretBytes - lin % fretBytes) = n := Nat.min_eq_left (by omega)
  simp only [domainParts, beq_eq_false_iff_ne.mpr hn, Bool.false_eq_true, if_false, hmin, Nat.sub_self, beq_self_eq_true, if_true]

@[simp] theorem State.mapPut_hbm (s : State) (f o : Nat) (d : List Byte) : (s.mapPut f o d).hbm = s.hbm := by
  unfold State.mapPut; split <;> rfl
@[simp] theorem State.mapPut_cmds (s : State) (f o : Nat) (d : List Byte) : (s.mapPut f o d).cmds = s.cmds := by
  unfold State.mapPut; split <;> rfl
@[simp] theorem State.mapPut_reg (s : State) (f o : Nat) (d : List Byte) : (s.mapPut f o d).reg = s.reg := by
  unfold State.mapPut; split <;> rfl

/-! ## What an access does (03 R104 to R106) -/

section
variable {s : State} {p : Port} {off : Nat}

/-- A dropped access is counted and sets SBC_ERR bit 7, at stack 0 where it lies beyond HBM (03 R106). -/
def State.countDrop (s : State) (lin : Nat) : State :=
  let st := if lin ≥ nFrets * fretBytes then 0 else stackOf (lin / fretBytes)
  (s.bump (pSbc st + 0x078) 1).raise (pSbc st) 7

theorem countDrop_reports (s : State) (lin : Nat) : Reports s (s.countDrop lin) := (bump_reports s _ _).trans (raise_reports _ _ _)

theorem State.aperture_write_of_drop {d : List Byte} (hd : d ≠ []) (hdrop : s.aptDrop (s.aptAddr p off) = true) :
    s.aperture p off (.wr d) [] = s.countDrop (s.aptAddr p off) := by
  have hlen : (Access.size (.wr d) == 0) = false := by simpa [Access.size] using hd
  simp only [State.aperture, hlen, hdrop, Bool.true_or, Bool.false_eq_true, if_false, if_true]
  rfl

theorem State.aperture_read_of_drop {n : Nat} (hn : n ≠ 0) (hdrop : s.aptDrop (s.aptAddr p off) = true) :
    s.aperture p off (.rd n) [] = (s.countDrop (s.aptAddr p off)).emit p (.answer 0 off (List.replicate n 0xFF)) := by
  have hlen : (Access.size (.rd n) == 0) = false := by simpa [Access.size] using hn
  simp only [State.aperture, hlen, hdrop, Bool.true_or, Bool.false_eq_true, if_false, if_true]
  rfl

theorem State.aperture_write_of_within {d : List Byte} (hd : d ≠ []) (hfirst : s.aptDrop (s.aptAddr p off) = false)
    (hlast : s.aptDrop (s.aptAddr p off + d.length - 1) = false) (hfit : s.aptAddr p off % fretBytes + d.length ≤ fretBytes) :
    s.aperture p off (.wr d) [] =
      (s.hbmWrite (s.aptAddr p off / fretBytes) (s.aptAddr p off % fretBytes) 0 d).mapPut (s.aptAddr p off / fretBytes) (s.aptAddr p off % fretBytes) d := by
  have hlen : d.length ≠ 0 := mt List.length_eq_zero_iff.1 hd
  simp only [State.aperture, Access.size, beq_eq_false_iff_ne.mpr hlen, hfirst, hlast, domainParts_of_within _ hlen hfit, Bool.or_self,
    Bool.false_eq_true, if_false, List.foldl_cons, List.foldl_nil, List.take_length]
  rfl

theorem State.aperture_read_of_within {n : Nat} (hn : n ≠ 0) (hfirst : s.aptDrop (s.aptAddr p off) = false)
    (hlast : s.aptDrop (s.aptAddr p off + n - 1) = false) (hfit : s.aptAddr p off % fretBytes + n ≤ fretBytes)
    (harmed : s.armed (pSbc (stackOf (s.aptAddr p off / fretBytes))) 1 = false)
    (hpoison : s.poisonedRow (s.aptAddr p off / fretBytes) (s.aptAddr p off % fretBytes) n = false) :
    s.aperture p off (.rd n) [] =
      s.emit p (.answer 0 off (s.mapView (s.aptAddr p off / fretBytes) (s.aptAddr p off % fretBytes) (memRead s.hbm.cells (s.aptAddr p off) n))) := by
  have hflaws : ∀ acc parts, s.aptFlaws acc parts [] = s := fun _ _ => rfl
  simp only [State.aperture, Access.size, beq_eq_false_iff_ne.mpr hn, hfirst, hlast, domainParts_of_within _ hn hfit, Bool.or_self,
    Bool.false_eq_true, if_false, List.foldl_cons, List.foldl_nil, List.nil_append, hflaws, State.aptRead, harmed, hpoison, State.hbmRead, linOf_div_mod]

/-! ## Whether it is taken (03 R105, R109) -/

/-- An access of so many bytes waits: behind another of its port, or for a domain that is being replaced. -/
def State.aptStalls (s : State) (p : Port) (off n : Nat) : Bool :=
  s.aptWaits p || (domainParts (n / fretBytes + 2) (s.aptAddr p off) n).any fun q => s.sparingAt q.1

theorem exec_bar4Access_of_unclaimed {x : ApertureAccess} (h : ¬off + Access.size x.acc ≤ (s.port p).bar4 * 2 ^ 30) : exec (.bar4Access p off x) s = .next s := by
  simp only [exec, execBar4Access, decide_eq_true (Nat.lt_of_not_le h), Bool.or_true, if_true]

variable (hup : (s.port p).up = true) (hpow : s.powered (3 + p.idx) = true) {x : ApertureAccess}
  (hclaim : off + Access.size x.acc ≤ (s.port p).bar4 * 2 ^ 30)
include hup hpow hclaim

theorem exec_bar4Access_of_claimed :
    exec (.bar4Access p off x) s =
      if s.aptStalls p off (Access.size x.acc) then .next (s.stall (.bar4Access p off x))
      else .next (State.afterFence s (s.aperture p off x.acc x.flaws)) := by
  simp only [exec, execBar4Access, hup, hpow, decide_eq_false (Nat.not_lt.2 hclaim), Bool.not_true, Bool.or_self, Bool.false_eq_true, if_false]
  rfl

/-- An access that is taken and fences no die leaves what the aperture makes of it. -/
theorem exec_bar4Access_of_ready {t : State} (hready : s.aptStalls p off (Access.size x.acc) = false) (ht : s.aperture p off x.acc x.flaws = t)
    (hdies : t.hbm.deadDies = s.hbm.deadDies) : exec (.bar4Access p off x) s = .next t := by
  rw [exec_bar4Access_of_claimed hup hpow hclaim, hready, if_neg Bool.false_ne_true, ht, State.afterFence_of_deadDies hdies]

end

/-- Settles O29: an access is left alone, waits, is dropped with its count, or reaches the cells at its linear address. -/
theorem bar4ReachesLinearHbm : Obligations.Bar4ReachesLinearHbm := by
  unfold Obligations.Bar4ReachesLinearHbm
  intro p off s hinv hup hpow
  refine ⟨fun x h => exec_bar4Access_of_unclaimed h, fun x hclaim hwait => ?_, fun d hd hclaim hready hfirst hlast hfit => ?_,
    fun n hn hclaim hready hfirst hlast hfit harmed hpoison => ?_, fun hdrop => ?_⟩
  · exact (exec_bar4Access_of_claimed hup hpow hclaim).trans (if_pos hwait)
  · have hcells : ((s.hbmWrite (s.aptAddr p off / fretBytes) (s.aptAddr p off % fretBytes) 0 d).mapPut (s.aptAddr p off / fretBytes)
        (s.aptAddr p off % fretBytes) d).hbm.cells = memWrite s.hbm.cells (s.aptAddr p off) d := by
      rw [State.mapPut_hbm, State.hbmWrite_cells, linOf_div_mod]
    refine ⟨_, exec_bar4Access_of_ready hup hpow hclaim hready (State.aperture_write_of_within hd hfirst hlast hfit) (by simp), ?_, fun a ha => ?_, by simp, by simp, by simp⟩
    · rw [hcells, memRead_memWrite_same hinv]
    · rw [hcells, memGet_memWrite_outside d hinv ha]
  · exact exec_bar4Access_of_ready hup hpow hclaim hready (State.aperture_read_of_within hn hfirst hlast hfit harmed hpoison) (by simp)
  · have hreports := countDrop_reports s (s.aptAddr p off)
    have hhbm := (Ends.of_reports hreports).hbm
    refine ⟨fun d hd hclaim hready => ?_, fun n hn hclaim hready => ?_, hhbm, hreports.cmds⟩
    · exact exec_bar4Access_of_ready hup hpow hclaim hready (State.aperture_write_of_drop hd hdrop) (congrArg HbmSt.deadDies hhbm)
    · exact exec_bar4Access_of_ready hup hpow hclaim hready (State.aperture_read_of_drop hn hdrop) (congrArg HbmSt.deadDies ((State.emit_hbm _ _ _).trans hhbm))

/-! ## Temperature, scrub and spares (03 R107, R109, 10 R344) -/

theorem thermalLevel_ne_two {temp : Nat} (h : temp < 95) : thermalLevel temp ≠ 2 := by
  rw [thermalLevel, if_neg (Nat.not_le.2 h)]
  split <;> decide

theorem exec_stackThermal {stack temp : Nat} {s : State} (hstack : stack < 12) (htemp : temp ≤ 255) (hlevel : temp < 95 ∨ tgetD s.hbm.thermal stack 0 = 2) :
    exec (.stackThermal stack temp) s =
      .next { s with hbm := { s.hbm with
        temp := tset s.hbm.temp stack temp
        tempMax := tset s.hbm.tempMax stack (max temp (tgetD s.hbm.tempMax stack 0))
        thermal := tset s.hbm.thermal stack (thermalLevel temp) } } := by
  have hsat : sat8 temp = temp := Nat.min_eq_left htemp
  have henter : (thermalLevel temp == 2 && tgetD s.hbm.thermal stack 0 != 2) = false := by
    obtain hlow | hwas := hlevel
    · simp [thermalLevel_ne_two hlow]
    · simp [hwas]
  simp only [exec, execStackThermal, ge_iff_le, Nat.not_le.2 hstack, if_false, hsat, henter, Bool.false_eq_true]

theorem exec_patrolScrub_nil (stack : Nat) (s : State) : exec (.patrolScrub stack []) s = .next s := by
  rw [exec, execPatrolScrub]
  split
  · rfl
  · exact congrArg _ (State.afterFence_of_deadDies rfl)

theorem exec_patrolScrub_single {stack : Nat} {fl : Flaw} {s : State} (hstack : stack < 12) (hon : bitOf (s.reg32 (pSbc stack + 0x100)) 13 = true)
    (hkind : fl.kind = .single) (hmine : stackOf fl.fret = stack) (hfret : fl.fret < nFrets) (hcol : fl.col < fretCols)
    (hdie : s.hbm.deadDies.contains (dieOf fl.fret) = false) :
    exec (.patrolScrub stack [fl]) s = .next (State.afterFence s (s.correct fl.fret fl.col 0 fl.symbol)) := by
  have hmet : [fl].filter (fun x => stackOf x.fret == stack && decide (x.fret < nFrets) && decide (x.col < fretCols) && !s.hbm.deadDies.contains (dieOf x.fret)) = [fl] := by
    simp only [List.filter_cons, hmine, hfret, hcol, hdie, beq_self_eq_true, decide_true, Bool.not_false, Bool.and_self, if_true, List.filter_nil]
  have hpass : (decide (stack ≥ 12) || !bitOf (s.reg32 (pSbc stack + 0x100)) 13) = false := by
    simp [hon, hstack]
  rw [exec, execPatrolScrub, hpass, if_neg Bool.false_ne_true, hmet, List.foldl_cons, List.foldl_nil, State.scrubFlaw, hkind]

theorem State.spareDone_sparing {s : State} {fret : Nat} {x : Sparing} (h : (s.hbm.sparing.find? fun y => y.fret == fret) = some x) :
    (s.spareDone fret).hbm.sparing = s.hbm.sparing.filter (· != x) := by
  simp only [State.spareDone, h]
  split <;> rfl

/-- A domain that still read was copied whole: nothing is restored, and what waited goes on (03 R109). -/
theorem State.copyDone_of_reads {s : State} {fret : Nat} {x : Sparing} (h : (s.hbm.sparing.find? fun y => y.fret == fret) = some x) (hreads : x.reads = true) :
    s.copyDone fret =
      (((s.spareDone fret).cmds.filter fun c => c.phase == .run (.spare fret)).foldl (fun s c => s.run c.id) (s.spareDone fret)).poolAgain.reissueAll := by
  simp only [State.copyDone, h, hreads, if_true]

/-- Settles O30: the level that is not entered only notes itself, a pass does what it met, and a completed copy lets go of what waited for it. -/
theorem stacksLookAfterThemselves : Obligations.StacksLookAfterThemselves := by
  unfold Obligations.StacksLookAfterThemselves
  refine ⟨fun stack temp s hstack htemp hlevel => exec_stackThermal hstack htemp hlevel, exec_patrolScrub_nil, ?_, fun fret s x h hreads => ⟨?_, State.spareDone_sparing h⟩⟩
  · exact fun stack fl s hstack hon hkind hmine hfret hcol hdie => exec_patrolScrub_single hstack hon hkind hmine hfret hcol hdie
  · rw [exec, execSpareCopyDone, State.copyDone_of_reads h hreads]

end Sys2Proof.Machine
end

section
/-! SUPPORT. The Scoring Array's courses, fenced and back at work, and the wave that starts at a boundary (spec 04 R112, R113, R119 to R122, R129 to R131). -/

namespace Sys2Proof.Machine

open Sys2Proof

/-! ## Bits -/

theorem setBit_eq (w i : Nat) (b : Bool) : setBit w i b = 2 ^ i * (2 * (w >>> (i + 1)) + b.toNat) + w % 2 ^ i := by
  have hbit : (if b then 1 else 0) % 2 ^ (i - i + 1) = b.toNat := by
    rw [Nat.sub_self]
    cases b <;> rfl
  rw [setBit, setFld, hbit, Nat.shiftLeft_eq, Nat.shiftLeft_eq, Nat.pow_succ, Nat.mul_add, Nat.mul_comm b.toNat, Nat.mul_comm (w >>> (i + 1)), Nat.mul_assoc]

theorem bitOf_setBit (w i k : Nat) (b : Bool) : bitOf (setBit w i b) k = if k = i then b else bitOf w k := by
  have hdiv (h : Nat) : (2 * h + b.toNat) / 2 = h := by cases b <;> simp only [Bool.toNat_true, Bool.toNat_false] <;> omega
  have hmod (h : Nat) : decide ((2 * h + b.toNat) % 2 = 1) = b := by
    rw [Nat.mul_add_mod_self_left]
    cases b <;> rfl
  rw [bitOf_eq_testBit, bitOf_eq_testBit, setBit_eq, Nat.testBit_two_pow_mul_add _ (Nat.mod_lt _ (Nat.two_pow_pos i))]
  rcases Nat.lt_trichotomy k i with hlow | rfl | hhigh
  · rw [if_pos hlow, if_neg (Nat.ne_of_lt hlow), Nat.testBit_mod_two_pow, decide_eq_true hlow, Bool.true_and]
  · rw [if_neg (Nat.lt_irrefl k), if_pos rfl, Nat.sub_self, Nat.testBit_zero, hmod]
  · obtain ⟨m, rfl⟩ := Nat.exists_eq_add_of_lt hhigh
    rw [if_neg (by omega), if_neg (by omega), show i + m + 1 - i = m + 1 by omega, Nat.testBit_succ, hdiv, Nat.testBit_shiftRight, Nat.add_right_comm]

@[simp] theorem bitOf_setBit_same (w i : Nat) (b : Bool) : bitOf (setBit w i b) i = b := by
  rw [bitOf_setBit, if_pos rfl]

theorem bitOf_setBit_ne (w : Nat) {i k : Nat} (b : Bool) (h : k ≠ i) : bitOf (setBit w i b) k = bitOf w k := by
  rw [bitOf_setBit, if_neg h]

/-- A bit that has the value already is left as it is. -/
theorem setBit_of_bitOf {w i : Nat} {b : Bool} (h : bitOf w i = b) : setBit w i b = w := by
  refine Nat.eq_of_testBit_eq fun k => ?_
  rw [← bitOf_eq_testBit, ← bitOf_eq_testBit, bitOf_setBit]
  split
  · next hk => rw [hk, h]
  · rfl

/-! ## What a report keeps -/

theorem Reports.arr {s t : State} (h : Reports s t) : t.arr = s.arr := by
  obtain ⟨r, a, b, rfl⟩ := h
  rfl

theorem Reports.hbm {s t : State} (h : Reports s t) : t.hbm = s.hbm := by
  obtain ⟨r, a, b, rfl⟩ := h
  rfl

/-! ## Fencing a course (04 R129) -/

/-- The Array once course n is fenced: no request about it is left, and it is in no self-test. -/
def ArrSt.fence (a : ArrSt) (n src : Nat) : ArrSt :=
  { a with fenced := setBit a.fenced n true, src := tset a.src n src, pendFence := tdel a.pendFence n, pendJoin := setBit a.pendJoin n false
           testing := setBit a.testing n false }

/-- Beyond the Array, fencing a course changes only what reports it. -/
theorem State.fenceCourse_reports (s : State) (n src : Nat) : Reports { s with arr := s.arr.fence n src } (s.fenceCourse n src) := by
  unfold State.fenceCourse
  dsimp only
  split
  · next hfenced =>
    rw [ArrSt.fence, setBit_of_bitOf hfenced]
    exact .refl _
  · exact logEvent_reports _ _ _ _ _ _ _

theorem Reports.fenceCourse {s t : State} (h : Reports s t) (n src : Nat) : Reports { s with arr := s.arr.fence n src } (t.fenceCourse n src) := by
  obtain ⟨r, a, b, rfl⟩ := h
  have hupd : Reports { s with arr := s.arr.fence n src } { s with arr := s.arr.fence n src, reg := r, pa := a, pb := b } := ⟨r, a, b, rfl⟩
  exact hupd.trans (State.fenceCourse_reports _ n src)

/-! ## Requests of a course that is in no wave (04 R129, R131) -/

/-- Course n works in no wave: its slice runs none, or it is in no slice. -/
def State.atRest (s : State) (n : Nat) : Prop := ∀ p, s.courseSlice n = some p → tget s.arr.wave p = none

theorem Reports.atRest {s t : State} {n : Nat} (h : Reports s t) (hs : s.atRest n) : t.atRest n := by
  obtain ⟨r, a, b, rfl⟩ := h
  exact hs

/-- A settled course stays as it is, or is fenced, or works again. -/
theorem State.settleCourse_cases (s : State) (n : Nat) :
    s.settleCourse n = s ∨ (∃ src, s.settleCourse n = s.fenceCourse n src) ∨ s.settleCourse n = s.joinCourse n := by
  have happly : s.applyCourses [n] = s ∨ (∃ src, s.applyCourses [n] = s.fenceCourse n src) ∨ s.applyCourses [n] = s.joinCourse n := by
    rw [State.applyCourses, List.foldl_cons, List.foldl_nil]
    split
    · next src _ => exact .inr (.inl ⟨src, rfl⟩)
    · split
      · exact .inr (.inr rfl)
      · exact .inl rfl
  unfold State.settleCourse
  split
  · split
    · exact .inl rfl
    · exact happly
  · exact happly

theorem State.settleCourse_of_atRest {s : State} {n : Nat} (h : s.atRest n) : s.settleCourse n = s.applyCourses [n] := by
  unfold State.settleCourse
  split
  · next p hp => rw [h p hp, Option.isSome_none, if_neg Bool.false_ne_true]
  · rfl

theorem State.settleCourse_of_pendFence {s : State} {n src : Nat} (hrest : s.atRest n) (hreq : tget s.arr.pendFence n = some src) :
    s.settleCourse n = s.fenceCourse n src := by
  rw [State.settleCourse_of_atRest hrest, State.applyCourses, List.foldl_cons, List.foldl_nil, hreq]

theorem State.settleCourse_of_pendJoin {s : State} {n : Nat} (hrest : s.atRest n) (hnone : tget s.arr.pendFence n = none) (hreq : bitOf s.arr.pendJoin n = true) :
    s.settleCourse n = s.joinCourse n := by
  rw [State.settleCourse_of_atRest hrest, State.applyCourses, List.foldl_cons, List.foldl_nil, hnone]
  exact if_pos hreq

/-- A request to fence course n is noted. -/
def State.requestFence (s : State) (n : Nat) : State := { s with arr := { s.arr with pendFence := tset s.arr.pendFence n 1 } }

theorem State.writeFence_of_unfenced {s : State} {n : Nat} (hfenced : bitOf s.arr.fenced n = false) :
    s.writeFence n true = (s.requestFence n).settleCourse n := by
  simp only [State.writeFence, State.requestFence, hfenced, if_true, Bool.false_eq_true, if_false]

theorem State.settleCourse_requestFence {s : State} {n : Nat} (hrest : s.atRest n) : (s.requestFence n).settleCourse n = (s.requestFence n).fenceCourse n 1 :=
  State.settleCourse_of_pendFence (s := s.requestFence n) hrest (tget_tset_same _ _ _)

/-- A request to fence a course that is in no wave takes effect at once. -/
theorem exec_courseFenceWrite_of_atRest {a : Agent} {n : Nat} {s : State} (hn : n < 16) (hreach : s.reaches a (pCourse n) = true) (hrest : s.atRest n)
    (hfenced : bitOf s.arr.fenced n = false) :
    ∃ t, exec (.courseFenceWrite a n true) s = .next t ∧ Reports { s with arr := (s.requestFence n).arr.fence n 1 } t := by
  have hok : (decide (n < 16) && s.reaches a (pCourse n)) = true := by rw [hreach, decide_eq_true hn, Bool.and_self]
  refine ⟨_, ?_, (s.requestFence n).fenceCourse_reports n 1⟩
  rw [exec, execCourseFenceWrite, if_pos hok, State.writeFence_of_unfenced hfenced, State.settleCourse_requestFence hrest]

/-! ## A parity error (04 R130) -/

theorem State.leaveWave_of_atRest {s : State} {n : Nat} (h : s.atRest n) : s.leaveWave n = s := by
  unfold State.leaveWave
  split
  · rfl
  · next p hp => rw [h p hp]

/-- A parity error fences a course that is in no wave, and beyond that only reports. -/
theorem State.courseError_reports {s : State} {n : Nat} (hrest : s.atRest n) (hfenced : bitOf s.arr.fenced n = false) :
    Reports { s with arr := s.arr.fence n 2 } (s.courseError n) := by
  rw [State.courseError, hfenced, if_neg Bool.false_ne_true]
  dsimp only
  have hfence (at' : Attr) : Reports { s with arr := s.arr.fence n 2 } (((s.bump (pCourse n + 0x050) 1).raiseAt (pCourse n) 0 at').fenceCourse n 2) :=
    ((bump_reports s _ 1).trans (raiseAt_reports _ _ 0 at')).fenceCourse n 2
  rw [State.leaveWave_of_atRest ((hfence _).atRest hrest)]
  exact hfence _

theorem exec_courseParityError {n : Nat} (hn : n < 16) (s : State) : exec (.courseParityError n) s = .next (s.courseError n) := by
  rw [exec, execCourseParityError, if_pos hn]

/-! ## The end of a self-test (04 R131) -/

theorem State.settleCourse_cmds (s : State) (n : Nat) : (s.settleCourse n).cmds = s.cmds := by
  obtain h | ⟨src, h⟩ | h := s.settleCourse_cases n <;> rw [h]
  · exact (s.fenceCourse_reports n src).cmds
  · rfl

/-- Settling a course starts no self-test of it. -/
theorem State.settleCourse_testing {s : State} {n : Nat} (h : bitOf s.arr.testing n = false) : bitOf (s.settleCourse n).arr.testing n = false := by
  obtain e | ⟨src, e⟩ | e := s.settleCourse_cases n <;> rw [e]
  · exact h
  · rw [(s.fenceCourse_reports n src).arr]
    exact bitOf_setBit_same _ _ _
  · exact h

section
variable {n : Nat} {s : State} (hn : n < 16) (htest : bitOf s.arr.testing n = true)
include hn htest

theorem exec_courseSelftestDone_pass :
    exec (.courseSelftestDone n true) s =
      .next (State.settleCourse { s with arr := { s.arr with testing := setBit s.arr.testing n false, pendJoin := setBit s.arr.pendJoin n true } } n) := by
  simp only [exec, execCourseSelftestDone, htest, ge_iff_le, Nat.not_le.2 hn, decide_false, Bool.not_true, Bool.or_self, Bool.false_eq_true, if_false, if_true]

theorem exec_courseSelftestDone_fail :
    ∃ t, exec (.courseSelftestDone n false) s = .next t ∧
      Reports { s with arr := { s.arr with testing := setBit s.arr.testing n false }.fence n 2 } t := by
  refine ⟨_, ?_, (State.fenceCourse_reports { s with arr := { s.arr with testing := setBit s.arr.testing n false } } n 2).trans (raiseAt_reports _ (pCourse n) 1 noAttr)⟩
  simp only [exec, execCourseSelftestDone, htest, ge_iff_le, Nat.not_le.2 hn, decide_false, Bool.not_true, Bool.or_self, Bool.false_eq_true, if_false]

end

/-! ## The next wave (04 R112, R113) -/

/-- The arbiter is asked about no child where the slice has no operation. -/
theorem State.nextOp_of_no_op {s : State} {p : Nat} (h : ∀ o ∈ s.arr.queue, o.part ≠ p) (last : Nat) : s.nextOp p last = none := by
  have hops : s.arr.queue.filter (fun o => o.part == p) = [] := List.filter_eq_nil_iff.2 fun o ho => by simpa using h o ho
  rw [State.nextOp, hops]
  rfl

/-- Tiles of an operation that a wave on the unfenced courses of a slice takes (04 R113, R122). -/
def State.nextTiles (s : State) (p : Nat) (o : ArrOp) : Nat :=
  o.shape.waveTiles o.left (s.courseList p).length (256 * fld (s.reg32 (pArr + 0x100)) 6 0)

/-- A wave of an operation on the unfenced courses of a slice, its next tiles dealt over them (04 R119, R122). -/
def State.nextWave (s : State) (p : Nat) (o : ArrOp) : ArrOp :=
  { o with
    deals := dealTiles ((List.range (s.nextTiles p o)).map (o.shape.tiles - o.left + ·)) (s.courseList p) (o.shape.share (s.courseList p).length) false
    courses := s.courseList p }

theorem State.startWave_of_nextOp {s : State} {p last : Nat} {o : ArrOp} {credit : Tab Int} (hnext : s.nextOp p last = some (o, credit))
    (hcourses : s.courseList p ≠ []) (hcapo : s.classOf p 6 ≠ .held) (harmed : ((s.courseList p).filter fun n => s.armed (pCourse n) 0) = []) :
    s.startWave p last =
      { s.modPart p fun x => { x with arrCredit := credit } with
        arr := { s.arr with
          wave := tset s.arr.wave p (s.nextWave p o)
          queue := s.arr.queue.map fun q => if q == o then { q with left := q.left - s.nextTiles p o } else q } } := by
  have hsome : (s.courseList p).isEmpty = false := by simpa using hcourses
  have hserved : (s.classOf p 6 == .held) = false := by simpa using hcapo
  simp only [State.startWave, hnext, hsome, hserved, Bool.false_eq_true, if_false]
  exact congrArg (List.foldl _ _) harmed

/-- At a boundary where no wave ends, no request takes effect and no domain goes off, the next wave starts. -/
theorem exec_waveBoundary_of_settled {s : State} {p : Nat} (happly : s.applyCourses (bitsOf 16 (s.courses p)) = s) (hleave : s.leaveDomains = s)
    (hwave : tget s.arr.wave p = none) : exec (.waveBoundary p) s = .next (s.startWave p 4096) := by
  rw [exec, execWaveBoundary, hwave]
  dsimp only
  rw [happly, hleave]

/-- Settles O31: at rest a course's requests and errors fence it alone and a passed self-test lets it rejoin; a boundary with nothing to settle starts the next wave. -/
theorem coursesFenceAndWavesRun : Obligations.CoursesFenceAndWavesRun := by
  unfold Obligations.CoursesFenceAndWavesRun
  refine ⟨⟨?request, ?parity, fun n s hn htest => ⟨?pass, ?fail⟩⟩, fun p s happly hleave hwave => ⟨?none, ?wave⟩⟩
  case request =>
    intro a n p s hn hreach hslice hwave hfenced
    have hrest : s.atRest n := fun q hq => Option.some.inj (hslice.symm.trans hq) ▸ hwave
    obtain ⟨t, hexec, hrep⟩ := exec_courseFenceWrite_of_atRest hn hreach hrest hfenced
    refine ⟨t, hexec, ?_, fun k hk => ?_, ?_, hrep.cmds, hrep.hbm⟩ <;> rw [hrep.arr]
    · exact bitOf_setBit_same _ _ _
    · exact bitOf_setBit_ne _ _ hk
    · rfl
  case parity =>
    intro n s hn hfenced hrest
    have hrep := State.courseError_reports hrest hfenced
    refine ⟨s.courseError n, exec_courseParityError hn s, ?_, ?_, fun k hk => ?_, hrep.cmds, hrep.hbm⟩
    · rw [hrep.arr]
      exact bitOf_setBit_same _ _ _
    · rw [hrep.arr]
      exact tget_tset_same _ _ _
    · rw [hrep.arr]
      exact bitOf_setBit_ne _ _ hk
  case pass =>
    refine ⟨_, exec_courseSelftestDone_pass hn htest, State.settleCourse_testing (bitOf_setBit_same _ _ _), State.settleCourse_cmds _ _, fun hrest hnone => ?_⟩
    rw [State.settleCourse_of_pendJoin]
    · exact bitOf_setBit_same _ _ _
    · exact hrest
    · exact hnone
    · exact bitOf_setBit_same _ _ _
  case fail =>
    obtain ⟨t, hexec, hrep⟩ := exec_courseSelftestDone_fail hn htest
    refine ⟨t, hexec, ?_, ?_, hrep.cmds, hrep.hbm⟩ <;> rw [hrep.arr]
    · exact bitOf_setBit_same _ _ _
    · exact bitOf_setBit_same _ _ _
  case none =>
    intro hqueue
    rw [exec_waveBoundary_of_settled happly hleave hwave, State.startWave, State.nextOp_of_no_op hqueue]
  case wave =>
    intro o credit hnext hcourses hcapo harmed
    refine ⟨_, exec_waveBoundary_of_settled happly hleave hwave, ?_⟩
    rw [State.startWave_of_nextOp hnext hcourses hcapo harmed]
    exact ⟨rfl, rfl, tget_tset_same _ _ _, rfl⟩

end Sys2Proof.Machine
end

section
/-! SUPPORT. Forwarded requests at their owner, and the owner's answers at the origin (spec 07 R250, 08 R278 to R280, 12 R397, 13 R415). -/

namespace Sys2Proof.Machine

/-! ## A message that is handled now (12 R392 to R399) -/

/-- A command that names a message of its own type does what the message asks, where the receiver hands it on. -/
theorem State.onMsg_of_receive {s r : State} {m : Msg} {ty : Nat} (hrec : s.receive m = (r, true)) (hty : m.ty = ty) (f : State → State) :
    s.onMsg ty m f = f r := by
  simp [State.onMsg, hrec, hty]

/-! ## Charges that are never held (10 R344) -/

@[simp] theorem State.take_fab (s : State) (p r n : Nat) (k : Class) : (s.take p r n k).fab = s.fab := by
  unfold State.take
  dsimp only
  split <;> rfl

@[simp] theorem State.chargeFree_fab (s : State) (p r n : Nat) : (s.chargeFree p r n).fab = s.fab := by
  unfold State.chargeFree
  split
  · rfl
  · exact s.take_fab p r n _

/-- A charge answers no request: the message answers the same one afterwards. -/
@[simp] theorem State.answered_chargeFree (s : State) (p k n : Nat) (m : Msg) (ty : Nat) : (s.chargeFree p k n).answered m ty = s.answered m ty := by
  have hnode : (s.chargeFree p k n).node = s.node := by
    unfold State.chargeFree State.take
    dsimp only
    split
    · rfl
    · split <;> rfl
  simp only [State.answered, State.chargeFree_fab, hnode]

/-! ## The owner of a search (07 R250) -/

section Owner
variable {r u : State} {m : Msg} {num : Nat} {dw : List Nat} {q : List Byte}

theorem State.onSearchReq_of_not_owned (hbody : m.body = .search num dw q)
    (h : r.fabricPart m.dstPart = false ∨ r.ownsShard num m.dstPart m.epoch = false) : r.onSearchReq m = r.refuseMsg m 3 := by
  have hno : (!r.fabricPart m.dstPart || !r.ownsShard num m.dstPart m.epoch) = true := by simpa using h
  simp only [State.onSearchReq, hbody, hno, if_true]

theorem State.onSearchReq_of_owned (hbody : m.body = .search num dw q) (hpart : r.fabricPart m.dstPart = true)
    (hown : r.ownsShard num m.dstPart m.epoch = true) (hpol : r.police m m.dstPart = (u, true)) : r.onSearchReq m = u.takeForward m dw q := by
  simp [State.onSearchReq, hbody, hpart, hown, hpol]

/-! ## The owner of an update (08 R278) -/

theorem State.onUpdateReq_of_not_owned (hbody : m.body = .update num dw q)
    (h : r.fabricPart m.dstPart = false ∨ ∀ n ∈ updateShards dw q, r.ownsShard n m.dstPart m.epoch = false) : r.onUpdateReq m = r.refuseMsg m 3 := by
  have hno : (!r.fabricPart m.dstPart || !(updateShards dw q).any (fun n => r.ownsShard n m.dstPart m.epoch)) = true := by simpa using h
  simp only [State.onUpdateReq, hbody, hno, if_true]

theorem State.onUpdateReq_of_owned (hbody : m.body = .update num dw q) (hpart : r.fabricPart m.dstPart = true)
    (hown : ∃ n ∈ updateShards dw q, r.ownsShard n m.dstPart m.epoch = true) (hpol : r.police m m.dstPart = (u, true)) :
    r.onUpdateReq m = u.takeForward m dw q := by
  have hany : (updateShards dw q).any (fun n => r.ownsShard n m.dstPart m.epoch) = true := List.any_eq_true.2 hown
  simp [State.onUpdateReq, hbody, hpart, hany, hpol]

end Owner

/-! ## Acceptance and result at the origin (08 R279, R280, 07 R250) -/

section Origin
variable {s r : State} {m : Msg} {q : Req}

theorem exec_fwdAccept_of_receive (hrec : s.receive m = (r, true)) (hty : m.ty = 0x22) :
    exec (.fwdAccept m) s = .next ((r.answered m 0x21).elim r fun q => r.setReq { q with accepted := true }) := by
  rw [exec, execFwdAccept, State.onMsg_of_receive hrec hty]
  cases r.answered m 0x21 <;> rfl

variable {st sub n res e : Nat} {out : List Byte}

/-- The result of an update reaches the part of the command that waits under the request's key. -/
theorem State.onFwdResult_of_update (hbody : m.body = .fwdResult st sub n res e out) (hans : r.answered m 0x21 = some q) :
    r.onFwdResult m = ((r.chargeFree m.dstPart 10 (ceilDiv (bodySize m.body) 64)).dropReq q.txn).deliver q.cmd q.key
      (OwnerAns.bytes { status := st, sub := sub, counter := n, result := res, edition := e, out := out }) := by
  simp only [State.onFwdResult, hbody, State.answered_chargeFree, hans]

/-- The result of a search carries the blocks that its fan-out collected, and ends that collective. -/
theorem State.onFwdResult_of_search (hbody : m.body = .fwdResult st sub n res e out) (hno : r.answered m 0x21 = none) (hans : r.answered m 0x20 = some q) :
    let u := r.chargeFree m.dstPart 10 (ceilDiv (bodySize m.body) 64)
    let k := u.col.open'.find? fun k => k.root && k.fanout && k.id == q.txn
    r.onFwdResult m = ((k.elim u u.delColl).dropReq q.txn).deliver q.cmd q.key
      (OwnerAns.bytes { status := st, sub := sub, counter := n, result := res, edition := e, out := k.elim [] fanBytes ++ out }) := by
  simp only [State.onFwdResult, hbody, State.answered_chargeFree, hno, hans]

/-! ## A peer that does not know the epoch (13 R415) -/

theorem exec_epochStale_of_no_request (hrec : s.receive m = (r, true)) (hty : m.ty = 0x28) (hreq : r.req m.txn = none) :
    exec (.epochStale m) s = .next r := by
  rw [exec, execEpochStale, State.onMsg_of_receive hrec hty, hreq]

/-- What the origin does for a command whose request met EPOCH_STALE, by the kind of the request (13 R415). -/
theorem exec_epochStale_of_request {c : Cmd} (hrec : s.receive m = (r, true)) (hty : m.ty = 0x28) (hreq : r.req m.txn = some q)
    (hcmd : (r.dropReq q.txn).cmd q.cmd = some c) :
    exec (.epochStale m) s = .next
      (if q.msg.ty == 0x20 then ((r.dropReq q.txn).bump (pGwe + 0x0A0) 1).readmit c
        else if q.msg.ty == 0x21 then (r.dropReq q.txn).restage c q.key
        else if q.msg.ty == 0x10 then goOn c.id (((r.dropReq q.txn).countEnd stStale 0).badPeers c stStale 0)
        else r.dropReq q.txn) := by
  simp only [exec, execEpochStale, State.onMsg_of_receive hrec hty, hreq, hcmd]

end Origin

/-- Settles O39: the owner refuses what it does not own and takes the rest as commands; at the origin each answer finds the request it names and does for its command what the kind of the request asks. -/
theorem forwardedWorkReachesItsOwnerAndOrigin : Obligations.ForwardedWorkReachesItsOwnerAndOrigin := by
  unfold Obligations.ForwardedWorkReachesItsOwnerAndOrigin
  intro m s r hrec
  refine ⟨?search, ?update, ?accepted, ?unasked, ?updateResult, ?searchResult, ?staleUnasked, ?stale⟩
  case search =>
    intro num dw q hty hbody
    rw [exec, execSearchReq, State.onMsg_of_receive hrec hty]
    exact ⟨fun h => congrArg _ (State.onSearchReq_of_not_owned hbody h),
      fun u hpart hown hpol => congrArg _ (State.onSearchReq_of_owned hbody hpart hown hpol)⟩
  case update =>
    intro num dw q hty hbody
    rw [exec, execUpdateReq, State.onMsg_of_receive hrec hty]
    exact ⟨fun h => congrArg _ (State.onUpdateReq_of_not_owned hbody h),
      fun u hpart hown hpol => congrArg _ (State.onUpdateReq_of_owned hbody hpart hown hpol)⟩
  case accepted =>
    intro q hty hans
    rw [exec_fwdAccept_of_receive hrec hty, hans, Option.elim_some]
  case unasked =>
    intro hty hans
    rw [exec_fwdAccept_of_receive hrec hty, hans, Option.elim_none]
  case updateResult =>
    intro st sub n res e out q hty hbody hans
    rw [exec, execFwdResult, State.onMsg_of_receive hrec hty]
    exact congrArg _ (State.onFwdResult_of_update hbody hans)
  case searchResult =>
    intro st sub n res e out q hty hbody hno hans
    rw [exec, execFwdResult, State.onMsg_of_receive hrec hty]
    exact congrArg _ (State.onFwdResult_of_search hbody hno hans)
  case staleUnasked => exact fun hty hreq => exec_epochStale_of_no_request hrec hty hreq
  case stale =>
    intro q c hty hreq hcmd
    rw [exec_epochStale_of_request hrec hty hreq hcmd]
    refine ⟨fun hq => ?_, fun hq => ?_, fun hq => ?_⟩ <;> rw [hq] <;> rfl

end Sys2Proof.Machine
end

section
/-! SUPPORT. The commit phase and the edition it publishes: the newest record of a target before and after its stage is committed (spec 08 R253, R256, R258, R260, 06 R178). -/

namespace Sys2Proof.Machine

/-! ## Updates of HBM alone -/

/-- `t` is `s` but for HBM: its bytes, its tags and its overlays. -/
def HbmOnly (s t : State) : Prop := ∃ h, t = { s with hbm := h }

theorem HbmOnly.refl (s : State) : HbmOnly s s := ⟨s.hbm, rfl⟩

theorem HbmOnly.trans {s t u : State} (h : HbmOnly s t) (k : HbmOnly t u) : HbmOnly s u := by
  obtain ⟨m, rfl⟩ := h
  obtain ⟨m', rfl⟩ := k
  exact ⟨m', rfl⟩

theorem HbmOnly.foldl {α : Type} {f : State → α → State} (h : ∀ s x, HbmOnly s (f s x)) : ∀ (l : List α) (s : State), HbmOnly s (l.foldl f s)
  | [], s => .refl s
  | x :: l, s => (h s x).trans (HbmOnly.foldl h l (f s x))

theorem State.hbmWrite_hbmOnly (s : State) (f o tag : Nat) (d : List Byte) : HbmOnly s (s.hbmWrite f o tag d) := by
  unfold State.hbmWrite
  split
  · exact .refl s
  · exact ⟨_, rfl⟩

theorem State.devWrite_hbmOnly (s : State) (a : Nat) (d : List Byte) : HbmOnly s (s.devWrite a d) := by
  unfold State.devWrite
  split
  · exact s.hbmWrite_hbmOnly _ _ _ _
  · exact .refl s

theorem State.settleRow_hbmOnly (s : State) (r : StagedRow) (e : Nat) : HbmOnly s (s.settleRow r e) := by
  unfold State.settleRow
  split
  · exact .refl s
  · exact s.hbmWrite_hbmOnly _ _ _ _

theorem State.publishRow_hbmOnly (s : State) (owner : Option Target) (r : StagedRow) (e : Nat) : HbmOnly s (s.publishRow owner r e) := by
  refine (s.settleRow_hbmOnly r e).trans ?_
  unfold State.publishRow
  dsimp only
  split <;> exact ⟨_, rfl⟩

theorem State.moveCounts_hbmOnly (s : State) (l : List (Nat × Nat × Bool)) : HbmOnly s (s.moveCounts l) :=
  HbmOnly.foldl (fun s _ => s.devWrite_hbmOnly _ _) _ s

/-! ## The latest edition (08 R253) -/

theorem State.latest_congr {s t : State} (hr : t.regions = s.regions) (hs : t.shards = s.shards) (x : Target) : t.latest x = s.latest x := by
  cases x <;> simp only [State.latest, State.region, State.shard, hr, hs]

theorem HbmOnly.latest {s t : State} (h : HbmOnly s t) (x : Target) : t.latest x = s.latest x := by
  obtain ⟨m, rfl⟩ := h
  exact State.latest_congr rfl rfl x

theorem State.latest_of_shard {s : State} {n : Nat} {x : Shard} {r : ShardRec} (hx : s.shard n = some x) (hr : x.recs.head? = some r) :
    s.latest (.shard n) = r.edition := by
  simp only [State.latest, hx, hr, Option.elim_some]

theorem State.latest_of_region {s : State} {k : Nat} {x : Region} {r : RegRec} (hx : s.region k = some x) (hr : x.recs.head? = some r) :
    s.latest (.region k) = r.edition := by
  simp only [State.latest, hx, hr, Option.elim_some]

/-! ## Lists searched by a key -/

section Keyed
variable {α : Type} {key : α → Nat}

theorem find?_key_map {f : α → α} (hf : ∀ x, key (f x) = key x) (l : List α) (k : Nat) :
    (l.map f).find? (fun x => key x == k) = (l.find? fun x => key x == k).map f := by
  simp only [List.find?_map, Function.comp_def, hf]

/-- A new entry is found under its key once the entries of that key are gone. -/
theorem find?_key_append_new (l : List α) {k : Nat} {x : α} (hx : key x = k) :
    (l.filter (fun y => key y != k) ++ [x]).find? (fun y => key y == k) = some x := by
  have hgone : (l.filter fun y => key y != k).find? (fun y => key y == k) = none := by simp
  rw [List.find?_append, hgone, Option.none_or]
  simp [hx]

/-- An entry is found under its key once it has replaced the one found there. -/
theorem find?_key_replace {l : List α} {k : Nat} {x y : α} (hx : l.find? (fun x => key x == k) = some x) (hy : key y = key x) :
    (l.map fun z => if key z == key y then y else z).find? (fun z => key z == k) = some y := by
  have hkey : ∀ z, key (if key z == key y then y else z) = key z := by
    intro z
    split
    · next h => exact (beq_iff_eq.1 h).symm
    · rfl
  rw [find?_key_map hkey, hx, Option.map_some, hy, beq_self_eq_true, if_pos rfl]

end Keyed

theorem State.shard_of_appended {s : State} {l : List Shard} {n : Nat} {x : Shard} (h : s.shards = l.filter (fun y => y.num != n) ++ [x])
    (hx : x.num = n) : s.shard n = some x := by
  rw [State.shard, h, find?_key_append_new l hx]

theorem State.region_of_appended {s : State} {l : List Region} {k : Nat} {x : Region} (h : s.regions = l.filter (fun y => y.ctx != k) ++ [x])
    (hx : x.ctx = k) : s.region k = some x := by
  rw [State.region, h, find?_key_append_new l hx]

theorem State.shard_setShard {s : State} {n : Nat} {x y : Shard} (hx : s.shard n = some x) (hy : y.num = x.num) : (s.setShard y).shard n = some y :=
  find?_key_replace (key := Shard.num) hx hy

theorem State.region_setRegion {s : State} {k : Nat} {x y : Region} (hx : s.region k = some x) (hy : y.ctx = x.ctx) : (s.setRegion y).region k = some y :=
  find?_key_replace (key := Region.ctx) hx hy

/-! ## A target's stage is committed (08 R256, R258) -/

/-- Pruning keeps the newest record: it is the one at or below the floor, or lies above it. -/
theorem head?_pruneRecs {α : Type} {ed : α → Nat} {a : α} {l : List α} (h : ∀ r ∈ l, ed r ≤ ed a) (floor : Nat) :
    (pruneRecs ed floor (a :: l)).head? = some a := by
  unfold pruneRecs
  by_cases hfloor : floor < ed a
  · simp [hfloor]
  · have hnone : (a :: l).filter (fun r => decide (floor < ed r)) = [] := by
      refine List.filter_eq_nil_iff.2 fun r hr => ?_
      have hle : ed r ≤ ed a := by
        obtain rfl | hr := List.mem_cons.1 hr
        · exact Nat.le_refl _
        · exact h r hr
      simp only [decide_eq_true_eq]
      omega
    simp [hnone, Nat.not_lt.1 hfloor]

/-- The edition a stage publishes (08 R253). -/
def State.stageEdition (s : State) (g : Stage) : Nat := if g.bind && !g.keep then 1 else s.latest g.target + 1

/-- The record of a stage's target takes edition `e`. -/
def State.commitTarget (s : State) (part e : Nat) (g : Stage) : State :=
  match g.target with
  | .region ctx => s.commitRegion part ctx e g
  | .shard n => s.commitShard part n e g

/-- The target is bound, and none of its records is later than its latest edition. -/
def State.NewestFirst (s : State) : Target → Prop
  | .shard n => ∃ x, s.shard n = some x ∧ ∀ r ∈ x.recs, r.edition ≤ s.latest (.shard n)
  | .region k => ∃ x, s.region k = some x ∧ ∀ r ∈ x.recs, r.edition ≤ s.latest (.region k)

theorem HbmOnly.newestFirst {s t : State} (h : HbmOnly s t) {x : Target} (hs : s.NewestFirst x) : t.NewestFirst x := by
  obtain ⟨m, rfl⟩ := h
  cases x <;> exact hs

theorem State.latest_commitTarget_of_bind (s : State) (part e : Nat) {g : Stage} (hbind : g.bind = true) :
    (s.commitTarget part e g).latest g.target = e := by
  unfold State.commitTarget
  cases g.target with
  | region k =>
    dsimp only
    rw [State.commitRegion, if_pos hbind]
    exact State.latest_of_region (r := RegRec.start.apply e g.delta) (State.region_of_appended (l := s.regions) rfl rfl) rfl
  | shard n =>
    dsimp only
    rw [State.commitShard, if_pos hbind]
    exact State.latest_of_shard (r := ShardRec.start.apply e g.delta) (State.shard_of_appended (l := s.shards) rfl rfl) rfl

theorem State.latest_commitTarget_of_newestFirst {s : State} (part : Nat) {e : Nat} {g : Stage} (hbind : g.bind = false)
    (hrecs : s.NewestFirst g.target) (he : s.latest g.target ≤ e) : (s.commitTarget part e g).latest g.target = e := by
  unfold State.commitTarget
  cases htarget : g.target with
  | region k =>
    obtain ⟨x, hx, hle⟩ : s.NewestFirst (.region k) := htarget ▸ hrecs
    have hold : ∀ r ∈ x.recs, r.edition ≤ e := fun r hr => Nat.le_trans (hle r hr) (htarget ▸ he)
    simp only [State.commitRegion, hbind, Bool.false_eq_true, if_false, hx]
    exact State.latest_of_region (r := (x.recs.head?.getD RegRec.start).apply e g.delta) (State.region_setRegion (x := x) hx rfl) (head?_pruneRecs hold _)
  | shard n =>
    obtain ⟨x, hx, hle⟩ : s.NewestFirst (.shard n) := htarget ▸ hrecs
    have hold : ∀ r ∈ x.recs, r.edition ≤ e := fun r hr => Nat.le_trans (hle r hr) (htarget ▸ he)
    simp only [State.commitShard, hbind, Bool.false_eq_true, if_false, hx]
    exact State.latest_of_shard (r := (x.recs.head?.getD ShardRec.start).apply e g.delta) (State.shard_setShard (x := x) hx rfl) (head?_pruneRecs hold _)

/-- Marking blocks changes no record. -/
theorem State.latest_markBlocks (s : State) (t : Target) (e : Nat) (bs : List Nat) : (s.markBlocks t e bs).latest t = s.latest t := by
  cases t with
  | region k =>
    have hkey : ∀ r : Region, Region.ctx (if r.ctx == k then { r with blocks := bs.foldl (fun b i => tset b i e) r.blocks } else r) = r.ctx := by
      intro r
      split <;> rfl
    simp only [State.markBlocks, State.latest, State.region, find?_key_map hkey]
    cases s.regions.find? fun r => r.ctx == k with
    | none => rfl
    | some r =>
      dsimp only [Option.map_some]
      split <;> rfl
  | shard n =>
    have hkey : ∀ x : Shard, Shard.num (if x.num == n then { x with blocks := bs.foldl (fun b i => tset b i e) x.blocks } else x) = x.num := by
      intro x
      split <;> rfl
    simp only [State.markBlocks, State.latest, State.shard, find?_key_map hkey]
    cases s.shards.find? fun x => x.num == n with
    | none => rfl
    | some x =>
      dsimp only [Option.map_some]
      split <;> rfl

/-! ## One stage (08 R256) -/

section Stages
variable {s : State} {c : Cmd} {g : Stage}

theorem State.commitStage_of_unchanged (hchanged : g.changed = false) (hbind : g.bind = false) :
    s.commitStage c g = (s.moveCounts g.delta.counts, 0) := by
  simp [State.commitStage, hchanged, hbind]

/-- The rows, the bytes and the marks of a stage that is published leave its target at the edition its record has taken. -/
theorem State.commitStage_of_published (h : (!g.changed && !g.bind) = false) :
    let u := s.moveCounts g.delta.counts
    (s.commitStage c g).2 = u.stageEdition g ∧
      (s.commitStage c g).1.latest g.target = (u.commitTarget c.part (u.stageEdition g) g).latest g.target := by
  intro u
  rw [State.commitStage, if_neg (Bool.eq_false_iff.1 h)]
  refine ⟨rfl, ?_⟩
  have hbinds := HbmOnly.foldl (fun t (p : HbmPut) => t.hbmWrite_hbmOnly p.fret p.off p.tag p.data) g.binds (u.commitTarget c.part (u.stageEdition g) g)
  have hrows := hbinds.trans (HbmOnly.foldl (fun t r => t.publishRow_hbmOnly (some g.target) r (u.stageEdition g)) g.rows _)
  have hlate := hrows.trans (HbmOnly.foldl (fun t (p : Nat × List Byte) => t.devWrite_hbmOnly p.1 p.2) g.delta.late _)
  exact (State.latest_congr rfl rfl _).trans <| (State.latest_markBlocks _ _ _ _).trans <| (State.latest_congr rfl rfl _).trans (hlate.latest g.target)

theorem State.commitStage_of_bind (hbind : g.bind = true) (hkeep : g.keep = false) :
    (s.commitStage c g).2 = 1 ∧ (s.commitStage c g).1.latest g.target = 1 := by
  have hfirst : (s.moveCounts g.delta.counts).stageEdition g = 1 := by simp [State.stageEdition, hbind, hkeep]
  obtain ⟨he, hlatest⟩ := State.commitStage_of_published (s := s) (c := c) (g := g) (by simp [hbind])
  rw [he, hlatest, hfirst]
  exact ⟨rfl, State.latest_commitTarget_of_bind _ _ _ hbind⟩

theorem State.commitStage_of_changed (hchanged : g.changed = true) (hbind : g.bind = false) (hrecs : s.NewestFirst g.target) :
    (s.commitStage c g).2 = s.latest g.target + 1 ∧ (s.commitStage c g).1.latest g.target = s.latest g.target + 1 := by
  have hmoved := s.moveCounts_hbmOnly g.delta.counts
  have hnext : (s.moveCounts g.delta.counts).stageEdition g = s.latest g.target + 1 := by
    simp [State.stageEdition, hbind, hmoved.latest g.target]
  have hle : (s.moveCounts g.delta.counts).latest g.target ≤ s.latest g.target + 1 := (hmoved.latest _).symm ▸ Nat.le_succ _
  obtain ⟨he, hlatest⟩ := State.commitStage_of_published (s := s) (c := c) (g := g) (by simp [hchanged])
  rw [he, hlatest, hnext]
  exact ⟨rfl, State.latest_commitTarget_of_newestFirst _ hbind (hmoved.newestFirst hrecs) hle⟩

end Stages

/-! ## The commit phase of a window command (08 R256, R258, R281) -/

section Phase
variable {id : Nat} {s : State} {c : Cmd} {f : Finish}

/-- Only an internal side batch chains another (07 R228). -/
theorem State.autoNext_of_window (s : State) (num : Nat) (horigin : c.origin = .window) : s.autoNext c num = s := by
  simp [State.autoNext, horigin]

theorem State.foldl_autoNext_of_window (p : Nat → Bool) (horigin : c.origin = .window) (l : List Nat) (s : State) :
    l.foldl (fun s n => if p n then s.autoNext c n else s) s = s := by
  simp only [State.autoNext_of_window _ _ horigin, ite_self]
  induction l with
  | nil => rfl
  | cons n l ih => exact ih

/-- A window command that is no search has no copies and no blocks to send. -/
theorem State.endWork_of_window (s : State) (f : Finish) (horigin : c.origin = .window) (hop : c.opcode ≠ 0x10) : s.endWork c f = s.complete c f := by
  have hcopies : s.copyWalks c f = s := by simp [State.copyWalks, hop]
  simp only [State.endWork, hcopies, horigin]

theorem exec_commitPhase_of_held (hcmd : s.cmd id = some c) (hphase : c.phase = .staged) (hfin : c.fin = some f)
    (h : s.held = true ∨ s.commitTurn c f = false) : exec (.commitPhase id) s = .next s := by
  have hwait : (s.held || !s.commitTurn c f) = true := by simpa using h
  simp only [exec, execCommitPhase, hcmd, hphase, hfin, hwait, if_true]

theorem exec_commitPhase_of_turn (hcmd : s.cmd id = some c) (hphase : c.phase = .staged) (hfin : c.fin = some f) (horigin : c.origin = .window)
    (hop : c.opcode ≠ 0x10) (hheld : s.held = false) (hturn : s.commitTurn c f = true) :
    exec (.commitPhase id) s =
      .next (((s.publish c f).1.complete c
        (if isMutating c.opcode then { f with edition := f.editionUsed c.stages (s.publish c f).2 } else f)).afterPublish s c) := by
  have hgo : (s.held || !s.commitTurn c f) = false := by rw [hheld, hturn]; rfl
  have hreplay : Origin.window.isReplay = false := rfl
  simp only [exec, execCommitPhase, hcmd, hphase, hfin, hgo, Bool.false_eq_true, if_false, hreplay, horigin,
    State.foldl_autoNext_of_window _ horigin, State.endWork_of_window _ _ horigin hop]

end Phase

/-- Settles O17: a commit phase that has its turn publishes its stages and completes; the newest record of a target carries edition 1 after a bind and the next edition after a change. -/
theorem commitsPublishTheNextEdition : Obligations.CommitsPublishTheNextEdition := by
  unfold Obligations.CommitsPublishTheNextEdition
  refine ⟨fun id s c f hcmd hphase hfin horigin hop => ⟨?waits, ?commits⟩, fun s c g => ⟨?unchanged, ?bind, ?changed⟩⟩
  case waits => exact exec_commitPhase_of_held hcmd hphase hfin
  case commits => exact exec_commitPhase_of_turn hcmd hphase hfin horigin hop
  case unchanged =>
    intro hchanged hbind
    rw [State.commitStage_of_unchanged hchanged hbind]
    refine ⟨rfl, fun hcounts => ?_⟩
    rw [hcounts]
    rfl
  case bind => exact State.commitStage_of_bind
  case changed =>
    intro hchanged hbind hrecs
    have hnewest : s.NewestFirst g.target := by
      cases htarget : g.target with
      | shard n => rwa [htarget] at hrecs
      | region k => rwa [htarget] at hrecs
    exact State.commitStage_of_changed hchanged hbind hnewest

end Sys2Proof.Machine
end

section
/-! SUPPORT. No command stops the block, and what each of them keeps (spec 09 R314, 16 R483; log entries 3 and 4). -/

namespace Sys2Proof.Machine

/-! ## Answers that go on -/

theorem Goes.next (t : State) : Goes (.next t) := ⟨t, rfl⟩

theorem Goes.withFence {a : Answer} (h : Goes a) (old : State) : Goes (withFence old a) := by
  obtain ⟨t, rfl⟩ := h
  exact .next _

theorem State.frame_goes (s : State) (i : Instr) (f : Frame) (op : Nat) (tags : TagRule) (n : Nat) (ok : Bool) (go : Frame → State → State) :
    Goes (s.frame i f op tags n ok go) := by
  unfold State.frame
  dsimp only
  repeat' split
  all_goals exact .next _

theorem qloadGo_goes (f : Frame) (s : State) : Goes (qloadGo f s) := by
  unfold qloadGo
  exact State.frame_goes ..

theorem qscrubGo_goes (f : Frame) (s : State) : Goes (qscrubGo f s) := by
  unfold qscrubGo
  exact State.frame_goes ..

theorem strumGo_goes (f : Frame) (flaws : List Flaw) (s : State) : Goes (strumGo f flaws s) := by
  unfold strumGo
  exact State.frame_goes ..

theorem pluckGo_goes (f : Frame) (flaws : List Flaw) (s : State) : Goes (pluckGo f flaws s) := by
  unfold pluckGo
  exact State.frame_goes ..

theorem histGo_goes (f : Frame) (s : State) : Goes (histGo f s) := by
  unfold histGo
  exact State.frame_goes ..

theorem listGo_goes (f : Frame) (s : State) : Goes (listGo f s) := by
  unfold listGo
  exact State.frame_goes ..

theorem expsumGo_goes (f : Frame) (s : State) : Goes (expsumGo f s) := by
  unfold expsumGo
  exact State.frame_goes ..

theorem vaccGo_goes (f : Frame) (flaws : List Flaw) (s : State) : Goes (vaccGo f flaws s) := by
  unfold vaccGo
  exact State.frame_goes ..

theorem stringGo_goes (f : Frame) (s : State) : Goes (stringGo f s) := by
  unfold stringGo
  exact State.frame_goes ..

theorem stageWriteGo_goes (f : Frame) (flaws : List Flaw) (s : State) : Goes (stageWriteGo f flaws s) := by
  unfold stageWriteGo
  exact State.frame_goes ..

theorem commitRowGo_goes (f : Frame) (flaws : List Flaw) (s : State) : Goes (commitRowGo f flaws s) := by
  unfold commitRowGo
  exact State.frame_goes ..

theorem State.onAttest_goes (s : State) (t : Transport) (code seq : Nat) (f : State → State) : Goes (s.onAttest t code seq f) := by
  unfold State.onAttest
  repeat' split
  all_goals exact .next _

theorem State.inSession_goes (s : State) (p : Port) (code seq part : Nat) (msg : List Byte) (f : List Byte → State → State) :
    Goes (s.inSession p code seq part msg f) := State.onAttest_goes ..

theorem State.onEb_goes (s : State) (t : Transport) (ver cls code seq since stage : Nat) (f : State → Nat × List Byte × State) :
    Goes (s.onEb t ver cls code seq since stage f) := by
  unfold State.onEb
  repeat' split
  all_goals exact .next _

theorem State.onControl_goes (s : State) (f : State → State) : Goes (s.onControl f) := by
  unfold State.onControl
  split <;> exact .next _

/-! ## One arm for each command of the table -/

/-- Every arm answers a next state, whichever of its branches is taken. -/
theorem exec_goes (c : Instr) (s : State) : Goes (exec c s) := by
  cases c with
  | pushWindowWrite _ _ _ _ | nop _ | corpusSearch _ | scan _ | rerank _ | attend _ | kvAppend _ | kvTrim _ | gather _ | scatterUpdate _ | insert _
  | delete _ | consolidate _ | prefetch _ | buildGraph _ | calibrate _ | requant _ | topkMerge _ | checkpoint _ | restore _ | flashTrim _ | flashRead _
  | flashWrite _ | spareCopyDone _ | waveBoundary _ | collOpen _ | collGrant _ | collData _ | collDone _ | collAbort _ | barArrive _ | barRelease _
  | dupPairExpiry _ _ | poolRd _ | poolData _ | poolWr _ | poolAck _ | refuse _ | searchReq _ | updateReq _ | fwdAccept _ | fwdResult _ | epochStale _
  | compPrepare _ | compReady _ | compActivate _ | compActive _ | compRetired _ | compAbort _ | compQuery _ | logReq _ | logData _ | shadowCopy _
  | shadowResult _ | shadowReady _ | shadowCopyTimeout _ _ | partitionFenceWrite _ _ | flashReadDone _ _ _ | flushComplete | holdEnter _ | vmonRst _
  | lctrSourceSwitch _ _ | pegStatBindWrite _ _ | pegStatSelWrite _ _ | errClear _ _ _ | errInjWrite _ _ _ | glbEvtSelWrite _ _ | registerWrite _ _ _
  | msixCoalesceTimer _ | msixUnmask _ _ _ | enable _ | disable _ | clear _ | fault _ | unbind _ | mergedMReturn _ | partialValueSums _ => exact .next _
  -- commands that wait, walks, and work the device starts by itself
  | fence _ | admissionWaitEnd _ | sideFull _ | stageResume _ | commitPhase _ | subBatchStart _ | walkStart _ | expansionComplete _ _ | sideStrumBatch _
  | autoConsolidate _ | sweepBatch _ | migrationPass _ _ | autoFullCheckpoint _ | periodicCheckpoint _ | commandRerun _ | overlayFold _ _ =>
    dsimp only [exec, execFence, execAdmissionWaitEnd, execSideFull, execStageResume, execCommitPhase, execSubBatchStart, execWalkStart, execExpansionComplete,
      execSideStrumBatch, execAutoConsolidate, execSweepBatch, execMigrationPass, execAutoFullCheckpoint, execPeriodicCheckpoint, execCommandRerun,
      execOverlayFold]
    repeat' split
    all_goals exact .next _
  -- stacks, courses, collectives, links and the pool
  | stackThermal _ _ | bar4Access _ _ _ | courseParityError _ | courseFenceWrite _ _ _ | courseSelftestDone _ _ | collectiveTimeout _ _ | barrierTimeout _
  | hello _ _ | flitReceive _ _ _ | replayTimeout _ | laneFail _ _ | retrainTimeout _ | quarantineRetry _ _ | refuseResend _ | poolTimeout _ =>
    dsimp only [exec, execStackThermal, execBar4Access, execCourseParityError, execCourseFenceWrite, execCourseSelftestDone, execCollectiveTimeout, execBarrierTimeout,
      execHello, execFlitReceive, execReplayTimeout, execLaneFail, execRetrainTimeout, execQuarantineRetry, execRefuseResend, execPoolTimeout]
    repeat' split
    all_goals exact .next _
  -- composition, firmware and flash
  | mapLoad _ _ | go _ | abort _ | prepTmo | epochRetire | drainTmo | fwLoad _ _ | fwSwitch _ | fwSwitchAccept | fwFallback | fwConfirm _ _
  | programComplete _ _ _ | gcStart _ | patrolScan _ _ | dieTimeout _ | rebuildComplete _ =>
    dsimp only [exec, execMapLoad, execGo, execAbort, execPrepTmo, execEpochRetire, execDrainTmo, execFwLoad, execFwSwitch, execFwSwitchAccept, execFwFallback,
      execFwConfirm, execProgramComplete, execGcStart, execPatrolScan, execDieTimeout, execRebuildComplete]
    repeat' split
    all_goals exact .next _
  -- supplies, start and power domains
  | pwrFailN _ _ | restartAfterFlush | holdExit _ | holdMaxExpiry | thermalTrip _ | thermalRecovery _ | voltageLoopStep _ _ _ | sensorRefresh _ | pwrGood _ _
  | stage0Entry _ | stageAdvance _ | pdSwitchOn _ _ | pdSwitchOff _ _ | domainOnDone _ _ =>
    dsimp only [exec, execPwrFailN, execRestartAfterFlush, execHoldExit, execHoldMaxExpiry, execThermalTrip, execThermalRecovery, execVoltageLoopStep, execSensorRefresh,
      execPwrGood, execStage0Entry, execStageAdvance, execPdSwitchOn, execPdSwitchOff, execDomainOnDone]
    repeat' split
    all_goals exact .next _
  -- register reads, host ports and ownership
  | glbLctrLoRead _ _ | pegStatSseLoRead _ | counterLoRead _ _ | editionLoRead _ _ | rcFieldRead _ _ | badAccess _ _ _ _ | ringEnable _ _ _
  | ringDisable _ _ _ | hostReadError _ _ | pcieLinkDown _ | pcieLinkUp _ _ _ _ | functionLevelReset _ _ _ | perst _ | release _ _ _ | releaseComplete _ _
  | take _ _ _ | forcedTakeover _ _ _ =>
    dsimp only [exec, execGlbLctrLoRead, execPegStatSseLoRead, execCounterLoRead, execEditionLoRead, execRcFieldRead, execBadAccess, execRingEnable, execRingDisable,
      execHostReadError, execPcieLinkDown, execPcieLinkUp, execFunctionLevelReset, execPerst, execRelease, execReleaseComplete, execTake, execForcedTakeover]
    repeat' split
    all_goals exact .next _
  -- contexts, partitions, and what the others report
  | contextDrained _ | ctxPartSramWrite _ _ | sramShrinkDone _ | quantumExpiry _ | contextSwitch _ | preemption _ | capoRefill _ | capoDepthWrite _ _ _ _ _
  | ideDrop _ _ _ | takeoverAuthLapse | patrolScrub _ _ | eraseComplete _ _ | quadrantReferenceLost _ | hostReadCompletion _ _ _ | flapWindowEnd _
  | takeoverGraceExpiry _ =>
    dsimp only [exec, execContextDrained, execCtxPartSramWrite, execSramShrinkDone, execQuantumExpiry, execContextSwitch, execPreemption, execCapoRefill,
      execCapoDepthWrite, execIdeDrop, execTakeoverAuthLapse, execPatrolScrub, execEraseComplete, execQuadrantReferenceLost, execHostReadCompletion,
      execFlapWindowEnd, execTakeoverGraceExpiry]
    repeat' split
    all_goals exact .next _
  -- fret frames
  | qload f => exact (qloadGo_goes f s).withFence s
  | qscrub f => exact (qscrubGo_goes f s).withFence s
  | strum f flaws => exact (strumGo_goes f flaws s).withFence s
  | pluck f flaws => exact (pluckGo_goes f flaws s).withFence s
  | hist f => exact (histGo_goes f s).withFence s
  | list f => exact (listGo_goes f s).withFence s
  | expsum f => exact (expsumGo_goes f s).withFence s
  | vacc x => exact (vaccGo_goes x.frame x.flaws s).withFence s
  | string f => exact (stringGo_goes f s).withFence s
  | stageWrite x => exact (stageWriteGo_goes x.frame x.flaws s).withFence s
  | commitRow f flaws => exact (commitRowGo_goes f flaws s).withFence s
  -- attestation, sessions, management
  | getInfo _ _ | getCert _ _ _ _ | getReport _ _ _ | sessionOpen _ _ _ | sessionKey _ _ _ _ =>
    dsimp only [exec, execGetInfo, execGetCert, execGetReport, execSessionOpen, execSessionKey]
    exact State.onAttest_goes ..
  | setIdeKey _ _ _ _ | confidentialEnter _ _ _ _ | confidentialExit _ _ _ _ | sessionClose _ _ _ _ =>
    dsimp only [exec, execSetIdeKey, execConfidentialEnter, execConfidentialExit, execSessionClose]
    exact State.inSession_goes ..
  | getVersion _ _ _ | getStatus _ _ _ | readReg _ _ _ _ _ | writeReg _ _ _ _ _ _ | setLimits _ _ _ _ _ _ _ | pdControl _ _ _ _ _ | takeoverAuth _ _ _ _ _
  | getSensors _ _ _ | getEvents _ _ _ _ _ | getCounters _ _ _ _ _ _ =>
    dsimp only [exec, execGetVersion, execGetStatus, execReadReg, execWriteReg, execSetLimits, execPdControl, execTakeoverAuth, execGetSensors, execGetEvents,
      execGetCounters]
    exact State.onEb_goes ..
  | setEndpointId _ | getEndpointId | getMctpVersionSupport _ | getMessageTypeSupport | getVendorDefinedMsgSupport _ | dynamicAddressAssign _ =>
    dsimp only [exec, execSetEndpointId, execGetEndpointId, execGetMctpVersionSupport, execGetMessageTypeSupport, execGetVendorDefinedMsgSupport, execDynamicAddressAssign]
    exact State.onControl_goes ..
  | reset _ _ _ =>
    dsimp only [exec, execReset]
    split
    · exact .next _
    · exact State.onEb_goes ..

/-- Every arm keeps what every operation keeps. -/
theorem exec_keeps (c : Instr) (s : State) : KeepsA s (exec c s) := by
  cases c with
  | pushWindowWrite _ _ _ _ => exact execPushWindowWrite_keeps (.refl s)
  | nop _ => exact execNop_keeps (.refl s)
  | fence _ => exact execFence_keeps (.refl s)
  | corpusSearch _ => exact execCorpusSearch_keeps (.refl s)
  | scan _ => exact execScan_keeps (.refl s)
  | rerank _ => exact execRerank_keeps (.refl s)
  | attend _ => exact execAttend_keeps (.refl s)
  | kvAppend _ => exact execKvAppend_keeps (.refl s)
  | kvTrim _ => exact execKvTrim_keeps (.refl s)
  | gather _ => exact execGather_keeps (.refl s)
  | scatterUpdate _ => exact execScatterUpdate_keeps (.refl s)
  | insert _ => exact execInsert_keeps (.refl s)
  | delete _ => exact execDelete_keeps (.refl s)
  | consolidate _ => exact execConsolidate_keeps (.refl s)
  | prefetch _ => exact execPrefetch_keeps (.refl s)
  | buildGraph _ => exact execBuildGraph_keeps (.refl s)
  | calibrate _ => exact execCalibrate_keeps (.refl s)
  | requant _ => exact execRequant_keeps (.refl s)
  | topkMerge _ => exact execTopkMerge_keeps (.refl s)
  | checkpoint _ => exact execCheckpoint_keeps (.refl s)
  | restore _ => exact execRestore_keeps (.refl s)
  | flashTrim _ => exact execFlashTrim_keeps (.refl s)
  | flashRead _ => exact execFlashRead_keeps (.refl s)
  | flashWrite _ => exact execFlashWrite_keeps (.refl s)
  | admissionWaitEnd _ => exact execAdmissionWaitEnd_keeps (.refl s)
  | sideFull _ => exact execSideFull_keeps (.refl s)
  | stageResume _ => exact execStageResume_keeps (.refl s)
  | commitPhase _ => exact execCommitPhase_keeps (.refl s)
  | subBatchStart _ => exact execSubBatchStart_keeps (.refl s)
  | walkStart _ => exact execWalkStart_keeps (.refl s)
  | expansionComplete _ _ => exact execExpansionComplete_keeps (.refl s)
  | sideStrumBatch _ => exact execSideStrumBatch_keeps (.refl s)
  | autoConsolidate _ => exact execAutoConsolidate_keeps (.refl s)
  | sweepBatch _ => exact execSweepBatch_keeps (.refl s)
  | migrationPass _ _ => exact execMigrationPass_keeps (.refl s)
  | autoFullCheckpoint _ => exact execAutoFullCheckpoint_keeps (.refl s)
  | periodicCheckpoint _ => exact execPeriodicCheckpoint_keeps (.refl s)
  | commandRerun _ => exact execCommandRerun_keeps (.refl s)
  | qload _ => exact execQload_keeps (.refl s)
  | qscrub _ => exact execQscrub_keeps (.refl s)
  | strum _ _ => exact execStrum_keeps (.refl s)
  | pluck _ _ => exact execPluck_keeps (.refl s)
  | hist _ => exact execHist_keeps (.refl s)
  | list _ => exact execList_keeps (.refl s)
  | expsum _ => exact execExpsum_keeps (.refl s)
  | vacc _ => exact execVacc_keeps (.refl s)
  | string _ => exact execString_keeps (.refl s)
  | stageWrite _ => exact execStageWrite_keeps (.refl s)
  | commitRow _ _ => exact execCommitRow_keeps (.refl s)
  | overlayFold _ _ => exact execOverlayFold_keeps (.refl s)
  | spareCopyDone _ => exact execSpareCopyDone_keeps (.refl s)
  | stackThermal _ _ => exact execStackThermal_keeps (.refl s)
  | bar4Access _ _ _ => exact execBar4Access_keeps (.refl s)
  | waveBoundary _ => exact execWaveBoundary_keeps (.refl s)
  | courseParityError _ => exact execCourseParityError_keeps (.refl s)
  | courseFenceWrite _ _ _ => exact execCourseFenceWrite_keeps (.refl s)
  | courseSelftestDone _ _ => exact execCourseSelftestDone_keeps (.refl s)
  | collOpen _ => exact execCollOpen_keeps (.refl s)
  | collGrant _ => exact execCollGrant_keeps (.refl s)
  | collData _ => exact execCollData_keeps (.refl s)
  | collDone _ => exact execCollDone_keeps (.refl s)
  | collAbort _ => exact execCollAbort_keeps (.refl s)
  | collectiveTimeout _ _ => exact execCollectiveTimeout_keeps (.refl s)
  | barArrive _ => exact execBarArrive_keeps (.refl s)
  | barRelease _ => exact execBarRelease_keeps (.refl s)
  | barrierTimeout _ => exact execBarrierTimeout_keeps (.refl s)
  | hello _ _ => exact execHello_keeps (.refl s)
  | flitReceive _ _ _ => exact execFlitReceive_keeps (.refl s)
  | replayTimeout _ => exact execReplayTimeout_keeps (.refl s)
  | laneFail _ _ => exact execLaneFail_keeps (.refl s)
  | retrainTimeout _ => exact execRetrainTimeout_keeps (.refl s)
  | quarantineRetry _ _ => exact execQuarantineRetry_keeps (.refl s)
  | dupPairExpiry _ _ => exact execDupPairExpiry_keeps (.refl s)
  | poolRd _ => exact execPoolRd_keeps (.refl s)
  | poolData _ => exact execPoolData_keeps (.refl s)
  | poolWr _ => exact execPoolWr_keeps (.refl s)
  | poolAck _ => exact execPoolAck_keeps (.refl s)
  | refuse _ => exact execRefuse_keeps (.refl s)
  | refuseResend _ => exact execRefuseResend_keeps (.refl s)
  | poolTimeout _ => exact execPoolTimeout_keeps (.refl s)
  | searchReq _ => exact execSearchReq_keeps (.refl s)
  | updateReq _ => exact execUpdateReq_keeps (.refl s)
  | fwdAccept _ => exact execFwdAccept_keeps (.refl s)
  | fwdResult _ => exact execFwdResult_keeps (.refl s)
  | epochStale _ => exact execEpochStale_keeps (.refl s)
  | mapLoad _ _ => exact execMapLoad_keeps (.refl s)
  | go _ => exact execGo_keeps (.refl s)
  | abort _ => exact execAbort_keeps (.refl s)
  | compPrepare _ => exact execCompPrepare_keeps (.refl s)
  | compReady _ => exact execCompReady_keeps (.refl s)
  | compActivate _ => exact execCompActivate_keeps (.refl s)
  | compActive _ => exact execCompActive_keeps (.refl s)
  | compRetired _ => exact execCompRetired_keeps (.refl s)
  | compAbort _ => exact execCompAbort_keeps (.refl s)
  | compQuery _ => exact execCompQuery_keeps (.refl s)
  | prepTmo => exact execPrepTmo_keeps (.refl s)
  | epochRetire => exact execEpochRetire_keeps (.refl s)
  | drainTmo => exact execDrainTmo_keeps (.refl s)
  | logReq _ => exact execLogReq_keeps (.refl s)
  | logData _ => exact execLogData_keeps (.refl s)
  | shadowCopy _ => exact execShadowCopy_keeps (.refl s)
  | shadowResult _ => exact execShadowResult_keeps (.refl s)
  | shadowReady _ => exact execShadowReady_keeps (.refl s)
  | shadowCopyTimeout _ _ => exact execShadowCopyTimeout_keeps (.refl s)
  | partitionFenceWrite _ _ => exact execPartitionFenceWrite_keeps (.refl s)
  | fwLoad _ _ => exact execFwLoad_keeps (.refl s)
  | fwSwitch _ => exact execFwSwitch_keeps (.refl s)
  | fwSwitchAccept => exact execFwSwitchAccept_keeps (.refl s)
  | fwFallback => exact execFwFallback_keeps (.refl s)
  | fwConfirm _ _ => exact execFwConfirm_keeps (.refl s)
  | flashReadDone _ _ _ => exact execFlashReadDone_keeps (.refl s)
  | programComplete _ _ _ => exact execProgramComplete_keeps (.refl s)
  | gcStart _ => exact execGcStart_keeps (.refl s)
  | patrolScan _ _ => exact execPatrolScan_keeps (.refl s)
  | dieTimeout _ => exact execDieTimeout_keeps (.refl s)
  | rebuildComplete _ => exact execRebuildComplete_keeps (.refl s)
  | pwrFailN _ _ => exact execPwrFailN_keeps (.refl s)
  | flushComplete => exact execFlushComplete_keeps (.refl s)
  | restartAfterFlush => exact execRestartAfterFlush_keeps (.refl s)
  | holdEnter _ => exact execHoldEnter_keeps (.refl s)
  | holdExit _ => exact execHoldExit_keeps (.refl s)
  | holdMaxExpiry => exact execHoldMaxExpiry_keeps (.refl s)
  | vmonRst _ => exact execVmonRst_keeps (.refl s)
  | thermalTrip _ => exact execThermalTrip_keeps (.refl s)
  | thermalRecovery _ => exact execThermalRecovery_keeps (.refl s)
  | voltageLoopStep _ _ _ => exact execVoltageLoopStep_keeps (.refl s)
  | sensorRefresh _ => exact execSensorRefresh_keeps (.refl s)
  | pwrGood _ _ => exact execPwrGood_keeps (.refl s)
  | stage0Entry _ => exact execStage0Entry_keeps (.refl s)
  | stageAdvance _ => exact execStageAdvance_keeps (.refl s)
  | pdSwitchOn _ _ => exact execPdSwitchOn_keeps (.refl s)
  | pdSwitchOff _ _ => exact execPdSwitchOff_keeps (.refl s)
  | domainOnDone _ _ => exact execDomainOnDone_keeps (.refl s)
  | lctrSourceSwitch _ _ => exact execLctrSourceSwitch_keeps (.refl s)
  | glbLctrLoRead _ _ => exact execGlbLctrLoRead_keeps (.refl s)
  | pegStatBindWrite _ _ => exact execPegStatBindWrite_keeps (.refl s)
  | pegStatSseLoRead _ => exact execPegStatSseLoRead_keeps (.refl s)
  | pegStatSelWrite _ _ => exact execPegStatSelWrite_keeps (.refl s)
  | counterLoRead _ _ => exact execCounterLoRead_keeps (.refl s)
  | editionLoRead _ _ => exact execEditionLoRead_keeps (.refl s)
  | rcFieldRead _ _ => exact execRcFieldRead_keeps (.refl s)
  | errClear _ _ _ => exact execErrClear_keeps (.refl s)
  | errInjWrite _ _ _ => exact execErrInjWrite_keeps (.refl s)
  | glbEvtSelWrite _ _ => exact execGlbEvtSelWrite_keeps (.refl s)
  | badAccess _ _ _ _ => exact execBadAccess_keeps (.refl s)
  | registerWrite _ _ _ => exact execRegisterWrite_keeps (.refl s)
  | ringEnable _ _ _ => exact execRingEnable_keeps (.refl s)
  | ringDisable _ _ _ => exact execRingDisable_keeps (.refl s)
  | msixCoalesceTimer _ => exact execMsixCoalesceTimer_keeps (.refl s)
  | msixUnmask _ _ _ => exact execMsixUnmask_keeps (.refl s)
  | hostReadError _ _ => exact execHostReadError_keeps (.refl s)
  | pcieLinkDown _ => exact execPcieLinkDown_keeps (.refl s)
  | pcieLinkUp _ _ _ _ => exact execPcieLinkUp_keeps (.refl s)
  | functionLevelReset _ _ _ => exact execFunctionLevelReset_keeps (.refl s)
  | perst _ => exact execPerst_keeps (.refl s)
  | release _ _ _ => exact execRelease_keeps (.refl s)
  | releaseComplete _ _ => exact execReleaseComplete_keeps (.refl s)
  | take _ _ _ => exact execTake_keeps (.refl s)
  | forcedTakeover _ _ _ => exact execForcedTakeover_keeps (.refl s)
  | enable _ => exact execEnable_keeps (.refl s)
  | disable _ => exact execDisable_keeps (.refl s)
  | clear _ => exact execClear_keeps (.refl s)
  | fault _ => exact execFault_keeps (.refl s)
  | unbind _ => exact execUnbind_keeps (.refl s)
  | contextDrained _ => exact execContextDrained_keeps (.refl s)
  | ctxPartSramWrite _ _ => exact execCtxPartSramWrite_keeps (.refl s)
  | sramShrinkDone _ => exact execSramShrinkDone_keeps (.refl s)
  | quantumExpiry _ => exact execQuantumExpiry_keeps (.refl s)
  | contextSwitch _ => exact execContextSwitch_keeps (.refl s)
  | preemption _ => exact execPreemption_keeps (.refl s)
  | capoRefill _ => exact execCapoRefill_keeps (.refl s)
  | capoDepthWrite _ _ _ _ _ => exact execCapoDepthWrite_keeps (.refl s)
  | getInfo _ _ => exact execGetInfo_keeps (.refl s)
  | getCert _ _ _ _ => exact execGetCert_keeps (.refl s)
  | getReport _ _ _ => exact execGetReport_keeps (.refl s)
  | sessionOpen _ _ _ => exact execSessionOpen_keeps (.refl s)
  | sessionKey _ _ _ _ => exact execSessionKey_keeps (.refl s)
  | setIdeKey _ _ _ _ => exact execSetIdeKey_keeps (.refl s)
  | confidentialEnter _ _ _ _ => exact execConfidentialEnter_keeps (.refl s)
  | confidentialExit _ _ _ _ => exact execConfidentialExit_keeps (.refl s)
  | sessionClose _ _ _ _ => exact execSessionClose_keeps (.refl s)
  | ideDrop _ _ _ => exact execIdeDrop_keeps (.refl s)
  | getVersion _ _ _ => exact execGetVersion_keeps (.refl s)
  | getStatus _ _ _ => exact execGetStatus_keeps (.refl s)
  | readReg _ _ _ _ _ => exact execReadReg_keeps (.refl s)
  | writeReg _ _ _ _ _ _ => exact execWriteReg_keeps (.refl s)
  | reset _ _ _ => exact execReset_keeps (.refl s)
  | setLimits _ _ _ _ _ _ _ => exact execSetLimits_keeps (.refl s)
  | pdControl _ _ _ _ _ => exact execPdControl_keeps (.refl s)
  | takeoverAuth _ _ _ _ _ => exact execTakeoverAuth_keeps (.refl s)
  | takeoverAuthLapse => exact execTakeoverAuthLapse_keeps (.refl s)
  | getSensors _ _ _ => exact execGetSensors_keeps (.refl s)
  | getEvents _ _ _ _ _ => exact execGetEvents_keeps (.refl s)
  | getCounters _ _ _ _ _ _ => exact execGetCounters_keeps (.refl s)
  | setEndpointId _ => exact execSetEndpointId_keeps (.refl s)
  | getEndpointId => exact execGetEndpointId_keeps (.refl s)
  | getMctpVersionSupport _ => exact execGetMctpVersionSupport_keeps (.refl s)
  | getMessageTypeSupport => exact execGetMessageTypeSupport_keeps (.refl s)
  | getVendorDefinedMsgSupport _ => exact execGetVendorDefinedMsgSupport_keeps (.refl s)
  | dynamicAddressAssign _ => exact execDynamicAddressAssign_keeps (.refl s)
  | patrolScrub _ _ => exact execPatrolScrub_keeps (.refl s)
  | eraseComplete _ _ => exact execEraseComplete_keeps (.refl s)
  | quadrantReferenceLost _ => exact execQuadrantReferenceLost_keeps (.refl s)
  | hostReadCompletion _ _ _ => exact execHostReadCompletion_keeps (.refl s)
  | mergedMReturn _ => exact execMergedMReturn_keeps (.refl s)
  | partialValueSums _ => exact execPartialValueSums_keeps (.refl s)
  | flapWindowEnd _ => exact execFlapWindowEnd_keeps (.refl s)
  | takeoverGraceExpiry _ => exact execTakeoverGraceExpiry_keeps (.refl s)

/-- Settles O6: each arm of the table goes on, and what `Keeps` says of it gives the queue and the names. -/
theorem everyCommandGoesOn : Obligations.EveryCommandGoesOn := by
  unfold Obligations.EveryCommandGoesOn
  refine ⟨exec_goes, fun c s t h => ?_⟩
  obtain ⟨queue, _, _, free, nextCmd, nextTxn⟩ := exec_keeps c s t h
  exact ⟨queue, free, nextCmd, nextTxn⟩

end Sys2Proof.Machine
end

section
/-! SUPPORT. Push windows: the bytes of a slot, and the submission of a descriptor (spec 09 R290, R291, R293, R297, R305; log entry 154). -/

namespace Sys2Proof.Machine

/-! ## One byte of a window -/

theorem windowParts_byte (off : Nat) (b : Byte) : windowParts 2 off [b] = [(off, [b])] := by
  obtain ⟨n, hn⟩ : ∃ n, 4096 - off % 4096 = n + 1 := ⟨4095 - off % 4096, by omega⟩
  simp [windowParts, hn]

theorem exec_pushWindowWrite_byte {p : Port} {fn off : Nat} {s : State} (b : Byte) (hlive : s.windowLive p fn (off / 4096 % 4096) = true) :
    exec (.pushWindowWrite p fn off [b]) s = .next (s.slotByte p fn (off / 4096 % 4096) (off % 4096) b) := by
  simp only [exec, execPushWindowWrite, List.length_singleton, Nat.reduceDiv, Nat.zero_add, windowParts_byte, List.foldl_cons, List.foldl_nil, hlive, if_true,
    State.windowBytes]

/-! ## Slots -/

/-- A slot in which no byte has been written. -/
def Slot.fresh : Slot := { data := zeros 128, mask := 0 }

/-- The slot of a context at an offset of its window, as it stands. -/
def State.slotAt (s : State) (p : Port) (ctx off : Nat) : Slot := (tget (s.port p).slots (slotKey ctx (off / 128))).getD Slot.fresh

/-- The slot with one byte put into it. -/
def Slot.put (x : Slot) (i : Nat) (b : Byte) : Slot := { data := x.data.set i b, mask := setBit x.mask i true }

/-- The tag of a torn slot, where both of its bytes have been written (09 R291). -/
def Slot.tag (x : Slot) : Nat := if bitOf x.mask 4 && bitOf x.mask 5 then le16 x.data 4 else 0xFFFF

section
variable {s : State} {p : Port} {ctx off : Nat} (fn : Nat) (b : Byte)

theorem State.slotByte_of_partial (hnew : bitOf (s.slotAt p ctx off).mask (off % 128) = false)
    (hpart : ((s.slotAt p ctx off).put (off % 128) b).mask ≠ 2 ^ 128 - 1) :
    s.slotByte p fn ctx off b = s.modPort p fun z => { z with slots := tset z.slots (slotKey ctx (off / 128)) ((s.slotAt p ctx off).put (off % 128) b) } :=
  (if_neg (Bool.eq_false_iff.1 hnew)).trans (if_neg (mt eq_of_beq hpart))

theorem State.slotByte_of_complete (hnew : bitOf (s.slotAt p ctx off).mask (off % 128) = false)
    (hfull : ((s.slotAt p ctx off).put (off % 128) b).mask = 2 ^ 128 - 1) :
    s.slotByte p fn ctx off b =
      (s.modPort p fun z => { z with slots := tdel z.slots (slotKey ctx (off / 128)) }).submit p fn ctx (words32 32 ((s.slotAt p ctx off).put (off % 128) b).data) none :=
  (if_neg (Bool.eq_false_iff.1 hnew)).trans (if_pos (beq_iff_eq.2 hfull))

theorem State.slotByte_of_torn (htorn : bitOf (s.slotAt p ctx off).mask (off % 128) = true) :
    s.slotByte p fn ctx off b =
      ((s.bump (pHif p + 0x060) 1).submit p fn ctx [] (some (s.slotAt p ctx off).tag)).modPort p
        fun z => { z with slots := tset z.slots (slotKey ctx (off / 128)) (Slot.fresh.put (off % 128) b) } :=
  if_pos htorn

end

/-! ## Submission -/

theorem State.submit_of_full {s : State} {p : Port} {ctx : Nat} (hfull : s.inflight p ctx ≥ 64) (fn : Nat) (dw : List Nat) (torn : Option Nat) :
    s.submit p fn ctx dw torn = (s.bump (pHif p + 0x068) 1).raise (pHif p) 0 :=
  if_pos hfull

/-- The command that a descriptor becomes: its partition is the context's, its priority at most the partition's PRIO_MAX (09 R297). -/
def State.submitted (s : State) (p : Port) (fn ctx : Nat) (dw : List Nat) : Cmd :=
  Cmd.start s.nextCmd (s.ctx ctx).part ctx p fn dw (min (fld (dw.getD 0 0) 15 12) (fld (s.reg32 (regKey (pCau + 0x108) (s.ctx ctx).part)) 3 0)) s.epoch s.time.lctr .window

/-- The queue with a submitted descriptor at its end, under the next name. -/
def State.enqueued (s : State) (p : Port) (c : Cmd) : State := { s.bump (pHif p + 0x040) 1 with cmds := s.cmds ++ [c], nextCmd := s.nextCmd + 1 }

theorem find?_append_of_new {l : List Cmd} {c : Cmd} (hnew : ∀ x ∈ l, x.id ≠ c.id) : (l ++ [c]).find? (fun x => x.id == c.id) = some c := by
  have hnone : l.find? (fun x => x.id == c.id) = none := List.find?_eq_none.2 fun x hx => by simpa using hnew x hx
  simp [List.find?_append, hnone]

theorem State.addCmd_counted (s : State) (p : Port) (fn ctx : Nat) (dw : List Nat) :
    let u := s.bump (pHif p + 0x040) 1
    u.addCmd (u.ctx ctx).part ctx p fn dw (min (fld (dw.getD 0 0) 15 12) (fld (u.reg32 (regKey (pCau + 0x108) (u.ctx ctx).part)) 3 0)) .window =
      (s.enqueued p (s.submitted p fn ctx dw), s.nextCmd) := rfl

/-- A descriptor that passes waits in the queue; a lowered priority is counted (09 R297). -/
theorem State.submit_of_accepted {s : State} {p : Port} {fn ctx : Nat} {dw : List Nat} (hroom : s.inflight p ctx < 64) (hcau : s.armed pCau 0 = false)
    (hctx : s.armed pCtx 0 = false) (hnew : ∀ x ∈ s.cmds, x.id ≠ s.nextCmd) (hcheck : s.generalCheck (s.submitted p fn ctx dw) = none) :
    Reports (s.enqueued p (s.submitted p fn ctx dw)) (s.submit p fn ctx dw none) := by
  have hcmd : (s.enqueued p (s.submitted p fn ctx dw)).cmd s.nextCmd = some (s.submitted p fn ctx dw) := find?_append_of_new (c := s.submitted p fn ctx dw) hnew
  have hcau' : (s.enqueued p (s.submitted p fn ctx dw)).armed pCau 0 = false := hcau
  have hctx' : (s.enqueued p (s.submitted p fn ctx dw)).armed pCtx 0 = false := hctx
  have hcheck' : (s.enqueued p (s.submitted p fn ctx dw)).generalCheck (s.submitted p fn ctx dw) = none := hcheck
  unfold State.submit
  simp only [Nat.not_le.2 hroom, if_false, State.addCmd_counted, hcmd, hcau', hctx', hcheck', Bool.false_eq_true, Bool.false_and]
  split
  · exact bump_reports _ _ _
  · exact .refl _

/-- Settles O13: a byte of a live window takes one of the three branches of its slot, and what a submission that passes leaves is its queued command. -/
theorem windowBytesBecomeCommands : Obligations.WindowBytesBecomeCommands := by
  unfold Obligations.WindowBytesBecomeCommands
  refine ⟨fun p fn off b s hlive => ?_, fun s p fn ctx dw => ⟨fun hfull => State.submit_of_full hfull fn dw none, ?_⟩⟩
  · have hi : off % 4096 % 128 = off % 128 := Nat.mod_mod_of_dvd off (by decide)
    dsimp only
    rw [exec_pushWindowWrite_byte b hlive, ← hi]
    refine ⟨fun hnew hpart => congrArg _ (State.slotByte_of_partial fn b hnew hpart), fun hnew hfull => congrArg _ (State.slotByte_of_complete fn b hnew hfull),
      fun htorn => congrArg _ (State.slotByte_of_torn fn b htorn)⟩
  · intro part cap c hroom hcau hctx hnew hcheck
    obtain ⟨r, a, b, ht⟩ := State.submit_of_accepted hroom hcau hctx hnew hcheck
    dsimp only
    rw [ht]
    exact ⟨rfl, rfl, rfl, rfl, rfl⟩

end Sys2Proof.Machine
end

section
/-! SUPPORT. Completion rings and MSI-X messages (spec 09 R284, R292, R308, R313, R319; log entry 164). -/

namespace Sys2Proof.Machine

/-! ## Rings -/

@[simp] theorem Ring.cfg_en (r : Ring) (v : Nat) : (r.cfg v).en = r.en := rfl

@[simp] theorem Ring.close_en (r : Ring) : r.close.en = false := by
  unfold Ring.close
  split <;> rfl

@[simp] theorem Ring.close_vector (r : Ring) : r.close.vector = r.vector := by
  unfold Ring.close
  split <;> rfl

@[simp] theorem Ring.close_coal (r : Ring) : r.close.coal = r.coal := by
  unfold Ring.close
  split <;> rfl

/-- A ring that closes keeps every record but a grant (09 R292). -/
theorem Ring.mem_close_held (r : Ring) (x : Rec) : x ∈ r.close.held ↔ x ∈ r.held ∧ x.kind ≠ 1 := by
  unfold Ring.close
  split
  case h_1 hnone => exact (and_iff_left_of_imp fun hx => by simpa using List.find?_eq_none.1 hnone x hx).symm
  case h_2 => simp

theorem State.ringWrite_of_ignored {s : State} {a : Agent} {p : Port}
    (h : s.reaches a (pHif p + 0x12C) = false ∨ s.ringShown a (s.selOf a (pHif p + 0x120) % 4096) = false) (v : Nat) : s.ringWrite a p v = s := by
  unfold State.ringWrite
  rcases h with h | h <;> simp [h]

section
variable {s : State} {a : Agent} {p : Port} (hreach : s.reaches a (pHif p + 0x12C) = true) (hshown : s.ringShown a (s.selOf a (pHif p + 0x120) % 4096) = true) {v : Nat}
include hreach hshown

theorem State.ringWrite_off (hv : bitOf v 31 = false) :
    s.ringWrite a p v = s.setRing p (s.selOf a (pHif p + 0x120) % 4096) ((s.ring p (s.selOf a (pHif p + 0x120) % 4096)).cfg v).close := by
  simp [State.ringWrite, State.ringOff, hreach, hshown, hv]

theorem State.ringWrite_on (hv : bitOf v 31 = true) : s.ringWrite a p v = s.ringOn p (s.selOf a (pHif p + 0x120) % 4096) v := by
  simp [State.ringWrite, hreach, hshown, hv]

end

/-! ## Records leave a ring enabled -/

/-- Writing records touches one ring, which stays enabled, and what the port reports. -/
structure WritesRecords (p : Port) (ctx : Nat) (s t : State) : Prop where
  en : (t.ring p ctx).en = (s.ring p ctx).en
  cmds : t.cmds = s.cmds
  hbm : t.hbm = s.hbm
  ctxs : t.ctxs = s.ctxs

theorem WritesRecords.refl (p : Port) (ctx : Nat) (s : State) : WritesRecords p ctx s s := ⟨rfl, rfl, rfl, rfl⟩

theorem WritesRecords.trans {p : Port} {ctx : Nat} {s t u : State} (h : WritesRecords p ctx s t) (k : WritesRecords p ctx t u) : WritesRecords p ctx s u :=
  ⟨k.en.trans h.en, k.cmds.trans h.cmds, k.hbm.trans h.hbm, k.ctxs.trans h.ctxs⟩

theorem WritesRecords.of_reports {p : Port} {ctx : Nat} {s t : State} (h : Reports s t) : WritesRecords p ctx s t := by
  obtain ⟨r, a, b, rfl⟩ := h
  exact ⟨rfl, rfl, rfl, rfl⟩

theorem setRing_writesRecords (s : State) (p : Port) (ctx : Nat) (r : Ring) (h : r.en = (s.ring p ctx).en) : WritesRecords p ctx s (s.setRing p ctx r) :=
  ⟨by rw [State.ring_setRing_same, h], rfl, rfl, rfl⟩

theorem coalesce_writesRecords (s : State) (p : Port) (ctx part : Nat) : WritesRecords p ctx s (s.coalesce p ctx part) := by
  unfold State.coalesce
  dsimp only
  split
  · exact (setRing_writesRecords s p ctx { s.ring p ctx with coal := 0 } rfl).trans (.of_reports (sendMsix_reports _ _ _ _))
  · exact setRing_writesRecords s p ctx _ rfl

theorem writeRec_writesRecords (s : State) (p : Port) (ctx : Nat) (x : Rec) : WritesRecords p ctx s (s.writeRec p ctx x) := by
  have hring : ∀ m, ((s.emit p m).ring p ctx).en = (s.ring p ctx).en := fun m => (WritesRecords.of_reports (emit_reports s p m)).en
  have hput : ∀ m r, r.en = (s.ring p ctx).en → WritesRecords p ctx s (((s.emit p m).setRing p ctx r).bump (pHif p + 0x048) 1) := fun m r hr =>
    ((WritesRecords.of_reports (emit_reports s p m)).trans (setRing_writesRecords _ p ctx r (hr.trans (hring m).symm))).trans (.of_reports (bump_reports _ _ _))
  unfold State.writeRec
  dsimp only
  split
  · refine (hput _ _ ?_).trans (coalesce_writesRecords _ _ _ _)
    rfl
  · exact hput _ _ rfl

theorem drainRing_go_writesRecords (p : Port) (ctx : Nat) (l : List Rec) : ∀ s : State, WritesRecords p ctx s (State.drainRing.go p ctx l s) := by
  induction l with
  | nil => exact fun s => .refl p ctx s
  | cons x r ih => exact fun s => ((setRing_writesRecords s p ctx { s.ring p ctx with held := r } rfl).trans (writeRec_writesRecords _ p ctx _)).trans (ih _)

theorem drainRing_writesRecords (s : State) (p : Port) (ctx : Nat) : WritesRecords p ctx s (s.drainRing p ctx) := by
  unfold State.drainRing
  split
  · exact drainRing_go_writesRecords p ctx _ s
  · exact .refl p ctx s

/-! ## Enabling a ring -/

/-- The grant a ring begins with (09 R292, R319). -/
def State.firstGrant (s : State) (p : Port) (ctx : Nat) : Rec :=
  let r := s.ring p ctx
  grantRec ctx r.note (if r.note == 1 then r.killed else 0) (if r.note == 1 then r.lost else 0) (if r.note == 1 then s.latest (.region ctx) else 0)

/-- A ring as it begins: its grant before what was held. -/
def State.begunRing (s : State) (p : Port) (ctx v : Nat) : Ring :=
  { (s.ring p ctx).cfg v with en := true, tail := 0, phase := true, note := 0, killed := 0, lost := 0, held := s.firstGrant p ctx :: (s.ring p ctx).held }

theorem State.ringOn_of_enabled {s : State} {p : Port} {ctx : Nat} (h : (s.ring p ctx).en = true) (v : Nat) :
    s.ringOn p ctx v = s.setRing p ctx ((s.ring p ctx).cfg v) := if_pos h

theorem State.ringOn_of_disabled {s : State} {p : Port} {ctx : Nat} (h : (s.ring p ctx).en = false) (v : Nat) :
    s.ringOn p ctx v = (s.setRing p ctx (s.begunRing p ctx v)).drainRing p ctx := if_neg (Bool.eq_false_iff.1 h)

/-- Enabling leaves the ring enabled, and only rings and the port's reports change. -/
theorem State.ringOn_enables (s : State) (p : Port) (ctx v : Nat) :
    ((s.ringOn p ctx v).ring p ctx).en = true ∧ (s.ringOn p ctx v).cmds = s.cmds ∧ (s.ringOn p ctx v).hbm = s.hbm ∧ (s.ringOn p ctx v).ctxs = s.ctxs := by
  cases h : (s.ring p ctx).en
  case true => rw [State.ringOn_of_enabled h]; exact ⟨by simp [h], rfl, rfl, rfl⟩
  case false =>
    obtain ⟨hen, hcmds, hhbm, hctxs⟩ := drainRing_writesRecords (s.setRing p ctx (s.begunRing p ctx v)) p ctx
    rw [State.ringOn_of_disabled h]
    exact ⟨hen.trans (congrArg Ring.en (State.ring_setRing_same _ _ _ _)), hcmds, hhbm, hctxs⟩

/-- While the port is down the grant stays at the head of what is held. -/
theorem State.ringOn_of_down {s : State} {p : Port} {ctx : Nat} (h : (s.ring p ctx).en = false) (hdown : (s.port p).up = false) (v : Nat) :
    s.ringOn p ctx v = s.setRing p ctx (s.begunRing p ctx v) := by
  have hclosed : (s.setRing p ctx (s.begunRing p ctx v)).ringOpen p ctx = false := by
    cases p <;> exact Bool.and_eq_false_imp.2 fun hup => absurd hup (Bool.eq_false_iff.1 hdown)
  rw [State.ringOn_of_disabled h, State.drainRing, if_neg (Bool.eq_false_iff.1 hclosed)]

section
variable {v : Nat} (a : Agent) (p : Port) (s : State)

theorem exec_ringEnable_of_set (hv : bitOf v 31 = true) : exec (.ringEnable a p v) s = .next (s.ringWrite a p v) := if_pos hv

theorem exec_ringEnable_of_clear (hv : bitOf v 31 = false) : exec (.ringEnable a p v) s = .next s := if_neg (Bool.eq_false_iff.1 hv)

theorem exec_ringDisable_of_set (hv : bitOf v 31 = true) : exec (.ringDisable a p v) s = .next s := if_pos hv

theorem exec_ringDisable_of_clear (hv : bitOf v 31 = false) : exec (.ringDisable a p v) s = .next (s.ringWrite a p v) := if_neg (Bool.eq_false_iff.1 hv)

end

/-! ## The coalescing timer -/

/-- The coalescing time of a port's ring has run out with a message to send (09 R313). -/
def State.coalDue (s : State) (p : Port) (ctx : Nat) : Bool := (s.ring p ctx).coal != 0 && (s.ring p ctx).coalUs != 0 && decide (s.time.lctr ≥ (s.ring p ctx).coalAt)

/-- The count of a ring is cleared and its message falls due. -/
def State.coalSend (s : State) (p : Port) (ctx : Nat) : State :=
  (s.setRing p ctx { s.ring p ctx with coal := 0 }).sendMsix p (s.submitFn p (s.ctx ctx).part) (s.ring p ctx).vector

theorem State.coalDue_of_not {s : State} {p : Port} {ctx : Nat} (h : (s.ring p ctx).coal = 0 ∨ (s.ring p ctx).coalUs = 0 ∨ s.time.lctr < (s.ring p ctx).coalAt) :
    s.coalDue p ctx = false := by
  rcases h with h | h | h <;> simp [State.coalDue, h]

theorem exec_msixCoalesceTimer (ctx : Nat) (s : State) :
    let t := if s.coalDue .pa ctx then s.coalSend .pa ctx else s
    exec (.msixCoalesceTimer ctx) s = .next (if t.coalDue .pb ctx then t.coalSend .pb ctx else t) := rfl

/-- What port A sends leaves the ring of port B as it is. -/
theorem State.ring_pb_coalSend_pa (s : State) (ctx : Nat) : (s.coalSend .pa ctx).ring .pb ctx = s.ring .pb ctx := by
  have hkey : ringKey .pb ctx ≠ ringKey .pa ctx := by simp [ringKey, Port.idx]
  obtain ⟨r, a, b, ht⟩ := sendMsix_reports (s.setRing .pa ctx { s.ring .pa ctx with coal := 0 }) .pa (s.submitFn .pa (s.ctx ctx).part) (s.ring .pa ctx).vector
  rw [State.coalSend, ht]
  exact congrArg (Option.getD · Ring.reset) (tget_tset_ne _ _ _ _ hkey)

/-! ## Masks of MSI-X -/

/-- What PCIe configuration makes of a function with `n` vectors. -/
def MsixFn.config (m : MsixFn) (n : Nat) : MsixOp → MsixFn
  | .enable on => { m with en := on }
  | .maskAll on => { m with maskAll := on }
  | .mask v => { m with open' := m.open'.filter (· != v) }
  | .unmask v => if m.open'.contains v || !decide (v < n) then m else { m with open' := m.open' ++ [v] }

/-- The pending vectors that are free to be sent. -/
def MsixFn.due (m : MsixFn) : List Nat := m.pend.filter fun v => m.en && !m.maskAll && m.open'.contains v

/-- The function with those vectors no longer pending. -/
def MsixFn.settled (m : MsixFn) : MsixFn := { m with pend := m.pend.filter fun v => !m.due.contains v }

theorem exec_msixUnmask (p : Port) (fn : Nat) (op : MsixOp) (s : State) :
    let m := (s.msixFn p fn).config (pcieFn (s.port p).bar4 fn).msix op
    exec (.msixUnmask p fn op) s = .next (m.due.foldl (fun s v => s.sendMsix p fn v) (s.modPort p fun x => { x with msix := tset x.msix fn m.settled })) := by
  cases op <;> rfl

theorem MsixFn.due_of_masked {m : MsixFn} (h : ∀ w ∈ m.pend, w ∉ m.open') : m.due = [] :=
  List.filter_eq_nil_iff.2 fun w hw => by simp [h w hw]

theorem MsixFn.settled_of_masked {m : MsixFn} (h : ∀ w ∈ m.pend, w ∉ m.open') : m.settled = m := by
  have hkeep : (m.pend.filter fun v => !m.due.contains v) = m.pend := List.filter_eq_self.2 fun v _ => by
    rw [MsixFn.due_of_masked h]
    rfl
  simp only [MsixFn.settled, hkeep]

@[simp] theorem State.msixFn_modPort (s : State) (p : Port) (fn : Nat) (m : MsixFn) :
    (s.modPort p fun x => { x with msix := tset x.msix fn m }).msixFn p fn = m := by
  rw [State.msixFn, State.port_modPort_same]
  exact tgetD_tset_same _ _ _ _

/-- While none of the pending vectors is free, configuration sends nothing. -/
theorem exec_msixUnmask_of_masked {p : Port} {fn : Nat} {op : MsixOp} {s : State} {m : MsixFn} (hm : (s.msixFn p fn).config (pcieFn (s.port p).bar4 fn).msix op = m)
    (hmasked : ∀ w ∈ m.pend, w ∉ m.open') : exec (.msixUnmask p fn op) s = .next (s.modPort p fun x => { x with msix := tset x.msix fn m }) := by
  rw [exec_msixUnmask, hm, MsixFn.due_of_masked hmasked, MsixFn.settled_of_masked hmasked]
  rfl

/-- An open vector of an enabled function is sent and counted. -/
theorem State.sendMsix_of_open {s : State} {p : Port} {fn v : Nat} (hen : (s.msixFn p fn).en = true) (hv : v < (pcieFn (s.port p).bar4 fn).msix)
    (hall : (s.msixFn p fn).maskAll = false) (hopen : v ∈ (s.msixFn p fn).open') :
    s.sendMsix p fn v = (s.emit p (.msix fn v)).bump (pHif p + 0x050) 1 := by
  simp [State.sendMsix, hen, Nat.not_le.2 hv, hall, hopen]

@[simp] theorem State.msixFn_emit (s : State) (p : Port) (fn : Nat) (x : HostMsg) : (s.emit p x).msixFn p fn = s.msixFn p fn := by
  cases p <;> rfl

/-- The function with a vector free to be sent and none pending. -/
def MsixFn.sent (m : MsixFn) (v : Nat) : MsixFn := { m with open' := m.open' ++ [v], pend := [] }

/-- A pending vector that becomes free is sent, and counted (09 R313). -/
theorem exec_msixUnmask_of_pending {p : Port} {fn v : Nat} {s : State} (hen : (s.msixFn p fn).en = true) (hall : (s.msixFn p fn).maskAll = false)
    (hv : v < (pcieFn (s.port p).bar4 fn).msix) (hclosed : v ∉ (s.msixFn p fn).open') (hpend : (s.msixFn p fn).pend = [v]) :
    exec (.msixUnmask p fn (.unmask v)) s =
      .next (((s.modPort p fun x => { x with msix := tset x.msix fn ((s.msixFn p fn).sent v) }).emit p (.msix fn v)).bump (pHif p + 0x050) 1) := by
  have hdue : ((s.msixFn p fn).config (pcieFn (s.port p).bar4 fn).msix (.unmask v)).due = [v] := by
    simp [MsixFn.config, MsixFn.due, hv, hclosed, hpend, hen, hall]
  have hset : ((s.msixFn p fn).config (pcieFn (s.port p).bar4 fn).msix (.unmask v)).settled = (s.msixFn p fn).sent v := by
    rw [MsixFn.settled, hdue]
    simp [MsixFn.config, MsixFn.sent, hv, hclosed, hpend]
  rw [exec_msixUnmask, hdue, hset, List.foldl_cons, List.foldl_nil, State.sendMsix_of_open]
  · simpa [MsixFn.sent] using hen
  · simpa using hv
  · simpa [MsixFn.sent] using hall
  · simp [MsixFn.sent]

/-- Settles O51: a write of the ring either turns it on, which drains it behind its grant, or closes it; the timer and the masks decide which messages are sent. -/
theorem ringsBeginWithAGrantAndSignal : Obligations.RingsBeginWithAGrantAndSignal := by
  unfold Obligations.RingsBeginWithAGrantAndSignal
  refine ⟨fun a p v s => ⟨exec_ringEnable_of_clear a p s, exec_ringDisable_of_set a p s, fun hno => ?_, fun hreach hshown hv => ?_, fun hreach hshown hv => ⟨?_, fun hoff hdown => ?_⟩⟩,
    fun ctx s => ⟨fun hnot => ?_, fun h1 h2 h3 h4 => ?_⟩, fun p fn v s hen hall => ⟨fun hmasked => ?_, fun hv hmasked => ?_, fun hv hclosed hpend => ?_⟩⟩
  · cases hv : bitOf v 31
    case true => rw [exec_ringEnable_of_set a p s hv, exec_ringDisable_of_set a p s hv, State.ringWrite_of_ignored hno]; exact ⟨rfl, rfl⟩
    case false => rw [exec_ringEnable_of_clear a p s hv, exec_ringDisable_of_clear a p s hv, State.ringWrite_of_ignored hno]; exact ⟨rfl, rfl⟩
  · exact ⟨_, (exec_ringDisable_of_clear a p s hv).trans (congrArg _ (State.ringWrite_off hreach hshown hv)), Ring.close_en _, Ring.close_vector _, Ring.close_coal _,
      Ring.mem_close_held _⟩
  · exact ⟨_, (exec_ringEnable_of_set a p s hv).trans (congrArg _ (State.ringWrite_on hreach hshown hv)), State.ringOn_enables s p _ v⟩
  · refine ⟨_, s.firstGrant p (s.selOf a (pHif p + 0x120) % 4096),
      (exec_ringEnable_of_set a p s hv).trans (congrArg _ ((State.ringWrite_on hreach hshown hv).trans (State.ringOn_of_down hoff hdown v))), ?_⟩
    simp [State.begunRing, State.firstGrant, grantRec]
  · rw [exec_msixCoalesceTimer]
    simp [State.coalDue_of_not (hnot _)]
  · have hpa : s.coalDue .pa ctx = true := by simp [State.coalDue, h1, h2, h3]
    have hpb : (s.coalSend .pa ctx).coalDue .pb ctx = false := State.coalDue_of_not (.inl (by rw [State.ring_pb_coalSend_pa, h4]))
    rw [exec_msixCoalesceTimer]
    simp only [hpa, hpb, if_true, Bool.false_eq_true, if_false]
    rfl
  · refine ⟨_, exec_msixUnmask_of_masked rfl fun w hw hopen => hmasked w hw (List.mem_filter.1 hopen).1, ?_, ?_, ?_⟩
    · simp [MsixFn.config]
    · simp [MsixFn.config]
    · simp
  · exact exec_msixUnmask_of_masked (by simp [MsixFn.config, Nat.not_lt.2 hv]) hmasked
  · have hfn : ∀ u : State, (u.bump (pHif p + 0x050) 1).msixFn p fn = u.msixFn p fn := fun _ => rfl
    refine ⟨_, exec_msixUnmask_of_pending hen hall hv hclosed hpend, ?_, ?_, ?_, ?_⟩
    · simp [hfn, MsixFn.sent]
    · simp [hfn, MsixFn.sent]
    · rw [State.counter_bump_same]
      cases p <;> rfl
    · cases p <;> rfl

end Sys2Proof.Machine
end

section
/-! SUPPORT. Ownership of partitions: release, take, forced takeover (spec 09 R317 to R319, 15 R457; log entry 167). -/

namespace Sys2Proof.Machine

open Sys2Proof

/-! ## Ports -/

@[simp] theorem Port.other_other (p : Port) : p.other.other = p := by cases p <;> rfl

theorem Port.other_ne (p : Port) : p.other ≠ p := by cases p <;> decide

theorem Port.eq_or_eq_other (p q : Port) : q = p ∨ q = p.other := by cases p <;> cases q <;> decide

theorem State.port_modPort_ne (s : State) {p q : Port} (h : q ≠ p) (f : PortSt → PortSt) : (s.modPort p f).port q = s.port q := by
  obtain rfl | rfl := Port.eq_or_eq_other p q
  · exact absurd rfl h
  · exact State.port_modPort_other s p f

/-! ## Who owns a partition -/

@[simp] theorem State.own_cmds (s : State) (p : Port) (part : Nat) : (s.own p part).cmds = s.cmds := State.modPort_cmds s p _
@[simp] theorem State.own_hbm (s : State) (p : Port) (part : Nat) : (s.own p part).hbm = s.hbm := State.modPort_hbm s p _
@[simp] theorem State.own_sec (s : State) (p : Port) (part : Nat) : (s.own p part).sec = s.sec := State.modPort_sec s p _

theorem State.port_own_ne (s : State) {p q : Port} (h : q ≠ p) (part : Nat) : (s.own p part).port q = s.port q := State.port_modPort_ne s h _

theorem State.rel_own (s : State) (p q : Port) (part : Nat) : ((s.own p part).port q).rel = (s.port q).rel := by
  cases p <;> cases q <;> rfl

/-- A partition that moves to a port is the only one whose owner changes. -/
theorem State.owns_own (s : State) (p q : Port) (part n : Nat) : (s.own p part).owns q n = (decide (p = q ∧ part = n) || s.owns q n) := by
  by_cases hp : q = p
  · subst hp
    by_cases hn : n = part
    · subst hn; simp [State.owns, State.own]
    · simp [State.owns, State.own, bitOf_setBit_ne _ _ hn, Ne.symm hn]
  · simp [State.owns, State.port_own_ne s hp, Ne.symm hp]

/-- What is done for the port that is to have a partition next. -/
def State.handTo (s : State) (o : Option Port) (part : Nat) : State :=
  match o with
  | some p => s.own p part
  | none => s

section
variable (s : State) (o : Option Port) (part : Nat)

theorem State.owns_handTo (q : Port) (n : Nat) : (s.handTo o part).owns q n = (decide (o = some q ∧ part = n) || s.owns q n) := by
  cases o with
  | none => simp [State.handTo]
  | some p => simpa [State.handTo] using State.owns_own s p q part n

theorem State.rel_handTo (q : Port) : ((s.handTo o part).port q).rel = (s.port q).rel := by
  cases o with
  | none => rfl
  | some p => exact State.rel_own s p q part

@[simp] theorem State.handTo_cmds : (s.handTo o part).cmds = s.cmds := by cases o <;> simp [State.handTo]
@[simp] theorem State.handTo_hbm : (s.handTo o part).hbm = s.hbm := by cases o <;> simp [State.handTo]
@[simp] theorem State.handTo_sec : (s.handTo o part).sec = s.sec := by cases o <;> simp [State.handTo]

end

/-! ## A release -/

theorem exec_release_of_reaches {s : State} {a : Agent} {p : Port} (h : s.reaches a (pHif p + 0x10C) = true) (mask : Nat) :
    exec (.release a p mask) s = .next (s.modPort p fun x => { x with rel := x.rel ||| (mask &&& x.own) % 2 ^ 16 }) := by
  simp only [exec, execRelease, h, Bool.not_true, Bool.false_eq_true, if_false]

theorem bitOf_release (rel mask own : Nat) {q : Nat} (hq : q < 16) : bitOf (rel ||| (mask &&& own) % 2 ^ 16) q = (bitOf rel q || (bitOf mask q && bitOf own q)) := by
  simp only [bitOf_eq_testBit, Nat.testBit_or, Nat.testBit_mod_two_pow, Nat.testBit_and, hq, decide_true, Bool.true_and]

/-- Nothing of a partition is left on a port: no command of its windows, no record (09 R317). -/
def State.releasable (s : State) (p : Port) (part : Nat) : Prop :=
  (∀ c ∈ s.cmds, c.part ≠ part ∨ c.port ≠ p ∨ c.origin ≠ .window) ∧
    ∀ r ∈ s.rings, r.1 / 4096 = p.idx → (s.ctx (r.1 % 4096)).part = part → ∀ x ∈ r.2.held, x.kind ≠ 0

/-- The port has given the partition up, and its session has ended. -/
def State.released (s : State) (p : Port) (part : Nat) : State :=
  (s.modPort p fun x => { x with own := setBit x.own part false, rel := setBit x.rel part false }).endSession p part

theorem exec_releaseComplete_of_waiting {s : State} {p : Port} {part : Nat}
    (h : bitOf (s.port p).rel part = false ∨ ∃ c ∈ s.cmds, c.part = part ∧ c.port = p ∧ c.origin = .window) : exec (.releaseComplete p part) s = .next s := by
  simp only [exec, execReleaseComplete]
  rcases h with h | ⟨c, hc, hpart, hport, horigin⟩
  · simp [h]
  · have hbusy : (s.cmds.any fun c => c.part == part && c.port == p && c.origin == .window) = true :=
      List.any_eq_true.2 ⟨c, hc, by simp [hpart, hport, horigin]⟩
    simp [hbusy]

theorem State.nextOwner_released (s : State) (p : Port) (part : Nat) : (s.released p part).nextOwner part = s.nextOwner part := by
  cases p <;> rfl

theorem exec_releaseComplete_of_releasable {s : State} {p : Port} {part : Nat} (hpart : part < 16) (hrel : bitOf (s.port p).rel part = true)
    (hup : (s.port p).up = true) (h : s.releasable p part) : exec (.releaseComplete p part) s = .next ((s.released p part).handTo (s.nextOwner part) part) := by
  obtain ⟨hcmds, hrecs⟩ := h
  have hnocmd : (s.cmds.any fun c => c.part == part && c.port == p && c.origin == .window) = false :=
    List.any_eq_false.2 fun c hc hmine => by
      simp only [Bool.and_eq_true, beq_iff_eq] at hmine
      obtain ⟨⟨hpart, hport⟩, horigin⟩ := hmine
      exact (hcmds c hc).elim (· hpart) (·.elim (· hport) (· horigin))
  have hnorec : (s.rings.any fun r => r.1 / 4096 == p.idx && (s.ctx (r.1 % 4096)).part == part && r.2.held.any fun x => x.kind == 0) = false := by
    simpa [List.any_eq_false] using hrecs
  rw [← State.nextOwner_released s p part]
  simp only [exec, execReleaseComplete, hnocmd, hnorec, hrel, hup, Nat.not_le.2 hpart, decide_false, Bool.not_true, Bool.or_self, Bool.false_eq_true, if_false]
  rfl

section
variable (s : State) (p : Port) (part : Nat)

theorem State.owns_released (n : Nat) : (s.released p part).owns p n = (decide (n ≠ part) && s.owns p n) := by
  have hport : (s.released p part).port p = { s.port p with own := setBit (s.port p).own part false, rel := setBit (s.port p).rel part false } := by cases p <;> rfl
  by_cases hn : n = part
  · subst hn; simp [State.owns, hport]
  · simp [State.owns, hport, bitOf_setBit_ne _ _ hn, hn]

theorem State.owns_other_released (n : Nat) : (s.released p part).owns p.other n = s.owns p.other n := by cases p <;> rfl

theorem State.rel_released : bitOf ((s.released p part).port p).rel part = false := by
  have hport : ((s.released p part).port p).rel = setBit (s.port p).rel part false := by cases p <;> rfl
  simp [hport]

@[simp] theorem State.endSession_cmds : (s.endSession p part).cmds = s.cmds := rfl
@[simp] theorem State.endSession_hbm : (s.endSession p part).hbm = s.hbm := rfl
@[simp] theorem State.released_cmds : (s.released p part).cmds = s.cmds := State.modPort_cmds s p _
@[simp] theorem State.released_hbm : (s.released p part).hbm = s.hbm := State.modPort_hbm s p _

/-- No session of the partition is left on the port (14 R443). -/
theorem State.no_session_endSession : ∀ x ∈ (s.endSession p part).sec.sessions, ¬(x.part = part ∧ x.port = p) := by
  rintro x hx ⟨rfl, rfl⟩
  have hkept := (List.mem_filter.1 hx).2
  simp only [BEq.rfl, Bool.and_self, Bool.not_true, Bool.false_eq_true] at hkept

end

/-! ## Requests -/

theorem State.nextOwner_eq_none {s : State} {p : Port} {part : Nat} (h : bitOf (s.port p).pend part = false) (ho : bitOf (s.port p.other).pend part = false) :
    s.nextOwner part = none := by
  cases p <;> simp_all [State.nextOwner, Port.other]

theorem State.nextOwner_eq_some {s : State} {p : Port} {part : Nat} (h : bitOf (s.port p).pend part = true)
    (hfirst : bitOf (s.port p).first part = true ∧ bitOf (s.port p.other).first part = false ∨ bitOf (s.port p.other).pend part = false) :
    s.nextOwner part = some p := by
  cases p <;> rcases hfirst with ⟨h1, h2⟩ | h2 <;> simp_all [State.nextOwner, Port.other]

theorem maskParts_two_pow : ∀ {part : Nat}, part < 16 → maskParts (2 ^ part) = [part] := by decide

theorem exec_take_of_ignored {s : State} {a : Agent} {p : Port} (h : s.reaches a (pHif p + 0x110) = false ∨ s.pwr.stage ≠ some 5) (mask : Nat) :
    exec (.take a p mask) s = .next s ∧ exec (.forcedTakeover a p mask) s = .next s := by
  rcases h with h | h <;> simp [exec, execTake, execForcedTakeover, h]

section
variable {s : State} {a : Agent} {p : Port} {part : Nat} (hreach : s.reaches a (pHif p + 0x110) = true) (hstage : s.pwr.stage = some 5) (hpart : part < 16)
include hreach hstage hpart

theorem exec_take_one : exec (.take a p (2 ^ part)) s = .next (s.take1 p part) := by
  simp [exec, execTake, hreach, hstage, maskParts_two_pow hpart]

theorem exec_forcedTakeover_one : exec (.forcedTakeover a p (2 ^ part)) s = .next (s.force1 p part) := by
  simp [exec, execForcedTakeover, hreach, hstage, maskParts_two_pow hpart]

end

section
variable {s : State} {p : Port} {part : Nat}

theorem State.take1_of_unowned (h : s.owns p part = false) (ho : s.owns p.other part = false) : s.take1 p part = s.own p part := by
  simp [State.take1, h, ho]

theorem State.take1_of_other (h : s.owns p part = false) (ho : s.owns p.other part = true) :
    s.take1 p part = if bitOf (s.port p).pend part then s
      else s.modPort p fun x => { x with pend := setBit x.pend part true, first := setBit x.first part !bitOf (s.port p.other).pend part } := by
  simp [State.take1, h, ho]

theorem State.force1_of_unowned (h : s.owns p part = false) (ho : s.owns p.other part = false) :
    s.force1 p part = if s.authFor p part then { s.own p part with mgt := { s.mgt with auth := none } } else s.raiseAt (pHif p) 5 (partAttr part) := by
  have htake : State.take1 { s with mgt := { s.mgt with auth := none } } p part = { s.own p part with mgt := { s.mgt with auth := none } } := by
    refine (State.take1_of_unowned ?_ ?_).trans ?_
    · cases p <;> exact h
    · cases p <;> exact ho
    · cases p <;> rfl
  simp [State.force1, ho, htake]

theorem State.force1_of_refused (ho : s.owns p.other part = true) (hno : s.mayForce p part = false) :
    s.force1 p part = s.raiseAt (pHif p) 5 (partAttr part) := by
  simp [State.force1, ho, hno]

end

/-! ## A forced takeover -/

/-- Only the rings differ. -/
def RingsOnly (s t : State) : Prop := ∃ r, t = { s with rings := r }

theorem RingsOnly.refl (s : State) : RingsOnly s s := ⟨s.rings, rfl⟩

theorem RingsOnly.trans {s t u : State} (h : RingsOnly s t) (k : RingsOnly t u) : RingsOnly s u := by
  obtain ⟨r, rfl⟩ := h
  obtain ⟨r', rfl⟩ := k
  exact ⟨r', rfl⟩

theorem RingsOnly.owns {s t : State} (h : RingsOnly s t) (p : Port) (part : Nat) : t.owns p part = s.owns p part := by
  obtain ⟨r, rfl⟩ := h
  cases p <;> rfl

theorem setRing_ringsOnly (s : State) (p : Port) (c : Nat) (r : Ring) : RingsOnly s (s.setRing p c r) := ⟨_, rfl⟩

/-- A takeover of a partition without commands loses no more than records that are held. -/
theorem State.killPart_of_no_command {s : State} {part : Nat} (h : ∀ c ∈ s.cmds, c.part ≠ part) (p : Port) (sub : Nat) (discard : Bool) :
    (s.killPart p part sub discard).cmds = s.cmds ∧ (s.killPart p part sub discard).hbm = s.hbm := by
  have hmine : (s.cmds.filter fun c => c.part == part && ((c.port == p && c.origin == .window) || c.origin.isForwarded)) = [] :=
    List.filter_eq_nil_iff.2 fun c hc => by simp [h c hc]
  have hown : (s.cmds.filter fun c => c.part == part && c.origin == .internal && c.entered) = [] :=
    List.filter_eq_nil_iff.2 fun c hc => by simp [h c hc]
  unfold State.killPart
  simp only [hmine, hown, List.foldl_nil]
  split
  · exact ⟨rfl, rfl⟩
  · refine List.foldlRecOn (motive := fun t : State => t.cmds = s.cmds ∧ t.hbm = s.hbm) _ _ ⟨rfl, rfl⟩ fun t ht r _ => ?_
    split
    · exact ht
    · have hrep := fun (u : State) (n : Nat) => (bump_reports u (pHif p + 0x070) n).trans (raiseAt_reports _ (pHif p) 3 (partAttr part))
      exact ⟨(hrep _ _).cmds.trans ht.1, (hrep _ _).hbm.trans ht.2⟩

/-- What a forced takeover makes of the partition before it turns to the rings (09 R319). -/
def State.seized (s : State) (p : Port) (part : Nat) : State :=
  let u := s.killPart p.other part 0x0920 (!(s.port p.other).up)
  let u := u.modPort p.other fun x =>
    { x with own := setBit x.own part false, rel := setBit x.rel part false, slots := x.slots.filter fun e => (u.ctx (e.1 / 32)).part != part }
  let u := (u.own p part).endSession p.other part
  if (u.port p).peerDown then u else { u with mgt := { u.mgt with auth := none } }

theorem State.force1_of_accepted {s : State} {p : Port} {part : Nat} (ho : s.owns p.other part = true) (hmay : s.mayForce p part = true) :
    RingsOnly (s.seized p part) (s.force1 p part) := by
  simp only [State.force1, ho, hmay, Bool.not_true, Bool.false_eq_true, if_false]
  refine List.foldlRecOn (motive := RingsOnly (s.seized p part)) _ _ (.refl _) fun t ht c _ => ?_
  have hlost : ∀ (b : Prop) [Decidable b] (q : Port) (r : Ring), RingsOnly t (if b then t else t.setRing q c r) := fun b _ q r => by
    split
    · exact .refl t
    · exact setRing_ringsOnly t q c r
  split
  · split
    · exact (ht.trans (hlost _ _ _)).trans (setRing_ringsOnly _ _ _ _)
    · exact ht.trans (hlost _ _ _)
  · exact (ht.trans (hlost _ _ _)).trans (setRing_ringsOnly _ _ _ _)

/-- A partition passes from the other port, and the session there ends. -/
theorem State.owners_of_moved (u : State) (p : Port) (part : Nat) (slots : Tab Slot) :
    let v := ((u.modPort p.other fun x => { x with own := setBit x.own part false, rel := setBit x.rel part false, slots := slots }).own p part).endSession p.other part
    v.owns p part = true ∧ v.owns p.other part = false := by
  refine ⟨?_, ?_⟩
  · exact (State.owns_own _ p p part part).trans (by simp)
  · refine (State.owns_own _ p p.other part part).trans ?_
    have hne : p ≠ p.other := (Port.other_ne p).symm
    simp [hne, State.owns]

theorem State.seized_owners (s : State) (p : Port) (part : Nat) :
    (s.seized p part).owns p part = true ∧ (s.seized p part).owns p.other part = false ∧
      ∀ x ∈ (s.seized p part).sec.sessions, ¬(x.part = part ∧ x.port = p.other) := by
  have howners := State.owners_of_moved (s.killPart p.other part 0x0920 (!(s.port p.other).up)) p part
  have hend := fun u : State => u.no_session_endSession p.other part
  unfold State.seized
  dsimp only
  split
  · exact ⟨(howners _).1, (howners _).2, hend _⟩
  · exact ⟨(howners _).1, (howners _).2, hend _⟩

theorem State.seized_of_no_command {s : State} {part : Nat} (h : ∀ c ∈ s.cmds, c.part ≠ part) (p : Port) :
    (s.seized p part).cmds = s.cmds ∧ (s.seized p part).hbm = s.hbm := by
  obtain ⟨hcmds, hhbm⟩ := State.killPart_of_no_command h p.other 0x0920 (!(s.port p.other).up)
  unfold State.seized
  dsimp only
  split <;> simp [hcmds, hhbm]

theorem exec_takeoverGraceExpiry_of_early {p : Port} {s : State}
    (h : (s.port p).up = true ∨ s.time.lctr < (s.port p).downAt + fld (s.reg32 (pHif p.other + 0x114)) 7 0 * 2 ^ 20) : exec (.takeoverGraceExpiry p) s = .next s := by
  simp only [exec, execTakeoverGraceExpiry]
  exact if_pos (by simpa using h)

theorem exec_takeoverGraceExpiry_of_passed {p : Port} {s : State} (hup : (s.port p).up = false)
    (h : s.time.lctr ≥ (s.port p).downAt + fld (s.reg32 (pHif p.other + 0x114)) 7 0 * 2 ^ 20) :
    exec (.takeoverGraceExpiry p) s = .next (s.modPort p.other fun y => { y with peerDown := true }) := by
  simp only [exec, execTakeoverGraceExpiry]
  exact if_neg (by simpa [hup] using h)

/-- Settles O53: each row is one case of its function, and what moves a partition is `own`, which gives one port one bit. -/
theorem ownershipMovesByRule : Obligations.OwnershipMovesByRule := by
  unfold Obligations.OwnershipMovesByRule
  refine ⟨fun a p mask s => ⟨fun h => ?_, fun h => ?_⟩, fun p part s => ⟨exec_releaseComplete_of_waiting, fun hpart hrel hup hcmds hrecs => ?_⟩,
    fun p part s => ⟨fun h ho => State.nextOwner_eq_some h (.inr ho), fun h h1 h2 => State.nextOwner_eq_some h (.inl ⟨h1, h2⟩), State.nextOwner_eq_none⟩,
    fun a p mask part s => ⟨fun h => exec_take_of_ignored h mask, fun hreach hstage hmask hpart => ?_⟩,
    fun p s => ⟨exec_takeoverGraceExpiry_of_early, exec_takeoverGraceExpiry_of_passed⟩⟩
  · simp [exec, execRelease, h]
  · refine ⟨_, exec_release_of_reaches h mask, fun q hq => ?_, ?_, ?_, ?_⟩
    · rw [State.port_modPort_same]; exact bitOf_release _ _ _ hq
    · simp
    · simp
    · simp
  · refine ⟨_, exec_releaseComplete_of_releasable hpart hrel hup ⟨hcmds, hrecs⟩, ?_, ?_, ?_, ?_, fun q hq => ?_, ?_, ?_⟩
    · rw [State.rel_handTo, State.rel_released]
    · simp [State.owns_handTo, State.owns_released]
    · simp [State.owns_handTo, State.owns_other_released, Bool.or_comm]
    · rw [State.handTo_sec]; exact State.no_session_endSession _ p part
    · have hne : part ≠ q := hq.symm
      simp [State.owns_handTo, State.owns_released, State.owns_other_released, hq, hne]
    · simp
    · simp
  · subst hmask
    rw [exec_take_one hreach hstage hpart, exec_forcedTakeover_one hreach hstage hpart]
    refine ⟨fun h ho => ?_, fun h ho => ?_, fun ho hno => ?_, fun ho hmay hcmds => ?_⟩
    · rw [State.take1_of_unowned h ho, State.force1_of_unowned h ho]
      refine ⟨_, rfl, fun hauth => ?_, fun hauth => ?_, ?_, ?_, fun q hq => ?_, ?_, State.own_cmds s p part⟩
      · simp [hauth]
      · simp [hauth, State.own]
      · simp [State.owns_own]
      · simp [State.own]
      · simp [State.owns_own, hq.symm]
      · exact State.port_own_ne s (Port.other_ne p) part
    · rw [State.take1_of_other h ho]
      cases hpend : bitOf (s.port p).pend part with
      | true => exact ⟨s, rfl, hpend, rfl, fun hno => by simp at hno, rfl, rfl⟩
      | false => exact ⟨_, rfl, by simp, by simp, fun _ => by simp, by simp, by simp⟩
    · rw [State.force1_of_refused ho hno]
    · have hrings := State.force1_of_accepted ho hmay
      obtain ⟨hown, hother, hses⟩ := s.seized_owners p part
      obtain ⟨hc, hh⟩ := State.seized_of_no_command hcmds p
      refine ⟨_, rfl, (hrings.owns p part).trans hown, (hrings.owns p.other part).trans hother, ?_, ?_, ?_⟩
      all_goals
        obtain ⟨r, hr⟩ := hrings
        rw [hr]
      · exact hses
      · exact hc
      · exact hh

end Sys2Proof.Machine
end

section
/-! SUPPORT. How a command at the head of its context's queue is admitted and worked (spec 09 R299, R305, 08 R254 to R256; log entries 63 and 184). -/

namespace Sys2Proof.Machine

open Sys2Proof

/-! ## One stretch of a command -/

section
variable {s u : State} {c : Cmd}

theorem State.runCmd_of_letIn {b : Bool} (hadm : c.admitted = false) (h : s.yieldAll.letIn c = (u, .ok b)) : s.runCmd c = (u, b) := by
  simp only [State.runCmd, hadm, h, Bool.not_false, if_true]

theorem State.runCmd_of_turned_away {e : Halt} (hadm : c.admitted = false) (h : s.yieldAll.letIn c = (u, .error e)) : s.runCmd c = u.halt c e := by
  simp only [State.runCmd, hadm, h, Bool.not_false, if_true]

theorem State.runCmd_of_done {f : Finish} (hadm : c.admitted = true) (hfin : c.fin = some f) : s.runCmd c = (s.settle c f, false) := by
  simp only [State.runCmd, hadm, hfin, Bool.not_true, Bool.false_eq_true, if_false]

theorem State.runCmd_of_halt {e : Halt} (hadm : c.admitted = true) (hfin : c.fin = none) (h : s.opWork c = .error e) : s.runCmd c = s.halt c e := by
  simp only [State.runCmd, hadm, hfin, h, Bool.not_true, Bool.false_eq_true, if_false]

theorem State.runCmd_of_accept {d : Done} {b : Bool} (hadm : c.admitted = true) (hfin : c.fin = none) (h : s.opWork c = .ok d) (hturn : s.stageTurn c = true)
    (hacc : s.accept c d = (u, .ok b)) : s.runCmd c = (u, b) := by
  simp only [State.runCmd, hadm, hfin, h, hturn, hacc, Bool.not_true, Bool.false_eq_true, if_false]

end

/-! ## Stretch after stretch -/

section
variable {s t : State} {id : Nat} {c : Cmd} (hc : s.cmd id = some c)
include hc

theorem State.advance_of_stop (n : Nat) (h : s.runCmd c = (t, false)) : State.advance (n + 1) s id = t := by
  simp only [State.advance, hc, h, Bool.false_eq_true, if_false]

theorem State.advance_of_go (n : Nat) (h : s.runCmd c = (t, true)) : State.advance (n + 1) s id = State.advance n t id := by
  simp only [State.advance, hc, h, if_true]

/-- A command of a window runs at once; only internal ones wait for an allocation (10 R339). -/
theorem State.run_of_window (horigin : c.origin = .window) : s.run id = State.advance (runFuel - 2 + 1 + 1) s id := by
  have hwin : (Origin.window == Origin.internal) = false := rfl
  simp only [State.run, hc, horigin, hwin, Bool.false_and, Bool.false_eq_true, if_false]
  rfl

end

/-! ## The head of a queue -/

theorem State.headOf_spec {s : State} {ctx : Nat} {c : Cmd} (h : s.headOf ctx = some c) : c.ctx = ctx ∧ c.origin = .window := by
  have hp := List.find?_some h
  simp only [Bool.and_eq_true, beq_iff_eq] at hp
  exact ⟨hp.1.1, hp.1.2⟩

theorem State.admitHead_of_head {s : State} {ctx op : Nat} {c : Cmd} (h : s.headOf ctx = some c) (hop : c.opcode = op) (hphase : c.phase = .queued) :
    s.admitHead ctx op = s.run c.id := by
  simp [State.admitHead, h, hop, hphase]

/-- Every row but FENCE's admits the head of the queue, whatever the state. -/
theorem exec_opcodeRow : ∀ row ∈ opcodeRows, row = (.fence, 0x7F) ∨ ∀ (ctx : Nat) (s : State), exec (row.1 ctx) s = .next (s.admitHead ctx row.2) := by
  unfold opcodeRows
  refine List.forall_mem_cons.2 ⟨.inr fun _ _ => rfl, List.forall_mem_cons.2 ⟨.inl rfl, ?_⟩⟩
  repeat refine List.forall_mem_cons.2 ⟨.inr fun _ _ => rfl, ?_⟩
  exact nofun

theorem exec_fence_of_none_admitted {ctx : Nat} {s : State} (h : ∀ x ∈ s.cmds, x.ctx = ctx → x.opcode = 0x7F → x.admitted = false) :
    exec (.fence ctx) s = .next (s.admitHead ctx 0x7F) := by
  have hnone : (s.cmds.find? fun c => c.ctx == ctx && c.opcode == 0x7F && c.admitted) = none :=
    List.find?_eq_none.2 fun x hx => by
      simp only [Bool.and_eq_true, beq_iff_eq]
      exact fun hf => Bool.false_ne_true ((h x hx hf.1.1 hf.1.2).symm.trans hf.2)
  simp only [exec, execFence, hnone]

theorem exec_opcodeRow_of_head {row : (Nat → Instr) × Nat} (hrow : row ∈ opcodeRows) {ctx : Nat} {s : State} {c : Cmd} (hhead : s.headOf ctx = some c)
    (hphase : c.phase = .queued) (hop : c.opcode = row.2) (hfence : ∀ x ∈ s.cmds, x.ctx = ctx → x.opcode = 0x7F → x.admitted = false) :
    exec (row.1 ctx) s = .next (s.run c.id) := by
  rw [← State.admitHead_of_head hhead hop hphase]
  obtain rfl | h := exec_opcodeRow _ hrow
  · exact exec_fence_of_none_admitted hfence
  · exact h ctx s

/-! ## What becomes of an accepted command -/

section
variable {s : State} {c : Cmd} {f : Finish} (hprog : s.programmed c.done = true) (hver : s.verifyFails c = none)
include hprog hver

theorem State.settle_of_sparing {x : Nat} (h : (s.outFrets c f).find? s.sparingAt = some x) : s.settle c f = s.waitOn c (.spare x) := by
  simp only [State.settle, hprog, hver, h, Bool.not_true, Bool.false_eq_true, if_false]

variable (hfree : (s.outFrets c f).find? s.sparingAt = none)
include hfree

theorem State.settle_of_mutating (haway : s.away c = false) (hmut : isMutating c.opcode = true) :
    s.settle c f = s.modCmd c.id fun x => { x with phase := .staged, since := s.time.lctr } := by
  simp only [State.settle, hprog, hver, hfree, haway, hmut, Bool.not_true, Bool.not_false, Bool.true_or, Bool.and_self, Bool.false_eq_true, if_false, if_true]

theorem State.settle_of_reading (hmut : isMutating c.opcode = false) (hattend : c.opcode ≠ 0x20) (hpass : c.opcode ≠ opPass) : s.settle c f = s.endWork c f := by
  have h20 : (c.opcode == 0x20) = false := beq_eq_false_iff_ne.2 hattend
  have hop : (c.opcode == opPass) = false := beq_eq_false_iff_ne.2 hpass
  simp only [State.settle, hprog, hver, hfree, hmut, h20, hop, Bool.not_true, Bool.false_and, Bool.or_self, Bool.and_false, Bool.false_eq_true, if_false]

end

/-- Settles O15: the row runs the head of its queue, whose first three stretches are admission, work and settling. -/
theorem opcodesAreAdmittedAndWorked : Obligations.OpcodesAreAdmittedAndWorked := by
  unfold Obligations.OpcodesAreAdmittedAndWorked
  refine ⟨fun row hrow ctx s c hhead hc hphase hop hadm hfin hfence => ?_,
    fun s c f hprog hver => ⟨fun x h => State.settle_of_sparing hprog hver h, fun hfree _ haway hmut => ?_, fun hfree horigin hmut hsearch hattend hpass => ?_⟩⟩
  · obtain ⟨_, horigin⟩ := State.headOf_spec hhead
    refine ⟨_, exec_opcodeRow_of_head hrow hhead hphase hop hfence, ?_⟩
    rw [State.run_of_window hc horigin]
    refine ⟨fun u st sub n h => ?_, fun u h => State.advance_of_stop hc _ (State.runCmd_of_letIn hadm h), fun u c' h hc' hadm' hfin' => ?_⟩
    · refine State.advance_of_stop hc _ ((State.runCmd_of_turned_away hadm h).trans ?_)
      simp only [State.halt, hadm, Bool.false_eq_true, if_false]
    · rw [State.advance_of_go hc _ (State.runCmd_of_letIn hadm h)]
      refine ⟨fun n v hwork hpark => State.advance_of_stop hc' _ ((State.runCmd_of_halt hadm' hfin' hwork).trans hpark),
        fun n v hwork hpark => State.advance_of_go hc' _ ((State.runCmd_of_halt hadm' hfin' hwork).trans hpark),
        fun d v c₂ f hwork hturn hacc hc₂ hadm₂ hfin₂ => ?_⟩
      rw [State.advance_of_go hc' _ (State.runCmd_of_accept hadm' hfin' hwork hturn hacc)]
      exact State.advance_of_stop (n := runFuel - 3) hc₂ (State.runCmd_of_done hadm₂ hfin₂)
  · exact State.settle_of_mutating hprog hver hfree haway hmut
  · rw [State.settle_of_reading hprog hver hfree hmut hattend hpass, State.endWork_of_window s f horigin hsearch]

end Sys2Proof.Machine
end

section
/-! SUPPORT. How NOP and FENCE end, and what charges, messages to peers and retention leave (spec 09 R300, 08 R255, 10 R340, 12 R396, 05 R165). -/

namespace Sys2Proof.Machine

/-- From `s` to `t` the rings, the contexts, the stored bytes, the frets and the keys stand. -/
structure Calm (s t : State) : Prop where
  rings : t.rings = s.rings
  ctxs : t.ctxs = s.ctxs
  hbm : t.hbm = s.hbm
  frets : t.frets = s.frets
  sec : t.sec = s.sec

theorem Calm.trans {s t u : State} (h : Calm s t) (k : Calm t u) : Calm s u :=
  ⟨k.rings.trans h.rings, k.ctxs.trans h.ctxs, k.hbm.trans h.hbm, k.frets.trans h.frets, k.sec.trans h.sec⟩

theorem modCmd_calm (s : State) (id : Nat) (f : Cmd → Cmd) : Calm s (s.modCmd id f) := ⟨rfl, rfl, rfl, rfl, rfl⟩

/-- From `s` to `t` the commands stand too. -/
structure Stands (s t : State) : Prop extends Calm s t where
  cmds : t.cmds = s.cmds

theorem Stands.refl (s : State) : Stands s s := ⟨⟨rfl, rfl, rfl, rfl, rfl⟩, rfl⟩

theorem Stands.trans {s t u : State} (h : Stands s t) (k : Stands t u) : Stands s u :=
  ⟨h.toCalm.trans k.toCalm, k.cmds.trans h.cmds⟩

theorem Stands.cmd {s t : State} (h : Stands s t) (id : Nat) : t.cmd id = s.cmd id := by
  simp only [State.cmd, h.cmds]

theorem Stands.foldl {α : Type} {f : State → α → State} (h : ∀ s x, Stands s (f s x)) : ∀ (l : List α) (s : State), Stands s (l.foldl f s)
  | [], s => .refl s
  | x :: l, s => (h s x).trans (Stands.foldl h l (f s x))

theorem Stands.of_reports {s t : State} (h : Reports s t) : Stands s t := by
  obtain ⟨r, a, b, rfl⟩ := h
  exact ⟨⟨rfl, rfl, rfl, rfl, rfl⟩, rfl⟩

/-! ## Charges and retention -/

theorem modPart_stands (s : State) (p : Nat) (f : PartSt → PartSt) : Stands s (s.modPart p f) := ⟨⟨rfl, rfl, rfl, rfl, rfl⟩, rfl⟩

theorem take_stands (s : State) (p r n : Nat) (k : Class) : Stands s (s.take p r n k) := by
  unfold State.take
  dsimp only
  split
  · exact .of_reports (bump_reports s _ _)
  · exact (Stands.of_reports (bump_reports s _ _)).trans (modPart_stands _ _ _)

theorem charge_stands {s t : State} {p r n : Nat} (h : s.charge p r n = some t) : Stands s t := by
  unfold State.charge at h
  split at h
  · cases h; exact .refl s
  · split at h
    · cases h
    · split at h
      · cases h
      · cases h; exact take_stands s _ _ _ _
    · cases h; exact take_stands s _ _ _ _

theorem setFloor_stands (s : State) (t : Target) (e : Nat) : Stands s (s.setFloor t e) := by
  cases t <;> exact ⟨⟨rfl, rfl, rfl, rfl, rfl⟩, rfl⟩

theorem yieldFloor_stands (s : State) (f : Nat) : Stands s (s.yieldFloor f) := by
  unfold State.yieldFloor
  dsimp only
  split
  · exact .refl s
  · split
    · exact .refl s
    · split
      · exact .refl s
      · exact (setFloor_stands s _ _).trans (.of_reports (bump_reports _ _ _))

theorem yieldAll_stands (s : State) : Stands s s.yieldAll := by
  unfold State.yieldAll
  refine Stands.foldl (fun t c => ?_) s.cmds s
  split
  · exact yieldFloor_stands t _
  · exact .refl t

/-! ## Messages to peers -/

theorem setLink_stands (s : State) (l : Nat) (x : LinkSt) : Stands s (s.setLink l x) := ⟨⟨rfl, rfl, rfl, rfl, rfl⟩, rfl⟩

theorem pump_stands (s : State) (l : Nat) : Stands s (s.pump l) := by
  unfold State.pump
  dsimp only
  split
  · exact .refl s
  · exact ((setLink_stands s _ _).trans (.of_reports (bump_reports _ _ _))).trans (.of_reports (setReg32_reports _ _ _))

theorem fab_stands (s : State) (x : FabSt) : Stands s { s with fab := x } := ⟨⟨rfl, rfl, rfl, rfl, rfl⟩, rfl⟩

theorem enqueue_stands (s : State) (l : Nat) (fs : List TxFlit) : Stands s (s.enqueue l fs) :=
  ((setLink_stands s l _).trans (pump_stands _ l)).trans (.of_reports (bumps_reports _ _))

theorem trySendNot_stands (s : State) (m : Msg) (low : Bool) (avoid : Nat) : Stands s (s.trySendNot m low avoid).1 := by
  unfold State.trySendNot
  split
  · exact fab_stands s _
  · dsimp only
    split
    · exact .refl s
    · rename_i l _
      split
      · exact enqueue_stands s l _
      · exact ((enqueue_stands s l _).trans (fab_stands _ _)).trans (.of_reports (bump_reports _ _ _))

theorem putMsg_stands (s : State) (m : Msg) : Stands s (s.putMsg m) := by
  unfold State.putMsg
  dsimp only
  split
  · exact trySendNot_stands s m false 31
  · exact .of_reports ((bump_reports s _ _).trans (raise_reports _ _ _))

theorem col_stands (s : State) (x : ColSt) : Stands s { s with col := x } := ⟨⟨rfl, rfl, rfl, rfl, rfl⟩, rfl⟩

theorem collDrop_stands (s : State) (id sub : Nat) : Stands s (s.collDrop id sub) := by
  unfold State.collDrop
  refine Stands.foldl (fun s k => ?_) _ s
  dsimp only
  split
  · exact (Stands.foldl (fun s j => putMsg_stands s _) _ s).trans (col_stands _ _)
  · exact (putMsg_stands s _).trans (col_stands _ _)

/-! ## One command changed -/

section
variable {s : State} {id : Nat} {f g : Cmd → Cmd} (hf : ∀ x, (f x).id = x.id)
include hf

theorem State.cmd_modCmd {c : Cmd} (h : s.cmd id = some c) : (s.modCmd id f).cmd id = some (f c) := by
  have hkey : ∀ x : Cmd, (if x.id == id then f x else x).id = x.id := fun x => by split <;> simp [hf]
  have hid : c.id = id := beq_iff_eq.1 (List.find?_some (p := fun x : Cmd => x.id == id) h)
  calc (s.modCmd id f).cmd id = (s.cmd id).map fun x => if x.id == id then f x else x := find?_key_map (key := Cmd.id) hkey s.cmds id
    _ = some (f c) := by simp [h, hid]

theorem State.modCmd_modCmd : (s.modCmd id f).modCmd id g = s.modCmd id (g ∘ f) := by
  simp only [State.modCmd, List.map_map]
  congr 1
  refine List.map_congr_left fun x _ => ?_
  by_cases hx : x.id = id <;> simp [hx, hf]

end

/-! ## NOP and FENCE have no targets, no stages and no output -/

/-- The opcodes whose only effect is their record (09 R300). -/
def Cmd.idle (c : Cmd) : Prop := c.opcode = 0x01 ∨ c.opcode = 0x7F

section
variable {c : Cmd} (hidle : c.idle)
include hidle

theorem Cmd.idle.ne {op : Nat} (h1 : 0x01 ≠ op := by decide) (h2 : 0x7F ≠ op := by decide) : c.opcode ≠ op := by
  obtain h | h := hidle <;> rw [h]
  · exact h1
  · exact h2

theorem Cmd.idle.not_mutating : isMutating c.opcode = false := by
  obtain h | h := hidle <;> rw [h] <;> decide

theorem Cmd.idle.away (s : State) : s.away c = false := by
  have hop : [0x32, 0x33, 0x34, 0x36].contains c.opcode = false := by obtain h | h := hidle <;> rw [h] <;> decide
  simp only [State.away, hop, Bool.false_and]

theorem Cmd.idle.targets (s : State) : s.targets c = [] := by
  simp only [State.targets, hidle.away s]
  obtain h | h := hidle <;> rw [h] <;> rfl

theorem Cmd.idle.convKeys (s : State) : s.convKeys c = [] := by
  simp only [State.convKeys, hidle.away s]
  obtain h | h := hidle <;> rw [h] <;> rfl

theorem Cmd.idle.opCheck (s : State) (dyn : Bool) : s.opCheck c dyn = plainCheck c := by
  obtain h | h := hidle <;> simp only [State.opCheck, h]

theorem Cmd.idle.convMeets (s : State) (x : Cmd) : s.convMeets c x = false := by
  simp [State.convMeets, hidle.convKeys s]

theorem Cmd.idle.dropPasses (s : State) : s.dropPasses c = s := by
  have hnone : (s.cmds.filter fun x => x.opcode == opPass && x.admitted && s.convMeets c x) = [] :=
    List.filter_eq_nil_iff.2 fun x _ => by simp only [hidle.convMeets s x, Bool.and_false, Bool.false_eq_true, not_false_eq_true]
  simp only [State.dropPasses, hnone, List.foldl_nil, ite_self]

theorem Cmd.idle.behindOf (s : State) : s.behindOf c = [] := by
  simp [State.behindOf, hidle.not_mutating]

/-- What no window command waits for that has no targets: a restore, a replay, a conversion, room in a side, a collective's slot. -/
theorem Cmd.idle.holdWhy (s : State) (horigin : c.origin = .window) : s.holdWhy c =
    if s.cmds.any (fun x => x.ctx == c.ctx && x.origin == .window && x.opcode == 0x7F && decide (x.id < c.id)) then some .fence
    else if c.ordered && s.before c then some .ordered else none := by
  have h10 := beq_eq_false_iff_ne.2 (hidle.ne (op := 0x10))
  have h20 := beq_eq_false_iff_ne.2 (hidle.ne (op := 0x20))
  have h21 := beq_eq_false_iff_ne.2 (hidle.ne (op := 0x21))
  have h32 := beq_eq_false_iff_ne.2 (hidle.ne (op := 0x32))
  have h50 := beq_eq_false_iff_ne.2 (hidle.ne (op := 0x50))
  have h60 := beq_eq_false_iff_ne.2 (hidle.ne (op := 0x60))
  have h61 := beq_eq_false_iff_ne.2 (hidle.ne (op := 0x61))
  have hpass : (c.opcode == opPass) = false := beq_eq_false_iff_ne.2 hidle.ne
  have hrestore : s.restoreWait c = false := by simp [State.restoreWait, h61, hidle.targets s]
  have hreplay : s.replayWait c = false := by simp [State.replayWait, horigin, Origin.isReplay, hidle.targets s]
  have hconv : s.convWait c = false := by simp [State.convWait, hpass, hidle.convMeets s]
  have hbind : s.bindWait c = false := by simp [State.bindWait, h21]
  simp [State.holdWhy, horigin, hrestore, hreplay, hconv, hbind, h10, h20, h32, h50, h60]

end

/-! ## What is accepted of them -/

/-- The end of a command that has counted to `n` and answers nothing more (09 R300). -/
def Finish.counting (n : Nat) : Finish := { Finish.ok with counter := n }

/-- A command that owes nothing. -/
def Cmd.uncharged (c : Cmd) : Cmd := { c with charged := 0 }

/-- A command whose work has come to that end, with nothing staged. -/
def Cmd.counted (n : Nat) (c : Cmd) : Cmd := { c with fin := some (Finish.counting n), stages := [], done := [], taken := tdel c.taken pageKey }

theorem Cmd.allCharges_counting (c : Cmd) (n : Nat) : c.allCharges 0 (Finish.counting n) = [] := by
  simp [Cmd.allCharges, Finish.counting, Finish.ok]

theorem State.logFull_of_reading {c : Cmd} (hmut : isMutating c.opcode = false) (s : State) (d : Done) : s.logFull c d = false := by
  simp [State.logFull, Cmd.logs, hmut]

theorem State.writeStage_counting {s : State} {c : Cmd} (hop : c.opcode ≠ 0x70) (n : Nat) :
    s.writeStage c (Done.of (Finish.counting n)) = .ok (s.modCmd c.id (Cmd.counted n)) := by
  have h70 : (c.opcode == 0x70) = false := beq_eq_false_iff_ne.2 hop
  have hpages : s.writePages c c.part (c.opcode != 0x72) [] = .ok s := rfl
  simp only [State.writeStage, Done.of, hpages, h70]
  rfl

/-- A partition whose context has paid for no stroke (10 R346). -/
def State.unstruck (s : State) (c : Cmd) : State := s.modPart c.part fun x => { x with credit := tset x.credit c.ctx (tgetD x.credit c.ctx 0) }

theorem State.accept_counting {s : State} {c : Cmd} (hidle : c.idle) (n : Nat) :
    s.accept c (Done.of (Finish.counting n)) = ((s.unstruck c).modCmd c.id (Cmd.counted n ∘ Cmd.uncharged), .ok true) := by
  have hcharges : c.allCharges (dedupNat ((Done.of (Finish.counting n)).pages.map fun x => s.gpage c.part x.lua)).length (Done.of (Finish.counting n)).fin = [] :=
    c.allCharges_counting n
  have hputs : (Done.of (Finish.counting n)).puts = [] := rfl
  have hstrokes : ∀ i : Int, i - (sumList ((f5 []).map (·.2)) : Nat) = i := Int.sub_zero
  have hstage := State.writeStage_counting (s := (s.unstruck c).modCmd c.id fun x => { x with charged := 0 }) (c := { c with charged := 0 }) hidle.ne n
  simp only [State.unstruck] at hstage
  simp only [State.accept, State.logFull_of_reading hidle.not_mutating, hputs, hcharges, hstrokes, hstage, List.find?_nil, List.drop_nil, State.chargeFrom,
    Bool.false_eq_true, if_false, List.length_nil]
  exact congrArg (·, Except.ok true) (State.modCmd_modCmd (s := s.unstruck c) (f := Cmd.uncharged) (g := Cmd.counted n) fun _ => rfl)

/-! ## How they end -/

/-- `t` is `s` after the command's record has been put on its ring, and nothing else has changed in HBM, on a ring or in a context. -/
def State.EndsWith (s : State) (c : Cmd) (n : Nat) (t : State) : Prop :=
  ∃ v : State, t = v.putRec c.port c.ctx (c.record stOk 0 0 0 0 n) ∧ (∀ x ∈ v.cmds, x.id ≠ c.id) ∧ Calm s v

theorem State.not_mem_dropCmd (s : State) (id : Nat) : ∀ x ∈ (s.dropCmd id).cmds, x.id ≠ id := by
  simp [State.dropCmd]

section
variable {c : Cmd}

theorem State.answer_endsWith {s u : State} (h : Stands s u) (horigin : c.origin = .window) (n : Nat) : s.EndsWith c n (u.answer c stOk 0 0 0 n []) := by
  refine ⟨(u.forget c).dropCmd c.id, ?_, State.not_mem_dropCmd _ _, h.toCalm.trans ⟨rfl, rfl, rfl, rfl, rfl⟩⟩
  simp only [State.answer, horigin, List.length_nil, ite_self]

theorem State.finish_counting (s : State) (horigin : c.origin = .window) (hflags : c.flags = 0) (n : Nat) : s.EndsWith c n (s.finish c (Finish.counting n)) := by
  have hwrite : ∀ u : State, u.writeBuf c c.outAddr [] = u := fun u => rfl
  have hpf : ∀ u : State, u.pfInsert c.part [] = u := fun u => rfl
  have hbumps : ∀ u : State, u.bumps [] = u := fun u => rfl
  simp only [State.finish, Finish.counting, Finish.ok, hwrite, hpf, hbumps, Cmd.flagsNow, hflags, ite_self, List.foldl_nil, Nat.or_zero]
  exact State.answer_endsWith (modPart_stands s c.part _) horigin n

variable (hidle : c.idle) (horigin : c.origin = .window) (hflags : c.flags = 0)
include hidle horigin hflags

theorem State.complete_counting (s : State) (n : Nat) : s.EndsWith c n (s.complete c (Finish.counting n)) := by
  have h20 := beq_eq_false_iff_ne.2 (hidle.ne (op := 0x20))
  have h60 := beq_eq_false_iff_ne.2 (hidle.ne (op := 0x60))
  have hcomplete : s.complete c (Finish.counting n) = (s.collDrop c.id 0x0102).finish c (Finish.counting n) := by
    simp only [State.complete, h20, h60, Finish.counting, Finish.ok, Nat.not_lt_zero, Bool.false_and, Bool.false_eq_true, if_false]
  obtain ⟨v, hv, hgone, hcalm⟩ := (s.collDrop c.id 0x0102).finish_counting horigin hflags n
  exact ⟨v, hcomplete.trans hv, hgone, (collDrop_stands s c.id 0x0102).toCalm.trans hcalm⟩

theorem State.settle_counting (s : State) (hdone : c.done = []) (hstages : c.stages = []) (n : Nat) : s.EndsWith c n (s.settle c (Finish.counting n)) := by
  have hprog : s.programmed c.done = true := by rw [hdone]; rfl
  have hver : s.verifyFails c = none := by simp [State.verifyFails, hstages]
  have hcount : s.countFrets c (Finish.counting n) = [] := by
    unfold State.countFrets
    split
    · rename_i h
      cases h
    · rfl
  have hfrets : s.outFrets c (Finish.counting n) = [] := by
    rw [State.outFrets, hcount]
    simp [hstages, fretsAt, Finish.counting, Finish.ok]
  rw [State.settle_of_reading hprog hver (by rw [hfrets]; rfl) hidle.not_mutating hidle.ne hidle.ne, State.endWork_of_window s _ horigin hidle.ne]
  exact State.complete_counting hidle horigin hflags s n

/-- An admitted one whose work is done is accepted, settles and ends in the same run. -/
theorem State.advance_counting {s : State} {n : Nat} (hc : s.cmd c.id = some c) (hadm : c.admitted = true) (hfin : c.fin = none) (hbehind : c.behind = [])
    (hwork : s.opWork c = .ok (Done.of (Finish.counting n))) (fuel : Nat) : s.EndsWith c n (State.advance (fuel + 1 + 1) s c.id) := by
  have hturn : s.stageTurn c = true := by simp [State.stageTurn, State.ahead, hbehind]
  have hstruck : Stands s (s.unstruck c) := modPart_stands s c.part _
  have hc' : ((s.unstruck c).modCmd c.id (Cmd.counted n ∘ Cmd.uncharged)).cmd c.id = some (c.uncharged.counted n) :=
    State.cmd_modCmd (f := Cmd.counted n ∘ Cmd.uncharged) (fun _ => rfl) ((hstruck.cmd c.id).trans hc)
  rw [State.advance_of_go hc _ (State.runCmd_of_accept hadm hfin hwork hturn (State.accept_counting hidle n)),
    State.advance_of_stop hc' _ (State.runCmd_of_done hadm rfl)]
  obtain ⟨v, hv, hgone, hcalm⟩ := State.settle_counting (c := c.uncharged.counted n) hidle horigin hflags
    ((s.unstruck c).modCmd c.id (Cmd.counted n ∘ Cmd.uncharged)) rfl rfl n
  exact ⟨v, hv, hgone, hstruck.toCalm.trans ((modCmd_calm _ _ _).trans hcalm)⟩

end

/-! ## How a NOP is admitted -/

/-- What admission writes into `x`, the command it has let in as `c` (09 R299, 13 R409). -/
def State.admits (s : State) (c x : Cmd) : Cmd :=
  { x with admitted := true, epoch := c.epoch, admitAt := s.time.lctr, behind := s.behindOf c, phase := .run .none, eds := if x.eds.isEmpty then s.tagEds c else x.eds,
           covers := if c.opcode == 0x7F then s.fenceCovers c else x.covers }

/-- A command tagged with epoch `e` (13 R409). -/
def Cmd.inEpoch (e : Nat) (c : Cmd) : Cmd := { c with epoch := e }

/-- An idle window command that nothing holds is let in once its unit of admission is paid (10 R340). -/
theorem State.letIn_of_idle {s u : State} {c : Cmd} (hidle : c.idle) (horigin : c.origin = .window) (hreruns : c.reruns = 0) (hcheck : plainCheck c = .ok ())
    (hwhy : s.holdWhy c = none) (hcharge : s.charge c.part 0 1 = some u) :
    s.letIn c = ((u.bump (pCau + 0x040) 1).modCmd c.id ((u.bump (pCau + 0x040) 1).admits (c.inEpoch s.epoch)), .ok true) := by
  have hidle' : (c.inEpoch s.epoch).idle := hidle
  have hwhy' : s.holdWhy (c.inEpoch s.epoch) = none := (hidle'.holdWhy s horigin).trans ((hidle.holdWhy s horigin).symm.trans hwhy)
  have hcheck' : s.opCheck (c.inEpoch s.epoch) true = .ok () := (hidle'.opCheck s true).trans hcheck
  have hpasses : u.dropPasses (c.inEpoch s.epoch) = u := hidle'.dropPasses u
  have hint : (Origin.window == Origin.internal) = false := rfl
  have hwin : (Origin.window == Origin.window) = true := rfl
  simp only [Cmd.inEpoch, horigin, hreruns] at hwhy' hcheck' hpasses
  simp only [State.letIn, horigin, hint, hwin, hreruns, hwhy', hcheck', hcharge, hpasses, Origin.isReplay, Bool.false_and, Bool.true_or, Bool.true_and,
    Bool.false_eq_true, if_false, if_true, BEq.rfl, Cmd.inEpoch]
  rfl

section
variable {s : State} {c : Cmd}

theorem Cmd.idle.opWork_nop (hop : c.opcode = 0x01) : s.opWork c = .ok (Done.of (Finish.counting 0)) := by
  simp only [State.opWork, Cmd.idle.away (.inl hop), hop, Bool.false_eq_true, if_false]
  rfl

theorem exec_nop_endsWith {u : State} {ctx : Nat} (hhead : s.headOf ctx = some c) (hc : s.cmd c.id = some c) (hphase : c.phase = .queued) (hop : c.opcode = 0x01)
    (hadm : c.admitted = false) (hreruns : c.reruns = 0) (hflags : c.flags = 0) (hfin : c.fin = none) (hcheck : plainCheck c = .ok ())
    (hwhy : s.yieldAll.holdWhy c = none) (hcharge : s.yieldAll.charge c.part 0 1 = some u) : ∃ t, exec (.nop ctx) s = .next t ∧ s.EndsWith c 0 t := by
  obtain ⟨_, horigin⟩ := State.headOf_spec hhead
  have hidle : c.idle := .inl hop
  have hlet := State.letIn_of_idle hidle horigin hreruns hcheck hwhy hcharge
  have hstands : Stands s (u.bump (pCau + 0x040) 1) := (yieldAll_stands s).trans ((charge_stands hcharge).trans (.of_reports (bump_reports u _ _)))
  refine ⟨_, congrArg Host.Outcome.next (State.admitHead_of_head hhead hop hphase), ?_⟩
  rw [State.run_of_window hc horigin, State.advance_of_go hc _ (State.runCmd_of_letIn hadm hlet)]
  have hc' := State.cmd_modCmd (f := (u.bump (pCau + 0x040) 1).admits (c.inEpoch s.yieldAll.epoch)) (fun _ => rfl) ((hstands.cmd c.id).trans hc)
  obtain ⟨v, hv, hgone, hcalm⟩ := State.advance_counting (c := (u.bump (pCau + 0x040) 1).admits (c.inEpoch s.yieldAll.epoch) c) (.inl hop) horigin hflags hc' rfl hfin
    (Cmd.idle.behindOf (c := c.inEpoch s.yieldAll.epoch) (.inl hop) _) (Cmd.idle.opWork_nop hop) (runFuel - 3)
  exact ⟨v, hv, hgone, hstands.toCalm.trans ((modCmd_calm _ _ _).trans hcalm)⟩

/-! ## What a FENCE waits for -/

/-- A command that `c` covers has not ended or its record still stands, or an internal command of its partition is at work that it waits for (09 R300). -/
def State.FenceBusy (s : State) (c : Cmd) : Prop :=
  (∃ i ∈ c.covers, (∃ x ∈ s.cmds, x.id = i) ∨ ∃ r ∈ s.rings, ∃ x ∈ r.2.held, x.id = i ∧ x.kind = 0) ∨
    (bitOf (c.w 12) 1 = true ∧ ∃ x ∈ s.cmds, x.part = c.part ∧ x.origin = .internal ∧ x.admitted = true)

theorem State.fenceWork_of_busy (h : s.FenceBusy c) : s.fenceWork c = .error (.wait .none) := by
  refine if_pos ?_
  simpa [State.FenceBusy, and_assoc, Bool.or_eq_true, and_left_comm] using h

theorem State.fenceWork_of_not_busy (h : ¬s.FenceBusy c) : s.fenceWork c = .ok (Done.of (Finish.counting c.covers.length)) := by
  refine if_neg ?_
  simpa [State.FenceBusy, and_assoc, Bool.or_eq_true, and_left_comm] using h

theorem State.opWork_fence (hop : c.opcode = 0x7F) : s.opWork c = s.fenceWork c := by
  simp only [State.opWork, Cmd.idle.away (.inr hop), hop, Bool.false_eq_true, if_false]

theorem exec_fence_of_found {ctx : Nat} (h : (s.cmds.find? fun c => c.ctx == ctx && c.opcode == 0x7F && c.admitted) = some c) :
    exec (.fence ctx) s = .next (s.run c.id) := by
  simp only [exec, execFence, h]

section
variable (hop : c.opcode = 0x7F) (hc : s.cmd c.id = some c) (horigin : c.origin = .window) (hadm : c.admitted = true) (hfin : c.fin = none)
include hop hc horigin hadm hfin

theorem State.run_fence_of_busy (h : s.FenceBusy c) : s.run c.id = s.waitOn c .none := by
  have hwork : s.opWork c = .error (.wait .none) := (State.opWork_fence hop).trans (State.fenceWork_of_busy h)
  rw [State.run_of_window hc horigin]
  exact State.advance_of_stop hc _ (State.runCmd_of_halt hadm hfin hwork)

theorem State.run_fence_of_not_busy (hflags : c.flags = 0) (hbehind : c.behind = []) (h : ¬s.FenceBusy c) : s.EndsWith c c.covers.length (s.run c.id) := by
  have hwork := (State.opWork_fence hop).trans (State.fenceWork_of_not_busy h)
  rw [State.run_of_window hc horigin]
  exact State.advance_counting (.inr hop) horigin hflags hc hadm hfin hbehind hwork _

end

end

/-- Settles O14: both end in the run that finds nothing left to wait for; a FENCE that finds something waits again. -/
theorem nopAndFenceComplete : Obligations.NopAndFenceComplete := by
  unfold Obligations.NopAndFenceComplete
  refine ⟨fun ctx s u c hhead hc hphase hop hadm hreruns hflags hfin _ _ hcheck hwhy hcharge => ?_, fun ctx s c hfind hc hfin _ hflags horigin hbehind => ?_⟩
  · obtain ⟨hctx, _⟩ := State.headOf_spec hhead
    obtain ⟨t, hexec, v, rfl, hgone, hcalm⟩ := exec_nop_endsWith hhead hc hphase hop hadm hreruns hflags hfin hcheck hwhy hcharge
    exact ⟨v, hctx ▸ hexec, hgone, hcalm.hbm, hcalm.rings, hcalm.ctxs, hcalm.frets, hcalm.sec⟩
  · have hspec := List.find?_some hfind
    simp only [Bool.and_eq_true, beq_iff_eq] at hspec
    obtain ⟨⟨hctx, hop⟩, hadm⟩ := hspec
    rw [exec_fence_of_found hfind]
    refine ⟨fun hbusy => congrArg Host.Outcome.next (State.run_fence_of_busy hop hc horigin hadm hfin hbusy), fun hfree => ?_⟩
    obtain ⟨v, hv, hgone, hcalm⟩ := State.run_fence_of_not_busy hop hc horigin hadm hfin hflags hbehind hfree
    exact ⟨v, congrArg Host.Outcome.next (hctx ▸ hv), hgone, hcalm.hbm, hcalm.rings, hcalm.ctxs⟩

end Sys2Proof.Machine
end

section
/-! SUPPORT. Contexts: the transitions of CTX_ENT_CTL and what they leave of a context's work (spec 10 R322, R323, R332 to R334; log entry 156). -/

namespace Sys2Proof.Machine

/-! ## The commands that are left when one ends -/

@[simp] theorem State.putRec_cmds (s : State) (p : Port) (ctx : Nat) (x : Rec) : (s.putRec p ctx x).cmds = s.cmds := by
  unfold State.putRec
  dsimp only
  split
  · exact (writeRec_writesRecords s p ctx x).cmds
  · rfl

/-- A command that is changed and then goes leaves the others as they were. -/
theorem State.cmds_dropCmd_modCmd (s : State) (id : Nat) {f : Cmd → Cmd} (hf : ∀ x, (f x).id = x.id) : ((s.modCmd id f).dropCmd id).cmds = (s.dropCmd id).cmds := by
  simp only [State.modCmd, State.dropCmd]
  induction s.cmds with
  | nil => rfl
  | cons x r ih => by_cases h : x.id = id <;> simpa [h, hf] using ih

theorem State.dropCmd_cmds_congr {s t : State} (h : t.cmds = s.cmds) (id : Nat) : (t.dropCmd id).cmds = (s.dropCmd id).cmds :=
  congrArg (List.filter fun c : Cmd => c.id != id) h

/-- Discarding a stage leaves every other command. -/
theorem State.cmds_dropCmd_discard (s : State) (c : Cmd) : ((s.discard c).dropCmd c.id).cmds = (s.dropCmd c.id).cmds := by
  unfold State.discard
  dsimp only
  split <;> exact State.cmds_dropCmd_modCmd _ c.id fun _ => rfl

section
variable {c : Cmd} (horigin : c.origin = .window)
include horigin

theorem State.answer_cmds_of_window (s : State) (st sub result edition counter : Nat) (out : List Byte) :
    (s.answer c st sub result edition counter out).cmds = (s.dropCmd c.id).cmds := by
  simp only [State.answer, horigin, State.putRec_cmds]
  rfl

theorem State.refuseCmd_cmds_of_window (s : State) (st sub counter : Nat) : (s.refuseCmd c st sub counter).cmds = (s.dropCmd c.id).cmds := by
  rw [State.refuseCmd, State.answer_cmds_of_window horigin]
  refine State.dropCmd_cmds_congr ?_ c.id
  have hcount : (if (st == 0) = true then s.bump (pCau + 0x040) 1
      else { (if (st == stBufferShort) = true then (s.bump (pCau + 0x048) 1).bump (pCau + 0x050) 1 else s.bump (pCau + 0x048) 1) with
        refuse := (st, sub, c.opcode, c.ctx) }).cmds = s.cmds := by
    split
    · rfl
    · split <;> rfl
  dsimp only
  split <;> exact hcount

end

/-- Window commands that are refused one after another are gone; the others stand. -/
theorem State.mem_foldl_refused {st sub counter : Nat} (l : List Cmd) (hl : ∀ c ∈ l, c.origin = .window) : ∀ (s : State),
    ∀ x ∈ (l.foldl (fun s c => (s.discard c).refuseCmd c st sub counter) s).cmds, x ∈ s.cmds ∧ ∀ c ∈ l, x.id ≠ c.id := by
  induction l with
  | nil => exact fun s x hx => ⟨hx, fun c hc => nomatch hc⟩
  | cons a r ih =>
    intro s x hx
    obtain ⟨hfirst, hrest⟩ := ih (fun c hc => hl c (List.mem_cons_of_mem a hc)) _ x hx
    rw [State.refuseCmd_cmds_of_window (hl a List.mem_cons_self), State.cmds_dropCmd_discard] at hfirst
    obtain ⟨hmem, hne⟩ := List.mem_filter.1 hfirst
    exact ⟨hmem, List.forall_mem_cons.2 ⟨by simpa using hne, hrest⟩⟩

/-! ## Writes of CTX_ENT_CTL (10 R322) -/

/-- A context that has begun a drain (10 R322): its descriptors that are not admitted are turned away. -/
def State.beginDrain (s : State) (n : Nat) : State :=
  (s.cmds.filter fun c => c.ctx == n && c.origin == .window && !c.entered).foldl (fun s c => (s.discard c).refuseCmd c stCtxFault 0x0970 0)
    (s.modCtx n fun x => { x with state := .draining })

theorem State.beginDrain_ends (s : State) (n : Nat) : Ends (s.modCtx n fun x => { x with state := .draining }) (s.beginDrain n) :=
  Ends.foldl (fun s c => (discard_ends s c).trans (refuseCmd_ends _ _ _ _ _)) _ _

theorem State.entered_of_mem_beginDrain {s : State} {n : Nat} : ∀ c ∈ (s.beginDrain n).cmds, c.ctx = n → c.origin = .window → c.entered = true := by
  have hwindow : ∀ c ∈ s.cmds.filter (fun c => c.ctx == n && c.origin == .window && !c.entered), c.origin = .window := fun c hc => by
    have hpick := (List.mem_filter.1 hc).2
    simp only [Bool.and_eq_true, beq_iff_eq] at hpick
    exact hpick.1.2
  intro c hc hctx horigin
  obtain ⟨hmem, hkept⟩ := State.mem_foldl_refused _ hwindow _ c hc
  cases hentered : c.entered with
  | true => rfl
  | false => exact absurd rfl (hkept c (List.mem_filter.2 ⟨hmem, by simp only [hctx, horigin, hentered, BEq.rfl, Bool.not_false, Bool.and_self]⟩))

section
variable {a : Agent} {s : State}

theorem State.entCtl_of_reaches (hreach : s.reaches a (pCtx + 0x10C) = true) (f : Nat → State) : s.entCtl a f = f (s.selCtx a) := if_pos hreach

variable (hreach : s.reaches a (pCtx + 0x10C) = true)
include hreach

theorem exec_enable_of_off (hoff : (s.ctx (s.selCtx a)).state = .off) (hunits : (s.part (s.ctx (s.selCtx a)).part).units ≠ 0) :
    exec (.enable a) s = .next (s.modCtx (s.selCtx a) fun x => { x with state := .ready, gen := x.gen + 1 }) := by
  simp [exec, execEnable, State.entCtl_of_reaches hreach, hoff, hunits]

theorem exec_enable_of_unlisted (h : (s.ctx (s.selCtx a)).state ≠ .off ∨ (s.part (s.ctx (s.selCtx a)).part).units = 0) : exec (.enable a) s = .next s := by
  rcases h with h | h <;> simp [exec, execEnable, State.entCtl_of_reaches hreach, h]

theorem exec_clear_of_faulted (h : (s.ctx (s.selCtx a)).state = .faulted) :
    exec (.clear a) s = .next (s.modCtx (s.selCtx a) fun x => { x with state := .ready, cause := 0 }) := by
  simp [exec, execClear, State.entCtl_of_reaches hreach, h]

theorem exec_clear_of_unlisted (h : (s.ctx (s.selCtx a)).state ≠ .faulted) : exec (.clear a) s = .next s := by
  simp [exec, execClear, State.entCtl_of_reaches hreach, h]

theorem exec_disable_of_ready (h : (s.ctx (s.selCtx a)).state = .ready) : exec (.disable a) s = .next (s.beginDrain (s.selCtx a)) := by
  simp only [exec, execDisable, State.entCtl_of_reaches hreach, h]
  rfl

theorem exec_disable_of_faulted (h : (s.ctx (s.selCtx a)).state = .faulted) :
    exec (.disable a) s = .next (s.modCtx (s.selCtx a) fun x => { x with state := .off, cause := 0 }) := by
  simp only [exec, execDisable, State.entCtl_of_reaches hreach, h]

theorem exec_disable_of_unlisted (h : (s.ctx (s.selCtx a)).state = .off ∨ (s.ctx (s.selCtx a)).state = .draining) : exec (.disable a) s = .next s := by
  rcases h with h | h <;> simp only [exec, execDisable, State.entCtl_of_reaches hreach, h]

theorem exec_fault : exec (.fault a) s = .next (s.faultCtx (s.selCtx a) 3 none) := by
  simp only [exec, execFault, State.entCtl_of_reaches hreach]

theorem exec_fault_of_unlisted (h : (s.ctx (s.selCtx a)).state = .off ∨ (s.ctx (s.selCtx a)).state = .faulted) : exec (.fault a) s = .next s := by
  rw [exec_fault hreach]
  rcases h with h | h <;> simp [State.faultCtx, h]

theorem exec_unbind_of_off (h : (s.ctx (s.selCtx a)).state = .off) : exec (.unbind a) s = .next (s.unbind (s.selCtx a)) := by
  simp [exec, execUnbind, State.entCtl_of_reaches hreach, h]

theorem exec_unbind_of_unlisted (h : (s.ctx (s.selCtx a)).state ≠ .off) : exec (.unbind a) s = .next s := by
  simp [exec, execUnbind, State.entCtl_of_reaches hreach, h]

end

theorem exec_contextDrained_of_none_left {s : State} {ctx : Nat} (hdrain : (s.ctx ctx).state = .draining) (hnone : ∀ c ∈ s.cmds, c.ctx = ctx → c.origin ≠ .window) :
    exec (.contextDrained ctx) s = .next (s.modCtx ctx fun x => { x with state := .off }) := by
  have hany : (s.cmds.any fun c => c.ctx == ctx && c.origin == .window) = false :=
    List.any_eq_false.2 fun c hc => by simpa using hnone c hc
  simp [exec, execContextDrained, hdrain, hany]

/-! ## A released region (10 R323, R333) -/

theorem dropPf_ends (s : State) (p n : Nat) : Ends s (s.dropPf p n) := modPart_ends s p _ fun _ => rfl

theorem State.dropPf_pf (s : State) (p n : Nat) : ∀ x ∈ ((s.dropPf p n).part p).pf, x.target = n → x.src ≠ 2 ∧ x.src ≠ 3 ∧ x.src ≠ 6 ∧ x.src ≠ 7 := by
  intro x hx htarget
  rw [State.dropPf, State.part_modPart_same] at hx
  have hkept := (List.mem_filter.1 hx).2
  simpa [htarget, and_assoc] using hkept

/-- The bound region of an OFF context goes with its overlays and its prefetched rows; no byte of HBM changes. -/
theorem State.unbind_of_bound {s : State} {n : Nat} {r : Region} (h : s.region n = some r) :
    (s.unbind n).regions = s.regions.filter (fun x => x.ctx != n) ∧ (s.unbind n).ctxs = s.ctxs ∧ (s.unbind n).cmds = s.cmds ∧
      (s.unbind n).hbm.cells = s.hbm.cells ∧ (∀ o ∈ (s.unbind n).hbm.overlays, o.owner ≠ some (.region n)) ∧
      (∀ x ∈ ((s.unbind n).part r.part).pf, x.target = n → x.src ≠ 2 ∧ x.src ≠ 3 ∧ x.src ≠ 6 ∧ x.src ≠ 7) := by
  simp only [State.unbind, h]
  exact ⟨rfl, rfl, rfl, rfl, fun o ho => by simpa using (List.mem_filter.1 ho).2, State.dropPf_pf _ _ _⟩

/-- Settles O7: each write of CTX_ENT_CTL makes the transition of the table that the context's state allows, and is no transition from any other state. -/
theorem contextsMoveOnlyAsListed : Obligations.ContextsMoveOnlyAsListed := by
  unfold Obligations.ContextsMoveOnlyAsListed
  refine ⟨fun a s hreach => ⟨exec_enable_of_off hreach, fun h => ⟨exec_clear_of_faulted hreach h, exec_disable_of_faulted hreach h⟩, fun hoff r hr => ?_⟩, fun a s hreach => ?_⟩
  · exact ⟨_, exec_unbind_of_off hreach hoff, State.unbind_of_bound hr⟩
  · exact ⟨exec_enable_of_unlisted hreach, exec_clear_of_unlisted hreach, exec_disable_of_unlisted hreach, exec_fault_of_unlisted hreach, exec_unbind_of_unlisted hreach⟩

/-! ## A fault (10 R332 to R334) -/

/-- What a faulted context had of its partition goes once its commands have ended: frets of the slice that it held are scrubbed, and its rows leave the prefetch buffer (10 R333). -/
def State.giveUpFrets (s : State) (p n : Nat) : State :=
  (if (s.part p).cur == some n then (s.scrubSlice p |>.modPart p fun x => { x with cur := none, scrubbed := true, due := false }).bump (pCtx + 0x040) 1
    else s).dropPf p n

theorem State.giveUpFrets_keeps_published (s : State) (p n : Nat) : (s.giveUpFrets p n).ctxs = s.ctxs ∧ (s.giveUpFrets p n).hbm = s.hbm ∧ (s.giveUpFrets p n).regions = s.regions ∧
    (s.giveUpFrets p n).shards = s.shards ∧ (s.giveUpFrets p n).sec = s.sec ∧ (s.giveUpFrets p n).cmp = s.cmp := by
  unfold State.giveUpFrets
  split <;> exact ⟨rfl, rfl, rfl, rfl, rfl, rfl⟩

theorem State.giveUpFrets_of_current {s : State} {p n : Nat} (h : (s.part p).cur = some n) :
    ((s.giveUpFrets p n).part p).cur = none ∧ ∀ e ∈ (s.giveUpFrets p n).frets, s.dieIn p (dieOf e.1) = false := by
  have heq : s.giveUpFrets p n =
      ((s.scrubSlice p |>.modPart p fun x => { x with cur := none, scrubbed := true, due := false }).bump (pCtx + 0x040) 1).dropPf p n := by
    simp [State.giveUpFrets, h]
  rw [heq]
  exact ⟨(((bump_ends _ _ _).trans (dropPf_ends _ p n)).cur p).trans (congrArg PartSt.cur (State.part_modPart_same (s.scrubSlice p) p _)), fun e he => by simpa using (List.mem_filter.1 he).2⟩

theorem State.faultCtx_rest_ends (s : State) (c : Cmd) : Ends s (State.faultCtx.rest s c) := by
  unfold State.faultCtx.rest
  split
  · exact endCmd_ends s c _ _
  · split
    · exact refuseCmd_ends s c _ _ _
    · exact (discard_ends s c).trans (refuseCmd_ends _ _ _ _ _)

/-- A fault of a context in use marks its entry and ends its commands; then it gives up its frets. -/
theorem State.faultCtx_of_in_use {s : State} {n : Nat} (cause : Nat) (h : (s.ctx n).state = .ready ∨ (s.ctx n).state = .draining) :
    ∃ u, Ends (s.modCtx n fun x => { x with state := .faulted, cause := cause }) u ∧ s.faultCtx n cause none = u.giveUpFrets (s.ctx n).part n := by
  have hends : ∀ u l k, Ends u (List.foldl (fun s c => s.endCmd c stCancelled 0x0922) (List.foldl State.faultCtx.rest
      (((u.raiseAt pCtx 1 ⟨some (s.ctx n).part, n⟩).bump (pCtx + 0x058) 1).logEvent pCtx 5 2 ⟨some (s.ctx n).part, n⟩ cause 0) l) k) := fun u l k =>
    ((((raiseAt_ends u _ _ _).trans (bump_ends _ _ _)).trans (.of_reports (logEvent_reports _ _ _ _ _ _ _))).trans (Ends.foldl State.faultCtx_rest_ends _ _)).trans
      (Ends.foldl (fun s c => endCmd_ends s c _ _) _ _)
  rcases h with h | h <;> simp only [State.faultCtx, h] <;> exact ⟨_, hends _ _ _, rfl⟩

/-- Settles O8: a drain turns away what is not admitted, and a fault ends everything of the context, frets included; neither reaches what is published. -/
theorem disableAndFaultEndTheContextsWork : Obligations.DisableAndFaultEndTheContextsWork := by
  unfold Obligations.DisableAndFaultEndTheContextsWork
  refine ⟨⟨fun a s hreach hready => ?_, fun ctx s => exec_contextDrained_of_none_left⟩, ?_⟩
  · have hends := s.beginDrain_ends (s.selCtx a)
    exact ⟨_, exec_disable_of_ready hreach hready, hends.ctxs, State.entered_of_mem_beginDrain, hends.hbm, hends.regions, hends.sec⟩
  · intro a s hreach n huse
    obtain ⟨u, hends, hfault⟩ := State.faultCtx_of_in_use 3 huse
    obtain ⟨hctxs, hhbm, hregions, hshards, hsec, hcmp⟩ := u.giveUpFrets_keeps_published (s.ctx n).part n
    refine ⟨_, (exec_fault hreach).trans (congrArg _ hfault), hctxs.trans hends.ctxs, hhbm.trans hends.hbm, hregions.trans hends.regions, hshards.trans hends.shards,
      hsec.trans hends.sec, hcmp.trans hends.cmp, fun hcur => ?_⟩
    have hdies : ∀ d, u.dieIn (s.ctx n).part d = s.dieIn (s.ctx n).part d := fun d => by
      simp only [State.dieIn, State.sliceEnt, hends.cmp, State.modCtx_cmp]
    obtain ⟨hnone, hclean⟩ := State.giveUpFrets_of_current ((hends.cur _).trans hcur)
    exact ⟨hnone, fun e he => (hdies _).symm.trans (hclean e he)⟩

end Sys2Proof.Machine
end

section
/-! SUPPORT. Fret turns, pre-emption and capo buckets (spec 10 R324 to R331, R341, R345, 08 R257; log entry 204). -/

namespace Sys2Proof.Machine

/-! ## Partitions -/

theorem tset_tset_same {β : Type} (t : List (Nat × β)) (k : Nat) (v w : β) : tset (tset t k v) k w = tset t k w := by
  induction t with
  | nil => simp [tset]
  | cons x r ih =>
    obtain ⟨j, u⟩ := x
    by_cases h : j = k
    · simp [tset, h]
    · by_cases hlt : k < j <;> simp [tset, h, hlt, ih]

/-- Two updates of one partition are one. -/
theorem State.modPart_modPart (s : State) (p : Nat) (f g : PartSt → PartSt) : (s.modPart p f).modPart p g = s.modPart p (g ∘ f) := by
  have hpart : (s.modPart p f).part p = f (s.part p) := s.part_modPart_same p f
  unfold State.modPart at hpart ⊢
  simp only [hpart, tset_tset_same, Function.comp]

/-! ## Fret turns (10 R324 to R326) -/

theorem insertBy_ne_nil {α : Type} (le : α → α → Bool) (a : α) (l : List α) : insertBy le a l ≠ [] := by
  cases l with
  | nil => exact List.cons_ne_nil a []
  | cons b r =>
    unfold insertBy
    split <;> exact List.cons_ne_nil _ _

theorem sortBy_ne_nil {α : Type} (le : α → α → Bool) {l : List α} (h : l ≠ []) : sortBy le l ≠ [] := by
  cases l with
  | nil => exact absurd rfl h
  | cons a r => exact insertBy_ne_nil le a _

/-- The waiting contexts in the order the arbiter takes them. -/
def State.turnQueue (s : State) (p : Nat) : List (Nat × Nat) := sortBy (fun a b => decide (a.1 ≤ b.1)) (s.fretWaiters p)

/-- No switch takes place: the current context has work and its turn is not over, or string ends of the slice hold outgoing data (10 R325, R326). -/
def State.turnStays (s : State) (p : Nat) : Bool :=
  (s.part p).cur.elim false (fun c => !(s.part p).due && s.fretWork c) || ((s.part p).cur.isSome && s.sbc.ends.any fun e => s.dieIn p e.1)

/-- A partition's frets in the hands of context `n` since now. -/
def PartSt.turnTo (x : PartSt) (credit : Tab Int) (n now : Nat) : PartSt :=
  { x with credit := credit, cur := some n, turnAt := now, due := false, scrubbed := false, qpos := n }

section
variable {s : State} {p : Nat}

theorem exec_quantumExpiry_of_due (hcur : (s.part p).cur.isSome = true) (hwait : s.fretWaiters p ≠ [])
    (hlong : s.time.lctr ≥ (s.part p).turnAt + 100 * fld (s.reg32 (pCtx + 0x100)) 31 16) :
    exec (.quantumExpiry p) s = .next (s.modPart p fun x => { x with due := true }) := by
  simp only [exec, execQuantumExpiry, hcur, List.isEmpty_eq_false_iff.2 hwait, decide_eq_true hlong, Bool.not_false, Bool.and_self, if_true]

theorem exec_contextSwitch_of_nobody {c : Nat} (hcur : (s.part p).cur = some c) (hnobody : s.fretWaiters p = []) (hdue : (s.part p).due = true) :
    exec (.contextSwitch p) s = .next ((s.modPart p fun x => { x with due := false }).runFrets c) := by
  simp only [exec, execContextSwitch, hcur, hnobody, sortBy, hdue, if_true]
  rfl

section
variable (hwait : s.fretWaiters p ≠ [])
include hwait

theorem exec_contextSwitch_of_stays (hstays : s.turnStays p = true) : exec (.contextSwitch p) s = .next s := by
  obtain ⟨k, r, hq⟩ := List.exists_cons_of_ne_nil (sortBy_ne_nil (fun a b : Nat × Nat => decide (a.1 ≤ b.1)) hwait)
  simp only [exec, execContextSwitch, hq]
  exact if_pos hstays

theorem exec_contextSwitch_of_arbitrate {n : Nat} {credit : Tab Int} (hstays : s.turnStays p = false)
    (harb : arbitrate (s.part p).credit (s.part p).qpos (s.turnQueue p) = some (n, credit)) :
    exec (.contextSwitch p) s = .next (if (s.part p).cur.isSome then (s.modPart p fun x => { x with credit := credit }).switchTo p n
      else (s.modPart p fun x => { x with credit := credit }).takeTurn p n) := by
  obtain ⟨k, r, hq⟩ := List.exists_cons_of_ne_nil (sortBy_ne_nil (fun a b : Nat × Nat => decide (a.1 ≤ b.1)) hwait)
  rw [State.turnQueue, hq] at harb
  simp only [exec, execContextSwitch, hq, harb]
  exact if_neg (Bool.eq_false_iff.1 hstays)

end

theorem State.takeTurn_with_credit (s : State) (p n : Nat) (credit : Tab Int) :
    (s.modPart p fun x => { x with credit := credit }).takeTurn p n = (s.modPart p fun x => x.turnTo credit n s.time.lctr).runFrets n :=
  congrArg (State.runFrets · n) (s.modPart_modPart p _ _)

/-- A switch scrubs the slice and is counted; then the frets are taken (10 R326). -/
theorem State.switchTo_with_credit (s : State) (p n : Nat) (credit : Tab Int) :
    (s.modPart p fun x => { x with credit := credit }).switchTo p n =
      ((((s.scrubSlice p).bump (pCtx + 0x040) 1).modPart p fun x => x.turnTo credit n s.time.lctr).runFrets n) :=
  State.takeTurn_with_credit ((s.scrubSlice p).bump (pCtx + 0x040) 1) p n credit

theorem State.scrubSlice_sbc_of_clear (h : ∀ e ∈ s.sbc.ends, s.dieIn p e.1 = false) : (s.scrubSlice p).sbc = s.sbc := by
  have hends : (s.sbc.ends.filter fun e => !s.dieIn p e.1) = s.sbc.ends := List.filter_eq_self.2 fun e he => by simp [h e he]
  simp only [State.scrubSlice, hends]

theorem State.turnStays_of_outgoing {c : Nat} (hcur : (s.part p).cur = some c) (h : ∃ e ∈ s.sbc.ends, s.dieIn p e.1 = true) : s.turnStays p = true := by
  obtain ⟨e, he, hdie⟩ := h
  have hany : (s.sbc.ends.any fun e => s.dieIn p e.1) = true := List.any_eq_true.2 ⟨e, he, hdie⟩
  simp [State.turnStays, hcur, hany]

theorem State.turnStays_of_over {c : Nat} (hcur : (s.part p).cur = some c) (hover : (s.part p).due = true ∨ s.fretWork c = false)
    (hclear : ∀ e ∈ s.sbc.ends, s.dieIn p e.1 = false) : s.turnStays p = false := by
  have hany : (s.sbc.ends.any fun e => s.dieIn p e.1) = false := List.any_eq_false.2 fun e he => by simp [hclear e he]
  rcases hover with h | h <;> simp [State.turnStays, hcur, hany, h]

theorem State.turnStays_of_free (hcur : (s.part p).cur = none) : s.turnStays p = false := by simp [State.turnStays, hcur]

/-- The turn goes to the arbiter's context once it is over and nothing is on its way out. -/
theorem exec_contextSwitch_of_over {c n : Nat} {credit : Tab Int} (hcur : (s.part p).cur = some c) (hwait : s.fretWaiters p ≠ [])
    (hover : (s.part p).due = true ∨ s.fretWork c = false) (hclear : ∀ e ∈ s.sbc.ends, s.dieIn p e.1 = false)
    (harb : arbitrate (s.part p).credit (s.part p).qpos (s.turnQueue p) = some (n, credit)) :
    exec (.contextSwitch p) s = .next ((((s.scrubSlice p).bump (pCtx + 0x040) 1).modPart p fun x => x.turnTo credit n s.time.lctr).runFrets n) := by
  rw [exec_contextSwitch_of_arbitrate hwait (State.turnStays_of_over hcur hover hclear) harb, hcur, Option.isSome_some, if_pos rfl, State.switchTo_with_credit]

theorem exec_contextSwitch_of_free {n : Nat} {credit : Tab Int} (hcur : (s.part p).cur = none) (hwait : s.fretWaiters p ≠ [])
    (harb : arbitrate (s.part p).credit (s.part p).qpos (s.turnQueue p) = some (n, credit)) :
    exec (.contextSwitch p) s = .next ((s.modPart p fun x => x.turnTo credit n s.time.lctr).runFrets n) := by
  rw [exec_contextSwitch_of_arbitrate hwait (State.turnStays_of_free hcur) harb, hcur, Option.isSome_none, if_neg Bool.false_ne_true, State.takeTurn_with_credit]

end

/-! ## Pre-emption (10 R328 to R331) -/

/-- What killing a command counts, whether or not it may run again (10 R329). -/
def State.countKill (s : State) (c : Cmd) : State :=
  if c.origin == .window then (s.bump (pCtx + 0x048) 1).modCtx c.ctx fun x => { x with killPeak := max x.killPeak (sat8 (c.reruns + 1)) } else s.bump (pCtx + 0x048) 1

/-- What a killed command keeps until it runs again (10 R329). -/
def Cmd.killedAt (now n : Nat) (x : Cmd) : Cmd :=
  { x with phase := .killed, reruns := n, byEpoch := false, admitted := isRead x.opcode && x.admitted, area := false, charged := 0,
           got := x.got.filter fun e => decide (e.1 < 2 ^ 24), since := now }

/-- The published state stands: stored bytes, regions, shards, keys. -/
structure KeepsPublished (s t : State) : Prop where
  hbm : t.hbm = s.hbm
  regions : t.regions = s.regions
  shards : t.shards = s.shards
  sec : t.sec = s.sec

theorem KeepsPublished.trans {s t u : State} (h : KeepsPublished s t) (k : KeepsPublished t u) : KeepsPublished s u :=
  ⟨k.hbm.trans h.hbm, k.regions.trans h.regions, k.shards.trans h.shards, k.sec.trans h.sec⟩

theorem Ends.published {s t : State} (h : Ends s t) : KeepsPublished s t := ⟨h.hbm, h.regions, h.shards, h.sec⟩

theorem modPart_published (s : State) (p : Nat) (f : PartSt → PartSt) : KeepsPublished s (s.modPart p f) := ⟨rfl, rfl, rfl, rfl⟩

theorem countKill_published (s : State) (c : Cmd) : KeepsPublished s (s.countKill c) := by
  unfold State.countKill
  split <;> exact ⟨rfl, rfl, rfl, rfl⟩

@[simp] theorem State.countKill_cmds (s : State) (c : Cmd) : (s.countKill c).cmds = s.cmds := by
  unfold State.countKill
  split <;> rfl

@[simp] theorem State.countKill_reg32 (s : State) (c : Cmd) (o : Nat) : (s.countKill c).reg32 o = s.reg32 o := by
  unfold State.countKill
  split <;> rfl

@[simp] theorem State.countKill_time (s : State) (c : Cmd) : (s.countKill c).time = s.time := by
  unfold State.countKill
  split <;> rfl

/-- A command whose stage is discarded. -/
def Cmd.unstaged (c : Cmd) : Cmd := { c with stages := [], fin := none, done := [], claim := 0, work := false, taken := [] }

theorem State.discard_cmds (s : State) (c : Cmd) : (s.discard c).cmds = (s.modCmd c.id Cmd.unstaged).cmds := by
  unfold State.discard
  dsimp only
  split <;> rfl

section
variable {s : State} {c : Cmd}

theorem State.kill_cases (s : State) (c : Cmd) : s.kill c =
    if c.reruns + 1 > fld (s.reg32 (pCtx + 0x100)) 7 0 && c.origin != .internal then (s.countKill c).failAny c stRerun 0x0980 0 [] []
    else ((s.countKill c).discard c).modCmd c.id (Cmd.killedAt s.time.lctr (c.reruns + 1)) := by
  rw [← State.countKill_reg32 s c, ← State.countKill_time s c]
  rfl

theorem State.kill_of_within (h : c.reruns + 1 ≤ fld (s.reg32 (pCtx + 0x100)) 7 0) :
    s.kill c = ((s.countKill c).discard c).modCmd c.id (Cmd.killedAt s.time.lctr (c.reruns + 1)) := by
  rw [State.kill_cases, if_neg]
  simp [Nat.not_lt.2 h]

theorem State.failCmd_of_no_error (s : State) (c : Cmd) (sub counter : Nat) :
    s.failCmd c stRerun sub counter [] [] = ((((s.bump (pCtx + 0x050) 1).discard c).collDrop c.id 0x0102).answer c stRerun sub 0 0 counter []) := rfl

theorem State.kill_of_beyond (h : c.reruns + 1 > fld (s.reg32 (pCtx + 0x100)) 7 0) (horigin : c.origin = .window) :
    s.kill c = ((((s.countKill c).bump (pCtx + 0x050) 1).discard c).collDrop c.id 0x0102).answer c stRerun 0x0980 0 0 0 [] := by
  have hint : (c.origin != .internal) = true := by rw [horigin]; rfl
  rw [State.kill_cases, if_pos (by simp [h, hint]), ← State.failCmd_of_no_error, State.failAny, horigin]
  rfl

theorem kill_published_of_within (h : c.reruns + 1 ≤ fld (s.reg32 (pCtx + 0x100)) 7 0) : KeepsPublished s (s.kill c) := by
  rw [State.kill_of_within h]
  exact (countKill_published s c).trans ((discard_ends _ c).trans (modCmd_ends _ _ _)).published

theorem State.kill_cmds_of_within (h : c.reruns + 1 ≤ fld (s.reg32 (pCtx + 0x100)) 7 0) :
    (s.kill c).cmds = s.cmds.map fun x => if x.id == c.id then Cmd.killedAt s.time.lctr (c.reruns + 1) x.unstaged else x := by
  have hcmds : ((s.countKill c).discard c).cmds = s.cmds.map fun x => if x.id == c.id then x.unstaged else x := by
    rw [State.discard_cmds, State.modCmd, State.countKill_cmds]
  rw [State.kill_of_within h, State.modCmd, hcmds, List.map_map]
  refine List.map_congr_left fun x _ => ?_
  by_cases hid : x.id = c.id <;> simp [hid, Cmd.unstaged]

theorem kill_published_of_beyond (h : c.reruns + 1 > fld (s.reg32 (pCtx + 0x100)) 7 0) (horigin : c.origin = .window) : KeepsPublished s (s.kill c) := by
  rw [State.kill_of_beyond h horigin]
  exact (countKill_published s c).trans ((((bump_ends _ _ _).trans (discard_ends _ c)).trans (collDrop_ends _ _ _)).trans (answer_ends _ _ _ _ _ _ _ _)).published

theorem State.kill_cmds_of_beyond (h : c.reruns + 1 > fld (s.reg32 (pCtx + 0x100)) 7 0) (horigin : c.origin = .window) : ∀ x ∈ (s.kill c).cmds, x.id ≠ c.id := by
  rw [State.kill_of_beyond h horigin, State.answer_cmds_of_window horigin]
  exact State.not_mem_dropCmd _ _

end

/-- After a pre-emption for the frets a switch is due (10 R328). -/
def State.preempted (s : State) (b a : Cmd) : State := if b.phase == .run .frets then (s.kill a).modPart b.part fun x => { x with due := true } else s.kill a

theorem exec_preemption_of_victim {s : State} {id : Nat} {a b : Cmd} (hb : s.cmd id = some b) (hwaited : s.time.lctr ≥ b.since + 100 * fld (s.reg32 (pCtx + 0x100)) 15 8)
    (ha : victim (s.holders b) = some a) : exec (.preemption id) s = .next (s.preempted b a) := by
  simp only [exec, execPreemption, hb, ha, if_neg (Nat.not_lt.2 hwaited)]
  rfl

theorem preempted_published {s : State} {a b : Cmd} (h : KeepsPublished s (s.kill a)) : KeepsPublished s (s.preempted b a) := by
  unfold State.preempted
  split
  · exact h.trans (modPart_published _ _ _)
  · exact h

theorem State.preempted_cmds (s : State) (b a : Cmd) : (s.preempted b a).cmds = (s.kill a).cmds := by
  unfold State.preempted
  split <;> rfl

/-- Settles O10: the turn changes hands where nothing holds it up, and a pre-emption kills the victim, which keeps its place within RERUN_MAX and ends beyond it. -/
theorem fretTurnsChangeAndPreempt : Obligations.FretTurnsChangeAndPreempt := by
  unfold Obligations.FretTurnsChangeAndPreempt
  refine ⟨⟨fun p s => exec_quantumExpiry_of_due, fun p c n credit s hcur hwait hover => ⟨fun hout => ?_, fun hclear harb => ?_⟩,
    fun p n credit s hcur hwait harb => ⟨_, exec_contextSwitch_of_free hcur hwait harb, rfl⟩, fun p c s => exec_contextSwitch_of_nobody⟩, fun id s b a hb hwaited ha => ?_⟩
  · exact exec_contextSwitch_of_stays hwait (State.turnStays_of_outgoing hcur hout)
  · exact ⟨_, exec_contextSwitch_of_over hcur hwait hover hclear harb, rfl, rfl, State.scrubSlice_sbc_of_clear hclear, State.counter_bump_same _ _ _, rfl, rfl, rfl⟩
  · refine ⟨_, exec_preemption_of_victim hb hwaited ha, fun hmay => ?_, fun hmost horigin => ?_⟩
    · obtain ⟨hhbm, hregions, hshards, hsec⟩ := preempted_published (b := b) (kill_published_of_within hmay)
      have hcmds := (s.preempted_cmds b a).trans (State.kill_cmds_of_within hmay)
      refine ⟨hhbm, hregions, hshards, hsec, ?_, ?_⟩
      · rw [hcmds, List.map_map]
        refine List.map_congr_left fun x _ => ?_
        by_cases hid : x.id = a.id <;> simp [hid, Cmd.killedAt, Cmd.unstaged]
      · rw [hcmds]
        intro x hx hid
        obtain ⟨y, -, rfl⟩ := List.mem_map.1 hx
        by_cases hy : y.id = a.id
        · simp [hy, Cmd.killedAt, Cmd.unstaged]
        · simp [hy] at hid
    · rw [State.preempted_cmds]
      exact ⟨(preempted_published (kill_published_of_beyond hmost horigin)).hbm, State.kill_cmds_of_beyond hmost horigin⟩

/-! ## Capo buckets (10 R341, R345) -/

/-- A partition whose buckets are refilled now, with the next refill `2 ^ k` ticks away (10 R341). -/
def PartSt.refilled (x : PartSt) (k now : Nat) : PartSt :=
  { x with capos := x.capos.map fun e => (e.1, e.2.refill), refill := k, refillAt := now + 2 ^ k }

theorem exec_capoRefill_of_due {p : Nat} {s : State} (hp : p < 16) (hdue : s.time.lctr ≥ (s.part p).refillAt) :
    exec (.capoRefill p) s = .next ((s.modPart p fun x => x.refilled (fld (s.reg32 (pCapo p + 0x100)) 4 0) s.time.lctr).releaseCapos p) := by
  simp only [exec, execCapoRefill, Nat.not_le.2 hp, Nat.not_lt.2 hdue]
  rfl

/-- What a write of CBS or PBS makes of a capo: its depth, and its level full or empty (10 R345). -/
def Capo.withDepth (c : Capo) (peak full : Bool) (v : Nat) : Capo :=
  if peak then { c with pbs := v % 2 ^ 31, plvl := if full then ((v % 2 ^ 31 : Nat) : Int) else 0 }
  else { c with cbs := v % 2 ^ 31, clvl := if full then ((v % 2 ^ 31 : Nat) : Int) else 0 }

theorem exec_capoDepthWrite_of_reaches {a : Agent} {p r : Nat} {s : State} (hp : p < 16) (hr : r ≤ 10) (hreach : s.reaches a (pCapo p) = true) (peak : Bool) (v : Nat) :
    exec (.capoDepthWrite a p r peak v) s = .next (s.modCapo p r fun c => c.withDepth peak (bitOf (s.reg32 (pCapo p + 0x100)) 8) v) := by
  simp only [exec, execCapoDepthWrite, Nat.not_le.2 hp, Nat.not_lt.2 hr, hreach]
  rfl

theorem State.capo_modCapo_same (s : State) (p r : Nat) (f : Capo → Capo) : (s.modCapo p r f).capo p r = f (s.capo p r) := by
  rw [State.capo, State.modCapo, State.part_modPart_same, tgetD_tset_same]
  rfl

theorem State.capo_modCapo_ne (s : State) (p : Nat) {r k : Nat} (f : Capo → Capo) (h : k ≠ r) : (s.modCapo p r f).capo p k = s.capo p k := by
  rw [State.capo, State.modCapo, State.part_modPart_same, tgetD_tset_ne _ _ _ _ _ h]
  rfl

/-- Settles O11: a refill works on every bucket before held requests are classed again, and a write of a depth reaches one bucket of one capo. -/
theorem capoBucketsRefillAndTakeDepths : Obligations.CapoBucketsRefillAndTakeDepths := by
  unfold Obligations.CapoBucketsRefillAndTakeDepths
  refine ⟨fun p s hp hdue => ⟨_, exec_capoRefill_of_due hp hdue, rfl⟩, fun a p r v s hp hr hreach => ?_⟩
  have hwrite := fun peak : Bool => exec_capoDepthWrite_of_reaches hp hr hreach peak v
  exact ⟨⟨_, hwrite false, s.capo_modCapo_same p r _, fun q hq => s.part_modPart_ne p q _ hq, fun k hk => s.capo_modCapo_ne p _ hk, rfl⟩,
    ⟨_, hwrite true, s.capo_modCapo_same p r _, fun q hq => s.part_modPart_ne p q _ hq, fun k hk => s.capo_modCapo_ne p _ hk, rfl⟩⟩

end Sys2Proof.Machine
end

section
/-! SUPPORT. The exporter: pool requests served through windows, refused, held or left waiting (spec 12 R402, R403, 10 R343, 03 R109; log entry 66). -/

namespace Sys2Proof.Machine

theorem exec_poolRow_of_receive {s r : State} {m : Msg} {row : Msg → Instr} (hrec : s.receive m = (r, true)) (hrow : (row = .poolRd ∧ m.ty = 0x01) ∨ (row = .poolWr ∧ m.ty = 0x03)) :
    exec (row m) s = .next (r.servePool m) := by
  rcases hrow with ⟨rfl, hty⟩ | ⟨rfl, hty⟩ <;> exact congrArg Host.Outcome.next (State.onMsg_of_receive hrec hty _)

/-! ## Policing (10 R343) -/

/-- A held request is counted, and changes nothing but what is reported. -/
def State.countHeld (s : State) (m : Msg) (part : Nat) : State :=
  ((s.bump (pCapo part + 0x0A8) (max 1 (ceilDiv (bodySize m.body) 64))).bump (pCapo part + 0x0B0) 1).raiseAt (pCapo part) 0 (partAttr part)

theorem countHeld_reports (s : State) (m : Msg) (part : Nat) : Reports s (s.countHeld m part) :=
  ((bump_reports s _ _).trans (bump_reports _ _ _)).trans (raiseAt_reports _ _ _ _)

section
variable {r u : State} {m : Msg} {part : Nat}

theorem State.police_of_held (h : r.classOf part 10 = .held) : r.police m part = ((r.countHeld m part).refuseMsg m 1, false) := by
  simp only [State.police, h]
  rfl

theorem countHeld_refuseMsg_stands (r : State) (m : Msg) (part reason : Nat) : Stands r ((r.countHeld m part).refuseMsg m reason) :=
  (Stands.of_reports (countHeld_reports r m part)).trans (putMsg_stands _ _)

theorem police_stands (h : r.police m part = (u, true)) : Stands r u := by
  unfold State.police at h
  dsimp only at h
  split at h
  · obtain ⟨rfl, -⟩ := Prod.mk.inj h
    exact take_stands r _ _ _ _
  · obtain ⟨rfl, -⟩ := Prod.mk.inj h
    exact (take_stands r _ _ _ _).trans (.of_reports (bump_reports _ _ _))
  · exact absurd (congrArg Prod.snd h) Bool.false_ne_true

/-! ## A request in its window (12 R402, R403) -/

theorem State.servePool_of_no_window (hw : r.windowFor m = none) : r.servePool m = r.refuseMsg m 2 := by
  simp only [State.servePool, hw]

variable {w : List Nat} (hw : r.windowFor m = some w)
include hw

theorem State.servePool_of_out_of_service (hpart : r.fabricPart (w.getD 5 0) = false) : r.servePool m = r.refuseMsg m 3 := by
  simp only [State.servePool, hw, hpart, Bool.not_false, if_true]

variable (hpart : r.fabricPart (w.getD 5 0) = true)
include hpart

theorem State.servePool_of_held (h : r.classOf (w.getD 5 0) 10 = .held) : r.servePool m = (r.countHeld m (w.getD 5 0)).refuseMsg m 1 := by
  simp only [State.servePool, hw, hpart, State.police_of_held h, Bool.not_true, Bool.false_eq_true, if_false]

theorem State.servePool_of_policed (h : r.police m (w.getD 5 0) = (u, true)) : r.servePool m = u.poolAccess w (w.getD 5 0) m := by
  simp only [State.servePool, hw, hpart, h, Bool.not_true, Bool.false_eq_true, if_false]

end

/-! ## The access (12 R403, 03 R109) -/

/-- The request looks again when HBM can take it (03 R109). -/
def State.poolLater (u : State) (m : Msg) : State := { u with fab := { u.fab with waitHbm := u.fab.waitHbm ++ [m] } }

section
variable {u : State} {m : Msg} {w : List Nat} {part f o : Nat} (hplace : windowPlace w (m.addr % 2 ^ 52) = (f, o))
include hplace

theorem State.poolAccess_of_sparing (h : u.sparingAt f = true) : u.poolAccess w part m = u.poolLater m := by
  rw [State.poolAccess, hplace]
  exact if_pos h

variable (hready : u.sparingAt f = false)
include hready

theorem State.poolAccess_of_read (hty : m.ty = 0x01) : u.poolAccess w part m =
    match u.plainRow f o m.arg with
    | .ok d => u.sendMsg { u.reply m 0x02 0 (.bytes d) with epoch := 0, srcPart := part }
    | .error (.wait _) => u.poolLater m
    | .error _ => u := by
  rw [State.poolAccess, hplace]
  simp only [hready, hty, Bool.false_eq_true, if_false, BEq.rfl, if_true]
  rfl

theorem State.poolAccess_of_write {d : List Byte} (hty : m.ty = 0x03) (hbody : m.body = .bytes d) :
    u.poolAccess w part m = (u.hbmWrite f o 0 d).putMsg { u.reply m 0x04 0 .empty with epoch := 0, srcPart := part } := by
  rw [State.poolAccess, hplace]
  simp only [hready, hty, hbody, Bool.false_eq_true, if_false]
  rfl

section
variable (hty : m.ty = 0x01)
include hty

theorem State.poolAccess_of_readable {d : List Byte} (hd : u.plainRow f o m.arg = .ok d) :
    u.poolAccess w part m = u.sendMsg { u.reply m 0x02 0 (.bytes d) with epoch := 0, srcPart := part } := by
  rw [State.poolAccess_of_read hplace hready hty, hd]

theorem State.poolAccess_of_no_space {why : Need} (hd : u.plainRow f o m.arg = .error (.wait why)) : u.poolAccess w part m = u.poolLater m := by
  rw [State.poolAccess_of_read hplace hready hty, hd]

/-- What HBM cannot give is not answered (log entry 66). -/
theorem State.poolAccess_of_unreadable {e : Halt} (hd : u.plainRow f o m.arg = .error e) (he : ∀ why, e ≠ .wait why) : u.poolAccess w part m = u := by
  rw [State.poolAccess_of_read hplace hready hty, hd]
  cases e with
  | wait why => exact absurd rfl (he why)
  | refuse st sub n => rfl
  | fail st sub n errs bumps => rfl

end

end

/-- A write that is acknowledged puts its bytes in place and no others. -/
theorem State.cells_putMsg_hbmWrite (u : State) (f o tag : Nat) (d : List Byte) (x : Msg) :
    ((u.hbmWrite f o tag d).putMsg x).hbm.cells = memWrite u.hbm.cells (linOf f o) d := by
  rw [(putMsg_stands _ x).hbm, State.hbmWrite_cells]

/-- Settles O37: the window, the partition, the policing and the domain are looked at in this order; what passes them all is an ordinary access. -/
theorem poolRequestsAreServedThroughWindows : Obligations.PoolRequestsAreServedThroughWindows := by
  unfold Obligations.PoolRequestsAreServedThroughWindows
  intro m s r row hrec hrow
  have hexec : exec (row m) s = .next (r.servePool m) := exec_poolRow_of_receive hrec hrow
  refine ⟨fun hw => hexec.trans (congrArg _ (State.servePool_of_no_window hw)), fun w hw => ?_⟩
  intro part n
  refine ⟨fun hpart => hexec.trans (congrArg _ (State.servePool_of_out_of_service hw hpart)), fun hpart hheld => ?_, fun u hpart hpolice => ?_⟩
  · have hstands := countHeld_refuseMsg_stands r m part 1
    exact ⟨_, hexec.trans (congrArg _ (State.servePool_of_held hw hpart hheld)), rfl, hstands.hbm, hstands.cmds⟩
  · have hserve : ∀ {row' : Msg → Instr}, (row' = .poolRd ∧ m.ty = 0x01) ∨ (row' = .poolWr ∧ m.ty = 0x03) → exec (row' m) s = .next (u.poolAccess w part m) :=
      fun hrow' => (exec_poolRow_of_receive hrec hrow').trans (congrArg _ (State.servePool_of_policed hw hpart hpolice))
    intro f o later
    have hplace : windowPlace w (m.addr % 2 ^ 52) = (f, o) := rfl
    refine ⟨fun hsparing => (hserve hrow).trans (congrArg _ (State.poolAccess_of_sparing hplace hsparing)), fun hready hty => ?_, fun hready hty d hbody hinv => ?_⟩
    · have hread := hserve (.inl ⟨rfl, hty⟩)
      exact ⟨fun d hd => hread.trans (congrArg _ (State.poolAccess_of_readable hplace hready hty hd)),
        fun why hd => hread.trans (congrArg _ (State.poolAccess_of_no_space hplace hready hty hd)),
        fun e hd he => hread.trans (congrArg _ (State.poolAccess_of_unreadable hplace hready hty hd he))⟩
    · have hpoliced := police_stands hpolice
      have hwf : memWf u.hbm.cells = true := hpoliced.hbm ▸ hinv
      refine ⟨_, (hserve (.inr ⟨rfl, hty⟩)).trans (congrArg _ (State.poolAccess_of_write hplace hready hty hbody)), rfl, ?_, fun a ha => ?_, ?_⟩
      · rw [State.cells_putMsg_hbmWrite, memRead_memWrite_same hwf]
      · rw [State.cells_putMsg_hbmWrite, memGet_memWrite_outside d hwf ha, hpoliced.hbm]
      · rw [(putMsg_stands _ _).cmds, State.hbmWrite_cmds, hpoliced.cmds]

end Sys2Proof.Machine
end

section
/-! SUPPORT. The power-fail flush, what starts it and how it ends, and the restart that follows (spec 11 R377, 15 R459, R464, R468, R469, 17 R511, R512; log entries 80, 98 and 131). -/

namespace Sys2Proof.Machine

/-! ## Domains go on and off (15 R454, R459) -/

theorem Reports.pwr {s t : State} (h : Reports s t) : t.pwr = s.pwr := by
  obtain ⟨r, a, b, rfl⟩ := h
  rfl

/-- Domains as switched one after another, all on or all off. -/
def PwrSt.switched (x : PwrSt) (l : List Nat) (b : Bool) : PwrSt := { x with on := l.foldl (fun w d => setBit w d b) x.on }

theorem bitOf_foldl_setBit (b : Bool) (k : Nat) : ∀ (l : List Nat) (w : Nat), bitOf (l.foldl (fun w d => setBit w d b) w) k = if k ∈ l then b else bitOf w k
  | [], w => rfl
  | d :: l, w => by
    rw [List.foldl_cons, bitOf_foldl_setBit b k l, bitOf_setBit]
    by_cases hl : k ∈ l <;> simp [hl]

theorem PwrSt.bitOf_switched (x : PwrSt) (l : List Nat) (b : Bool) (k : Nat) : bitOf (x.switched l b).on k = if k ∈ l then b else bitOf x.on k :=
  bitOf_foldl_setBit b k l x.on

/-- Beyond its bit, switching a domain changes only what reports it. -/
theorem State.switchBit_reports (s : State) (d : Nat) (b : Bool) : Reports { s with pwr := s.pwr.switched [d] b } (s.switchBit d b) := by
  unfold State.switchBit
  split
  · next hsame =>
    have hon : setBit s.pwr.on d b = s.pwr.on := setBit_of_bitOf (beq_iff_eq.1 hsame)
    rw [PwrSt.switched, List.foldl_cons, List.foldl_nil, hon]
    exact .refl s
  · exact (bump_reports _ _ 1).trans (logEvent_reports _ _ _ _ _ _ _)

/-- A report stays one when the power of both states is replaced. -/
theorem Reports.withPwr {s t : State} (h : Reports s t) (x : PwrSt) : Reports { s with pwr := x } { t with pwr := x } := by
  obtain ⟨r, a, b, rfl⟩ := h
  exact ⟨r, a, b, rfl⟩

theorem Reports.switchBits (b : Bool) : ∀ (l : List Nat) {s t : State}, Reports s t →
    Reports { s with pwr := s.pwr.switched l b } (l.foldl (fun s d => s.switchBit d b) t)
  | [], _, _, h => h
  | d :: l, s, t, h => by
    have hd : Reports { s with pwr := s.pwr.switched [d] b } (t.switchBit d b) := by
      rw [← h.pwr]
      exact (h.withPwr _).trans (t.switchBit_reports d b)
    exact hd.switchBits b l

theorem Reports.enterStage {s t : State} (h : Reports s t) (n : Nat) : Reports { s with pwr := { s.pwr with stage := some n } } (t.enterStage n) := by
  rw [← h.pwr]
  exact (h.withPwr _).trans (logEvent_reports _ _ _ _ _ _ _)

/-! ## A flush starts (11 R377, 17 R511) -/

/-- A flush can start, and there are streams to close. -/
structure State.Flushable (s : State) : Prop where
  noFlush : s.pwr.flush = none
  noWait : s.pwr.waitRestart = false
  good : s.pwr.good = true
  streams : s.hasStreams = true

/-- Power with the flush of that cause under way. -/
def PwrSt.flushing (x : PwrSt) (cause : Nat) : PwrSt := { x with flush := some cause, hold := false, holdInj := false }

theorem Reports.flushable {s u : State} (h : Reports s u) (hs : s.Flushable) : u.Flushable := by
  obtain ⟨r, a, b, rfl⟩ := h
  exact ⟨hs.noFlush, hs.noWait, hs.good, hs.streams⟩

section Flush
variable {s u : State} {cause : Nat}

/-- A flush from outside is counted and logged, and waits for the streams. -/
theorem State.startFlush_of_flushable (hs : s.Flushable) (hcause : cause < 4) :
    s.startFlush cause = (({ s with pwr := s.pwr.flushing cause } : State).bump (pPwr + 0x050) 1).logEvent pPwr 3 3 noAttr cause 0 := by
  have hstreams : ((({ s with pwr := s.pwr.flushing cause } : State).bump (pPwr + 0x050) 1).logEvent pPwr 3 3 noAttr cause 0).hasStreams = true := by
    rw [State.hasStreams, (logEvent_reports _ _ _ _ _ _ _).pwr]
    exact hs.streams
  have hgo : ¬(s.pwr.flush.isSome || s.pwr.waitRestart || !s.pwr.good) = true := by simp [hs.noFlush, hs.noWait, hs.good]
  unfold State.startFlush
  rw [if_neg hgo]
  dsimp only
  rw [if_pos hcause]
  exact if_pos hstreams

/-- A flush that starts after a report changes, beyond the flush itself, only what reports it. -/
theorem Reports.startFlush (h : Reports s u) (hs : s.Flushable) (hcause : cause < 4) : Reports { s with pwr := s.pwr.flushing cause } (u.startFlush cause) := by
  rw [State.startFlush_of_flushable (h.flushable hs) hcause, ← h.pwr]
  exact ((h.withPwr _).trans (bump_reports _ _ 1)).trans (logEvent_reports _ _ _ _ _ _ _)

/-- PWR_FLUSHES counts a flush of any cause (15 R469). -/
theorem State.counter_startFlush_flushes (hs : s.Flushable) (hcause : cause < 4) : (s.startFlush cause).counter (pPwr + 0x050) = (s.counter (pPwr + 0x050) + 1) % 2 ^ 64 := by
  rw [State.startFlush_of_flushable hs hcause, State.counter_logEvent _ _ _ _ _ _ _ (by decide), State.counter_bump_same]
  rfl

theorem State.counter_startFlush_ne {i : Nat} (hs : s.Flushable) (hcause : cause < 4) (hi : i ∉ reportCounters) (hne : i ≠ pPwr + 0x050) :
    (s.startFlush cause).counter i = s.counter i := by
  rw [State.startFlush_of_flushable hs hcause, State.counter_logEvent _ _ _ _ _ _ _ hi, State.counter_bump_ne _ _ _ _ hne]
  rfl

end Flush

/-! ## The flush ends (11 R377, 15 R459) -/

/-- Every context of a bound region is OFF after a core restart (10 R323). -/
theorem boundCtxs_off (l : List Region) (n : Nat) : (tgetD (boundCtxs l) n CtxEnt.reset).state = .off := by
  have hkeep : ∀ (l : List Region) (t : Tab CtxEnt), (tgetD t n CtxEnt.reset).state = .off →
      (tgetD (l.foldl (fun t r => tset t r.ctx { CtxEnt.reset with part := r.part }) t) n CtxEnt.reset).state = .off := by
    intro l
    induction l with
    | nil => exact fun t ht => ht
    | cons r l ih =>
      intro t ht
      refine ih _ ?_
      by_cases hn : n = r.ctx
      · rw [hn, tgetD_tset_same]
        rfl
      · rw [tgetD_tset_ne _ _ _ _ _ hn]
        exact ht
  exact hkeep l [] rfl

theorem State.mainOff_ctx_state (s : State) (n : Nat) : (s.mainOff.ctx n).state = .off := boundCtxs_off _ n

theorem State.mainOff_powered (s : State) {d : Nat} (hlow : 1 ≤ d) (hhigh : d ≤ 29) : s.mainOff.powered d = false := by
  have hmem : d ∈ (List.range 29).map (29 - ·) := List.mem_map.2 ⟨29 - d, List.mem_range.2 (by omega), by omega⟩
  have hoff (u : State) : ((List.range 29).foldl (fun s i => s.switchBit (29 - i) false) u).powered d = false := by
    rw [← List.foldl_map (f := (29 - ·)) (g := fun s d => State.switchBit s d false), State.powered, ((Reports.refl u).switchBits false _).pwr, PwrSt.bitOf_switched, if_pos hmem]
  exact hoff _

/-- Beside a management RESET, which goes on, a flush ends with the device waiting for its restart. -/
theorem State.flushEnd_of_cause {s : State} {cause : Nat} (hflush : s.pwr.flush = some cause) (hcause : cause ≠ 4) :
    s.flushEnd = { s.flushAll.mainOff with pwr := { s.flushAll.mainOff.pwr with waitRestart := true } } := by
  simp only [State.flushEnd, hflush, beq_false_of_ne hcause, Bool.false_and, Bool.false_eq_true, if_false]

theorem State.flushEnd_of_no_flush {s : State} (hflush : s.pwr.flush = none) : s.flushEnd = s := by
  rw [State.flushEnd, hflush]

theorem State.flushEnd_pending (s : State) : s.flushEnd.pending = s.pending := (State.flushEnd_keeps (.refl s)).queue

/-! ## The restart (15 R459) -/

/-- Power with nothing left of what ended operation. -/
def PwrSt.startCleared (x : PwrSt) : PwrSt := { x with waitRestart := false, tripWait := false, trip := false }

/-- Power at stage 0 of a restart: PD01, PD02 and PD29 on. -/
def PwrSt.restarted (x : PwrSt) : PwrSt := PwrSt.switched { x.startCleared with stage := some 0 } [1, 2, 29] true

/-- A state about to start again: the flush record is gone with what ended operation. -/
def State.startCleared (s : State) : State := { s with pwr := s.pwr.startCleared, fte := { s.fte with flushed := false } }

/-- The ROM's work concerns the keys and measurements alone (14 R434, R439). -/
theorem State.romStart_eq (s : State) : s.romStart = { s with sec := s.romStart.sec } := rfl

/-- Up to the ROM's work a restart changes power and the flush record, and reports it. -/
theorem State.startAgain_eq_romStart (s : State) :
    ∃ t, Reports { s with pwr := s.pwr.restarted, fte := { s.fte with flushed := false } } t ∧ s.startAgain = t.romStart :=
  ⟨_, ((bump_reports s.startCleared (pPwr + 0x068) 1).enterStage 0).switchBits true [1, 2, 29], rfl⟩

/-- What a restart leaves and what it brings: stage 0 with PD01, PD02 and PD29 on, the commands, HBM and the bound regions as they are. -/
structure Restarts (s t : State) : Prop where
  pwr : t.pwr = s.pwr.restarted
  cmds : t.cmds = s.cmds
  hbm : t.hbm = s.hbm
  regions : t.regions = s.regions

theorem State.startAgain_restarts (s : State) : Restarts s s.startAgain := by
  obtain ⟨t, ⟨r, a, b, rfl⟩, h⟩ := s.startAgain_eq_romStart
  rw [h, State.romStart_eq]
  exact ⟨rfl, rfl, rfl, rfl⟩

theorem Restarts.powered {s t : State} (h : Restarts s t) {d : Nat} (hd : d ∈ [1, 2, 29]) : t.powered d = true := by
  rw [State.powered, h.pwr, PwrSt.restarted, PwrSt.bitOf_switched, if_pos hd]

/-! ## The supply fails (15 R468, R469, 17 R511) -/

theorem exec_pwrFailN_of_short {ns : Nat} (hns : ns < 1000) (stays : Bool) (s : State) : exec (.pwrFailN ns stays) s = .next s := if_pos hns

theorem exec_pwrFailN_of_long {ns : Nat} (hns : ns ≥ 2000) (stays : Bool) (s : State) :
    exec (.pwrFailN ns stays) s = .next ((State.raise { s with pwr := { s.pwr with pwrFail := stays } } pPwr 1).startFlush 0) := by
  rw [exec, execPwrFailN, if_neg (by omega), if_neg (show ¬ns < 2000 by omega)]
  rfl

theorem exec_vmonRst_of_quiet {mv : List Nat} {s : State} (h : s.pwr.monitors = false ∨ (s.setMv mv).vLow > 550) :
    exec (.vmonRst mv) s = .next (s.setMv mv) := by
  have hquiet : ((s.setMv mv).pwr.monitors && decide ((s.setMv mv).vLow ≤ 550)) = false := by
    rcases h with hoff | hhigh
    · exact Bool.and_eq_false_imp.2 fun hon => absurd (hoff.symm.trans hon) Bool.false_ne_true
    · rw [decide_eq_false (Nat.not_le.2 hhigh), Bool.and_false]
  exact congrArg Host.Outcome.next (if_neg (Bool.eq_false_iff.1 hquiet))

theorem exec_vmonRst_of_low {mv : List Nat} {s : State} (hon : s.pwr.monitors = true) (hlow : (s.setMv mv).vLow ≤ 550) :
    exec (.vmonRst mv) s = .next (((s.setMv mv).raise pPwr 0).startFlush 1) := by
  have hfails : ((s.setMv mv).pwr.monitors && decide ((s.setMv mv).vLow ≤ 550)) = true := by
    rw [decide_eq_true hlow, Bool.and_true]
    exact hon
  exact congrArg Host.Outcome.next (if_pos hfails)

/-! ## HOLD lasts too long (15 R468) -/

/-- HOLD has lasted HOLD_MAX. -/
def State.HoldExpired (s : State) : Prop := s.time.lctr ≥ s.pwr.holdAt + fld (s.reg32 (pPwr + 0x104)) 5 0 * 2 ^ 14

theorem exec_holdMaxExpiry_of_early {s : State} (h : s.pwr.hold = false ∨ ¬s.HoldExpired) : exec .holdMaxExpiry s = .next s := by
  refine if_pos (Bool.or_eq_true_iff.2 (h.imp (fun hoff => ?_) fun hearly => decide_eq_true (Nat.not_le.1 hearly)))
  rw [hoff]
  rfl

theorem exec_holdMaxExpiry_of_expired {s : State} (hhold : s.pwr.hold = true) (h : s.HoldExpired) :
    exec .holdMaxExpiry s = .next (((s.bump (pPwr + 0x048) 1).raise pPwr 2).startFlush 2) := by
  refine if_neg ?_
  rw [hhold, decide_eq_false (Nat.not_lt.2 h)]
  exact Bool.false_ne_true

/-! ## Temperature (15 R464, 17 R512) -/

/-- The junctions as just read. -/
def State.setTemps (s : State) (temps : List Nat) : State := { s with pwr := { s.pwr with temps := temps } }

theorem exec_thermalTrip_of_below {temps : List Nat} {s : State} (h : ∀ t ∈ temps, t < fld (s.reg32 (pPwr + 0x110)) 15 8) :
    exec (.thermalTrip temps) s = .next (s.setTemps temps) := by
  have htrips : (s.setTemps temps).trips = false := List.any_eq_false.2 fun t ht => by
    rw [decide_eq_true_iff]
    exact Nat.not_le.2 (h t ht)
  refine if_pos (Bool.or_eq_true_iff.2 (.inl ?_))
  exact congrArg not htrips

theorem exec_thermalTrip_of_reached {temps : List Nat} {s : State} (h : ∃ t ∈ temps, t ≥ fld (s.reg32 (pPwr + 0x110)) 15 8) (hgood : s.pwr.good = true) :
    exec (.thermalTrip temps) s =
      .next ((State.raise { s with pwr := { s.pwr with temps := temps, trip := true, tripWait := true } } pPwr 3).startFlush 3) := by
  have htrips : (s.setTemps temps).trips = true := by
    obtain ⟨t, ht, hhot⟩ := h
    exact List.any_eq_true.2 ⟨t, ht, decide_eq_true hhot⟩
  have hgo : ¬(!(s.setTemps temps).trips || !(s.setTemps temps).pwr.good) = true := by
    rw [htrips, show (s.setTemps temps).pwr.good = true from hgood]
    exact Bool.false_ne_true
  exact if_neg hgo

/-- Every junction lies more than 10 °C below THROTTLE. -/
def State.cool (s : State) (temps : List Nat) : Bool := temps.all fun t => decide (t + 10 < fld (s.reg32 (pPwr + 0x110)) 7 0)

theorem State.cool_iff {s : State} {temps : List Nat} : s.cool temps = true ↔ ∀ t ∈ temps, t + 10 < fld (s.reg32 (pPwr + 0x110)) 7 0 := by
  simp only [State.cool, List.all_eq_true, decide_eq_true_iff]

theorem exec_thermalRecovery (temps : List Nat) (s : State) :
    exec (.thermalRecovery temps) s =
      if !s.pwr.tripWait || !s.cool temps || s.pwr.flush.isSome || !s.pwr.good then .next (s.setTemps temps) else .next (s.setTemps temps).startAgain := rfl

theorem exec_thermalRecovery_of_not_yet {temps : List Nat} {s : State} (h : s.pwr.tripWait = false ∨ s.cool temps = false) :
    exec (.thermalRecovery temps) s = .next (s.setTemps temps) := by
  rw [exec_thermalRecovery]
  rcases h with h | h <;> simp [h]

theorem exec_thermalRecovery_of_cool {temps : List Nat} {s : State} (htrip : s.pwr.tripWait = true) (hcool : s.cool temps = true)
    (hflush : s.pwr.flush = none) (hgood : s.pwr.good = true) : exec (.thermalRecovery temps) s = .next (s.setTemps temps).startAgain := by
  simp [exec_thermalRecovery, htrip, hcool, hflush, hgood]

/-! ## The supply is good again (15 R459) -/

theorem exec_restartAfterFlush_of_not_yet {s : State} (h : s.pwr.waitRestart = false ∨ s.pwr.tripWait = true ∨ s.pwr.good = false) :
    exec .restartAfterFlush s = .next s := by
  refine if_pos ?_
  rcases h with h | h | h <;> simp [h]

theorem exec_restartAfterFlush_of_ready {s : State} (hwait : s.pwr.waitRestart = true) (htrip : s.pwr.tripWait = false) (hgood : s.pwr.good = true) :
    exec .restartAfterFlush s = .next (State.startAgain { s with pwr := { s.pwr with pwrFail := false } }) := by
  refine if_neg ?_
  simp [hwait, htrip, hgood]

/-- Settles O44: each cause from outside passes through `startFlush`, which beyond the flush only counts and reports; what lets the device start again passes through `startAgain`, which keeps HBM and the bound regions (log entry 80). -/
theorem powerFailuresFlushAndRestart : Obligations.PowerFailuresFlushAndRestart := by
  unfold Obligations.PowerFailuresFlushAndRestart
  refine ⟨fun ns stays s => ⟨fun hns => exec_pwrFailN_of_short hns stays s, fun hns hflush hwait hgood hstreams => ?_⟩,
    fun mv s => ⟨exec_vmonRst_of_quiet, fun hon hlow hflush hwait hgood hstreams => ?_⟩,
    fun temps s => ⟨exec_thermalTrip_of_below, fun hhot hflush hwait hgood hstreams => ?_, fun h => ?_, fun htrip hcool hflush hgood => ?_⟩,
    fun s => ⟨fun h => ?_, fun hhold hexp hflush hwait hgood hstreams => ?_, fun hflush => ?_, fun cause hflush hcause => ?_,
      exec_restartAfterFlush_of_not_yet, fun hwait htrip hgood => ?_⟩⟩
  · have hs : State.Flushable { s with pwr := { s.pwr with pwrFail := stays } } := ⟨hflush, hwait, hgood, hstreams⟩
    have hrep := raise_reports { s with pwr := { s.pwr with pwrFail := stays } } pPwr 1
    have hdone := hrep.startFlush hs (cause := 0) (by decide)
    refine ⟨_, exec_pwrFailN_of_long hns stays s, hdone.pwr, hdone.cmds, hdone.hbm, ?_⟩
    rw [State.counter_startFlush_flushes (hrep.flushable hs) (by decide), State.raise, State.counter_raiseAt _ _ _ _ (by decide)]
    rfl
  · have hs : (s.setMv mv).Flushable := ⟨hflush, hwait, hgood, hstreams⟩
    have hdone := (raise_reports (s.setMv mv) pPwr 0).startFlush hs (cause := 1) (by decide)
    exact ⟨_, exec_vmonRst_of_low hon hlow, hdone.pwr, hdone.cmds, hdone.hbm⟩
  · have hs : State.Flushable { s with pwr := { s.pwr with temps := temps, trip := true, tripWait := true } } := ⟨hflush, hwait, hgood, hstreams⟩
    have hdone := (raise_reports { s with pwr := { s.pwr with temps := temps, trip := true, tripWait := true } } pPwr 3).startFlush hs (cause := 3) (by decide)
    exact ⟨_, exec_thermalTrip_of_reached hhot hgood, hdone.pwr, hdone.cmds⟩
  · refine exec_thermalRecovery_of_not_yet (h.imp_right fun ⟨t, ht, hhot⟩ => Bool.eq_false_iff.2 fun hcool => ?_)
    exact Nat.not_le.2 (State.cool_iff.1 hcool t ht) hhot
  · have hagain := (s.setTemps temps).startAgain_restarts
    refine ⟨_, exec_thermalRecovery_of_cool htrip (State.cool_iff.2 hcool) hflush hgood, ?_, ?_, ?_, hagain.powered (by decide), hagain.powered (by decide), hagain.powered (by decide)⟩ <;>
      rw [hagain.pwr] <;> rfl
  · exact exec_holdMaxExpiry_of_early (h.imp_right Nat.not_le.2)
  · have hs : s.Flushable := ⟨hflush, hwait, hgood, hstreams⟩
    have hrep := (bump_reports s (pPwr + 0x048) 1).trans (raise_reports _ pPwr 2)
    have hdone := hrep.startFlush hs (cause := 2) (by decide)
    refine ⟨_, exec_holdMaxExpiry_of_expired hhold hexp, hdone.pwr, hdone.cmds, ?_⟩
    rw [State.counter_startFlush_ne (hrep.flushable hs) (by decide) (by decide) (by decide), State.raise, State.counter_raiseAt _ _ _ _ (by decide), State.counter_bump_same]
  · exact congrArg Host.Outcome.next (State.flushEnd_of_no_flush hflush)
  · have hend := State.flushEnd_of_cause hflush hcause
    refine ⟨s.flushEnd, rfl, ?_, ?_, ?_, ?_, s.flushEnd_pending, fun d hlow hhigh => ?_, fun n => ?_⟩ <;> rw [hend]
    · rfl
    · rfl
    · rfl
    · exact s.flushAll.mainOff_powered hlow hhigh
    · exact s.flushAll.mainOff_ctx_state n
  · have hagain := State.startAgain_restarts { s with pwr := { s.pwr with pwrFail := false } }
    refine ⟨_, exec_restartAfterFlush_of_ready hwait htrip hgood, ?_, ?_, hagain.powered (by decide), hagain.powered (by decide), hagain.powered (by decide),
      hagain.cmds, hagain.hbm, hagain.regions⟩ <;> rw [hagain.pwr] <;> rfl

end Sys2Proof.Machine
end

section
/-! SUPPORT. What sending a message changes, and how received messages are relayed, dropped or answered before they act (spec 12 R383 to R385, R392 to R399, 13 R412). -/

namespace Sys2Proof.Machine

/-! ## What sending changes -/

/-- `t` is `s` but for what reports change, the links and the messages sent. -/
def Sends (s t : State) : Prop := ∃ r a b l x, t = { s with reg := r, pa := a, pb := b, fab := { s.fab with links := l, sent := x } }

theorem Sends.refl (s : State) : Sends s s := ⟨s.reg, s.pa, s.pb, s.fab.links, s.fab.sent, rfl⟩

theorem Sends.trans {s t u : State} (h : Sends s t) (k : Sends t u) : Sends s u := by
  obtain ⟨r, a, b, l, x, rfl⟩ := h
  obtain ⟨r', a', b', l', x', rfl⟩ := k
  exact ⟨r', a', b', l', x', rfl⟩

theorem Sends.of_reports {s t : State} (h : Reports s t) : Sends s t := by
  obtain ⟨r, a, b, rfl⟩ := h
  exact ⟨r, a, b, s.fab.links, s.fab.sent, rfl⟩

section
variable {s t : State} (h : Sends s t)
include h

theorem Sends.cmds : t.cmds = s.cmds := by
  obtain ⟨r, a, b, l, x, rfl⟩ := h
  rfl

theorem Sends.col : t.col = s.col := by
  obtain ⟨r, a, b, l, x, rfl⟩ := h
  rfl

theorem Sends.hbm : t.hbm = s.hbm := by
  obtain ⟨r, a, b, l, x, rfl⟩ := h
  rfl

theorem Sends.time : t.time = s.time := by
  obtain ⟨r, a, b, l, x, rfl⟩ := h
  rfl

theorem Sends.dup : t.fab.dup = s.fab.dup := by
  obtain ⟨r, a, b, l, x, rfl⟩ := h
  rfl

/-- Whether a pair is kept does not depend on what was sent. -/
theorem Sends.seen (m : Msg) : t.seen m = s.seen m := by
  obtain ⟨r, a, b, l, x, rfl⟩ := h
  rfl

/-- Where an epoch stands does not depend on what was sent. -/
theorem Sends.epochIs (m : Msg) : t.epochIs m = s.epochIs m := by
  obtain ⟨r, a, b, l, x, rfl⟩ := h
  rfl

end

theorem setLink_sends (s : State) (l : Nat) (x : LinkSt) : Sends s (s.setLink l x) := ⟨s.reg, s.pa, s.pb, _, s.fab.sent, rfl⟩

theorem pump_sends (s : State) (l : Nat) : Sends s (s.pump l) := by
  unfold State.pump
  dsimp only
  split
  · exact .refl s
  · exact (setLink_sends s l _).trans (.of_reports ((bump_reports _ _ _).trans (setReg32_reports _ _ _)))

theorem enqueue_sends (s : State) (l : Nat) (fs : List TxFlit) : Sends s (s.enqueue l fs) :=
  ((setLink_sends s l _).trans (pump_sends _ l)).trans (.of_reports (bumps_reports _ _))

theorem trySendNot_sends (s : State) (m : Msg) (low : Bool) (avoid : Nat) : Sends s (s.trySendNot m low avoid).1 := by
  have hsent : ∀ (t : State) (l : List Msg), Sends t { t with fab := { t.fab with sent := l } } := fun t l => ⟨t.reg, t.pa, t.pb, t.fab.links, l, rfl⟩
  unfold State.trySendNot
  split
  · exact hsent s _
  · dsimp only
    split
    · exact .refl s
    · rename_i l _
      split
      · exact enqueue_sends s l _
      · exact ((enqueue_sends s l _).trans (hsent _ _)).trans (.of_reports (bump_reports _ _ _))

theorem noRoute_reports (s : State) : Reports s s.noRoute := (bump_reports s _ _).trans (raise_reports _ _ _)

theorem putMsg_sends (s : State) (m : Msg) : Sends s (s.putMsg m) := by
  unfold State.putMsg
  dsimp only
  split
  · exact trySendNot_sends s m false 31
  · exact .of_reports (noRoute_reports s)

/-! ## What sending counts -/

theorem State.counter_bumps_one_ne {o i : Nat} (s : State) (n : Nat) (h : i ≠ o) : (s.bumps [(o, n)]).counter i = s.counter i := by
  simp only [State.bumps, List.foldl_cons, List.foldl_nil]
  split
  · rfl
  · exact State.counter_bump_ne s o n i h

theorem State.counter_pump {l i : Nat} (s : State) (h : i ≠ pLink l + 0x040) : (s.pump l).counter i = s.counter i := by
  unfold State.pump
  dsimp only
  split
  · rfl
  · exact State.counter_bump_ne _ _ _ _ h

theorem State.reg32_pump {l o : Nat} (s : State) (h : o ≠ pLink l + 0x020) : (s.pump l).reg32 o = s.reg32 o := by
  unfold State.pump
  dsimp only
  split
  · rfl
  · exact State.reg32_setReg32_ne _ _ _ _ h

theorem State.counter_enqueue {l i : Nat} (s : State) (fs : List TxFlit) (hflits : i ≠ pLink l + 0x040) (hstalls : i ≠ pLink l + 0x080) :
    (s.enqueue l fs).counter i = s.counter i :=
  (State.counter_bumps_one_ne _ _ hstalls).trans (State.counter_pump _ hflits)

theorem State.counter_withFab {i : Nat} (s : State) (x : FabSt) : State.counter { s with fab := x } i = s.counter i := rfl

theorem State.counter_setLink {i : Nat} (s : State) (l : Nat) (x : LinkSt) : (s.setLink l x).counter i = s.counter i := rfl

/-- The pages of the links stand above the page of the fabric. -/
theorem ne_pLink_add {i : Nat} (h : i < 0x310000) (l k : Nat) : i ≠ pLink l + k := by
  unfold pLink
  omega

/-- A message that leaves is counted on its link and by the fabric (12 FAB_MSG_TX); one without a route by the fabric (12 FAB_NO_ROUTE). -/
theorem State.counter_putMsg {i : Nat} (s : State) (m : Msg) (hlow : i < 0x310000) (htx : i ≠ pFab + 0x040) (hno : i ≠ pFab + 0x078) (hrep : i ∉ reportCounters) :
    (s.putMsg m).counter i = s.counter i := by
  have hsend : (s.trySend m false).1.counter i = s.counter i := by
    unfold State.trySend State.trySendNot
    split
    · rfl
    · dsimp only
      split
      · rfl
      · rename_i l _
        have henq : ∀ fs, (s.enqueue l fs).counter i = s.counter i := fun fs => State.counter_enqueue s fs (ne_pLink_add hlow l _) (ne_pLink_add hlow l _)
        split
        · exact henq _
        · rw [State.counter_bump_ne _ _ _ _ htx, State.counter_withFab]
          exact henq _
  unfold State.putMsg
  dsimp only
  split
  · exact hsend
  · rw [State.noRoute, State.raise, State.counter_raiseAt _ _ _ _ hrep, State.counter_bump_ne _ _ _ _ hno]

/-! ## A message leaves its buffer (12 R385) -/

/-- Its flits' credits go back by what the link can send at once, or by a control flit. -/
theorem State.unbuffer_cases (s : State) (m : Msg) :
    s.unbuffer m = s ∨ ∃ y, s.unbuffer m = (s.setLink m.link y).pump m.link ∨ ∃ z, s.unbuffer m = ((s.setLink m.link y).pump m.link).setLink m.link z := by
  unfold State.unbuffer
  dsimp only
  split
  · exact .inl rfl
  · split
    · exact .inr ⟨_, .inl rfl⟩
    · exact .inr ⟨_, .inr ⟨_, rfl⟩⟩

theorem unbuffer_sends (s : State) (m : Msg) : Sends s (s.unbuffer m) := by
  obtain h | ⟨y, h | ⟨z, h⟩⟩ := s.unbuffer_cases m <;> rw [h]
  · exact .refl s
  · exact (setLink_sends s _ y).trans (pump_sends _ _)
  · exact ((setLink_sends s _ y).trans (pump_sends _ _)).trans (setLink_sends _ _ z)

theorem State.counter_unbuffer {i : Nat} (s : State) (m : Msg) (hlow : i < 0x310000) : (s.unbuffer m).counter i = s.counter i := by
  have hpump := fun y => State.counter_pump (s.setLink m.link y) (ne_pLink_add hlow m.link _)
  obtain h | ⟨y, h | ⟨z, h⟩⟩ := s.unbuffer_cases m <;> rw [h]
  · exact hpump y
  · exact hpump y

theorem State.node_unbuffer (s : State) (m : Msg) : (s.unbuffer m).node = s.node := by
  have hpump := fun y => congrArg (fld · 11 0) (State.reg32_pump (s.setLink m.link y) (ne_pLink_add (i := pFab + 0x104) (by decide) m.link _))
  obtain h | ⟨y, h | ⟨z, h⟩⟩ := s.unbuffer_cases m <;> rw [h]
  · exact hpump y
  · exact hpump y

/-! ## A message for this node (12 R392 to R396) -/

/-- A message has left its buffer, and is counted where it came from another node. -/
def State.arrived (s : State) (m : Msg) : State := if m.src == (s.unbuffer m).node then s.unbuffer m else (s.unbuffer m).bump (pFab + 0x048) 1

theorem arrived_sends (s : State) (m : Msg) : Sends s (s.arrived m) := by
  unfold State.arrived
  split
  · exact unbuffer_sends s m
  · exact (unbuffer_sends s m).trans (.of_reports (bump_reports _ _ _))

theorem State.counter_arrived {i : Nat} (s : State) (m : Msg) (hlow : i < 0x310000) (hrx : i ≠ pFab + 0x048) : (s.arrived m).counter i = s.counter i := by
  unfold State.arrived
  split
  · exact s.counter_unbuffer m hlow
  · exact (State.counter_bump_ne _ _ _ _ hrx).trans (s.counter_unbuffer m hlow)

section
variable {s : State} {m : Msg}

theorem State.receive_of_other_node (hdst : m.dst ≠ s.node) : s.receive m = ((s.unbuffer m).relay m (s.lowOf m), false) := by
  refine if_pos ?_
  rw [State.node_unbuffer]
  exact bne_iff_ne.2 hdst

variable (hdst : m.dst = s.node)
include hdst

/-- What is looked at of a message for this node, in its order. -/
theorem State.receive_of_this_node : s.receive m =
    if !m.e2eOk || !msgTypes.contains m.ty then ((s.arrived m).bump (pFab + 0x070) 1, false)
    else if m.ni && (s.arrived m).seen m then ((s.arrived m).bump (pFab + 0x060) 1, false)
    else
      let t := if m.ni then (s.arrived m).keepPair m else s.arrived m
      match t.epochIs m with
      | .waits => ({ t with fab := { t.fab with waitEpoch := t.fab.waitEpoch ++ [m] } }, false)
      | .stale => ((t.putMsg (t.reply m 0x28 0 .empty)).bump (pFab + 0x090) 1, false)
      | .served => (t, true) := by
  have hnode : ¬(m.dst != (s.unbuffer m).node) = true := by simp [State.node_unbuffer, hdst]
  exact if_neg hnode

theorem State.receive_of_bad_crc (hcrc : m.e2eOk = false) : s.receive m = ((s.arrived m).bump (pFab + 0x070) 1, false) := by
  rw [State.receive_of_this_node hdst, hcrc]
  rfl

variable (hcrc : m.e2eOk = true) (hty : msgTypes.contains m.ty = true)
include hcrc hty

theorem State.receive_of_kept_pair (hni : m.ni = true) (hseen : s.seen m = true) : s.receive m = ((s.arrived m).bump (pFab + 0x060) 1, false) := by
  rw [State.receive_of_this_node hdst, hcrc, hty, hni, (arrived_sends s m).seen, hseen]
  rfl

theorem State.receive_of_stale_epoch (hni : m.ni = false) (hstale : s.epochIs m = .stale) :
    s.receive m = (((s.arrived m).putMsg ((s.arrived m).reply m 0x28 0 .empty)).bump (pFab + 0x090) 1, false) := by
  have hepoch : (s.arrived m).epochIs m = .stale := ((arrived_sends s m).epochIs m).trans hstale
  simp only [State.receive_of_this_node hdst, hcrc, hty, hni, hepoch, Bool.not_true, Bool.or_self, Bool.false_and, Bool.false_eq_true, if_false]

end

/-! ## The rows that receive (12 R394) -/

theorem State.onMsg_of_other_type {s : State} {m : Msg} {ty : Nat} (hty : m.ty ≠ ty) (hknown : msgTypes.contains m.ty = true) (f : State → State) :
    s.onMsg ty m f = s :=
  if_pos (by rw [hknown, bne_iff_ne.2 hty, Bool.and_self])

/-- What reception does not hand on reaches nothing. -/
theorem State.onMsg_of_not_handed_on {s r : State} {m : Msg} {ty : Nat} (hrec : s.receive m = (r, false)) (hty : m.ty = ty) (f : State → State) :
    s.onMsg ty m f = r := by
  simp [State.onMsg, hrec, hty]

/-- Every row that receives stands for a message of its own TYPE. -/
theorem exec_messageRow : ∀ row ∈ messageRows, ∃ f : Msg → State → State, ∀ m s, exec (row.1 m) s = .next (s.onMsg row.2 m (f m)) := by
  intro row hrow
  fin_cases hrow
  all_goals exact ⟨_, fun _ _ => rfl⟩

theorem messageRows_known : ∀ row ∈ messageRows, msgTypes.contains row.2 = true := by decide

/-- Settles O32: reception looks at the node, the end-to-end CRC, the kept pairs and the epoch in this order, and what it does not hand on changes nothing but links and reports. -/
theorem messagesAreReceivedByRule : Obligations.MessagesAreReceivedByRule := by
  unfold Obligations.MessagesAreReceivedByRule
  intro row hrow m s
  obtain ⟨f, hexec⟩ := exec_messageRow row hrow
  have hknown := messageRows_known row hrow
  have hends : ∀ {r : State}, s.receive m = (r, false) → m.ty = row.2 → exec (row.1 m) s = .next r :=
    fun hrec hty => (hexec m s).trans (congrArg _ (State.onMsg_of_not_handed_on hrec hty _))
  have harrived := arrived_sends s m
  refine ⟨fun hty hother => ?_, fun hty hdst => hends (State.receive_of_other_node hdst) hty, fun hty hdst hcrc => ?_, fun hty hdst hcrc hni hseen => ?_,
    fun hty hdst hcrc hni hstale => ?_⟩
  · exact (hexec m s).trans (congrArg _ (State.onMsg_of_other_type hty hother _))
  · refine ⟨_, hends (State.receive_of_bad_crc hdst hcrc) hty, ?_, harrived.cmds, harrived.col, harrived.hbm, harrived.dup⟩
    rw [State.counter_bump_same, State.counter_arrived _ _ (by decide) (by decide)]
  · refine ⟨_, hends (State.receive_of_kept_pair hdst hcrc (hty ▸ hknown) hni hseen) hty, ?_, harrived.cmds, harrived.col, harrived.hbm, harrived.dup⟩
    rw [State.counter_bump_same, State.counter_arrived _ _ (by decide) (by decide)]
  · have hanswered := harrived.trans (putMsg_sends (s.arrived m) ((s.arrived m).reply m 0x28 0 .empty))
    refine ⟨_, hends (State.receive_of_stale_epoch hdst hcrc (hty ▸ hknown) hni hstale) hty, ?_, hanswered.cmds, hanswered.col, hanswered.hbm, hanswered.dup⟩
    rw [State.counter_bump_same, State.counter_putMsg _ _ (by decide) (by decide) (by decide) (by decide), State.counter_arrived _ _ (by decide) (by decide)]

end Sys2Proof.Machine
end

section
/-! SUPPORT. A link's flits: what transmission, acknowledgements, credits and retry requests leave of what it has received, and the flits taken in their order (spec 12 R383 to R385). -/

namespace Sys2Proof.Machine

/-! ## What a link has received -/

/-- From `x` to `y` the receiving side of a link stands: the number expected next, whole and partial messages, whether a retry is asked for. -/
structure LinkSt.ReceivingStands (x y : LinkSt) : Prop where
  rxNext : y.rxNext = x.rxNext
  inbox : y.inbox = x.inbox
  partials : y.partials = x.partials
  asked : y.asked = x.asked

theorem LinkSt.ReceivingStands.refl (x : LinkSt) : x.ReceivingStands x := ⟨rfl, rfl, rfl, rfl⟩

theorem LinkSt.ReceivingStands.trans {x y z : LinkSt} (h : x.ReceivingStands y) (k : y.ReceivingStands z) : x.ReceivingStands z :=
  ⟨k.rxNext.trans h.rxNext, k.inbox.trans h.inbox, k.partials.trans h.partials, k.asked.trans h.asked⟩

theorem LinkSt.ack_stands (x : LinkSt) (now a : Nat) : x.ReceivingStands (x.ack now a) := by
  unfold LinkSt.ack
  split
  · exact .refl x
  · dsimp only
    split
    · exact .refl x
    · exact ⟨rfl, rfl, rfl, rfl⟩

theorem LinkSt.credit_stands (x : LinkSt) (v : Nat) : x.ReceivingStands (x.credit v) := by
  unfold LinkSt.credit
  dsimp only
  split <;> exact ⟨rfl, rfl, rfl, rfl⟩

theorem LinkSt.creditN_stands (v : Nat) : ∀ (n : Nat) (x : LinkSt), x.ReceivingStands (x.creditN v n)
  | 0, x => .refl x
  | n + 1, x => (x.credit_stands v).trans (LinkSt.creditN_stands v n (x.credit v))

/-- What the header of a flit returns concerns transmission only. -/
theorem LinkSt.credits'_stands (x : LinkSt) (now h : Nat) : x.ReceivingStands (x.credits' now h) :=
  (x.ack_stands now _).trans (LinkSt.creditN_stands _ _ _)

theorem linkPump_stands : ∀ (fuel : Nat) (x : LinkSt) (n : Nat), x.ReceivingStands (linkPump fuel x n).1
  | 0, x, _ => .refl x
  | fuel + 1, x, n => by
    unfold linkPump
    split
    · exact .refl x
    · split
      · exact .refl x
      · next f rest _ =>
        refine LinkSt.ReceivingStands.trans ?_ (linkPump_stands fuel _ (n + 1))
        exact ⟨rfl, rfl, rfl, rfl⟩

/-- Flits that leave on a link change nothing of what it has received. -/
theorem State.pump_receivingStands (s : State) (l : Nat) : (s.link l).ReceivingStands ((s.pump l).link l) := by
  have hpump := linkPump_stands (s.link l).queue.length (s.link l) 0
  unfold State.pump
  dsimp only
  split
  · exact .refl _
  · have hlink : ∀ (y : LinkSt) (o n v w : Nat), (((s.setLink l y).bump o n).setReg32 v w).link l = y := fun y _ _ _ _ => State.link_setLink_same s l y
    rw [State.disarm, hlink]
    split <;> split <;> exact ⟨hpump.rxNext, hpump.inbox, hpump.partials, hpump.asked⟩

/-- What is reported is no link's. -/
theorem Reports.link {s t : State} (h : Reports s t) (l : Nat) : t.link l = s.link l := by
  obtain ⟨r, a, b, rfl⟩ := h
  rfl

theorem Reports.time {s t : State} (h : Reports s t) : t.time = s.time := by
  obtain ⟨r, a, b, rfl⟩ := h
  rfl

/-- A retry is asked for on the wire, unless it is already. -/
theorem LinkSt.askRetry_eq (x : LinkSt) : ∃ w, x.askRetry = { x with asked := true, wire := w } := by
  unfold LinkSt.askRetry
  split
  · next h => exact ⟨x.wire, by rw [← h]⟩
  · exact ⟨_, rfl⟩

/-! ## A flit that came (12 R383, R384) -/

/-- The symbols corrected in a flit are counted against their lanes. -/
def State.symbolsCounted (s : State) (l : Nat) (fec : Fec) : State :=
  (s.bumps [(pLink l + 0x050, sumList fec.syms)]).setLink l ((s.link l).symbols s.time.lctr fec.syms)

theorem State.link_symbolsCounted (s : State) (l : Nat) (fec : Fec) : (s.symbolsCounted l fec).link l = (s.link l).symbols s.time.lctr fec.syms :=
  State.link_setLink_same _ _ _

theorem symbolsCounted_sends (s : State) (l : Nat) (fec : Fec) : Sends s (s.symbolsCounted l fec) :=
  (Sends.of_reports (bumps_reports s _)).trans (setLink_sends _ _ _)

theorem State.counter_symbolsCounted {l i : Nat} (s : State) (fec : Fec) (h : i ≠ pLink l + 0x050) : (s.symbolsCounted l fec).counter i = s.counter i :=
  State.counter_bumps_one_ne s _ h

/-- What a link has when the header of a flit has been heard. -/
def State.heardBy (s : State) (l : Nat) (fec : Fec) (h : Nat) : LinkSt := ((s.symbolsCounted l fec).link l).credits' s.time.lctr h

theorem State.heardBy_stands (s : State) (l : Nat) (fec : Fec) (h : Nat) : (s.link l).ReceivingStands (s.heardBy l fec h) := by
  unfold State.heardBy
  rw [State.link_symbolsCounted]
  exact LinkSt.ReceivingStands.trans (y := (s.link l).symbols s.time.lctr fec.syms) ⟨rfl, rfl, rfl, rfl⟩ (LinkSt.credits'_stands _ _ _)

section
variable {link : Nat} {flit : List Byte} {fec : Fec} {s : State}

theorem exec_flitReceive_of_not_taken (h : (s.link link).st ≠ .up ∨ flit.length ≠ 256) : exec (.flitReceive link flit fec) s = .next s := by
  refine if_pos ?_
  rcases h with h | h <;> simp [h]

variable (hlink : link < 24) (hup : (s.link link).st = .up) (hlen : flit.length = 256)
include hlink hup hlen

/-- What is looked at of a flit, in its order. -/
theorem exec_flitReceive_of_taken :
    let t := s.symbolsCounted link fec
    let x := t.link link
    exec (.flitReceive link flit fec) s =
      if fec.uncorr then .next (((t.setLink link x.askRetry).bump (pLink link + 0x058) 1).raise (pLink link) 1)
      else if crc32c (slice flit 0 252) != le32 flit 252 then .next ((t.setLink link x.askRetry).raise (pLink link) 0)
      else
        let h := le32 flit 0
        let u := t.setLink link (x.credits' t.time.lctr h)
        let u := if bitOf h 5 then u.controlFlit link (slice flit 4 248)
          else if fld h 15 6 == (u.link link).rxNext then (u.setLink link ((u.link link).accept h (slice flit 4 248))).bump (pLink link + 0x048) 1
          else u
        .next (u.pump link) := by
  have htaken : ¬(decide (link ≥ 24) || (s.link link).st != .up || flit.length != 256) = true := by simp [hlink, hup, hlen]
  have htime : (s.bumps [(pLink link + 0x050, sumList fec.syms)]).time = s.time := (bumps_reports s _).time
  simp only [exec, execFlitReceive, htaken, if_false, htime, Bool.false_eq_true]
  rfl

/-- A flit that cannot be used is discarded and a retry asked for. -/
theorem exec_flitReceive_of_unusable (hbad : fec.uncorr = true ∨ crc32c (slice flit 0 252) ≠ le32 flit 252) :
    ∃ t, exec (.flitReceive link flit fec) s = .next t ∧ Reports ((s.symbolsCounted link fec).setLink link ((s.symbolsCounted link fec).link link).askRetry) t := by
  rw [exec_flitReceive_of_taken hlink hup hlen]
  cases hfec : fec.uncorr with
  | true => exact ⟨_, rfl, (bump_reports _ _ _).trans (raise_reports _ _ _)⟩
  | false =>
    have hcrc : (crc32c (slice flit 0 252) != le32 flit 252) = true := bne_iff_ne.2 (hbad.resolve_left (by simp [hfec]))
    simp only [hcrc, if_true, Bool.false_eq_true, if_false]
    exact ⟨_, rfl, raise_reports _ _ _⟩

variable (hfec : fec.uncorr = false) (hcrc : crc32c (slice flit 0 252) = le32 flit 252) (hdata : bitOf (le32 flit 0) 5 = false)
include hfec hcrc hdata

/-- A data flit that can be used: its header is heard, and it is taken in its turn only. -/
theorem exec_flitReceive_of_data :
    let u := (s.symbolsCounted link fec).setLink link (s.heardBy link fec (le32 flit 0))
    exec (.flitReceive link flit fec) s = .next (State.pump (if fld (le32 flit 0) 15 6 == (s.link link).rxNext then
      (u.setLink link ((s.heardBy link fec (le32 flit 0)).accept (le32 flit 0) (slice flit 4 248))).bump (pLink link + 0x048) 1 else u) link) := by
  have hnext := (State.heardBy_stands s link fec (le32 flit 0)).rxNext
  have hheard : ((s.symbolsCounted link fec).link link).credits' (s.symbolsCounted link fec).time.lctr (le32 flit 0) = s.heardBy link fec (le32 flit 0) := by
    rw [(symbolsCounted_sends s link fec).time]
    rfl
  simp only [exec_flitReceive_of_taken hlink hup hlen, hfec, hcrc, hdata, hheard, hnext, State.link_setLink_same, bne_self_eq_false, Bool.false_eq_true, if_false]

end

/-! ## A flit that joins its message (12 R383) -/

section
variable (x : LinkSt) (h : Nat) (data : List Byte)

theorem LinkSt.accept_rxNext : (x.accept h data).rxNext = (x.rxNext + 1) % 1024 := by
  unfold LinkSt.accept
  dsimp only
  split <;> rfl

theorem LinkSt.accept_asked : (x.accept h data).asked = false := by
  unfold LinkSt.accept
  dsimp only
  split <;> rfl

/-- The data of a message's channel up to this flit. -/
def LinkSt.joined : List Byte := (if bitOf h 3 then [] else tgetD x.partials (fld h 2 0) []) ++ data

theorem LinkSt.accept_last (hlast : bitOf h 4 = true) :
    (x.accept h data).inbox = x.inbox ++ [(fld h 2 0, x.joined h data)] ∧ tget (x.accept h data).partials (fld h 2 0) = none := by
  have heq : x.accept h data = { x with rxNext := (x.rxNext + 1) % 1024, asked := false, partials := tdel x.partials (fld h 2 0), inbox := x.inbox ++ [(fld h 2 0, x.joined h data)] } :=
    if_pos hlast
  rw [heq]
  exact ⟨rfl, tget_tdel_same _ _⟩

theorem LinkSt.accept_not_last (hlast : bitOf h 4 = false) :
    (x.accept h data).inbox = x.inbox ∧ tget (x.accept h data).partials (fld h 2 0) = some (x.joined h data) := by
  have heq : x.accept h data = { x with rxNext := (x.rxNext + 1) % 1024, asked := false, partials := tset x.partials (fld h 2 0) (x.joined h data) } :=
    if_neg (by simp [hlast])
  rw [heq]
  exact ⟨rfl, tget_tset_same _ _ _⟩

end

/-- Settles O36: what a flit's header returns and what the link sends then leave the receiving side alone, so that only a retry request and a flit in its turn change it. -/
theorem flitsAreTakenInOrder : Obligations.FlitsAreTakenInOrder := by
  unfold Obligations.FlitsAreTakenInOrder
  intro link flit fec s hlink x h
  refine ⟨exec_flitReceive_of_not_taken, fun hup hlen hbad => ?_, fun hup hlen hfec hcrc hdata => ?_⟩
  · obtain ⟨t, hexec, hrep⟩ := exec_flitReceive_of_unusable hlink hup hlen hbad
    obtain ⟨w, hask⟩ := ((s.symbolsCounted link fec).link link).askRetry_eq
    have ht : t.link link = { x.symbols s.time.lctr fec.syms with asked := true, wire := w } := by
      rw [hrep.link, State.link_setLink_same, hask, State.link_symbolsCounted]
    exact ⟨t, hexec, by rw [ht], by rw [ht]; rfl, by rw [ht]; rfl, by rw [ht]; rfl, by rw [ht]; rfl, hrep.cmds.trans (symbolsCounted_sends s link fec).cmds⟩
  · have hheard := s.heardBy_stands link fec h
    refine ⟨_, exec_flitReceive_of_data hlink hup hlen hfec hcrc hdata, ?_, fun hturn => ?_, fun hturn => ?_⟩
    · have hcmds := (symbolsCounted_sends s link fec).cmds
      rw [(pump_sends _ link).cmds]
      split
      · simp only [State.bump_cmds, State.setLink_cmds, hcmds]
      · simp only [State.setLink_cmds, hcmds]
    · have hpump := State.pump_receivingStands ((s.symbolsCounted link fec).setLink link (s.heardBy link fec h)) link
      rw [State.link_setLink_same] at hpump
      have hstands := hheard.trans hpump
      rw [if_neg (by simpa using hturn)]
      exact ⟨hstands.rxNext, hstands.inbox, hstands.partials⟩
    · have hpump := State.pump_receivingStands (((( s.symbolsCounted link fec).setLink link (s.heardBy link fec h)).setLink link
        ((s.heardBy link fec h).accept h (slice flit 4 248))).bump (pLink link + 0x048) 1) link
      rw [(bump_reports _ _ _).link, State.link_setLink_same] at hpump
      have hjoined : (s.heardBy link fec h).joined h (slice flit 4 248) = x.joined h (slice flit 4 248) := by
        rw [LinkSt.joined, hheard.partials, LinkSt.joined]
      rw [if_pos (by simpa using hturn)]
      refine ⟨?_, hpump.asked.trans (LinkSt.accept_asked _ _ _), ?_, fun hlast => ?_, fun hlast => ?_⟩
      · rw [hpump.rxNext, LinkSt.accept_rxNext, hheard.rxNext]
      · rw [State.counter_pump _ (by omega), State.counter_bump_same, State.counter_setLink, State.counter_setLink, State.counter_symbolsCounted s fec (by omega)]
      · obtain ⟨hinbox, hnone⟩ := (s.heardBy link fec h).accept_last h (slice flit 4 248) hlast
        rw [hpump.inbox, hpump.partials, hinbox, hnone, hheard.inbox, hjoined]
        exact ⟨rfl, rfl⟩
      · obtain ⟨hinbox, hsome⟩ := (s.heardBy link fec h).accept_not_last h (slice flit 4 248) hlast
        rw [hpump.inbox, hpump.partials, hinbox, hsome, hheard.inbox, hjoined]
        exact ⟨rfl, rfl⟩

end Sys2Proof.Machine
end

section
/-! SUPPORT. Links come up by hello, are replayed and retrained, lose lanes, go down, and are tried again (spec 12 R384, R386 to R391). -/

namespace Sys2Proof.Machine

/-! ## A link changes state -/

/-- A link in a state: without lanes unless it is up. -/
def LinkSt.enter (x : LinkSt) (st : LinkState) : LinkSt := { x with st := st, lanes := if st == .up then x.lanes else 0 }

/-- The change is logged where it is one (16 R498). -/
theorem State.linkTo_cases (s : State) (l : Nat) (x : LinkSt) (st : LinkState) :
    s.linkTo l x st = s.setLink l (x.enter st) ∨ ∃ n, s.linkTo l x st = (s.setLink l (x.enter st)).logEvent (pLink l) 7 2 noAttr st.code n :=
  (ite_eq_or_eq _ (s.setLink l (x.enter st)) _).imp_right fun h => ⟨_, h⟩

theorem linkTo_reports (s : State) (l : Nat) (x : LinkSt) (st : LinkState) : Reports (s.setLink l (x.enter st)) (s.linkTo l x st) := by
  obtain h | ⟨n, h⟩ := s.linkTo_cases l x st <;> rw [h]
  · exact .refl _
  · exact logEvent_reports _ _ _ _ _ _ _

theorem State.link_linkTo (s : State) (l : Nat) (x : LinkSt) (st : LinkState) : (s.linkTo l x st).link l = x.enter st := by
  rw [(linkTo_reports s l x st).link, State.link_setLink_same]

theorem State.cmds_linkTo (s : State) (l : Nat) (x : LinkSt) (st : LinkState) : (s.linkTo l x st).cmds = s.cmds := (linkTo_reports s l x st).cmds

theorem State.hbm_linkTo (s : State) (l : Nat) (x : LinkSt) (st : LinkState) : (s.linkTo l x st).hbm = s.hbm := (linkTo_reports s l x st).hbm

theorem State.counter_linkTo {i : Nat} (s : State) (l : Nat) (x : LinkSt) (st : LinkState) (hi : i ∉ reportCounters) : (s.linkTo l x st).counter i = s.counter i := by
  obtain h | ⟨n, h⟩ := s.linkTo_cases l x st <;> rw [h]
  · rfl
  · exact State.counter_logEvent _ _ _ _ _ _ _ hi

/-- The counters of a link's page are no report's. -/
theorem pLink_add_notMem_reportCounters {l k : Nat} (hl : l < 24) (hk : k < 0x1000) : pLink l + k ∉ reportCounters := by
  simp only [reportCounters, List.mem_cons, List.not_mem_nil, or_false, not_or, pLink, pTel, pHif, Port.idx]
  omega

theorem State.reg32_raiseAt_ne {base bit o : Nat} (s : State) (at' : Attr) (herr : o ≠ base + 0x018) (hrep : o ≠ base + 0x024) (hseq : o ≠ base + 0x028) :
    (s.raiseAt base bit at').reg32 o = s.reg32 o := by
  cases hg : pageOf base with
  | none => simp only [State.raiseAt, hg]
  | some g =>
    simp only [State.raiseAt, hg, State.reg32_withSum, apply_ite (fun t : State => t.reg32 o), State.reg32_logEvent _ _ _ _ _ _ _ hseq,
      State.reg32_setReg32_ne _ _ _ _ herr, State.reg32_setReg32_ne _ _ _ _ hrep, ite_self]

/-- A link without messages to send elsewhere goes down alone (12 R390). -/
theorem State.linkLost_of_all_sent {s : State} {l : Nat} (st : LinkState) (h : (s.link l).unsent = []) :
    s.linkLost l st = s.linkTo l { s.link l with queue := [], replay := [], partials := [], retrainAt := none, asked := false, ver := 0 } st := by
  rw [State.linkLost, h, List.foldl_nil]

theorem State.pump_of_empty_queue {s : State} {l : Nat} (h : (s.link l).queue = []) : s.pump l = s := by
  have hnone : ((linkPump (s.link l).queue.length (s.link l) 0).2 == 0) = true := by
    rw [h]
    rfl
  exact if_pos hnone

/-! ## Hello (12 R386, R387) -/

theorem State.link_stayDown_of_training {s : State} {l : Nat} (h : (s.link l).st = .training) : ((s.stayDown l).link l).st = .down := by
  rw [State.stayDown, if_pos (beq_iff_eq.2 h), State.link_linkTo]
  rfl

theorem State.stayDown_of_not_training {s : State} {l : Nat} (h : (s.link l).st ≠ .training) : s.stayDown l = s := if_neg (by simpa using h)

/-- A link whose retrain has completed, with the lanes it retrained for (12 R389). -/
def LinkSt.retrained (x : LinkSt) : LinkSt := { x with retrainAt := none, laneMask := x.nextLanes, lanes := popCount 4 x.nextLanes }

theorem agreed_spec {h : Hello} {v : Nat} (hv : agreed h = some v) : h.lo ≤ v ∧ v ≤ h.hi ∧ (v = 0x21 ∨ v = 0x20 ∨ v = 0x13) := by
  have hmem := List.mem_of_find?_eq_some hv
  have hboth := List.find?_some hv
  simp only [Bool.and_eq_true, decide_eq_true_eq] at hboth
  exact ⟨hboth.1, hboth.2, by simpa using hmem⟩

/-- A link that came up by a hello, at a version. -/
structure LinkSt.Fresh (x : LinkSt) (h : Hello) (ver : Nat) : Prop where
  st : x.st = .up
  ver : x.ver = ver
  peer : x.peer = h.node
  seqTx : x.seqTx = 0
  rxNext : x.rxNext = 0
  replay : x.replay = []
  queue : x.queue = []
  credits : x.credits = LinkSt.reset.credits

/-- `t` is `s` but for what reports change, and the routes. -/
def Routes (s t : State) : Prop := ∃ r a b x, t = { s with reg := r, pa := a, pb := b, fab := { s.fab with route := x } }

theorem Routes.of_reports {s t : State} (h : Reports s t) : Routes s t := by
  obtain ⟨r, a, b, rfl⟩ := h
  exact ⟨r, a, b, s.fab.route, rfl⟩

theorem Routes.buildRoutes {s t : State} (h : Routes s t) : Routes s t.buildRoutes := by
  obtain ⟨r, a, b, x, rfl⟩ := h
  exact ⟨r, a, b, _, rfl⟩

/-- Beyond the link that comes up, only reports and routes change. -/
theorem linkTo_routes (s : State) (l : Nat) (x : LinkSt) (changed routes : Bool) :
    let t := if changed then (s.linkTo l x .up).raise (pLink l) 5 else s.linkTo l x .up
    Routes (s.setLink l (x.enter .up)) (if routes then t.buildRoutes else t) := by
  intro t
  have ht : Reports (s.linkTo l x .up) t := by
    cases changed
    · exact .refl _
    · exact raise_reports _ _ _
  have hroutes := Routes.of_reports ((linkTo_reports s l x .up).trans ht)
  cases routes
  · exact hroutes
  · exact hroutes.buildRoutes

theorem State.linkUp_fresh (s : State) (l : Nat) (h : Hello) (ver : Nat) : ∃ x : LinkSt, x.Fresh h ver ∧ Routes (s.setLink l x) (s.linkUp l h ver) := by
  refine ⟨_, ?_, linkTo_routes s l _ _ _⟩
  exact ⟨rfl, rfl, rfl, rfl, rfl, rfl, rfl, rfl⟩

section
variable {link : Nat} {h : Hello} {s : State} (hlink : link < 24) (hon : s.linkOn link = true) (hup : (s.link link).st ≠ .up) (hquar : (s.link link).st ≠ .quarantined)
include hlink hon hup hquar

/-- A hello of a link that is not retraining. -/
theorem exec_hello_of_no_retrain (hret : (s.link link).retrainAt = none) :
    exec (.hello link h) s = .next
      (if h.kind > 2 then s.stayDown link
        else if s.node == 0xFFF || h.node == 0xFFF || h.node == s.node then (s.stayDown link).raise pFab 0
        else (agreed h).elim ((s.stayDown link).raise pFab 1) (s.linkUp link h)) := by
  have hheard : ¬(decide (link ≥ 24) || !s.linkOn link) = true := by simp [hlink, hon]
  have hanswer : exec (.hello link h) s =
      if h.kind > 2 then .next (s.stayDown link)
      else if s.node == 0xFFF || h.node == 0xFFF || h.node == s.node then .next ((s.stayDown link).raise pFab 0)
      else (agreed h).elim (.next ((s.stayDown link).raise pFab 1)) fun v => .next (s.linkUp link h v) := by
    unfold exec execHello
    dsimp only
    rw [if_neg hheard, hret]
    split
    · next e => exact absurd e hup
    · next e => exact absurd e hquar
    · cases agreed h <;> rfl
  rw [hanswer]
  cases agreed h <;> simp only [Option.elim, apply_ite Host.Outcome.next]

/-- A hello completes a retrain that has nothing to replay (12 R389). -/
theorem exec_hello_of_retrain (hret : (s.link link).retrainAt ≠ none) (hrep : (s.link link).replay = []) (hqueue : (s.link link).queue = []) :
    exec (.hello link h) s = .next (s.linkTo link (s.link link).retrained .up) := by
  obtain ⟨t, ht⟩ := Option.ne_none_iff_exists'.1 hret
  have hheard : ¬(decide (link ≥ 24) || !s.linkOn link) = true := by simp [hlink, hon]
  have hy := s.link_linkTo link (s.link link).retrained .up
  have hnothing : ((s.linkTo link (s.link link).retrained .up).link link).replay = [] := by
    rw [hy]
    exact hrep
  have hempty : ((s.linkTo link (s.link link).retrained .up).link link).queue = [] := by
    rw [hy]
    exact hqueue
  unfold exec execHello
  dsimp only
  rw [if_neg hheard, ht]
  split
  · next e => exact absurd e hup
  · next e => exact absurd e hquar
  · unfold LinkSt.retrained at hnothing hempty ⊢
    dsimp only
    rw [hnothing]
    exact congrArg _ (State.pump_of_empty_queue hempty)

end

/-! ## Replay (12 R384) -/

theorem seqDist_self (a : Nat) : seqDist a a = 0 := by
  unfold seqDist
  omega

/-- Flits sent again leave in their order; beside the wire only the credits owed change. -/
theorem LinkSt.foldl_send : ∀ (fs : List (Nat × TxFlit)) (x : LinkSt),
    ∃ w o, fs.foldl (fun y f => y.send f.1 f.2) x = { x with wire := w, owed := o } ∧ w.length = x.wire.length + fs.length
  | [], x => ⟨x.wire, x.owed, rfl, rfl⟩
  | f :: fs, x => by
    obtain ⟨w, o, hfold, hlen⟩ := LinkSt.foldl_send fs (x.send f.1 f.2)
    refine ⟨w, o, hfold, ?_⟩
    rw [hlen]
    simp only [LinkSt.send, List.length_append, List.length_cons, List.length_nil]
    omega

section
variable {link : Nat} {s : State}

theorem exec_replayTimeout_of_not_due (h : (s.link link).replay = [] ∨ s.time.lctr < (s.link link).lastAck + 1000) : exec (.replayTimeout link) s = .next s := by
  refine if_neg ?_
  rcases h with h | h <;> simp [h]

variable (hlink : link < 24) (hup : (s.link link).st = .up) (hdue : s.time.lctr ≥ (s.link link).lastAck + 1000)
  {f : Nat × TxFlit} {rest : List (Nat × TxFlit)} (hrep : (s.link link).replay = f :: rest)

include hlink hup hdue hrep in
theorem exec_replayTimeout_of_due : exec (.replayTimeout link) s = .next (s.replayFrom link f.1) := by
  refine (if_pos ?_).trans ?_
  · simp [hlink, hup, hdue, hrep]
  · rw [hrep]
    rfl

include hrep in
/-- All flits that are kept are replayed from the first of them. -/
theorem State.replayFrom_first : s.replayFrom link f.1 =
    if (s.link link).tries ≥ 3 then s.retrain link (s.link link).laneMask
    else ((s.setLink link ((f :: rest).foldl (fun y f => y.send f.1 f.2) { s.link link with tries := (s.link link).tries + 1, lastAck := s.time.lctr })).bump
      (pLink link + 0x060) 1).bump (pLink link + 0x040) (f :: rest).length := by
  unfold State.replayFrom
  simp only [hrep, seqDist_self, List.drop_zero]
  exact if_neg (by simp)

end

/-! ## Retraining (12 R389, R391) -/

/-- A link that retrains for some lanes. -/
def LinkSt.retraining (x : LinkSt) (lanes now : Nat) (rs : List Nat) : LinkSt :=
  { x with retrains := rs, tries := 0, nextLanes := lanes, retrainAt := some now, asked := false }

/-- Without a flap threshold no retrain quarantines. -/
theorem State.retrain_of_no_threshold {s : State} (l lanes : Nat) (h : fld (s.reg32 (pFab + 0x10C)) 7 0 = 0) :
    ∃ rs, s.retrain l lanes = ((s.setLink l { s.link l with retrains := rs, tries := 0, nextLanes := lanes }).bump (pLink l + 0x068) 1).linkTo l
      ((s.link l).retraining lanes s.time.lctr rs) .training := by
  refine ⟨((s.link l).retrains.filter fun t => decide (s.time.lctr - t ≤ s.reg32 (pFab + 0x110) * 2 ^ 10)) ++ [s.time.lctr], ?_⟩
  unfold State.retrain
  rw [h]
  simp only [bne_self_eq_false, Bool.false_and, Bool.false_eq_true, if_false, (bump_reports _ _ _).link, State.link_setLink_same]
  rfl

/-! ## Lanes (12 R388) -/

section
variable {link lane : Nat} {s : State} (hlink : link < 24) (hlane : lane < 4) (hup : (s.link link).st = .up) (huse : bitOf (s.link link).laneMask lane = true)

/-- The failure of a lane is counted and reported, and the link will try its full width again. -/
def State.laneFailed (s : State) (link lane : Nat) : State :=
  let t := (s.bump (pLink link + 0x070) 1).raise (pLink link) 2
  t.setLink link { s.link link with syms := tdel (s.link link).syms lane, widenAt := t.time.lctr + fld (t.reg32 (pFab + 0x114)) 7 0 * 2 ^ 20 * 2 ^ (s.link link).shift }

include hlink hlane hup huse

theorem exec_laneFail_of_lane_in_use :
    exec (.laneFail link lane) s = .next
      (if narrower (s.link link).laneMask lane == 0 || popCount 4 (narrower (s.link link).laneMask lane) < s.minLanes link then s.linkLost link .down
        else (s.laneFailed link lane).retrain link (narrower (s.link link).laneMask lane)) := by
  refine (if_neg ?_).trans (apply_ite Host.Outcome.next _ _ _).symm
  simp [hlink, hup, huse, Nat.le_of_lt_succ hlane]

end

theorem State.reg32_laneFailed {s : State} {link lane o : Nat} (h : o < 0x310000) : (s.laneFailed link lane).reg32 o = s.reg32 o :=
  State.reg32_raiseAt_ne (s.bump (pLink link + 0x070) 1) noAttr (ne_pLink_add h _ _) (ne_pLink_add h _ _) (ne_pLink_add h _ _)

theorem State.counter_laneFailed {s : State} {link lane : Nat} (hlink : link < 24) :
    (s.laneFailed link lane).counter (pLink link + 0x070) = (s.counter (pLink link + 0x070) + 1) % 2 ^ 64 :=
  (State.counter_raiseAt _ _ _ _ (pLink_add_notMem_reportCounters hlink (by decide))).trans (State.counter_bump_same _ _ _)

theorem State.link_laneFailed (s : State) (link lane : Nat) : ∃ w, (s.laneFailed link lane).link link = { s.link link with syms := tdel (s.link link).syms lane, widenAt := w } :=
  ⟨_, State.link_setLink_same _ _ _⟩

/-! ## Times (12 R389, R391) -/

section
variable {link : Nat} {s : State}

theorem exec_retrainTimeout_of_early {at' : Nat} (hret : (s.link link).retrainAt = some at') (h : s.time.lctr < at' + 4000) : exec (.retrainTimeout link) s = .next s := by
  simp [exec, execRetrainTimeout, hret, h]

theorem exec_retrainTimeout_of_late {at' : Nat} (hlink : link < 24) (hst : (s.link link).st = .training) (hret : (s.link link).retrainAt = some at')
    (h : s.time.lctr ≥ at' + 4000) : exec (.retrainTimeout link) s = .next ((s.raise (pLink link) 3).linkLost link .down) := by
  simp [exec, execRetrainTimeout, hlink, hst, hret, h]

theorem exec_quarantineRetry_of_early {ok : Bool} (hst : (s.link link).st = .quarantined) (h : s.time.lctr < (s.link link).quarEnd) :
    exec (.quarantineRetry link ok) s = .next s := by
  simp [exec, execQuarantineRetry, hst, h]

/-- A quarantined link trains again, or stays down, at the end of its back-off. -/
theorem exec_quarantineRetry_of_end {ok : Bool} (hlink : link < 24) (hst : (s.link link).st = .quarantined) (h : s.time.lctr ≥ (s.link link).quarEnd) :
    exec (.quarantineRetry link ok) s = .next
      (if ok then (s.bump (pLink link + 0x068) 1).linkTo link { s.link link with quarEnd := 0, retrains := [s.time.lctr] } .training
        else ((s.bump (pLink link + 0x068) 1).raise (pLink link) 3).linkTo link { s.link link with quarEnd := 0 } .down) := by
  cases ok <;> simp [exec, execQuarantineRetry, hst, hlink, Nat.not_lt.2 h, (bump_reports _ _ _).link]

theorem exec_flapWindowEnd_of_quiet (hlink : link < 24) (hup : (s.link link).st = .up) (hquar : (s.link link).quarAt ≠ 0)
    (h : s.time.lctr ≥ max (maxList (s.link link).retrains) (s.link link).quarAt + s.reg32 (pFab + 0x110) * 2 ^ 10) :
    exec (.flapWindowEnd link) s = .next (s.setLink link { s.link link with shift := 0, quarAt := 0 }) :=
  if_pos (by simp only [hlink, hup, hquar, h, decide_true, bne_iff_ne, ne_eq, not_false_eq_true, Bool.and_true, beq_self_eq_true, Bool.true_and])

theorem exec_flapWindowEnd_of_early (h : s.time.lctr < max (maxList (s.link link).retrains) (s.link link).quarAt + s.reg32 (pFab + 0x110) * 2 ^ 10) :
    exec (.flapWindowEnd link) s = .next s :=
  if_neg (by simp only [Nat.not_le.2 h, decide_false, Bool.and_false, Bool.false_eq_true, not_false_eq_true])

end

/-- Settles O35: every change of a link's state passes through `linkTo`, which beyond the link only reports; a retrain keeps the sequence numbers and the replay buffer, and only a hello that agrees or completes one brings the link up. -/
theorem linksTrainRetrainAndBackOff : Obligations.LinksTrainRetrainAndBackOff := by
  unfold Obligations.LinksTrainRetrainAndBackOff
  intro link s hlink x
  refine ⟨fun h hon hup hquar => ⟨fun hret hkind hnode => ?conflict, fun hret hkind => ?unknown, State.link_stayDown_of_training, State.stayDown_of_not_training,
      fun hret hkind hself hpeer hother => ?version, fun hret hrep hqueue => ?retrained⟩,
    exec_replayTimeout_of_not_due, fun hup hrep hdue htries => ?thirdReplay, fun hup hrep hdue htries => ?replay,
    fun lane hlane hup huse => ⟨fun hfew hsent => ?laneDown, fun hsome henough hthr => ?laneNarrow⟩,
    fun at' hret hst => ⟨exec_retrainTimeout_of_early hret, fun hlate hsent => ?retrainLate⟩,
    fun ok hst => ⟨exec_quarantineRetry_of_early hst, fun hend => ?quarantineEnd⟩,
    exec_flapWindowEnd_of_quiet hlink, exec_flapWindowEnd_of_early⟩
  case conflict =>
    rw [exec_hello_of_no_retrain hlink hon hup hquar hret, if_neg (Nat.not_lt.2 hkind), if_pos (by simpa [or_assoc] using hnode)]
  case unknown => rw [exec_hello_of_no_retrain hlink hon hup hquar hret, if_pos hkind]
  case version =>
    have hexec : exec (.hello link h) s = .next ((agreed h).elim ((s.stayDown link).raise pFab 1) (s.linkUp link h)) := by
      rw [exec_hello_of_no_retrain hlink hon hup hquar hret, if_neg (Nat.not_lt.2 hkind), if_neg (by simp [hself, hpeer, hother])]
    refine ⟨fun hnone => by rw [hexec, hnone, Option.elim_none], fun v hv => ?_⟩
    obtain ⟨hlo, hhi, hver⟩ := agreed_spec hv
    obtain ⟨y, hfresh, r, a, b, routes, ht⟩ := s.linkUp_fresh link h v
    have hy : (s.linkUp link h v).link link = y := by
      rw [ht]
      exact State.link_setLink_same s link y
    refine ⟨hlo, hhi, hver, s.linkUp link h v, by rw [hexec, hv, Option.elim_some], ?_⟩
    rw [hy]
    exact ⟨hfresh.st, hfresh.ver, hfresh.peer, hfresh.seqTx, hfresh.rxNext, hfresh.replay, hfresh.queue, hfresh.credits, by rw [ht]; rfl, by rw [ht]; rfl⟩
  case retrained =>
    refine ⟨_, exec_hello_of_retrain hlink hon hup hquar hret hrep hqueue, ?_⟩
    rw [State.link_linkTo, State.cmds_linkTo]
    exact ⟨rfl, rfl, rfl, rfl, rfl, rfl, rfl⟩
  case thirdReplay =>
    obtain ⟨f, rest, hf⟩ := List.exists_cons_of_ne_nil hrep
    rw [exec_replayTimeout_of_due hlink hup hdue hf, State.replayFrom_first hf, if_pos htries]
  case replay =>
    obtain ⟨f, rest, hf⟩ := List.exists_cons_of_ne_nil hrep
    obtain ⟨w, o, hfold, hlen⟩ := LinkSt.foldl_send (f :: rest) { x with tries := x.tries + 1, lastAck := s.time.lctr }
    refine ⟨_, (exec_replayTimeout_of_due hlink hup hdue hf).trans (congrArg _ ((State.replayFrom_first hf).trans (if_neg (Nat.not_le.2 htries)))), ?_⟩
    rw [(bump_reports _ _ _).link, (bump_reports _ _ _).link, State.link_setLink_same, hfold, State.counter_bump_ne _ _ _ _ (by omega), State.counter_bump_same]
    exact ⟨rfl, rfl, by rw [show x.replay = f :: rest from hf]; exact hlen, rfl⟩
  case laneDown =>
    refine ⟨_, (exec_laneFail_of_lane_in_use hlink hlane hup huse).trans (congrArg _ (if_pos (Bool.or_eq_true_iff.2 (.inr (decide_eq_true hfew))))), ?_⟩
    rw [State.linkLost_of_all_sent .down hsent, State.link_linkTo, State.cmds_linkTo]
    exact ⟨rfl, rfl, rfl⟩
  case laneNarrow =>
    have hthr' : fld ((s.laneFailed link lane).reg32 (pFab + 0x10C)) 7 0 = 0 := by rw [State.reg32_laneFailed (by decide), hthr]
    obtain ⟨rs, hretrain⟩ := State.retrain_of_no_threshold link (narrower x.laneMask lane) hthr'
    obtain ⟨w, hfailed⟩ := s.link_laneFailed link lane
    refine ⟨_, (exec_laneFail_of_lane_in_use hlink hlane hup huse).trans (congrArg _ ((if_neg ?_).trans hretrain)), ?_⟩
    · simp only [Bool.or_eq_true, beq_iff_eq, decide_eq_true_eq, not_or, Nat.not_lt]
      exact ⟨hsome, henough⟩
    · rw [State.link_linkTo, hfailed, State.counter_linkTo _ _ _ _ (pLink_add_notMem_reportCounters hlink (by decide)), State.counter_bump_ne _ _ _ _ (by omega),
        State.counter_setLink, State.counter_laneFailed hlink]
      exact ⟨rfl, rfl, rfl, rfl, rfl⟩
  case retrainLate =>
    have hrep := (raise_reports s (pLink link) 3).link link
    refine ⟨_, exec_retrainTimeout_of_late hlink hst hret hlate, ?_⟩
    rw [State.linkLost_of_all_sent .down (by rw [hrep]; exact hsent), State.link_linkTo]
    exact ⟨rfl, rfl⟩
  case quarantineEnd =>
    refine ⟨_, exec_quarantineRetry_of_end hlink hst hend, ?_⟩
    cases ok
    · simp only [Bool.false_eq_true, if_false, State.link_linkTo, State.cmds_linkTo]
      exact ⟨rfl, rfl, (raise_reports _ _ _).cmds⟩
    · simp only [if_true, State.link_linkTo, State.cmds_linkTo]
      exact ⟨rfl, rfl, rfl⟩

end Sys2Proof.Machine
end

section
/-! SUPPORT. The requester: answers, refusals, re-sends and time-outs of pool requests, and kept pairs (spec 12 R396, R397, R404; log entries 82 and 169). -/

namespace Sys2Proof.Machine

/-! ## Answers (12 R404) -/

section
variable {s r : State} {m : Msg} {q : Req}

theorem exec_poolData_of_answer {d : List Byte} (hrec : s.receive m = (r, true)) (hty : m.ty = 0x02) (hbody : m.body = .bytes d) (hans : r.answered m 0x01 = some q) :
    exec (.poolData m) s = .next (((((r.dropReq q.txn).chargeFree q.part 10 (ceilDiv d.length 64)).bumps [(pGcu + 0x088, d.length)]).deliver q.cmd q.key (slice d 0 q.len)).poolNext) := by
  simp only [exec, execPoolData, State.onMsg_of_receive hrec hty, hans, hbody]

theorem exec_poolData_of_no_request (hrec : s.receive m = (r, true)) (hty : m.ty = 0x02) (hans : r.answered m 0x01 = none) : exec (.poolData m) s = .next r := by
  simp only [exec, execPoolData, State.onMsg_of_receive hrec hty, hans]

theorem exec_poolAck_of_receive (hrec : s.receive m = (r, true)) (hty : m.ty = 0x04) :
    exec (.poolAck m) s = .next ((r.answered m 0x03).elim r fun q => ((r.dropReq q.txn).deliver q.cmd q.key []).poolNext) := by
  rw [exec, execPoolAck, State.onMsg_of_receive hrec hty]
  cases r.answered m 0x03 <;> rfl

/-! ## Refusals (12 R397) -/

/-- A request that was refused as busy: sent again after a wait that doubles each time, up to a number of times. -/
def State.refusedBusy (r u : State) (q : Req) : State :=
  if q.refusals + 1 > fld (r.reg32 (pFab + 0x100)) 19 16 then u.unreachable q.msg
  else u.setReq { q with refusals := q.refusals + 1, waitTo := some (r.time.lctr + 100 * fld (r.reg32 (pFab + 0x100)) 15 0 * 2 ^ q.refusals) }

theorem exec_refuse_of_request (hrec : s.receive m = (r, true)) (hty : m.ty = 0x05) (hreq : r.req m.txn = some q) :
    exec (.refuse m) s = .next
      (if m.arg == 1 then r.refusedBusy (r.bump (pFab + 0x080) 1) q
        else if m.arg == 2 && poolTypes q.msg then (r.bump (pFab + 0x080) 1).losePool q
        else (r.bump (pFab + 0x080) 1).unreachable q.msg) := by
  have hreq' : (r.bump (pFab + 0x080) 1).req m.txn = some q := hreq
  simp only [exec, execRefuse, State.onMsg_of_receive hrec hty, hreq']
  rfl

theorem exec_refuse_of_no_request (hrec : s.receive m = (r, true)) (hty : m.ty = 0x05) (hreq : r.req m.txn = none)
    (hlog : ∀ x ∈ r.fab.sent, x.txn = m.txn → x.ty ≠ 0x37) : exec (.refuse m) s = .next (r.bump (pFab + 0x080) 1) := by
  have hreq' : (r.bump (pFab + 0x080) 1).req m.txn = none := hreq
  have hsent : (r.bump (pFab + 0x080) 1).fab.sent.find? (fun x => x.txn == m.txn && x.ty == 0x37) = none := by
    exact List.find?_eq_none.2 fun x hx => by simpa using hlog x hx
  simp only [exec, execRefuse, State.onMsg_of_receive hrec hty, hreq', hsent]

/-! ## Re-sends and time-outs (12 R397, R404) -/

variable {txn : Nat}

theorem exec_refuseResend_of_no_request (hreq : s.req txn = none) : exec (.refuseResend txn) s = .next s := by
  simp only [exec, execRefuseResend, hreq]

theorem exec_poolTimeout_of_no_request (hreq : s.req txn = none) : exec (.poolTimeout txn) s = .next s := by
  simp only [exec, execPoolTimeout, hreq]

variable (hreq : s.req txn = some q)
include hreq

theorem exec_refuseResend_of_not_refused (hwait : q.waitTo = none) : exec (.refuseResend txn) s = .next s := by
  simp only [exec, execRefuseResend, hreq, hwait]

theorem exec_refuseResend_of_refused {w : Nat} (hwait : q.waitTo = some w) :
    exec (.refuseResend txn) s =
      if s.time.lctr < w then .next s
      else
        let y := s.renew { q with waitTo := none, at' := s.time.lctr }
        let x := y.2.trySend y.1.msg y.1.low
        .next (if x.2 then x.1 else y.2.unreachable y.1.msg) := by
  simp only [exec, execRefuseResend, hreq, hwait]

/-- The link on which the request left last, or none. -/
def State.leftBy (s : State) (txn : Nat) (q : Req) : Nat := (s.fab.sent.reverse.find? fun x => x.txn == txn && x.ty == q.msg.ty).elim 31 (·.link)

/-- A pool request whose answer is awaited, and which TMO has passed by. -/
def State.overdue (s : State) (q : Req) : Bool :=
  poolTypes q.msg && q.waitTo.isNone && decide (q.at' + fld (s.reg32 (pFab + 0x118)) 31 16 * 2 ^ 14 ≤ s.time.lctr)

theorem exec_poolTimeout_of_request :
    exec (.poolTimeout txn) s =
      .next (if s.overdue q then
          if !q.resent && s.otherRoute q.msg q.low (s.leftBy txn q) then (s.trySendNot q.msg q.low (s.leftBy txn q)).1.setReq { q with resent := true, at' := s.time.lctr }
          else (s.raise pFab 3).losePool q
        else s) := by
  have hover : (!poolTypes q.msg || q.waitTo.isSome || decide (s.time.lctr < q.at' + fld (s.reg32 (pFab + 0x118)) 31 16 * 2 ^ 14)) = !s.overdue q := by
    rw [State.overdue, Bool.not_and, Bool.not_and, Option.not_isNone, ← decide_not]
    simp only [Nat.not_le]
  simp only [exec, execPoolTimeout, hreq, hover]
  cases s.overdue q with
  | false => rfl
  | true => exact (apply_ite Host.Outcome.next _ _ _).symm

end

/-- Settles O38: each answer finds its request by transaction number and does for its command what the kind of answer asks. -/
theorem poolAnswersReachTheirCommand : Obligations.PoolAnswersReachTheirCommand := by
  unfold Obligations.PoolAnswersReachTheirCommand
  refine ⟨fun m s r hrec => ⟨fun hty => ?data, fun hty => ?ack, fun hty => ?refusal⟩,
    fun txn s hreq => ⟨exec_refuseResend_of_no_request hreq, exec_poolTimeout_of_no_request hreq⟩, fun txn s q hreq => ⟨?early, fun w hwait hdue => ?resend, ?timeout⟩,
    fun src txn s => ⟨_, rfl, rfl, fun d => ?pair⟩⟩
  case data => exact ⟨fun q d hbody hans => exec_poolData_of_answer hrec hty hbody hans, exec_poolData_of_no_request hrec hty⟩
  case ack =>
    rw [exec_poolAck_of_receive hrec hty]
    exact ⟨fun q hans => by rw [hans, Option.elim_some], fun hans => by rw [hans, Option.elim_none]⟩
  case refusal =>
    intro u most
    refine ⟨fun q hreq => ?_, exec_refuse_of_no_request hrec hty⟩
    rw [exec_refuse_of_request hrec hty hreq]
    refine ⟨fun harg hmost => ?_, fun harg hmost => ?_, fun harg hpool => ?_, fun harg hother => ?_⟩
    · rw [if_pos (beq_iff_eq.2 harg), State.refusedBusy, if_neg (Nat.not_lt.2 hmost)]
    · rw [if_pos (beq_iff_eq.2 harg), State.refusedBusy, if_pos hmost]
    · rw [harg, hpool]
      rfl
    · rw [if_neg (by simpa using harg), if_neg (by simpa [imp_iff_not_or] using hother)]
  case early =>
    rintro (hwait | ⟨w, hwait, hearly⟩)
    · exact exec_refuseResend_of_not_refused hreq hwait
    · exact (exec_refuseResend_of_refused hreq hwait).trans (if_pos hearly)
  case resend => exact (exec_refuseResend_of_refused hreq hwait).trans (if_neg (Nat.not_lt.2 hdue))
  case timeout =>
    intro tmo was
    rw [exec_poolTimeout_of_request hreq]
    have hover : poolTypes q.msg = true → q.waitTo = none → s.time.lctr ≥ q.at' + tmo → s.overdue q = true := by
      intro hpool hwait hdue
      rw [State.overdue, hpool, hwait]
      exact decide_eq_true hdue
    refine ⟨fun h => ?_, fun hpool hwait hdue hfirst hroute => ?_, fun hpool hwait hdue hlast => ?_⟩
    · have hnot : s.overdue q = false := by
        rcases h with h | h | h
        · simp [State.overdue, h]
        · simp [State.overdue, h]
        · exact Bool.and_eq_false_imp.2 fun _ => decide_eq_false (Nat.not_le.2 h)
      rw [hnot]
      rfl
    · have hagain : (!q.resent && s.otherRoute q.msg q.low (s.leftBy txn q)) = true := by rw [hfirst]; exact hroute
      rw [if_pos (hover hpool hwait hdue), if_pos hagain]
      rfl
    · have hnone : (!q.resent && s.otherRoute q.msg q.low (s.leftBy txn q)) = false := by
        rcases hlast with h | h
        · rw [h]
          rfl
        · exact Bool.and_eq_false_imp.2 fun _ => h
      rw [if_pos (hover hpool hwait hdue), hnone]
      rfl
  case pair =>
    show d ∈ s.fab.dup.filter _ ↔ _
    simp only [List.mem_filter, Bool.not_eq_true', Bool.and_eq_false_iff, beq_eq_false_iff_ne, decide_eq_false_iff_not, not_and_or, or_assoc]

end Sys2Proof.Machine
end

section
/-! SUPPORT. What telling other nodes leaves alone: the state but for links, messages and transaction numbers, and every counter above the pages of the links (spec 12 R398, R399, 13 R410). -/

namespace Sys2Proof.Machine

/-! ## The counters above the links' pages -/

/-- A first hop is one of the 24 links (12 R399). -/
theorem State.firstHop_lt {s : State} {m : Msg} {low relayed : Bool} {avoid l : Nat} (h : s.firstHop m low relayed avoid = some l) : l < 24 := by
  unfold State.firstHop at h
  extract_lets vc cands r direct l' other at h
  have hcands : cands ⊆ List.range 24 := List.filter_subset_self _
  have hdirect : direct ⊆ List.range 24 := by
    unfold direct
    split
    · exact List.Subset.trans (List.filter_subset_self _) hcands
    · exact List.nil_subset _
  have hl : l' ⊆ List.range 24 := by
    unfold l'
    split
    · exact List.Subset.trans (List.filter_subset_self _) hcands
    · exact hdirect
  have hchoice : (if other.isEmpty then l' else other) ⊆ List.range 24 := by
    split
    · exact hl
    · exact List.Subset.trans (List.filter_subset_self _) hl
  split at h
  · cases h
  · rename_i a rest heq
    obtain ⟨ha, hrest⟩ := List.forall_mem_cons.1 (heq ▸ hchoice)
    obtain rfl := Option.some.inj h
    refine List.foldlRecOn (motive := (· < 24)) rest _ (List.mem_range.1 ha) fun b hb x hx => ?_
    split
    · exact List.mem_range.1 (hrest x hx)
    · exact hb

/-- The page after the last link's is that of the collectives. -/
theorem ne_pLink_add_of_above {i l k : Nat} (hi : pCol ≤ i) (hl : l < 24) (hk : k < 0x1000) : i ≠ pLink l + k := by
  unfold pLink
  unfold pCol at hi
  omega

theorem State.counter_putMsg_of_above {i : Nat} (s : State) (m : Msg) (hi : pCol ≤ i) (hrep : i ∉ reportCounters) : (s.putMsg m).counter i = s.counter i := by
  have hfab : ∀ k < 0x1000, i ≠ pFab + k := by
    intro k hk
    unfold pCol at hi
    unfold pFab
    omega
  have hsend : (s.trySend m false).1.counter i = s.counter i := by
    unfold State.trySend State.trySendNot
    split
    · rfl
    · dsimp only
      split
      · rfl
      · rename_i l hop
        have hlink : ∀ k < 0x1000, i ≠ pLink l + k := fun k => ne_pLink_add_of_above hi (State.firstHop_lt hop)
        have henq : ∀ fs, (s.enqueue l fs).counter i = s.counter i := fun fs => State.counter_enqueue s fs (hlink _ (by decide)) (hlink _ (by decide))
        split
        · exact henq _
        · rw [State.counter_bump_ne _ _ _ _ (hfab _ (by decide)), State.counter_withFab]
          exact henq _
  unfold State.putMsg
  dsimp only
  split
  · exact hsend
  · rw [State.noRoute, State.raise, State.counter_raiseAt _ _ _ _ hrep, State.counter_bump_ne _ _ _ _ (hfab _ (by decide))]

/-! ## Telling -/

/-- From `s` to `t` only messages were sent, transaction numbers used and occurrences reported; of the counters above the links' pages only those of reports count. -/
structure Tells (s t : State) : Prop where
  frame : ∃ r a b l x n, t = { s with reg := r, pa := a, pb := b, fab := { s.fab with links := l, sent := x }, nextTxn := n }
  counter : ∀ i, pCol ≤ i → i ∉ reportCounters → t.counter i = s.counter i

theorem Tells.of_sends {s t : State} (h : Sends s t) (hcounter : ∀ i, pCol ≤ i → i ∉ reportCounters → t.counter i = s.counter i) : Tells s t := by
  obtain ⟨r, a, b, l, x, rfl⟩ := h
  exact ⟨⟨r, a, b, l, x, s.nextTxn, rfl⟩, hcounter⟩

theorem Tells.refl (s : State) : Tells s s := .of_sends (.refl s) fun _ _ _ => rfl

theorem Tells.trans {s t u : State} (h : Tells s t) (k : Tells t u) : Tells s u := by
  refine ⟨?_, fun i hi hrep => (k.counter i hi hrep).trans (h.counter i hi hrep)⟩
  obtain ⟨⟨r, a, b, l, x, n, rfl⟩, -⟩ := h
  obtain ⟨⟨r', a', b', l', x', n', rfl⟩, -⟩ := k
  exact ⟨r', a', b', l', x', n', rfl⟩

theorem Tells.foldl {α : Type} {f : State → α → State} (h : ∀ s x, Tells s (f s x)) : ∀ (l : List α) (s : State), Tells s (l.foldl f s)
  | [], s => .refl s
  | x :: l, s => (h s x).trans (Tells.foldl h l (f s x))

theorem Tells.ite {s t u : State} {c : Prop} [Decidable c] (h : Tells s t) (k : Tells s u) : Tells s (if c then t else u) := by
  split
  · exact h
  · exact k

section
variable {s t : State} (h : Tells s t)
include h

theorem Tells.cmds : t.cmds = s.cmds := by
  obtain ⟨⟨r, a, b, l, x, n, rfl⟩, -⟩ := h
  rfl

theorem Tells.cmp : t.cmp = s.cmp := by
  obtain ⟨⟨r, a, b, l, x, n, rfl⟩, -⟩ := h
  rfl

theorem Tells.cur : t.cmp.cur = s.cmp.cur := by
  rw [h.cmp]

theorem Tells.shards : t.shards = s.shards := by
  obtain ⟨⟨r, a, b, l, x, n, rfl⟩, -⟩ := h
  rfl

theorem Tells.hbm : t.hbm = s.hbm := by
  obtain ⟨⟨r, a, b, l, x, n, rfl⟩, -⟩ := h
  rfl

theorem Tells.col : t.col = s.col := by
  obtain ⟨⟨r, a, b, l, x, n, rfl⟩, -⟩ := h
  rfl

theorem Tells.pwr : t.pwr = s.pwr := by
  obtain ⟨⟨r, a, b, l, x, n, rfl⟩, -⟩ := h
  rfl

theorem Tells.waitEpoch : t.fab.waitEpoch = s.fab.waitEpoch := by
  obtain ⟨⟨r, a, b, l, x, n, rfl⟩, -⟩ := h
  rfl

end

theorem putMsg_tells (s : State) (m : Msg) : Tells s (s.putMsg m) :=
  .of_sends (putMsg_sends s m) fun _ hi hrep => s.counter_putMsg_of_above m hi hrep

theorem raise_tells (s : State) (base bit : Nat) : Tells s (s.raise base bit) :=
  .of_sends (.of_reports (raise_reports s base bit)) fun _ _ hrep => State.counter_raiseAt s base bit noAttr hrep

theorem logEvent_tells (s : State) (base code sev : Nat) (a : Attr) (d0 d1 : Nat) : Tells s (s.logEvent base code sev a d0 d1) :=
  .of_sends (.of_reports (logEvent_reports s base code sev a d0 d1)) fun _ _ hrep => State.counter_logEvent s base code sev a d0 d1 hrep

/-- A message under a transaction number of its own. -/
theorem newTxn_putMsg_tells (s : State) (m : Msg) : Tells s (s.newTxn.2.putMsg m) :=
  Tells.trans ⟨⟨s.reg, s.pa, s.pb, s.fab.links, s.fab.sent, s.nextTxn + 1, rfl⟩, fun _ _ _ => rfl⟩ (putMsg_tells s.newTxn.2 m)

theorem tellAll_tells (s : State) (l : List Nat) (ty : Nat) (body : Body) : Tells s (s.tellAll l ty body) :=
  .foldl (fun s _ => newTxn_putMsg_tells s _) _ s

end Sys2Proof.Machine
end

section
/-! SUPPORT. A change of composition in two phases: what loading, preparing, activation, abort and retirement do to the maps, at the members and at the coordinator (spec 13 R407 to R414). -/

namespace Sys2Proof.Machine

/-! ## Messages that wait for an epoch (13 R412) -/

section
variable {s : State} (hwait : s.fab.waitEpoch = [])
include hwait

theorem State.wakeEpoch_of_none_wait : s.wakeEpoch = s := by
  unfold State.wakeEpoch
  rw [hwait]
  show ({ s with fab := { s.fab with waitEpoch := [] } } : State) = s
  rw [← hwait]

theorem State.unprepare_of_none_wait : s.unprepare = { s with cmp := { s.cmp with prepared := false } } := by
  cases hprep : s.cmp.prepared
  · rw [State.unprepare, hprep, if_neg Bool.false_ne_true, ← hprep]
  · rw [State.unprepare, if_pos hprep]
    exact State.wakeEpoch_of_none_wait hwait

/-- What the coordinator keeps of a change is replaced. -/
def State.withChange (s : State) (c : Option Change) : State := { s with cmp := { s.cmp with change := c } }

/-- From `s` to `t` a change was given up: it is counted, its prepared epoch has dropped, the current map stands (13 R410 step 3). -/
structure GivesUp (s t : State) : Prop where
  change : t.cmp.change = none
  prepared : t.cmp.prepared = false
  cur : t.cmp.cur = s.cmp.cur
  counter : t.counter (pCmp + 0x048) = (s.counter (pCmp + 0x048) + 1) % 2 ^ 64
  cmds : t.cmds = s.cmds

theorem State.abortChange_of_change {g : Change} (hchange : s.cmp.change = some g) : GivesUp s s.abortChange := by
  have htells := tellAll_tells s g.members 0x35 (.comp g.epoch 0 0)
  have habort : s.abortChange = (((s.tellAll g.members 0x35 (.comp g.epoch 0 0)).bump (pCmp + 0x048) 1).withChange none).unprepare := by
    rw [State.abortChange, hchange]
    rfl
  have hwait' : (((s.tellAll g.members 0x35 (.comp g.epoch 0 0)).bump (pCmp + 0x048) 1).withChange none).fab.waitEpoch = [] := htells.waitEpoch.trans hwait
  rw [habort, State.unprepare_of_none_wait hwait']
  refine ⟨rfl, rfl, htells.cur, ?_, htells.cmds⟩
  rw [← htells.counter _ (by decide) (by decide)]
  exact State.counter_bump_same _ _ _

end

/-! ## A map is loaded (13 R407) -/

/-- The result of a load is shown, and an image that passes is held. -/
def State.mapLoaded (s : State) (image : Option (List Byte)) : State :=
  { s with cmp := { s.cmp with result := s.mapResult image, loaded := if s.mapResult image == 1 then image.getD [] else [],
                               dropped := if s.mapResult image == 1 then 0 else s.cmp.dropped } }

section
variable {s : State} {a : Agent} {image : Option (List Byte)}

theorem exec_mapLoad_of_not_taken (h : s.reaches a (pCmp + 0x114) = false ∨ s.cmp.prepared = true) : exec (.mapLoad a image) s = .next s :=
  if_pos (by simpa using h)

theorem exec_mapLoad_of_taken (hreach : s.reaches a (pCmp + 0x114) = true) (hprep : s.cmp.prepared = false) :
    exec (.mapLoad a image) s = .next (if s.mapResult image == 1 then s.mapLoaded image else (s.mapLoaded image).raise pCmp 0) :=
  if_neg (by simp [hreach, hprep])

/-- An image that was not read does not pass. -/
theorem State.eq_some_of_mapResult (h : s.mapResult image = 1) : image = some (image.getD []) := by
  cases image with
  | none => cases h
  | some m => rfl

end

/-! ## A member prepares (13 R410, R411) -/

/-- The loaded map is prepared. -/
def State.mapPrepared (s : State) : State := { s with cmp := { s.cmp with prepared := true, prepAt := s.time.lctr } }

theorem State.prepareSelf_of_refused {s : State} (h : s.mapRefused s.cmp.loaded = true) : s.prepareSelf = (s.raise pCmp 1, 2) := if_pos h

theorem State.prepareSelf_of_accepted {s : State} (h : s.mapRefused s.cmp.loaded = false) : s.prepareSelf = (s.mapPrepared, 0) := if_neg (Bool.eq_false_iff.1 h)

section
variable {s r : State} {m : Msg} {e crc x : Nat} (hrec : s.receive m = (r, true)) (hbody : m.body = .comp e crc x)
include hrec hbody

section
variable (hty : m.ty = 0x30)
include hty

theorem exec_compPrepare_of_not_ready
    (h : r.cmp.prepared = true ∨ r.cmp.draining ≠ [] ∨ r.cmp.loaded = [] ∨ mapEpoch r.cmp.loaded ≠ e ∨ le32 r.cmp.loaded 8 ≠ crc ∨ r.cmp.dropped = e) :
    exec (.compPrepare m) s = .next (r.putMsg (r.reply m 0x31 0 (.comp e 0 1))) := by
  simp only [exec, execCompPrepare, State.onMsg_of_receive hrec hty, hbody]
  split_ifs with hbusy hother
  · rfl
  · rfl
  · simp only [Bool.or_eq_true, Bool.not_eq_true', List.isEmpty_iff, List.isEmpty_eq_false_iff, bne_iff_ne, beq_iff_eq] at hbusy hother
    tauto

variable (hprep : r.cmp.prepared = false) (hdrain : r.cmp.draining = []) (hload : r.cmp.loaded ≠ []) (hepoch : mapEpoch r.cmp.loaded = e)
  (hcrc : le32 r.cmp.loaded 8 = crc) (hdrop : r.cmp.dropped ≠ e)
include hprep hdrain hload hepoch hcrc hdrop

theorem exec_compPrepare_of_ready : exec (.compPrepare m) s = .next (r.prepareSelf.1.putMsg (r.prepareSelf.1.reply m 0x31 0 (.comp e 0 r.prepareSelf.2))) := by
  simp [exec, execCompPrepare, State.onMsg_of_receive hrec hty, hbody, hprep, hdrain, hload, hepoch, hcrc, hdrop]

theorem exec_compPrepare_of_refused (href : r.mapRefused r.cmp.loaded = true) :
    exec (.compPrepare m) s = .next ((r.raise pCmp 1).putMsg ((r.raise pCmp 1).reply m 0x31 0 (.comp e 0 2))) := by
  rw [exec_compPrepare_of_ready hrec hbody hty hprep hdrain hload hepoch hcrc hdrop, State.prepareSelf_of_refused href]

theorem exec_compPrepare_of_accepted (hacc : r.mapRefused r.cmp.loaded = false) : ∃ t, exec (.compPrepare m) s = .next t ∧ Tells r.mapPrepared t := by
  refine ⟨_, exec_compPrepare_of_ready hrec hbody hty hprep hdrain hload hepoch hcrc hdrop, ?_⟩
  rw [State.prepareSelf_of_accepted hacc]
  exact putMsg_tells _ _

end

/-! ## The decision reaches a member (13 R410, R414) -/

section
variable (hty : m.ty = 0x32)
include hty

theorem exec_compActivate_of_not_prepared (h : r.cmp.prepared = false ∨ mapEpoch r.cmp.loaded ≠ e) : exec (.compActivate m) s = .next r := by
  have hnot : (!r.cmp.prepared || mapEpoch r.cmp.loaded != e) = true := by simpa using h
  simp only [exec, execCompActivate, State.onMsg_of_receive hrec hty, hbody, hnot, if_true]

theorem exec_compActivate_of_prepared (hprep : r.cmp.prepared = true) (hepoch : mapEpoch r.cmp.loaded = e) :
    ∃ t, exec (.compActivate m) s = .next t ∧ Tells r.activate t := by
  have hnot : (!r.cmp.prepared || mapEpoch r.cmp.loaded != e) = false := by simp [hprep, hepoch]
  simp only [exec, execCompActivate, State.onMsg_of_receive hrec hty, hbody, hnot, Bool.false_eq_true, if_false]
  have hactive := putMsg_tells r.activate (r.activate.reply m 0x33 0 (.comp e 0 0))
  exact ⟨_, rfl, .ite (hactive.trans (newTxn_putMsg_tells _ _)) hactive⟩

end

section
variable (hty : m.ty = 0x35)
include hty

theorem exec_compAbort_of_not_prepared (h : r.cmp.prepared = false ∨ mapEpoch r.cmp.loaded ≠ e) : exec (.compAbort m) s = .next r := by
  have hnot : (r.cmp.prepared && mapEpoch r.cmp.loaded == e) = false := by
    rw [Bool.and_eq_false_iff, beq_eq_false_iff_ne]
    exact h
  simp only [exec, execCompAbort, State.onMsg_of_receive hrec hty, hbody, hnot, Bool.false_eq_true, if_false]

theorem exec_compAbort_of_prepared (hprep : r.cmp.prepared = true) (hepoch : mapEpoch r.cmp.loaded = e) : exec (.compAbort m) s = .next r.unprepare := by
  simp only [exec, execCompAbort, State.onMsg_of_receive hrec hty, hbody, hprep, hepoch, BEq.rfl, Bool.and_self, if_true]

end

/-- A query about an undecided epoch is left open (log entry 74); another is answered by the epoch that is current. -/
theorem exec_compQuery_of_receive (hty : m.ty = 0x36) :
    exec (.compQuery m) s = .next (if r.cmp.change.elim false fun g => g.epoch == e && !g.activated then r
      else r.putMsg (r.reply m (if r.epoch == e then 0x32 else 0x35) 0 (.comp e 0 0))) := by
  simp only [exec, execCompQuery, State.onMsg_of_receive hrec hty, hbody]

end

/-! ## Activation swaps the maps (13 R410) -/

/-- The loaded map is current, the old one draining. -/
def State.mapsSwapped (s : State) : State :=
  { s with cmp := { s.cmp with cur := s.cmp.loaded, loaded := [], prepared := false, draining := s.cmp.cur, drainAt := s.time.lctr } }

theorem State.leavers_of_none_open {s : State} (hopen : s.col.open' = []) (hbars : s.col.bars = []) : s.leavers = s := by
  simp only [State.leavers, hopen, List.filter_nil, List.foldl_nil, hbars]

/-- The swap is counted, logged and measured, and the routes follow the new map. -/
def State.mapsTaken (s : State) : State :=
  let u := (s.mapsSwapped.bump (pCmp + 0x040) 1).logEvent pCmp 8 0 noAttr s.mapsSwapped.epoch 0
  State.buildRoutes { u with sec := { u.sec with meas := u.sec.meas.set 4 (Config.shake256 64 u.cmp.cur) } }

/-- The core dies that join a slice which `s` did not give them are scrubbed (10 R326). -/
def State.scrubJoined (u s : State) : State := u.scrubDies ((List.range 192).filter fun d => (List.range 16).any fun p => u.dieIn p d && !s.dieIn p d)

/-- The parts of an activation, in their order. -/
theorem State.activate_eq (s : State) :
    let u := (if s.mapsTaken.pwr.stage == some 4 then s.mapsTaken.enterStage 5 else s.mapsTaken).scrubJoined s
    s.activate = (u.shards.foldl (fun t x => t.handOver s.cmp.cur x) u).leavers.wakeEpoch := rfl

/-- Where nothing is bound, open or waiting, an activation swaps the maps and counts itself. -/
theorem State.activate_of_nothing_bound {s : State} (hstage : s.pwr.stage ≠ some 4) (hshards : s.shards = []) (hopen : s.col.open' = [])
    (hbars : s.col.bars = []) (hwait : s.fab.waitEpoch = []) :
    s.activate.cmp = s.mapsSwapped.cmp ∧ s.activate.cmds = s.cmds ∧ s.activate.counter (pCmp + 0x040) = (s.counter (pCmp + 0x040) + 1) % 2 ^ 64 := by
  have hlog := logEvent_tells (s.mapsSwapped.bump (pCmp + 0x040) 1) pCmp 8 0 noAttr s.mapsSwapped.epoch 0
  have hpwr : s.mapsTaken.pwr = s.pwr := hlog.pwr
  have hcol : (s.mapsTaken.scrubJoined s).col = s.col := hlog.col
  have hnone : (s.mapsTaken.scrubJoined s).shards = [] := hlog.shards.trans hshards
  have hno : ¬(s.mapsTaken.pwr.stage == some 4) = true := by rwa [hpwr, beq_iff_eq]
  have hactive : s.activate = s.mapsTaken.scrubJoined s := by
    rw [State.activate_eq, if_neg hno, hnone, List.foldl_nil, State.leavers_of_none_open (hcol ▸ hopen) (hcol ▸ hbars), State.wakeEpoch_of_none_wait]
    exact hlog.waitEpoch.trans hwait
  rw [hactive]
  exact ⟨hlog.cmp, hlog.cmds, (hlog.counter _ (by decide) (by decide)).trans (State.counter_bump_same _ _ _)⟩

/-! ## ABORT (13 R410; log entry 206) -/

/-- The epoch that is dropped is remembered (log entry 90). -/
def State.epochRemembered (s : State) : State := { s with cmp := { s.cmp with dropped := mapEpoch s.cmp.loaded } }

section
variable {s : State} {a : Agent} (hreach : s.reaches a (pCmp + 0x114) = true)
include hreach

theorem exec_abort_of_not_prepared (hprep : s.cmp.prepared = false) : exec (.abort a) s = .next s :=
  if_pos (by simp [hreach, hprep])

theorem exec_abort_of_prepared (hprep : s.cmp.prepared = true) :
    exec (.abort a) s = .next (if s.cmp.change.elim false fun g => !g.activated then s.epochRemembered.abortChange else s.epochRemembered.unprepare) :=
  if_neg (by simp [hreach, hprep])

theorem exec_abort_of_undecided (hprep : s.cmp.prepared = true) (h : ∃ g, s.cmp.change = some g ∧ g.activated = false) :
    exec (.abort a) s = .next s.epochRemembered.abortChange := by
  obtain ⟨g, hchange, hact⟩ := h
  simp only [exec_abort_of_prepared hreach hprep, hchange, Option.elim_some, hact, Bool.not_false, if_true]

theorem exec_abort_of_member (hprep : s.cmp.prepared = true) (h : ∀ g, s.cmp.change = some g → g.activated = true) :
    exec (.abort a) s = .next s.epochRemembered.unprepare := by
  have hno : (s.cmp.change.elim false fun g => !g.activated) = false := by
    cases hchange : s.cmp.change with
    | none => rfl
    | some g => rw [Option.elim_some, h g hchange, Bool.not_true]
  simp only [exec_abort_of_prepared hreach hprep, hno, Bool.false_eq_true, if_false]

/-! ## GO at the coordinator (13 R410, R414) -/

theorem exec_go_of_error (h : s.cmp.loaded = [] ∨ mapCoord s.cmp.loaded ≠ s.node ∨ s.cmp.prepared = true) : exec (.go a) s = .next (s.raise pCmp 8) := by
  have herr : (s.cmp.loaded.isEmpty || mapCoord s.cmp.loaded != s.node || !(s.pwr.stage.elim false fun n => decide (n ≥ 4)) || s.cmp.prepared) = true := by
    simp only [Bool.or_eq_true, List.isEmpty_iff, bne_iff_ne]
    tauto
  simp only [exec, execGo, hreach, herr, Bool.not_true, Bool.false_eq_true, if_false, if_true]

variable (hload : s.cmp.loaded ≠ []) (hcoord : mapCoord s.cmp.loaded = s.node) (hstage : s.pwr.stage = some 5) (hprep : s.cmp.prepared = false)
include hload hcoord hstage hprep

/-- While a change is under way another waits. -/
theorem exec_go_of_image : exec (.go a) s = .next (if s.changeWaits then { s with cmp := { s.cmp with pendingGo := true } } else s.beginChange) := by
  simp [exec, execGo, hreach, hload, hcoord, hstage, hprep, apply_ite Host.Outcome.next]

end

/-- The coordinator takes up a change. -/
def State.goTaken (s : State) : State := { s with cmp := { s.cmp with pendingGo := false } }

section
variable {s : State}

theorem State.changeWaits_of_draining (h : s.cmp.draining ≠ []) : s.changeWaits = true := by
  simp [State.changeWaits, h]

theorem State.changeWaits_of_none (hchange : s.cmp.change = none) (hdrain : s.cmp.draining = []) : s.changeWaits = false := by
  simp [State.changeWaits, hchange, hdrain]

/-- A coordinator that is its own only member and refuses the change counts it as given up. -/
theorem State.beginChange_of_alone_refused (halone : s.changeMembers = [s.node]) (href : s.mapRefused s.cmp.loaded = true) :
    s.beginChange.cmp = s.goTaken.cmp ∧ s.beginChange.cmds = s.cmds ∧
      s.beginChange.counter (pCmp + 0x048) = (s.counter (pCmp + 0x048) + 1) % 2 ^ 64 := by
  have hself : s.goTaken.prepareSelf = (s.goTaken.raise pCmp 1, 2) := State.prepareSelf_of_refused href
  have halone' : (s.changeMembers == [s.goTaken.node]) = true := beq_iff_eq.2 halone
  have htells := raise_tells s.goTaken pCmp 1
  have hbegin : s.beginChange = (s.goTaken.raise pCmp 1).bump (pCmp + 0x048) 1 := by
    unfold State.beginChange
    refine (if_pos halone').trans ?_
    rw [← State.goTaken, hself]
    rfl
  rw [hbegin, State.counter_bump_same, htells.counter _ (by decide) (by decide)]
  exact ⟨htells.cmp, htells.cmds, rfl⟩

/-! ## Answers of the members (13 R410) -/

theorem State.noteChange_of_change {g : Change} (hchange : s.cmp.change = some g) (f : Change → Change) : s.noteChange f = s.withChange (some (f g)) := by
  rw [State.noteChange, hchange]
  rfl

/-- Without a change there is nothing to note. -/
theorem State.noteChange_of_none (hchange : s.cmp.change = none) (f : Change → Change) : s.noteChange f = s := by
  rw [State.noteChange, hchange, Option.map_none, ← hchange]

section
variable {g : Change} (hchange : s.cmp.change = some g) (hact : g.activated = false)
include hchange hact

theorem State.decide'_of_refused {n r : Nat} (hr : (n, r) ∈ g.ready) (hbad : r ≠ 0) : s.decide' = s.abortChange := by
  have hany : (g.ready.any fun x => x.2 != 0) = true := List.any_eq_true.2 ⟨_, hr, bne_iff_ne.2 hbad⟩
  simp only [State.decide', hchange, hact, hany, Bool.false_eq_true, if_false, if_true]

theorem State.decide'_of_missing {n : Nat} (hgood : ∀ x ∈ g.ready, x.2 = 0) (hn : n ∈ g.members) (hmiss : ∀ x ∈ g.ready, x.1 ≠ n) : s.decide' = s := by
  have hany : (g.ready.any fun x => x.2 != 0) = false := by simpa using hgood
  have hall : (g.members.all fun n => g.ready.any fun x => x.1 == n) = false := by
    rw [List.all_eq_false]
    exact ⟨n, hn, Bool.eq_false_iff.1 (List.any_eq_false.2 fun x hx => by simpa using hmiss x hx)⟩
  simp only [State.decide', hchange, hact, hany, hall, Bool.false_eq_true, if_false]

end

/-- A member's answer takes the place of its earlier one. -/
def Change.answer (g : Change) (n r : Nat) : Change := { g with ready := (g.ready.filter fun x => x.1 != n) ++ [(n, r)] }

/-- A node is noted once. -/
def noteOnce (l : List Nat) (n : Nat) : List Nat := if l.contains n then l else l ++ [n]

theorem mem_noteOnce {l : List Nat} {n k : Nat} : k ∈ noteOnce l n ↔ k = n ∨ k ∈ l := by
  unfold noteOnce
  split
  · rename_i hin
    refine ⟨.inr, ?_⟩
    rintro (rfl | hk)
    · exact List.contains_iff_mem.1 hin
    · exact hk
  · rw [List.mem_append, List.mem_singleton, or_comm]

theorem Change.noteActive_eq (g : Change) (n : Nat) :
    (if g.active.contains n then g else { g with active := g.active ++ [n] }) = { g with active := noteOnce g.active n } := by
  unfold noteOnce
  split <;> rfl

theorem Change.noteRetired_eq (g : Change) (n : Nat) :
    (if g.retired.contains n then g else { g with retired := g.retired ++ [n] }) = { g with retired := noteOnce g.retired n } := by
  unfold noteOnce
  split <;> rfl

/-! ## The end of a change (13 R414) -/

theorem State.goPending_of_none (hgo : s.cmp.pendingGo = false) : s.goPending = s := by
  simp [State.goPending, hgo]

theorem State.changeOver_of_none (hchange : s.cmp.change = none) (hgo : s.cmp.pendingGo = false) : s.changeOver = s := by
  simp only [State.changeOver, hchange, State.goPending_of_none hgo]

section
variable {g : Change} (hchange : s.cmp.change = some g)
include hchange

theorem State.changeOver_of_not_retired {n : Nat} (hn : n ∈ g.members) (hmiss : n ∉ g.retired) : s.changeOver = s := by
  have hall : g.members.all g.retired.contains = false := by
    rw [List.all_eq_false]
    exact ⟨n, hn, by simpa using hmiss⟩
  simp only [State.changeOver, hchange, hall, Bool.and_false, Bool.false_eq_true, if_false]

theorem State.changeOver_of_all_retired (hact : g.activated = true) (hall : ∀ n ∈ g.members, n ∈ g.retired) (hgo : s.cmp.pendingGo = false) :
    s.changeOver = s.withChange none := by
  have hall' : g.members.all g.retired.contains = true := by simpa using hall
  have hend : (s.withChange none).goPending = s.withChange none := State.goPending_of_none hgo
  simp only [State.changeOver, hchange, hact, hall', Bool.and_self, if_true]
  exact hend

end

theorem Tells.changeOver_of_none {u : State} (h : Tells s u) (hchange : s.cmp.change = none) (hgo : s.cmp.pendingGo = false) : Tells s u.changeOver := by
  rw [State.changeOver_of_none (h.cmp ▸ hchange) (h.cmp ▸ hgo)]
  exact h

/-- Outside a change, a node that retires its draining epoch logs it and tells its coordinator. -/
theorem State.retire_of_no_change (hchange : s.cmp.change = none) (hgo : s.cmp.pendingGo = false) :
    Tells { s with cmp := { s.cmp with draining := [] } } s.retire := by
  have hlog := logEvent_tells { s with cmp := { s.cmp with draining := [] } } pCmp 8 0 noAttr (mapEpoch s.cmp.draining) 1
  unfold State.retire
  dsimp only
  split
  · rw [State.noteChange_of_none (hlog.cmp ▸ hchange)]
    exact hlog.changeOver_of_none hchange hgo
  · exact (hlog.trans (newTxn_putMsg_tells _ _)).changeOver_of_none hchange hgo

end

section
variable {s r : State} {m : Msg} {g : Change} (hrec : s.receive m = (r, true)) (hchange : r.cmp.change = some g)
include hrec hchange

section
variable (hty : m.ty = 0x31)
include hty

theorem exec_compReady_of_decided (hact : g.activated = true) {e x res : Nat} (hbody : m.body = .comp e x res) : exec (.compReady m) s = .next r := by
  simp only [exec, execCompReady, State.onMsg_of_receive hrec hty, hbody, hchange, hact, Bool.or_true, Bool.true_or, if_true]

section
variable (hact : g.activated = false) (hmem : m.src ∈ g.members) {x res : Nat} (hbody : m.body = .comp g.epoch x res)
include hact hmem hbody

theorem exec_compReady_of_member : exec (.compReady m) s = .next (r.withChange (some (g.answer m.src res))).decide' := by
  have hno : (g.epoch != g.epoch || g.activated || !g.members.contains m.src) = false := by simp [hact, hmem]
  simp only [exec, execCompReady, State.onMsg_of_receive hrec hty, hbody, hchange, hno, Bool.false_eq_true, if_false, State.noteChange_of_change hchange]
  rfl

theorem exec_compReady_of_refusal (hbad : res ≠ 0) : exec (.compReady m) s = .next (r.withChange (some (g.answer m.src res))).abortChange := by
  rw [exec_compReady_of_member hrec hchange hty hact hmem hbody,
    State.decide'_of_refused (g := g.answer m.src res) rfl hact (List.mem_append_right _ List.mem_cons_self) hbad]

/-- While another member's answer is missing, the answer is kept. -/
theorem exec_compReady_of_missing (hgood : res = 0) (hready : ∀ y ∈ g.ready, y.2 = 0) (hmiss : ∃ n ∈ g.members, n ≠ m.src ∧ ∀ y ∈ g.ready, y.1 ≠ n) :
    exec (.compReady m) s = .next (r.withChange (some (g.answer m.src 0))) := by
  obtain ⟨n, hn, hne, hno⟩ := hmiss
  have hall : ∀ y ∈ (g.answer m.src 0).ready, y.2 = 0 ∧ y.1 ≠ n := by
    intro y hy
    obtain hy | hy := List.mem_append.1 hy
    · have hy := (List.mem_filter.1 hy).1
      exact ⟨hready y hy, hno y hy⟩
    · rw [List.mem_singleton.1 hy]
      exact ⟨rfl, hne.symm⟩
  subst hgood
  rw [exec_compReady_of_member hrec hchange hty hact hmem hbody,
    State.decide'_of_missing (g := g.answer m.src 0) rfl hact (fun y hy => (hall y hy).1) hn fun y hy => (hall y hy).2]

end

end

theorem exec_compActive_of_change (hty : m.ty = 0x33) :
    exec (.compActive m) s = .next (r.withChange (some { g with active := noteOnce g.active m.src })) := by
  simp only [exec, execCompActive, State.onMsg_of_receive hrec hty, State.noteChange_of_change hchange, Change.noteActive_eq]

section
variable (hty : m.ty = 0x34)
include hty

theorem exec_compRetired_of_change : exec (.compRetired m) s = .next (r.withChange (some { g with retired := noteOnce g.retired m.src })).changeOver := by
  simp only [exec, execCompRetired, State.onMsg_of_receive hrec hty, State.noteChange_of_change hchange, Change.noteRetired_eq]

theorem exec_compRetired_of_missing (hmiss : ∃ n ∈ g.members, n ≠ m.src ∧ n ∉ g.retired) :
    exec (.compRetired m) s = .next (r.withChange (some { g with retired := noteOnce g.retired m.src })) := by
  obtain ⟨n, hn, hne, hno⟩ := hmiss
  have hnot : n ∉ noteOnce g.retired m.src := by simp [mem_noteOnce, hne, hno]
  rw [exec_compRetired_of_change hrec hchange hty,
    State.changeOver_of_not_retired (g := { g with retired := noteOnce g.retired m.src }) rfl hn hnot]

/-- With the last member's report the change is over. -/
theorem exec_compRetired_of_last (hact : g.activated = true) (hall : ∀ n ∈ g.members, n = m.src ∨ n ∈ g.retired) (hgo : r.cmp.pendingGo = false) :
    exec (.compRetired m) s = .next (r.withChange none) := by
  have hover := State.changeOver_of_all_retired (s := r.withChange (some { g with retired := noteOnce g.retired m.src })) rfl hact
    (fun n hn => mem_noteOnce.2 (hall n hn)) hgo
  rw [exec_compRetired_of_change hrec hchange hty, hover]
  rfl

end

end

/-! ## Time-outs and retirement (13 R410, R414) -/

section
variable {s : State} {g : Change} (hchange : s.cmp.change = some g)
include hchange

theorem exec_prepTmo_of_not_due (h : g.activated = true ∨ s.time.lctr < g.since + fld (s.reg32 (pCmp + 0x108)) 15 8 * 2 ^ 17) : exec .prepTmo s = .next s := by
  have hno : (!g.activated && decide (s.time.lctr ≥ g.since + fld (s.reg32 (pCmp + 0x108)) 15 8 * 2 ^ 17)) = false := by
    rw [Bool.and_eq_false_iff, decide_eq_false_iff_not, Nat.not_le, Bool.not_eq_false']
    exact h
  simp only [exec, execPrepTmo, hchange, hno, Bool.false_eq_true, if_false]

theorem exec_prepTmo_of_due (hact : g.activated = false) (hdue : s.time.lctr ≥ g.since + fld (s.reg32 (pCmp + 0x108)) 15 8 * 2 ^ 17) :
    exec .prepTmo s = .next (s.raise pCmp 2).abortChange := by
  have hyes : (!g.activated && decide (s.time.lctr ≥ g.since + fld (s.reg32 (pCmp + 0x108)) 15 8 * 2 ^ 17)) = true := by
    rw [hact, decide_eq_true hdue]
    rfl
  simp only [exec, execPrepTmo, hchange, hyes, if_true]

end

section
variable {s : State}

theorem exec_epochRetire_of_used (h : s.cmp.draining = [] ∨ ∃ c ∈ s.cmds, c.epoch = mapEpoch s.cmp.draining ∧ s.onFabric c = true) :
    exec .epochRetire s = .next s := by
  refine if_pos ?_
  simpa using h

theorem exec_epochRetire_of_unused (hdrain : s.cmp.draining ≠ []) (h : ∀ c ∈ s.cmds, c.epoch ≠ mapEpoch s.cmp.draining ∨ s.onFabric c = false) :
    exec .epochRetire s = .next s.retire := by
  refine if_neg ?_
  have hunused : ∀ c ∈ s.cmds, c.epoch = mapEpoch s.cmp.draining → s.onFabric c = false := fun c hc he => (h c hc).resolve_left (not_not.2 he)
  simpa [hdrain] using hunused

theorem exec_drainTmo_of_not_due (h : s.time.lctr < s.cmp.drainAt + fld (s.reg32 (pCmp + 0x108)) 31 16 * 2 ^ 14) : exec .drainTmo s = .next s := if_pos h

/-- Without a handover that waits, the draining epoch goes. -/
theorem exec_drainTmo_of_due (hdue : s.time.lctr ≥ s.cmp.drainAt + fld (s.reg32 (pCmp + 0x108)) 31 16 * 2 ^ 14) (hfinal : s.cmp.finalWait = []) :
    exec .drainTmo s = .next (if s.cmp.draining.isEmpty then s else (s.raise pCmp 3).retire) := by
  rw [exec, execDrainTmo, if_neg (Nat.not_lt.2 hdue), hfinal]
  rfl

theorem State.retire_of_raised (hchange : s.cmp.change = none) (hgo : s.cmp.pendingGo = false) :
    (s.raise pCmp 3).retire.cmp = { s.cmp with draining := [] } ∧ (s.raise pCmp 3).retire.cmds = s.cmds := by
  have hraise := raise_tells s pCmp 3
  have htells := State.retire_of_no_change (s := s.raise pCmp 3) (hraise.cmp ▸ hchange) (hraise.cmp ▸ hgo)
  refine ⟨htells.cmp.trans ?_, htells.cmds.trans hraise.cmds⟩
  rw [hraise.cmp]

end

/-- Settles O40: each row is one branch of its command; what it sends leaves the maps alone, and the maps move where a change is prepared, decided, given up or over. -/
theorem compositionChangesInTwoPhases : Obligations.CompositionChangesInTwoPhases := by
  unfold Obligations.CompositionChangesInTwoPhases
  refine ⟨⟨fun a image s => ⟨exec_mapLoad_of_not_taken, fun hreach hprep => ?load⟩, fun m s r e crc x hrec hbody => ?member, fun a s hreach => ?abort⟩,
    fun a s hreach => ?go, fun m s r g hrec hchange => ?answers, fun s g => ?timeouts⟩
  case load =>
    have htells : Tells (s.mapLoaded image) (if s.mapResult image == 1 then s.mapLoaded image else (s.mapLoaded image).raise pCmp 0) :=
      .ite (.refl _) (raise_tells _ _ _)
    refine ⟨_, exec_mapLoad_of_taken hreach hprep, ?_, fun hone => ?_, fun hbad => ?_, ?_, ?_, htells.cmds, htells.shards, htells.hbm⟩
    all_goals rw [htells.cmp]
    · rfl
    · simpa [State.mapLoaded, hone] using State.eq_some_of_mapResult hone
    · simp [State.mapLoaded, hbad]
    · rfl
    · rfl
  case member =>
    refine ⟨fun hty h => exec_compPrepare_of_not_ready hrec hbody hty h, fun hty hprep hdrain hload hepoch hcrc hdrop => ?prepare,
      fun hty h => exec_compActivate_of_not_prepared hrec hbody hty h, fun hty hprep hepoch hstage hshards hopen hbars hwait => ?activate,
      fun hty hprep hepoch hwait => ?drop, fun hty h => exec_compAbort_of_not_prepared hrec hbody hty h, fun hty h => ?undecided, fun hty hnone => ?decided⟩
    case prepare =>
      refine ⟨exec_compPrepare_of_refused hrec hbody hty hprep hdrain hload hepoch hcrc hdrop, fun hacc => ?_⟩
      obtain ⟨t, hexec, htells⟩ := exec_compPrepare_of_accepted hrec hbody hty hprep hdrain hload hepoch hcrc hdrop hacc
      exact ⟨t, hexec, htells.cmp, htells.cmds⟩
    case activate =>
      obtain ⟨t, hexec, htells⟩ := exec_compActivate_of_prepared hrec hbody hty hprep hepoch
      obtain ⟨hcmp, hcmds, hcount⟩ := State.activate_of_nothing_bound hstage hshards hopen hbars hwait
      have hmaps := htells.cmp.trans hcmp
      refine ⟨t, hexec, ?_, ?_, ?_, ?_, (htells.counter _ (by decide) (by decide)).trans hcount, htells.cmds.trans hcmds⟩
      all_goals rw [hmaps]
      all_goals rfl
    case drop =>
      rw [exec_compAbort_of_prepared hrec hbody hty hprep hepoch, State.unprepare_of_none_wait hwait]
      exact ⟨_, rfl, rfl, hwait⟩
    case undecided =>
      obtain ⟨g, hchange, hg, hact⟩ := h
      simp only [exec_compQuery_of_receive hrec hbody hty, hchange, Option.elim_some, hg, hact, BEq.rfl, Bool.not_false, Bool.and_self, if_true]
    case decided =>
      simp only [exec_compQuery_of_receive hrec hbody hty, hnone, Option.elim_none, Bool.false_eq_true, if_false, beq_iff_eq]
  case abort =>
    refine ⟨exec_abort_of_not_prepared hreach, fun hprep h => exec_abort_of_undecided hreach hprep h, fun hprep h hwait => ?_⟩
    rw [exec_abort_of_member hreach hprep h, State.unprepare_of_none_wait (s := s.epochRemembered) hwait]
    exact ⟨_, rfl, rfl, rfl⟩
  case go =>
    refine ⟨exec_go_of_error hreach, fun hload hcoord hstage hprep hdrain => ?_, fun hload hcoord hstage hprep hdrain hchange halone href => ?_⟩
    · rw [exec_go_of_image hreach hload hcoord hstage hprep, State.changeWaits_of_draining hdrain, if_pos rfl]
    · obtain ⟨hcmp, hcmds, hcount⟩ := State.beginChange_of_alone_refused halone href
      refine ⟨s.beginChange, ?_, ?_, ?_, hcount, hcmds⟩
      · rw [exec_go_of_image hreach hload hcoord hstage hprep, State.changeWaits_of_none hchange hdrain, if_neg Bool.false_ne_true]
      · rw [hcmp]
        rfl
      · rw [hcmp]
        exact hprep
  case answers =>
    refine ⟨fun x res hty hbody hact hmem => ⟨fun hbad hwait => ?refusal,
        fun hgood hready hmiss => exec_compReady_of_missing hrec hchange hty hact hmem hbody hgood hready hmiss⟩,
      fun hty hact e x res hbody => exec_compReady_of_decided hrec hchange hty hact hbody,
      fun hty => ⟨_, _, exec_compActive_of_change hrec hchange hty, rfl, rfl, fun n => mem_noteOnce⟩,
      fun hty hmiss => ⟨_, _, exec_compRetired_of_missing hrec hchange hty hmiss, rfl, rfl, fun n => mem_noteOnce⟩,
      fun hty hact hall hgo => exec_compRetired_of_last hrec hchange hty hact hall hgo⟩
    case refusal =>
      have hgives := State.abortChange_of_change (s := r.withChange (some (g.answer m.src res))) hwait rfl
      exact ⟨_, exec_compReady_of_refusal hrec hchange hty hact hmem hbody hbad, hgives.change, hgives.prepared, hgives.cur, hgives.counter, hgives.cmds⟩
  case timeouts =>
    refine ⟨exec_prepTmo_of_not_due, fun hchange hact hdue hwait => ?prep, exec_epochRetire_of_used, fun hdrain h hchange hgo => ?retire,
      exec_drainTmo_of_not_due, fun hdue hfinal hchange hgo => ?drain⟩
    case prep =>
      have htells := raise_tells s pCmp 2
      have hgives := State.abortChange_of_change (htells.waitEpoch.trans hwait) (htells.cmp ▸ hchange)
      exact ⟨_, exec_prepTmo_of_due hchange hact hdue, hgives.change, hgives.prepared, hgives.cur.trans htells.cur,
        hgives.cmds.trans htells.cmds⟩
    case retire =>
      have htells := State.retire_of_no_change hchange hgo
      exact ⟨_, exec_epochRetire_of_unused hdrain h, htells.cmp, htells.cmds⟩
    case drain =>
      refine ⟨_, exec_drainTmo_of_due hdue hfinal, ?_⟩
      split
      · rename_i hempty
        rw [← List.isEmpty_iff.1 hempty]
        exact ⟨rfl, rfl⟩
      · exact State.retire_of_raised hchange hgo

end Sys2Proof.Machine
end

section
/-! SUPPORT. Commit logs and shadows between nodes: readers, parts of records, copies and their results, READY, and the fences of partitions (spec 13 R426, R428, R431). -/

namespace Sys2Proof.Machine

/-! ## The owner's side of a log (13 R426) -/

/-- A node that reads a shard for the first time, its credit at most 8. -/
def LogReader.asked (m : Msg) (num e c : Nat) : LogReader :=
  { node := m.src, part := m.srcPart, txn := m.txn, shard := num, next := e, off := 0, credit := min 8 c }

section
variable {s r : State} {m : Msg} {num e c : Nat} (hrec : s.receive m = (r, true)) (hty : m.ty = 0x37) (hbody : m.body = .logReq num e c)
include hrec hty hbody

theorem exec_logReq_of_not_owned (h : r.fabricPart m.dstPart = false ∨ r.ownsShard num m.dstPart r.epoch = false) :
    exec (.logReq m) s = .next (r.refuseMsg m 3) := by
  have hno : (!r.fabricPart m.dstPart || !r.ownsShard num m.dstPart r.epoch) = true := by simpa using h
  simp only [exec, execLogReq, State.onMsg_of_receive hrec hty, hbody, hno, if_true]

theorem exec_logReq_of_new_reader (hpart : r.fabricPart m.dstPart = true) (hown : r.ownsShard num m.dstPart r.epoch = true) (harea : r.area (.shard num) = none)
    (hnew : ∀ x ∈ r.cmp.logReqs, x.shard ≠ num) :
    exec (.logReq m) s = .next (State.pushLog { r with cmp := { r.cmp with logReqs := r.cmp.logReqs ++ [LogReader.asked m num e c] } } (LogReader.asked m num e c) 8) := by
  have hother : ∀ x ∈ r.cmp.logReqs, (x.node == m.src && x.shard == num) = false := fun x hx =>
    Bool.and_eq_false_iff.2 (.inr (beq_eq_false_iff_ne.2 (hnew x hx)))
  have hfind : (r.cmp.logReqs.find? fun x => x.node == m.src && x.shard == num) = none :=
    List.find?_eq_none.2 fun x hx => Bool.eq_false_iff.1 (hother x hx)
  have hkeep : (r.cmp.logReqs.filter fun x => !(x.node == m.src && x.shard == num)) = r.cmp.logReqs :=
    List.filter_eq_self.2 fun x hx => by rw [hother x hx, Bool.not_false]
  simp only [exec, execLogReq, State.onMsg_of_receive hrec hty, hbody, hpart, hown, harea, hfind, hkeep, Option.elim_none, Bool.not_true, Bool.or_self,
    Bool.false_eq_true, if_false]
  rfl

end

/-! ## The reader's side of a log (13 R426) -/

section
variable {s r : State} {m : Msg} {num e : Nat} {d : List Byte} (hrec : s.receive m = (r, true)) (hty : m.ty = 0x38)
include hrec hty

theorem exec_logData_of_not_bound {f : Bool} (hbody : m.body = .logData num e f d) (hshard : r.shard num = none) : exec (.logData m) s = .next r := by
  simp only [exec, execLogData, State.onMsg_of_receive hrec hty, hbody, State.onLogData, hshard]

/-- A shadow keeps a part until its record is whole; while credit is left it asks for nothing. -/
theorem exec_logData_of_part {x : Shard} (hbody : m.body = .logData num e false d) (hshard : r.shard num = some x) (hshadow : x.shadow = true)
    (hnext : e ≥ x.replayNext) (hcredit : x.logCredit ≠ 1) (hcredit' : x.logCredit ≠ 0)
    (hpart : LogRec.size (x.logBuf ++ d) = none ∨ ∃ n, LogRec.size (x.logBuf ++ d) = some n ∧ (x.logBuf ++ d).length < n) :
    exec (.logData m) s = .next (r.setShard { x with logBuf := x.logBuf ++ d, logCredit := x.logCredit - 1 }) := by
  have hnew : decide (e < x.replayNext) = false := decide_eq_false (Nat.not_lt.2 hnext)
  have hwhole : ((LogRec.size (x.logBuf ++ d)).elim false fun n => decide ((x.logBuf ++ d).length ≥ n)) = false := by
    rcases hpart with h | ⟨n, h, hlt⟩
    · rw [h]
      rfl
    · rw [h]
      exact decide_eq_false (Nat.not_le.2 hlt)
  have hleft : (x.logCredit - 1 == 0) = false := beq_eq_false_iff_ne.2 (by omega)
  simp only [exec, execLogData, State.onMsg_of_receive hrec hty, hbody, State.onLogData, hshard, hshadow, hnew, hwhole, hleft, Bool.true_or, Bool.not_true,
    Bool.not_false, Bool.true_and, Bool.false_eq_true, if_false]

end

/-! ## Copies at a shadow (13 R428) -/

section
variable {s r : State} {m : Msg} {num : Nat} {dw : List Nat} {q : List Byte} (hrec : s.receive m = (r, true)) (hty : m.ty = 0x39)
  (hbody : m.body = .shadowCopy num dw q)
include hrec hty hbody

theorem exec_shadowCopy_of_no_shadow (h : ∀ x, r.shard num = some x → x.shadow = false) : exec (.shadowCopy m) s = .next r := by
  cases hshard : r.shard num with
  | none => simp only [exec, execShadowCopy, State.onMsg_of_receive hrec hty, hbody, hshard]
  | some x => simp only [exec, execShadowCopy, State.onMsg_of_receive hrec hty, hbody, hshard, h x hshard, Bool.not_false, if_true]

/-- A copy becomes a command of the shadow's partition, with the bytes it came with. -/
theorem exec_shadowCopy_of_shadow {x : Shard} (hshard : r.shard num = some x) (hshadow : x.shadow = true) :
    let u := r.addCmd x.part 0 .pa 0 dw 0 (.shadow m.src m.txn)
    exec (.shadowCopy m) s = .next ((u.1.modCmd u.2 fun c => { c with input := q, got := if q.length > c.inLen then [(12, q.drop c.inLen)] else [] }).run u.2) := by
  simp only [exec, execShadowCopy, State.onMsg_of_receive hrec hty, hbody, hshard, hshadow, Bool.not_true, Bool.false_eq_true, if_false]

end

/-! ## The result of a copy at the owner (13 R428) -/

/-- Whether a shadow's list overlaps the owner's enough: the exact ratio decides. -/
def goodOverlap (cfg : Nat) (own ids : List Nat) : Bool :=
  if own.isEmpty then ids.isEmpty else decide ((own.filter ids.contains).length * 65536 ≥ fld cfg 15 0 * own.length)

/-- A shard after the result of its copy `txn`, with the overlap to show. -/
def Shard.copyEnded (x : Shard) (txn cfg overlap : Nat) (good : Bool) : Shard :=
  { x with copies := x.copies.filter fun k => k.1 != txn, run := if good then sat16 (x.run + 1) else 0, lastOverlap := overlap,
           ready := good && (x.ready || decide ((if good then sat16 (x.run + 1) else 0) ≥ fld cfg 31 16)) }

section
variable {s r : State} {m : Msg} {num : Nat} {ids : List Nat} {x : Shard} (hrec : s.receive m = (r, true)) (hty : m.ty = 0x3A)
  (hbody : m.body = .shadowResult num ids) (hshard : r.shard num = some x)
include hrec hty hbody hshard

theorem exec_shadowResult_of_no_copy (h : ∀ k ∈ x.copies, k.1 ≠ m.txn) : exec (.shadowResult m) s = .next r := by
  have hfind : (x.copies.find? fun k => k.1 == m.txn) = none := List.find?_eq_none.2 fun k hk => by simpa using h k hk
  simp only [exec, execShadowResult, State.onMsg_of_receive hrec hty, hbody, hshard, hfind]

/-- The result is counted and ends its copy; beyond that only READY may be sent. -/
theorem exec_shadowResult_of_copy {k : Nat × Nat × List Nat} (hcopy : (x.copies.find? fun k => k.1 == m.txn) = some k) :
    ∃ t, exec (.shadowResult m) s = .next t ∧ Tells ((r.bump (pCmp + 0x080) 1).setShard
      (x.copyEnded m.txn (r.reg32 (pCmp + 0x128)) (min (overlapOf k.2.2 ids) 0xFFFF) (goodOverlap (r.reg32 (pCmp + 0x128)) k.2.2 ids))) t := by
  simp only [exec, execShadowResult, State.onMsg_of_receive hrec hty, hbody, hshard, hcopy]
  exact ⟨_, rfl, .ite (newTxn_putMsg_tells _ _) (.refl _)⟩

end

/-! ## READY and the time-out of copies (13 R428) -/

section
variable {s r : State} {m : Msg} {num : Nat}

theorem exec_shadowReady_of_receive (hrec : s.receive m = (r, true)) (hty : m.ty = 0x3B) (hbody : m.body = .shadowReady num) :
    exec (.shadowReady m) s =
      .next { r with shards := r.shards.map fun x => if x.num == num && x.shadow then { x with ready := m.arg == 1 } else x } := by
  simp only [exec, execShadowReady, State.onMsg_of_receive hrec hty, hbody]

end

/-- A shard without the copies `txn` that are due at `now`. -/
def Shard.dropLate (x : Shard) (num txn now tmo : Nat) : Shard :=
  if x.num == num then { x with copies := x.copies.filter fun k => !(k.1 == txn && decide (now ≥ k.2.1 + tmo)) } else x

theorem Shard.dropLate_spec (x : Shard) (num txn now tmo : Nat) :
    x.dropLate num txn now tmo = { x with copies := (x.dropLate num txn now tmo).copies } ∧ (x.num ≠ num → x.dropLate num txn now tmo = x) ∧
      ∀ k, k ∈ (x.dropLate num txn now tmo).copies ↔ k ∈ x.copies ∧ ¬(x.num = num ∧ k.1 = txn ∧ now ≥ k.2.1 + tmo) := by
  unfold Shard.dropLate
  by_cases hnum : x.num = num
  · refine ⟨by simp [hnum], fun hne => absurd hnum hne, fun k => ?_⟩
    simp only [hnum, BEq.rfl, if_true, List.mem_filter, Bool.not_eq_true', Bool.and_eq_false_iff, beq_eq_false_iff_ne, decide_eq_false_iff_not, true_and, not_and_or]
  · simp [hnum]

theorem exec_shadowCopyTimeout (s : State) (num txn : Nat) :
    exec (.shadowCopyTimeout num txn) s =
      .next { s with shards := s.shards.map fun x => x.dropLate num txn s.time.lctr (fld (s.reg32 (pCol + 0x140)) 31 16 * 2 ^ 14) } := rfl

/-! ## Fences of partitions (13 R431) -/

/-- The page of the composition. -/
def cmpPage : Page := ⟨0x34, 0, 0, 0x330000⟩

theorem pageOf_cmp {o : Nat} (ho : o < 4096) : pageOf (pCmp + o) = some cmpPage := pageOf_congr (pageBase_add_div pCmp ho)

section
variable {s : State} {a : Agent} {mask : Nat}

/-- A virtual function's page holds no such register (16 R477). -/
theorem exec_partitionFenceWrite_of_not_reaches (h : s.reaches a (pCmp + 0x11C) = false) : exec (.partitionFenceWrite a mask) s = .next s := by
  have hout : s.reaches a (barOff a (pCmp + 0x11C)) = false := by
    match a with
    | .mgmt => exact h
    | .host p 0 => exact h
    | .host p (n + 1) =>
      have hpage : pageOf (barOff (.host p (n + 1)) (pCmp + 0x11C)) = none := show pageOf (2 ^ 32) = none by decide
      simp only [State.reaches, hpage]
  simp only [exec, execPartitionFenceWrite, State.regWrite, hout, Bool.not_false, Bool.true_or, if_true]

theorem State.writePartFence_of_not_confidential (hconf : s.sec.conf = 0) : s.writePartFence mask = s.fenceParts (mask % 2 ^ 16) := by
  have hnew : s.reg32 (pCmp + 0x11C) &&& s.sec.conf % 2 ^ 16 ||| mask % 2 ^ 16 &&& 2 ^ 16 - 1 - s.sec.conf % 2 ^ 16 = mask % 2 ^ 16 := by
    rw [hconf, Nat.zero_mod, Nat.and_zero, Nat.zero_or, Nat.sub_zero, Nat.and_two_pow_sub_one_eq_mod, Nat.mod_mod]
  simp only [State.writePartFence, hnew, BEq.rfl, if_true]

/-- The mask is stored; the partitions that it fences anew are logged. -/
theorem State.reg32_fenceParts (s : State) (mask : Nat) : (s.fenceParts mask).reg32 (pCmp + 0x11C) = mask % 2 ^ 16 := by
  refine List.foldlRecOn (motive := fun t : State => t.reg32 (pCmp + 0x11C) = mask % 2 ^ 16) _ _ ?_ fun t ht p _ => ?_
  · rw [State.reg32_setReg32_same]
    omega
  · rw [State.reg32_logEvent _ _ _ _ _ _ _ (by decide), ht]

theorem fenceParts_reports (s : State) (mask : Nat) : Reports s (s.fenceParts mask) :=
  (setReg32_reports s _ _).trans (.foldl (fun t _ => logEvent_reports t _ _ _ _ _ _) _ _)

theorem exec_partitionFenceWrite_of_reaches (h : s.reaches a (pCmp + 0x11C) = true) : exec (.partitionFenceWrite a mask) s = .next (s.writePartFence mask) := by
  have hg : pageOf (pCmp + 0x11C) = some cmpPage := pageOf_cmp (by decide)
  have ha := not_vf_of_reaches h hg (by decide)
  simp only [exec, execPartitionFenceWrite, State.regWrite_of_not_vf ha h hg rfl]
  rfl

end

/-- Settles O41: each row is one branch of its command; the shard that a row names is found, replaced or left, and what is sent leaves shards alone. -/
theorem logsAndShadowsFollowTheirShard : Obligations.LogsAndShadowsFollowTheirShard := by
  unfold Obligations.LogsAndShadowsFollowTheirShard
  refine ⟨fun m s r num hrec => ⟨fun e c hty hbody h => exec_logReq_of_not_owned hrec hty hbody h,
      fun e c hty hbody hpart hown harea hnew => exec_logReq_of_new_reader hrec hty hbody hpart hown harea hnew,
      fun e f d hty hbody hshard => exec_logData_of_not_bound hrec hty hbody hshard,
      fun e d x hty hbody hshard hshadow hnext hcredit hpart hcredit' => exec_logData_of_part hrec hty hbody hshard hshadow hnext hcredit hcredit' hpart,
      fun dw q hty hbody => ⟨exec_shadowCopy_of_no_shadow hrec hty hbody, fun x hshard hshadow => exec_shadowCopy_of_shadow hrec hty hbody hshard hshadow⟩,
      fun ids x k hty hbody hshard => ⟨exec_shadowResult_of_no_copy hrec hty hbody hshard, fun hcopy => ?result⟩, fun hty hbody => ?ready⟩,
    fun num txn s => ?timeout, fun a mask s => ⟨exec_partitionFenceWrite_of_not_reaches, fun hreach hconf hmask => ?fence⟩⟩
  case result =>
    intro cfg good
    obtain ⟨t, hexec, htells⟩ := exec_shadowResult_of_copy hrec hty hbody hshard hcopy
    have hfound : t.shard num = some (x.copyEnded m.txn cfg (min (overlapOf k.2.2 ids) 0xFFFF) good) := by
      rw [State.shard, htells.shards]
      exact State.shard_setShard hshard rfl
    refine ⟨t, _, hexec, hfound, rfl, fun c => ?_, rfl, ?_, ?_, htells.cmds⟩
    · simp [Shard.copyEnded]
    · simp [Shard.copyEnded]
    · rw [htells.counter _ (by decide) (by decide)]
      exact State.counter_bump_same _ _ _
  case ready =>
    refine ⟨_, exec_shadowReady_of_receive hrec hty hbody, rfl, ?_⟩
    simp only [Bool.and_eq_true, beq_iff_eq]
  case timeout =>
    refine ⟨_, exec_shadowCopyTimeout s num txn, rfl, List.length_map _, fun x y hxy => ?_⟩
    rw [← List.map_prod_left_eq_zip, List.mem_map] at hxy
    obtain ⟨z, -, hz⟩ := hxy
    obtain ⟨rfl, rfl⟩ := Prod.mk.inj hz
    exact z.dropLate_spec num txn _ _
  case fence =>
    have hreports := fenceParts_reports s (mask % 2 ^ 16)
    refine ⟨_, (exec_partitionFenceWrite_of_reaches hreach).trans (congrArg _ (State.writePartFence_of_not_confidential hconf)), ?_, hreports.cmds, hreports.hbm⟩
    rw [State.reg32_fenceParts]
    omega

end Sys2Proof.Machine
end

section
/-! SUPPORT. Every step keeps the canonical form of HBM and clears nothing of OTP, and what the state after reset holds (spec 03, 14 R433, R434, R438, 16 R492; log entry 8). -/

namespace Sys2Proof.Machine

/-- A step takes nothing but the front of the queue away, and what it then does keeps what every operation keeps. -/
theorem step_keeps {s t : State} (h : step s = .next t) : Keeps { s with pending := s.pending.tail } t := by
  cases hp : s.pending with
  | nil =>
    rw [step_of_pending_nil hp] at h
    cases h
    have hs : ({ s with pending := [] } : State) = s := by rw [← hp]
    rw [List.tail_nil, hs]
    exact State.idleTick_keeps (State.drain_keeps (.refl s))
  | cons c rest =>
    rw [step_of_pending_cons hp] at h
    exact exec_keeps c _ t h

/-- Settles O5: the queue's front aside, a step keeps what `Keeps` says of OTP. -/
theorem otpIsNeverCleared : Obligations.OtpIsNeverCleared := by
  unfold Obligations.OtpIsNeverCleared
  exact fun s t h => (step_keeps h).otp

/-- Settles O4: the queue's front aside, a step keeps the canonical form as `Keeps` says. -/
theorem stepKeepsInvariant : Obligations.StepKeepsInvariant := by
  unfold Obligations.StepKeepsInvariant
  exact fun s t hs h => (step_keeps h).mem hs

/-- Settles O3: no cell is listed after reset. -/
theorem resetMeetsInvariant : Obligations.ResetMeetsInvariant := rfl

/-- Settles O2: every table of the state after reset is empty, so that each read gives the reset value (log entry 8 for HBM). -/
theorem resetValues : Obligations.ResetValues := by
  unfold Obligations.ResetValues
  have port : ∀ p, State.reset.port p = Port.reset := fun p => by cases p <;> rfl
  refine ⟨fun _ => rfl, fun _ => rfl, fun _ _ => ⟨rfl, rfl⟩, rfl, rfl, rfl, rfl, fun _ => rfl, fun p part => ?_, fun _ _ => rfl, fun p => ?_, fun _ => rfl, rfl, rfl, fun _ => rfl⟩
  · rw [State.owns, port]
    simp [Port.reset, bitOf]
  · rw [port]
    rfl

end Sys2Proof.Machine
end

section
/-! SUPPORT. The event log: an occurrence folds into its page's newest entry or takes a new one, and one of a confidential partition is redacted (spec 16 R496 to R500). -/

namespace Sys2Proof.Machine

/-! ## What is logged of an occurrence (16 R497, R500) -/

/-- CODE, PART, CONTEXT and DETAILs as an occurrence is logged. -/
structure Occurrence where
  code : Nat
  part : Nat
  ctx : Nat
  d0 : Nat
  d1 : Nat

/-- PART of an entry, with PART_VALID and REDACTED. -/
def Attr.partField (at' : Attr) (red : Bool) : Nat := at'.part.elim 0 fun p => p % 16 + 16 + (if red then 32 else 0)

/-- An occurrence as it is, and as it is redacted. -/
def Occurrence.plain (code : Nat) (at' : Attr) (d0 d1 : Nat) : Occurrence := ⟨code, at'.partField false, at'.ctx, d0 % 2 ^ 32, d1 % 2 ^ 32⟩
def Occurrence.redacted (code : Nat) (at' : Attr) : Occurrence := ⟨code, at'.partField true, 0, 0, 0⟩

def State.occurrence (s : State) (code : Nat) (at' : Attr) (d0 d1 : Nat) : Occurrence :=
  if at'.part.elim false s.confidential then .redacted code at' else .plain code at' d0 d1

/-- An occurrence folds into an entry: it is logged alike, and the entry is recent (16 R499). -/
def State.foldsInto (s : State) (o : Occurrence) (e : Event) : Bool :=
  e.code == o.code && e.part == o.part && e.ctx == o.ctx && e.d0 == o.d0 && e.d1 == o.d1 && decide (s.time.lctr - e.time ≤ 2 ^ 20)

theorem State.foldsInto_iff {s : State} {o : Occurrence} {e : Event} :
    s.foldsInto o e = true ↔ e.code = o.code ∧ e.part = o.part ∧ e.ctx = o.ctx ∧ e.d0 = o.d0 ∧ e.d1 = o.d1 ∧ s.time.lctr - e.time ≤ 2 ^ 20 := by
  simp only [State.foldsInto, Bool.and_eq_true, beq_iff_eq, decide_eq_true_iff, and_assoc]

/-- The fold into the entry of that SEQ. -/
def State.foldEvent (s : State) (seq : Nat) : State :=
  State.bump { s with reg := { s.reg with log := s.reg.log.map fun x : Event => if x.seq == seq then { x with count := sat16 (x.count + 1) } else x } } 0x048 1

/-- A new entry of a page. -/
def State.newEvent (s : State) (base sev : Nat) (pg : Page) (o : Occurrence) : State := State.logEvent.new base o.code sev s pg o.part o.ctx o.d0 o.d1

section
variable {s : State} {base : Nat} {pg : Page} (hpg : pageOf base = some pg) (code sev : Nat) (at' : Attr) (d0 d1 : Nat)
include hpg

theorem State.logEvent_of_first (hfirst : (s.reg.log.find? fun x => x.source == pg.id) = none) :
    s.logEvent base code sev at' d0 d1 = s.newEvent base sev pg (s.occurrence code at' d0 d1) := by
  obtain ⟨_ | p, ctx⟩ := at'
  · simp only [State.logEvent, hpg, hfirst]
    rfl
  · cases hred : s.confidential p <;> simp only [State.logEvent, hpg, hfirst, State.occurrence, hred, Option.elim_some] <;> rfl

variable {e : Event} (he : (s.reg.log.find? fun x => x.source == pg.id) = some e)
include he

theorem State.logEvent_of_newest :
    s.logEvent base code sev at' d0 d1 =
      if s.foldsInto (s.occurrence code at' d0 d1) e then s.foldEvent e.seq else s.newEvent base sev pg (s.occurrence code at' d0 d1) := by
  obtain ⟨_ | p, ctx⟩ := at'
  · simp only [State.logEvent, hpg, he]
    rfl
  · cases hred : s.confidential p <;> simp only [State.logEvent, hpg, he, State.occurrence, hred, Option.elim_some] <;> rfl

end

/-- Settles O59: outside confidential mode an occurrence is logged as it is, and the two cases are those of its page's newest entry. -/
theorem eventsFoldIntoTheNewestEntry : Obligations.EventsFoldIntoTheNewestEntry := by
  unfold Obligations.EventsFoldIntoTheNewestEntry
  intro s base code sev d0 d1 at' pg e hpg he hopen
  have hplain : s.occurrence code at' d0 d1 = .plain code at' d0 d1 := by
    refine if_neg ?_
    cases hp : at'.part with
    | none => exact Bool.false_ne_true
    | some p => exact Bool.eq_false_iff.1 (hopen p hp)
  have hlog := State.logEvent_of_newest hpg code sev at' d0 d1 he
  rw [hplain] at hlog
  refine ⟨fun hsame => ?_, fun hother => ?_⟩
  · rw [hlog.trans (if_pos (State.foldsInto_iff.2 hsame))]
    refine ⟨?_, State.counter_bump_same _ _ _, rfl⟩
    simp only [State.foldEvent, State.bump, beq_iff_eq, sat16, Nat.min_comm]
  · rw [hlog.trans (if_neg fun h => hother (State.foldsInto_iff.1 h))]
    exact ⟨_, rfl, rfl, rfl, rfl, rfl, rfl, rfl, rfl, rfl, rfl⟩

/-! ## A confidential partition (16 R500) -/

/-- PART of a redacted entry: the partition in bits 3 to 0, PART_VALID, REDACTED. -/
theorem Attr.partField_redacted (p ctx : Nat) :
    bitOf (Attr.partField ⟨some p, ctx⟩ true) 4 = true ∧ bitOf (Attr.partField ⟨some p, ctx⟩ true) 5 = true ∧ Attr.partField ⟨some p, ctx⟩ true % 16 = p % 16 := by
  have hfield : Attr.partField ⟨some p, ctx⟩ true = p % 16 + 48 := rfl
  rw [hfield]
  simp only [bitOf, Nat.shiftRight_eq_div_pow, beq_iff_eq]
  omega

/-- Settles O60: once an occurrence is redacted, `State.logEvent` no longer looks at its context and its details. -/
theorem confidentialEventsAreRedacted : Obligations.ConfidentialEventsAreRedacted := by
  unfold Obligations.ConfidentialEventsAreRedacted
  intro s base code sev p ctx d0 d1 hconf
  refine ⟨fun ctx' d0' d1' => ?_, fun pg hpg hnone => ?_⟩
  · simp only [State.logEvent, hconf, if_true]
  · obtain ⟨hvalid, hredacted, hpart⟩ := Attr.partField_redacted p ctx
    have hred : s.occurrence code ⟨some p, ctx⟩ d0 d1 = .redacted code ⟨some p, ctx⟩ := if_pos hconf
    have hfirst : (s.reg.log.find? fun x => x.source == pg.id) = none := List.find?_eq_none.2 fun x hx => by simpa using hnone x hx
    rw [State.logEvent_of_first hpg code sev _ d0 d1 hfirst, hred]
    exact ⟨_, rfl, hvalid, hredacted, hpart, rfl, rfl, rfl⟩

end Sys2Proof.Machine
end

section
/-! SUPPORT. Reads that latch or restart what they read, and reads that nothing answers (spec 16 R477, R486, R487, R490, 14 R449). -/

namespace Sys2Proof.Machine

/-! ## Reads that nothing answers (16 R477) -/

section
variable {s : State} {a : Agent} {off : Nat} (h : s.reaches a off = false)
include h

theorem exec_counterLoRead_of_not_reaches (hlow : counterLow off = true) : exec (.counterLoRead a off) s = .next (s.readZero a off 4) := by
  simp [exec, execCounterLoRead, hlow, h]

theorem exec_editionLoRead_of_not_reaches (hlow : off ∈ editionLows) : exec (.editionLoRead a off) s = .next (s.readZero a off 4) := by
  simp [exec, execEditionLoRead, hlow, h]

theorem exec_rcFieldRead_of_not_reaches (hb : barOff a off = off) (halign : off % 4 = 0) : exec (.rcFieldRead a off) s = .next (s.readZero a off 4) := by
  simp [exec, execRcFieldRead, hb, halign, h]

theorem exec_glbLctrLoRead_of_not_reaches (hoff : off = 0x100) (wide : Bool) :
    exec (.glbLctrLoRead a wide) s = .next (s.readZero a 0x100 (if wide then 8 else 4)) := by
  subst hoff
  simp [exec, execGlbLctrLoRead, h]

theorem exec_pegStatSseLoRead_of_not_reaches (hoff : off = pPeg + 0x118) : exec (.pegStatSseLoRead a) s = .next (s.readZero a (pPeg + 0x118) 4) := by
  subst hoff
  simp [exec, execPegStatSseLoRead, h]

end

theorem State.readZero_of_up {s : State} {p : Port} (h : (s.port p).up = true) (fn off n : Nat) :
    s.readZero (.host p fn) off n = s.emit p (.answer fn off (zeros n)) := if_pos h

/-! ## Counters (16 R486) -/

/-- Counters stand below the block registers of their page. -/
theorem Page.counters_le (g : Page) : g.counters ≤ 18 := by
  unfold Page.counters
  split <;> decide

section
variable {g : Page} {off : Nat} (h : isCounter g off = true)
include h

theorem lt_of_isCounter : off % 4096 < 0x100 := by
  simp only [isCounter, Bool.and_eq_true, decide_eq_true_iff] at h
  have := g.counters_le
  omega

variable (s : State) (a : Agent) (hlow : off % 8 = 0)

theorem State.restartRc_counter : s.restartRc a g off = s := by
  have hlt := lt_of_isCounter h
  unfold State.restartRc
  dsimp only
  split
  case h_10 => exact if_neg fun hcapo => by omega
  case h_12 => rfl
  all_goals omega

include hlow

theorem State.viewPage_counter : s.viewPage a g off = s.counterOf g off % 2 ^ 32 := by
  simp [State.viewPage, lt_of_isCounter h, State.header, h, hlow]

theorem State.latchRead_counter : s.latchRead a g off = s.setLatch a (off + 4) (s.counterOf g off / 2 ^ 32) := by
  have hlt := lt_of_isCounter h
  have hlow' : off % 4096 % 8 = 0 := by omega
  unfold State.latchRead
  dsimp only
  split
  case h_6 => simp only [h, hlow', BEq.rfl, Bool.and_self, if_true]
  all_goals omega

end

section
variable {s : State} {a : Agent} {off : Nat} {g : Page} (ha : a = .mgmt ∨ ∃ p, a = .host p 0) (hr : s.reaches a off = true) (hg : pageOf off = some g)
include ha hr hg

theorem exec_counterLoRead_of_reaches (hlow : counterLow off = true) :
    exec (.counterLoRead a off) s =
      .next ((s.setLatch a (off + 4) (s.counterOf g off / 2 ^ 32)).giveRead a off (leBytes 4 (s.counterOf g off % 2 ^ 32))) := by
  obtain ⟨hcounter, hzero⟩ : isCounter g off = true ∧ off % 8 = 0 := by simpa [counterLow, hg] using hlow
  have halign : off % 4 = 0 := by omega
  simp only [exec, execCounterLoRead, hlow, hr, Bool.not_true, Bool.false_eq_true, if_false, if_true, State.readOne_of_not_vf ha hr halign hg,
    State.restartRc_counter hcounter, State.latchRead_counter hcounter s a hzero, State.viewPage_counter hcounter s a hzero]

/-! ## Editions (16 R490, 14 R449) -/

/-- A low register that shows the low half of `e` and latches its high half at `off'`. -/
theorem exec_editionLoRead_of_reaches {off' e : Nat} (hlow : off ∈ editionLows) (hview : s.viewPage a g off = e % 2 ^ 32)
    (hlatch : s.latchRead a g off = s.setLatch a off' (e / 2 ^ 32)) (hrest : ∀ t : State, t.restartRc a g off = t) :
    ∃ t : State, exec (.editionLoRead a off) s = .next (t.giveRead a off (leBytes 4 (e % 2 ^ 32))) ∧ t.latchOf a off' = some (e / 2 ^ 32 % 2 ^ 32) ∧
      t = { s with reg := t.reg } := by
  have aligned : ∀ o ∈ editionLows, o % 4 = 0 := by decide
  refine ⟨s.setLatch a off' (e / 2 ^ 32), ?_, State.latchOf_setLatch_same _ _ _ _, rfl⟩
  simp only [exec, execEditionLoRead, List.contains_iff_mem.2 hlow, hr, Bool.not_true, Bool.false_eq_true, if_false, if_true,
    State.readOne_of_not_vf ha hr (aligned off hlow) hg, hrest, hlatch, hview]

/-! ## RC fields (16 R487) -/

theorem exec_rcFieldRead_of_reaches (halign : off % 4 = 0) :
    exec (.rcFieldRead a off) s = .next (((s.latchRead a g off).restartRc a g off).giveRead a off (leBytes 4 (s.regShow a off))) := by
  simp [exec, execRcFieldRead, barOff_of_not_vf ha, halign, hr, State.readOne, State.regRead, State.afterRead_of_not_vf ha hr halign hg]

end

/-- The pages of ATT, UPD, PWR, SEL and FAB. -/
def attPage : Page := ⟨0x24, 0, 0, 0x90000⟩
def updPage : Page := ⟨0x26, 0, 0, 0xB0000⟩
def pwrPage : Page := ⟨0x02, 0, 0, 0x1000⟩
def selPage : Page := ⟨0x21, 0, 0, 0x61000⟩
def fabPage : Page := ⟨0x32, 0, 0, 0x300000⟩

/-- The low half of an edition that a lock hides, and its high half. -/
theorem lockedHalves (lock : Bool) (e : Nat) :
    (if lock then 0 else e % 2 ^ 32) = (if lock then 0 else e) % 2 ^ 32 ∧ (if lock then 0 else e / 2 ^ 32) = (if lock then 0 else e) / 2 ^ 32 := by
  cases lock <;> simp

/-- Settles O49: an unanswered read only sends zeros; the others latch what their register's upper half shows, or restart their field, as `latchRead` and `restartRc` say for its page. -/
theorem readsLatchAndRestart : Obligations.ReadsLatchAndRestart := by
  unfold Obligations.ReadsLatchAndRestart
  refine ⟨fun a off s h => ?unanswered, fun a off g s ha hr hg hlow => ?counter,
    fun a s ha => ⟨fun hr => ?region, fun hr => ?shard, fun hr => ?floor, fun hr => ?vmin, fun hr => ?selMax, fun hr => ?peak⟩⟩
  case unanswered =>
    refine ⟨exec_counterLoRead_of_not_reaches h, exec_editionLoRead_of_not_reaches h, exec_rcFieldRead_of_not_reaches h, exec_glbLctrLoRead_of_not_reaches h,
      exec_pegStatSseLoRead_of_not_reaches h, ?_, ?_⟩
    · rintro p fn n rfl hup
      exact State.readZero_of_up hup fn off n
    · rintro n rfl
      rfl
  case counter => exact ⟨_, exec_counterLoRead_of_reaches ha hr hg hlow, rfl, State.latchOf_setLatch_same _ _ _ _⟩
  case region =>
    obtain ⟨hlo, hhi⟩ := lockedHalves (s.regionLocked (s.selOf a (pAtt + 0x110) % 4096)) (s.latest (.region (s.selOf a (pAtt + 0x110) % 4096)))
    exact exec_editionLoRead_of_reaches (g := attPage) ha hr (by decide) (by decide) hlo (congrArg (s.setLatch a (pAtt + 0x11C)) hhi) fun _ => rfl
  case shard =>
    obtain ⟨hlo, hhi⟩ := lockedHalves (s.shardLocked (s.selOf a (pGwe + 0x110) % 4096)) (s.latest (.shard (s.selOf a (pGwe + 0x110) % 4096)))
    exact exec_editionLoRead_of_reaches (g := gwePage) ha hr (by decide) (by decide) hlo (congrArg (s.setLatch a (pGwe + 0x124)) hhi) fun _ => rfl
  case floor =>
    obtain ⟨hlo, hhi⟩ := lockedHalves (s.targetLocked (s.updSel a)) (s.floorOf (s.updSel a))
    exact exec_editionLoRead_of_reaches (g := updPage) ha hr (by decide) (by decide) hlo (congrArg (s.setLatch a (pUpd + 0x110)) hhi) fun _ => rfl
  case vmin => exact ⟨_, exec_rcFieldRead_of_reaches (g := pwrPage) ha hr (by decide) (by decide), rfl⟩
  case selMax => exact exec_rcFieldRead_of_reaches (g := selPage) ha hr (by decide) (by decide)
  case peak => exact ⟨_, exec_rcFieldRead_of_reaches (g := fabPage) ha hr (by decide) (by decide), rfl⟩

end Sys2Proof.Machine
end

section
/-! SUPPORT. Answers to requests over any transport: what they change, what they send and what they count (spec 14 R441, 15 R470 to R472; log entries 83 and 96). -/

namespace Sys2Proof.Machine

open Sys2Proof

/-! ## What an answer changes -/

/-- `t` is `s` but for its counters and what the management interface holds. -/
def Replies (s t : State) : Prop := ∃ c m, t = { s with reg := { s.reg with cnt := c }, mgt := m }

theorem Replies.refl (s : State) : Replies s s := ⟨s.reg.cnt, s.mgt, rfl⟩

theorem Replies.trans {s t u : State} (h : Replies s t) (k : Replies t u) : Replies s u := by
  obtain ⟨c, m, rfl⟩ := h
  obtain ⟨c', m', rfl⟩ := k
  exact ⟨c', m', rfl⟩

section
variable {s t : State} (h : Replies s t)
include h

theorem Replies.cmds : t.cmds = s.cmds := by obtain ⟨c, m, rfl⟩ := h; rfl
theorem Replies.hbm : t.hbm = s.hbm := by obtain ⟨c, m, rfl⟩ := h; rfl
theorem Replies.fte : t.fte = s.fte := by obtain ⟨c, m, rfl⟩ := h; rfl
theorem Replies.sec : t.sec = s.sec := by obtain ⟨c, m, rfl⟩ := h; rfl
theorem Replies.pwr : t.pwr = s.pwr := by obtain ⟨c, m, rfl⟩ := h; rfl
theorem Replies.pending : t.pending = s.pending := by obtain ⟨c, m, rfl⟩ := h; rfl
theorem Replies.pa : t.pa = s.pa := by obtain ⟨c, m, rfl⟩ := h; rfl
theorem Replies.pb : t.pb = s.pb := by obtain ⟨c, m, rfl⟩ := h; rfl
theorem Replies.reg32 (o : Nat) : t.reg32 o = s.reg32 o := by obtain ⟨c, m, rfl⟩ := h; rfl
theorem Replies.confidential (p : Nat) : t.confidential p = s.confidential p := by rw [State.confidential, h.sec, State.confidential]

end

theorem bump_replies (s : State) (o n : Nat) : Replies s (s.bump o n) := ⟨_, s.mgt, rfl⟩

/-! ## A message on its way back (15 MGT_MBOX) -/

section
variable (s : State) (t : Transport) (l : List Byte)

theorem respond_replies : Replies s (s.respond t l) := by
  match t with
  | .mctp => exact ⟨s.reg.cnt, _, rfl⟩
  | .doe _ => exact ⟨s.reg.cnt, _, rfl⟩
  | .mbox .pa => exact ⟨s.reg.cnt, _, rfl⟩
  | .mbox .pb => exact ⟨s.reg.cnt, _, rfl⟩

theorem State.respond_resp : (s.respond t l).mgt.resp = s.mgt.resp ++ [(t, l)] := by
  match t with
  | .mctp => rfl
  | .doe _ => rfl
  | .mbox .pa => rfl
  | .mbox .pb => rfl

theorem State.respond_auth : (s.respond t l).mgt.auth = s.mgt.auth := by
  match t with
  | .mctp => rfl
  | .doe _ => rfl
  | .mbox .pa => rfl
  | .mbox .pb => rfl

theorem State.respond_reg : (s.respond t l).reg = s.reg := by
  match t with
  | .mctp => rfl
  | .doe _ => rfl
  | .mbox .pa => rfl
  | .mbox .pb => rfl

theorem State.counter_respond (i : Nat) : (s.respond t l).counter i = s.counter i := State.counter_congr (s.respond_reg t l) i

end

/-! ## An Ebaety response (15 R471) -/

section
variable (s : State) (t : Transport) (ver cls code seq status : Nat) (d : List Byte)

/-- A response and an error as they are counted. -/
def State.replyCounted : State := if status == 0 then s.bump (pMgt + 0x040) 1 else (s.bump (pMgt + 0x040) 1).bump (pMgt + 0x048) 1

theorem State.ebReply_eq : s.ebReply t ver cls code seq status d = (s.replyCounted status).respond t (ebMsg ver cls code seq status d) := rfl

theorem replyCounted_replies : Replies s (s.replyCounted status) := by
  unfold State.replyCounted
  split
  · exact bump_replies s _ _
  · exact (bump_replies s _ _).trans (bump_replies _ _ _)

theorem State.replyCounted_mgt : (s.replyCounted status).mgt = s.mgt := by
  unfold State.replyCounted
  split <;> rfl

theorem ebReply_replies : Replies s (s.ebReply t ver cls code seq status d) :=
  (replyCounted_replies s status).trans (respond_replies _ t _)

theorem State.ebReply_resp : (s.ebReply t ver cls code seq status d).mgt.resp = s.mgt.resp ++ [(t, ebMsg ver cls code seq status d)] := by
  rw [State.ebReply_eq, State.respond_resp, State.replyCounted_mgt]

theorem State.ebReply_auth : (s.ebReply t ver cls code seq status d).mgt.auth = s.mgt.auth := by
  rw [State.ebReply_eq, State.respond_auth, State.replyCounted_mgt]

theorem State.counter_ebReply_responses : (s.ebReply t ver cls code seq status d).counter (pMgt + 0x040) = (s.counter (pMgt + 0x040) + 1) % 2 ^ 64 := by
  rw [State.ebReply_eq, State.counter_respond, State.replyCounted]
  split
  · exact State.counter_bump_same _ _ _
  · rw [State.counter_bump_ne _ _ _ _ (by decide), State.counter_bump_same]

theorem State.counter_ebReply_errors_of_error {status : Nat} (h : status ≠ 0) :
    (s.ebReply t ver cls code seq status d).counter (pMgt + 0x048) = (s.counter (pMgt + 0x048) + 1) % 2 ^ 64 := by
  rw [State.ebReply_eq, State.counter_respond, State.replyCounted, if_neg (by simpa using h), State.counter_bump_same, State.counter_bump_ne _ _ _ _ (by decide)]

theorem State.counter_ebReply_errors_of_success : (s.ebReply t ver cls code seq 0 d).counter (pMgt + 0x048) = s.counter (pMgt + 0x048) := by
  rw [State.ebReply_eq, State.counter_respond]
  exact State.counter_bump_ne _ _ _ _ (by decide)

theorem State.counter_ebReply {i : Nat} (hresp : i ≠ pMgt + 0x040) (herr : i ≠ pMgt + 0x048) : (s.ebReply t ver cls code seq status d).counter i = s.counter i := by
  rw [State.ebReply_eq, State.counter_respond, State.replyCounted]
  split
  · exact State.counter_bump_ne _ _ _ _ hresp
  · rw [State.counter_bump_ne _ _ _ _ herr, State.counter_bump_ne _ _ _ _ hresp]

end

/-! ## An attestation response (14 R441) -/

section
variable (s : State) (t : Transport) (code seq : Nat) (l : List Byte)

/-- It goes over DOE as it is, or as an Ebaety response. -/
theorem State.attest_cases :
    s.attest t code seq l = s.respond t (leBytes 1 code ++ leBytes 1 seq ++ l) ∨ s.attest t code seq l = s.ebReply t 0x12 0 code seq 0 l := by
  cases t with
  | doe _ => exact .inl rfl
  | mctp => exact .inr rfl
  | mbox _ => exact .inr rfl

theorem attest_replies : Replies s (s.attest t code seq l) := by
  obtain h | h := s.attest_cases t code seq l <;> rw [h]
  · exact respond_replies s _ _
  · exact ebReply_replies s _ _ _ _ _ _ _

theorem State.attest_resp : ∃ m, (s.attest t code seq l).mgt.resp = s.mgt.resp ++ [(t, m)] := by
  obtain h | h := s.attest_cases t code seq l <;> rw [h]
  · exact ⟨_, s.respond_resp _ _⟩
  · exact ⟨_, s.ebReply_resp _ _ _ _ _ _ _⟩

theorem State.counter_attest {i : Nat} (hresp : i ≠ pMgt + 0x040) (herr : i ≠ pMgt + 0x048) : (s.attest t code seq l).counter i = s.counter i := by
  obtain h | h := s.attest_cases t code seq l <;> rw [h]
  · exact s.counter_respond _ _ i
  · exact s.counter_ebReply _ _ _ _ _ _ _ hresp herr

/-- A refusal is counted and goes the same way. -/
theorem State.attestNo_cases (reason : Nat) :
    ∃ m, s.attestNo t code seq reason = (s.bump (pSec + 0x078) 1).respond t m ∨ s.attestNo t code seq reason = (s.bump (pSec + 0x078) 1).ebReply t 0x12 0 code seq 8 m := by
  cases t with
  | doe _ => exact ⟨_, .inl rfl⟩
  | mctp => exact ⟨_, .inr rfl⟩
  | mbox _ => exact ⟨_, .inr rfl⟩

theorem attestNo_replies (reason : Nat) : Replies s (s.attestNo t code seq reason) := by
  obtain ⟨m, h | h⟩ := s.attestNo_cases t code seq reason <;> rw [h]
  · exact (bump_replies s _ 1).trans (respond_replies _ _ _)
  · exact (bump_replies s _ 1).trans (ebReply_replies _ _ _ _ _ _ _ _)

/-- SEC_SESS_ERRS counts a refused attestation message. -/
theorem State.counter_attestNo_refusals (reason : Nat) : (s.attestNo t code seq reason).counter (pSec + 0x078) = (s.counter (pSec + 0x078) + 1) % 2 ^ 64 := by
  obtain ⟨m, h | h⟩ := s.attestNo_cases t code seq reason <;> rw [h]
  · rw [State.counter_respond, State.counter_bump_same]
  · rw [State.counter_ebReply _ _ _ _ _ _ _ _ (by decide) (by decide), State.counter_bump_same]

end

end Sys2Proof.Machine
end

section
/-! SUPPORT. Attestation: requests that are not heard or come too early, information, certificates and reports (spec 14 R441, R442, 15 R472; log entries 83 and 102). -/

namespace Sys2Proof.Machine

open Sys2Proof

/-! ## Whether a request is served (15 R472) -/

section
variable {s : State} {t : Transport} (code seq : Nat) (f : State → State)

theorem State.onAttest_of_not_carries (h : s.carries t = false) : s.onAttest t code seq f = .next s := by
  simp [State.onAttest, h]

theorem State.onAttest_of_early (h : s.carries t = true) (hstage : s.pwr.stage = some 0) : s.onAttest t code seq f = .next (s.ebReply t 0x12 0 code seq 4 []) := by
  simp [State.onAttest, h, hstage]

theorem State.onAttest_of_ready (h : s.carries t = true) {n : Nat} (hstage : s.pwr.stage = some n) (hn : 1 ≤ n) : s.onAttest t code seq f = .next (f s) := by
  simp [State.onAttest, h, hstage, hn]

end

/-! ## The signed part of a report (14 R442) -/

theorem slice_eq_self (l : List Byte) : slice l 0 l.length = l := by
  simp [slice, zeros]

/-- The body carries the nonce between its head and the eight measurements. -/
theorem State.reportBody_around_nonce {s : State} {nonce : List Byte} (h : nonce.length = 32) :
    ∃ a b, s.reportBody nonce = a ++ nonce ++ b ∧ a.length = 64 ∧ b.length = 512 := by
  have hnonce : slice nonce 0 32 = nonce := h ▸ slice_eq_self nonce
  unfold State.reportBody
  rw [hnonce]
  exact ⟨_, _, rfl, length_slice _ 0 64, by simp [List.range_succ]⟩

/-! ## Served requests -/

section
variable {s : State} {t : Transport} {n : Nat} (h : s.carries t = true) (hstage : s.pwr.stage = some n) (hn : 1 ≤ n) (seq : Nat)
include h hstage hn

theorem exec_getInfo_of_ready : ∃ info, exec (.getInfo t seq) s = .next (s.attest t 0x01 seq info) :=
  ⟨_, by rw [exec, execGetInfo, State.onAttest_of_ready _ _ _ h hstage hn]⟩

theorem exec_getCert_of_ready (off len : Nat) :
    exec (.getCert t seq off len) s =
      .next (if len > 1024 then s.attestNo t 0x02 seq 0 else s.attest t 0x02 seq ((s.sec.chain.drop off).take len)) := by
  rw [exec, execGetCert, State.onAttest_of_ready _ _ _ h hstage hn]

theorem exec_getReport_of_nonce {nonce : List Byte} (hnonce : nonce.length = 32) :
    exec (.getReport t seq nonce) s =
      .next ((s.bump (pSec + 0x050) 1).attest t 0x03 seq (s.reportBody nonce ++ slice (Config.falconSign s.sec.seed (s.reportBody nonce)) 0 1280)) := by
  rw [exec, execGetReport, State.onAttest_of_ready _ _ _ h hstage hn, if_neg (by simp [hnonce])]

theorem exec_getReport_of_no_nonce {nonce : List Byte} (hnonce : nonce.length ≠ 32) : exec (.getReport t seq nonce) s = .next (s.attestNo t 0x03 seq 1) := by
  rw [exec, execGetReport, State.onAttest_of_ready _ _ _ h hstage hn, if_pos (by simpa using hnonce)]

end

/-- Settles O54: a request that is carried and not early is answered by `attest` or `attestNo`, which send one message and count. -/
theorem attestationIsAnswered : Obligations.AttestationIsAnswered := by
  unfold Obligations.AttestationIsAnswered
  intro t seq off len nonce s
  refine ⟨fun h => ?unheard, fun h hstage => ?early, fun n h hstage hn => ⟨?info, fun hlen => ?cert, fun hlen => ?longCert, fun hnonce => ?report, fun hnonce => ?noNonce⟩⟩
  case unheard => simp only [exec, execGetInfo, execGetCert, execGetReport, State.onAttest_of_not_carries _ _ _ h, and_self]
  case early => simp only [exec, execGetInfo, execGetCert, execGetReport, State.onAttest_of_early _ _ _ h hstage, and_self]
  case info =>
    obtain ⟨info, hexec⟩ := exec_getInfo_of_ready h hstage hn seq
    have hreply := attest_replies s t 0x01 seq info
    obtain ⟨m, hresp⟩ := s.attest_resp t 0x01 seq info
    exact ⟨_, m, hexec, hresp, hreply.sec, hreply.cmds, hreply.hbm⟩
  case cert => rw [exec_getCert_of_ready h hstage hn, if_neg (Nat.not_lt.2 hlen)]
  case longCert =>
    rw [exec_getCert_of_ready h hstage hn, if_pos hlen]
    exact ⟨_, rfl, (attestNo_replies s t _ _ _).sec, s.counter_attestNo_refusals t _ _ _⟩
  case report =>
    have hexec := exec_getReport_of_nonce h hstage hn seq hnonce
    have hreply := fun l => (bump_replies s (pSec + 0x050) 1).trans (attest_replies _ t 0x03 seq l)
    have hcount := fun l => (State.counter_attest (s.bump (pSec + 0x050) 1) t 0x03 seq l (by decide) (by decide)).trans (State.counter_bump_same s (pSec + 0x050) 1)
    have hbody := State.reportBody_around_nonce (s := s) hnonce
    cases t with
    | doe p => exact ⟨_, _, hexec, State.respond_resp _ _ _, (hreply _).sec, hcount _, fun _ _ => rfl, hbody⟩
    | mctp => exact ⟨_, _, hexec, State.ebReply_resp _ _ _ _ _ _ _ _, (hreply _).sec, hcount _, fun _ => nofun, hbody⟩
    | mbox q => exact ⟨_, _, hexec, State.ebReply_resp _ _ _ _ _ _ _ _, (hreply _).sec, hcount _, fun _ => nofun, hbody⟩
  case noNonce => exact ⟨_, exec_getReport_of_no_nonce h hstage hn seq hnonce, (attestNo_replies s t _ _ _).sec, s.counter_attestNo_refusals t _ _ _⟩

end Sys2Proof.Machine
end

section
/-! SUPPORT. Sessions and confidential mode: opening, keying, messages that open, entry and exit, and requests outside the stream (spec 14 R443, R444, R447, R450; log entries 22, 78 and 103). -/

namespace Sys2Proof.Machine

open Sys2Proof

/-! ## The sessions of a partition -/

/-- A session found is one of its partition, on its port. -/
theorem State.session_spec {s : State} {p : Port} {part : Nat} {x : Session} (h : s.session p part = some x) : x.part = part ∧ x.port = p := by
  have hx := List.find?_some (p := fun x : Session => x.part == part && x.port == p) h
  simpa using hx

/-- A session that replaces the one found is found in its place. -/
theorem State.session_setSession {s : State} {x y : Session} (h : s.session y.port y.part = some x) : (s.setSession y).session y.port y.part = some y := by
  have hkey : ∀ z : Session, ((if z.part == y.part && z.port == y.port then y else z).part == y.part &&
      (if z.part == y.part && z.port == y.port then y else z).port == y.port) = (z.part == y.part && z.port == y.port) := by
    intro z
    split
    · next hz => simp [hz]
    · rfl
  obtain ⟨hpart, hport⟩ := State.session_spec h
  have hfind : (s.sec.sessions.find? fun z : Session => z.part == y.part && z.port == y.port) = some x := h
  simp only [State.session, State.setSession, List.find?_map, Function.comp_def, hkey, hfind, Option.map_some, hpart, hport, BEq.rfl, Bool.and_self, if_true]

/-! ## SESSION_OPEN and SESSION_KEY (14 R443) -/

section
variable {s : State} {p : Port} {n : Nat} (h : s.carries (.doe p) = true) (hstage : s.pwr.stage = some n) (hn : 1 ≤ n) (seq part : Nat)
include h hstage hn

theorem exec_sessionOpen_of_refused (hno : part ≥ 16 ∨ s.owns p part = false ∨ ∃ x ∈ s.sec.sessions, x.part = part) :
    ∃ reason, exec (.sessionOpen p seq part) s = .next (s.attestNo (.doe p) 0x10 seq reason) := by
  rw [exec, execSessionOpen, State.onAttest_of_ready _ _ _ h hstage hn]
  by_cases howns : (decide (part ≥ 16) || !s.owns p part) = true
  · exact ⟨2, by rw [if_pos howns]⟩
  · obtain ⟨hpart, hmine⟩ : part < 16 ∧ s.owns p part = true := by simpa using howns
    have hsession : (s.sec.sessions.any fun x => x.part == part) = true := by simpa [hmine, Nat.not_le.2 hpart] using hno
    exact ⟨3, by rw [if_neg howns, if_pos hsession]⟩

/-- A new session draws the device's half of the key from the next random draw. -/
theorem exec_sessionOpen_of_accepted (hpart : part < 16) (howns : s.owns p part = true) (hnone : ∀ x ∈ s.sec.sessions, x.part ≠ part) :
    ∃ (x : Session) (out : List Byte), x.part = part ∧ x.port = p ∧ x.keyed = false ∧ x.seq = seq ∧
      exec (.sessionOpen p seq part) s =
        .next (({ s with sec := { s.sec with sessions := s.sec.sessions ++ [x], draws := s.sec.draws + 1 } } : State).bump (pSec + 0x058) 1 |>.attest (.doe p) 0x10 seq out) := by
  have hopen : ¬(decide (part ≥ 16) || !s.owns p part) = true := by simp [howns, hpart]
  have hnosession : ¬(s.sec.sessions.any fun x => x.part == part) = true := by simpa using hnone
  rw [exec, execSessionOpen, State.onAttest_of_ready _ _ _ h hstage hn, if_neg hopen, if_neg hnosession]
  exact ⟨{ part := part, port := p, priv := _, key := [], keyed := false, seq := seq, opening := _ }, _, rfl, rfl, rfl, rfl, rfl⟩

theorem exec_sessionKey_of_refused {ct : List Byte} (hno : s.session p part = none ∨ (∃ x, s.session p part = some x ∧ x.keyed = true) ∨ ct.length ≠ 1568) :
    ∃ reason, exec (.sessionKey p seq part ct) s = .next (s.attestNo (.doe p) 0x11 seq reason) := by
  rw [exec, execSessionKey, State.onAttest_of_ready _ _ _ h hstage hn]
  cases hx : s.session p part with
  | none => exact ⟨4, rfl⟩
  | some x =>
    have hbad : (x.keyed || ct.length != 1568) = true := by simpa [hx] using hno
    exact ⟨5, by simp only [hbad, if_true]⟩

theorem exec_sessionKey_of_accepted {ct : List Byte} {x : Session} (hx : s.session p part = some x) (hkeyed : x.keyed = false) (hct : ct.length = 1568) :
    ∃ key, exec (.sessionKey p seq part ct) s = .next ((s.setSession { x with key := key, keyed := true, seq := seq }).attest (.doe p) 0x11 seq []) := by
  have hgood : ¬(x.keyed || ct.length != 1568) = true := by simp [hkeyed, hct]
  rw [exec, execSessionKey, State.onAttest_of_ready _ _ _ h hstage hn]
  simp only [hx]
  rw [if_neg hgood]
  exact ⟨_, rfl⟩

/-! ## Messages of a session (log entry 78) -/

variable (code : Nat) (msg : List Byte) (f : List Byte → State → State)

theorem State.inSession_of_closed (hno : s.opens p part seq msg = none) :
    s.inSession p code seq part msg f = .next ((s.raise pSec 6).attestNo (.doe p) code seq 6) := by
  rw [State.inSession, State.onAttest_of_ready _ _ _ h hstage hn]
  simp only [hno]

theorem State.inSession_of_opens {d : List Byte} {u : State} (ho : s.opens p part seq msg = some (d, u)) :
    s.inSession p code seq part msg f = .next (f d u) := by
  rw [State.inSession, State.onAttest_of_ready _ _ _ h hstage hn]
  simp only [ho]

end

/-- `u` is `s` but for its sessions. -/
def SessionsOnly (s u : State) : Prop := ∃ l, u = { s with sec := { s.sec with sessions := l } }

section
variable {s u : State} (h : SessionsOnly s u)
include h

theorem SessionsOnly.cmds : u.cmds = s.cmds := by obtain ⟨l, rfl⟩ := h; rfl
theorem SessionsOnly.hbm : u.hbm = s.hbm := by obtain ⟨l, rfl⟩ := h; rfl
theorem SessionsOnly.fte : u.fte = s.fte := by obtain ⟨l, rfl⟩ := h; rfl
theorem SessionsOnly.ide : u.sec.ide = s.sec.ide := by obtain ⟨l, rfl⟩ := h; rfl
theorem SessionsOnly.confidential (q : Nat) : u.confidential q = s.confidential q := by obtain ⟨l, rfl⟩ := h; rfl

end

/-- A message that opens moves only the session's sequence number. -/
theorem State.opens_sessionsOnly {s u : State} {p : Port} {part seq : Nat} {msg d : List Byte} (h : s.opens p part seq msg = some (d, u)) : SessionsOnly s u := by
  unfold State.opens at h
  split at h
  · cases h
  · split at h
    · cases h
    · obtain ⟨_, -, hu⟩ := Option.map_eq_some_iff.1 h
      exact ⟨_, (Prod.mk.inj hu).2.symm⟩

/-- A message that does not open is refused with SEC_ERR.SESS and does nothing (14 R443). -/
theorem State.refused_message (s : State) (p : Port) (code seq : Nat) :
    let t := (s.raise pSec 6).attestNo (.doe p) code seq 6
    t.sec = s.sec ∧ t.fte = s.fte ∧ t.hbm = s.hbm ∧ bitOf (t.reg32 (pSec + 0x018)) 6 = true := by
  intro t
  have hreply : Replies (s.raise pSec 6) t := attestNo_replies _ _ _ _ _
  obtain ⟨r, a, b, hraise⟩ := raise_reports s pSec 6
  refine ⟨?_, ?_, ?_, ?_⟩
  · rw [hreply.sec, hraise]
  · rw [hreply.fte, hraise]
  · rw [hreply.hbm, hraise]
  · rw [hreply.reg32]
    exact State.bitOf_err_raiseAt (base := pSec) (bit := 6) s noAttr rfl (by decide)

/-! ## Confidential mode (14 R444, R450) -/

/-- What entry leaves of a partition: no page in its window, no count of writes, its bit in the mask. -/
theorem State.enterConf_spec (s : State) (p : Nat) :
    (s.enterConf p).sec.conf = setBit s.sec.conf p true ∧ (s.enterConf p).sec.ctr = tdel s.sec.ctr p ∧ (s.enterConf p).fte.map = (s.trimWindow p).fte.map ∧
      (s.enterConf p).cmds = s.cmds := ⟨rfl, rfl, rfl, rfl⟩

theorem State.exitConf_spec (s : State) (p : Nat) :
    (s.exitConf p).sec.conf = setBit s.sec.conf p false ∧ (s.exitConf p).sec.buf = tdel s.sec.buf p ∧ (s.exitConf p).sec.nonce = tdel s.sec.nonce p ∧
      (s.exitConf p).cmds = s.cmds := ⟨rfl, rfl, rfl, rfl⟩

theorem State.not_mem_trimWindow (s : State) (p : Nat) :
    ∀ e ∈ (s.trimWindow p).fte.map, ¬(tgetD s.fte.base p 0 * 65536 ≤ e.1 ∧ e.1 < tgetD s.fte.base p 0 * 65536 + tgetD s.fte.len p 0 * 65536) := by
  intro e he hin
  have hkept := (List.mem_filter.1 he).2
  simp [hin] at hkept

/-- A mask with one bit set anew: who is confidential then. -/
theorem State.confidential_of_setBit {s t : State} {p : Nat} {b : Bool} (h : t.sec.conf = setBit s.sec.conf p b) :
    t.confidential p = b ∧ ∀ q, q ≠ p → t.confidential q = s.confidential q := by
  simp only [State.confidential, h]
  exact ⟨bitOf_setBit_same _ _ _, fun q hq => bitOf_setBit_ne _ _ hq⟩

/-! ## A request outside its stream (14 R447) -/

theorem exec_ideDrop_of_open {s : State} {part : Nat} (h : s.confidential part = false) (p : Port) (posted : Bool) : exec (.ideDrop p part posted) s = .next s := by
  simp [exec, execIdeDrop, h]

/-- The drop counted and reported. -/
def State.ideDropped (s : State) (part : Nat) : State := (s.bump (pSec + 0x068) 1).raiseAt pSec 4 (partAttr part)

theorem exec_ideDrop_of_confidential {s : State} {part : Nat} (h : s.confidential part = true) (p : Port) (posted : Bool) :
    exec (.ideDrop p part posted) s = .next (if posted then s.ideDropped part else (s.ideDropped part).emit p (.unsupported part)) := by
  simp only [exec, execIdeDrop, h, Bool.not_true, Bool.false_eq_true, if_false, State.ideDropped]

theorem ideDropped_reports (s : State) (part : Nat) : Reports s (s.ideDropped part) := (bump_reports s _ 1).trans (raiseAt_reports _ pSec 4 _)

theorem State.counter_ideDropped (s : State) (part : Nat) : (s.ideDropped part).counter (pSec + 0x068) = (s.counter (pSec + 0x068) + 1) % 2 ^ 64 := by
  rw [State.ideDropped, State.counter_raiseAt _ _ _ _ (by decide), State.counter_bump_same]

theorem State.err_ideDropped (s : State) (part : Nat) : bitOf ((s.ideDropped part).reg32 (pSec + 0x018)) 4 = true :=
  State.bitOf_err_raiseAt (base := pSec) (bit := 4) _ (partAttr part) rfl (by decide)

theorem Reports.sec {s t : State} (h : Reports s t) : t.sec = s.sec := by
  obtain ⟨r, a, b, rfl⟩ := h
  rfl

/-- Settles O55: a request over DOE that is not early comes down to the row's own work; what a message of a session does starts from the state that `opens` leaves, which differs in the sessions alone. -/
theorem sessionsGuardConfidentialMode : Obligations.SessionsGuardConfidentialMode := by
  unfold Obligations.SessionsGuardConfidentialMode
  intro p seq part n msg s h hstage hn
  refine ⟨fun hno => ?openRefused, fun hpart howns hnone => ?opened, fun ct hno => ?keyRefused, fun ct x hx hkeyed hct => ?keyed, fun hno => ?closed,
    fun d u ho => ?opens, fun posted => ⟨fun hconf => exec_ideDrop_of_open hconf p posted, fun hconf => ?dropped⟩⟩
  case openRefused =>
    obtain ⟨reason, hexec⟩ := exec_sessionOpen_of_refused h hstage hn seq part hno
    exact ⟨_, hexec, (attestNo_replies s _ _ _ _).sec, s.counter_attestNo_refusals _ _ _ _⟩
  case opened =>
    obtain ⟨x, out, hxpart, hxport, hxkeyed, hxseq, hexec⟩ := exec_sessionOpen_of_accepted h hstage hn seq part hpart howns hnone
    refine ⟨_, x, hexec, (attest_replies _ _ _ _ _).sec, hxpart, hxport, hxkeyed, hxseq, ?_⟩
    rw [State.counter_attest _ _ _ _ _ (by decide) (by decide), State.counter_bump_same]
    rfl
  case keyRefused =>
    obtain ⟨reason, hexec⟩ := exec_sessionKey_of_refused h hstage hn seq part hno
    exact ⟨_, hexec, (attestNo_replies s _ _ _ _).sec⟩
  case keyed =>
    obtain ⟨key, hexec⟩ := exec_sessionKey_of_accepted h hstage hn seq part hx hkeyed hct
    have hsec := (attest_replies (s.setSession { x with key := key, keyed := true, seq := seq }) (.doe p) 0x11 seq []).sec
    refine ⟨_, { x with key := key, keyed := true, seq := seq }, hexec, ?_, rfl, rfl, rfl, ?_⟩
    · rw [State.session, hsec]
      obtain ⟨rfl, rfl⟩ := State.session_spec hx
      exact State.session_setSession (y := { x with key := key, keyed := true, seq := seq }) hx
    · rw [hsec]
      rfl
  case closed =>
    have hrefused := fun (c : Instr) (code : Nat) (f : List Byte → State → State) (hc : exec c s = s.inSession p code seq part msg f) =>
      (⟨_, hc.trans (State.inSession_of_closed h hstage hn seq part code msg f hno), s.refused_message p code seq⟩ :
        ∃ t, exec c s = .next t ∧ t.sec = s.sec ∧ t.fte = s.fte ∧ t.hbm = s.hbm ∧ bitOf (t.reg32 (pSec + 0x018)) 6 = true)
    simp only [List.forall_mem_cons, List.not_mem_nil, false_implies, implies_true, and_true]
    exact ⟨hrefused _ _ _ rfl, hrefused _ _ _ rfl, hrefused _ _ _ rfl, hrefused _ _ _ rfl⟩
  case opens =>
    have hu := State.opens_sessionsOnly ho
    have hserved := fun (code : Nat) (f : List Byte → State → State) => State.inSession_of_opens h hstage hn seq part code msg f ho
    have hreply := fun (v : State) (code : Nat) => attest_replies v (.doe p) code seq []
    refine ⟨⟨_, hserved _ _, ?_, ?_⟩, ⟨_, hserved _ _, ?_, ?_, ?_⟩, fun hmay => ⟨_, (hserved _ _).trans (congrArg _ (if_neg (Bool.eq_false_iff.1 hmay))), ?_⟩,
      fun hmay _ => ⟨_, (hserved _ _).trans (congrArg _ (if_pos hmay)), ?_⟩, fun hopen => ?_, fun hconf hidle => ?_⟩
    · rw [(hreply _ _).sec, ← hu.ide]
    · rw [(hreply _ _).cmds, ← hu.cmds]
    · rw [(hreply _ _).sec]
      exact u.no_session_endSession p part
    · rw [(hreply _ _).sec]
      exact tget_tdel_same _ _
    · rw [(hreply _ _).cmds, State.endSession_cmds, hu.cmds]
    · have hno := attestNo_replies u (.doe p) 0x13 seq 7
      exact ⟨hno.sec, hno.hbm.trans hu.hbm, hno.fte.trans hu.fte⟩
    · have hr := hreply (u.enterConf part) 0x13
      obtain ⟨hmask, hctr, hmap, hcmds⟩ := u.enterConf_spec part
      obtain ⟨hin, hothers⟩ := State.confidential_of_setBit hmask
      refine ⟨(hr.confidential part).trans hin, fun q hq => ?_, ?_, ?_, ?_⟩
      · rw [hr.confidential, hothers q hq, hu.confidential]
      · rw [hr.fte, hmap, ← hu.fte]
        exact u.not_mem_trimWindow part
      · rw [hr.sec, hctr, tget_tdel_same]
      · rw [hr.cmds, hcmds, hu.cmds]
    · have hno := attestNo_replies u (.doe p) 0x13 seq 8
      have hstays : ¬(u.confidential part && u.partIdle part) = true := by simp [hopen]
      exact ⟨_, (hserved _ _).trans (congrArg _ (if_neg hstays)), hno.sec, hno.hbm.trans hu.hbm⟩
    · have hr := hreply (u.exitConf part) 0x13
      obtain ⟨hmask, hbuf, hnonce, hcmds⟩ := u.exitConf_spec part
      obtain ⟨hout, hothers⟩ := State.confidential_of_setBit hmask
      have hleaves : (u.confidential part && u.partIdle part) = true := by simp [hconf, hidle]
      refine ⟨_, (hserved _ _).trans (congrArg _ (if_pos hleaves)), (hr.confidential part).trans hout, fun q hq => ?_, ?_, ?_, ?_⟩
      · rw [hr.confidential, hothers q hq, hu.confidential]
      · rw [hr.sec, hbuf, tget_tdel_same]
      · rw [hr.sec, hnonce, tget_tdel_same]
      · rw [hr.cmds, hcmds, hu.cmds]
  case dropped =>
    have hdrop := ideDropped_reports s part
    have hcount := s.counter_ideDropped part
    have herr := s.err_ideDropped part
    refine ⟨_, exec_ideDrop_of_confidential hconf p posted, ?_⟩
    cases posted with
    | true => exact ⟨hcount, herr, hdrop.hbm, hdrop.cmds, hdrop.sec⟩
    | false =>
      have hsent := hdrop.trans (emit_reports _ p (.unsupported part))
      have hreg : ((s.ideDropped part).emit p (.unsupported part)).reg = (s.ideDropped part).reg := State.emit_reg _ p _
      refine ⟨(State.counter_congr hreg _).trans hcount, ?_, hsent.hbm, hsent.cmds, hsent.sec⟩
      rw [State.reg32, if_neg Bool.false_ne_true, hreg]
      exact herr

end Sys2Proof.Machine
end

section
/-! SUPPORT. The management interface: Ebaety requests as they are checked and served, RESET, and MCTP control messages (spec 15 R459, R470 to R476, 16 R501; log entries 83, 96 and 207). -/

namespace Sys2Proof.Machine

open Sys2Proof

/-! ## MCTP control messages (15 R470) -/

theorem State.onControl_of_off {s : State} (h : s.pwr.stage = none) (f : State → State) : s.onControl f = .next s := by
  simp [State.onControl, h]

theorem State.onControl_of_on {s : State} (h : s.pwr.stage ≠ none) (f : State → State) : s.onControl f = .next (f s) := by
  simp [State.onControl, Option.isSome_iff_ne_none.2 h]

/-- Settles O57: a control message comes down to its answer, which is appended to what the management interface has sent. -/
theorem mctpControlMessagesAreAnswered : Obligations.MctpControlMessagesAreAnswered := by
  unfold Obligations.MctpControlMessagesAreAnswered
  refine fun x s => ⟨fun hoff => ?_, fun hon => ⟨?_, ?_, ?_, ?_, ?_, ?_⟩⟩
  · simp only [List.forall_mem_cons, List.not_mem_nil, false_implies, implies_true, and_true, exec, execSetEndpointId, execGetEndpointId, execGetMctpVersionSupport,
      execGetMessageTypeSupport, execGetVendorDefinedMsgSupport, execDynamicAddressAssign, State.onControl_of_off hoff]
  · exact ⟨_, _, by rw [exec, execSetEndpointId, State.onControl_of_on hon], rfl, rfl⟩
  · exact ⟨_, by rw [exec, execGetEndpointId, State.onControl_of_on hon], rfl, rfl⟩
  · exact ⟨_, _, by rw [exec, execGetMctpVersionSupport, State.onControl_of_on hon], rfl, rfl⟩
  · exact ⟨_, by rw [exec, execGetMessageTypeSupport, State.onControl_of_on hon], rfl, rfl⟩
  · exact ⟨_, _, by rw [exec, execGetVendorDefinedMsgSupport, State.onControl_of_on hon], rfl, rfl⟩
  · exact ⟨_, by rw [exec, execDynamicAddressAssign, State.onControl_of_on hon], rfl⟩

/-! ## How Ebaety requests are checked (15 R472) -/

section
variable {s : State} {t : Transport} {ver : Nat} (cls code seq : Nat) {since stage : Nat} (f : State → Nat × List Byte × State)

theorem State.onEb_of_unheard (h : s.hearsEb t = false) : s.onEb t ver cls code seq since stage f = .next s := by
  simp [State.onEb, h]

theorem State.onEb_of_version (h : s.hearsEb t = true) (hver : ebVersion ver = false) :
    s.onEb t ver cls code seq since stage f = .next (s.ebReply t ver cls code seq 1 [0x10, 0x12]) := by
  simp [State.onEb, h, hver]

theorem State.onEb_of_later (h : s.hearsEb t = true) (hver : ebVersion ver = true) (hsince : ver < since) :
    s.onEb t ver cls code seq since stage f = .next (s.ebReply t ver cls code seq 2 []) := by
  simp [State.onEb, h, hver, hsince]

theorem State.onEb_of_early (h : s.hearsEb t = true) (hver : ebVersion ver = true) (hsince : ver ≥ since) (hstage : s.fromStage stage = false) :
    s.onEb t ver cls code seq since stage f = .next (s.ebReply t ver cls code seq 4 []) := by
  simp [State.onEb, h, hver, Nat.not_lt.2 hsince, hstage]

theorem State.onEb_of_serves (h : s.ebServes t ver since stage = true) :
    s.onEb t ver cls code seq since stage f = .next ((f s).2.2.ebReply t ver cls code seq (f s).1 (f s).2.1) := by
  simp only [State.ebServes, Bool.and_eq_true, decide_eq_true_iff] at h
  obtain ⟨⟨⟨hhears, hver⟩, hsince⟩, hstage⟩ := h
  simp [State.onEb, hhears, hver, Nat.not_lt.2 hsince, hstage]

end

/-- Each row but RESET is `onEb` with its class, code, first version and stage. -/
theorem exec_ebRow {x : Nat → Nat} {on : Bool} {port : Port} {row : (Transport → Nat → Nat → Instr) × Nat × Nat × Nat × Nat} (h : row ∈ ebRows x on port)
    (t : Transport) (ver seq : Nat) (s : State) :
    ∃ f, exec (row.1 t ver seq) s = s.onEb t ver row.2.1 row.2.2.1 seq row.2.2.2.1 row.2.2.2.2 f := by
  simp only [ebRows, List.mem_cons, List.not_mem_nil, or_false] at h
  obtain rfl | rfl | rfl | rfl | rfl | rfl | rfl | rfl | rfl | rfl := h
  · exact ⟨_, by rw [exec, execGetVersion]⟩
  · exact ⟨_, by rw [exec, execGetStatus]⟩
  · exact ⟨_, by rw [exec, execReadReg]⟩
  · exact ⟨_, by rw [exec, execWriteReg]⟩
  · exact ⟨_, by rw [exec, execSetLimits]⟩
  · exact ⟨_, by rw [exec, execPdControl]⟩
  · exact ⟨_, by rw [exec, execTakeoverAuth]⟩
  · exact ⟨_, by rw [exec, execGetSensors]⟩
  · exact ⟨_, by rw [exec, execGetEvents]⟩
  · exact ⟨_, by rw [exec, execGetCounters]⟩

/-! ## RESET (15 R459) -/

theorem exec_reset_of_unheard {s : State} {t : Transport} (h : s.hearsEb t = false) (ver seq : Nat) : exec (.reset t ver seq) s = .next s := by
  simp only [exec, execReset, h, Bool.false_and, Bool.false_eq_true, if_false, State.onEb_of_unheard _ _ _ _ h]

theorem exec_reset_of_heard {s : State} {t : Transport} {ver : Nat} (h : s.hearsEb t = true) (hver : ebVersion ver = true) (seq : Nat) :
    exec (.reset t ver seq) s = .next (s.ebReply t ver 1 4 seq 0 []).restartCore := by
  simp only [exec, execReset, h, hver, Bool.and_self, if_true]

/-- The flush of a management RESET is counted and not logged (log entry 98). -/
theorem State.startFlush_of_reset {s : State} (h : s.Flushable) : s.startFlush 4 = ({ s with pwr := s.pwr.flushing 4 } : State).bump (pPwr + 0x050) 1 := by
  have hgo : ¬(s.pwr.flush.isSome || s.pwr.waitRestart || !s.pwr.good) = true := by simp [h.noFlush, h.noWait, h.good]
  have hstreams : (({ s with pwr := s.pwr.flushing 4 } : State).bump (pPwr + 0x050) 1).hasStreams = true := h.streams
  unfold State.startFlush
  rw [if_neg hgo]
  exact if_pos hstreams

section
variable {s : State} (hflush : s.pwr.flush = none) (hwait : s.pwr.waitRestart = false)
include hflush hwait

theorem State.restartCore_of_streams (hgood : s.pwr.good = true) (hstage : s.fromStage 3 = true) :
    s.restartCore = ({ s with pwr := s.pwr.flushing 4 } : State).bump (pPwr + 0x050) 1 := by
  have hs : s.Flushable := ⟨hflush, hwait, hgood, hstage⟩
  have hgo : ¬(s.pwr.flush.isSome || s.pwr.waitRestart) = true := by simp [hflush, hwait]
  rw [State.restartCore, if_neg hgo, if_pos hstage, State.startFlush_of_reset hs]

theorem State.restartCore_of_early (hstage : s.fromStage 3 = false) : s.restartCore = s.mainOff.startAgain := by
  have hgo : ¬(s.pwr.flush.isSome || s.pwr.waitRestart) = true := by simp [hflush, hwait]
  rw [State.restartCore, if_neg hgo, if_neg (Bool.eq_false_iff.1 hstage)]

end

theorem State.mainOff_startAgain_pending (s : State) : s.mainOff.startAgain.pending = s.pending :=
  (State.startAgain_keeps (State.mainOff_keeps (.refl s))).queue

theorem State.mainOff_cmds (s : State) : s.mainOff.cmds = [] := rfl

/-! ## Limits (15 R474) -/

/-- Limits in range fit their fields. -/
theorem limits_fit {cap peak throttle trip : Nat} (h : limitsOk cap peak throttle trip = true) :
    peak * 2 ^ 16 + cap < 2 ^ 32 ∧ trip * 2 ^ 8 + throttle < 2 ^ 32 := by
  simp only [limitsOk, Bool.and_eq_true, decide_eq_true_iff] at h
  omega

/-- PWR_CAP and PWR_THERM take limits as a whole. -/
def State.limited (s : State) (cap peak throttle trip : Nat) : State :=
  (s.setReg32 (pPwr + 0x118) (peak * 2 ^ 16 + cap)).setReg32 (pPwr + 0x110) (trip * 2 ^ 8 + throttle)

theorem State.reg32_limited {cap peak throttle trip : Nat} (s : State) (h : limitsOk cap peak throttle trip = true) :
    (s.limited cap peak throttle trip).reg32 (pPwr + 0x118) = peak * 2 ^ 16 + cap ∧
      (s.limited cap peak throttle trip).reg32 (pPwr + 0x110) = trip * 2 ^ 8 + throttle := by
  obtain ⟨hcap, htherm⟩ := limits_fit h
  refine ⟨?_, ?_⟩
  · rw [State.limited, State.reg32_setReg32_ne _ _ _ _ (by decide), State.reg32_setReg32_same, Nat.mod_eq_of_lt hcap]
  · rw [State.limited, State.reg32_setReg32_same, Nat.mod_eq_of_lt htherm]

/-! ## Served requests -/

/-- A count from 1 to 8, as it is checked and as it is said. -/
theorem not_oneToEight_iff (n : Nat) : (n == 0 || decide (n > 8)) = true ↔ n = 0 ∨ n > 8 := by simp

/-- Telemetry is answered while its domain is on. -/
theorem State.telemetry_eq (s : State) (f : State → Nat × List Byte × State) : s.telemetry f = if s.powered 29 = false then (7, [], s) else f s := by
  rw [State.telemetry]
  cases s.powered 29 <;> rfl

theorem exec_readReg_of_serves {s : State} {t : Transport} {ver : Nat} (h : s.ebServes t ver 0x10 1 = true) (seq off n : Nat) :
    exec (.readReg t ver seq off n) s = .next (
      if n = 0 ∨ n > 16 then s.ebReply t ver 1 2 seq 8 []
      else if off % 4 ≠ 0 then s.badAccess.ebReply t ver 1 2 seq 0 (zeros (4 * n))
      else (s.regReads (agentOf t) off n).2.ebReply t ver 1 2 seq 0 ((s.regReads (agentOf t) off n).1.map (leBytes 4)).flatten) := by
  rw [exec, execReadReg, State.onEb_of_serves _ _ _ _ h]
  by_cases hn : n = 0 ∨ n > 16
  · have hbad : (n == 0 || decide (n > 16)) = true := by simpa using hn
    simp only [hbad, hn, if_true]
  · have hgood : (n == 0 || decide (n > 16)) = false := by simpa using hn
    by_cases hoff : off % 4 = 0 <;> simp [hgood, hn, hoff]

theorem exec_writeReg_of_serves {s : State} {t : Transport} {ver : Nat} (h : s.ebServes t ver 0x10 1 = true) (seq off v mask : Nat) :
    exec (.writeReg t ver seq off v mask) s = .next (
      if off % 4 ≠ 0 then s.badAccess.ebReply t ver 1 3 seq 0 []
      else if mask % 2 ^ 32 = 0 then s.ebReply t ver 1 3 seq 0 []
      else
        let u := s.regWrite (agentOf t) off (s.maskedValue (agentOf t) off v mask)
        u.ebReply t ver 1 3 seq (if u.rwlDrops = s.rwlDrops then 0 else 6) []) := by
  rw [exec, execWriteReg, State.onEb_of_serves _ _ _ _ h]
  by_cases hoff : off % 4 = 0
  · by_cases hmask : mask % 2 ^ 32 = 0 <;>
      simp only [hoff, hmask, bne_iff_ne, ne_eq, not_true_eq_false, if_true, if_false, beq_iff_eq]
  · simp [hoff]

/-- Settles O56: the rows but RESET are one check and their own answer; RESET answers and then flushes, or restarts at once before stage 3. -/
theorem managementRequestsAreServed : Obligations.ManagementRequestsAreServed := by
  unfold Obligations.ManagementRequestsAreServed
  refine ⟨⟨fun x on port row hrow t ver seq s => ?checked, fun t ver seq s => ⟨fun h => exec_reset_of_unheard h ver seq, fun h hver hgood hflush hwait => ?reset⟩,
    fun t ver cls code seq status d s => ?reply⟩, fun t ver seq s => ⟨fun h => ?always, fun h => ?registers, fun h d on => ?domains⟩⟩
  case checked =>
    obtain ⟨f, hexec⟩ := exec_ebRow hrow t ver seq s
    rw [hexec]
    exact ⟨State.onEb_of_unheard _ _ _ _, State.onEb_of_version _ _ _ _, State.onEb_of_later _ _ _ _, State.onEb_of_early _ _ _ _⟩
  case reset =>
    have hreply := ebReply_replies s t ver 1 4 seq 0 []
    have hexec := exec_reset_of_heard h hver seq
    have hfrom : (s.ebReply t ver 1 4 seq 0 []).fromStage 3 = s.fromStage 3 := by rw [State.fromStage, hreply.pwr, State.fromStage]
    rw [← hreply.pwr] at hgood hflush hwait
    refine ⟨fun hstage => ?_, fun hstage => ?_⟩
    · rw [State.restartCore_of_streams hflush hwait hgood (hfrom.trans hstage)] at hexec
      exact ⟨_, hexec, by rw [← hreply.pwr]; rfl, hreply.cmds, hreply.hbm⟩
    · rw [State.restartCore_of_early hflush hwait (hfrom.trans hstage)] at hexec
      have hagain := State.startAgain_restarts (s.ebReply t ver 1 4 seq 0 []).mainOff
      exact ⟨_, hexec, by rw [hagain.pwr]; rfl, hagain.cmds.trans (State.mainOff_cmds _), (State.mainOff_startAgain_pending _).trans hreply.pending⟩
  case reply =>
    have hreply := ebReply_replies s t ver cls code seq status d
    refine ⟨_, rfl, s.ebReply_resp _ _ _ _ _ _ _, s.counter_ebReply_responses _ _ _ _ _ _ _, s.counter_ebReply_errors_of_error _ _ _ _ _ _, ?_, hreply.cmds, hreply.hbm,
      hreply.sec, hreply.pwr⟩
    rintro rfl
    exact s.counter_ebReply_errors_of_success _ _ _ _ _ _
  case always =>
    have hserved := fun (cls code : Nat) (f : State → Nat × List Byte × State) => State.onEb_of_serves cls code seq f h
    refine ⟨by rw [exec, execGetVersion, hserved], by rw [exec, execGetStatus, hserved], fun cap peak throttle trip hno => ?_, fun cap peak throttle trip hok => ?_, ?_, fun first n => ?_⟩
    · rw [exec, execSetLimits, hserved, if_neg (Bool.eq_false_iff.1 hno)]
    · have hexec : exec (.setLimits t ver seq cap peak throttle trip) s = .next ((s.limited cap peak throttle trip).ebReply t ver 1 5 seq 0 []) := by
        rw [exec, execSetLimits, hserved, if_pos hok, State.limited]
      have hreply := ebReply_replies (s.limited cap peak throttle trip) t ver 1 5 seq 0 []
      obtain ⟨hcap, htherm⟩ := s.reg32_limited hok
      exact ⟨_, hexec, (hreply.reg32 _).trans hcap, (hreply.reg32 _).trans htherm, hreply.cmds, hreply.pwr⟩
    · rw [exec, execGetSensors, hserved, State.telemetry_eq]
      cases s.powered 29 <;> rfl
    · rw [exec, execGetEvents, hserved, State.telemetry_eq]
      cases s.powered 29
      · rfl
      · simp only [Bool.true_eq_false, if_false, not_oneToEight_iff]
        split <;> rfl
  case registers =>
    have hserved := fun (cls code : Nat) (f : State → Nat × List Byte × State) => State.onEb_of_serves cls code seq f h
    refine ⟨fun off n hn => ?_, fun off n h1 h16 hoff => ?_, fun off v mask hoff hmask => ?_, fun off v hoff => ?_, fun off n v mask hoff h1 h16 => ⟨?_, ?_⟩, fun page first n => ?_⟩
    · rw [exec_readReg_of_serves h, if_pos hn]
    · rw [exec_readReg_of_serves h, if_neg (by omega), if_neg (by omega)]
    · rw [exec_writeReg_of_serves h, if_neg (by omega), if_pos hmask]
    · rw [exec_writeReg_of_serves h, if_neg (by omega), if_neg (by decide)]
    · rw [exec_readReg_of_serves h, if_neg (by omega), if_pos hoff]
    · rw [exec_writeReg_of_serves h, if_pos hoff]
    · rw [exec, execGetCounters, hserved, State.telemetry_eq]
      cases s.powered 29
      · rfl
      · simp only [Bool.true_eq_false, if_false, not_oneToEight_iff]
        split <;> rfl
  case domains => rw [exec, execPdControl, State.onEb_of_serves _ _ _ _ h]

end Sys2Proof.Machine
end

section
/-! SUPPORT. TAKEOVER_AUTH, and the forced take it authorises: whatever work the take ends, no port learns meanwhile that its peer is down (spec 15 R475, 09 R318, R319). -/

namespace Sys2Proof.Machine

open Sys2Proof

/-! ## What reports and messages leave of the ports -/

/-- No port has learned whether its peer is down. -/
def Peers (s t : State) : Prop := ∀ q, (t.port q).peerDown = (s.port q).peerDown

theorem Peers.refl (s : State) : Peers s s := fun _ => rfl

theorem Peers.trans {s t u : State} (h : Peers s t) (k : Peers t u) : Peers s u := fun q => (k q).trans (h q)

theorem Peers.of_ports {s t : State} (ha : t.pa = s.pa) (hb : t.pb = s.pb) : Peers s t := fun q => by
  cases q
  · exact congrArg PortSt.peerDown ha
  · exact congrArg PortSt.peerDown hb

theorem Peers.foldl {α : Type} {f : State → α → State} (h : ∀ s x, Peers s (f s x)) (l : List α) (s : State) : Peers s (l.foldl f s) :=
  List.foldlRecOn (motive := Peers s) l f (.refl s) fun t ht x _ => ht.trans (h t x)

theorem modPort_peers (s : State) (p : Port) {f : PortSt → PortSt} (hf : ∀ x, (f x).peerDown = x.peerDown) : Peers s (s.modPort p f) := fun q => by
  by_cases hq : q = p
  · subst hq
    rw [State.port_modPort_same, hf]
  · rw [State.port_modPort_ne s hq]

theorem bump_peers (s : State) (o n : Nat) : Peers s (s.bump o n) := .of_ports rfl rfl

theorem setReg32_peers (s : State) (o v : Nat) : Peers s (s.setReg32 o v) := .of_ports rfl rfl

theorem setRing_peers (s : State) (p : Port) (c : Nat) (r : Ring) : Peers s (s.setRing p c r) := .of_ports rfl rfl

theorem fab_peers (s : State) (x : FabSt) : Peers s { s with fab := x } := .of_ports rfl rfl

theorem modCmd_peers (s : State) (id : Nat) (f : Cmd → Cmd) : Peers s (s.modCmd id f) := .of_ports rfl rfl

theorem bumps_peers (s : State) (l : List (Nat × Nat)) : Peers s (s.bumps l) :=
  .foldl (fun t x => by
    split
    · exact .refl t
    · exact bump_peers t _ _) l s

theorem emit_peers (s : State) (p : Port) (m : HostMsg) : Peers s (s.emit p m) := modPort_peers s p fun _ => rfl

theorem sendMsix_peers (s : State) (p : Port) (fn v : Nat) : Peers s (s.sendMsix p fn v) := by
  unfold State.sendMsix
  dsimp only
  split
  · exact .refl s
  · split
    · exact modPort_peers s p fun _ => rfl
    · exact (emit_peers s p _).trans (bump_peers _ _ _)

theorem logEvent_peers (s : State) (base code sev : Nat) (a : Attr) (d0 d1 : Nat) : Peers s (s.logEvent base code sev a d0 d1) := by
  obtain h | ⟨l, h⟩ | ⟨pg, part, ctx, d0', d1', h⟩ := s.logEvent_cases base code sev a d0 d1 <;> rw [h]
  · exact .refl s
  · exact .of_ports rfl rfl
  · exact .of_ports rfl rfl

theorem withSum_peers {s : State} (i : Nat) {f : State → State} (h : Peers s (f s)) : Peers s (s.withSum i f) :=
  State.withSum_keeps_of_summaryMsg (fun _ => State.summaryMsg_keeps_of_sendMsix fun t p v ht => ht.trans (sendMsix_peers t p 0 v)) i h

theorem raiseAt_peers (s : State) (base bit : Nat) (a : Attr) : Peers s (s.raiseAt base bit a) := by
  unfold State.raiseAt
  split
  · exact .refl s
  · refine withSum_peers _ ?_
    dsimp only
    split <;> split
    · exact ((setReg32_peers s _ _).trans (setReg32_peers _ _ _)).trans (logEvent_peers _ _ _ _ _ _ _)
    · exact (setReg32_peers s _ _).trans (setReg32_peers _ _ _)
    · exact (setReg32_peers s _ _).trans (logEvent_peers _ _ _ _ _ _ _)
    · exact setReg32_peers s _ _

theorem pump_peers (s : State) (l : Nat) : Peers s (s.pump l) := by
  unfold State.pump
  dsimp only
  split
  · exact .refl s
  · exact .of_ports rfl rfl

theorem enqueue_peers (s : State) (l : Nat) (fs : List TxFlit) : Peers s (s.enqueue l fs) :=
  (pump_peers (s.setLink l _) l).trans (bumps_peers _ _)

theorem trySendNot_peers (s : State) (m : Msg) (low : Bool) (avoid : Nat) : Peers s (s.trySendNot m low avoid).1 := by
  unfold State.trySendNot
  split
  · exact .of_ports rfl rfl
  · dsimp only
    split
    · exact .refl s
    · rename_i l _
      split
      · exact enqueue_peers s l _
      · exact ((enqueue_peers s l _).trans (fab_peers _ _)).trans (bump_peers _ _ _)

theorem putMsg_peers (s : State) (m : Msg) : Peers s (s.putMsg m) := by
  unfold State.putMsg
  dsimp only
  split
  · exact trySendNot_peers s m false 31
  · exact (bump_peers s _ _).trans (raiseAt_peers _ _ _ _)

theorem take_peers (s : State) (p r n : Nat) (k : Class) : Peers s (s.take p r n k) := by
  unfold State.take
  dsimp only
  split
  · exact bump_peers s _ _
  · exact .of_ports rfl rfl

theorem charge_peers {s t : State} {p r n : Nat} (h : s.charge p r n = some t) : Peers s t := by
  unfold State.charge at h
  split at h
  · cases h; exact .refl s
  · split at h
    · cases h
    · split at h
      · cases h
      · cases h; exact take_peers s _ _ _ _
    · cases h; exact take_peers s _ _ _ _

theorem sendMsg_peers (s : State) (m : Msg) : Peers s (s.sendMsg m) := by
  unfold State.sendMsg
  split
  · rename_i t h
    exact (charge_peers h).trans (putMsg_peers t m)
  · exact .of_ports rfl rfl

/-! ## What the end of a partition's work leaves of the ports -/

theorem coalesce_peers (s : State) (p : Port) (ctx part : Nat) : Peers s (s.coalesce p ctx part) := by
  unfold State.coalesce
  dsimp only
  split
  · exact (setRing_peers s _ _ _).trans (sendMsix_peers _ _ _ _)
  · exact setRing_peers s _ _ _

theorem writeRec_peers (s : State) (p : Port) (ctx : Nat) (x : Rec) : Peers s (s.writeRec p ctx x) := by
  unfold State.writeRec
  dsimp only
  split
  · exact (((emit_peers s p _).trans (setRing_peers _ _ _ _)).trans (bump_peers _ _ _)).trans (coalesce_peers _ _ _ _)
  · exact ((emit_peers s p _).trans (setRing_peers _ _ _ _)).trans (bump_peers _ _ _)

theorem putRec_peers (s : State) (p : Port) (ctx : Nat) (x : Rec) : Peers s (s.putRec p ctx x) := by
  unfold State.putRec
  dsimp only
  split
  · exact writeRec_peers s _ _ _
  · exact setRing_peers s _ _ _

theorem answer_peers (s : State) (c : Cmd) (st sub result edition counter : Nat) (out : List Byte) :
    Peers s (s.answer c st sub result edition counter out) := by
  have h : Peers s ((s.forget c).dropCmd c.id) := .of_ports rfl rfl
  unfold State.answer
  dsimp only
  split
  · exact h.trans (putRec_peers _ _ _ _)
  · exact h.trans (sendMsg_peers _ _)
  · split
    · exact h.trans (putMsg_peers _ _)
    · exact h
  · exact h
  · exact h

theorem discard_peers (s : State) (c : Cmd) : Peers s (s.discard c) := by
  unfold State.discard
  dsimp only
  split <;> exact .of_ports rfl rfl

theorem collDrop_peers (s : State) (id sub : Nat) : Peers s (s.collDrop id sub) := by
  unfold State.collDrop
  refine Peers.foldl (fun s k => ?_) _ s
  dsimp only
  split
  · exact (Peers.foldl (fun s j => putMsg_peers s _) _ s).trans (.of_ports rfl rfl)
  · exact (putMsg_peers s _).trans (.of_ports rfl rfl)

theorem endCmd_peers (s : State) (c : Cmd) (st sub : Nat) : Peers s (s.endCmd c st sub) :=
  ((discard_peers s c).trans (collDrop_peers _ _ _)).trans (answer_peers _ _ _ _ _ _ _ _)

theorem restartOwn_peers (s : State) (c : Cmd) : Peers s (s.restartOwn c) := (discard_peers s c).trans (modCmd_peers _ _ _)

theorem killPart_peers (s : State) (p : Port) (part sub : Nat) (discard : Bool) : Peers s (s.killPart p part sub discard) := by
  have hwork := fun l k : List Cmd => (Peers.foldl (fun t c => endCmd_peers t c stCancelled sub) l s).trans (.foldl (fun t c => restartOwn_peers t c) k _)
  unfold State.killPart
  dsimp only
  split
  · exact hwork _ _
  · refine (hwork _ _).trans (Peers.foldl (fun t r => ?_) _ _)
    split
    · exact setRing_peers t _ _ _
    · exact ((setRing_peers t _ _ _).trans (bump_peers _ _ _)).trans (raiseAt_peers _ _ _ _)

/-! ## The authority is used up -/

theorem RingsOnly.mgt {s t : State} (h : RingsOnly s t) : t.mgt = s.mgt := by
  obtain ⟨r, rfl⟩ := h
  rfl

theorem own_peers (s : State) (p : Port) (part : Nat) : Peers s (s.own p part) := modPort_peers s p fun _ => rfl

theorem endSession_peers (s : State) (p : Port) (part : Nat) : Peers s (s.endSession p part) := .of_ports rfl rfl

/-- A port whose peer is not known to be down takes by the authority, and has none left. -/
theorem State.seized_auth {s : State} {p : Port} (h : (s.port p).peerDown = false) (part : Nat) : (s.seized p part).mgt.auth = none := by
  have hmoved := fun (f : PortSt → PortSt) hf => ((killPart_peers s p.other part 0x0920 (!(s.port p.other).up)).trans (modPort_peers _ p.other (f := f) hf)).trans
    ((own_peers _ p part).trans (endSession_peers _ p.other part))
  unfold State.seized
  dsimp only
  split
  · rename_i hdown
    refine absurd hdown (Bool.eq_false_iff.1 ((hmoved _ ?_ p).trans h))
    exact fun _ => rfl
  · rfl

theorem State.mayForce_of_peer {s : State} {p : Port} (h : (s.port p).peerDown = false) (part : Nat) : s.mayForce p part = s.authFor p part := by
  rw [State.mayForce, h, Bool.false_or]

theorem State.authFor_iff {s : State} {part : Nat} {port : Port} {since : Nat} (h : s.mgt.auth = some (part, port, since)) {p : Port} {q : Nat} :
    s.authFor p q = true ↔ (p, q) = (port, part) := by
  simp only [State.authFor, h, Bool.and_eq_true, beq_iff_eq, Prod.mk.injEq]
  exact ⟨fun ⟨hq, hp⟩ => ⟨hp.symm, hq.symm⟩, fun ⟨hp, hq⟩ => ⟨hq.symm, hp.symm⟩⟩

/-! ## TAKEOVER_AUTH (15 R475) -/

/-- The authority for a forced take of a partition on a port, as of now. -/
def State.authorised (s : State) (part : Nat) (port : Port) : State := { s with mgt := { s.mgt with auth := some (part, port, s.time.lctr) } }

theorem exec_takeoverAuth_of_serves {s : State} {ver part : Nat} (h : s.ebServes .mctp ver 0x12 5 = true) (hpart : part < 16) (seq : Nat) (port : Port) :
    exec (.takeoverAuth .mctp ver seq part port) s = .next ((s.authorised part port).ebReply .mctp ver 1 7 seq 0 []) := by
  rw [exec, execTakeoverAuth, State.onEb_of_serves _ _ _ _ h]
  simp [Nat.not_le.2 hpart, State.authorised]

/-- Settles O58: the request sets the authority, which a take on a port without a lost peer is checked against and uses up, and the lapse is a comparison of times. -/
theorem takeoverAuthorityIsForOneTake : Obligations.TakeoverAuthorityIsForOneTake := by
  unfold Obligations.TakeoverAuthorityIsForOneTake
  refine ⟨fun ver seq part port s h hpart => ?auth, fun a p part since s hauth hpart hpeer howner hreach hstage => ?take, fun s => ?lapse⟩
  case auth =>
    have hreply := ebReply_replies (s.authorised part port) .mctp ver 1 7 seq 0 []
    have hauth := (s.authorised part port).ebReply_auth .mctp ver 1 7 seq 0 []
    have hfor := fun p q => State.authFor_iff (p := p) (q := q) hauth
    refine ⟨_, exec_takeoverAuth_of_serves h hpart seq port, hauth, ?_, fun p q hne hpeer => ?_, hreply.cmds, hreply.pa, hreply.pb⟩
    · rw [State.mayForce, (hfor port part).2 rfl, Bool.or_true]
    · have hport := Peers.of_ports hreply.pa hreply.pb p
      rw [State.mayForce_of_peer (hport.trans hpeer)]
      exact Bool.eq_false_iff.2 fun hmay => hne ((hfor p q).1 hmay)
  case take =>
    have hmay : s.mayForce p part = true := (State.mayForce_of_peer hpeer part).trans ((State.authFor_iff hauth).2 rfl)
    have hrings := State.force1_of_accepted howner hmay
    refine ⟨_, exec_forcedTakeover_one hreach hstage hpart, ?_, ?_⟩
    · rw [hrings.owns, (s.seized_owners p part).1]
    · rw [hrings.mgt, State.seized_auth hpeer]
  case lapse =>
    refine ⟨fun h => ?_, fun q p since h hearly => ?_, fun q p since h hpassed => ?_⟩
    · simp only [exec, execTakeoverAuthLapse, h]
    · simp only [exec, execTakeoverAuthLapse, h, if_pos hearly]
    · simp only [exec, execTakeoverAuthLapse, h, if_neg (Nat.not_lt.2 hpassed)]

end Sys2Proof.Machine
end

section
/-! SUPPORT. HOLD, the core voltage loop and the sensors (spec 15 R462, R463, R465 to R467, R476; log entries 3 and 95). -/

namespace Sys2Proof.Machine

open Sys2Proof

/-! ## What the dies take as HOLD begins (11 R351) -/

/-- `t` is `s` but for the queues of the dies with the rows they program, and what is counted. -/
def TakesWork (s t : State) : Prop :=
  ∃ reg runs supers streams, t = { s with reg := reg, fte := { s.fte with runs := runs, supers := supers, streams := streams } }

theorem TakesWork.refl (s : State) : TakesWork s s := ⟨s.reg, s.fte.runs, s.fte.supers, s.fte.streams, rfl⟩

theorem TakesWork.trans {s t u : State} (h : TakesWork s t) (k : TakesWork t u) : TakesWork s u := by
  obtain ⟨reg, runs, supers, streams, rfl⟩ := h
  obtain ⟨reg', runs', supers', streams', rfl⟩ := k
  exact ⟨reg', runs', supers', streams', rfl⟩

theorem bump_takesWork (s : State) (o n : Nat) : TakesWork s (s.bump o n) := ⟨_, s.fte.runs, s.fte.supers, s.fte.streams, rfl⟩

theorem setRun_takesWork (s : State) (d : Nat) (r : DieRun) : TakesWork s (s.setRun d r) := ⟨s.reg, _, s.fte.supers, s.fte.streams, rfl⟩

theorem setSuper_takesWork (s : State) (p i : Nat) (x : Super) : TakesWork s (s.setSuper p i x) := ⟨s.reg, s.fte.runs, _, s.fte.streams, rfl⟩

theorem setStream_takesWork (s : State) (p st : Nat) (x : Stream) : TakesWork s (s.setStream p st x) := ⟨s.reg, s.fte.runs, s.fte.supers, _, rfl⟩

theorem startRow_takesWork (s : State) (p st : Nat) : TakesWork s (s.startRow p st) := by
  unfold State.startRow
  dsimp only
  split
  · exact .refl s
  · exact (setSuper_takesWork s _ _ _).trans (setStream_takesWork _ _ _ _)

theorem issue_takesWork (s : State) (d : Nat) (o : DieOp) : TakesWork s (s.issue d o) := by
  have hrun := setRun_takesWork s d { cur := some o, paused := none, served := 0 }
  unfold State.issue
  dsimp only
  split
  · split
    · exact hrun
    · exact hrun.trans (startRow_takesWork _ _ _)
  · exact hrun

theorem pumpDie_takesWork (asked : List (Nat × DieOp)) (s : State) (d : Nat) : TakesWork s (State.pumpDie asked s d) := by
  unfold State.pumpDie
  dsimp only
  split
  · split
    · exact .refl s
    · exact (bump_takesWork s _ _).trans (setRun_takesWork _ _ _)
  · exact .refl s
  · split
    · exact setRun_takesWork s _ _
    · exact setRun_takesWork s _ _
    · exact issue_takesWork s _ _
    · exact .refl s

theorem pumpDies_takesWork (s : State) : TakesWork s s.pumpDies := by
  unfold State.pumpDies
  exact List.foldlRecOn (motive := TakesWork s) _ _ (.refl s) fun t ht d _ => ht.trans (pumpDie_takesWork _ t d)

/-! ## HOLD (15 R465 to R467) -/

section
variable {s : State} {mv : List Nat}

theorem exec_holdEnter_of_not_low (h : s.pwr.monitors = false ∨ (s.setMv mv).vLow ≥ s.vWarn) : exec (.holdEnter mv) s = .next (s.setMv mv) := by
  have hno : ¬((s.setMv mv).pwr.monitors && !(s.setMv mv).pwr.hold && (s.setMv mv).pwr.flush.isNone && decide ((s.setMv mv).vLow < (s.setMv mv).vWarn)) = true := by
    simp only [Bool.and_eq_true, decide_eq_true_iff]
    rintro ⟨⟨⟨hmon, -⟩, -⟩, hlow⟩
    exact h.elim (fun hoff => Bool.false_ne_true (hoff.symm.trans hmon)) fun hhigh => Nat.not_lt.2 hhigh hlow
  rw [exec, execHoldEnter]
  exact congrArg Host.Outcome.next (if_neg hno)

theorem exec_holdEnter_of_low (hmon : s.pwr.monitors = true) (hhold : s.pwr.hold = false) (hflush : s.pwr.flush = none) (hlow : (s.setMv mv).vLow < s.vWarn) :
    exec (.holdEnter mv) s = .next ((s.setMv mv).enterHold false) := by
  have hgo : ((s.setMv mv).pwr.monitors && !(s.setMv mv).pwr.hold && (s.setMv mv).pwr.flush.isNone && decide ((s.setMv mv).vLow < (s.setMv mv).vWarn)) = true := by
    have hlow' : (s.setMv mv).vLow < (s.setMv mv).vWarn := hlow
    simp only [Bool.and_eq_true, decide_eq_true_iff]
    exact ⟨⟨⟨hmon, congrArg Bool.not hhold⟩, congrArg Option.isNone hflush⟩, hlow'⟩
  rw [exec, execHoldEnter]
  exact congrArg Host.Outcome.next (if_pos hgo)

theorem exec_holdExit_of_waiting
    (h : s.pwr.hold = false ∨ (s.setMv mv).vLow ≤ s.vWarn + 20 ∨ s.time.lctr > s.pwr.holdAt + fld (s.reg32 (pPwr + 0x104)) 5 0 * 2 ^ 14) :
    exec (.holdExit mv) s = .next (s.setMv mv) := by
  rw [exec, execHoldExit]
  refine if_pos ?_
  obtain h | h | h := h
  · have hoff : (s.setMv mv).pwr.hold = false := h
    simp only [hoff, Bool.not_false, Bool.true_or]
  · have hlow : (s.setMv mv).vGood = false := decide_eq_false (Nat.not_lt.2 h)
    simp only [hlow, Bool.not_false, Bool.or_true, Bool.true_or]
  · have hlate : (s.setMv mv).time.lctr > (s.setMv mv).pwr.holdAt + fld ((s.setMv mv).reg32 (pPwr + 0x104)) 5 0 * 2 ^ 14 := h
    simp only [decide_eq_true hlate, Bool.or_true, Bool.true_or]

/-- The episode is counted and logged, and HOLD is over. -/
def State.holdEnded (s : State) : State :=
  let t := (s.bump (pPwr + 0x040) 1).logEvent pPwr 2 2 noAttr (sat32 (s.time.lctr - s.pwr.holdAt)) (s.pwr.holdMin % 2 ^ 16)
  { t with pwr := { t.pwr with hold := false, holdInj := false } }

theorem exec_holdExit_of_good (hhold : s.pwr.hold = true) (hgood : (s.setMv mv).vLow > s.vWarn + 20)
    (htime : s.time.lctr ≤ s.pwr.holdAt + fld (s.reg32 (pPwr + 0x104)) 5 0 * 2 ^ 14) (hinj : s.pwr.holdInj = false) :
    exec (.holdExit mv) s = .next (s.setMv mv).holdEnded.release.injectDip := by
  have hon : (s.setMv mv).pwr.hold = true := hhold
  have hv : (s.setMv mv).vGood = true := decide_eq_true hgood
  have hearly : ¬(s.setMv mv).time.lctr > (s.setMv mv).pwr.holdAt + fld ((s.setMv mv).reg32 (pPwr + 0x104)) 5 0 * 2 ^ 14 := Nat.not_lt.2 htime
  have hno : (s.setMv mv).pwr.holdInj = false := hinj
  rw [exec, execHoldExit]
  refine if_neg ?_
  simp only [hon, hv, decide_eq_false hearly, hno, Bool.not_true, Bool.false_and, Bool.or_self, Bool.false_eq_true, not_false_eq_true]

end

/-- What the dies take aside, HOLD begins by its flag and its time. -/
theorem enterHold_takesWork (s : State) (inj : Bool) :
    TakesWork { s with pwr := { s.pwr with hold := true, holdAt := s.time.lctr, holdMin := s.vLow, holdInj := inj } } (s.enterHold inj) := by
  obtain ⟨reg, runs, supers, streams, h⟩ := pumpDies_takesWork s
  rw [State.enterHold, h]
  exact ⟨reg, runs, supers, streams, rfl⟩

theorem holdEnded_reports (s : State) : Reports { s with pwr := { s.pwr with hold := false, holdInj := false } } s.holdEnded := by
  have h := (bump_reports s (pPwr + 0x040) 1).trans (logEvent_reports _ pPwr 2 2 noAttr (sat32 (s.time.lctr - s.pwr.holdAt)) (s.pwr.holdMin % 2 ^ 16))
  rw [State.holdEnded, h.pwr]
  exact h.withPwr _

theorem State.counter_holdEnded (s : State) : s.holdEnded.counter (pPwr + 0x040) = (s.counter (pPwr + 0x040) + 1) % 2 ^ 64 := by
  refine Eq.trans ?_ (State.counter_bump_same s (pPwr + 0x040) 1)
  exact State.counter_logEvent _ _ _ _ _ _ _ (by decide)

/-! ## The core voltage loop (15 R462, R463) -/

theorem le_nextVset (v floor target t p throttle cap peak : Nat) : floor ≤ nextVset v floor target t p throttle cap peak := by
  unfold nextVset
  split_ifs <;> exact Nat.le_max_right _ _

theorem nextVset_le {v floor target : Nat} (hfloor : floor ≤ target) (hv : v ≤ target) (t p throttle cap peak : Nat) :
    nextVset v floor target t p throttle cap peak ≤ target := by
  unfold nextVset
  split_ifs
  · exact max_le ((Nat.sub_le _ _).trans hv) hfloor
  · exact max_le ((Nat.sub_le _ _).trans hv) hfloor
  · exact max_le (Nat.min_le_right _ _) hfloor
  · exact max_le hv hfloor

/-- The setpoint the loop aims at. -/
def State.loopAim (s : State) (temp power : Nat) : Nat :=
  nextVset s.pwr.vset s.vFloor (fld (s.reg32 (pPwr + 0x108)) 7 0) temp power (fld (s.reg32 (pPwr + 0x110)) 7 0) (fld (s.reg32 (pPwr + 0x118)) 15 0) (fld (s.reg32 (pPwr + 0x118)) 31 16)

section
variable {s : State} (temp power : Nat) (ok : Bool)

theorem exec_voltageLoopStep_of_idle (h : s.pwr.hold = true ∨ s.powered 5 = false) : exec (.voltageLoopStep temp power ok) s = .next s := by
  rw [exec, execVoltageLoopStep]
  refine if_pos ?_
  obtain h | h := h <;> simp only [h, Bool.not_false, Bool.or_true, Bool.true_or]

variable {n : Nat} (hhold : s.pwr.hold = false) (hcore : s.powered 5 = true) (hstage : s.pwr.stage = some n) (hn : n ≥ 1)
include hhold hcore hstage hn

theorem exec_voltageLoopStep_of_on :
    exec (.voltageLoopStep temp power ok) s = .next (
      let u : State := { s with pwr := { s.pwr with power := power } }
      let v := s.loopAim temp power
      if v == s.pwr.vset then u
      else if decide (v < s.pwr.vset) && ok then (u.avsWrite v ok).bump (pPwr + 0x058) 1 else u.avsWrite v ok) := by
  have hgo : ¬(s.pwr.hold || !s.powered 5 || !(s.pwr.stage.elim false fun n => decide (n ≥ 1))) = true := by
    simp only [hhold, hcore, hstage, Option.elim_some, decide_eq_true hn, Bool.not_true, Bool.or_self, Bool.false_eq_true, not_false_eq_true]
  rw [exec, execVoltageLoopStep, if_neg hgo, apply_ite Host.Outcome.next]
  rfl

end

/-- AVSBus takes the setpoint, or its failure is reported and the setpoint stays. -/
theorem State.avsWrite_taken (s : State) (v : Nat) : s.avsWrite v true = { s with pwr := { s.pwr with vset := v, avsOk := true } } := rfl

theorem avsWrite_reports (s : State) (v : Nat) : Reports { s with pwr := { s.pwr with avsOk := false } } (s.avsWrite v false) := raise_reports _ pPwr 5

/-! ## Sensors (15 R476) -/

/-- The reading of a sensor as it is refreshed. -/
def State.reading (s : State) (vals : List Nat) (i : Nat) : Nat :=
  if i == 22 then 5 * s.pwr.vset else if s.sensorOn i then vals.getD i 0 else s.pwr.sensors.getD i 0

theorem getElem?_map_range {n i : Nat} (h : i < n) (f : Nat → Nat) : ((List.range n).map f)[i]? = some (f i) := by
  rw [List.getElem?_map, List.getElem?_range h, Option.map_some]

theorem exec_sensorRefresh_of_off {s : State} (h : s.powered 29 = false) (vals : List Nat) : exec (.sensorRefresh vals) s = .next s := by
  rw [exec, execSensorRefresh]
  exact if_pos (congrArg Bool.not h)

theorem exec_sensorRefresh_of_on {s : State} (h : s.powered 29 = true) (vals : List Nat) :
    ∃ x : PwrSt, x.sensors = (List.range 23).map (s.reading vals) ∧ exec (.sensorRefresh vals) s = .next (State.bump { s with pwr := x } (pTel + 0x048) 1) := by
  rw [exec, execSensorRefresh]
  exact ⟨_, rfl, if_neg (by simp only [h, Bool.not_true, Bool.false_eq_true, not_false_eq_true])⟩

/-- Settles O45: HOLD begins and ends by one comparison each, the loop's step is `nextVset` as far as AVSBus takes it, and a refresh replaces the readings as a list. -/
theorem holdAndTheVoltageLoopFollowTheSupply : Obligations.HoldAndTheVoltageLoopFollowTheSupply := by
  unfold Obligations.HoldAndTheVoltageLoopFollowTheSupply
  refine ⟨fun mv s => ⟨exec_holdEnter_of_not_low, fun hmon hhold hflush hlow => ?begins, exec_holdExit_of_waiting, fun hhold hgood htime hinj => ?ends⟩,
    fun temp power ok s => ⟨exec_voltageLoopStep_of_idle temp power ok, fun n hhold hcore hstage hn => ?loop⟩,
    fun v floor target t p throttle cap peak => ⟨le_nextVset _ _ _ _ _ _ _ _, fun hfloor hv => nextVset_le hfloor hv _ _ _ _ _, fun hpeak => if_pos hpeak,
      fun hpeak hlimit => (if_neg (Nat.not_lt.2 hpeak)).trans (if_pos hlimit)⟩,
    fun vals s => ⟨fun h => exec_sensorRefresh_of_off h vals, fun h => ?refresh⟩⟩
  case begins =>
    obtain ⟨reg, runs, supers, streams, h⟩ := enterHold_takesWork (s.setMv mv) false
    refine ⟨_, exec_holdEnter_of_low hmon hhold hflush hlow, ?_⟩
    rw [h]
    exact ⟨rfl, rfl, rfl, rfl, rfl, rfl, rfl, rfl⟩
  case ends =>
    have hrep := holdEnded_reports (s.setMv mv)
    exact ⟨(s.setMv mv).holdEnded, congrArg PwrSt.hold hrep.pwr, hrep.cmds, hrep.hbm, (congrArg PwrSt.holdReqs hrep.pwr).trans rfl, State.counter_holdEnded _,
      exec_holdExit_of_good hhold hgood htime hinj⟩
  case loop =>
    refine ⟨_, exec_voltageLoopStep_of_on temp power ok hhold hcore hstage hn, ?_⟩
    change _ ∧ _ ∧ _ ∧ _ ∧ (s.loopAim temp power < s.pwr.vset → _ → _)
    by_cases hsame : s.loopAim temp power = s.pwr.vset
    · rw [if_pos (beq_iff_eq.2 hsame)]
      exact ⟨(ite_eq_right_iff.2 fun _ => hsame).symm, rfl, rfl, rfl, fun hlow => absurd hsame (Nat.ne_of_lt hlow)⟩
    · rw [if_neg (mt beq_iff_eq.1 hsame)]
      cases ok with
      | true =>
        rw [State.avsWrite_taken]
        split
        · exact ⟨rfl, rfl, rfl, rfl, fun _ _ => State.counter_bump_same _ _ _⟩
        · rename_i hhigh
          exact ⟨rfl, rfl, rfl, rfl, fun hlow => absurd (by simpa using hlow) hhigh⟩
      | false =>
        have hrep := avsWrite_reports ({ s with pwr := { s.pwr with power := power } } : State) (s.loopAim temp power)
        rw [if_neg (by simp only [Bool.and_false, Bool.false_eq_true, not_false_eq_true])]
        exact ⟨(congrArg PwrSt.vset hrep.pwr).trans rfl, (congrArg PwrSt.power hrep.pwr).trans rfl, hrep.cmds, hrep.hbm, fun _ => nofun⟩
  case refresh =>
    obtain ⟨x, hx, hexec⟩ := exec_sensorRefresh_of_on h vals
    refine ⟨_, hexec, ?_, ?_, fun i hi => ?_, State.counter_bump_same _ _ _, rfl, rfl⟩
    · exact (congrArg List.length hx).trans (by simp)
    · exact (congrArg (·[22]?) hx).trans (getElem?_map_range (by decide) _)
    · refine (congrArg (·[i]?) hx).trans ((getElem?_map_range (by omega) _).trans ?_)
      rw [State.reading, if_neg (by simpa using Nat.ne_of_lt hi)]

end Sys2Proof.Machine
end
